-- ==== Sys2Proof/Word.lean ====
section
/-! DEFINITION. The word types of the Zendun module and their plainest arithmetic (R3: bit 0 is the
least significant bit, multi-byte values are little-endian). -/

namespace Sys2Proof

/-- A 64-bit register or address (R136). -/
abbrev Word := BitVec 64
/-- One byte of memory. -/
abbrev Byte := BitVec 8
/-- One 32-bit instruction word (R106). -/
abbrev IWord := BitVec 32
/-- A 1 KiB vector row, operand-file entry or latch (R136). -/
abbrev Row := BitVec 8192
/-- A predicate register (R139). -/
abbrev PredWord := BitVec 256
/-- A handle register (R138). -/
abbrev HandleWord := BitVec 256

/-- Numbers of scalar, handle, predicate and tile registers. -/
abbrev XReg := BitVec 6
abbrev HReg := BitVec 5
abbrev PReg := BitVec 7
abbrev TReg := BitVec 4
/-- The number of a compute core, die × 256 + quad × 4 + core within the quad (R146). -/
abbrev CoreNo := BitVec 10
/-- A compute core, or one of the four cores of the control complex, 1024 to 1027. -/
abbrev AnyCore := BitVec 11
abbrev DieNo := BitVec 2

/-- `n` as a 64-bit word. -/
def w64 (n : Nat) : Word := BitVec.ofNat 64 n

/-- Truth as the number 0 or 1. -/
def bit (b : Bool) : Nat := if b then 1 else 0

/-- Bits `hi`–`lo` of the number `v`. -/
def bitsOf (v hi lo : Nat) : Nat := (v >>> lo) % 2 ^ (hi + 1 - lo)

/-- The value of a little-endian list of bytes (R3). -/
def leNat : List Byte → Nat
  | [] => 0
  | b :: bs => b.toNat + 256 * leNat bs

/-- `n` little-endian bytes of the number `v` (R3). -/
def leBytes : Nat → Nat → List Byte
  | 0, _ => []
  | n + 1, v => BitVec.ofNat 8 v :: leBytes n (v / 256)

end Sys2Proof
end

