-- ==== Sys2Proof/Config.lean ====
section
/-! DEFINITION. What the manual leaves to firmware or to the implementation: the places of the
firmware's tables and of the supervisor's register windows, and the free values, which have no body. -/

namespace Sys2Proof.Config

/-! ## Free values: results that the manual leaves open -/

/-- A row, entry, tile or plane image whose contents the manual leaves undefined (R140, R204, R280,
R302, R303), drawn fresh by a counter of the state. DESIGN CHOICE (log 5). -/
opaque freeRow : Nat → BitVec 8192
/-- A byte whose contents the manual leaves undefined (R204, R209). DESIGN CHOICE (log 5). -/
opaque freeByte : Nat → BitVec 8
/-- A number that the manual leaves to the implementation: cache occupancy (R207), an opaque reply
(R456), a jitter or a choice. DESIGN CHOICE (log 5). -/
opaque freeNat : Nat → Nat
/-- The silicon stepping of ID (R146) less one: `from 0x01`. DESIGN CHOICE (log 5). -/
opaque steppingPast : Nat
/-- The silicon stepping of ID (R146): any value from 0x01 on. -/
def stepping : BitVec 8 := BitVec.ofNat 8 (1 + steppingPast % 255)
/-- Which code within the bound of R78 a special function returns, of those the bound leaves: by
function, mode, input code. DESIGN CHOICE (log 5, 39). -/
opaque sfuPick : Nat → Nat → Nat → Nat
/-- How far above the least upper bound, in F32 steps, a bound at an interior point of R92 is taken.
DESIGN CHOICE (log 5, 40). -/
opaque relaxSlack : Nat → Nat
/-- The bytes that the firmware's SPDM responder answers a request with, each time it is asked: they sign measurements
of a state that changes (R456). DESIGN CHOICE (log 5). -/
opaque spdmReply : Nat → List (BitVec 8) → List (BitVec 8)
/-- What CORE, QUAD, ARBMODE and LEASE read as on a core of the control complex, by register number and
core: the manual numbers compute cores alone (R146). DESIGN CHOICE (log 5, 9). -/
opaque controlId : Nat → Nat → BitVec 64

/-! ## Physical addresses that firmware chooses and the capability list names (R392) -/

/-- CAP: the first entry of the capability list (R146, R391). DESIGN CHOICE (log 10). -/
def capBase : Nat := 0x0020_0000
/-- The health table (R390). DESIGN CHOICE (log 10). -/
def healthBase : Nat := 0x0021_0000
/-- The migration threshold table (R230). DESIGN CHOICE (log 10). -/
def migrationBase : Nat := 0x0022_0000
/-- The header of ring `k` of die `d`: 0 the 64 KiB free ring, 1 the 2 MiB free ring, 2 the released
ring (R222), 3 the core save buffer ring (R366). DESIGN CHOICE (log 10). -/
def ringBase (d k : Nat) : Nat := 0x0023_0000 + 0x400 * d + 0x40 * k
/-- The gazetteer (R383). DESIGN CHOICE (log 10). -/
def gazetteerBase : Nat := 0x0080_0000
/-- The symbol pool (R376). DESIGN CHOICE (log 10). -/
def symbolBase : Nat := 0x1000_0000

/-- The register window of die `d` in the supervisor's physical address space. DESIGN CHOICE (log 10). -/
def window (d : Nat) : Nat := 0xF000_0000_0000 + 0x10_0000 * d
/-- TXCMD of die `d` (R229); the roots stand 8 and 16 bytes above it (R446). -/
def txcmdAt (d : Nat) : Nat := window d
/-- TASKCMD of die `d` (R362); it is the first word of its 4 KiB page. -/
def taskcmdAt (d : Nat) : Nat := window d + 0x1_0000
/-- The counter block (R397). -/
def counterAt (d : Nat) : Nat := taskcmdAt d + 0x1000
/-- The launch queue registers (R441). -/
def launchAt (d : Nat) : Nat := taskcmdAt d + 0x2000
/-- The time status block (R441). -/
def timeAt (d : Nat) : Nat := taskcmdAt d + 0x3000
/-- MGMTCMD, on die 0 (R441); the power limit stands 8 bytes above it (R452). -/
def mgmtAt : Nat := taskcmdAt 0 + 0x3800
/-- The core control block (R151). -/
def controlAt (d : Nat) : Nat := taskcmdAt d + 0x4000

end Sys2Proof.Config
end

