-- ==== Sys2Proof/Syntax.lean ====
section
/-! DEFINITION. The one inductive of the module's steps: every row of the table of operations and
events is a constructor of `Instr`. Rows with an encoding (R106 to R125) are instructions; the
others are events, which carry what the event brings with it. -/

namespace Sys2Proof

/-- Rounding modes (R56). -/
inductive Rm where
  | rne | rz | rd | ru
deriving DecidableEq, Repr

/-- The element types of R119; the type field, the N bit and the nf index are read together. -/
inductive VTy where
  | f32 | bf16 | f16
  | nf (r : BitVec 2)
  | i32 | n32 | i64 | n64 | i16 | n16 | i8 | n8
deriving DecidableEq, Repr

/-- The four token bits of E64 word 0 (R116): push and pop, right and left neighbour. -/
structure Tok where
  sr : Bool
  sl : Bool
  pr : Bool
  pl : Bool
deriving DecidableEq, Repr

/-- What every standard vector instruction carries: type, saturation, rounding, guard, tokens. -/
structure VHdr where
  ty : VTy
  sat : Bool
  rm : Rm
  guard : PReg
  tok : Tok
deriving DecidableEq, Repr

/-- A vector operand (R120). -/
inductive VOp where
  | row (n : BitVec 8)
  | ofile (i : BitVec 3)
  | latch
  | bcast (x : XReg)
deriving DecidableEq, Repr

/-- A source that a 96-bit form may replace by a literal (R123). -/
inductive VSrc where
  | op (o : VOp)
  | lit (v : BitVec 32)
deriving DecidableEq, Repr

/-- The offset of a vector memory instruction (R259). -/
inductive VOff where
  | reg (x : XReg)
  | imm (k : BitVec 14)
deriving DecidableEq, Repr

/-- FENCE and atomic orders (R113, R253). -/
inductive Order where
  | rlx | acq | rel | ar | sc
deriving DecidableEq, Repr

/-- The scopes of R239. -/
inductive Scope where
  | core | quad | die | module | domain | system
deriving DecidableEq, Repr

/-- The parts of a handle register that HGET and HSET name (R114). -/
inductive HField where
  | base | record | attr | cursor | bound
deriving DecidableEq, Repr

/-- The five rooms of the Lodge, by code (R192). -/
inductive Room where
  | reg | pad | cache | matrix | spill
deriving DecidableEq, Repr

/-- What LRMAP does with a departing room's contents (R202): nothing said, declared dead, saved. -/
inductive Disp where
  | none | dead | save
deriving DecidableEq, Repr

/-- The comparisons of WAIT (R354). -/
inductive WCmp where
  | eq | ne | lt | ge | ltu | geu
deriving DecidableEq, Repr

/-- The modes of TDRAIN (R307). -/
inductive DrainMode where
  | plain | encl | radd | rset
deriving DecidableEq, Repr

/-- σ of AALIGN (R323). -/
inductive Sigma where
  | align | add | sub
deriving DecidableEq, Repr

/-- The operation of COLL (R342). -/
inductive CollOp where
  | sum | max | min | or
deriving DecidableEq, Repr

/-- The operands of a WAIT (R354). -/
structure WaitArgs where
  all : Bool
  xv : XReg
  xm : XReg
  xd : XReg
  xt : XReg
  thr : BitVec 4
  ctr : BitVec 2
  scope : Scope
  wide : Bool
  cmp : WCmp
  enM : Bool
  enE : Bool
  enK : Bool
  enT : Bool
  timeout : BitVec 32
deriving DecidableEq, Repr

/-- The operands every atomic shares (R253). -/
structure AmoArgs where
  xd : XReg
  xa : XReg
  xb : XReg
  wide : Bool
  order : Order
  scope : Scope
deriving DecidableEq, Repr

/-- The operands every vector memory instruction shares (R259). -/
structure VMem where
  ty : VTy
  guard : PReg
  tok : Tok
  h : HReg
  off : VOff
deriving DecidableEq, Repr

/-- The operands of TDRAIN (R307). -/
structure DrainArgs where
  tok : Tok
  sat : Bool
  rm : Rm
  mode : DrainMode
  pack : Bool
  plane : Bool
  hd : HReg
  hr : HReg
  hv : HReg
  xo : XReg
  mi : BitVec 7
  nj : BitVec 7
deriving DecidableEq, Repr

/-- Which of a context's three instruction queues (R335). -/
inductive QName where
  | lq | cq | sq
deriving DecidableEq, Repr

/-- What traffic of another module's engine asks of this one (R345). -/
inductive RemoteReq where
  /-- the bytes of a SEND of another module -/
  | write (va : Word) (data : List Byte)
  /-- a RECV of another module reads here; `reply` names its job there -/
  | read (va : Word) (n : Nat) (reply : Nat)
deriving DecidableEq, Repr

/-- What comes back over the fabric for a SEND or RECV of this module (R345, R388, R389). -/
inductive RemoteReport where
  | visible
  | data (bytes : List Byte)
  | routeCheck (hop : BitVec 4)
  | linkDown (link : BitVec 5)
  /-- the granules before the fault, then the remote address and the reason of R233 -/
  | access (before : List Byte) (addr : Word) (reason : BitVec 4)
deriving DecidableEq, Repr

/-- What a switch reduction returns to a member (R448). -/
inductive SwitchResult where
  | complete (elems : List Word)
  | incomplete (missing : List Nat)
  /-- a contribution was dropped on its way: ROUTE_CHECK with its hop and destination (R388), or a link lost (R449) -/
  | routeCheck (hop : BitVec 4) (module : BitVec 16)
  | linkDown (link : BitVec 5)
deriving DecidableEq, Repr

/-- A host access through the HDM range (R440), or through BAR0 (R441). -/
inductive HdmReq where
  | read (addr : Nat) (n : Nat)
  | write (addr : Nat) (data : List Byte)
  | barRead (off : BitVec 22) (n : Nat)
  | barWrite (off : BitVec 22) (data : List Byte)
deriving DecidableEq, Repr

/-- The registers that REGISTER_WRITE names: those without behaviour of their own (R397, R442). -/
inductive SupReg where
  | fqBase | fqCapacity | fqHead | accessSnapshot
  | lqBase (c : BitVec 3) | lqCapacity (c : BitVec 3) | lqMsi (c : BitVec 3)
  /-- an RO field or a reserved byte: the write is ignored -/
  | ignored
deriving DecidableEq, Repr

/-- The module and the engine that a packet of the fabric is addressed to (R389). -/
structure Addressee where
  module : BitVec 16
  engine : BitVec 6
deriving DecidableEq, Repr

/-- The header of a collective's packet: its sender's module and its addressee (R389). -/
structure PacketHead where
  src : BitVec 16
  module : BitVec 16
  engine : BitVec 6
deriving DecidableEq, Repr

/-- The module's draw averaged over 100 µs, in watts (R452). -/
structure DrawObs where
  draw : Nat
deriving DecidableEq, Repr

/-- A flit with a bad CRC on a link: received, or sent by this module (R385). -/
structure FlitObs where
  link : BitVec 5
  sent : Bool
deriving DecidableEq, Repr

/-- What IEEE 1588 discipline learns from one event message (R450, R451). -/
structure PtpObs where
  /-- offset to the grandmaster in units of 2^−16 ns, signed -/
  offset : BitVec 64
  bound : Word
  /-- the rate adjustment that follows, signed, in parts per 10^12 -/
  rate : Int
  /-- the grandmaster time in nanoseconds at the first lock -/
  grand : Word
deriving DecidableEq, Repr

/-- A firmware image as the boot ROM sees it (R456). -/
structure FwImage where
  signatureOk : Bool
  keyHashOk : Bool
  securityVersion : Nat
deriving DecidableEq, Repr

/-- What the boot ROM finds at a reset: the firmware images that it is to run, the first of them the module's firmware,
and whether every other check passes (R456, R457). -/
structure BootObs where
  images : List FwImage
  othersPass : Bool
deriving DecidableEq, Repr

/-- The cause of a fetch fault (R107). -/
inductive FetchFault where
  | xlate (reason : BitVec 4) (va : Word)
  | permission (va : Word)
  | ecc (va : Word)
  | misalign
deriving DecidableEq, Repr

/-- What a die's input rails and the module's show of a microsecond (R399): the µJ drawn by the die and
by the module, and in nanojoules what each core, each quad's engines and the rest of the die drew. -/
structure EnergyObs where
  die : DieNo
  drawn : Nat
  module : Nat
  cores : List (Nat × Nat)
  quads : List (Nat × Nat)
  rest : Nat
deriving DecidableEq, Repr

/-- The steps of the module: one constructor for each row of the table of operations and events. -/
inductive Instr where
  -- the SA group (R158)
  | add (d a b : XReg) | sub (d a b : XReg) | and (d a b : XReg) | or (d a b : XReg)
  | xor (d a b : XReg) | andn (d a b : XReg) | orn (d a b : XReg) | xnor (d a b : XReg)
  | sll (d a b : XReg) | srl (d a b : XReg) | sra (d a b : XReg) | rol (d a b : XReg)
  | ror (d a b : XReg) | mul (d a b : XReg) | wmuls (d a b : XReg) | wmulu (d a b : XReg)
  | wmulm (d a b : XReg) | div (d a b : XReg) | divu (d a b : XReg) | rem (d a b : XReg)
  | remu (d a b : XReg) | min (d a b : XReg) | max (d a b : XReg) | minu (d a b : XReg)
  | maxu (d a b : XReg) | slt (d a b : XReg) | sltu (d a b : XReg) | seq (d a b : XReg)
  | sne (d a b : XReg) | clz (d a : XReg) | ctz (d a : XReg) | popc (d a : XReg)
  | brev (d a : XReg) | bytr (d a : XReg) | fnsb (d a b : XReg) | bext (d a b : XReg)
  | bins (d a b : XReg) | addw (d a b : XReg) | subw (d a b : XReg)
  -- immediates (R161)
  | addi (d a : XReg) (imm : BitVec 12) | andi (d a : XReg) (imm : BitVec 12)
  | ori (d a : XReg) (imm : BitVec 12) | xori (d a : XReg) (imm : BitVec 12)
  | slli (d a : XReg) (n : BitVec 6) | srli (d a : XReg) (n : BitVec 6)
  | srai (d a : XReg) (n : BitVec 6) | rori (d a : XReg) (n : BitVec 6)
  | slti (d a : XReg) (imm : BitVec 12) | sltiu (d a : XReg) (imm : BitVec 12)
  -- scalar loads and stores (R249)
  | ldb (d a : XReg) (imm : BitVec 12) | ldbu (d a : XReg) (imm : BitVec 12)
  | ldh (d a : XReg) (imm : BitVec 12) | ldhu (d a : XReg) (imm : BitVec 12)
  | ldw (d a : XReg) (imm : BitVec 12) | ldwu (d a : XReg) (imm : BitVec 12)
  | ldd (d a : XReg) (imm : BitVec 12)
  | stb (r a : XReg) (imm : BitVec 12) | sth (r a : XReg) (imm : BitVec 12)
  | stw (r a : XReg) (imm : BitVec 12) | std (r a : XReg) (imm : BitVec 12)
  -- branches and jumps (R163 to R165)
  | beqz (a : XReg) (off : BitVec 15) | bnez (a : XReg) (off : BitVec 15)
  | bltz (a : XReg) (off : BitVec 15) | bgez (a : XReg) (off : BitVec 15)
  | bgtz (a : XReg) (off : BitVec 15) | blez (a : XReg) (off : BitVec 15)
  | jal (d : XReg) (off : BitVec 18) | jalr (d a : XReg) (imm : BitVec 12)
  -- the system group (R176)
  | nop | halt | exit | trap (n : BitVec 6) | eret | brk (n : BitVec 6) | yield
  | fence (o : Order) (sc : Scope) | rfence | tfence | timer (d a : XReg) | pswap
  | sstep (a : XReg) | latm (scored : Bool)
  -- system registers (R175)
  | srr (d : XReg) (n : BitVec 12) | srw (n : BitVec 12) (a : XReg)
  -- handles (R170)
  | hld (d : HReg) (a : XReg) (off : BitVec 6) | hst (d : HReg) (a : XReg) (off : BitVec 6)
  | hmov (d a : HReg) | hget (d : XReg) (a : HReg) (f : HField) | hset (d : HReg) (f : HField) (a : XReg)
  | hrec (d : HReg) (a : XReg) | hadv (d : HReg) (a : XReg)
  -- predicates (R174)
  | pand (d a b : PReg) | por (d a b : PReg) | pxor (d a b : PReg) | pandn (d a b : PReg)
  | pnot (d a : PReg) | pfirstn (d a : PReg) (b : XReg) | pcnt (d : XReg) (a : PReg)
  | pfirst (d : XReg) (a : PReg)
  -- loops and rotation (R167, R169)
  | loop (k : BitVec 3) (off : BitVec 15) | wbase (a : XReg) (imm : BitVec 12)
  -- compare and branch (R164), constants (R117)
  | beq (a b : XReg) (off : BitVec 32) | bne (a b : XReg) (off : BitVec 32)
  | blt (a b : XReg) (off : BitVec 32) | bge (a b : XReg) (off : BitVec 32)
  | bltu (a b : XReg) (off : BitVec 32) | bgeu (a b : XReg) (off : BitVec 32)
  | li (d : XReg) (imm : BitVec 32) | lih (d : XReg) (imm : BitVec 32)
  -- atomics (R253)
  | atadd (m : AmoArgs) | atswap (m : AmoArgs) | atand (m : AmoArgs) | ator (m : AmoArgs)
  | atxor (m : AmoArgs) | atmin (m : AmoArgs) | atmax (m : AmoArgs) | atminu (m : AmoArgs)
  | atmaxu (m : AmoArgs) | cas (m : AmoArgs) (xc : XReg) | atfmax (m : AmoArgs) | atfadd (m : AmoArgs)
  -- waits (R354)
  | wait (w : WaitArgs) | waitt (a : XReg) (timeout : BitVec 32)
  -- VALU (R283)
  | vadd (h : VHdr) (d a : VOp) (b : VSrc) | vsub (h : VHdr) (d a : VOp) (b : VSrc)
  | vmul (h : VHdr) (d a : VOp) (b : VSrc)
  | vfma (h : VHdr) (d a b : VOp) (c : Option VOp) | vfms (h : VHdr) (d a b : VOp) (c : Option VOp)
  | vmin (h : VHdr) (d a : VOp) (b : VSrc) | vmax (h : VHdr) (d a : VOp) (b : VSrc)
  | vabs (h : VHdr) (d a : VOp) | vneg (h : VHdr) (d a : VOp)
  | vcmp (h : VHdr) (pd : PReg) (cond : BitVec 3) (a : VOp) (b : VSrc)
  | vsel (h : VHdr) (d a : VOp) (b : VSrc) | vcpy (h : VHdr) (d : VOp) (a : VSrc)
  -- VINT (R288)
  | viadd (h : VHdr) (d a : VOp) (b : VSrc) | visub (h : VHdr) (d a : VOp) (b : VSrc)
  | vimul (h : VHdr) (d a : VOp) (b : VSrc) | vimulh (h : VHdr) (d a : VOp) (b : VSrc)
  | vimin (h : VHdr) (d a : VOp) (b : VSrc) | vimax (h : VHdr) (d a : VOp) (b : VSrc)
  | vand (h : VHdr) (d a : VOp) (b : VSrc) | vor (h : VHdr) (d a : VOp) (b : VSrc)
  | vxor (h : VHdr) (d a : VOp) (b : VSrc) | vandn (h : VHdr) (d a : VOp) (b : VSrc)
  | vsll (h : VHdr) (d a : VOp) (b : VSrc) | vsrl (h : VHdr) (d a : VOp) (b : VSrc)
  | vsra (h : VHdr) (d a : VOp) (b : VSrc) | vrol (h : VHdr) (d a : VOp) (b : VSrc)
  | vpopc (h : VHdr) (d a : VOp) | vclz (h : VHdr) (d a : VOp) | vctz (h : VHdr) (d a : VOp)
  | vfnsb (h : VHdr) (d a : VOp) (b : VSrc) | vbrev (h : VHdr) (d a : VOp)
  | vicmp (h : VHdr) (pd : PReg) (cond : BitVec 3) (a : VOp) (b : VSrc)
  -- VCVT (R290 to R294)
  | vcvt (h : VHdr) (d a : VOp) (part : BitVec 4) (sty : VTy)
  | vqnt (h : VHdr) (d a : VOp) (xc : XReg) | vdqnt (h : VHdr) (d a : VOp) (xc : XReg)
  | vpack (h : VHdr) (d a b : VOp) | vunpack (h : VHdr) (d a : VOp) (p : Bool)
  | vscale (h : VHdr) (d a : VOp) (b : VSrc)
  -- VRED (R295)
  | vrsum (h : VHdr) (d a : VOp) | vrmax (h : VHdr) (d a : VOp) | vrmin (h : VHdr) (d a : VOp)
  | vshuf (h : VHdr) (d a b : VOp) | vbcast (h : VHdr) (d a : VOp) (x : XReg)
  | vrot (h : VHdr) (d a : VOp) (b : VSrc) | vslide (h : VHdr) (d a : VOp) (b : VSrc)
  -- VSFU (R296)
  | vrcp (h : VHdr) (d a : VOp) | vrsq (h : VHdr) (d a : VOp) | vsqrt (h : VHdr) (d a : VOp)
  | vexp2 (h : VHdr) (d a : VOp) | vlog2 (h : VHdr) (d a : VOp) | vtanh (h : VHdr) (d a : VOp)
  -- VACC (R297)
  | vaccmul (h : VHdr) (n : BitVec 8) (a : VOp) (b : VSrc) | vaccadd (h : VHdr) (n : BitVec 8) (a : VSrc)
  | vnorm (h : VHdr) (n : BitVec 8) | vaccrd (h : VHdr) (d : VOp) (n : BitVec 8) (p : BitVec 4)
  | vaccz (h : VHdr) (n : BitVec 8) (x : XReg)
  -- VMEM (R259)
  | vld (m : VMem) (v : VOp) | vst (m : VMem) (v : VOp)
  | vlds (m : VMem) (v : VOp) (xs : XReg) | vsts (m : VMem) (v : VOp) (xs : XReg)
  | vgather (m : VMem) (v i : VOp) (wide : Bool) | vscatter (m : VMem) (v i : VOp) (wide : Bool)
  | vldx (m : VMem) (v : VOp) | vpref (m : VMem)
  -- MTX (R307)
  | tlease (t : Tok) (reserve : BitVec 2) | trel (t : Tok) (u : Bool)
  | tldt (t : Tok) (nf : BitVec 2) (sat : Bool) (rm : Rm) (k : TReg) (h : HReg) (xo : XReg)
  | tzero (t : Tok) (plane : Bool) (e : BitVec 16)
  | tmma (t : Tok) (plane : Bool) (ta tb : TReg) (enc : Bool) | tmmaa (t : Tok) (plane : Bool) (ta tb : TReg)
  | tdrain (a : DrainArgs) | tstt (t : Tok) (k : TReg) (h : HReg) (xo : XReg)
  -- ENC (R323)
  | abound (t : Tok) (hd ha hb : HReg) | arelax (t : Tok) (hd ha hb hc : HReg) (f : BitVec 4)
  | arelaxBilinear (t : Tok) (hd ha hb : HReg) | asym (t : Tok) (hd : HReg) | aret (t : Tok) (ha : HReg)
  | acond (t : Tok) (ha : HReg) (xs : XReg) | aalign (t : Tok) (sg : Sigma) (hd ha hb : HReg)
  | achk (t : Tok) (hd ha hb hc : HReg) | atbl (t : Tok) (xs : XReg) (first cnt : BitVec 6)
  -- ASYNC (R342, R348, R352)
  | cpy (hd hs : HReg) (xn xt : XReg) | xtbl (slot : BitVec 3) (hs : HReg) (xt : XReg)
  | xduc (hd hs : HReg) (xn xs : XReg) (slot : BitVec 3) (xt : XReg)
  | coll (op : CollOp) (hd hs : HReg) (xn xg xt : XReg)
  | send (hs : HReg) (xr xw xt : XReg) | recv (hd : HReg) (xr xw xt : XReg)
  | renq (d a w : XReg) | kati (t : Tok) (vector : Bool) (i : BitVec 8)
  | katc (t : Tok) (vector : Bool) (i : BitVec 8) (check : BitVec 32)
  -- events popped (R353)
  | evpop (d : XReg) | evpeek (d : XReg)
  -- the Lodge (R202)
  | lrmap (d a b : XReg) (reg mat pad : Disp) | lrqry (d : XReg) (room : Room)
  | lflush (a b : XReg) (inval : Bool) | lstash (d a b : XReg) | lunstash (d a : XReg)
  -- revisions (R269)
  | fork (d : XReg) (off : BitVec 32) | join (d a : XReg) | rtype (d a : XReg) | rmark (d a b : XReg)
  -- events of the queues (R279, R336, R340)
  | queueRouteAfterRoom (c : AnyCore)
  | queueEntryStart (c : AnyCore) (k : Bool) (q : QName)
  | queueEntryComplete (c : AnyCore) (k : Bool) (q : QName) (n : Nat)
  | loadDataReturn (c : AnyCore) (k : Bool)
  -- events of waiting instructions and of the sequencer
  | waitGroupResume (c : AnyCore) | waitSatisfied (c : AnyCore) | waitTimeout (c : AnyCore)
  | waittEnd (c : AnyCore) | timerAlarm (c : AnyCore) (k : Bool) | sstepExpiry (c : AnyCore)
  | yieldWake (c : AnyCore) | haltWake (d : DieNo)
  -- tasks, supersteps, launches (R25, R41, R357, R443)
  | contextFree (c : CoreNo) (k : Bool) | superstepJoin (l : Nat) | superstepStart (l : Nat)
  | doorbell (d : DieNo) (c : BitVec 3) (v : Word) | launchEntryConsume (d : DieNo) (c : BitVec 3)
  | clockLockComplete | notifyTimeout (d : DieNo) (c : BitVec 3) | launchQueueRestart (d : DieNo) (c : BitVec 3)
  | dispatch (task : Nat) (c : CoreNo) (k : Bool) | taskClassAge (task : Nat)
  | dispatcherPreempt (task : Nat) (c : CoreNo) | detPower (d : DieNo) (uj : Nat)
  -- the array (R304, R306)
  | leaseGrant (d : DieNo) (q : BitVec 6) | leaseExpire (d : DieNo) (q : BitVec 6)
  | win2WindowSwitch (d : DieNo) (q : BitVec 6)
  -- the Lodge's drains (R206)
  | lrmapDrainBegin (c : CoreNo) | lrmapDrainEnd (c : CoreNo)
  -- jobs (R330, R344 to R346)
  | jobStart (j : Nat) | jobComplete (j : Nat)
  | acondJobStart (d : DieNo) (q : BitVec 6) | acondJobEnd (d : DieNo) (q : BitVec 6)
  | remoteWriteArrive (src : BitVec 16) (d : DieNo) (core : BitVec 10) (dest : Addressee) (r : RemoteReq)
  | sendReportArrive (j : Nat) (r : RemoteReport) | collResultArrive (j : Nat) (r : SwitchResult)
  | inboxEntryArrive (c : BitVec 10) (dest : Addressee) (entry : BitVec 128)
  | renqResend (c : CoreNo) (accepted : Bool) | inboxDeliver (c : CoreNo)
  | katPortDone (c : CoreNo) (k : Bool) (vector : Bool) | stashRecall (c : CoreNo) (va : Word)
  -- faults (R405, R409)
  | faultRecordWrite (d : DieNo) | watchdog (c : CoreNo) (k : Bool) (src : BitVec 8)
  -- supervisor commands (R229, R362, R446, R151, R452, R397)
  | taskcmdResume (d : DieNo) (c : CoreNo) (k : Bool) | taskcmdRestartPhase (d : DieNo) (c : CoreNo) (k : Bool)
  | taskcmdKill (d : DieNo) (c : CoreNo) (k : Bool) | taskcmdPreempt (d : DieNo) (c : CoreNo) (k : Bool)
  | taskcmdRestore (d : DieNo) (c : CoreNo) (k : Bool) | taskcmdCancel (d : DieNo) (c : CoreNo) (k : Bool)
  | txcmdDropPage (d : DieNo) (resume : Bool) (size : BitVec 2) (page : BitVec 41)
  | txcmdDropAll (d : DieNo) (resume : Bool) | txcmdResume (d : DieNo) | txcmdComplete (d : DieNo)
  | taskRootWrite (v : Word) | supervisorRootWrite (v : Word)
  | arbmodeWrite (d : DieNo) (q : BitVec 6) (v : Word) | coreDisable (c : CoreNo) (v : Bool)
  | powerLimitWrite (v : Word) | registerWrite (d : DieNo) (r : SupReg) (v : Word)
  -- module states (R457, R458)
  | drain (deadline : BitVec 48) | online | service | drainDeadline
  -- migration, power, clocks, links, time, management
  | migrationEpochEnd (depth : List Nat) | spanMoveDone (span : BitVec 36)
  | l2SwitchToDected (d : DieNo) | l2SwitchToSecded (d : DieNo) | l2SwitchComplete (d : DieNo)
  | supplySag (d : DieNo) | sagRestore (d : DieNo) | clockStepDown (o : DrawObs) | clockStepUp (o : DrawObs)
  | coolantWarning | coolantCritical | linkFailure (l : BitVec 5) | flitCrcError (o : FlitObs)
  | ptpEventMessage (o : PtpObs) | timeLockTimeout | moduleReset (o : BootObs) | firmwareUpdate (i : FwImage)
  | spdmRequest (req : List Byte) | hdmAccess (r : HdmReq) | healthTableRewrite
  | illegalInstruction (c : AnyCore) (w0 w1 : IWord) | instructionFetchFault (c : AnyCore) (f : FetchFault)
  | linkRetraining (l : BitVec 5) | timeHoldover
  | collectivePacketArrive (core : BitVec 10) (head : PacketHead) (group rank : Nat) (elems : List Word)
  | cxlCacheSnoop (pa : Nat) (data : Option (List Byte)) | flitAckTimeout (l : BitVec 5)
  | energyAttribution (obs : List EnergyObs)
deriving DecidableEq, Repr

end Sys2Proof
end

