-- ==== Sys2Proof/Machine/State.lean ====
section
/-! DEFINITION. The state of a Zendun module as plain data: cores with their two task contexts and
their Lodge, quads with their array, dies with their queues and engines, and the module's launches,
tasks, jobs, memory and clocks; and the state right after reset. -/

namespace Sys2Proof.Machine

/-! ## Stops -/

/-- Why a step stops. -/
inductive Fault where
  /-- Raised by a page walk whose table lies in a frame that does not exist (R216), as a root register
  may name one; the manual says nothing of such a read. Safe: the model stops where the part goes on. -/
  | absentTable (addr : Nat)
deriving DecidableEq, Repr

/-- Why an instruction has no meaning here. -/
inductive Refusal where
  /-- An instruction whose meaning is not written yet. Safe: nothing is claimed of it. -/
  | notModelled (mnemonic : String)
deriving DecidableEq, Repr

/-! ## Fault records (R403) -/

/-- Grades (R410). -/
inductive Grade where
  | program | same | other | none | retire | status
deriving DecidableEq, Repr

/-- Record statuses (R404). -/
inductive RecStatus where
  | halted | parked | recovered | replaced | logged | service
deriving DecidableEq, Repr

/-- A record that its cause has raised and FAULT_RECORD_WRITE has yet to write (R405). -/
structure FaultRec where
  code : BitVec 8
  grade : Grade
  status : RecStatus
  engine : Bool := false
  afterExit : Bool := false
  source : BitVec 8
  core : BitVec 16 := 0xFFFF
  context : BitVec 8 := 0xFF
  tag : BitVec 32 := 0
  /-- the launch, and the task instance, concerned -/
  launch : Option Nat := none
  who : Option Nat := none
  task : Word := -1
  epc : Word := 0
  detail : Word := 0
  time : Word := 0
  aux : BitVec 32 := 0
  /-- the task's escape bit as it stood when its context was last seen (R411) -/
  escape : Bool := false
deriving DecidableEq, Repr

/-! ## Queue entries (R335, R336) -/

/-- What an instruction takes when it is routed (R148, R155). -/
structure Taken where
  xs : List (XReg × Word)
  hs : List (HReg × HandleWord)
  guard : PredWord
  rotb : Nat
  /-- rows of the context's half, and the half (R140) -/
  rows : Nat
  half : Bool
  ftz : Bool
  nf : Vector (BitVec 32) 4
  tcfg : Vector Word 16
  scored : Bool
deriving DecidableEq, Repr

/-- A place that a queue entry writes. -/
inductive Dest where
  | row (phys : Nat)
  | ofile (i : BitVec 3)
  | latch
deriving DecidableEq, Repr

/-- One write that has not landed: the bits of `val` under `mask`, and those of void elements (R59). -/
structure RowWrite where
  dest : Dest
  val : Row
  mask : Row
  void : Row := 0
deriving DecidableEq, Repr

/-- A tile's side state (R303). -/
structure TileSide where
  scales : Vector Byte 128
  nf : BitVec 2
  void : Bool
  valid : Bool
deriving DecidableEq, Repr

/-- What a started entry has yet to make visible: writes, the latch that receives what a destination
then holds, a predicate, flags (R120, R279). -/
structure Landing where
  writes : List RowWrite
  latch : Option Dest
  pred : Option (PReg × PredWord × PredWord)
  flags : BitVec 5
  /-- a tile: its slot, the slot's bytes, its side state (R310) -/
  tile : Option (Nat × List Byte × TileSide) := none
  /-- an ENC instruction's ranges that lose a holder: symbol table, slot, whether by condensation (R85) -/
  drops : List (Nat × Nat × Bool) := []
deriving DecidableEq, Repr

/-- One element store of a store instruction: its address, its bytes and where it goes. -/
inductive ElemStore where
  /-- a global or stash address -/
  | mem (va : Nat) (bytes : List Byte)
  /-- an offset of the PAD room -/
  | pad (off : Nat) (bytes : List Byte)
  /-- half a byte of either: a 4-bit code in the low or the high nibble -/
  | memNib (va : Nat) (high : Bool) (v : BitVec 4)
  | padNib (off : Nat) (high : Bool) (v : BitVec 4)
  /-- bytes of a scale-plane line, which is written back whole with its check (R311) -/
  | scale (line : Nat) (bytes : List (Nat × Byte))
deriving DecidableEq, Repr

/-- How far an entry has come. -/
inductive EntryPhase where
  /-- not started -/
  | waiting
  /-- an LQ entry halted at its element by a resolvable fault at the address (R236) -/
  | stalled (va : Nat)
  /-- its fault has halted the task; it starts again on resume (R282, R235) -/
  | faulted
  /-- a store whose element has faulted: the element stores still to do -/
  | faultedStores (l : List ElemStore)
  /-- started; its effects have not landed -/
  | started (l : Landing)
  /-- an SQ entry whose rows wait in the store data queue (R340) -/
  | stores (l : List ElemStore)
  /-- an SQ entry of an open phase, whose stores the hold list keeps (R211) -/
  | held
  /-- an LQ entry whose row waits in the load data queue (R340) -/
  | arrived (l : Landing)
  /-- complete but for a push that waits on a full counter: the pushes still due (R338) -/
  | pushing (right left : Bool)
deriving DecidableEq, Repr

/-- An entry of LQ, CQ or SQ. -/
structure Entry where
  seq : Nat
  instr : Instr
  pc : Word
  taken : Taken
  phase : EntryPhase := .waiting
  /-- elements gathered so far, their number and code, the latest first (R236) -/
  got : List (Nat × Nat) := []
  /-- some element was replaced, the sectors recorded, and a bad chunk recorded (R266, R267) -/
  replaced : Bool := false
  seen : List Nat := []
  chunkSeen : Bool := false
  /-- tokens already popped (R338) -/
  popped : Bool := false
  /-- routed after the restart point of the phase that was open (R212) -/
  inPhase : Bool := false
  /-- TIME at its last progress (R409) -/
  moved : Word := 0
deriving DecidableEq, Repr

/-- A store held in the phase hold list (R211). -/
structure HeldStore where
  seq : Nat
  stores : List ElemStore
deriving DecidableEq, Repr

/-- A store parked in the replay queue: the element stores still to do (R237). -/
structure Parked where
  context : Bool
  seq : Nat
  stores : List ElemStore
  /-- its phase holds what memory serves (R211) -/
  inPhase : Bool := false
deriving DecidableEq, Repr

/-! ## Task contexts (R19, R136) -/

/-- What a context does. -/
inductive CtxMode where
  | free
  /-- holds a task that fetches when it is the running context -/
  | live
  /-- between EXIT and its freeing (R41) -/
  | exiting
  /-- halted on a fault or service request (R361) -/
  | halted
  /-- a control-complex core stopped by HALT (R180) -/
  | asleep
deriving DecidableEq, Repr

/-- The registers that an opening PSWAP saves (R211). -/
structure Snapshot where
  x : Vector Word 64
  h : Vector HandleWord 32
  p : Vector PredWord 96
  rotb : Word
  loopc : Vector Word 8
  status : Word
  /-- what the phase's entries have pushed less what they have popped, by counter, and the routing
  number at the restart point (R212) -/
  delta : Vector Int 4
  seq : Nat
deriving DecidableEq, Repr

/-- Why a context waits, with what its instruction fixed when it issued (R157). -/
inductive Hold where
  /-- an engine-routed instruction waits for its queue or for a pending compare (R336, R281) -/
  | route
  /-- an instruction of the waiting group waits; a WAIT has a deadline -/
  | wait (deadline : Word)
  /-- YIELD stops fetch: until these CYCLES, or an event or a token that has come (R182) -/
  | yield (until_ : Word) (woken : Bool)
deriving DecidableEq, Repr

/-- A known-answer check handed to a port: unit, pattern, whether it is done (R352). -/
structure KatCheck where
  vector : Bool
  pattern : BitVec 8
  done : Bool
  result : BitVec 32
deriving DecidableEq, Repr

/-- A register whose value comes from a sequencer load that has missed: the CYCLES at which it returns, and those at
which it missed (R154, R341). -/
structure PendingLoad where
  reg : XReg
  due : Nat
  since : Nat
deriving DecidableEq, Repr

/-- One task context of a core. -/
structure Context where
  mode : CtxMode
  /-- the task instance it holds -/
  task : Option Nat
  x : Vector Word 64
  h : Vector HandleWord 32
  p : Vector PredWord 96
  pc : Word
  rotb : Word
  loopc : Vector Word 8
  status : Word
  latmode : Word
  tcause : Word
  tval : Word
  epc : Word
  spovf : Word
  splim : Word
  ofile : Vector Row 8
  latch : Row
  alarm : Option Word
  steps : BitVec 32
  /-- the step counter has reached zero and the context halts before its next instruction (R187) -/
  stepDue : Bool
  /-- its task has issued an instruction (R203) -/
  issued : Bool
  restart : Word
  escape : Bool
  phaseCancelled : Bool
  phaseIneligible : Bool
  snap : Option Snapshot
  /-- phases opened so far, and the CPY jobs to PAD of the last two, oldest first (R212) -/
  phaseNo : Nat
  copies : List (Nat × HandleWord × HandleWord × Nat)
  evq : List (BitVec 128)
  evqh : BitVec 7
  evqt : BitVec 7
  reserved : Nat
  lq : List Entry
  cq : List Entry
  sq : List Entry
  /-- LQ→CQ, CQ→LQ, CQ→SQ, SQ→CQ (R337) -/
  tokens : Vector (BitVec 4) 4
  holdList : List HeldStore
  holdCount : Nat
  hold : Option (Instr × Hold)
  kat : List KatCheck
  /-- the next routing number -/
  seq : Nat
  /-- registers that a sequencer load has yet to return (R154, R341) -/
  pendingX : List PendingLoad
  /-- a pre-emption request has stopped it: nothing more is fetched or started (R361) -/
  stopping : Bool
  /-- its task has issued EXIT (R41, R42) -/
  exited : Bool
  /-- TIME since which a merge of its JOIN has run, and the result that it keeps (R272, R409) -/
  merge : Option (Word × Word)
  /-- the bits of void elements, by place (R59); a place that has none is not listed. DESIGN CHOICE (log 97). -/
  voids : List (Dest × Row)
deriving DecidableEq, Repr

/-! ## The Lodge (R191 to R209) -/

/-- Banks of each room (R192). -/
structure Rooms where
  reg : Nat
  cache : Nat
  matrix : Nat
  spill : Nat
  pad : Nat
deriving DecidableEq, Repr

/-- Sparse bytes with ranges (from, to, seed) that hold free values where no byte is listed. -/
structure Store where
  cells : List Host.Cell
  undef : List (Nat × Nat × Nat)
deriving DecidableEq, Repr

/-- A stash mapping: segment, global address, the context that made it, filled and dirty sectors
(R197). -/
structure Stash where
  seg : Nat
  va : Nat
  context : Bool
  filled : BitVec 64
  dirty : BitVec 64
deriving DecidableEq, Repr

/-- An LRMAP drain: the map before, the instruction's routing numbers, whether it has begun, the
dispositions and the save's job (R205). -/
structure Drain where
  old : Rooms
  seqs : Nat × Nat
  begun : Bool
  reg : Disp
  mat : Disp
  pad : Disp
  /-- the job that saves what departs (R204) -/
  save : Option Nat
deriving DecidableEq, Repr

/-- Where translations are cached (R227): a sequencer, an engine stream, a quad's second level, a die's
last level. A stream is a core's access unit or store engine, or an engine of a die. -/
inductive TlbAt where
  | sequencer (core : Nat)
  | access (core : Nat)
  | store (core : Nat)
  | engine (die : Nat) (unit : Nat)
  | quad (q : Nat)
  | die (d : Nat)
deriving DecidableEq, Repr

/-- A cached translation (R227): its cache, address space, page number of 64 KiB, the leaf, its level and
the address of the table entry that holds it. -/
structure TlbEntry where
  place : TlbAt
  supervisor : Bool
  page : Nat
  level : Nat
  leaf : Word
  addr : Nat
deriving DecidableEq, Repr

/-- A line of the cache room (R198): the bank, which is its way, the physical line of 128 bytes, and
the sectors valid and dirty. The bytes are those of memory, with which the room is coherent.
DESIGN CHOICE (log 32). -/
structure CacheLine where
  bank : Nat
  far : Bool
  line : Nat
  valid : BitVec 2
  dirty : BitVec 2
deriving DecidableEq, Repr

/-- One core: a compute core, or a core of the control complex. -/
structure Core where
  c0 : Context
  c1 : Context
  /-- the running context, and whether one runs -/
  active : Bool
  running : Bool
  /-- the launch whose room map is set -/
  launch : Option Nat
  rooms : Rooms
  /-- the room of each good bank (R192) -/
  banks : Vector Room 48
  drain : Option Drain
  /-- good banks (R210), and those that leave when the core holds no task -/
  good : BitVec 48
  leaving : BitVec 48
  /-- lines that have been scrubbed and rewritten once: 512 × bank + line (R210) -/
  scrubbed : List Nat
  cache : List CacheLine
  rows : List (Nat × Row)
  rowSeed : Option Nat
  pad : Store
  tiles : Store
  sides : Vector TileSide 16
  spill0 : Store
  spill1 : Store
  stash : List Stash
  tcfg : Vector Word 16
  nf : Vector (BitVec 32) 4
  rules : List (Nat × List Byte)
  replay : List Parked
  inbox : List (BitVec 128)
  /-- the launch for which the room map was last set (R350) -/
  mapOf : Option Nat
  /-- record address and its bytes (R373) -/
  records : List (Nat × List Byte)
  insns : Word
  perf : Vector Word 8
  disabled : Bool
  /-- cycles that each task's context has run here since the last energy attribution (R399) -/
  ran : List (Nat × Nat)
deriving DecidableEq, Repr

/-! ## Quads: the array and the condensation engine (R302 to R306, R330) -/

/-- Special states of a cell (R68). -/
inductive Special where
  | none | posInf | negInf | nan
deriving DecidableEq, Repr

/-- A cell: v, L and the special state (R68). -/
structure PCell where
  v : BitVec 56
  l : BitVec 16
  sp : Special
deriving DecidableEq, Repr

/-- A plane (R302): listed cells by 128 i + j, the rest zero, or free before the first TZERO. -/
structure Plane where
  cells : List (Nat × PCell)
  seed : Option Nat
  e : BitVec 16
  /-- the kind is INT, else FLOAT; and whether a TMMA or TMMAA since the TZERO has fixed it -/
  int : Bool
  fixed : Bool
  void : Bool
deriving DecidableEq, Repr

/-- A lease (R304): the core within the quad, commands started, the holder's CYCLES at the grant. -/
structure Lease where
  core : BitVec 2
  commands : Nat
  cycles : Nat
deriving DecidableEq, Repr

/-- A byte range of a space: none for global and stash addresses, or the PAD of a core. -/
structure Range where
  padOf : Option Nat
  lo : Nat
  hi : Nat
deriving DecidableEq, Repr

/-- A condensation job (R330). -/
structure CondJob where
  id : Nat
  core : Nat
  context : Bool
  who : Option Nat
  launch : Option Nat
  handle : HandleWord
  xs : Word
  /-- its footprint (R103) -/
  ranges : List Range
  started : Bool
  /-- the context's routing number when it was handed over, and whether its region was scored (R247) -/
  seq : Nat
  scored : Bool
  /-- VOID as it stood before the job set it (R99) -/
  void : Bool
  /-- the tensor's live count as the job last found it (R330) -/
  live : Nat
  /-- the address at which it has parked (R99) -/
  parked : Option Nat
  /-- TIME at its last progress (R409) -/
  moved : Word
deriving DecidableEq, Repr

structure Quad where
  arbmode : Word
  /-- an ARBMODE write that takes effect when the lease ends (R150) -/
  arbNext : Option Word
  lease : Option Lease
  last : Option (BitVec 2)
  requests : List (BitVec 2)
  plane0 : Plane
  plane1 : Plane
  /-- the core that has reserved each plane -/
  res0 : Option (BitVec 2)
  res1 : Option (BitVec 2)
  /-- whose WIN2 window it is: false core A -/
  window : Bool
  /-- CYCLES when the window began -/
  since : Nat
  cond : List CondJob
  /-- cycles of array commands and condensation jobs by launch since the last energy attribution (R399) -/
  used : List (Nat × Nat)
deriving DecidableEq, Repr

/-! ## Engines and jobs (R342 to R347) -/

/-- What a job does. -/
inductive JobKind where
  | cpy (hd hs : HandleWord) (n : Nat)
  | xtbl (slot : BitVec 3) (hs : HandleWord)
  | xduc (hd hs : HandleWord) (n : Nat) (init : Word) (slot : BitVec 3)
  | coll (op : CollOp) (hd hs : HandleWord) (n : Nat) (group : Nat)
  | send (hs : HandleWord) (addr : Word) (waybill : BitVec 128)
  | recv (hd : HandleWord) (addr : Word) (waybill : BitVec 128)
  /-- LRMAP's save (R204): the address and the bytes -/
  | save (va : Nat) (bytes : List Byte)
deriving DecidableEq, Repr

inductive JobPhase where
  | waiting
  | started
  /-- waits at its element for TXCMD with RESUME (R347) -/
  | parked (va : Nat)
  /-- waits for the fabric -/
  | remote
deriving DecidableEq, Repr

/-- A job of a die's task scheduler. -/
structure Job where
  id : Nat
  kind : JobKind
  die : DieNo
  core : Nat
  context : Bool
  who : Option Nat
  launch : Option Nat
  tag : BitVec 32
  /-- words 0 and 1 of the instruction (R406) -/
  words : Word
  /-- the NF registers at acceptance (R155) -/
  nf : Vector (BitVec 32) 4
  /-- the context's routing number when it was issued, and whether its region was scored (R247) -/
  seq : Nat
  scored : Bool
  reads : List Range
  writes : List Range
  phase : JobPhase
  /-- elements done -/
  pos : Nat
  /-- elements written or bytes emitted, and a transducer's state -/
  got : Nat × Nat
  /-- some element was replaced, the sectors recorded, and a bad chunk recorded (R266, R267) -/
  replaced : Bool
  seen : List Nat
  chunkSeen : Bool
  /-- the die's transducer slot as the job is to see it (R345); the bytes that a RECV has received -/
  table : List Byte
  /-- contributions that have arrived, by rank -/
  parts : List (Nat × List Word)
  /-- the fault that ends a RECV once its bytes are written -/
  late : Option (BitVec 8 × Word × Grade × BitVec 32)
  /-- issued before its context's current phase, in it, or outside phases: the phase's opening number -/
  phaseNo : Option Nat
  /-- the context was killed: the record is dropped (R344) -/
  orphan : Bool
  /-- a phase cancellation has issued it again: it reserved no slot and writes no record (R212) -/
  reissued : Bool
  /-- TIME at its last progress (R409) -/
  moved : Word
deriving DecidableEq, Repr

/-! ## Launches and tasks (R11 to R44) -/

/-- One level of a loop table, its extent fixed (R14, R167). -/
structure Level where
  kind : Nat
  extent : Nat
  stride : Nat
  q : Nat
deriving DecidableEq, Repr

/-- A region (R27). -/
structure Region where
  base : Nat
  size : Nat
  merge : Nat
  elem : Nat
  sat : Bool
deriving DecidableEq, Repr

/-- The fields of a launch record that outlive its acceptance (R11). -/
structure LaunchRec where
  code : Word
  det : Bool
  scored : Bool
  cls : Nat
  estimate : Nat
  rooms : BitVec 32
  overflow : Nat
  ovfBase : Nat
  seed : Word
  target : Nat
  budget : Nat
  tag : BitVec 32
deriving DecidableEq, Repr

/-- Where a launch stands (R25). DEDUCED (log 57). -/
inductive LaunchPhase where
  /-- the next superstep begins at its T_s -/
  | waiting
  | computing
  /-- its completion record waits for fault records (R405) -/
  | completing (status : BitVec 8)
  /-- its completion record could not be written; the notice waits for the record of that (R44, R460) -/
  | notifying
deriving DecidableEq, Repr

structure Launch where
  id : Nat
  die : DieNo
  cls : BitVec 3
  req : LaunchRec
  levels : List Level
  regions : List Region
  args : Vector Word 8
  phase : LaunchPhase
  step : Nat
  start : Word
  ts : Word
  steps : Nat
  completed : Nat
  faulted : Nat
  conflicts : Nat
  firstCode : BitVec 8
  firstTask : Word
  energy : Nat
  /-- the eligible set of a deterministic launch (R151) -/
  eligible : List Nat
  slices : List Nat
  /-- its symbol table (R376) and the mint ordinals already used -/
  symbols : Option Nat
  /-- when the dispatcher last served the launch, by the count of its dispatches (R357) -/
  turn : Nat
  /-- frames whose refcount has stayed at 255 and that no map names any more (R224) -/
  sticky : List Nat
deriving DecidableEq, Repr

/-- A leaf of a revision map (R223): the 64 KiB page, its frame and the leaf's bits. -/
structure RevLeaf where
  page : Nat
  leaf : Word
deriving DecidableEq, Repr

/-- A saved context (R364), with what belongs to the module's own queue image; its rows are counted from the
start of its half. DESIGN CHOICE (log 62). -/
structure Saved where
  ctx : Context
  /-- state 2: saved while halted -/
  halted : Bool
  rows : List (Nat × Row)
  spill : Store
  parked : List Parked
  fromCore : Nat
  context : Bool
  /-- held by a supervisor's PREEMPT until RESTORE (R362) -/
  held : Bool
deriving DecidableEq, Repr

inductive TaskPhase where
  | ready
  | placed (core : Nat) (context : Bool)
  | saved (s : Saved)
  /-- ended; whether its revision is kept for the join (R32, R42) -/
  | ended (keep : Bool)
deriving DecidableEq, Repr

structure Task where
  id : Nat
  launch : Nat
  word : Word
  step : Nat
  entry : Word
  args : Vector Word 8
  phase : TaskPhase
  /-- TIME since which it has been ready, and the classes it has aged by -/
  since : Word
  age : Nat
  /-- the cores eligible for it when it became ready (R151) -/
  eligible : List Nat
  /-- the core that deterministic placement gives (R24) -/
  core : Option Nat
  die : Option (BitVec 2)
  slice : Option Nat
  parent : Option Nat
  depth : Nat
  ordinal : Nat
  /-- its revision, and a forked child's retained ancestor (R33) -/
  rev : List RevLeaf
  anc : List RevLeaf
  /-- pages of the retained ancestor that occupy storage (R35) -/
  reserved : List Nat
  faulted : Bool
  killed : Bool
  escape : Bool
  /-- nJ measured (R358, R399) -/
  energy : Nat
  /-- mints, for the mint ordinal (R376) -/
  mints : Nat
  /-- passed over since (R358) -/
  passed : Option Word
  /-- TIME since which it has waited with no free eligible context (R359) -/
  crowded : Option Word
deriving DecidableEq, Repr

/-! ## Dies (R335, R397, R442) -/

/-- A launch queue's registers (R442). -/
structure LaunchQueue where
  base : Word
  capacity : Word
  head : Word
  doorbell : Word
  stopped : Bool
  cause : BitVec 8
  expected : BitVec 32
  msi : Word
  /-- TIME of the last restart, and the accepted doorbell values with the TIME each arrived, latest first (R444) -/
  since : Word
  bells : List (Word × Word)
  /-- the tag of the entry at the head was read and did not match (R444) -/
  misread : Bool
deriving DecidableEq, Repr

/-- The time status block (R451). -/
structure TimeStatus where
  state : BitVec 32
  generation : BitVec 32
  offset : Word
  bound : Word
  rate : Int
  last : Word
deriving DecidableEq, Repr

/-- A buffer that holds the core state of a launch: the launch, the buffer's address, the core as it was,
and the plane that it had reserved (R366). DESIGN CHOICE (log 63). -/
structure CoreSave where
  launch : Nat
  addr : Nat
  core : Core
  plane : Option (Bool × Plane)
deriving DecidableEq, Repr

/-- A span that the page-walk unit tracks in an epoch (R230, R401): its 2 MiB number and the misses of
each die's agents. -/
structure SpanCount where
  span : Nat
  misses : Vector (BitVec 16) 4
deriving DecidableEq, Repr

structure Die where
  fqBase : Word
  fqCapacity : Word
  fqHead : Word
  fqTail : Word
  dropped : Word
  nextSeq : Word
  energy : Word
  sags : Word
  /-- the clock halved (R454) -/
  sagging : Bool
  l2mode : Word
  l2switches : Word
  watchdogs : Word
  katMismatches : Word
  snapshot : Word
  /-- (correctable, uncorrectable) of structure s (R398) -/
  ecc : Vector (BitVec 32 × BitVec 32) 16
  /-- (flits retried, CRC errors) of the die's eight links -/
  links : Vector (BitVec 32 × BitVec 32) 8
  pending : List FaultRec
  taskcmd : Word
  sliceBase : Word
  txcmd : Word
  queues : Vector LaunchQueue 8
  /-- the energy bucket, in quarters of a nanojoule (R358) -/
  bucket : Nat
  slots : Vector (List Byte) 8
  /-- collective packets that no job has taken yet: group, rank, elements (R345) -/
  early : List (Nat × Nat × List Word)
  /-- the clock in units of 100 MHz (R452, R453) -/
  clock : Nat
  /-- core cycles clocked since reset, the CYCLES of each of the die's cores (R394) -/
  cycles : Word
  epoch : Word
  saves : List CoreSave
  /-- frames whose release waits for a full released ring (R222) -/
  unreleased : List Nat
  /-- (core, unit, TIME) of KAT mismatches (R412) -/
  katLog : List (Nat × Bool × Word)
  /-- TIME of each uncorrectable error of structure 8 or 10 (R412) -/
  softLog : List Word
  banksOut : Nat
  /-- the access-tracking table of the epoch, and the spans that found it full (R401) -/
  spans : List SpanCount
  untracked : List Nat
deriving DecidableEq, Repr

/-! ## The module -/

/-- Module states (R390, R457), and the time before boot. -/
inductive ModState where
  | reset | online | draining | drained | service | retire
deriving DecidableEq, Repr

/-- What leaves the module. DESIGN CHOICE (log 47, 71). -/
inductive Out where
  /-- an MSI-X message (R445): die, class, vector -/
  | msi (die : DieNo) (cls : BitVec 3) (vector : BitVec 11)
  /-- a packet that an engine has sent: the job and its bytes -/
  | packet (job : Nat) (waybill : BitVec 128) (addr : Word) (bytes : List Byte)
  /-- a request of RECV for bytes -/
  | fetch (job : Nat) (waybill : BitVec 128) (addr : Word) (n : Nat)
  /-- a contribution to a collective group -/
  | contribution (job : Nat) (group rank : Nat) (elems : List Word)
  /-- RENQ's entry on its way to another module -/
  | enqueue (core : Nat) (waybill : BitVec 128) (entry : BitVec 128)
  /-- the answer to another module's SEND, RECV or RENQ -/
  | report (module : BitVec 16) (r : RemoteReport)
  /-- an inbox's acceptance or refusal of an entry -/
  | accepted (module : BitVec 16) (core : BitVec 10) (ok : Bool)
  /-- the answer to an SPDM request (R456) -/
  | spdm (bytes : List Byte)
  /-- the data of a host read through HDM (R440), and of one through BAR0 (R441) -/
  | hdm (bytes : List Byte)
  | bar (bytes : List Byte)
deriving DecidableEq, Repr

/-- A sector that the memory system or a Lodge reports uncorrectable (R266): physical sector number, or a
sector of a core's Lodge, 1,024 × bank and the sector in the bank; whether a second read is clean; the
structure of R398. -/
structure Poison where
  lodgeOf : Option Nat
  far : Bool
  sector : Nat
  /-- the bytes not yet rewritten; the sector is clean when none is left (R265) -/
  bad : BitVec 64
  transient : Bool
  structure_ : BitVec 4
deriving DecidableEq, Repr

/-- A leaf that the page-walk unit moves or replicates: its first page, level, new frame, and the address
of the table entry. -/
structure MovedLeaf where
  page : Nat
  level : Nat
  frame : Nat
  addr : Nat
deriving DecidableEq, Repr

/-- A span that moves (R232): its number, its new frames' die, the leaves' new frames, or a replica. -/
structure Moving where
  span : Nat
  die : DieNo
  replica : Bool
  frames : List MovedLeaf
deriving DecidableEq, Repr

/-- A soft error (R398), as it strikes. -/
inductive SoftError where
  /-- an uncorrectable sector -/
  | sector (q : Poison)
  /-- a corrected error of a structure; of structure 0, in a core's Lodge -/
  | corrected (die : DieNo) (structure_ : BitVec 4) (core : Option Nat)
  /-- parity in a TLB, record cache or rule table: the entry is dropped and refilled -/
  | translation (die : DieNo) (n : Nat)
  | record (core : Nat) (addr : Nat)
  /-- parity in a context's registers, operand file, latch or queues -/
  | register (core : Nat) (context : Bool)
  /-- parity in an array cell -/
  | cell (quad : Nat) (plane : Bool) (i j : BitVec 7)
  /-- uncorrectable in a control-complex core's SRAM -/
  | control (die : DieNo)
  /-- L2 tags or directory: the sector's dirty data are lost -/
  | tags (q : Poison)
deriving DecidableEq, Repr

/-- What comes to the module beside the steps of the table. DESIGN CHOICE (log 76). -/
inductive Env where
  | soft (e : SoftError)
  /-- the host interface reports a far frame unreachable, or reachable again (R233) -/
  | farLost (frame : Nat)
  | farBack (frame : Nat)
  /-- an access of an agent of a die to an address of the task space misses the L2 (R230) -/
  | miss (die : DieNo) (va : Nat)
  /-- fabric enumeration gives the module its id (R146) -/
  | enumerate (id : BitVec 16)
  /-- the boot test finds a persistent fault in a line of a core's bank (R210) -/
  | bankBad (core : Nat) (bank : BitVec 6)
deriving DecidableEq, Repr

/-- What the next step does: an event, or a fetch on a core. -/
inductive Move where
  | ev (i : Instr)
  | run (core : Nat)
  /-- a supervisor's 8-byte store arrives at a register of its windows -/
  | reg (addr : Nat) (v : Word)
  | env (e : Env)
deriving DecidableEq, Repr

/-- The whole module. -/
structure State where
  /-- near memory by module physical address (R216) -/
  mem : List Host.Cell
  /-- host and pooled CXL memory by host physical address -/
  hostMem : List Host.Cell
  cores : List (Nat × Core)
  quads : List (Nat × Quad)
  dies : Vector Die 4
  launches : List Launch
  tasks : List Task
  jobs : List Job
  /-- the next launch, task and job numbers -/
  nextId : Nat
  time : Word
  timeStatus : TimeStatus
  modState : ModState
  /-- the boot ROM has verified the firmware since reset (R456) -/
  booted : Bool
  /-- tasks dispatched in the present round by class, and in all (R357) -/
  served : Vector Nat 8
  turns : Nat
  /-- the drain deadline in force -/
  deadline : Option Word
  mgmt : Word
  powerLimit : Word
  moduleEnergy : Word
  taskRoot : Word
  superRoot : Word
  moduleId : BitVec 16
  /-- address ranges whose accesses are to be retried, from TXCMDs with RESUME that have completed (R229) -/
  txResume : List (Nat × Nat)
  clocksLocked : Bool
  /-- a lock is in progress: no task issues (R453) -/
  locking : Bool
  /-- links that have gone down and not been retrained (R449) -/
  linksDown : BitVec 32
  /-- far frames that the host interface reports unreachable (R233) -/
  farGone : List Nat
  tlb : List TlbEntry
  poison : List Poison
  moving : List Moving
  replicas : List Moving
  /-- spans of the task space written in the epoch, and TIME at which the epoch began (R230) -/
  written : List Nat
  epochStart : Word
  /-- the fused rollback counter and the version of the running image (R456) -/
  rollback : Nat
  firmware : Nat
  recordsWritten : BitVec 32
  /-- the HBM stacks whose uncorrectable events have brought a record to the limit of R412 -/
  hbmLimit : Vector Bool 12
  outbox : List Out
  /-- the core whose running context the next instruction belongs to -/
  cur : Nat
  /-- the schedule: which event or core comes next; empty leaves it to the model -/
  agenda : List Move
  /-- (ticks, cycles) of the coming steps -/
  pace : List (Nat × Nat)
  /-- choices that the manual leaves to the implementation -/
  choices : List Nat
  /-- queue entries run to completion as soon as they may -/
  eager : Bool
  /-- counter of the free values drawn so far -/
  fresh : Nat
deriving DecidableEq, Repr

/-! ## Reset -/

/-- The presets of NF0 to NF3: E4M3-FN, E5M2, E2M3 and E2M1 (R51, R55). -/
def nfPresets : Vector (BitVec 32) 4 := #v[0x00810734, 0x00800F25, 0x00620132, 0x00420112]

/-- A context that holds no task, with its registers at their reset values (R136). DESIGN CHOICE (log 6). -/
def Context.reset : Context :=
  { mode := .free, task := none, x := Vector.replicate 64 0, h := Vector.replicate 32 0,
    p := (Vector.replicate 96 0).set 0 (BitVec.allOnes 256), pc := 0, rotb := 0,
    loopc := Vector.replicate 8 0, status := 0, latmode := 0, tcause := 0, tval := 0, epc := 0,
    spovf := 0, splim := 0, ofile := Vector.replicate 8 0, latch := 0, alarm := none, steps := 0, stepDue := false,
    issued := false, restart := 0, escape := false, phaseCancelled := false, phaseIneligible := false, snap := none,
    phaseNo := 0, copies := [],
    evq := [], evqh := 0, evqt := 0, reserved := 0, lq := [], cq := [], sq := [],
    tokens := Vector.replicate 4 0, holdList := [], holdCount := 0, hold := none, kat := [], seq := 0,
    pendingX := [], stopping := false, exited := false, merge := none, voids := [] }

def Store.empty : Store := { cells := [], undef := [] }

/-- A tile as the room map's setting leaves it: not valid (R303). DESIGN CHOICE (log 8). -/
def TileSide.reset : TileSide :=
  { scales := Vector.replicate 128 0x7F, nf := 0, void := false, valid := false }

/-- Context 1 reads its number in STATUS bit 15 (R144). -/
def Context.reset1 : Context := { Context.reset with status := 0x8000 }

/-- A compute core after reset, every bank good. DESIGN CHOICE (log 6). -/
def Core.reset : Core :=
  { c0 := Context.reset, c1 := Context.reset1, active := false, running := false, launch := none,
    rooms := { reg := 0, cache := 0, matrix := 0, spill := 0, pad := 0 },
    banks := Vector.replicate 48 Room.pad, drain := none,
    good := BitVec.allOnes 48, leaving := 0, scrubbed := [], cache := [], rows := [], rowSeed := none,
    pad := Store.empty, tiles := Store.empty, sides := Vector.replicate 16 TileSide.reset,
    spill0 := Store.empty, spill1 := Store.empty, stash := [], tcfg := Vector.replicate 16 0,
    nf := nfPresets, rules := [], replay := [], inbox := [], mapOf := none, records := [], insns := 0,
    perf := Vector.replicate 8 0, disabled := false, ran := [] }

/-- A core of the control complex: SUPERVISOR level (R145), asleep until the supervisor is started.
DESIGN CHOICE (log 9). -/
def Core.resetControl : Core :=
  { Core.reset with c0 := { Context.reset with mode := .asleep, status := 0x1000 }, running := true }

/-- A plane before its first TZERO: its contents are undefined (R302). DESIGN CHOICE (log 8). -/
def Plane.reset (seed : Nat) : Plane :=
  { cells := [], seed := some seed, e := 0, int := false, fixed := false, void := false }

/-- A quad in LEASE mode. DESIGN CHOICE (log 8). -/
def Quad.reset : Quad :=
  { arbmode := 0, arbNext := none, lease := none, last := none, requests := [],
    plane0 := Plane.reset 0, plane1 := Plane.reset 1, res0 := none, res1 := none, window := false,
    since := 0, cond := [], used := [] }

/-- DESIGN CHOICE (log 8). -/
def LaunchQueue.reset : LaunchQueue :=
  { base := 0, capacity := 0, head := 0, doorbell := 0, stopped := false, cause := 0, expected := 0,
    msi := 0, since := 0, bells := [], misread := false }

/-- Quarters of a nanojoule in a microjoule. -/
def quarterNj : Nat := 4000

/-- The energy bucket's capacity, 65,536 µJ (R358). -/
def bucketCap : Nat := 65536 * quarterNj

/-- DESIGN CHOICE (log 8). -/
def Die.reset : Die :=
  { fqBase := 0, fqCapacity := 0, fqHead := 0, fqTail := 0, dropped := 0, nextSeq := 1, energy := 0,
    sags := 0, sagging := false, l2mode := 0, l2switches := 0, watchdogs := 0, katMismatches := 0,
    snapshot := 0, ecc := Vector.replicate 16 (0, 0), links := Vector.replicate 8 (0, 0),
    pending := [], taskcmd := 0, sliceBase := 0, txcmd := 0,
    queues := Vector.replicate 8 LaunchQueue.reset, bucket := bucketCap,
    slots := Vector.replicate 8 [], early := [], clock := 20, cycles := 0, epoch := 0, saves := [], unreleased := [],
    katLog := [], softLog := [], banksOut := 0, spans := [], untracked := [] }

/-- The time status block before the first lock: FREE_RUNNING, the bound all ones (R451).
DESIGN CHOICE (log 8). -/
def TimeStatus.reset : TimeStatus :=
  { state := 0, generation := 0, offset := 0, bound := BitVec.allOnes 64, rate := 0, last := 0 }

/-- The cores that are not in their reset state, after reset: one control-complex core per die.
DESIGN CHOICE (log 9). -/
def controlCores : List (Nat × Core) :=
  [(1024, Core.resetControl), (1025, Core.resetControl), (1026, Core.resetControl),
   (1027, Core.resetControl)]

/-- The module right after reset. DESIGN CHOICE (log 8). -/
def State.reset : State :=
  { mem := [], hostMem := [], cores := controlCores, quads := [], dies := Vector.replicate 4 Die.reset,
    launches := [], tasks := [], jobs := [], nextId := 1, time := 0, timeStatus := TimeStatus.reset,
    modState := .reset, booted := false, served := Vector.replicate 8 0, turns := 0, deadline := none, mgmt := 0, powerLimit := 3600, moduleEnergy := 0,
    taskRoot := 0, superRoot := 0, moduleId := 0, txResume := [], clocksLocked := false,
    locking := false, linksDown := 0, farGone := [], tlb := [], poison := [], moving := [], replicas := [],
    written := [], epochStart := 0, rollback := 0, firmware := 0, recordsWritten := 0, hbmLimit := Vector.replicate 12 false,
    outbox := [], cur := 0, agenda := [], pace := [], choices := [], eager := true, fresh := 2 }

end Sys2Proof.Machine
end

