-- ==== Sys2Proof/Machine/Num.lean ====
section
/-! DEFINITION. Numbers (R46 to R67, R78, R79): the floating formats and their codes, exact values as
dyadic numbers, the one rounding that every conversion uses, and the special functions. -/

namespace Sys2Proof.Machine

/-! ## Exact values -/

/-- A float value: a signed dyadic `m × 2^e`, an infinity, or a NaN (signalling or quiet). -/
inductive FVal where
  | fin (neg : Bool) (m : Nat) (e : Int)
  | inf (neg : Bool)
  | nan (signalling : Bool)
deriving DecidableEq, Repr

/-- An exact signed dyadic `m × 2^e`. -/
structure Dy where
  m : Int
  e : Int
deriving DecidableEq, Repr

/-- `m × 2^k` for a natural shift. -/
def shl (m : Int) (k : Nat) : Int := m * 2 ^ k

/-- The exact sum. -/
def Dy.add (a b : Dy) : Dy :=
  if a.m = 0 then b else if b.m = 0 then a else
  if a.e ≤ b.e then { m := a.m + shl b.m (b.e - a.e).toNat, e := a.e }
  else { m := shl a.m (a.e - b.e).toNat + b.m, e := b.e }

/-- The exact product. -/
def Dy.mul (a b : Dy) : Dy := { m := a.m * b.m, e := a.e + b.e }

def Dy.neg (a : Dy) : Dy := { a with m := -a.m }
def Dy.zero : Dy := { m := 0, e := 0 }
def Dy.abs (a : Dy) : Dy := { a with m := a.m.natAbs }
def Dy.ofInt (n : Int) : Dy := { m := n, e := 0 }

/-- The sign of `a − b` without forming a difference of unlike exponents needlessly. -/
def Dy.lt (a b : Dy) : Bool := (a.add b.neg).m < 0
def Dy.le (a b : Dy) : Bool := (a.add b.neg).m ≤ 0
def Dy.eq (a b : Dy) : Bool := (a.add b.neg).m = 0

/-- The dyadic of a finite value. -/
def FVal.dy : FVal → Dy
  | .fin s m e => { m := if s then -(m : Int) else m, e := e }
  | _ => Dy.zero

def FVal.isNan : FVal → Bool | .nan _ => true | _ => false
def FVal.isInf : FVal → Bool | .inf _ => true | _ => false
def FVal.isFin : FVal → Bool | .fin .. => true | _ => false
def FVal.isSignalling : FVal → Bool | .nan s => s | _ => false
def FVal.isZero : FVal → Bool | .fin _ m _ => m == 0 | _ => false
def FVal.sign : FVal → Bool
  | .fin s _ _ => s | .inf s => s | .nan _ => false
def FVal.negate : FVal → FVal
  | .fin s m e => .fin (!s) m e | .inf s => .inf (!s) | .nan q => .nan q
/-- A dyadic as a value; zero takes the given sign. -/
def FVal.ofDy (d : Dy) (zeroNeg : Bool) : FVal :=
  if d.m = 0 then .fin zeroNeg 0 0 else .fin (d.m < 0) d.m.natAbs d.e

/-- ⌊log2 n⌋ of a positive number. -/
def lg (n : Nat) : Nat := Nat.log2 n

/-! ## Formats -/

/-- The kinds of R51; the standard formats are of kind IEEE. -/
inductive FKind where
  | ieee | finNan | fin | log
deriving DecidableEq, Repr

/-- A floating format: its kind, field widths and bias; `std` marks F32, BF16 and F16. -/
structure FFmt where
  kind : FKind
  ebits : Nat
  mbits : Nat
  bias : Int
  std : Bool
deriving DecidableEq, Repr

/-- R46. -/
def FFmt.f32 : FFmt := { kind := .ieee, ebits := 8, mbits := 23, bias := 127, std := true }
def FFmt.bf16 : FFmt := { kind := .ieee, ebits := 8, mbits := 7, bias := 127, std := true }
def FFmt.f16 : FFmt := { kind := .ieee, ebits := 5, mbits := 10, bias := 15, std := true }

/-- Bits below the sign. -/
def FFmt.mag (f : FFmt) : Nat := f.ebits + f.mbits
def FFmt.width (f : FFmt) : Nat := 1 + f.mag

/-- The fraction table of LOG formats, as mantissas over 2^23 (R54). -/
def logT (f : Nat) : Nat :=
  match f with
  | 0 => 0x800000 | 1 => 0x9837F0 | 2 => 0xB504F3 | _ => 0xD744FD

/-- The value of the integer point `c` of a LOG grid, continued both ways (R54, R56). -/
def FFmt.logDy (f : FFmt) (c : Int) : Dy :=
  { m := logT ((c % 2 ^ f.mbits).toNat * 2 ^ (2 - f.mbits)), e := c / 2 ^ f.mbits - f.bias - 23 }

/-- Dec (R46, R53, R54). -/
def FFmt.decode (f : FFmt) (code : Nat) : FVal :=
  let s := code / 2 ^ f.mag % 2 == 1
  let c := code % 2 ^ f.mag
  let e := c / 2 ^ f.mbits
  let m := c % 2 ^ f.mbits
  match f.kind with
  | .log =>
    if c = 0 then (if s then .nan false else .fin false 0 0)
    else .fin s (f.logDy c).m.toNat (f.logDy c).e
  | k =>
    if e = 0 then .fin s m (1 - f.bias - f.mbits)
    else if e = 2 ^ f.ebits - 1 && k == .ieee then
      (if m = 0 then .inf s else .nan (f.std && m < 2 ^ (f.mbits - 1)))
    else if c = 2 ^ f.mag - 1 && k == .finNan then .nan false
    else .fin s (2 ^ f.mbits + m) (e - f.bias - f.mbits)

/-- The magnitude code of the largest finite value. -/
def FFmt.maxMag (f : FFmt) : Nat :=
  match f.kind with
  | .ieee => (2 ^ f.ebits - 1) * 2 ^ f.mbits - 1
  | .finNan => 2 ^ f.mag - 2
  | _ => 2 ^ f.mag - 1

def FFmt.signed (f : FFmt) (s : Bool) (mag : Nat) : Nat := if s then 2 ^ f.mag + mag else mag

/-- The default NaN (R46, R55); none for kind FINITE. -/
def FFmt.nanCode (f : FFmt) : Option Nat :=
  match f.kind with
  | .ieee => some ((2 ^ f.ebits - 1) * 2 ^ f.mbits + 2 ^ (f.mbits - 1))
  | .finNan => some (2 ^ f.mag - 1)
  | .fin => none
  | .log => some (2 ^ f.mag)

/-- The code of an infinity of an IEEE format. -/
def FFmt.infCode (f : FFmt) (s : Bool) : Nat := f.signed s ((2 ^ f.ebits - 1) * 2 ^ f.mbits)
def FFmt.maxCode (f : FFmt) (s : Bool) : Nat := f.signed s f.maxMag
/-- A zero; LOG has +0 alone (R54). -/
def FFmt.zeroCode (f : FFmt) (s : Bool) : Nat := if f.kind == .log then 0 else f.signed s 0

/-- Whether `m × 2^e` is exactly an F32 value (R52). -/
def exactF32 (m : Nat) (e : Int) : Bool :=
  m == 0 ||
    (let t := lg m
     (t : Int) + e ≤ 127 &&
     (let q := max ((t : Int) + e - 23) (-149)
      q ≤ e || m % 2 ^ (q - e).toNat == 0))

/-- Every finite value of the format is exactly an F32 value (R52): its extremes suffice. -/
def FFmt.inF32 (f : FFmt) : Bool :=
  let ok (c : Nat) : Bool :=
    match f.decode c with
    | .fin _ m e => exactF32 m e
    | _ => true
  ok f.maxMag && ok 1 && ok 2 && ok 3 && ok 4

/-- The format of an NF register, when it is valid (R51, R52). -/
def nfFmt (w : BitVec 32) : Option FFmt :=
  let n := w.toNat
  let width := bitsOf n 23 20
  let mb := bitsOf n 7 4
  let eb := bitsOf n 3 0
  let kind := bitsOf n 19 16
  let b := bitsOf n 15 8
  let bias : Int := if b < 128 then b else (b : Int) - 256
  let k : FKind := match kind with | 0 => .ieee | 1 => .finNan | 2 => .fin | _ => .log
  let f : FFmt := { kind := k, ebits := eb, mbits := mb, bias := bias, std := false }
  if bitsOf n 31 24 == 0 && (width == 4 || width == 6 || width == 8) && mb ≤ 6 && eb ≤ 5 &&
      width == 1 + eb + mb && kind < 4 && (k != .ieee || (2 ≤ eb && 1 ≤ mb)) &&
      (k == .log || k == .ieee || 1 ≤ eb) && (k != .log || mb ≤ 2) && f.inF32
  then some f else none

/-! ## Flags: the STATUS positions of R144 -/

def flInvalid : BitVec 5 := 1
def flDivzero : BitVec 5 := 2
def flOverflow : BitVec 5 := 4
def flUnderflow : BitVec 5 := 8
def flInexact : BitVec 5 := 16

/-- A code with the flags of its making and whether it became a void +0 (R59). -/
structure Coded where
  code : Nat
  flags : BitVec 5
  void : Bool := false
deriving DecidableEq, Repr

/-! ## Rounding (R56) -/

/-- Where an exact value lies above the integer below it. -/
inductive Rest where
  | zero | below | half | above
deriving DecidableEq, Repr

/-- `⌊m × 2^s⌋` and the rest; `sticky` marks a further part below the last bit of `m`. -/
def floorShift (m : Nat) (s : Int) (sticky : Bool) : Nat × Rest :=
  match s with
  | .ofNat k => (m * 2 ^ k, if sticky then .below else .zero)
  | .negSucc k' =>
    let k := k' + 1
    if m = 0 then (0, if sticky then .below else .zero)
    else if lg m + 1 < k then (0, .below)
    else
      let q := m / 2 ^ k
      let r := m % 2 ^ k
      let h := 2 ^ (k - 1)
      (q, if r = 0 then (if sticky then .below else .zero)
          else if r < h then .below
          else if r = h then (if sticky then .above else .half)
          else .above)

/-- A rounding direction on magnitudes. -/
inductive MagMode where
  | near | down | up
deriving DecidableEq, Repr

/-- The direction on magnitudes that a mode takes for a sign (R56). -/
def magMode (rm : Rm) (neg : Bool) : MagMode :=
  match rm with
  | .rne => .near
  | .rz => .down
  | .rd => if neg then .up else .down
  | .ru => if neg then .down else .up

/-- Whether the point above the floor is taken; `even` says that the floor's code is even. -/
def roundsUp (md : MagMode) (r : Rest) (even : Bool) : Bool :=
  match md, r with
  | _, .zero => false
  | .down, _ => false
  | .up, _ => true
  | .near, .below => false
  | .near, .above => true
  | .near, .half => !even

/-- A magnitude on a format's grid, continued past the largest finite value. -/
structure GridMag where
  code : Nat
  inexact : Bool
  tiny : Bool
deriving DecidableEq, Repr

/-- A positive `m × 2^e` on the grid of a kind with exponents (R56). A tie below the limit goes to the
even significand, which is also what it goes to where the format has no mantissa bits and the continued
grid no codes. DESIGN CHOICE (log 74). -/
def FFmt.roundExp (f : FFmt) (m : Nat) (e : Int) (sticky : Bool) (md : MagMode) : GridMag :=
  let ex := (lg m : Int) + e
  let emin := 1 - f.bias
  let exq := max ex emin
  let (n, r) := floorShift m (e - (exq - f.mbits)) sticky
  let even := ((exq + f.bias - 1) * 2 ^ f.mbits + n) % 2 == 0
  let n' := if roundsUp md r even then n + 1 else n
  let (u, ru) := floorShift m (e - (ex - f.mbits)) sticky
  let u' := if roundsUp md ru (u % 2 == 0) then u + 1 else u
  { code := ((exq + f.bias - 1) * 2 ^ f.mbits + n').toNat, inexact := r != .zero,
    tiny := ex < emin && !(ex == emin - 1 && u' == 2 ^ (f.mbits + 1)) }

/-- The largest fraction index of a LOG format whose point is at most the mantissa `m / 2^l`. -/
def FFmt.logIndex (f : FFmt) (m l : Nat) : Nat → Nat
  | 0 => 0
  | k + 1 =>
    let t := logT ((k + 1) * 2 ^ (2 - f.mbits))
    if t * 2 ^ l ≤ m * 2 ^ 23 then k + 1 else f.logIndex m l k

/-- How a value stands between two dyadics, as a rest over the lower. -/
def between (x lo hi : Dy) (sticky : Bool) : Rest :=
  if x.eq lo then (if sticky then .below else .zero)
  else
    let twice : Dy := { m := x.m, e := x.e + 1 }
    let s := lo.add hi
    if twice.lt s then .below
    else if twice.eq s then (if sticky then .above else .half) else .above

/-- A positive `m × 2^e` on a LOG grid (R54, R56). -/
def FFmt.roundLog (f : FFmt) (m : Nat) (e : Int) (sticky : Bool) (md : MagMode) : GridMag :=
  let l := lg m
  let c0 : Int := ((l : Int) + e + f.bias) * 2 ^ f.mbits + f.logIndex m l (2 ^ f.mbits - 1)
  let x : Dy := { m := m, e := e }
  -- the continued grid, for tininess
  let rc := between x (f.logDy c0) (f.logDy (c0 + 1)) sticky
  let c' := if roundsUp md rc (c0 % 2 == 0) then c0 + 1 else c0
  if 1 ≤ c0 then { code := c'.toNat, inexact := rc != .zero, tiny := false }
  else if c0 + 64 < 0 then
    { code := if md == .up then 1 else 0, inexact := true, tiny := c' < 1 }
  else
    let r := between x Dy.zero (f.logDy 1) sticky
    { code := if roundsUp md r true then 1 else 0, inexact := true, tiny := c' < 1 }

/-- A positive magnitude on the format's grid. -/
def FFmt.roundMag (f : FFmt) (m : Nat) (e : Int) (sticky : Bool) (md : MagMode) : GridMag :=
  if f.kind == .log then f.roundLog m e sticky md else f.roundExp m e sticky md

/-- The value written where a result overflows: R57 for the standard formats, R58 for NF. -/
def FFmt.overflow (f : FFmt) (sat : Bool) (rm : Rm) (s : Bool) : Nat :=
  if sat || !f.std then f.maxCode s
  else
    match rm with
    | .rne => f.infCode s
    | .rz => f.maxCode s
    | .rd => if s then f.infCode s else f.maxCode s
    | .ru => if s then f.maxCode s else f.infCode s

/-- A code that FTZ flushes: subnormal in a standard format, below the F32 normals in NF (R48, R67). -/
def FFmt.flushes (f : FFmt) (mag : Nat) : Bool :=
  if f.std then mag != 0 && mag < 2 ^ f.mbits
  else
    match f.decode mag with
    | .fin _ m e => m != 0 && (lg m : Int) + e < -126
    | _ => false

/-- A value read under FTZ (R48, R278). -/
def FFmt.readFtz (f : FFmt) (ftz : Bool) (code : Nat) : FVal :=
  if ftz && f.flushes (code % 2 ^ f.mag) then .fin (code / 2 ^ f.mag % 2 == 1 && f.kind != .log) 0 0
  else f.decode code

/-- A finite sign and magnitude into a format: Round for the standard formats (R57), EncSat for NF
(R58); `ftz` flushes a subnormal result (R48). -/
def FFmt.encodeFin (f : FFmt) (sat ftz : Bool) (rm : Rm) (s : Bool) (m : Nat) (e : Int)
    (sticky : Bool) : Coded :=
  if m = 0 then { code := f.zeroCode s, flags := if sticky then flInexact else 0 }
  else
    let g := f.roundMag m e sticky (magMode rm s)
    if f.maxMag < g.code then { code := f.overflow sat rm s, flags := flOverflow ||| flInexact }
    else if ftz && f.flushes g.code then { code := f.zeroCode s, flags := flUnderflow ||| flInexact }
    else
      { code := if g.code = 0 then f.zeroCode s else f.signed s g.code,
        flags := (if g.inexact then flInexact else 0) |||
          (if g.inexact && g.tiny then flUnderflow else 0) }

/-- Any value into a format: Round under R57, or EncSat under R58 and R59. `inv` says that a NaN here
was signalling or came of an invalid operation (R47). -/
def FFmt.encode (f : FFmt) (sat ftz : Bool) (rm : Rm) (v : FVal) (inv : Bool) : Coded :=
  let fl := if inv then flInvalid else 0
  match v with
  | .nan _ =>
    match f.nanCode with
    | some c => { code := c, flags := fl }
    | none => { code := 0, flags := flInvalid, void := true }
  | .inf s => { code := if sat || !f.std then f.maxCode s else f.infCode s, flags := fl }
  | .fin s m e =>
    let r := f.encodeFin sat ftz rm s m e false
    { r with flags := r.flags ||| fl }

/-! ## Exact operations on values (R47, R56, R284) -/

/-- An exact result with whether it is an invalid operation. -/
structure ExactV where
  v : FVal
  inv : Bool
deriving DecidableEq, Repr

/-- The sign of an exact zero sum of operands with the given signs (R56). -/
def zeroSumSign (rm : Rm) (a b : Bool) : Bool := if a == b then a else rm == .rd

/-- A NaN result: INVALID when some input is signalling (R47). -/
def nanOf (vs : List FVal) : ExactV := { v := .nan false, inv := vs.any FVal.isSignalling }

def exactAdd (rm : Rm) (a b : FVal) : ExactV :=
  match a, b with
  | .nan _, _ | _, .nan _ => nanOf [a, b]
  | .inf s, .inf t => if s == t then { v := a, inv := false } else { v := .nan false, inv := true }
  | .inf _, _ => { v := a, inv := false }
  | _, .inf _ => { v := b, inv := false }
  | .fin s _ _, .fin t _ _ => { v := FVal.ofDy (a.dy.add b.dy) (zeroSumSign rm s t), inv := false }

def exactMul (a b : FVal) : ExactV :=
  match a, b with
  | .nan _, _ | _, .nan _ => nanOf [a, b]
  | .inf s, .inf t => { v := .inf (s != t), inv := false }
  | .inf s, .fin t m _ => if m = 0 then { v := .nan false, inv := true } else { v := .inf (s != t), inv := false }
  | .fin s m _, .inf t => if m = 0 then { v := .nan false, inv := true } else { v := .inf (s != t), inv := false }
  | .fin s m e, .fin t n d => { v := .fin (s != t) (m * n) (e + d), inv := false }

/-- a × b + z, formed exactly (R284). -/
def exactFma (rm : Rm) (a b z : FVal) : ExactV :=
  let p := exactMul a b
  let inv := p.inv || z.isSignalling
  match p.v, z with
  | .nan _, _ | _, .nan _ => { v := .nan false, inv := inv }
  | v, z => exactAdd rm v z

/-- The order of two values that are no NaN, −0 below +0 (R285). -/
def rankLt (a b : FVal) : Bool :=
  match a, b with
  | .inf s, .inf t => s && !t
  | .inf s, _ => s
  | _, .inf t => !t
  | _, _ => a.dy.lt b.dy || (a.dy.eq b.dy && a.sign && !b.sign)

/-- Numeric comparison of two values that are no NaN, −0 = +0 (R286). -/
def numLt (a b : FVal) : Bool :=
  match a, b with
  | .inf s, .inf t => s && !t
  | .inf s, _ => s
  | _, .inf t => !t
  | _, _ => a.dy.lt b.dy
def numEq (a b : FVal) : Bool :=
  match a, b with
  | .inf s, .inf t => s == t
  | .inf _, _ | _, .inf _ => false
  | _, _ => a.dy.eq b.dy

/-! ## Integers (R50) -/

/-- The signed value of the low `w` bits. -/
def toSigned (w n : Nat) : Int := if n % 2 ^ w < 2 ^ (w - 1) then (n % 2 ^ w : Nat) else ((n % 2 ^ w : Nat) : Int) - 2 ^ w
/-- An element's value by the signedness of its type. -/
def intVal (uns : Bool) (w n : Nat) : Int := if uns then (n % 2 ^ w : Nat) else toSigned w n
/-- The low `w` bits of an integer. -/
def wrapInt (w : Nat) (v : Int) : Nat := (v % 2 ^ w).toNat
def intMin (uns : Bool) (w : Nat) : Int := if uns then 0 else -(2 ^ (w - 1))
def intMax (uns : Bool) (w : Nat) : Int := if uns then 2 ^ w - 1 else 2 ^ (w - 1) - 1
/-- A result wrapped, or clamped with OVERFLOW under SAT. -/
def satInt (sat uns : Bool) (w : Nat) (v : Int) : Nat × BitVec 5 :=
  if !sat then (wrapInt w v, 0)
  else if v < intMin uns w then (wrapInt w (intMin uns w), flOverflow)
  else if intMax uns w < v then (wrapInt w (intMax uns w), flOverflow)
  else (wrapInt w v, 0)

/-- A dyadic rounded to an integer, and whether the rounding changed it (R291). -/
def roundToInt (rm : Rm) (s : Bool) (m : Nat) (e : Int) : Int × Bool :=
  let big : Bool := 128 < (lg m : Int) + e
  if m = 0 then (0, false)
  else if big then (if s then -(2 ^ 128) else 2 ^ 128, false)
  else
    let (q, r) := floorShift m e false
    let n := if roundsUp (magMode rm s) r (q % 2 == 0) then q + 1 else q
    (if s then -(n : Int) else n, r != .zero)

/-- Float or NF to an integer type: rounded, clamped; NaN gives 0 (R291). A clamp sets INVALID, and a
rounding that changed the value sets INEXACT beside it. -/
def floatToInt (rm : Rm) (uns : Bool) (w : Nat) (v : FVal) : Nat × BitVec 5 :=
  match v with
  | .nan _ => (0, flInvalid)
  | .inf s => (wrapInt w (if s then intMin uns w else intMax uns w), flInvalid)
  | .fin s m e =>
    let (n, ch) := roundToInt rm s m e
    let fl := if ch then flInexact else 0
    if n < intMin uns w then (wrapInt w (intMin uns w), flInvalid ||| fl)
    else if intMax uns w < n then (wrapInt w (intMax uns w), flInvalid ||| fl)
    else (wrapInt w n, fl)

/-- The integer `⌊m × 2^s⌋` of a signed `m`, and whether bits were lost; magnitudes past 2^200 are cut
to 2^200, beyond every range they are compared with. -/
def floorDy (m : Int) (s : Int) : Int × Bool :=
  match s with
  | .ofNat k =>
    if m = 0 then (0, false)
    else if 200 < lg m.natAbs + k then (if m < 0 then -(2 ^ 200) else 2 ^ 200, false)
    else (m * 2 ^ k, false)
  | .negSucc k' =>
    let k := k' + 1
    if m = 0 then (0, false)
    else if lg m.natAbs + 1 < k then (if m < 0 then -1 else 0, true)
    else (m / 2 ^ k, m % 2 ^ k != 0)

/-! ## Block scales (R61 to R63) -/

/-- ⌊log2⌋ of the format's largest finite value. -/
def FFmt.emax (f : FFmt) : Int :=
  match f.decode f.maxMag with
  | .fin _ m e => (lg m : Int) + e
  | _ => 0

/-- The larger of two magnitudes, NaN above all (R63). -/
def magMax (a b : FVal) : FVal :=
  match a, b with
  | .nan _, _ => a
  | _, .nan _ => b
  | .inf _, _ => .inf false
  | _, .inf _ => .inf false
  | .fin _ m e, .fin _ n d =>
    if ({ m := m, e := e } : Dy).lt { m := n, e := d } then .fin false n d else .fin false m e

/-- The scale byte of a block (R63). -/
def FFmt.scaleByte (f : FFmt) (amax : FVal) : Nat :=
  match amax with
  | .nan _ => 0xFF
  | .inf _ => 254
  | .fin _ m e =>
    if m = 0 then 127 else (max 0 (min 254 ((lg m : Int) + e - f.emax + 127))).toNat

/-- A value times 2^k. -/
def FVal.scale (v : FVal) (k : Int) : FVal :=
  match v with
  | .fin s m e => .fin s m (if m = 0 then 0 else e + k)
  | v => v

/-! ## CRC-32C (R62) -/

def crcBit (c : Nat) : Nat → Nat
  | 0 => c
  | k + 1 => crcBit (if c % 2 = 1 then (c / 2) ^^^ 0x82F63B78 else c / 2) k
def crcByte (c : Nat) (b : Byte) : Nat := crcBit (c ^^^ b.toNat) 8
/-- CRC-32C with the usual initial value and final inversion. -/
def crc32c (bs : List Byte) : Nat := (bs.foldl crcByte 0xFFFFFFFF) ^^^ 0xFFFFFFFF

/-! ## Special functions (R78, R79, R296) -/

/-- A scale-plane line with some of its scales replaced and its check made new (R62, R311). -/
def setScales (line : List Byte) (bs : List (Nat × Byte)) : List Byte :=
  let d := bs.foldl (fun (l : List Byte) b => l.set b.1 b.2) (line.take 60)
  d ++ leBytes 4 (crc32c d)


/-- ⌊√n⌋, bit by bit from bit `k`. -/
def isqrtFrom (n r : Nat) : Nat → Nat
  | 0 => if (r + 1) * (r + 1) ≤ n then r + 1 else r
  | k + 1 =>
    let t := r + 2 ^ (k + 1)
    isqrtFrom n (if t * t ≤ n then t else r) k
def isqrt (n : Nat) : Nat := isqrtFrom n 0 (lg n / 2 + 1)

/-- Bits of the fixed-point numbers below. -/
def fxBits : Nat := 120
/-- ⌊ln 2 × 2^120⌋ and ⌊log2 e × 2^120⌋. -/
def ln2Fx : Nat := 921350637599661305226344307672478454
def log2eFx : Nat := 1917670637729674084946755258930051709

/-- The Taylor series of exp at a fixed-point argument below 1, from the term of index `i`. -/
def expSeries (y term acc i : Nat) : Nat → Nat
  | 0 => acc
  | k + 1 =>
    let t := term * y / (2 ^ fxBits * i)
    expSeries y t (acc + t) (i + 1) k

/-- Bounds of 2^f for the fixed-point f below 1, in units of 2^−120: the truncations lose less than
2^8 units, and the argument's last unit less than 2 more; the true value is below 2. -/
def exp2Frac (f : Nat) : Nat × Nat :=
  let y := f * ln2Fx / 2 ^ fxBits
  let v := expSeries y (2 ^ fxBits) (2 ^ fxBits) 1 40
  (v, min (v + 512) (2 ^ (fxBits + 1)))

/-- The binary digits of log2 of a fixed-point mantissa in [1, 2), by squaring. -/
def log2Digits (y acc : Nat) : Nat → Nat
  | 0 => acc
  | k + 1 =>
    let z := y * y / 2 ^ 240
    if 2 ^ 241 ≤ z then log2Digits (z / 2) (2 * acc + 1) k else log2Digits z (2 * acc) k

/-- Bounds, in units of 2^−100, of log2 of m / 2^l. -/
def log2Mant (m l : Nat) : Nat × Nat :=
  let v := log2Digits (m * 2 ^ (240 - min l 240) / 2 ^ (l - min l 240)) 0 100
  (v, v + 2)

/-- Positive bounds of a function's true magnitude: at least `lo`, and above it where `sticky` says so;
below `hi`. -/
structure Bounds where
  neg : Bool
  lo : Dy
  hi : Dy
  sticky : Bool := true
deriving DecidableEq, Repr

/-- Bounds of 2^x. -/
def exp2Bounds (s : Bool) (m : Nat) (e : Int) : Bounds :=
  -- ⌊x⌋ and the fraction in units of 2^−120, rounded down
  let sm : Int := if s then -(m : Int) else m
  let (n, f) : Int × Nat :=
    match e with
    | .ofNat k => (sm * 2 ^ k, 0)
    | .negSucc k' =>
      let k := k' + 1
      if 400 < k then (if s then -1 else 0, if s then 2 ^ fxBits - 1 else 0)
      else (sm / 2 ^ k, (sm % 2 ^ k).toNat * 2 ^ fxBits / 2 ^ k)
  let (lo, hi) := exp2Frac f
  { neg := false, lo := { m := lo, e := n - fxBits }, hi := { m := hi, e := n - fxBits } }

/-- Bounds of |log2 x|, with its sign. -/
def log2Bounds (m : Nat) (e : Int) : Bounds :=
  let l := lg m
  let ex : Int := (l : Int) + e
  let (lo, hi) := log2Mant m l
  if 0 ≤ ex then
    { neg := false, lo := { m := ex * 2 ^ 100 + lo, e := -100 }, hi := { m := ex * 2 ^ 100 + hi, e := -100 } }
  else
    { neg := true, lo := { m := -ex * 2 ^ 100 - hi, e := -100 }, hi := { m := -ex * 2 ^ 100 - lo, e := -100 } }

/-- Bounds of tanh of a positive m × 2^e. -/
def tanhBounds (s : Bool) (m : Nat) (e : Int) : Bounds :=
  let ex : Int := (lg m : Int) + e
  if ex < -13 then
    -- x − x³/3 < tanh x < x; x³/3 is below x × 2^(2 ex + 1)
    { neg := s, hi := { m := m, e := e },
      lo := ({ m := m, e := e } : Dy).add { m := -(m : Int), e := e + 2 * ex + 1 } }
  else if 5 ≤ ex then { neg := s, lo := { m := 2 ^ 60 - 1, e := -60 }, hi := { m := 1, e := 0 } }
  else
    -- u = e^(2x) = 2^(2x log2 e)
    let y : Nat := (match e + 1 with
      | .ofNat k => m * 2 ^ k * log2eFx
      | .negSucc k => m * log2eFx / 2 ^ (k + 1))
    let n := y / 2 ^ fxBits
    let (lo, hi) := exp2Frac (y % 2 ^ fxBits)
    let ulo := lo * 2 ^ n
    let uhi := (hi + 2 ^ 16) * 2 ^ n
    let one := 2 ^ fxBits
    { neg := s,
      lo := { m := ((ulo - one) * 2 ^ 100 / (ulo + one) : Nat), e := -100 },
      hi := { m := ((uhi - one) * 2 ^ 100 / (uhi + one) + 1 : Nat), e := -100 } }

/-- The codes between which a special function's result may lie: those within `w` ulps of the true
value for RNE, and within `w + 1` on the named side for the other modes (R78). DESIGN CHOICE (log 39). -/
def FFmt.sfuRange (f : FFmt) (rm : Rm) (b : Bounds) (w : Nat) : Nat × Nat :=
  let up : Nat := if b.lo.m ≤ 0 then 0 else (f.roundMag b.lo.m.toNat b.lo.e b.sticky .up).code
  let down : Nat := if b.hi.m ≤ 0 then 0 else (f.roundMag (b.hi.m.toNat * 2 ^ 64 - 1) (b.hi.e - 64) false .down).code
  match magMode rm b.neg with
  | .near => (up - w, down + w)
  | .down => (up - (w + 1), down)
  | .up => (up, down + (w + 1))

/-- A value known by its bounds, rounded once into a format. -/
def FFmt.sfuExact (f : FFmt) (sat ftz : Bool) (rm : Rm) (b : Bounds) : Coded :=
  let d := if b.lo.m ≤ 0 then b.hi else b.lo
  f.encodeFin sat ftz rm b.neg d.m.toNat d.e b.sticky

/-- A special function's result where the value is irrational or not asked to be exact: EncSat of the value
for NF (R60, R296), else a free choice within its range, then overflow and FTZ as for any result.
DESIGN CHOICE (log 39). -/
def FFmt.sfuPick (f : FFmt) (fn : Nat) (sat ftz : Bool) (rm : Rm) (b : Bounds) (w input : Nat) : Coded :=
  if !f.std then f.sfuExact sat ftz rm b else
  let (lo, hi) := f.sfuRange rm b w
  let c := lo + Config.sfuPick fn rm.ctorIdx input % (hi - lo + 1)
  let tiny := if f.kind == .log then c < 1 else c < 2 ^ f.mbits
  if f.maxMag < c then { code := f.overflow sat rm b.neg, flags := flOverflow ||| flInexact }
  else if ftz && f.flushes c then { code := f.zeroCode b.neg, flags := flUnderflow ||| flInexact }
  else
    let g := f.roundMag b.lo.m.toNat b.lo.e b.sticky .down
    { code := if c = 0 then f.zeroCode b.neg else f.signed b.neg c,
      flags := if !g.inexact && g.code = c then 0 else flInexact ||| (if tiny then flUnderflow else 0) }

/-- The special functions, by their VSFU fn (R296). -/
inductive Sfu where
  | rcp | rsq | sqrt | exp2 | log2 | tanh
deriving DecidableEq, Repr

/-- A quotient 1 / (m × 2^e) with 80 bits and a sticky bit. -/
def rcpDy (m : Nat) (e : Int) : Nat × Int × Bool :=
  let k := lg m + 80
  (2 ^ k / m, -(k : Int) - e, 2 ^ k % m != 0)

/-- √(m × 2^e) with 80 bits or more and a sticky bit. -/
def sqrtDy (m : Nat) (e : Int) : Nat × Int × Bool :=
  -- an even exponent, and enough bits
  let k : Nat := 160
  let odd := (e - k) % 2 != 0
  let n := m * 2 ^ (if odd then k + 1 else k)
  let d : Int := (e - (if odd then k + 1 else k : Nat)) / 2
  let r := isqrt n
  (r, d, r * r != n)

/-- A special function of one value (R78, R79): the result's code and flags. DESIGN CHOICE (log 39). -/
def FFmt.sfu (f : FFmt) (fn : Sfu) (sat ftz : Bool) (rm : Rm) (x : FVal) (input : Nat) : Coded :=
  let out (v : FVal) (fl : BitVec 5) : Coded :=
    let r := f.encode sat ftz rm v false
    { r with flags := r.flags ||| fl }
  match x with
  | .nan q => f.encode sat ftz rm (.nan q) q
  | _ =>
  match fn, x with
  | .rcp, .inf s => out (.fin s 0 0) 0
  | .rcp, .fin s m e =>
    if m = 0 then out (.inf s) flDivzero
    else let (q, d, st) := rcpDy m e; f.encodeFin sat ftz rm s q d st
  | .sqrt, .inf s => if s then out (.nan false) flInvalid else out (.inf false) 0
  | .sqrt, .fin s m e =>
    if m = 0 then out (.fin s 0 0) 0
    else if s then out (.nan false) flInvalid
    else let (q, d, st) := sqrtDy m e; f.encodeFin sat ftz rm false q d st
  | .rsq, .inf s => if s then out (.nan false) flInvalid else out (.fin false 0 0) 0
  | .rsq, .fin s m e =>
    if m = 0 then out (.inf s) flDivzero
    else if s then out (.nan false) flInvalid
    else
      let (q, d, st) := rcpDy m e
      let (r, c, st2) := sqrtDy q d
      let lo : Dy := { m := r, e := c }
      let hi : Dy := { m := (r : Int) + (if st then 2 else 1), e := c }
      f.sfuPick 1 sat ftz rm { neg := false, lo := lo, hi := hi, sticky := st || st2 } 1 input
  | .exp2, .inf s => if s then out (.fin false 0 0) 0 else out (.inf false) 0
  | .exp2, .fin s m e =>
    -- an integer input is exact (R78)
    let isInt : Bool := m == 0 || 0 ≤ e || (-e ≤ lg m && m % 2 ^ (-e).toNat == 0)
    if isInt then
      let n : Int := if m = 0 then 0 else if 0 ≤ e then (m * 2 ^ e.toNat : Nat) else (m / 2 ^ (-e).toNat : Nat)
      f.encodeFin sat ftz rm false 1 (if s then -n else n) false
    else f.sfuPick 3 sat ftz rm (exp2Bounds s m e) 2 input
  | .log2, .inf s => if s then out (.nan false) flInvalid else out (.inf false) 0
  | .log2, .fin s m e =>
    if m = 0 then out (.inf true) flDivzero
    else if s then out (.nan false) flInvalid
    else if m = 2 ^ lg m then
      let n : Int := (lg m : Int) + e
      f.encodeFin sat ftz rm (n < 0) n.natAbs 0 false
    else f.sfuPick 4 sat ftz rm (log2Bounds m e) 2 input
  | .tanh, .inf s => out (.fin s 1 0) 0
  | .tanh, .fin s m e =>
    if m = 0 then out (.fin s 0 0) 0 else f.sfuPick 5 sat ftz rm (tanhBounds s m e) 2 input
  | _, .nan _ => out (.nan false) 0

/-- A code that FTZ flushes through its scaled value (R67). -/
def FFmt.flushScaled (f : FFmt) (ftz : Bool) (k : Int) (c : Coded) : Coded :=
  match f.decode c.code with
  | .fin s m e =>
    if ftz && m != 0 && (lg m : Int) + e + k < -126 then
      { code := f.zeroCode s, flags := flUnderflow ||| flInexact }
    else c
  | _ => c

/-- A value read under FTZ through its scaled value (R67). -/
def readScaled (ftz : Bool) (v : FVal) (k : Int) : FVal :=
  match v with
  | .fin s m e => if ftz && m != 0 && (lg m : Int) + e + k < -126 then .fin s 0 0 else v.scale k
  | v => v

end Sys2Proof.Machine
end

