-- ==== Sys2Proof/Machine/Relax.lean ====
section
/-! DEFINITION. Sums of values with infinities, and the relaxation of one element: slope, offset and error
of a function over an interval (R78, R90 to R93, R379). -/

namespace Sys2Proof.Machine

/-! ## F32 and exact sums -/

def encF (f : FFmt) (rm : Rm) (x : FVal) : Nat := (f.encode false false rm x false).code
/-- A value rounded into F32. -/
def round32 (rm : Rm) (x : FVal) : FVal := FFmt.f32.decode (encF FFmt.f32 rm x)

def addV (a b : FVal) : FVal := (exactAdd .rne a b).v
def subV (a b : FVal) : FVal := addV a b.negate
def mulV (a b : FVal) : FVal := (exactMul a b).v
def absV (a : FVal) : FVal :=
  match a with
  | .fin _ m e => .fin false m e
  | .inf _ => .inf false
  | v => v
def zeroV : FVal := .fin false 0 0
def sumV (l : List FVal) : FVal := l.foldl addV zeroV

/-- A bound that cannot be stated is infinite. DEDUCED (log 41). -/
def FVal.orInf (v : FVal) : FVal := if v.isNan then .inf false else v

/-- |x − y| of an exact value and its rounding; infinite where either is not finite. -/
def errV (x y : FVal) : FVal := if x.isFin && y.isFin then absV (subV x y) else .inf false

/-- A remainder or radius as it is read: negative or NaN counts as infinite (R82). -/
def readRadius (v : FVal) : FVal × Bool :=
  match v with
  | .nan _ => (.inf false, true)
  | .inf s => (.inf false, s)
  | .fin s m e => if s && m != 0 then (.inf false, true) else (.fin false m e, false)

/-! ## Quotients and intervals -/

/-- Bounds of a / b for positive dyadics, of 200 bits. -/
def divLo (a b : Dy) : Dy :=
  if b.m ≤ 0 then Dy.zero else { m := a.m * 2 ^ (lg b.m.toNat + 200) / b.m, e := a.e - b.e - (lg b.m.toNat + 200 : Nat) }
def divHi (a b : Dy) : Dy :=
  if b.m ≤ 0 then Dy.zero else { m := a.m * 2 ^ (lg b.m.toNat + 200) / b.m + 1, e := a.e - b.e - (lg b.m.toNat + 200 : Nat) }
/-- A quotient of values rounded to nearest in F32; a finite value over an infinite one is zero. -/
def div32 (a b : FVal) : FVal :=
  match a, b with
  | .fin s m e, .fin t n d =>
    if n = 0 then .nan false
    else if m = 0 then .fin (s != t) 0 0
    else
      let k := lg n + 80
      FFmt.f32.decode (FFmt.f32.encodeFin false false .rne (s != t) (m * 2 ^ k / n) (e - d - (k : Nat)) (m * 2 ^ k % n != 0)).code
  | .fin s _ _, .inf t => .fin (s != t) 0 0
  | .inf s, .fin t _ _ => .inf (s != t)
  | _, _ => .nan false

/-- Bounds of √x. -/
def sqrtLo (x : Dy) : Dy := if x.m ≤ 0 then Dy.zero else let (r, d, _) := sqrtDy x.m.toNat x.e; { m := r, e := d }
def sqrtHi (x : Dy) : Dy :=
  if x.m ≤ 0 then Dy.zero else let (r, d, st) := sqrtDy x.m.toNat x.e; { m := (r : Int) + (if st then 1 else 0), e := d }

def oneDy : Dy := { m := 1, e := 0 }
def halfDy (x : Dy) : Dy := { x with e := x.e - 1 }
def ln2Lo : Dy := { m := ln2Fx, e := -120 }
def ln2Hi : Dy := { m := (ln2Fx : Int) + 1, e := -120 }

/-- Bounds of log2 of a positive dyadic, signed. -/
def log2Iv (x : Dy) : Dy × Dy :=
  if x.m ≤ 0 then (Dy.zero, Dy.zero)
  else
    let b := log2Bounds x.m.toNat x.e
    if b.neg then (b.hi.neg, b.lo.neg) else (b.lo, b.hi)

/-- Bounds of e^(−|x|); from 2⁹ on, of a positive number below every F32 value. -/
def expNeg (m : Nat) (e : Int) : Dy × Dy :=
  if m = 0 then (oneDy, oneDy)
  else if 9 ≤ (lg m : Int) + e then ({ m := 1, e := -301 }, { m := 1, e := -300 })
  else
    -- −|x| log2 e, between two dyadics that bound it
    let y : Dy := { m := m * log2eFx, e := e - 120 }
    let z : Dy := { m := m * (log2eFx + 1), e := e - 120 }
    let lo := exp2Bounds true z.m.toNat z.e
    let hi := exp2Bounds true y.m.toNat y.e
    (lo.lo, hi.hi)

/-- Bounds of the logistic function. -/
def sigmoidIv (s : Bool) (m : Nat) (e : Int) : Dy × Dy :=
  let (lo, hi) := expNeg m e
  if s then (divLo lo (oneDy.add lo), divHi hi (oneDy.add hi))
  else (divLo oneDy (oneDy.add hi), divHi oneDy (oneDy.add lo))

/-! ## The functions of R379 -/

/-- A number that names a free value of a relaxation. -/
def relaxSeed (fn : Nat) (rm : Rm) (x : FVal) : Nat :=
  fn + 16 * (rm.ctorIdx + 4 * encF FFmt.f32 .rne x)

/-- A value within `w` ulps (RNE) or on the named side of positive bounds. -/
def pickIn (fn : Nat) (rm : Rm) (neg : Bool) (lo hi : Dy) (seed : Nat) : FVal :=
  FFmt.f32.decode (FFmt.f32.sfuPick (16 + fn) false false rm { neg := neg, lo := lo, hi := hi } 2 seed).code

/-- f(x) in F32, on the side of the mode (R78, R92). -/
def relFn (fn : Nat) (rm : Rm) (x : FVal) : FVal :=
  let viaSfu (g : Sfu) : FVal := FFmt.f32.decode (FFmt.f32.sfu g false false rm x (encF FFmt.f32 .rne x)).code
  match fn with
  | 0 => if x.sign then zeroV else x
  | 1 => absV x
  | 2 => viaSfu .tanh
  | 3 =>
    match x with
    | .fin s m e =>
      if m = 0 then .fin false 1 (-1)
      else let (lo, hi) := sigmoidIv s m e; pickIn 3 rm false lo hi (relaxSeed 3 rm x)
    | .inf s => if s then zeroV else .fin false 1 0
    | v => v
  | 4 => viaSfu .exp2
  | 5 => viaSfu .log2
  | 6 => round32 rm (mulV x x)
  | 7 => viaSfu .rcp
  | _ => viaSfu .sqrt

/-- The argument lies in the function's domain. -/
def inDomain (fn : Nat) (x : FVal) : Bool :=
  match fn with
  | 5 | 7 => !x.sign && !x.isZero
  | 8 => !x.sign || x.isZero
  | _ => true

/-- f′(m) in F32, to nearest within 2 ulps (R92). -/
def relDeriv (fn : Nat) (x : FVal) : FVal :=
  let near (neg : Bool) (lo hi : Dy) : FVal := pickIn (8 + fn) .rne neg lo hi (relaxSeed fn .rne x)
  match x with
  | .fin s m e =>
    match fn with
    | 0 => if s && m != 0 then zeroV else .fin false 1 0
    | 1 => if s && m != 0 then .fin true 1 0 else .fin false 1 0
    | 2 =>
      -- 1 − t² = 4 σ (1 − σ) at 2x
      let (a, b) := sigmoidIv s m (e + 1)
      let (c, d) := sigmoidIv (!s) m (e + 1)
      let lo := a.mul c
      let hi := b.mul d
      near false { lo with e := lo.e + 2 } { hi with e := hi.e + 2 }
    | 3 =>
      let (a, b) := sigmoidIv s m e
      let (c, d) := sigmoidIv (!s) m e
      near false (a.mul c) (b.mul d)
    | 4 =>
      let b := exp2Bounds s m e
      near false (b.lo.mul ln2Lo) (b.hi.mul ln2Hi)
    | 5 =>
      let d : Dy := { m := m, e := e }
      if m = 0 then .inf false else near s (divLo oneDy (d.mul ln2Hi)) (divHi oneDy (d.mul ln2Lo))
    | 6 => round32 .rne (.fin s m (e + 1))
    | 7 =>
      let d : Dy := { m := m * m, e := 2 * e }
      if m = 0 then .inf true else near true (divLo oneDy d) (divHi oneDy d)
    | _ =>
      let d : Dy := { m := m, e := e }
      if m = 0 || s then .inf false
      else
        let r := divHi oneDy (sqrtLo d)
        let q := divLo oneDy (sqrtHi d)
        near false (halfDy q) (halfDy r)
  | _ => zeroV

/-- The points where f′ = a for a slope a ≠ 0 and what d(x) = f(x) − a x is there: bounds of x and of d
(R92, R379). RELU and ABS have none away from their kink. -/
def critical (fn : Nat) (a : Dy) : List ((Dy × Dy) × (Dy × Dy)) :=
  let both (x d : Dy × Dy) : List ((Dy × Dy) × (Dy × Dy)) := [(x, d), ((x.2.neg, x.1.neg), (d.2.neg, d.1.neg))]
  let sub (x y : Dy × Dy) : Dy × Dy := (x.1.add y.2.neg, x.2.add y.1.neg)
  -- products of intervals of non-negative numbers
  let mul (x y : Dy × Dy) : Dy × Dy := (x.1.mul y.1, x.2.mul y.2)
  let scale (x : Dy × Dy) : Dy × Dy := if a.m < 0 then (a.mul x.2, a.mul x.1) else (a.mul x.1, a.mul x.2)
  match fn with
  | 2 =>
    -- t = √(1 − a), x = ½ ln((1 + t) / (1 − t)), d = t − a x
    let q := oneDy.add a.neg
    if a.m ≤ 0 || q.m ≤ 0 then []
    else
      let t := (sqrtLo q, sqrtHi q)
      let r := (divLo (oneDy.add t.1) (oneDy.add t.1.neg), divHi (oneDy.add t.2) (oneDy.add t.2.neg))
      let lg := ((log2Iv r.1).1, (log2Iv r.2).2)
      let x := mul lg (halfDy ln2Lo, halfDy ln2Hi)
      both x (sub t (scale x))
  | 3 =>
    -- σ = (1 ± √(1 − 4a)) / 2, x = ln(σ / (1 − σ)), d = σ − a x
    let q := oneDy.add { a with e := a.e + 2 }.neg
    if a.m ≤ 0 || q.m < 0 then []
    else
      let t := (sqrtLo q, sqrtHi q)
      let r := (divLo (oneDy.add t.1) (oneDy.add t.1.neg), divHi (oneDy.add t.2) (oneDy.add t.2.neg))
      let lg := ((log2Iv r.1).1, (log2Iv r.2).2)
      let x := mul lg (ln2Lo, ln2Hi)
      let hi := (halfDy (oneDy.add t.1), halfDy (oneDy.add t.2))
      let lo := (halfDy (oneDy.add t.2.neg), halfDy (oneDy.add t.1.neg))
      let nx := (x.2.neg, x.1.neg)
      [(x, sub hi (scale x)), (nx, sub lo (scale nx))]
  | 4 =>
    -- x = log2(a / ln 2), d = a / ln 2 − a x
    if a.m ≤ 0 then []
    else
      let f := (divLo a ln2Hi, divHi a ln2Lo)
      let x := ((log2Iv f.1).1, (log2Iv f.2).2)
      [(x, sub f (scale x))]
  | 5 =>
    -- x = 1 / (a ln 2), d = log2 x − 1 / ln 2
    if a.m ≤ 0 then []
    else
      let x := (divLo oneDy (a.mul ln2Hi), divHi oneDy (a.mul ln2Lo))
      [(x, sub ((log2Iv x.1).1, (log2Iv x.2).2) (divLo oneDy ln2Hi, divHi oneDy ln2Lo))]
  | 6 => [((halfDy a, halfDy a), let d := (a.mul a).neg; ({ d with e := d.e - 2 }, { d with e := d.e - 2 }))]
  | 7 =>
    -- x = 1 / √(−a), d = 2 √(−a)
    if 0 ≤ a.m then []
    else
      let r := (sqrtLo a.neg, sqrtHi a.neg)
      [((divLo oneDy r.2, divHi oneDy r.1), ({ r.1 with e := r.1.e + 1 }, { r.2 with e := r.2.e + 1 }))]
  | 8 =>
    -- x = 1 / (4 a²), d = 1 / (4 a)
    if a.m ≤ 0 then []
    else
      let a4 : Dy := { a with e := a.e + 2 }
      let sq := a.mul a4
      [((divLo oneDy sq, divHi oneDy sq), (divLo oneDy a4, divHi oneDy a4))]
  | _ => []

/-- An upward F32 bound that may lie a free number of steps above (R92). DESIGN CHOICE (log 40). -/
def freeUp (exact : Bool) (v : Dy) (seed : Nat) : FVal :=
  let c := encF FFmt.f32 .ru (FVal.ofDy v false)
  if exact then FFmt.f32.decode c
  else
    let k := Config.relaxSlack seed
    -- k steps up in the order of values
    let up (c : Nat) : Nat := if 2 ^ 31 < c then c - 1 else if c = 2 ^ 31 then 1 else if c < 0x7F800000 then c + 1 else c
    FFmt.f32.decode ((List.range k).foldl (fun c _ => up c) c)

/-- Slope, offset and error of an element; none where one of them is not finite (R92). -/
structure Line where
  a : FVal
  b : FVal
  e : FVal
deriving DecidableEq, Repr

def maxV (a b : FVal) : FVal := if numLt a b then b else a
def minV (a b : FVal) : FVal := if numLt b a then b else a

/-- The slope of an element (R92). -/
def slope (fn method : Nat) (k l u : FVal) : FVal :=
  match method with
  | 0 => zeroV
  | 1 => .fin false 1 0
  | 2 => k
  | 3 =>
    if l.isInf || u.isInf || numEq l u then zeroV
    else div32 (round32 .rne (subV (relFn fn .rne u) (relFn fn .rne l))) (round32 .rne (subV u l))
  | _ =>
    if l.isInf || u.isInf then zeroV
    else
      let s := addV l u
      relDeriv fn (round32 .rne (match s with | .fin g m e => .fin g m (if m = 0 then 0 else e - 1) | v => v))

/-- The line of an element with bounds l and u (R92), DESIGN CHOICE (log 40). The points are those that the rule lists:
of RELU and ABS with a breakpoint other than 0 the kink at 0, which has no slope, is none of them, save where the slope
1 makes it one. DESIGN CHOICE (log 89). -/
def relaxLine (fn method : Nat) (k beta l u : FVal) : Option Line :=
  if !(inDomain fn l && inDomain fn u) then none
  else
    let a := slope fn method k l u
    if !a.isFin then none
    else
      let ax (x : FVal) : FVal := if a.isZero then zeroV else mulV a x
      let inside (x : FVal) : Bool := numLt l x && numLt x u
      let kink := if fn ≤ 1 && numEq a (.fin false 1 0) && inside zeroV then [zeroV] else []
      let pts := [l, u] ++ (if inside beta then [beta] else []) ++ kink
      let his := pts.map (fun x => round32 .ru (subV (relFn fn .ru x) (ax x)))
      let los := pts.map (fun x => round32 .rd (subV (relFn fn .rd x) (ax x)))
      let seed := relaxSeed fn .rne a + 2 ^ 40 * (relaxSeed 0 .rne l + 2 ^ 40 * relaxSeed 0 .rne u)
      let exact := fn == 6
      -- a point whose bounds reach into the interval is taken
      let cs := (if a.isZero && fn != 6 then [] else critical fn a.dy).filter (fun c =>
        numLt l (FVal.ofDy c.1.2 false) && numLt (FVal.ofDy c.1.1 false) u)
      let his := his ++ cs.map (fun c => freeUp exact c.2.2 seed)
      let los := los ++ cs.map (fun c => (freeUp exact c.2.1.neg (seed + 1)).negate)
      let dmax := his.foldl maxV (his.headD zeroV)
      let dmin := los.foldl minV (los.headD zeroV)
      let s := addV dmax dmin
      let b := round32 .rne (match s with | .fin g m e => .fin g m (if m = 0 then 0 else e - 1) | v => v)
      let e := round32 .ru (maxV (subV dmax b) (subV b dmin))
      if b.isFin && e.isFin && (his ++ los).all FVal.isFin then some { a := a, b := b, e := e } else none

end Sys2Proof.Machine
end

