-- ==== Sys2Proof/WellFormed.lean ====
section
/-! DEFINITION. The limits that decode puts on the operands of an instruction (R108, checks 4 to 7):
`Instr.wf i` holds exactly for the instructions that some words encode. Events have no words and are
not well-formed instructions. -/

namespace Sys2Proof

/-- F32, BF16 and F16. -/
def VTy.isFloat : VTy → Bool
  | .f32 | .bf16 | .f16 => true
  | _ => false

/-- An NF type (R119, code 3). -/
def VTy.isNf : VTy → Bool
  | .nf _ => true
  | _ => false

/-- The types that VALU arithmetic, VSFU and VSCALE take (R283, R294, R296). -/
def VTy.isFp (t : VTy) : Bool := t.isFloat || t.isNf

/-- An integer type with N set. -/
def VTy.isUnsigned : VTy → Bool
  | .n32 | .n64 | .n16 | .n8 => true
  | _ => false

/-- An integer type, with or without N. -/
def VTy.isInt : VTy → Bool
  | .i32 | .n32 | .i64 | .n64 | .i16 | .n16 | .i8 | .n8 => true
  | _ => false

/-- An integer type with N clear. -/
def VTy.isSigned (t : VTy) : Bool := t.isInt && !t.isUnsigned

/-- The element width in bits, where the type alone fixes it (R276); none for NF. -/
def VTy.fixedBits : VTy → Option Nat
  | .f32 | .i32 | .n32 => some 32
  | .bf16 | .f16 | .i16 | .n16 => some 16
  | .i64 | .n64 => some 64
  | .i8 | .n8 => some 8
  | .nf _ => none

/-- A predicate field holds 0 to 95 (R115, R116). -/
def PReg.ok (p : PReg) : Bool := p.toNat < 96

/-- A scalar broadcast is no destination and no index (R120, R259). -/
def VOp.notBcast : VOp → Bool
  | .bcast _ => false
  | _ => true

def VOp.isBcast : VOp → Bool
  | .bcast _ => true
  | _ => false

/-- A literal's bits above the element width are zero (R123); an NF literal has 8 bits at decode. -/
def VSrc.ok (t : VTy) : VSrc → Bool
  | .op _ => true
  | .lit v =>
    match t.fixedBits with
    | some 64 => true
    | some w => v.toNat < 2 ^ w
    | none => v.toNat < 256

/-- The token bits an LQ entry may have (R121). -/
def Tok.lqOk (t : Tok) : Bool := !t.sl && !t.pl
/-- The token bits an SQ entry may have (R121). -/
def Tok.sqOk (t : Tok) : Bool := !t.sr && !t.pr

def HReg.named (h : HReg) : Bool := h.toNat != 0

/-- A waybill pair names an even register of at most 62 (R342, R348); so does EVPOP's pair (R353). -/
def XReg.pair (x : XReg) : Bool := x.toNat % 2 == 0

/-- The system registers that R143 lists; every other number is ILLEGAL (R112). -/
def sysRegKnown (n : Nat) : Bool :=
  n < 0x0A || (0x10 ≤ n && n < 0x13) || (0x18 ≤ n && n < 0x24) || (0x30 ≤ n && n < 0x42) ||
  (0x50 ≤ n && n < 0x54) || (0x60 ≤ n && n < 0x63) || n == 0x70 || (0x80 ≤ n && n < 0x88) ||
  (0x100 ≤ n && n < 0x103)

/-- SAT clear and the rounding field zero. -/
def VHdr.plain (h : VHdr) : Bool := !h.sat && h.rm == .rne

/-- VADD, VSUB, VMUL, VFMA, VFMS, VSCALE and the special functions (R283, R294, R296). -/
def VHdr.fp (h : VHdr) : Bool := h.guard.ok && h.ty.isFp
/-- VMIN, VMAX, VABS, VNEG and VCMP (R283). -/
def VHdr.fpPlain (h : VHdr) : Bool := h.guard.ok && h.ty.isFp && h.plain
/-- VSEL and VCPY take every type (R287). -/
def VHdr.any (h : VHdr) : Bool := h.guard.ok && h.plain
/-- VIADD, VISUB and VIMUL: SAT and N legal (R288). -/
def VHdr.intSat (h : VHdr) : Bool := h.guard.ok && h.ty.isInt && h.rm == .rne
/-- VIMULH, VIMIN, VIMAX and VICMP: N legal (R288). -/
def VHdr.intN (h : VHdr) : Bool := h.guard.ok && h.ty.isInt && h.plain
/-- The other VINT fns: N zero (R288). -/
def VHdr.intPlain (h : VHdr) : Bool := h.guard.ok && h.ty.isSigned && h.plain
/-- VRMAX and VRMIN (R295). -/
def VHdr.redMinMax (h : VHdr) : Bool := h.guard.ok && h.plain
/-- VRSUM: SAT on integer types, rounding on float and NF types (R295). -/
def VHdr.redSum (h : VHdr) : Bool :=
  h.guard.ok && (if h.ty.isInt then h.rm == .rne else !h.sat)
/-- VBCAST, VROT and VSLIDE: N zero (R295). -/
def VHdr.move (h : VHdr) : Bool := h.guard.ok && !h.ty.isUnsigned && h.plain
/-- VACCMUL and VACCADD (R297). -/
def VHdr.acc (h : VHdr) : Bool :=
  h.guard.ok && h.plain && (h.ty.isFp || h.ty == .i32 || h.ty == .i16 || h.ty == .i8)
/-- VNORM and VACCZ encode type 0 (R297). -/
def VHdr.accBare (h : VHdr) : Bool := h.guard.ok && h.plain && h.ty == .f32

/-- An accumulator row is a multiple of 4 (R75, R297). -/
def accRow (n : BitVec 8) : Bool := n.toNat % 4 == 0

/-- A row wN with N ≤ 254 (R292, R293). -/
def VOp.pairRow : VOp → Bool
  | .row n => n.toNat ≤ 254
  | _ => false

/-- A VCVT part is below the ratio of the widths where both are fixed (R290). -/
def cvtPartOk (dst src : VTy) (p : Nat) : Bool :=
  match dst.fixedBits, src.fixedBits with
  | some d, some s => p < max d s / min d s
  | _, _ => true

/-- A VMEM destination, handle, guard and tokens for a load (R259). -/
def VMem.load (m : VMem) (v : VOp) : Bool := m.h.named && m.guard.ok && m.tok.lqOk && v.notBcast
/-- The same for a store. -/
def VMem.store (m : VMem) : Bool := m.h.named && m.guard.ok && m.tok.sqOk

/-- VGATHER and VSCATTER: data of 32 or 64 bits, an index no wider than the data (R259). -/
def indexOk (t : VTy) (wide : Bool) : Bool :=
  match t.fixedBits with
  | some 64 => true
  | some 32 => !wide
  | _ => false

/-- WAIT: some enable set, and a condition's own fields zero where it is not enabled (R354). -/
def WaitArgs.ok (w : WaitArgs) : Bool :=
  (w.enM || w.enE || w.enK || w.enT) &&
  (w.enM || (w.xm == 0 && w.xv == 0 && w.scope == .core && !w.wide && w.cmp == .eq)) &&
  (w.enK || (w.thr == 0 && w.ctr == 0)) &&
  (w.enT || w.xt == 0)

/-- TDRAIN's handles, rounding and PACK by mode (R307). -/
def DrainArgs.ok (a : DrainArgs) : Bool :=
  a.hd.named && (a.hr.named == (a.mode == .encl)) &&
  (a.hv.named == (a.mode != .plain)) &&
  (!(a.mode == .radd || a.mode == .rset) || a.rm == .ru) &&
  (!a.pack || a.mode == .plain)

/-- The limits of R108, checks 4 to 7, for an instruction; false for an event. -/
def Instr.wf : Instr → Bool
  | .add .. | .sub .. | .and .. | .or .. | .xor .. | .andn .. | .orn .. | .xnor .. | .sll .. | .srl ..
  | .sra .. | .rol .. | .ror .. | .mul .. | .wmuls .. | .wmulu .. | .wmulm .. | .div .. | .divu ..
  | .rem .. | .remu .. | .min .. | .max .. | .minu .. | .maxu .. | .slt .. | .sltu .. | .seq ..
  | .sne .. | .clz .. | .ctz .. | .popc .. | .brev .. | .bytr .. | .fnsb .. | .bext .. | .bins ..
  | .addw .. | .subw .. | .addi .. | .andi .. | .ori .. | .xori .. | .slli .. | .srli .. | .srai ..
  | .rori .. | .slti .. | .sltiu .. | .ldb .. | .ldbu .. | .ldh .. | .ldhu .. | .ldw .. | .ldwu ..
  | .ldd .. | .stb .. | .sth .. | .stw .. | .std .. | .beqz .. | .bnez .. | .bltz .. | .bgez ..
  | .bgtz .. | .blez .. | .jal .. | .jalr .. | .nop | .halt | .exit | .trap .. | .eret | .brk ..
  | .yield => true
  | .fence o _ => o != .rlx
  | .rfence | .tfence | .timer .. | .pswap | .sstep .. | .latm .. => true
  | .srr _ n | .srw n _ => sysRegKnown n.toNat
  | .hld .. | .hst .. | .hmov .. | .hget .. | .hset .. | .hrec .. | .hadv .. => true
  | .pand d a b | .por d a b | .pxor d a b | .pandn d a b => d.ok && a.ok && b.ok
  | .pnot d a | .pfirstn d a _ => d.ok && a.ok
  | .pcnt _ a | .pfirst _ a => a.ok
  | .loop .. | .wbase .. | .beq .. | .bne .. | .blt .. | .bge .. | .bltu .. | .bgeu .. | .li .. | .lih ..
  | .atadd .. | .atswap .. | .atand .. | .ator .. | .atxor .. | .atmin .. | .atmax .. | .atminu ..
  | .atmaxu .. | .cas .. => true
  | .atfmax m | .atfadd m => !m.wide
  | .wait w => w.ok
  | .waitt .. => true
  | .vadd h d _ b | .vsub h d _ b | .vmul h d _ b => h.fp && d.notBcast && b.ok h.ty
  | .vfma h d .. | .vfms h d .. => h.fp && d.notBcast
  | .vmin h d _ b | .vmax h d _ b => h.fpPlain && d.notBcast && b.ok h.ty
  | .vabs h d _ | .vneg h d _ => h.fpPlain && d.notBcast
  | .vcmp h pd _ _ b => h.fpPlain && pd.ok && b.ok h.ty
  | .vsel h d _ b => h.any && d.notBcast && b.ok h.ty
  | .vcpy h d a => h.any && d.notBcast && a.ok h.ty
  | .viadd h d _ b | .visub h d _ b | .vimul h d _ b => h.intSat && d.notBcast && b.ok h.ty
  | .vimulh h d _ b | .vimin h d _ b | .vimax h d _ b => h.intN && d.notBcast && b.ok h.ty
  | .vand h d _ b | .vor h d _ b | .vxor h d _ b | .vandn h d _ b | .vsll h d _ b | .vsrl h d _ b
  | .vsra h d _ b | .vrol h d _ b | .vfnsb h d _ b => h.intPlain && d.notBcast && b.ok h.ty
  | .vpopc h d _ | .vclz h d _ | .vctz h d _ | .vbrev h d _ => h.intPlain && d.notBcast
  | .vicmp h pd c _ b => h.intN && pd.ok && c.toNat < 6 && b.ok h.ty
  | .vcvt h d _ p s => h.guard.ok && d.notBcast && cvtPartOk h.ty s p.toNat
  | .vqnt h d _ _ => h.guard.ok && h.ty.isNf && d.pairRow
  | .vdqnt h d a _ => h.guard.ok && h.ty.isFloat && d.notBcast && a.pairRow
  | .vpack h d _ _ =>
    h.guard.ok && h.ty.isInt && h.ty != .i64 && h.ty != .n64 && h.rm == .rne && d.notBcast
  | .vunpack h d _ _ =>
    h.guard.ok && h.ty.isInt && h.ty != .i8 && h.ty != .n8 && h.plain && d.notBcast
  | .vscale h d _ b => h.fp && d.notBcast && b.ok h.ty
  | .vrsum h d _ => h.redSum && d.notBcast
  | .vrmax h d _ | .vrmin h d _ => h.redMinMax && d.notBcast
  | .vshuf h d _ _ =>
    h.move && h.ty != .i8 && !h.ty.isNf && d.notBcast
  | .vbcast h d _ _ => h.move && d.notBcast
  | .vrot h d _ b | .vslide h d _ b =>
    h.move && d.notBcast && (match b with | .op o => o.isBcast | .lit _ => true)
  | .vrcp h d _ | .vrsq h d _ | .vsqrt h d _ | .vexp2 h d _ | .vlog2 h d _ | .vtanh h d _ =>
    h.fp && d.notBcast
  | .vaccmul h n _ b => h.acc && accRow n && b.ok h.ty
  | .vaccadd h n a => h.acc && accRow n && a.ok h.ty
  | .vnorm h n => h.accBare && accRow n
  | .vaccrd h d n p =>
    h.guard.ok && (h.ty.isFp || ((h.ty == .i32 || h.ty == .i16 || h.ty == .i8) && h.rm == .rne)) &&
      d.notBcast && accRow n &&
      (match h.ty.fixedBits with | some e => p.toNat < 32 / e | none => p.toNat < 8)
  | .vaccz h n _ => h.accBare && accRow n
  | .vld m v | .vlds m v _ | .vldx m v => m.load v
  | .vst m _ | .vsts m _ _ => m.store
  | .vgather m v i wide => m.load v && i.notBcast && indexOk m.ty wide
  | .vscatter m _ i wide => m.store && i.notBcast && indexOk m.ty wide
  | .vpref m => m.load .latch
  | .tlease _ r => r.toNat < 3
  | .trel .. | .tzero .. | .tmma .. | .tmmaa .. => true
  | .tldt t _ _ _ _ h _ => t.lqOk && h.named
  | .tdrain a => a.ok
  | .tstt t _ h _ => t.sqOk && h.named
  | .abound _ hd ha hb => hd.named && ha.named && hb.named
  | .arelax _ hd ha hb hc _ => hd.named && ha.named && hb.named && hc.named
  | .arelaxBilinear _ hd ha hb => hd.named && ha.named && hb.named
  | .asym _ hd => hd.named
  | .aret _ ha => ha.named
  | .acond _ ha _ => ha.named
  | .aalign _ _ hd ha hb => hd.named && ha.named && hb.named
  | .achk _ hd ha hb hc => hd.named && ha.named && hb.named && hc.named
  | .atbl _ _ f c => f.toNat + c.toNat + 1 ≤ 64
  | .cpy hd hs _ _ => hd.named && hs.named
  | .xtbl _ hs _ => hs.named
  | .xduc hd hs _ _ _ _ => hd.named && hs.named
  | .coll _ hd hs _ _ _ => hd.named && hs.named
  | .send hs _ xw _ => hs.named && xw.pair
  | .recv hd _ xw _ => hd.named && xw.pair
  | .renq _ _ w => w.pair
  | .kati .. | .katc .. => true
  | .evpop d | .evpeek d => d.pair
  | .lrmap _ _ b r m p => b == 0 || r == .save || m == .save || p == .save
  | .lrqry .. | .lflush .. | .lstash .. | .lunstash .. => true
  | .fork .. | .join .. | .rtype .. | .rmark .. => true
  -- events
  | .queueRouteAfterRoom .. | .queueEntryStart .. | .queueEntryComplete .. | .loadDataReturn ..
  | .waitGroupResume .. | .waitSatisfied .. | .waitTimeout .. | .waittEnd .. | .timerAlarm ..
  | .sstepExpiry .. | .yieldWake .. | .haltWake .. | .contextFree .. | .superstepJoin ..
  | .superstepStart .. | .doorbell .. | .launchEntryConsume .. | .clockLockComplete
  | .notifyTimeout .. | .launchQueueRestart .. | .dispatch .. | .taskClassAge ..
  | .dispatcherPreempt .. | .detPower .. | .leaseGrant .. | .leaseExpire .. | .win2WindowSwitch ..
  | .lrmapDrainBegin .. | .lrmapDrainEnd .. | .jobStart .. | .jobComplete .. | .acondJobStart ..
  | .acondJobEnd .. | .remoteWriteArrive .. | .sendReportArrive .. | .collResultArrive ..
  | .inboxEntryArrive .. | .renqResend .. | .inboxDeliver .. | .katPortDone .. | .stashRecall ..
  | .faultRecordWrite .. | .watchdog .. | .taskcmdResume .. | .taskcmdRestartPhase ..
  | .taskcmdKill .. | .taskcmdPreempt .. | .taskcmdRestore .. | .taskcmdCancel ..
  | .txcmdDropPage .. | .txcmdDropAll .. | .txcmdResume .. | .txcmdComplete .. | .taskRootWrite ..
  | .supervisorRootWrite .. | .arbmodeWrite .. | .coreDisable .. | .powerLimitWrite ..
  | .registerWrite .. | .drain .. | .online | .service | .drainDeadline | .migrationEpochEnd ..
  | .spanMoveDone .. | .l2SwitchToDected .. | .l2SwitchToSecded .. | .l2SwitchComplete ..
  | .supplySag .. | .sagRestore .. | .clockStepDown .. | .clockStepUp .. | .coolantWarning
  | .coolantCritical | .linkFailure .. | .flitCrcError .. | .ptpEventMessage .. | .timeLockTimeout
  | .moduleReset .. | .firmwareUpdate .. | .spdmRequest .. | .hdmAccess .. | .healthTableRewrite
  | .illegalInstruction .. | .instructionFetchFault .. | .linkRetraining .. | .timeHoldover
  | .collectivePacketArrive .. | .cxlCacheSnoop .. | .flitAckTimeout .. | .energyAttribution ..
    => false

end Sys2Proof
end

