-- ==== Sys2Proof/Decode.lean ====
section
/-! DEFINITION. The decoder of instruction words (R106 to R125 and the encodings of the owning
chapters), and the encoder that writes the words of a well-formed instruction. `decode` reads fields
into a candidate and accepts it when its operands are within their limits and its encoding is the very
words read, so that every must-be-zero bit is checked (R108, check 4). -/

namespace Sys2Proof

/-- Why words decode to no instruction; each of these is ILLEGAL under R108. -/
inductive Reject where
  /-- word 0 is all zero (R106) -/
  | zeroWord
  /-- length bits 01 (R106) -/
  | lengthReserved
  /-- fewer words follow than the length bits say; only a caller that supplies too few sees it -/
  | truncated
  /-- no instruction has this major, fn and length class (R108, checks 1 to 3) -/
  | noInstruction
  /-- an operand, type, rounding or token field outside its limits (R108, checks 5 to 7) -/
  | badOperand
  /-- a bit that must be zero is set, or a code that names nothing (R108, check 4) -/
  | reservedBits
deriving DecidableEq, Repr

/-! ## Codes of the enumerated fields -/

/-- The rounding field (R56, R118). -/
def Rm.code : Rm → BitVec 2
  | .rne => 0 | .rz => 1 | .rd => 2 | .ru => 3
def Rm.ofCode (c : BitVec 2) : Rm :=
  match c.toNat with | 0 => .rne | 1 => .rz | 2 => .rd | _ => .ru

/-- The type field (R119). -/
def VTy.code : VTy → BitVec 3
  | .f32 => 0 | .bf16 => 1 | .f16 => 2 | .nf _ => 3
  | .i32 | .n32 => 4 | .i64 | .n64 => 5 | .i16 | .n16 => 6 | .i8 | .n8 => 7
/-- The nf index (R116). -/
def VTy.nfIndex : VTy → BitVec 2
  | .nf r => r
  | _ => 0
def VTy.ofCode (c : BitVec 3) (n : Bool) (r : BitVec 2) : VTy :=
  match c.toNat with
  | 0 => .f32 | 1 => .bf16 | 2 => .f16 | 3 => .nf r
  | 4 => if n then .n32 else .i32
  | 5 => if n then .n64 else .i64
  | 6 => if n then .n16 else .i16
  | _ => if n then .n8 else .i8

/-- A vector operand field (R120). -/
def VOp.code : VOp → BitVec 10
  | .row n => 0#2 ++ n
  | .ofile i => 1#2 ++ 0#5 ++ i
  | .latch => 2#2 ++ 0#8
  | .bcast x => 3#2 ++ 0#2 ++ x
def VOp.ofCode (v : BitVec 10) : VOp :=
  match (v.extractLsb' 8 2).toNat with
  | 0 => .row (v.extractLsb' 0 8)
  | 1 => .ofile (v.extractLsb' 0 3)
  | 2 => .latch
  | _ => .bcast (v.extractLsb' 0 6)

/-- The B field of a source: the operand, or zero where a literal takes its place (R123). -/
def VSrc.field : VSrc → BitVec 10
  | .op o => o.code
  | .lit _ => 0
/-- The literal word of the 96-bit form. -/
def VSrc.words : VSrc → List IWord
  | .op _ => []
  | .lit v => [v]
def VSrc.isLit : VSrc → Bool
  | .op _ => false
  | .lit _ => true

/-- FENCE's order field (R113); RLX is not one of its codes. -/
def Order.fenceCode : Order → BitVec 2
  | .sc => 0 | .acq => 1 | .rel => 2 | .ar => 3 | .rlx => 0
def Order.ofFence (c : BitVec 2) : Order :=
  match c.toNat with | 0 => .sc | 1 => .acq | 2 => .rel | _ => .ar
/-- The order field of the atomics (R253). -/
def Order.code : Order → BitVec 3
  | .rlx => 0 | .acq => 1 | .rel => 2 | .ar => 3 | .sc => 4
def Order.ofCode (c : BitVec 3) : Order :=
  match c.toNat with | 0 => .rlx | 1 => .acq | 2 => .rel | 3 => .ar | _ => .sc
/-- The scope field (R239). -/
def Scope.code : Scope → BitVec 3
  | .core => 0 | .quad => 1 | .die => 2 | .module => 3 | .domain => 4 | .system => 5
def Scope.ofCode (c : BitVec 3) : Scope :=
  match c.toNat with | 0 => .core | 1 => .quad | 2 => .die | 3 => .module | 4 => .domain | _ => .system
/-- The sel codes of HGET and HSET (R114). -/
def HField.code : HField → BitVec 3
  | .base => 0 | .record => 1 | .attr => 2 | .cursor => 3 | .bound => 4
def HField.ofCode (c : BitVec 3) : HField :=
  match c.toNat with | 0 => .base | 1 => .record | 2 => .attr | 3 => .cursor | _ => .bound
/-- Room codes (R192). -/
def Room.code : Room → BitVec 3
  | .reg => 0 | .pad => 1 | .cache => 2 | .matrix => 3 | .spill => 4
def Room.ofCode (c : BitVec 3) : Room :=
  match c.toNat with | 0 => .reg | 1 => .pad | 2 => .cache | 3 => .matrix | _ => .spill
/-- A pair of disposition bits, D below S (R202). -/
def Disp.code : Disp → BitVec 2
  | .none => 0 | .dead => 1 | .save => 2
def Disp.ofCode (c : BitVec 2) : Disp :=
  match c.toNat with | 0 => .none | 1 => .dead | _ => .save
/-- WAIT's comparison (R354). -/
def WCmp.code : WCmp → BitVec 3
  | .eq => 0 | .ne => 1 | .lt => 2 | .ge => 3 | .ltu => 4 | .geu => 5
def WCmp.ofCode (c : BitVec 3) : WCmp :=
  match c.toNat with | 0 => .eq | 1 => .ne | 2 => .lt | 3 => .ge | 4 => .ltu | _ => .geu
/-- TDRAIN's mode (R307). -/
def DrainMode.code : DrainMode → BitVec 2
  | .plain => 0 | .encl => 1 | .radd => 2 | .rset => 3
def DrainMode.ofCode (c : BitVec 2) : DrainMode :=
  match c.toNat with | 0 => .plain | 1 => .encl | 2 => .radd | _ => .rset
/-- σ (R323). -/
def Sigma.code : Sigma → BitVec 2
  | .align => 0 | .add => 1 | .sub => 2
def Sigma.ofCode (c : BitVec 2) : Sigma :=
  match c.toNat with | 0 => .align | 1 => .add | _ => .sub
/-- COLL's op (R342). -/
def CollOp.code : CollOp → BitVec 4
  | .sum => 0 | .max => 1 | .min => 2 | .or => 3
def CollOp.ofCode (c : BitVec 4) : CollOp :=
  match c.toNat with | 0 => .sum | 1 => .max | 2 => .min | _ => .or

/-- The token bits 11–8: SR, SL, PR, PL (R116). -/
def Tok.code (t : Tok) : BitVec 4 :=
  BitVec.ofBool t.sr ++ BitVec.ofBool t.sl ++ BitVec.ofBool t.pr ++ BitVec.ofBool t.pl
def Tok.ofCode (c : BitVec 4) : Tok :=
  { sr := c.getLsbD 3, sl := c.getLsbD 2, pr := c.getLsbD 1, pl := c.getLsbD 0 }
/-- No tokens. -/
def Tok.zero : Tok := { sr := false, sl := false, pr := false, pl := false }

/-! ## The layouts of words -/

/-- Formats SA and SX: bits 31–26, 25–20, 19–14 and 13–8 over a 32-bit major (R109). -/
def wSA (f b a d major : BitVec 6) : IWord := f ++ b ++ a ++ d ++ major ++ 0#2
/-- Format SI (R109). -/
def wSI (imm : BitVec 12) (a d major : BitVec 6) : IWord := imm ++ a ++ d ++ major ++ 0#2
/-- Format SB (R109). -/
def wSB (imm : BitVec 15) (a : XReg) (cond : BitVec 3) (major : BitVec 6) : IWord :=
  imm ++ a ++ cond ++ major ++ 0#2
/-- Format SJ (R109). -/
def wSJ (imm : BitVec 18) (d major : BitVec 6) : IWord := imm ++ d ++ major ++ 0#2
/-- Format SH (R114). -/
def wSH (imm : BitVec 6) (sel fn : BitVec 3) (a d : BitVec 6) : IWord :=
  imm ++ sel ++ fn ++ a ++ d ++ 0x1B#6 ++ 0#2
/-- Format SP (R115). -/
def wSP (fn : BitVec 3) (b a d : BitVec 7) : IWord := fn ++ b ++ a ++ d ++ 0x1C#6 ++ 0#2
/-- Word 0 in layout E64S: bits 31–25 and 18–12 are the major's own (R117). -/
def wS (hi : BitVec 7) (fn : BitVec 6) (lo : BitVec 7) (major : BitVec 6) (len : BitVec 2) : IWord :=
  hi ++ fn ++ lo ++ 0#4 ++ major ++ len
/-- Word 0 in layout E64 (R116). -/
def wE (ty : VTy) (sat : Bool) (fn : BitVec 6) (guard : PReg) (t : Tok) (major : BitVec 6)
    (len : BitVec 2) : IWord :=
  BitVec.ofBool ty.isUnsigned ++ BitVec.ofBool sat ++ ty.nfIndex ++ ty.code ++ fn ++ guard ++ t.code
    ++ major ++ len
/-- Word 0 of a fn without type, SAT or guard (R307, R323, R342). -/
def wT (fn : BitVec 6) (t : Tok) (major : BitVec 6) (len : BitVec 2) : IWord :=
  0#7 ++ fn ++ 0#7 ++ t.code ++ major ++ len
/-- Word 1 of the standard vector majors (R122). -/
def wV (rm : Rm) (b a d : BitVec 10) : IWord := rm.code ++ b ++ a ++ d

/-- A standard vector instruction whose source `lit` may be a literal (R122, R123). -/
def encV (h : VHdr) (major fn : BitVec 6) (d a b : BitVec 10) (lit : VSrc) : List IWord :=
  wE h.ty h.sat fn h.guard h.tok major (if lit.isLit then 3#2 else 2#2) :: wV h.rm b a d :: lit.words
/-- A standard vector instruction of 64 bits. -/
def encV2 (h : VHdr) (major fn : BitVec 6) (d a b : BitVec 10) : List IWord :=
  [wE h.ty h.sat fn h.guard h.tok major 2, wV h.rm b a d]
/-- VFMA and VFMS, with C in word 2 of the 96-bit form (R123, R124). -/
def encVC (h : VHdr) (fn : BitVec 6) (d a b : BitVec 10) : Option VOp → List IWord
  | none => encV2 h 0x08 fn d a b
  | some c => [wE h.ty h.sat fn h.guard h.tok 0x08 3, wV h.rm b a d, 0#22 ++ c.code]
/-- Word 1 of VMEM (R259). -/
def wMem (m : VMem) (v : BitVec 10) : IWord :=
  match m.off with
  | .reg x => 0#2 ++ 0#8 ++ x ++ 0#1 ++ m.h ++ v
  | .imm k => 0#2 ++ k ++ 1#1 ++ m.h ++ v
/-- A VMEM instruction. -/
def encM (m : VMem) (fn : BitVec 6) (v : BitVec 10) (w2 : List IWord) : List IWord :=
  wE m.ty false fn m.guard m.tok 0x0D (if w2.isEmpty then 2#2 else 3#2) :: wMem m v :: w2
/-- An atomic (R253). -/
def encA (m : AmoArgs) (fn : BitVec 6) (xc : XReg) : List IWord :=
  [wS (0#1 ++ m.xa) fn (0#1 ++ m.xd) 0x02 2,
   0#7 ++ BitVec.ofBool m.wide ++ 0#1 ++ m.scope.code ++ 0#1 ++ m.order.code ++ 0#2 ++ xc ++ 0#2 ++ m.xb]
/-- A BC compare and branch (R117). -/
def encB (fn : BitVec 6) (a b : XReg) (off : BitVec 32) : List IWord :=
  [wS (0#1 ++ b) fn (0#1 ++ a) 0x01 2, off]
/-- Word 1 of the job fns (R342). -/
def wJob (op : BitVec 4) (xt xb xa : XReg) (hb ha : HReg) : IWord := op ++ xt ++ xb ++ xa ++ hb ++ ha
/-- Word 1 of ENC (R323): f or σ, xs, hc, hb, ha, hd. -/
def wEnc (bl : BitVec 1) (f : BitVec 4) (xs : XReg) (hc hb ha hd : HReg) : IWord :=
  0#1 ++ bl ++ f ++ xs ++ hc ++ hb ++ ha ++ hd
/-- Word 0 of LODGE and REV (R202, R269). -/
def wX (fn : BitVec 6) (a d : XReg) (major : BitVec 6) (len : BitVec 2) : IWord :=
  wS (0#1 ++ a) fn (0#1 ++ d) major len
def encWait (w : WaitArgs) : List IWord :=
  [wS (BitVec.ofBool w.all ++ w.xv) 0 (0#1 ++ w.xm) 0x04 3,
   0#3 ++ w.xd ++ w.xt ++ w.thr ++ w.ctr ++ w.scope.code ++ BitVec.ofBool w.wide ++ w.cmp.code ++
     BitVec.ofBool w.enT ++ BitVec.ofBool w.enK ++ BitVec.ofBool w.enE ++ BitVec.ofBool w.enM,
   w.timeout]
def encDrain (a : DrainArgs) : List IWord :=
  [0#1 ++ BitVec.ofBool a.sat ++ 0#5 ++ 6#6 ++ 0#7 ++ a.tok.code ++ 0x10#6 ++ 3#2,
   a.rm.code ++ 0#10 ++ BitVec.ofBool a.pack ++ a.mode.code ++ BitVec.ofBool a.plane ++ a.xo ++ a.hr ++ a.hd,
   0#11 ++ a.hv ++ 0#1 ++ a.nj ++ 0#1 ++ a.mi]

/-! ## The encoder -/

/-- The words of an instruction; events have none. -/
def encode : Instr → List IWord
  | .add d a b => [wSA 0 b a d 0x01]
  | .sub d a b => [wSA 1 b a d 0x01]
  | .and d a b => [wSA 2 b a d 0x01]
  | .or d a b => [wSA 3 b a d 0x01]
  | .xor d a b => [wSA 4 b a d 0x01]
  | .andn d a b => [wSA 5 b a d 0x01]
  | .orn d a b => [wSA 6 b a d 0x01]
  | .xnor d a b => [wSA 7 b a d 0x01]
  | .sll d a b => [wSA 8 b a d 0x01]
  | .srl d a b => [wSA 9 b a d 0x01]
  | .sra d a b => [wSA 10 b a d 0x01]
  | .rol d a b => [wSA 11 b a d 0x01]
  | .ror d a b => [wSA 12 b a d 0x01]
  | .mul d a b => [wSA 13 b a d 0x01]
  | .wmuls d a b => [wSA 14 b a d 0x01]
  | .wmulu d a b => [wSA 15 b a d 0x01]
  | .wmulm d a b => [wSA 16 b a d 0x01]
  | .div d a b => [wSA 17 b a d 0x01]
  | .divu d a b => [wSA 18 b a d 0x01]
  | .rem d a b => [wSA 19 b a d 0x01]
  | .remu d a b => [wSA 20 b a d 0x01]
  | .min d a b => [wSA 21 b a d 0x01]
  | .max d a b => [wSA 22 b a d 0x01]
  | .minu d a b => [wSA 23 b a d 0x01]
  | .maxu d a b => [wSA 24 b a d 0x01]
  | .slt d a b => [wSA 25 b a d 0x01]
  | .sltu d a b => [wSA 26 b a d 0x01]
  | .seq d a b => [wSA 27 b a d 0x01]
  | .sne d a b => [wSA 28 b a d 0x01]
  | .clz d a => [wSA 29 0 a d 0x01]
  | .ctz d a => [wSA 30 0 a d 0x01]
  | .popc d a => [wSA 31 0 a d 0x01]
  | .brev d a => [wSA 32 0 a d 0x01]
  | .bytr d a => [wSA 33 0 a d 0x01]
  | .fnsb d a b => [wSA 34 b a d 0x01]
  | .bext d a b => [wSA 35 b a d 0x01]
  | .bins d a b => [wSA 36 b a d 0x01]
  | .addw d a b => [wSA 37 b a d 0x01]
  | .subw d a b => [wSA 38 b a d 0x01]
  | .addi d a i => [wSI i a d 2]
  | .andi d a i => [wSI i a d 3]
  | .ori d a i => [wSI i a d 4]
  | .xori d a i => [wSI i a d 5]
  | .slli d a n => [wSI (0#2 ++ 0#4 ++ n) a d 0x06]
  | .srli d a n => [wSI (1#2 ++ 0#4 ++ n) a d 0x06]
  | .srai d a n => [wSI (2#2 ++ 0#4 ++ n) a d 0x06]
  | .rori d a n => [wSI (3#2 ++ 0#4 ++ n) a d 0x06]
  | .slti d a i => [wSI i a d 7]
  | .sltiu d a i => [wSI i a d 8]
  | .ldb d a i => [wSI i a d 10]
  | .ldbu d a i => [wSI i a d 11]
  | .ldh d a i => [wSI i a d 12]
  | .ldhu d a i => [wSI i a d 13]
  | .ldw d a i => [wSI i a d 14]
  | .ldwu d a i => [wSI i a d 15]
  | .ldd d a i => [wSI i a d 16]
  | .stb r a i => [wSI i a r 17]
  | .sth r a i => [wSI i a r 18]
  | .stw r a i => [wSI i a r 19]
  | .std r a i => [wSI i a r 20]
  | .beqz a o => [wSB o a 0 0x15]
  | .bnez a o => [wSB o a 1 0x15]
  | .bltz a o => [wSB o a 2 0x15]
  | .bgez a o => [wSB o a 3 0x15]
  | .bgtz a o => [wSB o a 4 0x15]
  | .blez a o => [wSB o a 5 0x15]
  | .jal d o => [wSJ o d 0x16]
  | .jalr d a i => [wSI i a d 0x17]
  | .nop => [wSA 0 0 0 0 0x18]
  | .halt => [wSA 0 1 0 0 0x18]
  | .exit => [wSA 0 2 0 0 0x18]
  | .trap n => [wSA n 3 0 0 0x18]
  | .eret => [wSA 0 4 0 0 0x18]
  | .brk n => [wSA n 5 0 0 0x18]
  | .yield => [wSA 0 6 0 0 0x18]
  | .fence o s => [wSA (0#1 ++ o.fenceCode ++ s.code) 7 0 0 0x18]
  | .rfence => [wSA 0 8 0 0 0x18]
  | .tfence => [wSA 0 9 0 0 0x18]
  | .timer d a => [wSA 0 10 a d 0x18]
  | .pswap => [wSA 0 11 0 0 0x18]
  | .sstep a => [wSA 0 12 a 0 0x18]
  | .latm m => [wSA (0#5 ++ BitVec.ofBool m) 13 0 0 0x18]
  | .srr d n => [wSI n 0 d 0x19]
  | .srw n a => [wSI n a 0 0x1A]
  | .hld d a o => [wSH o 0 0 a (0#1 ++ d)]
  | .hst d a o => [wSH o 0 1 a (0#1 ++ d)]
  | .hmov d a => [wSH 0 0 2 (0#1 ++ a) (0#1 ++ d)]
  | .hget d a f => [wSH 0 f.code 3 (0#1 ++ a) d]
  | .hset d f a => [wSH 0 f.code 4 a (0#1 ++ d)]
  | .hrec d a => [wSH 0 0 5 a (0#1 ++ d)]
  | .hadv d a => [wSH 0 0 6 a (0#1 ++ d)]
  | .pand d a b => [wSP 0 b a d]
  | .por d a b => [wSP 1 b a d]
  | .pxor d a b => [wSP 2 b a d]
  | .pandn d a b => [wSP 3 b a d]
  | .pnot d a => [wSP 4 0 a d]
  | .pfirstn d a b => [wSP 5 (0#1 ++ b) a d]
  | .pcnt d a => [wSP 6 0 a (0#1 ++ d)]
  | .pfirst d a => [wSP 7 0 a (0#1 ++ d)]
  | .loop k o => [wSB o 0 k 0x1D]
  | .wbase a i => [wSI i a 0 0x1E]
  | .beq a b o => encB 0 a b o
  | .bne a b o => encB 1 a b o
  | .blt a b o => encB 2 a b o
  | .bge a b o => encB 3 a b o
  | .bltu a b o => encB 4 a b o
  | .bgeu a b o => encB 5 a b o
  | .li d i => [wS 0 0 (0#1 ++ d) 0x03 3, 0, i]
  | .lih d i => [wS 0 0 (0#1 ++ d) 0x05 3, 0, i]
  | .atadd m => encA m 0 0
  | .atswap m => encA m 1 0
  | .atand m => encA m 2 0
  | .ator m => encA m 3 0
  | .atxor m => encA m 4 0
  | .atmin m => encA m 5 0
  | .atmax m => encA m 6 0
  | .atminu m => encA m 7 0
  | .atmaxu m => encA m 8 0
  | .cas m c => encA m 9 c
  | .atfmax m => encA m 10 0
  | .atfadd m => encA m 11 0
  | .wait w => encWait w
  | .waitt a t => [wS (0#1 ++ a) 1 0 0x04 3, 0, t]
  | .vadd h d a b => encV h 0x08 0 d.code a.code b.field b
  | .vsub h d a b => encV h 0x08 1 d.code a.code b.field b
  | .vmul h d a b => encV h 0x08 2 d.code a.code b.field b
  | .vfma h d a b c => encVC h 3 d.code a.code b.code c
  | .vfms h d a b c => encVC h 4 d.code a.code b.code c
  | .vmin h d a b => encV h 0x08 5 d.code a.code b.field b
  | .vmax h d a b => encV h 0x08 6 d.code a.code b.field b
  | .vabs h d a => encV2 h 0x08 7 d.code a.code 0
  | .vneg h d a => encV2 h 0x08 8 d.code a.code 0
  | .vcmp h pd c a b => encV h 0x08 9 (c ++ pd) a.code b.field b
  | .vsel h d a b => encV h 0x08 10 d.code a.code b.field b
  | .vcpy h d a => encV h 0x08 11 d.code a.field 0 a
  | .viadd h d a b => encV h 0x09 0 d.code a.code b.field b
  | .visub h d a b => encV h 0x09 1 d.code a.code b.field b
  | .vimul h d a b => encV h 0x09 2 d.code a.code b.field b
  | .vimulh h d a b => encV h 0x09 3 d.code a.code b.field b
  | .vimin h d a b => encV h 0x09 4 d.code a.code b.field b
  | .vimax h d a b => encV h 0x09 5 d.code a.code b.field b
  | .vand h d a b => encV h 0x09 6 d.code a.code b.field b
  | .vor h d a b => encV h 0x09 7 d.code a.code b.field b
  | .vxor h d a b => encV h 0x09 8 d.code a.code b.field b
  | .vandn h d a b => encV h 0x09 9 d.code a.code b.field b
  | .vsll h d a b => encV h 0x09 10 d.code a.code b.field b
  | .vsrl h d a b => encV h 0x09 11 d.code a.code b.field b
  | .vsra h d a b => encV h 0x09 12 d.code a.code b.field b
  | .vrol h d a b => encV h 0x09 13 d.code a.code b.field b
  | .vpopc h d a => encV2 h 0x09 14 d.code a.code 0
  | .vclz h d a => encV2 h 0x09 15 d.code a.code 0
  | .vctz h d a => encV2 h 0x09 16 d.code a.code 0
  | .vfnsb h d a b => encV h 0x09 17 d.code a.code b.field b
  | .vbrev h d a => encV2 h 0x09 18 d.code a.code 0
  | .vicmp h pd c a b => encV h 0x09 19 (c ++ pd) a.code b.field b
  | .vcvt h d a q s =>
    encV2 h 0x0A 0 d.code a.code (q ++ s.nfIndex ++ BitVec.ofBool s.isUnsigned ++ s.code)
  | .vqnt h d a x => encV2 h 0x0A 1 d.code a.code (VOp.bcast x).code
  | .vdqnt h d a x => encV2 h 0x0A 2 d.code a.code (VOp.bcast x).code
  | .vpack h d a b => encV2 h 0x0A 3 d.code a.code b.code
  | .vunpack h d a q => encV2 h 0x0A 4 d.code a.code (0#9 ++ BitVec.ofBool q)
  | .vscale h d a b => encV h 0x0A 5 d.code a.code b.field b
  | .vrsum h d a => encV2 h 0x0B 0 d.code a.code 0
  | .vrmax h d a => encV2 h 0x0B 1 d.code a.code 0
  | .vrmin h d a => encV2 h 0x0B 2 d.code a.code 0
  | .vshuf h d a b => encV2 h 0x0B 3 d.code a.code b.code
  | .vbcast h d a x => encV2 h 0x0B 4 d.code a.code (VOp.bcast x).code
  | .vrot h d a b => encV h 0x0B 5 d.code a.code b.field b
  | .vslide h d a b => encV h 0x0B 6 d.code a.code b.field b
  | .vrcp h d a => encV2 h 0x0C 0 d.code a.code 0
  | .vrsq h d a => encV2 h 0x0C 1 d.code a.code 0
  | .vsqrt h d a => encV2 h 0x0C 2 d.code a.code 0
  | .vexp2 h d a => encV2 h 0x0C 3 d.code a.code 0
  | .vlog2 h d a => encV2 h 0x0C 4 d.code a.code 0
  | .vtanh h d a => encV2 h 0x0C 5 d.code a.code 0
  | .vaccmul h n a b => encV h 0x0E 0 (VOp.row n).code a.code b.field b
  | .vaccadd h n a => encV h 0x0E 1 (VOp.row n).code a.field 0 a
  | .vnorm h n => encV2 h 0x0E 2 (VOp.row n).code 0 0
  | .vaccrd h d n q => encV2 h 0x0E 3 d.code (VOp.row n).code (0#6 ++ q)
  | .vaccz h n x => encV2 h 0x0E 4 (VOp.row n).code (VOp.bcast x).code 0
  | .vld m v => encM m 0 v.code []
  | .vst m v => encM m 1 v.code []
  | .vlds m v x => encM m 2 v.code [0#26 ++ x]
  | .vsts m v x => encM m 3 v.code [0#26 ++ x]
  | .vgather m v i w => encM m 4 v.code [0#21 ++ BitVec.ofBool w ++ i.code]
  | .vscatter m v i w => encM m 5 v.code [0#21 ++ BitVec.ofBool w ++ i.code]
  | .vldx m v => encM m 6 v.code []
  | .vpref m => encM m 7 0 []
  | .tlease t r => [wT 0 t 0x10 2, 0#30 ++ r]
  | .trel t u => [wT 1 t 0x10 2, 0#31 ++ BitVec.ofBool u]
  | .tldt t nf sat rm k h x =>
    [0#1 ++ BitVec.ofBool sat ++ nf ++ 0#3 ++ 2#6 ++ 0#7 ++ t.code ++ 0x10#6 ++ 2#2,
     rm.code ++ 0#15 ++ x ++ h ++ k]
  | .tzero t q e => [wT 3 t 0x10 2, e ++ 0#15 ++ BitVec.ofBool q]
  | .tmma t q ta tb e =>
    [wT 4 t 0x10 2, 0#19 ++ BitVec.ofBool e ++ tb ++ ta ++ 0#3 ++ BitVec.ofBool q]
  | .tmmaa t q ta tb => [wT 5 t 0x10 2, 0#19 ++ 1#1 ++ tb ++ ta ++ 0#3 ++ BitVec.ofBool q]
  | .tdrain a => encDrain a
  | .tstt t k h x => [wT 7 t 0x10 2, 0#17 ++ x ++ h ++ k]
  | .abound t hd ha hb => [wT 0 t 0x11 2, wEnc 0 0 0 0 hb ha hd]
  | .arelax t hd ha hb hc f => [wT 1 t 0x11 2, wEnc 0 f 0 hc hb ha hd]
  | .arelaxBilinear t hd ha hb => [wT 1 t 0x11 2, wEnc 1 0 0 0 hb ha hd]
  | .asym t hd => [wT 2 t 0x11 2, wEnc 0 0 0 0 0 0 hd]
  | .aret t ha => [wT 3 t 0x11 2, wEnc 0 0 0 0 0 ha 0]
  | .acond t ha xs => [wT 4 t 0x11 2, wEnc 0 0 xs 0 0 ha 0]
  | .aalign t g hd ha hb => [wT 5 t 0x11 2, wEnc 0 (0#2 ++ g.code) 0 0 hb ha hd]
  | .achk t hd ha hb hc => [wT 6 t 0x11 2, wEnc 0 0 0 hc hb ha hd]
  | .atbl t xs f c => [wT 7 t 0x11 3, wEnc 0 0 xs 0 0 0 0, 0#18 ++ c ++ 0#2 ++ f]
  | .cpy hd hs xn xt => [wT 0 Tok.zero 0x12 2, wJob 0 xt 0 xn hs hd]
  | .xtbl s hs xt => [wT 1 Tok.zero 0x12 2, wJob (0#1 ++ s) xt 0 0 hs 0]
  | .xduc hd hs xn xs s xt => [wT 2 Tok.zero 0x12 2, wJob (0#1 ++ s) xt xs xn hs hd]
  | .coll o hd hs xn xg xt => [wT 3 Tok.zero 0x12 2, wJob o.code xt xg xn hs hd]
  | .send hs xr xw xt => [wT 4 Tok.zero 0x12 2, wJob 0 xt xw xr hs 0]
  | .recv hd xr xw xt => [wT 5 Tok.zero 0x12 2, wJob 0 xt xw xr 0 hd]
  | .renq d a w => [wT 6 Tok.zero 0x12 2, 0#14 ++ w ++ a ++ d]
  | .kati t v i => [wT 7 t 0x12 2, 0#23 ++ BitVec.ofBool v ++ i]
  | .katc t v i c => [wT 8 t 0x12 3, 0#23 ++ BitVec.ofBool v ++ i, c]
  | .evpop d => [wX 0 0 d 0x13 2, 0]
  | .evpeek d => [wX 1 0 d 0x13 2, 0]
  | .lrmap d a b r m q => [wX 0 a d 0x14 2, 0#18 ++ q.code ++ m.code ++ r.code ++ 0#2 ++ b]
  | .lrqry d r => [wX 1 0 d 0x14 2, 0#29 ++ r.code]
  | .lflush a b v => [wX 2 a 0 0x14 2, 0#23 ++ BitVec.ofBool v ++ 0#2 ++ b]
  | .lstash d a b => [wX 3 a d 0x14 2, 0#26 ++ b]
  | .lunstash d a => [wX 4 a d 0x14 2, 0]
  | .fork d o => [wX 0 0 d 0x15 3, 0, o]
  | .join d a => [wX 1 a d 0x15 2, 0]
  | .rtype d a => [wX 2 a d 0x15 2, 0]
  | .rmark d a b => [wX 3 a d 0x15 2, 0#26 ++ b]
  | .queueRouteAfterRoom .. | .queueEntryStart .. | .queueEntryComplete .. | .loadDataReturn ..
  | .waitGroupResume .. | .waitSatisfied .. | .waitTimeout .. | .waittEnd .. | .timerAlarm ..
  | .sstepExpiry .. | .yieldWake .. | .haltWake .. | .contextFree .. | .superstepJoin ..
  | .superstepStart .. | .doorbell .. | .launchEntryConsume .. | .clockLockComplete
  | .notifyTimeout .. | .launchQueueRestart .. | .dispatch .. | .taskClassAge ..
  | .dispatcherPreempt .. | .detPower .. | .leaseGrant .. | .leaseExpire .. | .win2WindowSwitch ..
  | .lrmapDrainBegin .. | .lrmapDrainEnd .. | .jobStart .. | .jobComplete .. | .acondJobStart ..
  | .acondJobEnd .. | .remoteWriteArrive .. | .sendReportArrive .. | .collResultArrive ..
  | .inboxEntryArrive .. | .renqResend .. | .inboxDeliver .. | .katPortDone .. | .stashRecall ..
  | .faultRecordWrite .. | .watchdog .. | .taskcmdResume .. | .taskcmdRestartPhase ..
  | .taskcmdKill .. | .taskcmdPreempt .. | .taskcmdRestore .. | .taskcmdCancel ..
  | .txcmdDropPage .. | .txcmdDropAll .. | .txcmdResume .. | .txcmdComplete .. | .taskRootWrite ..
  | .supervisorRootWrite .. | .arbmodeWrite .. | .coreDisable .. | .powerLimitWrite ..
  | .registerWrite .. | .drain .. | .online | .service | .drainDeadline | .migrationEpochEnd ..
  | .spanMoveDone .. | .l2SwitchToDected .. | .l2SwitchToSecded .. | .l2SwitchComplete ..
  | .supplySag .. | .sagRestore .. | .clockStepDown .. | .clockStepUp .. | .coolantWarning
  | .coolantCritical | .linkFailure .. | .flitCrcError .. | .ptpEventMessage .. | .timeLockTimeout
  | .moduleReset .. | .firmwareUpdate .. | .spdmRequest .. | .hdmAccess .. | .healthTableRewrite
  | .illegalInstruction .. | .instructionFetchFault .. | .linkRetraining .. | .timeHoldover
  | .collectivePacketArrive .. | .cxlCacheSnoop .. | .flitAckTimeout .. | .energyAttribution ..
    => []

/-! ## The decoder: candidates read from fields -/

/-- The field of `n` bits from bit `lo`. -/
def fld (w : IWord) (lo n : Nat) : BitVec n := w.extractLsb' lo n

/-- The SA list of R112. -/
def saInstr (fn : Nat) (d a b : XReg) : Option Instr :=
  match fn with
  | 0 => some (.add d a b)
  | 1 => some (.sub d a b)
  | 2 => some (.and d a b)
  | 3 => some (.or d a b)
  | 4 => some (.xor d a b)
  | 5 => some (.andn d a b)
  | 6 => some (.orn d a b)
  | 7 => some (.xnor d a b)
  | 8 => some (.sll d a b)
  | 9 => some (.srl d a b)
  | 10 => some (.sra d a b)
  | 11 => some (.rol d a b)
  | 12 => some (.ror d a b)
  | 13 => some (.mul d a b)
  | 14 => some (.wmuls d a b)
  | 15 => some (.wmulu d a b)
  | 16 => some (.wmulm d a b)
  | 17 => some (.div d a b)
  | 18 => some (.divu d a b)
  | 19 => some (.rem d a b)
  | 20 => some (.remu d a b)
  | 21 => some (.min d a b)
  | 22 => some (.max d a b)
  | 23 => some (.minu d a b)
  | 24 => some (.maxu d a b)
  | 25 => some (.slt d a b)
  | 26 => some (.sltu d a b)
  | 27 => some (.seq d a b)
  | 28 => some (.sne d a b)
  | 29 => some (.clz d a)
  | 30 => some (.ctz d a)
  | 31 => some (.popc d a)
  | 32 => some (.brev d a)
  | 33 => some (.bytr d a)
  | 34 => some (.fnsb d a b)
  | 35 => some (.bext d a b)
  | 36 => some (.bins d a b)
  | 37 => some (.addw d a b)
  | 38 => some (.subw d a b)
  | _ => none

/-- The sub-ops of SX (R113), from xd, xa and imm6. -/
def sxInstr (op : Nat) (d a : XReg) (n : BitVec 6) : Option Instr :=
  match op with
  | 0 => some .nop
  | 1 => some .halt
  | 2 => some .exit
  | 3 => some (.trap n)
  | 4 => some .eret
  | 5 => some (.brk n)
  | 6 => some .yield
  | 7 => some (.fence (Order.ofFence (n.extractLsb' 3 2)) (Scope.ofCode (n.extractLsb' 0 3)))
  | 8 => some .rfence
  | 9 => some .tfence
  | 10 => some (.timer d a)
  | 11 => some .pswap
  | 12 => some (.sstep a)
  | 13 => some (.latm (n.getLsbD 0))
  | _ => none

/-- The handle forms (R114), from d, a, sel and imm6. -/
def shInstr (fn : Nat) (d a : BitVec 6) (s : BitVec 3) (o : BitVec 6) : Option Instr :=
  let hd : HReg := d.extractLsb' 0 5
  let ha : HReg := a.extractLsb' 0 5
  match fn with
  | 0 => some (.hld hd a o)
  | 1 => some (.hst hd a o)
  | 2 => some (.hmov hd ha)
  | 3 => some (.hget d ha (HField.ofCode s))
  | 4 => some (.hset hd (HField.ofCode s) a)
  | 5 => some (.hrec hd a)
  | 6 => some (.hadv hd a)
  | _ => none

/-- The predicate forms (R115), from pd, pa and pb. -/
def spInstr (fn : Nat) (d a b : PReg) : Option Instr :=
  match fn with
  | 0 => some (.pand d a b)
  | 1 => some (.por d a b)
  | 2 => some (.pxor d a b)
  | 3 => some (.pandn d a b)
  | 4 => some (.pnot d a)
  | 5 => some (.pfirstn d a (b.extractLsb' 0 6))
  | 6 => some (.pcnt (d.extractLsb' 0 6) a)
  | 7 => some (.pfirst (d.extractLsb' 0 6) a)
  | _ => none

/-- The branches on zero, by cond (R112). -/
def bzInstr (cond : Nat) (a : XReg) (o : BitVec 15) : Option Instr :=
  match cond with
  | 0 => some (.beqz a o)
  | 1 => some (.bnez a o)
  | 2 => some (.bltz a o)
  | 3 => some (.bgez a o)
  | 4 => some (.bgtz a o)
  | 5 => some (.blez a o)
  | _ => none

/-- The shifts by an immediate, by bits 11–10 of imm12 (R110). -/
def shiInstr (sel : Nat) (d a : XReg) (n : BitVec 6) : Instr :=
  match sel with
  | 0 => .slli d a n
  | 1 => .srli d a n
  | 2 => .srai d a n
  | _ => .rori d a n

/-- The majors of format SI with a signed immediate, by major (R112). -/
def siInstr (major : Nat) (d a : XReg) (i : BitVec 12) : Option Instr :=
  match major with
  | 2 => some (.addi d a i)
  | 3 => some (.andi d a i)
  | 4 => some (.ori d a i)
  | 5 => some (.xori d a i)
  | 6 => some (shiInstr (i.extractLsb' 10 2).toNat d a (i.extractLsb' 0 6))
  | 7 => some (.slti d a i)
  | 8 => some (.sltiu d a i)
  | 10 => some (.ldb d a i)
  | 11 => some (.ldbu d a i)
  | 12 => some (.ldh d a i)
  | 13 => some (.ldhu d a i)
  | 14 => some (.ldw d a i)
  | 15 => some (.ldwu d a i)
  | 16 => some (.ldd d a i)
  | 17 => some (.stb d a i)
  | 18 => some (.sth d a i)
  | 19 => some (.stw d a i)
  | 20 => some (.std d a i)
  | 0x17 => some (.jalr d a i)
  | 0x19 => some (.srr d i)
  | 0x1A => some (.srw i a)
  | 0x1E => some (.wbase a i)
  | _ => none

/-- The candidate of a 32-bit word (R109, R112). -/
def cand32 (w : IWord) : Option Instr :=
  match (fld w 2 6).toNat with
  | 0x01 => saInstr (fld w 26 6).toNat (fld w 8 6) (fld w 14 6) (fld w 20 6)
  | 0x15 => bzInstr (fld w 8 3).toNat (fld w 11 6) (fld w 17 15)
  | 0x16 => some (.jal (fld w 8 6) (fld w 14 18))
  | 0x18 => sxInstr (fld w 20 6).toNat (fld w 8 6) (fld w 14 6) (fld w 26 6)
  | 0x1B =>
    shInstr (fld w 20 3).toNat (fld w 8 6) (fld w 14 6) (fld w 23 3) (fld w 26 6)
  | 0x1C => spInstr (fld w 29 3).toNat (fld w 8 7) (fld w 15 7) (fld w 22 7)
  | 0x1D => some (.loop (fld w 8 3) (fld w 17 15))
  | m => siInstr m (fld w 8 6) (fld w 14 6) (fld w 20 12)

/-- The fields of a standard vector instruction, each in every reading that some fn gives it. -/
structure VParts where
  h : VHdr
  d : BitVec 10
  a : BitVec 10
  b : BitVec 10
  w2 : Option IWord

def VParts.dOp (v : VParts) : VOp := VOp.ofCode v.d
def VParts.aOp (v : VParts) : VOp := VOp.ofCode v.a
def VParts.bOp (v : VParts) : VOp := VOp.ofCode v.b
/-- B, or the literal of the 96-bit form. -/
def VParts.bSrc (v : VParts) : VSrc := match v.w2 with | none => .op v.bOp | some l => .lit l
/-- A, or the literal of the 96-bit form (VCPY, VACCADD). -/
def VParts.aSrc (v : VParts) : VSrc := match v.w2 with | none => .op v.aOp | some l => .lit l
/-- C of the 96-bit form (R124). -/
def VParts.cOp (v : VParts) : Option VOp := v.w2.map (fun l => VOp.ofCode (fld l 0 10))
def VParts.dRow (v : VParts) : BitVec 8 := v.d.extractLsb' 0 8
def VParts.aRow (v : VParts) : BitVec 8 := v.a.extractLsb' 0 8
def VParts.bX (v : VParts) : XReg := v.b.extractLsb' 0 6
def VParts.pd (v : VParts) : PReg := v.d.extractLsb' 0 7
def VParts.cond (v : VParts) : BitVec 3 := v.d.extractLsb' 7 3

def tokOf (w0 : IWord) : Tok := Tok.ofCode (fld w0 8 4)
def tyOf (w0 : IWord) : VTy := VTy.ofCode (fld w0 25 3) (w0.getLsbD 31) (fld w0 28 2)

def vparts (w0 w1 : IWord) (w2 : Option IWord) : VParts :=
  { h := { ty := tyOf w0, sat := w0.getLsbD 30, rm := Rm.ofCode (fld w1 30 2), guard := fld w0 12 7,
           tok := tokOf w0 },
    d := fld w1 0 10, a := fld w1 10 10, b := fld w1 20 10, w2 := w2 }

/-- VALU (R125). -/
def valuInstr (fn : Nat) (v : VParts) : Option Instr :=
  match fn with
  | 0 => some (.vadd v.h v.dOp v.aOp v.bSrc)
  | 1 => some (.vsub v.h v.dOp v.aOp v.bSrc)
  | 2 => some (.vmul v.h v.dOp v.aOp v.bSrc)
  | 3 => some (.vfma v.h v.dOp v.aOp v.bOp v.cOp)
  | 4 => some (.vfms v.h v.dOp v.aOp v.bOp v.cOp)
  | 5 => some (.vmin v.h v.dOp v.aOp v.bSrc)
  | 6 => some (.vmax v.h v.dOp v.aOp v.bSrc)
  | 7 => some (.vabs v.h v.dOp v.aOp)
  | 8 => some (.vneg v.h v.dOp v.aOp)
  | 9 => some (.vcmp v.h v.pd v.cond v.aOp v.bSrc)
  | 10 => some (.vsel v.h v.dOp v.aOp v.bSrc)
  | 11 => some (.vcpy v.h v.dOp v.aSrc)
  | _ => none

/-- VINT (R125). -/
def vintInstr (fn : Nat) (v : VParts) : Option Instr :=
  match fn with
  | 0 => some (.viadd v.h v.dOp v.aOp v.bSrc)
  | 1 => some (.visub v.h v.dOp v.aOp v.bSrc)
  | 2 => some (.vimul v.h v.dOp v.aOp v.bSrc)
  | 3 => some (.vimulh v.h v.dOp v.aOp v.bSrc)
  | 4 => some (.vimin v.h v.dOp v.aOp v.bSrc)
  | 5 => some (.vimax v.h v.dOp v.aOp v.bSrc)
  | 6 => some (.vand v.h v.dOp v.aOp v.bSrc)
  | 7 => some (.vor v.h v.dOp v.aOp v.bSrc)
  | 8 => some (.vxor v.h v.dOp v.aOp v.bSrc)
  | 9 => some (.vandn v.h v.dOp v.aOp v.bSrc)
  | 10 => some (.vsll v.h v.dOp v.aOp v.bSrc)
  | 11 => some (.vsrl v.h v.dOp v.aOp v.bSrc)
  | 12 => some (.vsra v.h v.dOp v.aOp v.bSrc)
  | 13 => some (.vrol v.h v.dOp v.aOp v.bSrc)
  | 14 => some (.vpopc v.h v.dOp v.aOp)
  | 15 => some (.vclz v.h v.dOp v.aOp)
  | 16 => some (.vctz v.h v.dOp v.aOp)
  | 17 => some (.vfnsb v.h v.dOp v.aOp v.bSrc)
  | 18 => some (.vbrev v.h v.dOp v.aOp)
  | 19 => some (.vicmp v.h v.pd v.cond v.aOp v.bSrc)
  | _ => none

/-- VCVT (R290). -/
def vcvtInstr (fn : Nat) (v : VParts) : Option Instr :=
  match fn with
  | 0 => some (.vcvt v.h v.dOp v.aOp (v.b.extractLsb' 6 4)
    (VTy.ofCode (v.b.extractLsb' 0 3) (v.b.getLsbD 3) (v.b.extractLsb' 4 2)))
  | 1 => some (.vqnt v.h v.dOp v.aOp v.bX)
  | 2 => some (.vdqnt v.h v.dOp v.aOp v.bX)
  | 3 => some (.vpack v.h v.dOp v.aOp v.bOp)
  | 4 => some (.vunpack v.h v.dOp v.aOp (v.b.getLsbD 0))
  | 5 => some (.vscale v.h v.dOp v.aOp v.bSrc)
  | _ => none

/-- VRED (R295). -/
def vredInstr (fn : Nat) (v : VParts) : Option Instr :=
  match fn with
  | 0 => some (.vrsum v.h v.dOp v.aOp)
  | 1 => some (.vrmax v.h v.dOp v.aOp)
  | 2 => some (.vrmin v.h v.dOp v.aOp)
  | 3 => some (.vshuf v.h v.dOp v.aOp v.bOp)
  | 4 => some (.vbcast v.h v.dOp v.aOp v.bX)
  | 5 => some (.vrot v.h v.dOp v.aOp v.bSrc)
  | 6 => some (.vslide v.h v.dOp v.aOp v.bSrc)
  | _ => none

/-- VSFU (R296). -/
def vsfuInstr (fn : Nat) (v : VParts) : Option Instr :=
  match fn with
  | 0 => some (.vrcp v.h v.dOp v.aOp)
  | 1 => some (.vrsq v.h v.dOp v.aOp)
  | 2 => some (.vsqrt v.h v.dOp v.aOp)
  | 3 => some (.vexp2 v.h v.dOp v.aOp)
  | 4 => some (.vlog2 v.h v.dOp v.aOp)
  | 5 => some (.vtanh v.h v.dOp v.aOp)
  | _ => none

/-- VACC (R297). -/
def vaccInstr (fn : Nat) (v : VParts) : Option Instr :=
  match fn with
  | 0 => some (.vaccmul v.h v.dRow v.aOp v.bSrc)
  | 1 => some (.vaccadd v.h v.dRow v.aSrc)
  | 2 => some (.vnorm v.h v.dRow)
  | 3 => some (.vaccrd v.h v.dOp v.aRow (v.b.extractLsb' 0 4))
  | 4 => some (.vaccz v.h v.dRow (v.a.extractLsb' 0 6))
  | _ => none

/-- The fields of VMEM (R259). -/
def vmemOf (w0 w1 : IWord) : VMem :=
  { ty := tyOf w0, guard := fld w0 12 7, tok := tokOf w0, h := fld w1 10 5,
    off := if w1.getLsbD 15 then .imm (fld w1 16 14) else .reg (fld w1 16 6) }

/-- VMEM by fn, from V and word 2. -/
def vmemInstr (fn : Nat) (m : VMem) (v : VOp) (l : IWord) : Option Instr :=
  match fn with
  | 0 => some (.vld m v)
  | 1 => some (.vst m v)
  | 2 => some (.vlds m v (fld l 0 6))
  | 3 => some (.vsts m v (fld l 0 6))
  | 4 => some (.vgather m v (VOp.ofCode (fld l 0 10)) (l.getLsbD 10))
  | 5 => some (.vscatter m v (VOp.ofCode (fld l 0 10)) (l.getLsbD 10))
  | 6 => some (.vldx m v)
  | 7 => some (.vpref m)
  | _ => none

/-- MTX by fn (R307). -/
def mtxInstr (w0 w1 w2 : IWord) : Option Instr :=
  let t := tokOf w0
  match (fld w0 19 6).toNat with
  | 0 => some (.tlease t (fld w1 0 2))
  | 1 => some (.trel t (w1.getLsbD 0))
  | 2 => some (.tldt t (fld w0 28 2) (w0.getLsbD 30) (Rm.ofCode (fld w1 30 2)) (fld w1 0 4) (fld w1 4 5)
      (fld w1 9 6))
  | 3 => some (.tzero t (w1.getLsbD 0) (fld w1 16 16))
  | 4 => some (.tmma t (w1.getLsbD 0) (fld w1 4 4) (fld w1 8 4) (w1.getLsbD 12))
  | 5 => some (.tmmaa t (w1.getLsbD 0) (fld w1 4 4) (fld w1 8 4))
  | 6 => some (.tdrain {
      tok := t, sat := w0.getLsbD 30, rm := Rm.ofCode (fld w1 30 2),
      mode := DrainMode.ofCode (fld w1 17 2), pack := w1.getLsbD 19, plane := w1.getLsbD 16,
      hd := fld w1 0 5, hr := fld w1 5 5, hv := fld w2 16 5, xo := fld w1 10 6, mi := fld w2 0 7,
      nj := fld w2 8 7 })
  | 7 => some (.tstt t (fld w1 0 4) (fld w1 4 5) (fld w1 9 6))
  | _ => none

/-- ENC by fn (R323). -/
def encInstr (w0 w1 w2 : IWord) : Option Instr :=
  let t := tokOf w0
  let hd : HReg := fld w1 0 5
  let ha : HReg := fld w1 5 5
  let hb : HReg := fld w1 10 5
  let hc : HReg := fld w1 15 5
  match (fld w0 19 6).toNat with
  | 0 => some (.abound t hd ha hb)
  | 1 => some (if w1.getLsbD 30 then .arelaxBilinear t hd ha hb else .arelax t hd ha hb hc (fld w1 26 4))
  | 2 => some (.asym t hd)
  | 3 => some (.aret t ha)
  | 4 => some (.acond t ha (fld w1 20 6))
  | 5 => some (.aalign t (Sigma.ofCode (fld w1 26 2)) hd ha hb)
  | 6 => some (.achk t hd ha hb hc)
  | 7 => some (.atbl t (fld w1 20 6) (fld w2 0 6) (fld w2 8 6))
  | _ => none

/-- ASYNC by fn (R342, R348, R352). -/
def asyncInstr (w0 w1 w2 : IWord) : Option Instr :=
  let t := tokOf w0
  let ha : HReg := fld w1 0 5
  let hb : HReg := fld w1 5 5
  let xa : XReg := fld w1 10 6
  let xb : XReg := fld w1 16 6
  let xt : XReg := fld w1 22 6
  match (fld w0 19 6).toNat with
  | 0 => some (.cpy ha hb xa xt)
  | 1 => some (.xtbl (fld w1 28 3) hb xt)
  | 2 => some (.xduc ha hb xa xb (fld w1 28 3) xt)
  | 3 => some (.coll (CollOp.ofCode (fld w1 28 4)) ha hb xa xb xt)
  | 4 => some (.send hb xa xb xt)
  | 5 => some (.recv ha xa xb xt)
  | 6 => some (.renq (fld w1 0 6) (fld w1 6 6) (fld w1 12 6))
  | 7 => some (.kati t (w1.getLsbD 8) (fld w1 0 8))
  | 8 => some (.katc t (w1.getLsbD 8) (fld w1 0 8) w2)
  | _ => none

/-- BC by fn (R125). -/
def bcInstr (fn : Nat) (a b : XReg) (o : BitVec 32) : Option Instr :=
  match fn with
  | 0 => some (.beq a b o)
  | 1 => some (.bne a b o)
  | 2 => some (.blt a b o)
  | 3 => some (.bge a b o)
  | 4 => some (.bltu a b o)
  | 5 => some (.bgeu a b o)
  | _ => none

/-- The atomics by fn (R125); xc is CAS's. -/
def amoInstr (fn : Nat) (m : AmoArgs) (c : XReg) : Option Instr :=
  match fn with
  | 0 => some (.atadd m)
  | 1 => some (.atswap m)
  | 2 => some (.atand m)
  | 3 => some (.ator m)
  | 4 => some (.atxor m)
  | 5 => some (.atmin m)
  | 6 => some (.atmax m)
  | 7 => some (.atminu m)
  | 8 => some (.atmaxu m)
  | 9 => some (.cas m c)
  | 10 => some (.atfmax m)
  | 11 => some (.atfadd m)
  | _ => none

def amoOf (w0 w1 : IWord) : AmoArgs :=
  { xd := fld w0 12 6, xa := fld w0 25 6, xb := fld w1 0 6, wide := w1.getLsbD 24,
    order := Order.ofCode (fld w1 16 3), scope := Scope.ofCode (fld w1 20 3) }

/-- WAIT and WAITT (R354). -/
def waitInstr (w0 w1 w2 : IWord) : Option Instr :=
  match (fld w0 19 6).toNat with
  | 0 => some (.wait {
      all := w0.getLsbD 31, xv := fld w0 25 6, xm := fld w0 12 6, xd := fld w1 23 6,
      xt := fld w1 17 6, thr := fld w1 13 4, ctr := fld w1 11 2, scope := Scope.ofCode (fld w1 8 3),
      wide := w1.getLsbD 7, cmp := WCmp.ofCode (fld w1 4 3), enM := w1.getLsbD 0, enE := w1.getLsbD 1,
      enK := w1.getLsbD 2, enT := w1.getLsbD 3, timeout := w2 })
  | 1 => some (.waitt (fld w0 25 6) w2)
  | _ => none

/-- EVQ, LODGE and REV by fn (R353, R202, R269), from xa and xd. -/
def lodgeInstr (w0 w1 : IWord) : Option Instr :=
  let d : XReg := fld w0 12 6
  let a : XReg := fld w0 25 6
  match (fld w0 19 6).toNat with
  | 0 => some (.lrmap d a (fld w1 0 6) (Disp.ofCode (fld w1 8 2)) (Disp.ofCode (fld w1 10 2))
      (Disp.ofCode (fld w1 12 2)))
  | 1 => some (.lrqry d (Room.ofCode (fld w1 0 3)))
  | 2 => some (.lflush a (fld w1 0 6) (w1.getLsbD 8))
  | 3 => some (.lstash d a (fld w1 0 6))
  | 4 => some (.lunstash d a)
  | _ => none

def revInstr (w0 w1 w2 : IWord) : Option Instr :=
  let d : XReg := fld w0 12 6
  let a : XReg := fld w0 25 6
  match (fld w0 19 6).toNat with
  | 0 => some (.fork d w2)
  | 1 => some (.join d a)
  | 2 => some (.rtype d a)
  | 3 => some (.rmark d a (fld w1 0 6))
  | _ => none

def evqInstr (w0 : IWord) : Option Instr :=
  match (fld w0 19 6).toNat with
  | 0 => some (.evpop (fld w0 12 6))
  | 1 => some (.evpeek (fld w0 12 6))
  | _ => none

/-- The candidate of a 64- or 96-bit instruction (R125); `w2` is none for 64 bits. -/
def candWide (w0 w1 : IWord) (w2 : Option IWord) : Option Instr :=
  let l := w2.getD 0
  let fn := (fld w0 19 6).toNat
  let v := vparts w0 w1 w2
  match (fld w0 2 6).toNat with
  | 0x01 => bcInstr fn (fld w0 12 6) (fld w0 25 6) w1
  | 0x02 => amoInstr fn (amoOf w0 w1) (fld w1 8 6)
  | 0x03 => some (.li (fld w0 12 6) l)
  | 0x04 => waitInstr w0 w1 l
  | 0x05 => some (.lih (fld w0 12 6) l)
  | 0x08 => valuInstr fn v
  | 0x09 => vintInstr fn v
  | 0x0A => vcvtInstr fn v
  | 0x0B => vredInstr fn v
  | 0x0C => vsfuInstr fn v
  | 0x0D => vmemInstr fn (vmemOf w0 w1) (VOp.ofCode (fld w1 0 10)) l
  | 0x0E => vaccInstr fn v
  | 0x10 => mtxInstr w0 w1 l
  | 0x11 => encInstr w0 w1 l
  | 0x12 => asyncInstr w0 w1 l
  | 0x13 => evqInstr w0
  | 0x14 => lodgeInstr w0 w1
  | 0x15 => revInstr w0 w1 l
  | _ => none

/-- A candidate stands when its operands are legal and its encoding is the words read. -/
def accept (c : Option Instr) (ws : List IWord) : Except Reject Instr :=
  match c with
  | none => .error .noInstruction
  | some i =>
    if i.wf then (if encode i = ws then .ok i else .error .reservedBits) else .error .badOperand

/-- The number of words that the length bits of word 0 name; 0 for the reserved length (R106). -/
def lengthOf (w0 : IWord) : Nat :=
  match (fld w0 0 2).toNat with
  | 0 => 1 | 2 => 2 | 3 => 3 | _ => 0

/-- The decoder: the instruction at the head of the words, with the words after it. -/
def decode : List IWord → Except Reject (Instr × List IWord)
  | [] => .error .truncated
  | w0 :: ws =>
    if w0 = 0 then .error .zeroWord else
    match lengthOf w0, ws with
    | 1, r => (accept (cand32 w0) [w0]).map (fun i => (i, r))
    | 2, w1 :: r => (accept (candWide w0 w1 none) [w0, w1]).map (fun i => (i, r))
    | 3, w1 :: w2 :: r => (accept (candWide w0 w1 (some w2)) [w0, w1, w2]).map (fun i => (i, r))
    | 0, _ => .error .lengthReserved
    | _, _ => .error .truncated

/-- The length of an instruction in bytes. -/
def Instr.size (i : Instr) : Nat := 4 * (encode i).length

/-- The three words of an instruction given as one number, bit 0 the least significant bit of word 0. -/
def tableWords (w : Nat) : List IWord :=
  [BitVec.ofNat 32 w, BitVec.ofNat 32 (w >>> 32), BitVec.ofNat 32 (w >>> 64)]

/-- The instruction that the decoder reads from an opcode-table row's bits; `nbits` bits of `w` are
the row's, and every later bit is zero. -/
def decodeTableWord (nbits w : Nat) : Option Instr :=
  match decode (tableWords (w % 2 ^ nbits)) with
  | .ok (i, _) => some i
  | .error _ => none

end Sys2Proof
end

