-- ==== Sys2Proof/Machine/Ops.lean ====
section
/-! DEFINITION. The named operations over the state: cells of memory, cores, contexts and registers,
completing an instruction, raising records, and halting a task or entering a handler on a fault. -/

namespace Sys2Proof.Machine

/-! ## Sparse tables -/

/-- The value listed for a key. -/
def findKey {α : Type} (k : Nat) : List (Nat × α) → Option α
  | [] => none
  | (j, v) :: t => if j = k then some v else findKey k t

/-- The table with a key's value set, keys ascending. -/
def setKey {α : Type} (k : Nat) (v : α) : List (Nat × α) → List (Nat × α)
  | [] => [(k, v)]
  | e :: rest =>
    if e.1 = k then (k, v) :: rest
    else if e.1 < k then e :: setKey k v rest
    else (k, v) :: e :: rest

/-- A function on every entry of a vector. -/
def vecMap {α β : Type} {n : Nat} (f : α → β) (v : Vector α n) : Vector β n := Vector.ofFn (fun i => f v[i])
/-- A test of every entry of a vector. -/
def vecAll {α : Type} {n : Nat} (f : α → Bool) (v : Vector α n) : Bool := v.toList.all f

/-! ## Memory cells (R216): ascending addresses, no zero byte listed -/

/-- The canonical form of a memory. -/
abbrev memWf (l : List Host.Cell) : Prop :=
  l.Pairwise (fun a b => a.1 < b.1) ∧ ∀ c ∈ l, c.2 ≠ 0

/-- The byte at an address; an unlisted byte reads as zero. DESIGN CHOICE (log 7). -/
def memGet (l : List Host.Cell) (a : Nat) : Byte := (findKey a l).getD 0

/-- The `n` bytes from an address. -/
def memRead (l : List Host.Cell) (a n : Nat) : List Byte := (List.range n).map (fun i => memGet l (a + i))

/-- The cells of some bytes, zeros left out. -/
def cellsOf (a : Nat) : List Byte → List Host.Cell
  | [] => []
  | b :: bs => if b = 0 then cellsOf (a + 1) bs else (a, b) :: cellsOf (a + 1) bs

/-- Bytes stored at an address. -/
def memWrite (l : List Host.Cell) (a : Nat) (bs : List Byte) : List Host.Cell :=
  l.filter (fun c => c.1 < a) ++ cellsOf a bs ++ l.filter (fun c => a + bs.length ≤ c.1)

/-- `n` bytes from an address set to zero. -/
def memZero (l : List Host.Cell) (a n : Nat) : List Host.Cell :=
  l.filter (fun c => c.1 < a || a + n ≤ c.1)

/-- `n` bytes copied between ranges of one memory. -/
def memCopy (l : List Host.Cell) (src dst n : Nat) : List Host.Cell :=
  let moved := (l.filter (fun c => src ≤ c.1 && c.1 < src + n)).map (fun c => (c.1 - src + dst, c.2))
  l.filter (fun c => c.1 < dst) ++ moved ++ l.filter (fun c => dst + n ≤ c.1)

/-- The number of the `i`-th free value of a draw. DESIGN CHOICE (log 5). -/
def freeKey (seed i : Nat) : Nat := seed * 2 ^ 32 + i

/-- A sparse store's byte: listed, or free in a range that is undefined, or zero. -/
def Store.get (st : Store) (a : Nat) : Byte :=
  match findKey a st.cells with
  | some b => b
  | none =>
    match st.undef.find? (fun r => r.1 ≤ a && a < r.2.1) with
    | some (_, _, seed) => Config.freeByte (freeKey seed a)
    | none => 0

def Store.read (st : Store) (a n : Nat) : List Byte := (List.range n).map (fun i => st.get (a + i))

/-- Explicit cells for every byte written, so that a zero hides what was undefined. -/
def cellsAll (a : Nat) : List Byte → List Host.Cell
  | [] => []
  | b :: bs => (a, b) :: cellsAll (a + 1) bs

def Store.write (st : Store) (a : Nat) (bs : List Byte) : Store :=
  { st with cells :=
      st.cells.filter (fun c => c.1 < a) ++ cellsAll a bs ++ st.cells.filter (fun c => a + bs.length ≤ c.1) }

/-- The bytes from `lo` on become undefined. DEDUCED (log 33). -/
def Store.forget (st : Store) (lo hi seed : Nat) : Store :=
  { cells := st.cells.filter (fun c => c.1 < lo || hi ≤ c.1), undef := (lo, hi, seed) :: st.undef }

/-! ## Cores and contexts -/

def Core.ctx (c : Core) (k : Bool) : Context := if k then c.c1 else c.c0
def Core.setCtx (c : Core) (k : Bool) (x : Context) : Core :=
  if k then { c with c1 := x } else { c with c0 := x }
/-- The running context. -/
def Core.me (c : Core) : Context := c.ctx c.active

/-- A core by its number; one that is not listed is in its reset state. -/
def State.core (s : State) (c : Nat) : Core := (findKey c s.cores).getD Core.reset
def State.setCore (s : State) (c : Nat) (v : Core) : State := { s with cores := setKey c v s.cores }
def State.ctx (s : State) (c : Nat) (k : Bool) : Context := (s.core c).ctx k
def State.setCtx (s : State) (c : Nat) (k : Bool) (x : Context) : State :=
  s.setCore c ((s.core c).setCtx k x)
/-- The current core, and its running context. -/
def State.here (s : State) : Core := s.core s.cur
def State.me (s : State) : Context := s.here.me
def State.setHere (s : State) (c : Core) : State := s.setCore s.cur c
def State.setMe (s : State) (x : Context) : State := s.setHere (s.here.setCtx s.here.active x)
def State.myK (s : State) : Bool := s.here.active

/-- The die of a core: compute cores by number (R146), control-complex cores one per die. -/
def dieOf (c : Nat) : Nat := if c < 1024 then c / 256 else c - 1024
/-- The quad of a compute core, over the module. -/
def quadOf (c : Nat) : Nat := c / 4
/-- DESIGN CHOICE (log 9). -/
def isControl (c : Nat) : Bool := 1024 ≤ c
/-- While the clocks are being locked no task issues on a core (R453). -/
def State.issueLocked (s : State) (c : Nat) : Bool := s.locking && !isControl c

def State.quad (s : State) (q : Nat) : Quad := (findKey q s.quads).getD Quad.reset
def State.setQuad (s : State) (q : Nat) (v : Quad) : State := { s with quads := setKey q v s.quads }
/-- Every condensation job of the module. -/
def State.conds (s : State) : List CondJob := s.quads.flatMap (fun q => q.2.cond)
def State.die (s : State) (d : Nat) : Die := s.dies[d]?.getD Die.reset
def State.setDie (s : State) (d : Nat) (v : Die) : State := { s with dies := s.dies.setIfInBounds d v }

def State.task? (s : State) (id : Nat) : Option Task := s.tasks.find? (fun t => t.id == id)
def State.setTask (s : State) (t : Task) : State :=
  { s with tasks := s.tasks.map (fun u => if u.id == t.id then t else u) }
def State.launch? (s : State) (id : Nat) : Option Launch := s.launches.find? (fun l => l.id == id)
def State.setLaunch (s : State) (l : Launch) : State :=
  { s with launches := s.launches.map (fun u => if u.id == l.id then l else u) }
def State.job? (s : State) (id : Nat) : Option Job := s.jobs.find? (fun j => j.id == id)
def State.setJob (s : State) (j : Job) : State :=
  { s with jobs := s.jobs.map (fun u => if u.id == j.id then j else u) }

/-- A job, or a condensation job, of the task that a context holds. -/
def State.mine (s : State) (c : Nat) (k : Bool) (j : Job) : Bool :=
  j.core == c && j.context == k && j.who == (s.ctx c k).task
def State.mineCond (s : State) (c : Nat) (k : Bool) (j : CondJob) : Bool :=
  j.core == c && j.context == k && j.who == (s.ctx c k).task

/-- The task that a context holds, and its launch. -/
def State.ctxTask (s : State) (c : Nat) (k : Bool) : Option Task := (s.ctx c k).task.bind s.task?
def State.ctxLaunch (s : State) (c : Nat) (k : Bool) : Option Launch :=
  (s.ctxTask c k).bind (fun t => s.launch? t.launch)

/-! ## Free values and choices -/

/-- The next number for a free value. DESIGN CHOICE (log 5). -/
def State.draw (s : State) : Nat × State := (s.fresh, { s with fresh := s.fresh + 1 })
/-- The next choice that the manual leaves to the implementation, below `n`. -/
def State.choose (s : State) (n : Nat) : Nat × State :=
  match s.choices with
  | [] => (0, s)
  | c :: t => (if n = 0 then 0 else c % n, { s with choices := t })

/-! ## Registers (R137 to R139) -/

/-- xr; x0 reads as zero. -/
def Context.rx (c : Context) (r : XReg) : Word := if r = 0 then 0 else c.x[r.toNat]'r.isLt
/-- A write to xr; x0 discards it. -/
def Context.wx (c : Context) (r : XReg) (v : Word) : Context :=
  if r = 0 then c else { c with x := c.x.set r.toNat v r.isLt }
/-- hr; h0 reads as zero. -/
def Context.rh (c : Context) (r : HReg) : HandleWord := if r = 0 then 0 else c.h[r.toNat]'r.isLt
def Context.wh (c : Context) (r : HReg) (v : HandleWord) : Context :=
  if r = 0 then c else { c with h := c.h.set r.toNat v r.isLt }
/-- pr; p0 reads as all ones. -/
def Context.rp (c : Context) (r : PReg) : PredWord :=
  if r = 0 then BitVec.allOnes 256 else c.p[r.toNat]?.getD 0
def Context.wp (c : Context) (r : PReg) (v : PredWord) : Context :=
  if r = 0 then c else { c with p := c.p.setIfInBounds r.toNat v }

def State.x (s : State) (r : XReg) : Word := s.me.rx r
def State.setX (s : State) (r : XReg) (v : Word) : State := s.setMe (s.me.wx r v)
def State.h (s : State) (r : HReg) : HandleWord := s.me.rh r
def State.setH (s : State) (r : HReg) (v : HandleWord) : State := s.setMe (s.me.wh r v)
def State.p (s : State) (r : PReg) : PredWord := s.me.rp r
def State.setP (s : State) (r : PReg) (v : PredWord) : State := s.setMe (s.me.wp r v)

/-! ## STATUS (R144) -/

def Context.ftz (c : Context) : Bool := c.status.getLsbD 8
def Context.supervisor (c : Context) : Bool := c.status.getLsbD 12
def Context.phase (c : Context) : Bool := c.status.getLsbD 14
def Context.setPhase (c : Context) (b : Bool) : Context :=
  { c with status := if b then c.status ||| 0x4000 else c.status &&& ~~~0x4000 }
/-- Sticky flags are only ever added (R49). -/
def Context.addFlags (c : Context) (f : BitVec 5) : Context :=
  { c with status := c.status ||| f.zeroExtend 64 }

/-- Rows per context, H (R140). -/
def Core.h (c : Core) : Nat := 32 * c.rooms.reg

/-! ## Counting (R152, R394, R395) -/

/-- Adds to every PERF register that counts the event. -/
def countPerf (code n : Nat) (v : Word) : Word :=
  if v.toNat / 2 ^ 56 = code then w64 (v.toNat / 2 ^ 56 * 2 ^ 56 + (v.toNat % 2 ^ 56 + n) % 2 ^ 56) else v
/-- DEDUCED (log 28). -/
def Core.count (c : Core) (code n : Nat) : Core :=
  if code = 0 || n = 0 then c else { c with perf := vecMap (countPerf code n) c.perf }
def State.count (s : State) (c code n : Nat) : State := s.setCore c ((s.core c).count code n)

/-! ## Completing an instruction -/

/-- One issued instruction on the step counter (R187). -/
def Context.stepCount (c : Context) : Context :=
  if c.steps = 0 then c else { c with steps := c.steps - 1, stepDue := c.steps == 1 }

/-- The running context goes on at `pc`; the instruction counts once (R394, R395). -/
def Core.completeAt (c : Core) (pc : Word) : Core :=
  let x := c.me.stepCount
  { (c.setCtx c.active { x with pc := pc, hold := none, issued := true }).count 2 1 with insns := c.insns + 1 }

/-- The instruction is complete and execution goes on at `pc`. -/
def State.completeAt (s : State) (pc : Word) : State := s.setHere (s.here.completeAt pc)

/-- The instruction of `n` bytes is complete. -/
def State.retire (n : Nat) (s : State) : State := s.completeAt (s.me.pc + w64 n)

/-- The result of a sequencer instruction that writes xd. -/
def State.retireX (n : Nat) (d : XReg) (v : Word) (s : State) : State := (s.setX d v).retire n

/-! ## Records and faults (R145, R403 to R406) -/

/-- A fault as its rule raises it: code, detail, grade before escalation, aux; and the die and ECC
structure whose counter it moves, and the core and event of a TLB miss that it ends (R395). -/
structure Trap where
  code : BitVec 8
  detail : Word
  grade : Grade := .program
  aux : BitVec 32 := 0
  ecc : Option (Nat × Nat) := none
  miss : Option (Nat × Nat) := none
deriving DecidableEq, Repr

/-- Sources of R403. -/
def srcSequencer : BitVec 8 := 0
def srcAccess : BitVec 8 := 1
def srcCq : BitVec 8 := 2
def srcStore : BitVec 8 := 3
def srcCopy : BitVec 8 := 4
def srcTransducer : BitVec 8 := 5
def srcCollective : BitVec 8 := 6
def srcCondense : BitVec 8 := 7
def srcDispatcher : BitVec 8 := 8
def srcMerge : BitVec 8 := 12

/-- A record joins those that wait to be written on a die. DEDUCED (log 14). -/
def State.raise (s : State) (d : Nat) (r : FaultRec) : State :=
  s.setDie d { s.die d with pending := (s.die d).pending ++ [r] }

/-- A record against the task of a context. DEDUCED (log 15). -/
def State.ctxRec (s : State) (c : Nat) (k : Bool) (status : RecStatus) (engine : Bool) (src : BitVec 8)
    (epc : Word) (t : Trap) : FaultRec :=
  let x := s.ctx c k
  let task := s.ctxTask c k
  { code := t.code, grade := t.grade, status := status, engine := engine,
    afterExit := x.exited, source := src, core := BitVec.ofNat 16 c,
    context := if k then 1 else 0, tag := ((s.ctxLaunch c k).map (fun l => l.req.tag)).getD 0,
    launch := task.map (fun t => t.launch), who := x.task,
    task := (task.map (fun t => t.word)).getD (-1), epc := epc, detail := t.detail, time := s.time,
    aux := t.aux, escape := x.escape }

/-- The TLB miss whose walk a fault has ended counts (R395). -/
def State.missOf (s : State) (t : Trap) : State :=
  match t.miss with
  | some (c, n) => s.count c n 1
  | none => s

/-- An event against a context that its task survives (REPLACED, LOGGED, PARKED, RECOVERED). -/
def State.log (s : State) (c : Nat) (k : Bool) (status : RecStatus) (engine : Bool) (src : BitVec 8)
    (t : Trap) : State :=
  (s.missOf t).raise (dieOf c) (s.ctxRec c k status engine src 0 t)

def satSucc32 (v : BitVec 32) : BitVec 32 := if v = BitVec.allOnes 32 then v else v + 1

/-- An ECC counter moves (R398). -/
def State.eccCount (s : State) (d st : Nat) (uncorr : Bool) : State :=
  let x := s.die d
  let p := x.ecc[st]?.getD (0, 0)
  s.setDie d { x with ecc := x.ecc.setIfInBounds st (if uncorr then (p.1, satSucc32 p.2) else (satSucc32 p.1, p.2)) }

def State.eccOf (s : State) (t : Trap) : State :=
  match t.ecc with
  | some (d, st) => s.eccCount d st true
  | none => s

/-- A bank whose error has come again leaves when its core next holds no task (R210). -/
def State.bankLeaves (s : State) (c : Nat) (t : Trap) : State :=
  if t.code = 0x1B then
    let core := s.core c
    s.setCore c { core with leaving := core.leaving ||| (1#48 <<< t.detail.toNat) }
  else s

/-- TCAUSE (R145). -/
def causeWord (code : BitVec 8) (engine : Bool) : Word :=
  (BitVec.ofBool engine ++ code).zeroExtend 64

/-- The address of a control-complex core's handler (R179). DEDUCED (log 13). -/
def handlerPc : Word := 0x1000

/-- A task that counts as faulted (R42, R43, R407, R408): once, and the launch remembers the first. -/
def State.markFaulted (s : State) (id : Nat) : State :=
  match s.task? id with
  | none => s
  | some t =>
    if t.faulted then s
    else
      let s := s.setTask { t with faulted := true }
      match s.launch? t.launch with
      | none => s
      | some l =>
        s.setLaunch { l with faulted := l.faulted + 1, firstTask := if l.faulted = 0 then t.word else l.firstTask }

/-- A fault of the control complex's own code: no task and no numbered core is concerned (R146, R403).
DEDUCED (log 13). -/
def State.controlRec (s : State) (src : BitVec 8) (t : Trap) : FaultRec :=
  { code := t.code, grade := t.grade, status := .halted, source := src, detail := t.detail, time := s.time, aux := t.aux }

/-- Taking an exception. A task's context writes its trap registers, halts and raises its record
(R145, R361, R405), once: a second fault of a halted task only raises its record; a task that has issued
EXIT halts too, and goes on exiting when it is resumed (R43). Code of the control complex enters its
core's handler (R179), and a fault of it, but no service request, is recorded. The record goes to die `d`.
DEDUCED (log 12, 13). -/
def State.takeTrapOn (s : State) (d c : Nat) (k : Bool) (status : RecStatus) (engine : Bool) (src : BitVec 8)
    (epc : Word) (t : Trap) : State :=
  let s := ((s.eccOf t).missOf t).bankLeaves c t
  let x := s.ctx c k
  let y : Context :=
    { x with tcause := causeWord t.code engine, tval := t.detail, epc := epc, hold := none }
  if x.supervisor then
    let s := s.setCtx c k { y with pc := handlerPc, stepDue := false }
    if status == .service then s else s.raise d (s.controlRec src t)
  else if x.mode == .halted then s.raise d (s.ctxRec c k status engine src epc t)
  else (s.setCtx c k { y with mode := .halted }).raise d (s.ctxRec c k status engine src epc t)

/-- Taking an exception whose record goes to the die of the context's core. -/
def State.takeTrap (s : State) (c : Nat) (k : Bool) (status : RecStatus) (engine : Bool) (src : BitVec 8)
    (epc : Word) (t : Trap) : State := s.takeTrapOn (dieOf c) c k status engine src epc t

/-- The precise fault of the current instruction: EPC holds its address, and it has no effect (R9).
DEDUCED (log 12). -/
def State.fault (s : State) (t : Trap) : State :=
  s.takeTrap s.cur s.myK .halted false srcSequencer s.me.pc t

/-- The return from an exception: ERET goes on at EPC (R145, R179); the instruction counts once. -/
def State.returnFromTrap (s : State) : State := s.completeAt s.me.epc

/-! ## Event records (R346, R152) -/

/-- A record of 16 bytes. -/
def eventRecord (type source status code : BitVec 8) (tag : BitVec 32) (detail : Word) : BitVec 128 :=
  detail ++ tag ++ code ++ status ++ source ++ type

/-- A yielded context, or a control-complex core that HALT has stopped, has something to go on for
(R180, R182). -/
def Context.wake (c : Context) : Context :=
  match c.hold with
  | some (i, .yield u _) => { c with hold := some (i, .yield u true) }
  | _ => c

/-- A record enters the event queue. -/
def Context.pushEvent (c : Context) (r : BitVec 128) : Context :=
  { c with evq := c.evq ++ [r], evqt := c.evqt + 1 }.wake

/-- Slots neither reserved nor holding a record (R346). -/
def Context.freeSlots (c : Context) : Nat := 64 - (c.evq.length + c.reserved)

/-! ## Fault codes (R406) -/

/-- DEDUCED (log 20). -/
def illegal (w0 w1 : IWord) : Trap := { code := 0x01, detail := w1 ++ w0 }
def illegalAt (detail : Word) : Trap := { code := 0x01, detail := detail }
def privilege (w0 : IWord) : Trap := { code := 0x02, detail := w0.zeroExtend 64 }
def misalign (a : Word) : Trap := { code := 0x03, detail := a }
def bounds (d : Word) : Trap := { code := 0x04, detail := d }
def shapeBad (a : Word) : Trap := { code := 0x16, detail := a }

/-- Bits 56–0 of an address under a reason in bits 63–60 (R233). -/
def xlateDetail (reason va : Nat) : Word := w64 (reason * 2 ^ 60 + va % 2 ^ 57)

/-- The grade of an XLATE reason (R233). -/
def xlateGrade (reason : Nat) : Grade :=
  match reason with
  | 1 | 5 => .other
  | 3 => .same
  | _ => .program
def xlate (reason va : Nat) : Trap :=
  { code := 0x05, detail := xlateDetail reason va, grade := xlateGrade reason }
def permission (va : Nat) : Trap := { code := 0x06, detail := xlateDetail 0 va }
/-- The structure of a near frame's HBM stack, or of far memory (R216, R398). -/
def memStructure (far : Bool) (f : Nat) : Nat := if far then 12 else 3 + f % 2 ^ 22 / 2 ^ 20
/-- ECC_UNCORR: the address, the die and the structure (R398). -/
def eccUncorr (a : Nat) (d st : Nat) : Trap :=
  { code := 0x07, detail := w64 (a % 2 ^ 57), grade := .other, aux := BitVec.ofNat 32 st, ecc := some (d, st) }

/-- An uncorrectable sector under an access (R266): the address, the die and structure that report it,
whether a second read is clean, and the core and sector of a Lodge that holds it (R210). -/
structure Uncorr where
  va : Nat
  die : Nat
  structure_ : Nat
  transient : Bool
  lodge : Option (Nat × Nat) := none
deriving DecidableEq, Repr

/-- ECC_UNCORR of a consumed sector. -/
def Uncorr.trap (u : Uncorr) : Trap := eccUncorr u.va u.die u.structure_

/-- LODGE_BANK (R210). -/
def lodgeBank (b : Nat) : Trap := { code := 0x1B, detail := w64 b, grade := .other }

/-- A consumed uncorrectable Lodge line is scrubbed and rewritten once (R210): a transient error is gone.
DEDUCED (log 35). -/
def State.scrub (s : State) (u : Uncorr) : State :=
  match u.lodge with
  | none => s
  | some (c, k) =>
    let core := s.core c
    let s := if core.scrubbed.contains (k / 2) then s else s.setCore c { core with scrubbed := k / 2 :: core.scrubbed }
    if u.transient then
      { s with poison := s.poison.filter (fun q => !(q.transient && q.lodgeOf == some c && q.sector / 2 == k / 2)) }
    else s

/-! ## Meanings that may fault, wait or stop -/

/-- Why a meaning does not run to its end. -/
inductive Exc where
  /-- a precise fault -/
  | trap (t : Trap)
  /-- the instruction waits and runs again (R157) -/
  | wait
  /-- an uncorrectable sector consumed by a sequencer access; whether R212 may cancel its phase (R212, R266) -/
  | poison (u : Uncorr) (cancels : Bool)
  | stop (f : Fault)
deriving DecidableEq, Repr

/-- A computation over the state that may fault, wait or stop; its changes are lost when it does. -/
abbrev M := StateT State (Except Exc)

def M.trap {α : Type} (t : Trap) : M α := throw (.trap t)
def M.wait {α : Type} : M α := throw .wait
/-- Continues when the condition holds. -/
def M.must (b : Bool) (t : Trap) : M Unit := if b then pure () else M.trap t
def M.waitFor (b : Bool) : M Unit := if b then pure () else M.wait

/-- The current context waits with its instruction, which runs again when its wait may have ended. -/
def State.holdOn (s : State) (i : Instr) (h : Hold) : State :=
  s.setMe { s.me with hold := some (i, h) }

/-- An event that is not enabled changes nothing. DESIGN CHOICE (log 4). -/
def State.when (s : State) (b : Bool) (t : State) : Host.Outcome State Fault Refusal :=
  .next (if b then t else s)

/-- Words 0 and 1 of an instruction as the ILLEGAL detail takes them, given its words. -/
def illegalOf (ws : List IWord) : Trap :=
  match ws with
  | [] => illegal 0 0
  | [a] => illegal a 0
  | a :: b :: _ => illegal a b

/-- PRIVILEGE with word 0 (R108). -/
def illegalPrivilege (ws : List IWord) : Trap := privilege (ws.headD 0)

end Sys2Proof.Machine
end

