-- ==== Sys2Proof/Machine/Flags.lean ====
section
/-! DEFINITION. Integer arithmetic on 64-bit words, the bit counts and fields of R158 to R160, and the
integer flag computations of the vector elements (R50). -/

namespace Sys2Proof.Machine

/-- A field of any width, sign-extended (R110). -/
def sext {n : Nat} (v : BitVec n) : Word := v.signExtend 64
/-- A word's low half, sign-extended from bit 31 (R158). -/
def sext32 (v : Word) : Word := (v.extractLsb' 0 32).signExtend 64
/-- A shift or rotate amount: the word mod 64 (R158). -/
def shamt (v : Word) : Nat := v.toNat % 64

/-- Bits 127–64 of a product (R158). -/
def mulHigh (a b : Int) : Word := BitVec.ofInt 64 (a * b / 2 ^ 64)

/-- Quotients and remainders (R159). -/
def divS (x y : Word) : Word := if y = 0 then BitVec.allOnes 64 else BitVec.ofInt 64 (x.toInt.tdiv y.toInt)
def divU (x y : Word) : Word := if y = 0 then BitVec.allOnes 64 else w64 (x.toNat / y.toNat)
def remS (x y : Word) : Word := if y = 0 then x else BitVec.ofInt 64 (x.toInt.tmod y.toInt)
def remU (x y : Word) : Word := if y = 0 then x else w64 (x.toNat % y.toNat)

/-! ## Bit counts of the low `w` bits -/

def popCount (w n : Nat) : Nat := ((List.range w).filter (fun i => n.testBit i)).length
def trailingZeros (w n : Nat) : Nat := ((List.range w).find? (fun i => n.testBit i)).getD w
def leadingZeros (w n : Nat) : Nat := ((List.range w).find? (fun i => n.testBit (w - 1 - i))).getD w
/-- The position of the set bit of rank `k`, counting from bit 0; `w` where there is none (R160). -/
def rankBit (w n k : Nat) : Nat := (((List.range w).filter (fun i => n.testBit i))[k]?).getD w
/-- Bit i of the low `w` bits moved to bit w − 1 − i. -/
def reverseBits (w n : Nat) : Nat :=
  ((List.range w).map (fun i => if n.testBit i then 2 ^ (w - 1 - i) else 0)).sum

/-- FNSB (R160). -/
def fnsb (x y : Word) : Word := w64 (rankBit 64 x.toNat y.toNat)

/-- The position and clipped length of a control word (R160). -/
def fieldPos (c : Word) : Nat := bitsOf c.toNat 5 0
def fieldLen (c : Word) : Nat := min (min (bitsOf c.toNat 14 8) 64) (64 - fieldPos c)

/-- BEXT (R160). -/
def bext (x c : Word) : Word :=
  let l := fieldLen c
  let f := x.toNat / 2 ^ fieldPos c % 2 ^ l
  if c.getLsbD 16 && l != 0 && f.testBit (l - 1) then BitVec.ofInt 64 ((f : Int) - 2 ^ l) else w64 f

/-- BINS (R160). -/
def bins (old x c : Word) : Word :=
  let mask : Word := w64 ((2 ^ fieldLen c - 1) * 2 ^ fieldPos c)
  (old &&& ~~~mask) ||| ((x <<< fieldPos c) &&& mask)

end Sys2Proof.Machine
end

