-- ==== Sys2Proof/Machine/Mem.lean ====
section
/-! DEFINITION. Global memory as an agent sees it: page walks, allocation, revision maps and copy on
write, translation caches, stash segments, spill windows, poison, and the supervisor's register
windows (R191 to R201, R214 to R238, R397, R441, R446). -/

namespace Sys2Proof.Machine

/-! ## Views -/

/-- An agent's way to memory: the task whose revision it reads, the context whose spill window, held
and parked stores it has, the core whose stash and cache room it may use, its die, the root it walks,
and the stream whose TLB it uses (R227). -/
structure View where
  task : Option Nat
  ctx : Option (Nat × Bool)
  core : Option Nat
  die : Nat
  sup : Bool
  stream : Option TlbAt := none
  /-- banks of the SPILL room as an entry routed before an LRMAP sees it (R205) -/
  spill : Option Nat := none
  /-- the core whose record cache it uses, where it is not `core`'s (R262, R373) -/
  recs : Option Nat := none
  /-- an entry routed in the open phase makes the access (R212) -/
  inPhase : Bool := false
  /-- a JOIN's merge is exempt from the revision budget (R35) -/
  exempt : Bool := false
deriving DecidableEq, Repr

/-- A context's own view. -/
def State.view (s : State) (c : Nat) (k : Bool) : View :=
  { task := (s.ctx c k).task, ctx := some (c, k), core := some c, die := dieOf c,
    sup := (s.ctx c k).supervisor, stream := some (.sequencer c) }
def State.myView (s : State) : View := s.view s.cur s.myK

/-- The view of a job: the task's revision, neither held stores nor the spill room (R28, R211), through the
TLB of its engine's stream. -/
def jobView (task : Option Nat) (die : Nat) (stream : Option TlbAt := none) : View :=
  { task := task, ctx := none, core := none, die := die, sup := false, stream := stream }

/-- A view that no sequencer, store queue, stash or cache room serves. -/
def View.bare (v : View) : View := { v with ctx := none, core := none, stream := none, recs := none }
/-- The core whose record cache serves a view. -/
def View.recCore (v : View) : Option Nat := v.recs.or v.core

/-- Why an access does not complete. -/
inductive XErr where
  /-- a fault; resolvable by the supervisor under R233 or not; the address -/
  | fault (t : Trap) (resolvable : Bool) (va : Nat)
  /-- an uncorrectable sector under the address (R266) -/
  | poison (u : Uncorr)
  /-- the access stalls: a MIGRATING leaf, a parked store's page, the revision budget -/
  | wait
  | stop (f : Fault)
deriving DecidableEq, Repr

abbrev X := StateT State (Except XErr)

def X.fail {α : Type} (e : XErr) : X α := throw e
def X.xlate {α : Type} (reason va : Nat) : X α :=
  throw (.fault (Sys2Proof.Machine.xlate reason va) (reason != 2) va)
/-- The fault of a walk that a TLB miss began, with the miss that it counts (R395). -/
def X.walkFault {α : Type} (miss : Option (Nat × Nat)) (reason va : Nat) : X α :=
  throw (.fault { Sys2Proof.Machine.xlate reason va with miss := miss } (reason != 2) va)

/-! ## Leaves (R218) -/

def leafValid (e : Nat) : Bool := e % 2 == 1
def leafW (e : Nat) : Bool := bitsOf e 1 1 == 1
def leafCow (e : Nat) : Bool := bitsOf e 2 2 == 1
def leafSize (e : Nat) : Nat := bitsOf e 4 3
def leafFar (e : Nat) : Bool := bitsOf e 5 5 == 1
def leafHome (e : Nat) : Nat := bitsOf e 7 6
def leafCount (e : Nat) : Nat := bitsOf e 15 8
def leafFrame (e : Nat) : Nat := bitsOf e 51 16
def leafState (e : Nat) : Nat := bitsOf e 55 52

/-- A word with bits `hi`–`lo` replaced. -/
def putBits (e hi lo v : Nat) : Nat :=
  e / 2 ^ (hi + 1) * 2 ^ (hi + 1) + v % 2 ^ (hi + 1 - lo) * 2 ^ lo + e % 2 ^ lo

/-- A near frame exists (R216). -/
def nearFrame (f : Nat) : Bool := f < 2 ^ 24 && f % 2 ^ 22 < 3 * 2 ^ 20
/-- A physical address of a near frame. -/
def nearAddr (a : Nat) : Bool := nearFrame (a / 65536)
/-- The frames of the register windows, in the supervisor's physical address space. DEDUCED (log 29). -/
def windowFrame (f : Nat) : Bool := Config.window 0 / 65536 ≤ f && f < Config.window 4 / 65536

/-- The size of the table of a level, and the place of its VA field (R217). -/
def tableSize (lvl : Nat) : Nat := match lvl with | 0 => 131072 | 1 => 65536 | 2 => 4096 | _ => 256
def vaIndex (va lvl : Nat) : Nat :=
  match lvl with
  | 0 => bitsOf va 56 43 | 1 => bitsOf va 42 30 | 2 => bitsOf va 29 21 | _ => bitsOf va 20 16
/-- Bytes that a leaf of a level maps. -/
def levelBytes (lvl : Nat) : Nat := match lvl with | 1 => 2 ^ 30 | 2 => 2 ^ 21 | _ => 2 ^ 16

/-- Malformed (R220); `busy` says that the page-walk unit moves or replicates the leaf itself. -/
def malformed (sup busy : Bool) (e lvl : Nat) : Bool :=
  let size := leafSize e
  if size = 3 then
    let next := bitsOf e 51 8 * 256
    lvl == 3 || bitsOf e 63 52 != 0 || bitsOf e 7 5 != 0 || bitsOf e 2 1 != 0 ||
      next % tableSize (lvl + 1) != 0 || !nearAddr next
  else
    lvl == 0 || size != 3 - lvl || bitsOf e 62 56 != 0 || 4 < leafState e ||
      ((leafState e == 2 || leafState e == 3) && !busy) || (leafCow e && !leafW e) ||
      (size == 1 && leafFrame e % 32 != 0) || (size == 2 && leafFrame e % 16384 != 0) ||
      (!leafFar e && !(sup && windowFrame (leafFrame e)) &&
        (!nearFrame (leafFrame e) || leafHome e != leafFrame e / 2 ^ 22)) ||
      leafState e == 1

/-- What a walk comes to. -/
inductive Walk where
  | leaf (addr lvl e : Nat)
  | allocate (addr lvl e : Nat)
  | bad (reason : Nat)
  | absent (addr : Nat)
deriving DecidableEq, Repr

def State.readNear (s : State) (a n : Nat) : Nat := leNat (memRead s.mem a n)
def State.writeNear (s : State) (a n v : Nat) : State := { s with mem := memWrite s.mem a (leBytes n v) }

/-- The page-walk unit has a migration or replica of its own under way for the leaf at an address (R220). -/
def State.moves (s : State) (a : Nat) : Bool :=
  (s.moving ++ s.replicas).any (fun m => m.frames.any (fun f => f.addr == a))

/-- The page walk from a table, through the levels that remain (R219). DEDUCED (log 19). -/
def State.walkFrom (s : State) (sup : Bool) (va : Nat) : Nat → List Nat → Walk
  | _, [] => .bad 1
  | tbl, lvl :: rest =>
    let a := tbl + 8 * vaIndex va lvl
    if !nearAddr a then .absent a
    else
      let e := s.readNear a 8
      if !leafValid e then
        (if leafState e == 1 && leafSize e == 3 - lvl && 2 ≤ lvl then .allocate a lvl e else .bad 0)
      else if malformed sup (s.moves a) e lvl then .bad 1
      else if leafSize e = 3 then s.walkFrom sup va (bitsOf e 51 8 * 256) rest
      else .leaf a lvl e

/-- The walk from a root register; a root that is not set is NOT_VALID (R219, R446). -/
def State.walk (s : State) (sup : Bool) (va : Nat) : Walk :=
  let root := (if sup then s.superRoot else s.taskRoot).toNat
  if root % 2 = 0 then .bad 0 else s.walkFrom sup va (bitsOf root 51 17 * 2 ^ 17) [0, 1, 2, 3]

/-! ## Frame rings (R222) -/

/-- Takes a frame from a ring; none when it is empty. -/
def State.ringTake (s : State) (d k : Nat) : Option (Nat × State) :=
  let h := Config.ringBase d k
  let base := s.readNear h 8
  let cap := s.readNear (h + 8) 8
  let head := s.readNear (h + 16) 8
  let tail := s.readNear (h + 24) 8
  if cap = 0 || head == tail then none
  else
    let f := bitsOf (s.readNear (base + 8 * (head % cap)) 8) 35 0
    some (f, s.writeNear (h + 16) 8 ((head + 1) % 2 ^ 64))

/-- Puts a frame into the released ring of a die, or holds it while the ring is full. -/
def State.releaseTo (s : State) (d f : Nat) : State :=
  let h := Config.ringBase d 2
  let base := s.readNear h 8
  let cap := s.readNear (h + 8) 8
  let head := s.readNear (h + 16) 8
  let tail := s.readNear (h + 24) 8
  if cap = 0 || tail - head ≥ cap then
    s.setDie d { s.die d with unreleased := (s.die d).unreleased ++ [f] }
  else (s.writeNear (base + 8 * (tail % cap)) 8 f).writeNear (h + 24) 8 ((tail + 1) % 2 ^ 64)

/-- Puts a near frame into the released ring of its home die. -/
def State.release (s : State) (f : Nat) : State := s.releaseTo (f / 2 ^ 22) f

/-! ## Translation caches (R227, R228) -/

/-- Entries of a cache (R227). -/
def TlbAt.cap : TlbAt → Nat
  | .sequencer _ => 64
  | .access _ | .store _ | .engine .. => 32
  | .quad _ => 1024
  | .die _ => 2048

/-- The core whose PERF registers count a cache's misses, and the event (R395). -/
def TlbAt.missEvent : TlbAt → Option (Nat × Nat)
  | .sequencer c => some (c, 0x0B)
  | .access c | .store c => some (c, 0x0C)
  | .engine .. | .quad _ | .die _ => none

/-- The caches behind a stream's own: its core's quad for 64 KiB and 2 MiB leaves, the die for 1 GiB leaves. -/
def TlbAt.behind (st : TlbAt) (die lvl : Nat) : Option TlbAt :=
  if lvl = 1 then some (.die die)
  else
    match st with
    | .sequencer c | .access c | .store c => if isControl c then none else some (.quad (quadOf c))
    | .engine .. | .quad _ | .die _ => none

/-- The number that stands for the address of a revision map's leaf, which lies in no table. DEDUCED (log 30). -/
def revAddr (task page : Nat) : Nat := 2 ^ 60 + task * 2 ^ 41 + page

/-- A table's leaf that maps an address. -/
def TlbEntry.maps (t : TlbEntry) (sup : Bool) (va : Nat) : Bool :=
  t.supervisor == sup && t.addr < 2 ^ 60 && t.page ≤ va / 65536 && va / 65536 < t.page + levelBytes t.level / 65536

/-- The translation that a cache holds of an address. -/
def State.tlbIn (s : State) (st : TlbAt) (sup : Bool) (va : Nat) : Option TlbEntry :=
  s.tlb.find? (fun t => t.place == st && t.maps sup va)

/-- The translation that a view's caches hold: the stream's own, its quad's, its die's. -/
def State.tlbLook (s : State) (v : View) (sup : Bool) (va : Nat) : Option TlbEntry :=
  match v.stream with
  | none => none
  | some st =>
    (s.tlbIn st sup va).or
      (((st.behind v.die 2).bind (fun q => s.tlbIn q sup va)).or (s.tlbIn (.die v.die) sup va))

/-- An entry enters a cache, the latest first; the one unused for longest leaves a full cache.
DESIGN CHOICE (log 32). -/
def State.tlbPut (s : State) (t : TlbEntry) : State :=
  let l := s.tlb.filter (fun u => !(u.place == t.place && u.supervisor == t.supervisor && u.addr == t.addr && u.page == t.page))
  let full := t.place.cap ≤ (l.filter (fun u => u.place == t.place)).length
  { s with tlb := t :: (if full then (l.reverse.eraseP (fun u => u.place == t.place)).reverse else l) }

/-- The prefetch of a stream TLB (R227): the leaf of the next page in the stream's direction, where the table
has a valid one. DESIGN CHOICE (log 32): the direction is that of the last change of page. -/
def State.prefetch (s : State) (st : TlbAt) (sup : Bool) (down : Bool) (t : TlbEntry) : State :=
  let next := if down then t.page - 1 else t.page + levelBytes t.level / 65536
  if (down && t.page = 0) || 2 ^ 41 ≤ next || (s.tlbIn st sup (next * 65536)).isSome then s
  else
    match s.walk sup (next * 65536) with
    | .leaf a lvl e =>
      if leafState e = 2 then s
      else
        s.tlbPut { place := st, supervisor := sup, page := next * 65536 / levelBytes lvl * (levelBytes lvl / 65536),
                   level := lvl, leaf := w64 e, addr := a }
    | _ => s

/-- A stream's own cache and, on a miss, the one behind it hold a translation. -/
def State.tlbHold (s : State) (v : View) (st : TlbAt) (t : TlbEntry) (missed : Bool) : State :=
  let u := s.tlbPut { t with place := st }
  match (if missed then st.behind v.die t.level else none) with
  | some q => u.tlbPut { t with place := q }
  | none => u

/-- The caches after a use of a translation: an engine's stream TLB prefetches on a change of page. -/
def State.tlbFill (s : State) (v : View) (st : TlbAt) (t : TlbEntry) (missed : Bool) : State :=
  let u := s.tlbHold v st t missed
  match st with
  | .sequencer _ | .quad _ | .die _ => u
  | .access _ | .store _ | .engine .. =>
    match s.tlb.filter (fun u => u.place == st) with
    | [] => u.prefetch st t.supervisor false t
    | m :: _ => if m.page = t.page then u else u.prefetch st t.supervisor (t.page < m.page) t

/-- A view has used a translation: its caches hold it, and a miss of its own is counted (R227, R395).
DESIGN CHOICE (log 32). -/
def State.tlbUse (s : State) (v : View) (t : TlbEntry) : State :=
  match v.stream with
  | none => s
  | some st =>
    let missed := !s.tlb.any (fun u =>
      u.place == st && u.supervisor == t.supervisor && u.page == t.page && u.addr == t.addr && u.leaf == t.leaf)
    { s with
      tlb := (s.tlbFill v st t missed).tlb,
      cores := (match (if missed then st.missEvent else none) with | some (c, n) => s.count c n 1 | none => s).cores }

/-- The page-walk unit removes every cached copy of a leaf before it uses a new one (R228). -/
def State.tlbDropLeaf (s : State) (a : Nat) : State := { s with tlb := s.tlb.filter (fun t => t.addr != a) }
/-- Cached copies of a range of pages are dropped (R229). -/
def State.tlbDrop (s : State) (sup : Bool) (lo n : Nat) : State :=
  { s with tlb := s.tlb.filter (fun t =>
      !(t.supervisor == sup && lo < t.page + levelBytes t.level / 65536 && t.page < lo + n)) }

/-! ## Regions and revisions (R27, R28, R223 to R226) -/

/-- The region that holds a byte, with its number. -/
def regionAt (rs : List Region) (va : Nat) : Option (Nat × Region) :=
  (rs.zipIdx.find? (fun r => r.1.base ≤ va && va < r.1.base + r.1.size)).map (fun r => (r.2, r.1))

def State.taskRegions (s : State) (task : Option Nat) : List Region :=
  match (task.bind s.task?).bind (fun t => s.launch? t.launch) with
  | some l => l.regions
  | none => []

/-- An address in a revisioned region of the task's launch. -/
def State.revisioned (s : State) (task : Option Nat) (va : Nat) : Bool :=
  match regionAt (s.taskRegions task) va with
  | some (_, r) => r.merge != 0
  | none => false

def Task.leafAt (t : Task) (page : Nat) : Option RevLeaf := t.rev.find? (fun l => l.page == page)
def setLeaf (ls : List RevLeaf) (l : RevLeaf) : List RevLeaf :=
  l :: ls.filter (fun m => m.page != l.page)

/-- The level-3 leaf of the task table for a page, where the table has one. -/
def State.tableLeaf (s : State) (page : Nat) : Option (Nat × Nat) :=
  match s.walk false (page * 65536) with
  | .leaf a 3 e => some (a, e)
  | _ => none

/-- The task table's leaf for a page names the frame: the frame is the launch's. -/
def State.launchFrame (s : State) (page f : Nat) : Bool :=
  match s.tableLeaf page with
  | some (_, e) => leafFrame e == f
  | none => false

/-- The page-walk unit removes every cached copy of a task's own leaf of a page before the new one is used (R228). -/
def State.tlbDropRev (s : State) (task page : Nat) : State := s.tlbDropLeaf (revAddr task page)
/-- The same for every leaf of a task's revision map. -/
def State.tlbDropMap (s : State) (task : Nat) : State :=
  { s with tlb := s.tlb.filter (fun t => !(revAddr task 0 ≤ t.addr && t.addr < revAddr (task + 1) 0)) }
/-- The same for every leaf of a revision map that names a frame. -/
def State.tlbDropFrame (s : State) (f : Nat) : State :=
  { s with tlb := s.tlb.filter (fun t => !(2 ^ 60 ≤ t.addr && leafFrame t.leaf.toNat == f)) }

/-- A task's revision map with a leaf set, its cached copies removed (R228). -/
def State.setRevLeaf (s : State) (id : Nat) (l : RevLeaf) : State :=
  ({ s with tasks := s.tasks.map (fun (u : Task) => if u.id == id then { u with rev := setLeaf u.rev l } else u) } : State).tlbDropRev id l.page

/-- The refcount field kept equal in every leaf that names a frame, the cached copies removed (R224, R228).
DEDUCED (log 30). -/
def State.setCount (s : State) (page f n : Nat) : State :=
  let put (l : RevLeaf) : RevLeaf :=
    if leafFrame l.leaf.toNat = f then { l with leaf := w64 (putBits l.leaf.toNat 15 8 n) } else l
  let s := ({ s with tasks := s.tasks.map (fun (t : Task) => { t with rev := t.rev.map put, anc := t.anc.map put }) } : State).tlbDropFrame f
  match s.tableLeaf page with
  | some (a, e) => if leafFrame e = f then (s.writeNear a 8 (putBits e 15 8 n)).tlbDropLeaf a else s
  | none => s

/-- A leaf of a launch's task that no longer names its frame: the count falls, and at zero the frame is
released (R226); a count held at 255 stays, and the frame is kept for the launch's end (R224). -/
def State.dropCount (s : State) (launch : Nat) (l : RevLeaf) : State :=
  let e := l.leaf.toNat
  let n := leafCount e
  if n = 255 then
    match s.launch? launch with
    | none => s
    | some x =>
      if s.launchFrame l.page (leafFrame e) || x.sticky.contains (leafFrame e) then s
      else s.setLaunch { x with sticky := x.sticky ++ [leafFrame e] }
  else
    let s := s.setCount l.page (leafFrame e) (n - 1)
    if n ≤ 1 && !s.launchFrame l.page (leafFrame e) then s.release (leafFrame e) else s

/-- A root task's leaf over a frame of the launch holds no count (R223). -/
def State.holdsCount (s : State) (t : Task) (l : RevLeaf) : Bool :=
  t.depth != 0 || !s.launchFrame l.page (leafFrame l.leaf.toNat)

/-- A revision map ends. DEDUCED (log 30). -/
def State.dropMap (s : State) (t : Task) (ls : List RevLeaf) : State :=
  ls.foldl (fun s l => if s.holdsCount t l then s.dropCount t.launch l else s) s

def Task.hasEnded (t : Task) : Bool := match t.phase with | .ended _ => true | _ => false

/-- A revision map is discarded. -/
def State.dropRev (s : State) (id : Nat) : State :=
  match s.task? id with
  | none => s
  | some t =>
    let s := (s.tlbDropMap id).dropMap t t.rev
    { s with tasks := s.tasks.map (fun (u : Task) => if u.id == id then { u with rev := [] } else u) }
/-- A retained ancestor is freed. -/
def State.dropAnc (s : State) (id : Nat) : State :=
  match s.task? id with
  | none => s
  | some t =>
    let s := s.dropMap t t.anc
    { s with tasks := s.tasks.map (fun (u : Task) => if u.id == id then { u with anc := [], reserved := [] } else u) }
/-- A joined child is no more. -/
def State.dropTask (s : State) (id : Nat) : State :=
  let s := (s.dropRev id).dropAnc id
  { s with tasks := s.tasks.filter (fun t => t.id != id) }

/-- Pages of retained ancestors of a launch that occupy storage (R35). -/
def State.ancestorPages (s : State) (launch : Nat) : Nat :=
  ((s.tasks.filter (fun t => t.launch == launch)).map (fun t => t.reserved.length)).sum

/-- The retained ancestors that a write of a task to a page makes real: its own, and those of its
unjoined children. -/
def State.reserving (s : State) (t : Task) (page : Nat) : List Nat :=
  (s.tasks.filter (fun u =>
    (u.parent == some t.id || (u.id == t.id && u.parent.isSome)) && !u.reserved.contains page)).map (·.id)

def State.reserve (s : State) (ids : List Nat) (page : Nat) : State :=
  { s with tasks := s.tasks.map (fun (u : Task) => if ids.contains u.id then { u with reserved := page :: u.reserved } else u) }

/-! ## Translating -/

/-- Where an access goes. -/
structure Phys where
  far : Bool
  addr : Nat
  home : Nat
deriving DecidableEq, Repr

/-- The place that a leaf of a level gives an address. -/
def physOf (va lvl e : Nat) : Phys :=
  { far := leafFar e, addr := leafFrame e * 65536 + va % levelBytes lvl, home := leafHome e }

/-! ## Bytes at a physical place -/

/-- Poison under a range of bytes: sectors are 64 bytes (R266). -/
def State.poisonAt (s : State) (far : Bool) (a n : Nat) : Option Poison :=
  s.poison.find? (fun q => q.lodgeOf.isNone && q.far == far && a / 64 ≤ q.sector && q.sector ≤ (a + n - 1) / 64)
/-- Poison in a Lodge: bytes are numbered from its bank 0. -/
def State.poisonLodge (s : State) (c a n : Nat) : Option Poison :=
  s.poison.find? (fun q => q.lodgeOf == some c && a / 64 ≤ q.sector && q.sector ≤ (a + n - 1) / 64)

/-- Bytes written with new check bits: a sector is clean when all of its bytes are rewritten (R265).
DEDUCED (log 35). -/
def clearBad (q : Poison) (a n : Nat) : Poison :=
  let lo := max a (q.sector * 64)
  let hi := min (a + n) (q.sector * 64 + 64)
  if lo < hi then
    { q with bad := q.bad &&& ~~~((BitVec.allOnes 64 >>> (64 - (hi - lo))) <<< (lo - q.sector * 64)) }
  else q
/-- DEDUCED (log 35). -/
def State.rewrite (s : State) (lodgeOf : Option Nat) (far : Bool) (a n : Nat) : State :=
  if s.poison.isEmpty then s
  else
    { s with poison := (s.poison.map (fun q =>
        if q.lodgeOf == lodgeOf && q.far == far then clearBad q a n else q)).filter (fun q => q.bad != 0) }

/-- The bytes of a range that are uncorrectable move with its data: what the destination reported is gone, and
what the source reports it reports (R265, R266). DEDUCED (log 35). -/
def State.movePoison (s : State) (src : Phys) (dst : Nat) (n : Nat) : State :=
  if s.poison.isEmpty then s
  else
    let carried := (s.poison.filter (fun q =>
      q.lodgeOf.isNone && q.far == src.far && src.addr / 64 ≤ q.sector && q.sector < (src.addr + n) / 64)).map (fun q =>
        { q with far := false, sector := q.sector - src.addr / 64 + dst / 64,
                 structure_ := if q.structure_ = 1 || q.structure_ = 2 then q.structure_
                   else BitVec.ofNat 4 (memStructure false (dst / 65536)) })
    { s with poison := s.poison.filter (fun q =>
        !(q.lodgeOf.isNone && !q.far && dst / 64 ≤ q.sector && q.sector < (dst + n) / 64)) ++ carried }

def State.bytesAt (s : State) (p : Phys) (n : Nat) : List Byte :=
  if p.far then memRead s.hostMem p.addr n else memRead s.mem p.addr n
def State.storeAt (s : State) (p : Phys) (bs : List Byte) : State :=
  let s := s.rewrite none p.far p.addr bs.length
  if p.far then { s with hostMem := memWrite s.hostMem p.addr bs }
  else { s with mem := memWrite s.mem p.addr bs }

/-- The bits of a line's sectors that a range of bytes touches. -/
def sectorBits (line a n : Nat) : BitVec 2 :=
  BitVec.ofBool (a < line * 128 + 128 && line * 128 + 64 < a + n) ++ BitVec.ofBool (a < line * 128 + 64 && line * 128 < a + n)

/-- Near memory whose frames are put to another use: no cache room holds a line of it. -/
def State.dropLines (s : State) (a n : Nat) : State :=
  { s with cores := s.cores.map (fun e =>
      (e.1, { e.2 with cache := e.2.cache.filter (fun l => l.far || l.line * 128 + 128 ≤ a || a + n ≤ l.line * 128) })) }

/-! ## Using the tables -/

/-- DEDUCED (log 19). -/
def liftWalk {α : Type} (f : State → Except XErr (α × State)) : X α := fun s => f s

/-- Allocate (R221): a zeroed frame from the accessing die's ring, then the leaf. -/
def allocate (miss : Option (Nat × Nat)) (die va addr lvl e : Nat) : X Nat := liftWalk fun s =>
  match s.ringTake die (3 - lvl) with
  | none => .error (.fault { xlate 3 va with miss := miss } true va)
  | some (f, s) =>
    let s := s.rewrite none false (f * 65536) (levelBytes lvl)
    let s := { s with mem := memZero s.mem (f * 65536) (levelBytes lvl) }
    -- V, frame, home, TIER 0, state NONE, refcount 1; size, W, COW and G as they were
    let e' := e / 2 ^ 63 * 2 ^ 63 + f * 65536 + 256 + die * 64 + leafSize e * 8 + bitsOf e 2 1 * 2 + 1
    .ok (e', (s.writeNear addr 8 e').tlbDropLeaf addr)

/-- A leaf as the caches hold it. -/
def tlbLeaf (sup : Bool) (va addr lvl e : Nat) : TlbEntry :=
  { place := .die 0, supervisor := sup, page := va / levelBytes lvl * (levelBytes lvl / 65536), level := lvl,
    leaf := w64 e, addr := addr }

/-- The leaf of a page table for an address, allocated if it is demand-zero; where a cached copy
differs, either is used (R228). -/
def tableWalk (v : View) (sup : Bool) (va : Nat) : X (Nat × Nat × Nat) := do
  let s ← get
  let cached := s.tlbLook v sup va
  match s.walk sup va with
  | .leaf a lvl e =>
    let now := tlbLeaf sup va a lvl e
    match cached with
    | some t =>
      if t.leaf = now.leaf && t.level = lvl then set (s.tlbUse v now); pure (a, lvl, e)
      else
        let (n, s) := s.choose 2
        if n = 1 then set (s.tlbUse v t); pure (t.addr, t.level, t.leaf.toNat)
        else set (s.tlbUse v now); pure (a, lvl, e)
    | none => set (s.tlbUse v now); pure (a, lvl, e)
  | .allocate a lvl e =>
    let miss := v.stream.bind TlbAt.missEvent
    let e' ← allocate miss v.die va a lvl e
    if malformed sup false e' lvl then X.walkFault miss 1 va
    modify (fun s => s.tlbUse v (tlbLeaf sup va a lvl e'))
    pure (a, lvl, e')
  | .bad r =>
    match cached with
    | some t =>
      let (n, s) := s.choose 2
      set s
      if n = 1 then set (s.tlbUse v t); pure (t.addr, t.level, t.leaf.toNat)
      else X.walkFault (v.stream.bind TlbAt.missEvent) r va
    | none => X.walkFault (v.stream.bind TlbAt.missEvent) r va
  | .absent a => X.fail (.stop (.absentTable a))

/-- Leaves that the unit moves or replicates return to NONE over the frames that they name; the frames taken for them
are released, and no cache room keeps a line of those (R228, R232). -/
def State.leavesBack (s : State) (fs : List MovedLeaf) : State :=
  fs.foldl (fun s f =>
    ((((s.writeNear f.addr 8 (putBits (s.readNear f.addr 8) 55 52 0)).tlbDropLeaf f.addr).dropLines (f.frame * 65536)
      (levelBytes f.level))).release f.frame) s

/-- The replica of a span is dropped before a write (R232). DESIGN CHOICE (log 32). -/
def State.dropReplica (s : State) (span : Nat) : State :=
  let s := s.leavesBack ((s.replicas.filter (fun m => m.span == span)).flatMap (fun m => m.frames))
  { s with replicas := s.replicas.filter (fun m => m.span != span) }

/-- A move that is under way is given up: what the span holds is where it was. DESIGN CHOICE (log 94). -/
def State.abandonMove (s : State) (span : Nat) : State :=
  let s := s.leavesBack ((s.moving.filter (fun m => m.span == span)).flatMap (fun m => m.frames))
  { s with moving := s.moving.filter (fun m => m.span != span) }

/-- The place of a read: an agent of a replica's die reads the replica (R232). -/
def State.replicaPlace (s : State) (die a : Nat) (p : Phys) (va lvl : Nat) : Phys :=
  match (s.replicas.filter (fun m => m.die.toNat == die)).findSome? (fun m => m.frames.find? (fun f => f.addr == a)) with
  | some f => { far := false, addr := f.frame * 65536 + va % levelBytes lvl, home := die }
  | none => p

/-- The flag of a span that has taken a write in the epoch (R230). -/
def State.noteWrite (s : State) (va : Nat) : State :=
  { s with written := if s.written.contains (va / 2 ^ 21) then s.written else (va / 2 ^ 21) :: s.written }

/-- An access through a leaf of the task table or the supervisor's table. -/
def throughTable (v : View) (va : Nat) (write : Bool) : X Phys := do
  let (a, lvl, e) ← tableWalk v v.sup va
  if leafState e = 2 then X.fail .wait
  if leafFar e && (← get).farGone.contains (leafFrame e + va % levelBytes lvl / 65536) then X.xlate 5 va
  if write then
    if !leafW e then X.fail (.fault (permission va) false va)
    if leafCow e then X.xlate 4 va
    if leafState e = 3 then modify (fun s => s.dropReplica (va / 2 ^ 21))
    if !v.sup then modify (fun s => s.noteWrite va)
    pure (physOf va lvl e)
  else if leafState e = 3 then pure ((← get).replicaPlace v.die a (physOf va lvl e) va lvl)
  else pure (physOf va lvl e)

/-- A near frame that holds a copy of a page: 64 KiB from a near or far place, with what of them is
uncorrectable. -/
def State.copyPage (s : State) (src : Phys) (f : Nat) : State :=
  let base := src.addr / 65536 * 65536
  let s := s.movePoison { src with addr := base } (f * 65536) 65536
  if src.far then
    { s with mem := memWrite s.mem (f * 65536) (memRead s.hostMem base 65536) }
  else { s with mem := memCopy s.mem base (f * 65536) 65536 }

/-- A private leaf: valid, writable, 64 KiB, refcount 1 (R223). DEDUCED (log 30). -/
def privateLeaf (f die : Nat) : Nat := f * 65536 + 256 + die * 64 + 3

/-- A write to a page of a task's revision makes the page the task's own (R28, R223, R225). -/
def ownPage (v : View) (t : Task) (va : Nat) (l : Option RevLeaf) (e : Nat) : X Nat := do
  let page := va / 65536
  let s ← get
  let ids := s.reserving t page
  let budget := ((s.launch? t.launch).map (fun l => l.req.budget / 65536)).getD 0
  if !v.exempt && !ids.isEmpty && budget < s.ancestorPages t.launch + ids.length then X.fail .wait
  let s := s.reserve ids page
  match l with
  | some l =>
    if !leafCow e then set s; pure e
    else if leafCount e = 1 && s.holdsCount t l then
      let e' := putBits e 2 2 0
      set (s.setRevLeaf t.id { l with leaf := w64 e' })
      pure e'
    else
      match s.ringTake v.die 0 with
      | none => X.xlate 3 va
      | some (f, s) =>
        let s := s.copyPage (physOf va 3 e) f
        let e' := privateLeaf f v.die
        let held := s.holdsCount t l
        let s := s.setRevLeaf t.id { page := page, leaf := w64 e' }
        set (if held then s.dropCount t.launch l else s)
        pure e'
  | none =>
    match s.ringTake v.die 0 with
    | none => X.xlate 3 va
    | some (f, s) =>
      let s := s.copyPage (physOf va 3 e) f
      let e' := privateLeaf f v.die
      set (s.setRevLeaf t.id { page := page, leaf := w64 e' })
      pure e'

/-- An access to a revisioned page of a task (R28): through its revision map, or through the launch
state's leaf until its first write. -/
def throughRevision (v : View) (t : Task) (va : Nat) (write : Bool) : X Phys := do
  match t.leafAt (va / 65536) with
  | some l =>
    let e := l.leaf.toNat
    if leafFar e && (← get).farGone.contains (leafFrame e) then X.xlate 5 va
    if write && !leafW e then X.fail (.fault (permission va) false va)
    let e ← if write then ownPage v t va (some l) e else pure e
    if write then modify (fun s => s.noteWrite va)
    modify (fun s => s.tlbUse v (tlbLeaf false va (revAddr t.id (va / 65536)) 3 e))
    pure (physOf va 3 e)
  | none =>
    let (a, lvl, e) ← tableWalk v false va
    if leafState e = 2 then X.fail .wait
    if leafFar e && (← get).farGone.contains (leafFrame e + va % levelBytes lvl / 65536) then X.xlate 5 va
    if write && !leafW e then X.fail (.fault (permission va) false va)
    if write then
      -- the copy is of the 64 KiB page, whatever the leaf's size
      let p := physOf va lvl e
      let own ← ownPage v t va none (putBits (putBits e 51 16 (p.addr / 65536)) 4 3 0)
      modify (fun s => s.noteWrite va)
      pure (physOf va 3 own)
    else if leafState e = 3 then pure ((← get).replicaPlace v.die a (physOf va lvl e) va lvl)
    else pure (physOf va lvl e)

/-- Translate (R214, R219, R250): faults per R233. DEDUCED (log 29). -/
def translate (v : View) (va : Nat) (write : Bool) : X Phys := do
  if 2 ^ 57 ≤ va then X.xlate 2 va
  let s ← get
  match v.task.bind s.task? with
  | some t => if s.revisioned v.task va then throughRevision v t va write else throughTable v va write
  | none => throughTable v va write

/-! ## The supervisor's register windows -/

/-- LODGECAP of a core (R150). -/
def Core.lodgecap (c : Core) : Word :=
  let n := ((List.range 48).filter (fun i => c.good.getLsbD i)).length
  w64 n ||| (c.good.zeroExtend 64 <<< 16)

/-- A launch queue register (R442). -/
def LaunchQueue.read (q : LaunchQueue) (off : Nat) : Word :=
  match off with
  | 0x00 => q.base
  | 0x08 => q.capacity
  | 0x10 => q.head
  | 0x18 => q.doorbell
  | 0x20 => (if q.stopped then 0x8000000000000000 else 0) ||| (q.cause.zeroExtend 64 <<< 32) ||| q.expected.zeroExtend 64
  | 0x28 => q.msi
  | _ => 0

/-- The counter block (R397). -/
def State.counterRead (s : State) (d off : Nat) : Word :=
  let x := s.die d
  match off with
  | 0x000 => x.fqBase
  | 0x008 => x.fqCapacity
  | 0x010 => x.fqHead
  | 0x018 => x.fqTail
  | 0x020 => x.dropped
  | 0x028 => x.nextSeq
  | 0x040 => x.energy
  | 0x048 => s.moduleEnergy
  | 0x050 => x.sags
  | 0x058 => x.l2mode
  | 0x060 => x.l2switches
  | 0x068 => x.watchdogs
  | 0x070 => x.katMismatches
  | 0x078 => x.snapshot
  | o =>
    if 0x080 ≤ o && o < 0x100 then
      let p := x.ecc[(o - 0x080) / 8]?.getD (0, 0)
      p.2 ++ p.1
    else if 0x100 ≤ o && o < 0x140 then
      let p := x.links[(o - 0x100) / 8]?.getD (0, 0)
      p.2 ++ p.1
    else 0

/-- The time status block (R451). -/
def State.timeRead (s : State) (off : Nat) : Word :=
  let t := s.timeStatus
  match off with
  | 0x00 => t.generation ++ t.state
  | 0x08 => t.offset
  | 0x10 => t.bound
  | 0x18 => BitVec.ofInt 64 t.rate
  | 0x20 => t.last
  | _ => 0

/-- An 8-byte read of a supervisor register (R151, R229, R362, R397, R441, R446, R452). -/
def State.windowRead (s : State) (a : Nat) : Word :=
  let d := (a - Config.window 0) / 0x10_0000
  let o := (a - Config.window 0) % 0x10_0000
  if o = 0 then (s.die d).txcmd
  else if o = 8 then s.taskRoot
  else if o = 16 then s.superRoot
  else if o = 0x1_0000 then (s.die d).taskcmd
  else if o = 0x1_0008 then (s.die d).sliceBase
  else if 0x1_1000 ≤ o && o < 0x1_2000 then s.counterRead d (o - 0x1_1000)
  else if 0x1_2000 ≤ o && o < 0x1_2200 then
    ((s.die d).queues[(o - 0x1_2000) / 64]?.getD LaunchQueue.reset).read (o % 64)
  else if 0x1_3000 ≤ o && o < 0x1_3040 then s.timeRead (o - 0x1_3000)
  else if a = Config.mgmtAt then s.mgmt
  else if a = Config.mgmtAt + 8 then s.powerLimit
  else if 0x1_4000 ≤ o && o < 0x1_4200 then
    let q := s.quad (64 * d + (o - 0x1_4000) / 8)
    q.arbNext.getD q.arbmode
  else if 0x1_4200 ≤ o && o < 0x1_4A00 then
    let c := s.core (256 * d + (o - 0x1_4200) / 8)
    w64 (bit c.disabled + 2 * bit (c.c0.mode != .free || c.c1.mode != .free))
  else 0

/-- DEDUCED (log 29). -/
def isWindow (p : Phys) : Bool := !p.far && windowFrame (p.addr / 65536)

/-! ## The Lodge's banks (R191 to R200, R210) -/

/-- The good banks of a room, ascending (R192). -/
def Core.banksOf (c : Core) (r : Room) : List Nat :=
  ((List.range 48).filter (fun i => c.good.getLsbD i)).filter (fun i => c.banks[i]?.getD .pad == r)

/-- The number, from the Lodge's bank 0, of the byte at an offset of a room whose banks follow one another: 64 KiB
to a bank (R196, R199). -/
def Core.lodgeByte (c : Core) (r : Room) (off : Nat) : Nat :=
  ((c.banksOf r)[off / 65536]?.getD 48) * 65536 + off % 65536

/-- The number of a byte of a row (R194): a group of eight REG banks, the group's i-th bank holding bytes
128 i to 128 i + 127 of a row at line r mod 512. -/
def Core.rowByte (c : Core) (r i : Nat) : Nat :=
  ((c.banksOf .reg)[8 * (r / 512) + i / 128]?.getD 48) * 65536 + 128 * (r % 512) + i % 128

/-- An uncorrectable sector of a Lodge as an access meets it: the consumer's to handle once; one in a line that
has been scrubbed takes the bank out (R210). A MATRIX bank is structure 11, any other structure 0 (R398). -/
def State.lodgeErr (s : State) (c va die : Nat) (q : Poison) : XErr :=
  if (s.core c).scrubbed.contains (q.sector / 2) then .fault (lodgeBank (q.sector / 1024)) false va
  else
    .poison { va := va, die := die, structure_ := if (s.core c).banks[q.sector / 1024]? == some .matrix then 11 else 0,
              transient := q.transient, lodge := some (c, q.sector) }

/-- The bytes of a Lodge are read: none of them is uncorrectable. -/
def lodgeCheck (c a n va die : Nat) : X Unit := do
  let s ← get
  match s.poisonLodge c a n with
  | some q => X.fail (s.lodgeErr c va die q)
  | none => pure ()

/-! ## Spill windows (R200, R201) -/

/-- The number of a window byte in the spill store, counted down from the window's top. -/
def spillKey (x : Context) (va : Nat) : Nat := 0x400000 + va - (x.spovf.toNat + x.splim.toNat)
/-- Inside the spill window. -/
def Context.inWindow (x : Context) (va : Nat) : Bool :=
  x.spovf.toNat ≤ va && va < x.spovf.toNat + x.splim.toNat
/-- Served by the context's half of the SPILL room. -/
def Core.inSpill (c : Core) (k : Bool) (va : Nat) : Bool :=
  let x := c.ctx k
  x.inWindow va && x.spovf.toNat + x.splim.toNat ≤ va + 32768 * c.rooms.spill
/-- The number, from the Lodge's bank 0, of a window byte that the room serves: each context has a half of the
room (R200). -/
def Core.spillByte (c : Core) (k : Bool) (va : Nat) : Nat :=
  let x := c.ctx k
  let size := 32768 * c.rooms.spill
  c.lodgeByte .spill (bit k * size + (va + size - (x.spovf.toNat + x.splim.toNat)))
def Core.spill (c : Core) (k : Bool) : Store := if k then c.spill1 else c.spill0
def Core.setSpill (c : Core) (k : Bool) (st : Store) : Core :=
  if k then { c with spill1 := st } else { c with spill0 := st }

/-! ## Stash segments (R197) -/

def Core.stashAt (c : Core) (va : Nat) : Option Stash := c.stash.find? (fun m => m.va == va / 4096 * 4096)
def Core.setStash (c : Core) (m : Stash) : Core :=
  { c with stash := c.stash.map (fun n => if n.seg == m.seg then m else n) }

/-- The place in memory of a segment's mapped page, in the mapping context's view. -/
def State.stashPlace (s : State) (c : Nat) (m : Stash) : Option Phys :=
  match (translate (s.view c m.context).bare m.va false).run s with
  | .ok (p, _) => some p
  | .error _ => none

/-- The dirty sectors of a mapping, written back through the mapping context's view, with what of them is
uncorrectable; a sector that cannot be translated stays dirty. DEDUCED (log 34). -/
def State.writeBack (s : State) (c : Nat) (m : Stash) (sectors : List Nat) : State :=
  sectors.foldl (fun s i =>
    let core := s.core c
    match core.stash.find? (fun n => n.seg == m.seg) with
    | none => s
    | some n =>
      if !n.dirty.getLsbD i then s
      else
        match (translate (s.view c n.context).bare (n.va + 64 * i) true).run s with
        | .ok (p, s') =>
          let s' := s'.storeAt p (core.pad.read (n.seg * 4096 + 64 * i) 64)
          let s' := match s'.poisonLodge c (core.lodgeByte .pad (n.seg * 4096 + 64 * i)) 64 with
            | some q =>
              let b : Poison :=
                { lodgeOf := none, far := p.far, sector := p.addr / 64, bad := q.bad, transient := false,
                  structure_ := BitVec.ofNat 4 (memStructure p.far (p.addr / 65536)) }
              { s' with poison := b :: s'.poison }
            | none => s'
          s'.setCore c ((s'.core c).setStash { n with dirty := n.dirty &&& ~~~(1#64 <<< i) })
        | .error _ => s) s

/-- A sector of a mapping is recalled: it is written back and refills on its next touch. -/
def State.recallSector (s : State) (c seg i : Nat) : State :=
  match (s.core c).stash.find? (fun n => n.seg == seg) with
  | none => s
  | some m =>
    let s := s.writeBack c m [i]
    match (s.core c).stash.find? (fun n => n.seg == seg) with
    | none => s
    | some m =>
      if m.dirty.getLsbD i then s
      else s.setCore c ((s.core c).setStash { m with filled := m.filled &&& ~~~(1#64 <<< i) })

/-- The sector of a core's segments that an address names is recalled. DESIGN CHOICE (log 32). -/
def State.recall (s : State) (c : Nat) (va : Nat) : State :=
  match (s.core c).stashAt va with
  | none => s
  | some m => s.recallSector c m.seg (va % 4096 / 64)

/-- An access of an agent to a place of memory: the L2 directory recalls the sectors that the segments of other
agents hold of it (R197), the segment that serves the access apart. DESIGN CHOICE (log 32). -/
def State.recallAt (s : State) (serving : Option (Nat × Nat)) (p : Phys) (n : Nat) : State :=
  s.cores.foldl (fun s e =>
    (s.core e.1).stash.foldl (fun s m =>
      if m.filled = 0 || serving == some (e.1, m.seg) then s
      else
        match s.stashPlace e.1 m with
        | none => s
        | some q =>
          if q.far == p.far && p.addr < q.addr + 4096 && q.addr < p.addr + n then
            let lo := (max p.addr q.addr - q.addr) / 64
            let hi := (min (p.addr + n) (q.addr + 4096) - 1 - q.addr) / 64
            ((List.range (hi + 1 - lo)).filter (fun i => m.filled.getLsbD (lo + i))).foldl
              (fun s i => s.recallSector e.1 m.seg (lo + i)) s
          else s) s) s

/-- The segment that serves a view's access to an address. -/
def State.servedBy (s : State) (v : View) (va : Nat) : Option (Nat × Stash) :=
  v.core.bind (fun c => ((s.core c).stashAt va).map (fun m => (c, m)))

/-- The sector of a mapping that an access touches is filled from memory; a write fills an uncorrectable one
too, which stays so in the segment but for the bytes written (R265). DEDUCED (log 35). -/
def fillSector (write : Bool) (c seg va at_ : Nat) (p : Phys) : X Unit := do
  let s ← get
  match (s.core c).stash.find? (fun m => m.seg == seg) with
  | none => pure ()
  | some m =>
    let i := va % 4096 / 64
    if m.filled.getLsbD i then pure ()
    else
      let q : Phys := { p with addr := p.addr / 64 * 64 }
      let bad := s.poisonAt q.far q.addr 64
      match bad with
      | some b =>
        if !write then
          X.fail (.poison { va := at_, die := p.home, structure_ := b.structure_.toNat, transient := b.transient })
      | none => pure ()
      let core := s.core c
      let there := core.lodgeByte .pad (seg * 4096 + 64 * i)
      let s := s.rewrite (some c) false there 64
      let s := match bad with
        | some b =>
          let b : Poison := { b with lodgeOf := some c, far := false, sector := there / 64, transient := false, structure_ := 0 }
          { s with poison := b :: s.poison }
        | none => s
      set (s.setCore c { core.setStash { m with filled := m.filled ||| (1#64 <<< i) } with
          pad := core.pad.write (m.seg * 4096 + 64 * i) (s.bytesAt q 64) })

/-- Both sectors that an access of `n` bytes may touch. -/
def fillBoth (write : Bool) (c seg va n : Nat) (p : Phys) : X Unit := do
  fillSector write c seg va va p
  fillSector write c seg (va + n - 1) va { p with addr := p.addr + (n - 1) }

/-! ## The cache room (R198) -/

/-- Another agent's access: a read cleans what it finds dirty, a write takes the sectors away. -/
def CacheLine.other (far : Bool) (a n : Nat) (write : Bool) (l : CacheLine) : CacheLine :=
  let b := if l.far == far then sectorBits l.line a n else 0
  { l with valid := if write then l.valid &&& ~~~b else l.valid, dirty := l.dirty &&& ~~~b }

/-- What an access to memory does to the cache rooms of the cores other than the one that makes it: the
L2 directory keeps them coherent. -/
def State.cacheOthers (s : State) (core : Option Nat) (p : Phys) (n : Nat) (write : Bool) : State :=
  { s with cores :=
      if s.cores.all (fun e => some e.1 == core || e.2.cache.isEmpty) then s.cores else s.cores.map (fun e =>
      if some e.1 == core || e.2.cache.isEmpty then e
      else (e.1, { e.2 with cache := (e.2.cache.map (CacheLine.other p.far p.addr n write)).filter (fun l => l.valid != 0) })) }

/-- A core's own access through its cache room: the line's set is bits 15–7 of its address, each bank a way; a
miss takes a free way, or one that the module chooses. DESIGN CHOICE (log 32). -/
def State.cacheTouch (s : State) (c : Nat) (p : Phys) (n : Nat) (write : Bool) : State :=
  let core := s.core c
  let ways := core.banksOf .cache
  let line := p.addr / 128
  let b := sectorBits line p.addr n
  let note (l : CacheLine) : CacheLine :=
    { l with valid := l.valid ||| b, dirty := if write then l.dirty ||| b else l.dirty }
  let here (l : CacheLine) : Bool := l.far == p.far && l.line == line
  let used := (core.cache.filter (fun l => l.line % 512 == line % 512)).map (fun l => l.bank)
  let free := ways.find? (fun w => !used.contains w)
  let chosen := if ways.isEmpty || core.cache.any here || free.isSome then (0, s) else s.choose ways.length
  let bank := free.getD (ways[chosen.1]?.getD 0)
  { s with
    choices := chosen.2.choices,
    cores :=
      if ways.isEmpty then s.cores
      else if core.cache.any here then
        setKey c { core with cache := core.cache.map (fun l => if here l then note l else l) } s.cores
      else
        setKey c (Core.count { core with
          cache := note { bank := bank, far := p.far, line := line, valid := 0, dirty := 0 } ::
            core.cache.filter (fun l => !(l.bank == bank && l.line % 512 == line % 512)) } 0x0A 1) s.cores }

/-- An access that memory serves. -/
def State.cached (s : State) (v : View) (p : Phys) (n : Nat) (write : Bool) : State :=
  let t := s.cacheOthers v.core p n write
  match v.core with
  | some c => t.cacheTouch c p n write
  | none => t

/-- The line of a core's cache room that holds a place. -/
def Core.lineAt (c : Core) (p : Phys) : Option CacheLine := c.cache.find? (fun l => l.far == p.far && l.line == p.addr / 128)
/-- The number of the Lodge sector that holds a sector of a line: its bank, its set (R198). -/
def CacheLine.lodgeSector (l : CacheLine) (i : Nat) : Nat := 1024 * l.bank + 2 * (l.line % 512) + i

/-- The Lodge sectors of a core's cache room after an access that took the state from `s` to `t`: a sector that has
been filled carries new check bits, and so do bytes that have been written (R191, R265). DEDUCED (log 35). -/
def State.cacheChecks (s t : State) (v : View) (p : Phys) (n : Nat) (write : Bool) : State :=
  if t.poison.isEmpty then t
  else
    match v.core.bind (fun c => ((t.core c).lineAt p).map (fun l => (c, l))) with
    | none => t
    | some (c, l) =>
      let old : BitVec 2 := (((s.core c).lineAt p).map (fun m => if m.bank = l.bank then m.valid else 0)).getD 0
      let fresh (k : Nat) : Bool := (List.range 2).any (fun i => k == l.lodgeSector i && l.valid.getLsbD i && !old.getLsbD i)
      let kept := t.poison.filter (fun q => !(q.lodgeOf == some c && fresh q.sector))
      { t with poison :=
          if write then
            (kept.map (fun q =>
              if q.lodgeOf == some c then clearBad q (64 * l.lodgeSector 0 + p.addr % 128) n else q)).filter (fun q =>
                q.lodgeOf != some c || q.bad != 0)
          else kept }

/-- The uncorrectable sector of a cache line that an access would be served from (R210). -/
def State.cachePoison (s : State) (v : View) (p : Phys) (n : Nat) : Option (Nat × Poison) :=
  if s.poison.isEmpty then none
  else
    v.core.bind (fun c => ((s.core c).lineAt p).bind (fun l =>
      (s.poisonLodge c (64 * l.lodgeSector 0 + p.addr % 128) n).map (fun q => (c, q))))

/-- The cache room of a core holds the sector at a place (R434). -/
def Core.cacheHit (c : Core) (p : Phys) : Bool :=
  c.cache.any (fun l => l.far == p.far && l.line == p.addr / 128 && l.valid.getLsbD (p.addr / 64 % 2))

/-! ## Reads and writes of global addresses -/

/-- A byte with one of its nibbles replaced. -/
def putNibble (b : Byte) (high : Bool) (v : BitVec 4) : Byte :=
  if high then v ++ b.extractLsb' 0 4 else b.extractLsb' 4 4 ++ v

/-- The bytes of held stores over those of memory (R211, R251). -/
def overlayStore (va : Nat) (bs : List Byte) (e : ElemStore) : List Byte :=
  match e with
  | .pad .. => bs
  | .padNib .. => bs
  | .mem a w => bs.zipIdx.map (fun b =>
      if a ≤ va + b.2 && va + b.2 < a + w.length then w[va + b.2 - a]?.getD b.1 else b.1)
  | .memNib a hi v => bs.zipIdx.map (fun b => if va + b.2 = a then putNibble b.1 hi v else b.1)
  | .scale a l =>
    if va ≤ a && a + 64 ≤ va + bs.length then
      bs.take (a - va) ++ setScales ((bs.drop (a - va)).take 64) l ++ bs.drop (a - va + 64)
    else bs.zipIdx.map (fun b =>
      ((l.find? (fun p => a + p.1 == va + b.2)).map (fun p => p.2)).getD b.1)
def Context.overlay (x : Context) (va : Nat) (bs : List Byte) : List Byte :=
  x.holdList.foldl (fun bs h => h.stores.foldl (overlayStore va) bs) bs

/-- A store of the context is parked on the page of an address (R237). -/
def parkedOn (e : ElemStore) (va : Nat) : Bool :=
  match e with
  | .mem a _ | .memNib a _ _ | .scale a _ => a / 65536 == va / 65536
  | .pad .. | .padNib .. => false
def Core.parkedPage (c : Core) (k : Bool) (va : Nat) : Bool :=
  c.replay.any (fun p => p.context == k && p.stores.any (fun e => parkedOn e va))

/-- What a context's own held stores make of bytes read (R251). -/
def State.seen (s : State) (v : View) (va : Nat) (bs : List Byte) : List Byte :=
  match v.ctx with
  | some (c, k) => (s.ctx c k).overlay va bs
  | none => bs

/-- A core with the SPILL room as a view sees it. -/
def View.roomed (v : View) (c : Core) : Core :=
  match v.spill with
  | some n => { c with rooms := { c.rooms with spill := n } }
  | none => c

/-- The context whose half of the spill room serves a view's access. -/
def State.spillOf (s : State) (v : View) (va : Nat) : Option (Nat × Bool) :=
  v.ctx.bind (fun x => if (v.roomed (s.core x.1)).inSpill x.2 va then some x else none)

/-- A store of the view's context is parked on the page (R237). -/
def State.parkedOn (s : State) (v : View) (va : Nat) : Bool :=
  match v.ctx with
  | some (c, k) => (s.core c).parkedPage k va
  | none => false

/-- Reads `n` bytes that do not cross a page: from the spill room, a stash segment, or memory through the cache
room (R250). DEDUCED (log 29); DESIGN CHOICE (log 72). -/
def readVa (v : View) (va n : Nat) : X (List Byte) := do
  if (← get).parkedOn v va then X.fail .wait
  let p ← translate v va false
  let s ← get
  match s.spillOf v va with
  | some (c, k) =>
    lodgeCheck c ((v.roomed (s.core c)).spillByte k va) n va v.die
    pure (((s.core c).spill k).read (spillKey (s.ctx c k) va) n)
  | none =>
    if isWindow p then return leBytes n ((s.windowRead (p.addr / 8 * 8)).toNat / 2 ^ (8 * (p.addr % 8)))
    match s.servedBy v va with
    | some (c, m) =>
      set (s.recallAt (some (c, m.seg)) p n)
      fillBoth false c m.seg va n p
      let core := (← get).core c
      lodgeCheck c (core.lodgeByte .pad (m.seg * 4096 + va % 4096)) n va v.die
      pure (s.seen v va (core.pad.read (m.seg * 4096 + va % 4096) n))
    | none =>
      let s := s.recallAt none p n
      match s.poisonAt p.far p.addr n with
      | some q => X.fail (.poison { va := va, die := p.home, structure_ := q.structure_.toNat, transient := q.transient })
      | none =>
        let t := s.cacheChecks (s.cached v p n false) v p n false
        match t.cachePoison v p n with
        | some (c, q) => X.fail (t.lodgeErr c va v.die q)
        | none =>
          set t
          pure (s.seen v va (s.bytesAt p n))

/-- Revisioned regions cover every byte of a range; as many regions as the fuel are tried, one after another. -/
def revisionedRange (rs : List Region) : Nat → Nat → Nat → Bool
  | 0, lo, hi => hi ≤ lo
  | n + 1, lo, hi =>
    hi ≤ lo ||
      (match regionAt rs lo with
      | some (_, g) => g.merge != 0 && revisionedRange rs n (g.base + g.size) hi
      | none => false)

/-- A range takes in a LIVE byte. -/
def State.liveRange (s : State) (task : Option Nat) (r : Range) : Bool :=
  let rs := s.taskRegions task
  r.padOf.isNone && !revisionedRange rs rs.length r.lo r.hi

/-- A context's write to a LIVE location sets its escape bit (R411). -/
def State.escapeOn (s : State) (v : View) (va : Nat) : State :=
  match v.ctx with
  | some (c, k) =>
    let x := s.ctx c k
    s.setCtx c k { x with escape := x.escape || !(s.revisioned v.task va || v.sup) }
  | none => s

/-- Bytes written into a Lodge carry new check bits. -/
def State.putSpill (s : State) (v : View) (c : Nat) (k : Bool) (va : Nat) (bs : List Byte) : State :=
  let core := s.core c
  (s.rewrite (some c) false ((v.roomed core).spillByte k va) bs.length).setCore c
    (core.setSpill k ((core.spill k).write (spillKey (s.ctx c k) va) bs))

/-- Bytes written into a stash segment: the sectors are dirty (R197). -/
def State.putStash (s : State) (c seg va : Nat) (bs : List Byte) : State :=
  let core := s.core c
  match core.stash.find? (fun m => m.seg == seg) with
  | none => s
  | some m =>
    let d := (1#64 <<< (va % 4096 / 64)) ||| (1#64 <<< ((va + bs.length - 1) % 4096 / 64))
    (s.rewrite (some c) false (core.lodgeByte .pad (seg * 4096 + va % 4096)) bs.length).setCore c
      { core.setStash { m with dirty := m.dirty ||| d } with pad := core.pad.write (seg * 4096 + va % 4096) bs }

/-- Writes bytes that do not cross a page: to the spill room, a stash segment, or memory through the cache room
(R250). DEDUCED (log 29); DESIGN CHOICE (log 72). -/
def writeVa (v : View) (va : Nat) (bs : List Byte) : X Unit := do
  let p ← translate v va true
  let s ← get
  match s.spillOf v va with
  | some (c, k) => set (s.putSpill v c k va bs)
  | none =>
    if isWindow p then
      if bs.length = 8 then set { s with agenda := .reg p.addr (w64 (leNat bs)) :: s.agenda }
    else
      match s.servedBy v va with
      | some (c, m) =>
        set (s.recallAt (some (c, m.seg)) p bs.length)
        fillBoth true c m.seg va bs.length p
        modify (fun s => (s.putStash c m.seg va bs).escapeOn v va)
      | none =>
        let s := s.recallAt none p bs.length
        let t := s.cacheChecks (s.cached v p bs.length true) v p bs.length true
        set ((t.storeAt p bs).escapeOn v va)

/-- The view in which an atomic acts: the spill room, the task's own revision past held stores, or a LIVE
location's home, with every core's copies recalled (R248, R256). -/
def State.homeView (s : State) (v : View) (va : Nat) : View :=
  if (s.spillOf v va).isSome then v
  else if s.revisioned v.task va then { v with ctx := none }
  else { v with ctx := none, core := none, recs := v.recCore }

/-- An atomic on a LIVE location is performed at its home: before it, this core's copies of the line, in its cache room
and its segments, are recalled (R256). DESIGN CHOICE (log 32): other cores' segments give up the whole line too. -/
def State.recallHome (s : State) (v : View) (va : Nat) (p : Phys) : State :=
  if (s.spillOf v va).isSome || s.revisioned v.task va then s
  else
    match v.core with
    | none => s
    | some c =>
      let s := s.recallAt none { p with addr := p.addr / 128 * 128 } 128
      let core := s.core c
      s.setCore c { core with cache := core.cache.filter (fun l => !(l.far == p.far && l.line == p.addr / 128)) }

/-- An atomic on a LIVE location makes its context's phase ineligible for cancellation, and sets its escape bit
(R212, R411). -/
def State.atomicMark (s : State) (v : View) (va : Nat) : State :=
  if (s.spillOf v va).isSome || s.revisioned v.task va then s
  else
    match v.ctx with
    | some (c, k) =>
      let x := s.ctx c k
      (s.setCtx c k { x with phaseIneligible := x.phaseIneligible || (x.phase && v.inPhase) }).escapeOn v va
    | none => s

/-- Bytes that may cross pages and sectors, in ascending address: the pieces up to each 64-byte line. -/
def piecesFrom (a : Nat) : Nat → Nat → List (Nat × Nat)
  | _, 0 => []
  | 0, _ => []
  | n, fuel + 1 =>
    let m := min n (64 - a % 64)
    (a, m) :: piecesFrom (a + m) (n - m) fuel
def pieces (a n : Nat) : List (Nat × Nat) := piecesFrom a n (n / 64 + 2)

/-- Reads any number of bytes, line by line. -/
def readLong (v : View) (va n : Nat) : X (List Byte) := do
  let parts ← (pieces va n).mapM (fun p => readVa v p.1 p.2)
  pure parts.flatten

/-- Writes any number of bytes, line by line, behind stores of the context that are parked on their pages (R237). -/
def writeLong (v : View) (va : Nat) (bs : List Byte) : X Unit :=
  (pieces va bs.length).forM (fun p => do
    if (← get).parkedOn v p.1 then X.fail .wait
    writeVa v p.1 ((bs.drop (p.1 - va)).take p.2))

/-! ## The sequencer's own accesses -/

/-- A sequencer access: every fault is precise, poison faults ECC_UNCORR (R234, R266). -/
def seqX {α : Type} (m : X α) : M α := fun s =>
  match m.run s with
  | .ok r => .ok r
  | .error (.fault t _ _) => .error (.trap t)
  | .error (.poison u) => .error (.poison u true)
  | .error .wait => .error .wait
  | .error (.stop f) => .error (.stop f)

end Sys2Proof.Machine
end

