-- ==== Sys2Proof/Machine/Operands.lean ====
section
/-! DEFINITION. Operands of engine-routed instructions: element formats and widths, rows as lists of
elements, guards, what an instruction names and takes when it is routed, and what it reads when it
starts (R119, R120, R123, R139, R140, R148, R155, R259, R276, R278). -/

namespace Sys2Proof

/-! ## What an instruction names (R120, R155) -/

def VSrc.ops : VSrc → List VOp
  | .op o => [o]
  | .lit _ => []
def VOff.xs : VOff → List XReg
  | .reg x => [x]
  | .imm _ => []

/-- The header of a standard vector instruction. -/
def Instr.vhdr? : Instr → Option VHdr
  | .vadd h .. | .vsub h .. | .vmul h .. | .vfma h .. | .vfms h .. | .vmin h .. | .vmax h .. | .vabs h ..
  | .vneg h .. | .vcmp h .. | .vsel h .. | .vcpy h .. | .viadd h .. | .visub h .. | .vimul h ..
  | .vimulh h .. | .vimin h .. | .vimax h .. | .vand h .. | .vor h .. | .vxor h .. | .vandn h ..
  | .vsll h .. | .vsrl h .. | .vsra h .. | .vrol h .. | .vpopc h .. | .vclz h .. | .vctz h ..
  | .vfnsb h .. | .vbrev h .. | .vicmp h .. | .vcvt h .. | .vqnt h .. | .vdqnt h .. | .vpack h ..
  | .vunpack h .. | .vscale h .. | .vrsum h .. | .vrmax h .. | .vrmin h .. | .vshuf h .. | .vbcast h ..
  | .vrot h .. | .vslide h .. | .vrcp h .. | .vrsq h .. | .vsqrt h .. | .vexp2 h .. | .vlog2 h ..
  | .vtanh h .. | .vaccmul h .. | .vaccadd h .. | .vnorm h .. | .vaccrd h .. | .vaccz h .. => some h
  | _ => none

/-- The operands of a vector memory instruction. -/
def Instr.vmem? : Instr → Option VMem
  | .vld m .. | .vst m .. | .vlds m .. | .vsts m .. | .vgather m .. | .vscatter m .. | .vldx m ..
  | .vpref m => some m
  | _ => none

/-- The token bits of an engine-routed instruction. -/
def Instr.tok (i : Instr) : Tok :=
  match i.vhdr?, i.vmem? with
  | some h, _ => h.tok
  | none, some m => m.tok
  | none, none =>
    match i with
    | .tlease t .. | .trel t .. | .tldt t .. | .tzero t .. | .tmma t .. | .tmmaa t .. | .tstt t ..
    | .abound t .. | .arelax t .. | .arelaxBilinear t .. | .asym t .. | .aret t .. | .acond t ..
    | .aalign t .. | .achk t .. | .atbl t .. | .kati t .. | .katc t .. => t
    | .tdrain a => a.tok
    | _ => Tok.zero

/-- The guard register. -/
def Instr.guardReg (i : Instr) : PReg :=
  match i.vhdr?, i.vmem? with
  | some h, _ => h.guard
  | none, some m => m.guard
  | none, none => 0

/-- The queue that an engine-routed instruction goes to (R125). -/
def Instr.queue? (i : Instr) : Option QName :=
  match i with
  | .vld .. | .vlds .. | .vgather .. | .vldx .. | .vpref .. | .tldt .. => some .lq
  | .vst .. | .vsts .. | .vscatter .. | .tstt .. => some .sq
  | .tlease .. | .trel .. | .tzero .. | .tmma .. | .tmmaa .. | .tdrain .. | .abound .. | .arelax ..
  | .arelaxBilinear .. | .asym .. | .aret .. | .acond .. | .aalign .. | .achk .. | .atbl ..
  | .kati .. | .katc .. => some .cq
  | i => if i.vhdr?.isSome then some .cq else none

/-- Row N + k of an accumulator or a row pair. -/
def rowsFrom (n : BitVec 8) (k : Nat) : List VOp := (List.range k).map (fun i => .row (n + BitVec.ofNat 8 i))

/-- The source operands of a vector instruction. -/
def Instr.srcOps : Instr → List VOp
  | .vadd _ _ a b | .vsub _ _ a b | .vmul _ _ a b | .vmin _ _ a b | .vmax _ _ a b | .vcmp _ _ _ a b
  | .vsel _ _ a b | .viadd _ _ a b | .visub _ _ a b | .vimul _ _ a b | .vimulh _ _ a b | .vimin _ _ a b
  | .vimax _ _ a b | .vand _ _ a b | .vor _ _ a b | .vxor _ _ a b | .vandn _ _ a b | .vsll _ _ a b
  | .vsrl _ _ a b | .vsra _ _ a b | .vrol _ _ a b | .vfnsb _ _ a b | .vicmp _ _ _ a b
  | .vscale _ _ a b | .vrot _ _ a b | .vslide _ _ a b => a :: VSrc.ops b
  | .vfma _ d a b c | .vfms _ d a b c => [a, b, c.getD d]
  | .vabs _ _ a | .vneg _ _ a | .vpopc _ _ a | .vclz _ _ a | .vctz _ _ a | .vbrev _ _ a
  | .vcvt _ _ a _ _ | .vunpack _ _ a _ | .vrsum _ _ a | .vrmax _ _ a | .vrmin _ _ a
  | .vbcast _ _ a _ | .vrcp _ _ a | .vrsq _ _ a | .vsqrt _ _ a | .vexp2 _ _ a | .vlog2 _ _ a
  | .vtanh _ _ a => [a]
  | .vcpy _ _ a => VSrc.ops a
  | .vqnt _ d a _ => a :: (match d with | .row n => rowsFrom (n + 1) 1 | _ => [])
  | .vdqnt _ _ a _ => (match a with | .row n => rowsFrom n 2 | o => [o])
  | .vpack _ _ a b | .vshuf _ _ a b => [a, b]
  | .vaccmul _ n a b => a :: VSrc.ops b ++ rowsFrom n 3
  | .vaccadd _ n a => VSrc.ops a ++ rowsFrom n 3
  | .vnorm _ n => rowsFrom n 3
  | .vaccrd _ _ n _ => rowsFrom n 3
  | .vst _ v | .vsts _ v _ => [v]
  | .vscatter _ v i _ => [v, i]
  | .vgather _ _ i _ => [i]
  | _ => []

/-- The destination operands. -/
def Instr.dstOps : Instr → List VOp
  | .vadd _ d .. | .vsub _ d .. | .vmul _ d .. | .vfma _ d .. | .vfms _ d .. | .vmin _ d .. | .vmax _ d ..
  | .vabs _ d .. | .vneg _ d .. | .vsel _ d .. | .vcpy _ d .. | .viadd _ d .. | .visub _ d .. | .vimul _ d ..
  | .vimulh _ d .. | .vimin _ d .. | .vimax _ d .. | .vand _ d .. | .vor _ d .. | .vxor _ d .. | .vandn _ d ..
  | .vsll _ d .. | .vsrl _ d .. | .vsra _ d .. | .vrol _ d .. | .vpopc _ d .. | .vclz _ d .. | .vctz _ d ..
  | .vfnsb _ d .. | .vbrev _ d .. | .vcvt _ d .. | .vdqnt _ d .. | .vpack _ d .. | .vunpack _ d ..
  | .vscale _ d .. | .vrsum _ d .. | .vrmax _ d .. | .vrmin _ d .. | .vshuf _ d .. | .vbcast _ d ..
  | .vrot _ d .. | .vslide _ d .. | .vrcp _ d .. | .vrsq _ d .. | .vsqrt _ d .. | .vexp2 _ d .. | .vlog2 _ d ..
  | .vtanh _ d .. | .vaccrd _ d .. => [d]
  | .vqnt _ d _ _ => (match d with | .row n => rowsFrom n 2 | o => [o])
  | .vaccmul _ n .. | .vaccadd _ n .. | .vnorm _ n | .vaccz _ n _ => rowsFrom n 3
  | .vld _ v | .vlds _ v _ | .vgather _ v _ _ | .vldx _ v => [v]
  | _ => []

/-- x registers that an engine-routed instruction takes (R155). -/
def Instr.takesX (i : Instr) : List XReg :=
  let ops := (i.srcOps.filterMap (fun o => match o with | .bcast x => some x | _ => none))
  let off := (i.vmem?.map (fun m => VOff.xs m.off)).getD []
  ops ++ off ++
  (match i with
  | .vqnt _ _ _ x | .vdqnt _ _ _ x | .vbcast _ _ _ x | .vaccz _ _ x | .vlds _ _ x | .vsts _ _ x
  | .acond _ _ x | .atbl _ x _ _ => [x]
  | .tldt _ _ _ _ _ _ x | .tstt _ _ _ x => [x]
  | .tdrain a => [a.xo]
  | _ => [])

/-- The scalar register that the sequencer writes without an access of memory, and those that it computes it from. -/
def Instr.computes? : Instr → Option (XReg × List XReg)
  | .add d a b | .sub d a b | .and d a b | .or d a b | .xor d a b | .andn d a b | .orn d a b | .xnor d a b
  | .sll d a b | .srl d a b | .sra d a b | .rol d a b | .ror d a b | .mul d a b | .wmuls d a b | .wmulu d a b
  | .wmulm d a b | .div d a b | .divu d a b | .rem d a b | .remu d a b | .min d a b | .max d a b | .minu d a b
  | .maxu d a b | .slt d a b | .sltu d a b | .seq d a b | .sne d a b | .fnsb d a b | .bext d a b
  | .addw d a b | .subw d a b => some (d, [a, b])
  | .bins d a b => some (d, [d, a, b])
  | .clz d a | .ctz d a | .popc d a | .brev d a | .bytr d a => some (d, [a])
  | .addi d a _ | .andi d a _ | .ori d a _ | .xori d a _ | .slti d a _ | .sltiu d a _ => some (d, [a])
  | .slli d a _ | .srli d a _ | .srai d a _ | .rori d a _ => some (d, [a])
  | .li d _ | .hget d _ _ | .srr d _ | .jal d _ | .jalr d _ _ | .pcnt d _ | .pfirst d _ | .evpop d | .evpeek d
  | .lrqry d _ => some (d, [])
  | .lih d _ => some (d, [d])
  | _ => none

/-- Handles that it takes. -/
def Instr.takesH : Instr → List HReg
  | .vld m .. | .vst m .. | .vlds m .. | .vsts m .. | .vgather m .. | .vscatter m .. | .vldx m ..
  | .vpref m => [m.h]
  | .tldt _ _ _ _ _ h _ | .tstt _ _ h _ => [h]
  | .tdrain a => [a.hd, a.hr, a.hv]
  | .abound _ d a b | .arelaxBilinear _ d a b | .aalign _ _ d a b => [d, a, b]
  | .arelax _ d a b c _ | .achk _ d a b c => [d, a, b, c]
  | .asym _ d => [d]
  | .aret _ a | .acond _ a _ => [a]
  | _ => []

/-- The predicate that a compare writes. -/
def Instr.writesP : Instr → Option PReg
  | .vcmp _ pd .. | .vicmp _ pd .. => some pd
  | _ => none

/-- Some operand names a row (R140). -/
def Instr.namesRow (i : Instr) : Bool :=
  (i.srcOps ++ i.dstOps).any (fun o => match o with | .row _ => true | _ => false)

end Sys2Proof

namespace Sys2Proof.Machine

/-! ## Element formats (R119, R276) -/

/-- A type as an instruction sees it: element bits, and a float format or a signedness. -/
structure Elt where
  bits : Nat
  fp : Option FFmt
  uns : Bool
deriving DecidableEq, Repr

def Elt.int (bits : Nat) (uns : Bool) : Elt := { bits := bits, fp := none, uns := uns }
def Elt.float (bits : Nat) (f : FFmt) : Elt := { bits := bits, fp := some f, uns := false }

/-- The value that a code stands for. -/
def Elt.value (e : Elt) (x : Nat) : FVal :=
  match e.fp with
  | none => FVal.ofDy (Dy.ofInt (intVal e.uns e.bits x)) false
  | some f => f.decode (x % 2 ^ f.width)

/-- The width of an NF register's elements, valid or not: 4 bits, else 8. -/
def nfWidth (w : BitVec 32) : Nat := if w.extractLsb' 20 4 = 4 then 4 else 8

/-- The element format of a type; ILLEGAL, naming the register, where an NF register is invalid (R52).
DEDUCED (log 16, 17). -/
def eltOf (nf : Vector (BitVec 32) 4) (t : VTy) : Except Trap Elt :=
  match t with
  | .f32 => .ok (Elt.float 32 FFmt.f32)
  | .bf16 => .ok (Elt.float 16 FFmt.bf16)
  | .f16 => .ok (Elt.float 16 FFmt.f16)
  | .i32 => .ok (Elt.int 32 false)
  | .n32 => .ok (Elt.int 32 true)
  | .i64 => .ok (Elt.int 64 false)
  | .n64 => .ok (Elt.int 64 true)
  | .i16 => .ok (Elt.int 16 false)
  | .n16 => .ok (Elt.int 16 true)
  | .i8 => .ok (Elt.int 8 false)
  | .n8 => .ok (Elt.int 8 true)
  | .nf r =>
    match nfFmt (nf[r.toNat]'r.isLt) with
    | some f => .ok (Elt.float (nfWidth (nf[r.toNat]'r.isLt)) f)
    | none => .error (illegalAt (r.zeroExtend 64))

/-- Elements in a row. -/
def laneCount (e : Nat) : Nat := 8192 / e

/-! ## Rows as lists of elements -/

/-- The elements of `e` bits of a number of `n` elements. -/
def splitElems (e n : Nat) (v : Nat) : List Nat :=
  (List.range n).map (fun j => (v >>> (j * e)) % 2 ^ e)
/-- Element j to bits j e to j e + e − 1. -/
def packElems (e : Nat) (l : List Nat) : Nat := l.foldr (fun x acc => acc <<< e + x) 0
def rowElems (e : Nat) (r : Row) : List Nat := splitElems e (laneCount e) r.toNat
def rowOf (e : Nat) (l : List Nat) : Row := BitVec.ofNat 8192 (packElems e l)

/-- The guard bit of element `j` of width `e` (R139). -/
def activeAt (g : PredWord) (e j : Nat) : Bool := g.getLsbD (j * e / 32)
/-- Activity of the elements of a row. -/
def actives (g : PredWord) (e : Nat) : List Bool := (List.range (laneCount e)).map (activeAt g e)

/-- Results by element, none where it is inactive: the value, the mask of the bits written, the flags of all
lanes together (R49, R278), and the bits of the elements with INVALID. -/
structure Lanes where
  val : Nat
  mask : Nat
  flags : BitVec 5
  inv : Nat := 0
deriving DecidableEq, Repr

def gatherLanes (e : Nat) (l : List (Option (Nat × BitVec 5))) : Lanes :=
  l.foldr (fun x acc =>
    match x with
    | some (v, f) =>
      { val := acc.val <<< e + v % 2 ^ e, mask := acc.mask <<< e + (2 ^ e - 1), flags := f ||| acc.flags,
        inv := acc.inv <<< e + (if f &&& flInvalid = 0 then 0 else 2 ^ e - 1) }
    | none => { acc with val := acc.val <<< e, mask := acc.mask <<< e, inv := acc.inv <<< e })
    { val := 0, mask := 0, flags := 0, inv := 0 }

/-! ## Taking operands (R148, R155) -/

/-- The physical row of operand wn (R140). -/
def physRow (half : Bool) (rows rotb : Nat) (n : BitVec 8) : Nat :=
  bit half * rows + (rotb + n.toNat) % rows

/-- What the running context's instruction takes when it is routed. DEDUCED (log 18). -/
def State.take (s : State) (i : Instr) : Taken :=
  let c := s.here
  let x := s.me
  { xs := i.takesX.map (fun r => (r, x.rx r)), hs := i.takesH.map (fun r => (r, x.rh r)),
    guard := x.rp i.guardReg, rotb := x.rotb.toNat, rows := c.h, half := c.active, ftz := x.ftz,
    nf := c.nf, tcfg := c.tcfg, scored := x.latmode.getLsbD 0 }

def Taken.x (t : Taken) (r : XReg) : Word := ((t.xs.find? (fun p => p.1 == r)).map (fun p => p.2)).getD 0
def Taken.h (t : Taken) (r : HReg) : HandleWord := ((t.hs.find? (fun p => p.1 == r)).map (fun p => p.2)).getD 0

/-- The place that an operand names as a destination; none for a broadcast. -/
def Taken.dest (t : Taken) : VOp → Option Dest
  | .row n => some (.row (physRow t.half t.rows t.rotb n))
  | .ofile i => some (.ofile i)
  | .latch => some .latch
  | .bcast _ => none

/-! ## Rows, operand file and latch -/

/-- A physical row; one that nothing has written since the room changed is zero or free (R193, R204). -/
def Core.row (c : Core) (phys : Nat) : Row :=
  match findKey phys c.rows with
  | some r => r
  | none => match c.rowSeed with | some seed => Config.freeRow (freeKey seed phys) | none => 0

/-- The value of a place. -/
def Core.place (c : Core) (k : Bool) : Dest → Row
  | .row p => c.row p
  | .ofile i => (c.ctx k).ofile[i.toNat]'i.isLt
  | .latch => (c.ctx k).latch

def Core.setPlace (c : Core) (k : Bool) (d : Dest) (r : Row) : Core :=
  match d with
  | .row p => { c with rows := setKey p r c.rows }
  | .ofile i => let x := c.ctx k; c.setCtx k { x with ofile := x.ofile.set i.toNat r i.isLt }
  | .latch => let x := c.ctx k; c.setCtx k { x with latch := r }

/-- The bits of a place's void elements (R59). -/
def Context.voidOf (x : Context) (d : Dest) : Row := ((x.voids.find? (fun p => p.1 == d)).map (fun p => p.2)).getD 0
def Context.setVoid (x : Context) (d : Dest) (r : Row) : Context :=
  { x with voids := x.voids.filter (fun p => p.1 != d) ++ (if r = 0 then [] else [(d, r)]) }

/-- The rows hold no void elements any more. -/
def Context.dropVoids (x : Context) : Context :=
  { x with voids := x.voids.filter (fun p => match p.1 with | .row _ => false | _ => true) }

/-- A place's new bits and void elements. -/
def Core.putPlace (c : Core) (k : Bool) (d : Dest) (r void : Row) : Core :=
  let c := c.setPlace k d r
  c.setCtx k ((c.ctx k).setVoid d void)

/-- One write lands: what it does not cover stays. -/
def Core.landOne (c : Core) (k : Bool) (w : RowWrite) : Core :=
  c.putPlace k w.dest ((c.place k w.dest &&& ~~~w.mask) ||| (w.val &&& w.mask))
    (((c.ctx k).voidOf w.dest &&& ~~~w.mask) ||| (w.void &&& w.mask))

/-- A predicate's bits under a mask. -/
def Context.landPred (x : Context) (p : Option (PReg × PredWord × PredWord)) : Context :=
  match p with
  | some (r, v, m) => x.wp r ((x.rp r &&& ~~~m) ||| (v &&& m))
  | none => x

/-- A tile's bytes and side state (R303, R310). -/
def Core.landTile (c : Core) (t : Option (Nat × List Byte × TileSide)) : Core :=
  match t with
  | some (k, bs, side) =>
    { c with tiles := c.tiles.write (k * 4096 * c.rooms.matrix) bs, sides := c.sides.setIfInBounds k side }
  | none => c

/-- Everything a landing makes visible (R120, R279, R281, R310). -/
def Core.land (c : Core) (k : Bool) (l : Landing) : Core :=
  let c := l.writes.foldl (fun c w => c.landOne k w) c
  let c := match l.latch with | some d => c.putPlace k .latch (c.place k d) ((c.ctx k).voidOf d) | none => c
  let c := c.landTile l.tile
  c.setCtx k (((c.ctx k).landPred l.pred).addFlags l.flags)

/-- Every byte of a number's bits under a mask is set: one bit for each of 64 bytes. -/
def byteMask (m : Nat) : BitVec 64 :=
  BitVec.ofNat 64 ((List.range 64).foldl (fun acc i => if m / 2 ^ (8 * i) % 256 = 255 then acc + 2 ^ i else acc) 0)

/-- Bytes of a row written carry new check bits (R191). DEDUCED (log 35). -/
def State.rewriteRow (s : State) (c phys : Nat) (mask : Row) : State :=
  if s.poison.isEmpty then s
  else
    let core := s.core c
    { s with poison := (s.poison.map (fun q =>
        if q.lodgeOf == some c then
          match (List.range 16).find? (fun i => core.rowByte phys (64 * i) / 64 == q.sector) with
          | some i => { q with bad := q.bad &&& ~~~(byteMask (mask.toNat / 2 ^ (512 * i))) }
          | none => q
        else q)).filter (fun q => q.bad != 0) }

/-- Bytes of a room written carry new check bits. DEDUCED (log 35). -/
def State.rewriteRoom (s : State) (c : Nat) (r : Room) (off n : Nat) : State :=
  if s.poison.isEmpty then s
  else
    let banks := (s.core c).banksOf r
    { s with poison := (s.poison.map (fun q =>
        match banks.findIdx? (fun b => q.lodgeOf == some c && b == q.sector / 1024) with
        | some i => { clearBad { q with sector := 1024 * i + q.sector % 1024 } off n with sector := q.sector }
        | none => q)).filter (fun q => q.bad != 0) }

/-- What a landing makes visible in a core, with its check bits. -/
def State.landOn (s : State) (c : Nat) (k : Bool) (l : Landing) : State :=
  let s := l.writes.foldl (fun s w => match w.dest with | .row p => s.rewriteRow c p w.mask | .ofile _ | .latch => s) s
  let s := match l.tile with
    | some (t, bs, _) => s.rewriteRoom c .matrix (t * 4096 * (s.core c).rooms.matrix) bs.length
    | none => s
  s.setCore c ((s.core c).land k l)

/-- A sector of a source row that an instruction's active elements lie in (R139, R278): where result and source elements
stand alike, the guard bits of the sector; else any guard bit. VSEL reads every element. -/
def Entry.readsSector (e : Entry) (i : Nat) : Bool :=
  let g := e.taken.guard
  let wide : Bool := match e.instr.vhdr?, e.instr.vmem? with
    | some h, _ => h.ty == .i64 || h.ty == .n64
    | none, some m => m.ty == .i64 || m.ty == .n64
    | none, none => false
  match e.instr with
  | .vsel .. => true
  | .vcvt .. | .vqnt .. | .vdqnt .. | .vpack .. | .vunpack .. | .vshuf .. | .vbcast .. | .vrot .. | .vslide .. | .vgather ..
  | .vscatter .. => g != 0
  | _ => (g.extractLsb' (16 * i) 16 &&& (if wide then 0x5555 else 0xFFFF)) != 0

/-- The uncorrectable sectors of a physical row among those of interest: their numbers in the row. DEDUCED (log 35). -/
def State.rowPoison (s : State) (c phys : Nat) (want : Nat → Bool) : List (Nat × Poison) :=
  let core := s.core c
  s.poison.filterMap (fun q =>
    if q.lodgeOf == some c then
      ((List.range 16).find? (fun i => want i && core.rowByte phys (64 * i) / 64 == q.sector)).map (fun i => (i, q))
    else none)
/-- An uncorrectable sector of a tile slot. DEDUCED (log 35). -/
def State.tilePoison (s : State) (c t : Nat) : Option Poison :=
  let core := s.core c
  let banks := core.banksOf .matrix
  let n := 64 * core.rooms.matrix
  s.poison.find? (fun q => q.lodgeOf == some c &&
    (match banks.findIdx? (fun b => b == q.sector / 1024) with
    | some i => t * n ≤ 1024 * i + q.sector % 1024 && 1024 * i + q.sector % 1024 < (t + 1) * n
    | none => false))

/-- The bits of a place that a started entry has yet to write. -/
def Landing.bitsOn (l : Landing) (d : Dest) : Row :=
  let m := l.writes.foldl (fun m w => if w.dest == d then m ||| w.mask else m) 0
  if d == .latch && l.latch.isSome then BitVec.allOnes 8192 else m

/-- Bits of a place that started CQ entries have not landed: a read in a fixed region finds an undefined
pattern there (R280). -/
def Context.unlanded (x : Context) (d : Dest) : Row :=
  x.cq.foldl (fun m e =>
    match e.phase with
    | .started l => m ||| l.bitsOn d
    | _ => m) 0

/-- A number for each place of a context. -/
def Dest.index : Dest → Nat
  | .row p => p
  | .ofile i => 2 ^ 20 + i.toNat
  | .latch => 2 ^ 20 + 8

/-- Reads a place as a starting instruction does. -/
def readPlace (c : Core) (k : Bool) (free : Nat) (d : Dest) : Row :=
  let m := (c.ctx k).unlanded d
  let v := c.place k d
  if m = 0 then v else (v &&& ~~~m) ||| (Config.freeRow (freeKey free d.index) &&& m)

/-- What an operand gives a starting instruction: a row's bits, or a register's value for every lane. -/
inductive OpVal where
  | row (r : Row)
  | all (w : Word)
deriving DecidableEq, Repr

/-- Reading the sources of a starting instruction: its core, context, taken values, and the number of
its free values. -/
structure Reader where
  core : Core
  k : Bool
  t : Taken
  free : Nat
deriving DecidableEq, Repr

def Reader.op (r : Reader) (o : VOp) : OpVal :=
  match o, r.t.dest o with
  | .bcast x, _ => .all (r.t.x x)
  | _, some d => .row (readPlace r.core r.k r.free d)
  | _, none => .all 0

/-- The elements of an operand at a width. -/
def OpVal.elems (e : Nat) : OpVal → List Nat
  | .row r => rowElems e r
  | .all w => List.replicate (laneCount e) (w.toNat % 2 ^ e)

/-- The void bits of a source, in elements of `e` bits; none of a register's value or a literal (R59). -/
def Reader.voids (r : Reader) (e : Nat) (o : VOp) : List Nat :=
  let m := match r.t.dest o with | some d => (r.core.ctx r.k).voidOf d | none => 0
  if m = 0 then List.replicate (laneCount e) 0 else rowElems e m

/-- The bits of the elements that some source has void bits in. -/
def Reader.voidLanes (r : Reader) (e : Nat) (os : List VOp) : Nat :=
  if (r.core.ctx r.k).voids.isEmpty then 0
  else
    let l := os.foldl (fun (l : List Nat) o => (l.zip (r.voids e o)).map (fun p => p.1 ||| p.2)) (List.replicate (laneCount e) 0)
    packElems e (l.map (fun x => if x = 0 then 0 else 2 ^ e - 1))

/-- The elements of an operand or a literal; at 64 bits a literal is extended by the signedness (R123). -/
def Reader.src (r : Reader) (e : Nat) (uns : Bool) : VSrc → List Nat
  | .op o => (r.op o).elems e
  | .lit v =>
    let n := if e = 64 then (if uns then v.toNat else (v.signExtend 64).toNat) else v.toNat
    List.replicate (laneCount e) (n % 2 ^ e)

/-- The check of an NF literal at start (R123, R282). -/
def litOk (nf : Vector (BitVec 32) 4) (t : VTy) : VSrc → Bool
  | .op _ => true
  | .lit v =>
    match t with
    | .nf r => v.toNat < 2 ^ (nf[r.toNat]'r.isLt |>.extractLsb' 20 4).toNat
    | _ => true

end Sys2Proof.Machine
end

