-- ==== Sys2Proof/Machine/Handle.lean ====
section
/-! DEFINITION. Handles, shape records and the elements that they reach: the record cache, the checks of
records, element addresses, padding, bad chunks, and the VOID OR (R65, R138, R172, R262, R263, R267,
R369 to R375). -/

namespace Sys2Proof.Machine

/-! ## Handles (R138) -/

def hBase (h : HandleWord) : Nat := bitsOf h.toNat 63 0
def hRec (h : HandleWord) : Nat := bitsOf h.toNat 111 64
def hSpace (h : HandleWord) : Nat := bitsOf h.toNat 113 112
def hPoison (h : HandleWord) : Nat := bitsOf h.toNat 115 114
def hEncl (h : HandleWord) : Bool := h.getLsbD 116
def hCursor (h : HandleWord) : Word := h.extractLsb' 128 64
def hBound (h : HandleWord) : Nat := bitsOf h.toNat 255 192

/-- The checks of R138. -/
def handleOk (h : HandleWord) : Bool :=
  bitsOf h.toNat 127 117 == 0 && hSpace h != 3 && hPoison h != 3 && bitsOf h.toNat 69 64 == 0 &&
    hBase h + hBound h ≤ 2 ^ 57

def handleBad (n : HReg) : Trap := bounds (n.zeroExtend 64)

/-! ## Shape records (R369) -/

/-- A shape record's fields. -/
structure Rec where
  addr : Nat
  kind : Nat
  rank : Nat
  dtype : Nat
  nf : Nat
  geometry : Nat
  pad : Nat
  poison : Nat
  extent : List Nat
  stride : List Nat
  scaleVa : Nat
  mapVa : Nat
  chunkVa : Nat
  blockVa : Nat
  pageBlock : Nat
  genVa : Nat
  remVa : Nat
  symVa : Nat
  genStride : Nat
  live : Nat
  allowance : Nat
  status : Nat
  birth : Nat
  /-- the sums of the reserved bytes 0x7C–0x7F and 0xB0–0xBF are zero -/
  reservedOk : Bool
  tailOk : Bool
deriving DecidableEq, Repr

/-- A little-endian field of some bytes. -/
def fieldAt (bs : List Byte) (off n : Nat) : Nat := leNat ((bs.drop off).take n)

def parseRec (addr : Nat) (bs : List Byte) : Rec :=
  let f := fieldAt bs
  { addr := addr, kind := f 0 2, rank := f 2 1, dtype := f 3 1, nf := f 4 1, geometry := f 5 1, pad := f 6 1,
    poison := f 7 1, extent := (List.range 6).map (fun i => f (8 + 4 * i) 4),
    stride := (List.range 6).map (fun i => f (0x20 + 8 * i) 8), scaleVa := f 0x58 8, mapVa := f 0x60 8,
    chunkVa := f 0x68 8, blockVa := f 0x70 8, pageBlock := f 0x78 4, genVa := f 0x80 8, remVa := f 0x88 8,
    symVa := f 0x90 8, genStride := f 0x98 8, live := f 0xA0 4, allowance := f 0xA4 4, status := f 0xA8 4,
    birth := f 0xAC 4, reservedOk := f 0x7C 4 == 0, tailOk := f 0xB0 16 == 0 }

def Rec.ext (r : Rec) (d : Nat) : Nat := r.extent[d]?.getD 0
def Rec.str (r : Rec) (d : Nat) : Nat := r.stride[d]?.getD 0
def Rec.dims (r : Rec) : List Nat := List.range r.rank
/-- The product of the extents. -/
def Rec.count (r : Rec) : Nat := (r.extent.take r.rank).foldl (fun a b => a * b) 1

/-- The element format of a dtype code (R370); none where it is invalid. -/
def dtypeElt (nf : Vector (BitVec 32) 4) (code n : Nat) : Option Elt :=
  match code with
  | 0x01 => some (Elt.int 8 false)
  | 0x02 => some (Elt.int 8 true)
  | 0x03 => some (Elt.int 16 false)
  | 0x04 => some (Elt.int 16 true)
  | 0x05 => some (Elt.int 32 false)
  | 0x06 => some (Elt.int 32 true)
  | 0x07 => some (Elt.int 64 false)
  | 0x08 => some (Elt.int 64 true)
  | 0x10 => some (Elt.float 32 FFmt.f32)
  | 0x11 => some (Elt.float 16 FFmt.bf16)
  | 0x12 => some (Elt.float 16 FFmt.f16)
  | 0x18 =>
    let w := nf[n]?.getD 0
    (nfFmt w).map (fun f => Elt.float (nfWidth w) f)
  | _ => none

def dtypeKnown (code : Nat) : Bool := (1 ≤ code && code ≤ 8) || (0x10 ≤ code && code ≤ 0x12) || code == 0x18

/-- The rules of R372 and R312 for any use but an affine one, given the NF registers taken. -/
def Rec.ok (r : Rec) (nf : Vector (BitVec 32) 4) (space : Nat) : Bool :=
  1 ≤ r.kind && r.kind ≤ 3 && 1 ≤ r.rank && r.rank ≤ 6 && dtypeKnown r.dtype &&
  (if r.dtype == 0x18 || r.mapVa != 0 then
      r.nf ≤ 3 && (r.dtype != 0x18 || (nfFmt (nf[r.nf]?.getD 0)).isSome) else r.nf == 0) &&
  r.geometry ≤ 2 && r.pad ≤ 3 && r.poison ≤ 2 &&
  (List.range 6).all (fun d => d < r.rank || (r.ext d == 0 && r.str d == 0)) &&
  r.reservedOk && r.tailOk &&
  (r.geometry == 0 ||
    ((r.dtype == 0x18 || (0x10 ≤ r.dtype && r.mapVa != 0)) && r.scaleVa != 0 && r.scaleVa % 64 == 0)) &&
  (r.kind != 3 || (r.rank == 1 && r.pageBlock != 0 && space == 0 && r.blockVa != 0 && r.blockVa % 8 == 0)) &&
  (r.mapVa == 0 ||
    (r.kind == 1 && r.geometry == 1 && 0x10 ≤ r.dtype && r.dtype ≤ 0x12 &&
      r.str 0 == (if r.dtype == 0x10 then 4 else 2) && (nfFmt (nf[r.nf]?.getD 0)).isSome))

def recBad (addr : Nat) : Trap := shapeBad (w64 addr)
def X.bad {α : Type} (addr : Nat) : X α := X.fail (.fault (recBad addr) false addr)
def X.trap {α : Type} (t : Trap) : X α := X.fail (.fault t false 0)
def X.must (b : Bool) (t : Trap) : X Unit := if b then pure () else X.trap t

/-- A record through the core's record cache: a cached copy serves the use unless it has been replaced
in the meantime, which the choices say (R373). -/
def readRec (v : View) (addr : Nat) : X Rec := do
  let s ← get
  let cached := v.recCore.bind (fun c => findKey addr (s.core c).records)
  let (n, s') := s.choose 2
  match cached, n with
  | some bs, 0 => set s'; pure (parseRec addr bs)
  | _, _ =>
    if cached.isSome then set s'
    let bs ← readLong v addr 192
    match v.recCore with
    | some c =>
      modify (fun s =>
        let core := s.core c
        s.setCore c { core with records := ((addr, bs) :: core.records.filter (fun e => e.1 != addr)).take 64 })
    | none => pure ()
    pure (parseRec addr bs)

/-- Bytes of a record written to a core's cached copy of it (R103, R373). -/
def Core.cacheWrite (core : Core) (addr off : Nat) (bs : List Byte) : Core :=
  { core with records := core.records.map (fun e =>
      if e.1 = addr then (e.1, e.2.take off ++ bs ++ e.2.drop (off + bs.length)) else e) }

/-- Bytes of a record written to memory and to the core's own cached copy (R103, R373). -/
def writeRec (v : View) (addr off : Nat) (bs : List Byte) : X Unit := do
  writeLong v (addr + off) bs
  match v.recCore with
  | none => pure ()
  | some c => modify (fun s => s.setCore c ((s.core c).cacheWrite addr off bs))

/-- Status bits ORed into a record that the instruction is to write (R324). -/
def setStatus (v : View) (addr bits : Nat) : X Unit := do
  let old ← readLong v (addr + 0xA8) 4
  writeRec v addr 0xA8 (leBytes 4 (leNat old ||| bits))

/-- Status bits ORed into a record by a MODULE-scope atomic (R267, R317). -/
def orStatus (v : View) (addr bits : Nat) : X Unit := do
  let a := addr + 0xA8
  let s ← get
  if s.parkedOn v a then X.fail .wait
  let p ← translate v a true
  modify (fun s => s.recallHome v a p)
  setStatus (s.homeView v a) addr bits
  modify (fun s => s.atomicMark v a)

/-! ## Elements (R65, R262, R371) -/

/-- Where an element is: a value that its padding takes, or a place counted in nibbles. -/
inductive ElemAt where
  | value (code : Nat)
  | place (nib : Nat)
  /-- padding under the rule FAULT, at this index -/
  | bad (k : Int)
deriving DecidableEq, Repr

/-- A handle with its record as an access uses it: element bits and format. -/
structure Tensor where
  h : HandleWord
  record : Option Rec
  elt : Elt
deriving DecidableEq, Repr

/-- Nibbles of an element. -/
def Tensor.nibbles (t : Tensor) : Nat := t.elt.bits / 4

/-- The code that NEG_INF padding reads as (R65). -/
def Elt.negInf (e : Elt) : Nat :=
  match e.fp with
  | some f => if f.kind == .ieee then f.infCode true else f.maxCode true
  | none => if e.uns then 0 else 2 ^ (e.bits - 1)

/-- The place of coordinates through a record that is not PAGED. -/
def Tensor.coordPlace (t : Tensor) (r : Rec) (k : Nat) : Nat :=
  let step (acc : Nat × Nat) (d : Nat) : Nat × Nat :=
    (acc.1 + acc.2 % r.ext d * r.str d, acc.2 / r.ext d)
  let off := (r.dims.foldl step (0, k)).1
  if t.elt.bits = 4 then (2 * hBase t.h + off) % 2 ^ 64 else 2 * ((hBase t.h + off) % 2 ^ 64)

/-- The block of a PAGED record that holds element `k`; 0 where it is absent. -/
def pageOf (v : View) (r : Rec) (k : Nat) : X Nat := do
  let bs ← readLong { v with task := none, ctx := none } ((r.blockVa + 8 * (k / r.pageBlock)) % 2 ^ 64) 8
  pure (leNat bs)

/-- The place of a real element; none where its block is absent. -/
def Tensor.place (v : View) (t : Tensor) (r : Rec) (k : Nat) : X (Option Nat) := do
  if r.kind = 3 then
    let blk ← pageOf v r k
    if blk = 0 then pure none
    else pure (some (if t.elt.bits = 4 then 2 * blk + k % r.pageBlock
      else 2 * ((blk + k % r.pageBlock * (t.elt.bits / 8)) % 2 ^ 64)))
  else pure (some (t.coordPlace r k))

/-- The index of the real element that EDGE reaches; none where there is none (R65). -/
def edgeIndex (r : Rec) (k : Int) : Option Nat :=
  if r.count = 0 then none
  else
    let outer := r.ext (r.rank - 1)
    let inner : Nat := r.count / outer
    let q := k / inner
    let c : Nat := if q < 0 then 0 else min q.toNat (outer - 1)
    some ((k % inner).toNat + c * inner)

/-- Addr of R262 with the padding of R65: `store` says that padding is dropped unless the rule faults. -/
def Tensor.elem (v : View) (t : Tensor) (store : Bool) (k : Int) : X (Option ElemAt) := do
  match t.record with
  | none => pure (some (.place ((2 * hBase t.h + k * t.nibbles) % 2 ^ 65).toNat))
  | some r =>
    let inside := 0 ≤ k && k < (if r.kind = 3 then r.ext 0 else r.count)
    let found ← if inside then t.place v r k.toNat else pure none
    match found with
    | some p => pure (some (.place p))
    | none =>
      if r.pad = 3 then pure (some (.bad k))
      else if store then pure none
      else
        match r.pad with
        | 1 => pure (some (.value t.elt.negInf))
        | 2 =>
          if inside then pure (some (.value 0))
          else
            match edgeIndex r k with
            | none => pure (some (.value 0))
            | some j => pure (some (match (← t.place v r j) with | some p => .place p | none => .value 0))
        | _ => pure (some (.value 0))

/-! ## Checks of elements (R196, R197, R263) -/

/-- Bytes that an element at a place covers: first byte and count. -/
def spanOf (nibbles nib : Nat) : Nat × Nat := (nib / 2, max 1 (nibbles / 2))

/-- Check 3: an element lies within the handle's bound. -/
def Tensor.inBound (t : Tensor) (nib : Nat) : Bool :=
  let (a, n) := spanOf t.nibbles nib
  (match t.record with | some r => r.kind == 3 | none => false) ||
    (hBase t.h ≤ a && a + n ≤ hBase t.h + hBound t.h)
/-- Check 4: natural alignment. -/
def Tensor.aligned (t : Tensor) (nib : Nat) : Bool :=
  t.elt.bits == 4 || (nib / 2) % (t.elt.bits / 8) == 0
/-- Check 5: inside the PAD room, and in no mapped segment. -/
def padOk (c : Core) (a n : Nat) : Bool :=
  a + n ≤ 65536 * c.rooms.pad &&
    c.stash.all (fun m => a + n ≤ m.seg * 4096 || (m.seg + 1) * 4096 ≤ a)
def Tensor.inPad (t : Tensor) (c : Core) (nib : Nat) : Bool :=
  let (a, n) := spanOf t.nibbles nib
  hSpace t.h != 1 || padOk c a n

/-- Checks 3 to 6 over the elements of an access, each over all of them in turn. DEDUCED (log 16). -/
def Tensor.check (t : Tensor) (c : Core) (es : List ElemAt) : X Unit := do
  let ps := es.filterMap (fun e => match e with | .place p => some p | _ => none)
  let first (ok : Nat → Bool) (f : Word → Trap) : X Unit :=
    match ps.find? (fun p => !ok p) with
    | some p => X.trap (f (w64 (p / 2)))
    | none => pure ()
  first t.inBound bounds
  first t.aligned misalign
  first (t.inPad c) bounds
  match es.findSome? (fun e => match e with | .bad k => some k | _ => none) with
  | some k => X.trap (bounds (BitVec.ofInt 64 k))
  | none => pure ()

/-! ## Bad chunks (R375) -/

/-- A bad-chunk list: the chunk's size and the starts. -/
structure Chunks where
  size : Nat
  starts : List Nat
deriving DecidableEq, Repr

def ascending : List Nat → Bool
  | a :: b :: t => a < b && ascending (b :: t)
  | _ => true

/-- The list that a record names; SHAPE_BAD where it breaks its layout. -/
def readChunks (v : View) (r : Rec) : X (Option Chunks) := do
  if r.chunkVa = 0 then pure none
  else
    if r.chunkVa % 16 ≠ 0 then X.bad r.addr
    let hd ← readLong v r.chunkVa 16
    let n := fieldAt hd 0 4
    let c := fieldAt hd 4 1
    if 65536 < n || c < 6 || 21 < c || fieldAt hd 5 11 ≠ 0 then X.bad r.addr
    let bs ← readLong v (r.chunkVa + 16) (8 * n)
    let st := (List.range n).map (fun i => fieldAt bs (8 * i) 8)
    if !ascending st || st.any (fun a => a % 2 ^ c != 0) then X.bad r.addr
    pure (some { size := 2 ^ c, starts := st })

/-- The chunk that an element's bytes touch. -/
def Chunks.hit (c : Chunks) (a n : Nat) : Option Nat :=
  c.starts.find? (fun st => a < st + c.size && st < a + n)

/-! ## Reading and writing one element -/

/-- The bytes of an element as a number; a 4-bit code is the nibble that its place names. -/
def pickNibble (nibbles nib : Nat) (bs : List Byte) : Nat :=
  let v := leNat bs
  if nibbles = 1 then (if nib % 2 = 0 then v % 16 else v / 16) else v

/-- Reads an element of a space. -/
def readElem (v : View) (space nibbles nib : Nat) : X Nat := do
  let (a, n) := spanOf nibbles nib
  if space = 1 then
    let c := v.core.getD 0
    let core := (← get).core c
    lodgeCheck c (core.lodgeByte .pad a) n a v.die
    pure (pickNibble nibbles nib (core.pad.read a n))
  else pure (pickNibble nibbles nib (← readVa v a n))

/-- The store of one element's code. -/
def elemStore (space nibbles nib code : Nat) : ElemStore :=
  let (a, n) := spanOf nibbles nib
  match nibbles == 1, space == 1 with
  | true, true => .padNib a (nib % 2 == 1) (BitVec.ofNat 4 code)
  | true, false => .memNib a (nib % 2 == 1) (BitVec.ofNat 4 code)
  | false, true => .pad a (leBytes n code)
  | false, false => .mem a (leBytes n code)

/-- Stores bytes of the PAD room. -/
def State.writePad (s : State) (c a : Nat) (bs : List Byte) : State :=
  let core := s.core c
  (s.rewrite (some c) false (core.lodgeByte .pad a) bs.length).setCore c { core with pad := core.pad.write a bs }

/-- A store that memory or a stash segment serves: its address. -/
def ElemStore.globalOf (e : ElemStore) : Option Nat :=
  match e with
  | .mem a _ | .memNib a _ _ | .scale a _ => some a
  | .pad .. | .padNib .. => none

/-- One element store is performed, behind a store of the context that is parked on its page (R237). -/
def performStore (v : View) (e : ElemStore) : X Unit := do
  let c := v.core.getD 0
  if (e.globalOf).any ((← get).parkedOn v) then X.fail .wait
  match e with
  | .mem a bs => writeVa v a bs
  | .memNib a hi n =>
    let s ← get
    -- the other nibble is read where the write goes; an uncorrectable sector does not stop a store
    let old := match (readVa v a 1).run { s with poison := [] } with
      | .ok (bs, _) => bs.headD 0
      | .error _ => 0
    writeVa v a [putNibble old hi n]
  | .scale a l =>
    let s ← get
    let old := match (readVa v a 64).run { s with poison := [] } with
      | .ok (bs, _) => bs
      | .error _ => []
    writeVa v a (setScales (old ++ List.replicate (64 - old.length) 0) l)
  | .pad off bs => modify (fun s => s.writePad c off bs)
  | .padNib off hi n =>
    modify (fun s => s.writePad c off [putNibble ((s.core c).pad.get off) hi n])

/-- The address that an element store goes to, in its space: first byte and end. -/
def ElemStore.range : ElemStore → Bool × Nat × Nat
  | .mem a bs => (false, a, a + bs.length)
  | .memNib a _ _ => (false, a, a + 1)
  | .scale a _ => (false, a, a + 64)
  | .pad a bs => (true, a, a + bs.length)
  | .padNib a _ _ => (true, a, a + 1)

/-- The record that a handle names, checked (R262, R372): the type's width, and for NF the register, must
be the record's. -/
def recordFor (v : View) (h : HandleWord) (nf : Vector (BitVec 32) 4) : X (Option Rec) := do
  if hRec h = 0 then pure none
  else
    let r ← readRec v (hRec h)
    if r.ok nf (hSpace h) then pure (some r) else X.bad (hRec h)

end Sys2Proof.Machine
end

