-- ==== Sys2Proof/Machine/Access.lean ====
section
/-! DEFINITION. Elements moved between memory and an engine: poison policies, bad chunks, the element
loop that can stop and go on, and the VOID OR (R235, R236, R265 to R267). -/

namespace Sys2Proof.Machine

/-- Who reads elements: its view, the poison policy in force, whether R212 would cancel its phase, and
where its records go. -/
structure Access where
  v : View
  policy : Nat
  cancel : Bool
  log : Trap → RecStatus → State → State

/-- The ECC structure's counter of a die moves. -/
def X.ecc (d st : Nat) : X Unit := modify (fun s => s.eccCount d st true)

/-- An element loop's progress. -/
structure Got where
  got : List (Nat × Nat) := []
  replaced : Bool := false
  seen : List Nat := []
  chunkSeen : Bool := false
deriving DecidableEq, Repr

def Entry.progress (e : Entry) : Got :=
  { got := e.got, replaced := e.replaced, seen := e.seen, chunkSeen := e.chunkSeen }
/-- DEDUCED (log 38). -/
def Entry.setProgress (e : Entry) (g : Got) : Entry :=
  { e with got := g.got, replaced := g.replaced, seen := g.seen, chunkSeen := g.chunkSeen }

/-- A second read of an uncorrectable sector that finds it clean (R266); one in a Lodge has been rewritten
(R210). DEDUCED (log 35). -/
def State.dropTransient (s : State) (v : View) (u : Uncorr) : State :=
  match u.lodge with
  | some _ => s.scrub u
  | none =>
    match (translate v u.va false).run s with
    | .ok (p, s) =>
      { s with poison := s.poison.filter (fun q => !(q.transient && q.lodgeOf.isNone && q.far == p.far && q.sector == p.addr / 64)) }
    | .error _ => s

/-- Reads an element under the poison policy: none where it is replaced by zero. DEDUCED (log 15, 35). -/
def Access.read (a : Access) (space nibbles nib : Nat) (seen : List Nat) : X (Option Nat × List Nat) := fun s =>
  match (readElem a.v space nibbles nib).run s with
  | .ok (n, s) => .ok ((some n, seen), s)
  | .error (.poison u) =>
    let rest : X (Option Nat × List Nat) := do
      if a.policy = 2 && u.transient then
        X.ecc u.die u.structure_
        modify (fun s => s.dropTransient a.v u)
        let n ← readElem a.v space nibbles nib
        pure (some n, seen)
      else if a.policy = 0 || (a.policy = 2 && a.cancel) then X.fail (.poison u)
      else if seen.contains (u.va / 64) then pure (none, seen)
      else
        X.ecc u.die u.structure_
        modify (fun s => a.log { u.trap with ecc := none } .replaced (s.scrub u))
        pure (none, u.va / 64 :: seen)
    rest.run s
  | .error (.fault t r va) =>
    -- the sector was met before in this access
    if t.code = 0x1B && seen.contains (va / 64) then .ok ((none, seen), s) else .error (.fault t r va)
  | .error e => .error e

/-- BAD_CHUNK (R267). -/
def badChunk (start : Nat) : Trap := { code := 0x12, detail := w64 start, grade := .status }

/-- One element of an access: bad chunks first, then the read. -/
def Access.element (a : Access) (space nibbles : Nat) (ch : Option Chunks) (g : Got) (j : Nat) (e : ElemAt) :
    X Got := do
  match e with
  | .value code => pure { g with got := (j, code) :: g.got }
  | .bad k => X.trap (bounds (BitVec.ofInt 64 k))
  | .place nib =>
    let (va, n) := spanOf nibbles nib
    match ch.bind (fun c => c.hit va n) with
    | some st =>
      if !g.chunkSeen then modify (a.log (badChunk st) .logged)
      pure { g with got := (j, 0) :: g.got, replaced := true, chunkSeen := true }
    | none =>
      let (r, seen) ← a.read space nibbles nib g.seen
      match r with
      | some code => pure { g with got := (j, code) :: g.got, seen := seen }
      | none => pure { g with got := (j, 0) :: g.got, seen := seen, replaced := true }

/-- One element to gather: its number, its nibbles where it is stored, its place. -/
structure Item where
  j : Nat
  nibbles : Nat
  at_ : ElemAt
deriving DecidableEq, Repr

/-- The elements in ascending order, those already gathered left out; it stops at the first that does
not complete, and keeps what went before (R235, R236). -/
def Access.gather (a : Access) (space : Nat) (ch : Option Chunks) :
    List Item → Got → State → (Got × Option XErr) × State
  | [], g, s => ((g, none), s)
  | i :: rest, g, s =>
    match (a.element space i.nibbles ch g i.j i.at_).run s with
    | .ok (g, s) => a.gather space ch rest g s
    | .error err => ((g, some err), s)

/-- The gathered codes in a row of `e`-bit elements. -/
def Got.row (g : Got) (e : Nat) : Nat := g.got.foldl (fun acc p => acc ||| (p.2 % 2 ^ e) <<< (p.1 * e)) 0
/-- The mask of the elements gathered. -/
def Got.mask (g : Got) (e : Nat) : Nat := g.got.foldl (fun acc p => acc ||| (2 ^ e - 1) <<< (p.1 * e)) 0

/-- The VOID OR that ends an access with a replaced element through an affine handle (R101, R267). -/
def voidAfter (v : View) (h : HandleWord) (replaced : Bool) : X Unit :=
  if replaced && hEncl h && hRec h != 0 then orStatus v (hRec h) 1 else pure ()

/-! ## What a start comes to -/

/-- What starting an entry comes to, beyond its changes to the state. -/
inductive Begun where
  | land (l : Landing)
  | stores (l : List ElemStore)
  /-- it stopped at an element, with what was gathered before -/
  | stopped (e : XErr) (g : Got)

/-- An entry as it starts: its core, context, queue and entry. -/
structure Starting where
  c : Nat
  k : Bool
  e : Entry
  q : QName
  cancel : Bool
deriving DecidableEq, Repr

/-- The source code of R403 for an entry's queue. -/
def queueSrc : QName → BitVec 8
  | .lq => srcAccess
  | .cq => srcCq
  | .sq => srcStore

/-- The core as an entry sees it: before an LRMAP that came after it, the old rooms (R205). -/
def Core.roomsFor (c : Core) (k : Bool) (seq : Nat) : Core :=
  match c.drain with
  | some d => if seq < (if k then d.seqs.2 else d.seqs.1) then { c with rooms := d.old } else c
  | none => c

/-- The stream whose TLB an entry's accesses use (R227). -/
def queueStream (c : Nat) : QName → TlbAt
  | .sq => .store c
  | .lq | .cq => .access c
/-- The view of an entry of a queue. -/
def State.entryView (s : State) (c : Nat) (k : Bool) (q : QName) (e : Entry) : View :=
  { s.view c k with stream := some (queueStream c q), spill := some ((s.core c).roomsFor k e.seq).rooms.spill,
                    inPhase := e.inPhase }
def Starting.view (b : Starting) (s : State) : View := s.entryView b.c b.k b.q b.e

/-- A phase holds a store that memory or a stash segment serves, not the spill room or the PAD (R211). -/
def State.holdsElem (s : State) (v : View) (e : ElemStore) : Bool :=
  match e.globalOf with
  | some a => (s.spillOf v a).isNone
  | none => false

/-- An element store of the store instruction `seq` joins the phase hold list. -/
def Context.holdElem (x : Context) (seq : Nat) (e : ElemStore) : Context :=
  match x.holdList.getLast? with
  | some h =>
    if h.seq = seq then { x with holdList := x.holdList.dropLast ++ [{ h with stores := h.stores ++ [e] }] }
    else { x with holdList := x.holdList ++ [{ seq := seq, stores := [e] }] }
  | none => { x with holdList := [{ seq := seq, stores := [e] }] }
def Starting.access (b : Starting) (s : State) (q : QName) (h : HandleWord) : Access :=
  { v := b.view s, policy := hPoison h, cancel := b.cancel,
    log := fun t st s => s.log b.c b.k st true (queueSrc q) t }

/-- Gathers under an access, keeping the state's changes whatever it comes to. DEDUCED (log 38). -/
def gatherX (a : Access) (space : Nat) (ch : Option Chunks) (l : List Item) (g : Got) :
    X (Got × Option XErr) :=
  fun s => .ok (a.gather space ch (l.drop g.got.length) g s)

/-- A fault decided by an Except. -/
def X.except {α : Type} (e : Except Trap α) : X α :=
  match e with
  | .ok a => pure a
  | .error t => X.trap t

end Sys2Proof.Machine
end

