-- ==== Sys2Proof/Machine/VMem.lean ====
section
/-! DEFINITION. Vector memory instructions as LQ and SQ start them (R259 to R268). -/

namespace Sys2Proof.Machine

/-- The element index that an access starts from (R261). -/
def vmemBase (t : Taken) (m : VMem) : Int :=
  let off : Int := match m.off with
    | .reg x => (t.x x).toInt
    | .imm k => k.toInt
  ((hCursor (t.h m.h)) + BitVec.ofInt 64 off).toInt

/-- The element indices of the active lanes, ascending, given the lanes' indices. -/
def vmemLanes (g : PredWord) (e : Nat) (idx : Nat → Nat → Int) : List (Nat × Int) :=
  ((List.range (laneCount e)).foldl (fun (acc : List (Nat × Int) × Nat) j =>
    if activeAt g e j then ((j, idx j acc.2) :: acc.1, acc.2 + 1) else acc) ([], 0)).1.reverse

/-- Lane `j` of a row at an index width, signed. -/
def laneIndex (iw : Nat) (o : OpVal) (j : Nat) : Int :=
  match o with
  | .row r => toSigned iw (r.toNat >>> (j * iw))
  | .all w => toSigned iw w.toNat

/-- The index of each lane (R261): lane and count of active lanes below it. -/
def vmemIndex (r : Reader) (m : VMem) (i : Instr) : Nat → Nat → Int :=
  let k0 := vmemBase r.t m
  match i with
  | .vlds _ _ xs | .vsts _ _ xs => fun j _ => k0 + j * (r.t.x xs).toInt
  | .vgather _ _ o wide | .vscatter _ _ o wide =>
    let v := r.op o
    fun j _ => k0 + laneIndex (if wide then 64 else 32) v j
  | .vldx _ _ => fun _ n => k0 + n
  | _ => fun j _ => k0 + j

/-- The type as a VMEM instruction sees it: an NF register must be valid and of width 4 or 8 (R52, R259). -/
def vmemElt (t : Taken) (ty : VTy) : Except Trap Elt :=
  match ty with
  | .nf r =>
    let w := (t.nf[r.toNat]'r.isLt).extractLsb' 20 4
    if w = 4 || w = 8 then eltOf t.nf ty else .error (illegalAt (r.zeroExtend 64))
  | _ => eltOf t.nf ty

/-- The nf index that a type names. -/
def VTy.nf? : VTy → Option Nat
  | .nf r => some r.toNat
  | _ => none

/-- The handle, its record and its type, checked (checks 1 and 2 of R263). -/
def vmemTensor (v : View) (t : Taken) (m : VMem) : X Tensor := do
  let elt ← X.except (vmemElt t m.ty)
  let h := t.h m.h
  X.must (handleOk h) (handleBad m.h)
  let r ← recordFor v h t.nf
  match r with
  | none => pure ()
  | some r =>
    let same := match dtypeElt t.nf r.dtype r.nf with
      | some d => d.bits == elt.bits
      | none => false
    let sameNf := match VTy.nf? m.ty with
      | some n => n == r.nf
      | none => true
    if !(same && sameNf) then X.bad r.addr
  pure { h := h, record := r, elt := elt }

/-- The elements of the active lanes; none where a store drops padding. DEDUCED (log 17). -/
def vmemElems (v : View) (t : Tensor) (store : Bool) (ls : List (Nat × Int)) : X (List (Nat × ElemAt)) := do
  let es ← ls.mapM (fun p => do
    let e ← t.elem v store p.2
    pure (e.map (fun a => (p.1, a))))
  pure (es.filterMap id)

def State.readerFor (s : State) (b : Starting) : Reader :=
  { core := s.core b.c, k := b.k, t := b.e.taken, free := s.fresh }

/-- A vector load starts (R263, R264, R266, R267). -/
def startLoad (b : Starting) (m : VMem) (d : VOp) : X Begun := do
  let s ← get
  let v := b.view s
  let t ← vmemTensor v b.e.taken m
  let r := s.readerFor b
  let ls := vmemLanes b.e.taken.guard t.elt.bits (vmemIndex r m b.e.instr)
  let es ← vmemElems v t false ls
  t.check ((s.core b.c).roomsFor b.k b.e.seq) (es.map (fun p => p.2))
  let ch ← match t.record with
    | some rc => readChunks v rc
    | none => pure none
  let (g, err) ← gatherX (b.access s .lq t.h) (hSpace t.h) ch
    (es.map (fun p => { j := p.1, nibbles := t.nibbles, at_ := p.2 })) b.e.progress
  match err with
  | some e => pure (.stopped e g)
  | none =>
    voidAfter v t.h g.replaced
    let e := t.elt.bits
    match b.e.taken.dest d with
    | some p =>
      pure (.land { writes := [{ dest := p, val := BitVec.ofNat 8192 (g.row e), mask := BitVec.ofNat 8192 (g.mask e) }],
                    latch := if p == .latch then none else some p, pred := none, flags := 0 })
    | none => pure (.land { writes := [], latch := none, pred := none, flags := 0 })

/-- A vector store starts: it reads its source, and its elements wait in the store data queue (R265). -/
def startStore (b : Starting) (m : VMem) (d : VOp) : X Begun := do
  let s ← get
  let v := b.view s
  let t ← vmemTensor v b.e.taken m
  let r := s.readerFor b
  let ls := vmemLanes b.e.taken.guard t.elt.bits (vmemIndex r m b.e.instr)
  let es ← vmemElems v t true ls
  t.check ((s.core b.c).roomsFor b.k b.e.seq) (es.map (fun p => p.2))
  let src := (r.op d).elems t.elt.bits
  -- an enclosure that a void element is written into is void (R59)
  let fed := r.voids t.elt.bits d
  voidAfter v t.h (es.any (fun p => (match p.2 with | .place _ => true | _ => false) && fed[p.1]?.getD 0 != 0))
  pure (.stores (es.filterMap (fun p =>
    match p.2 with
    | .place nib => some (elemStore (hSpace t.h) t.nibbles nib (src[p.1]?.getD 0))
    | _ => none)))

/-- A line of memory enters the cache room, where its page is in use and nothing stops a read (R264). -/
def prefLine (v : View) (a : Nat) (s : State) : State :=
  match s.walk v.sup a with
  | .leaf .. =>
    (match (readVa v a 64).run s with
    | .ok (_, t) => t
    | .error _ => s)
  | _ => s

/-- VPREF starts (R261, R264): the lines that hold its row's elements, every lane of which counts as active, and no
fault. DESIGN CHOICE (log 96). -/
def startPref (b : Starting) (m : VMem) : X Begun := do
  let s ← get
  let v := b.view s
  let places : X (List Nat) := do
    let t ← vmemTensor v b.e.taken m
    let es ← vmemElems v t false (vmemLanes (BitVec.allOnes 256) t.elt.bits (vmemIndex (s.readerFor b) m b.e.instr))
    pure (if hSpace t.h = 1 then [] else (es.filterMap (fun p => match p.2 with
      | .place nib => some ((spanOf t.nibbles nib).1 / 64 * 64)
      | _ => none)).eraseDups)
  match places.run s with
  | .ok (ls, t) => set (ls.foldl (fun s a => prefLine v a s) t)
  | .error _ => pure ()
  pure (.land { writes := [], latch := none, pred := none, flags := 0 })

/-- A VMEM instruction starts. -/
def startVmem (b : Starting) : X Begun :=
  match b.e.instr with
  | .vld m v | .vlds m v _ | .vgather m v _ _ | .vldx m v => startLoad b m v
  | .vst m v | .vsts m v _ | .vscatter m v _ _ => startStore b m v
  | .vpref m => startPref b m
  | _ => pure (.land { writes := [], latch := none, pred := none, flags := 0 })

end Sys2Proof.Machine
end

