-- ==== Sys2Proof/Machine/Tile.lean ====
section
/-! DEFINITION. Tile registers: their configuration, elements and scales, and TLDT and TSTT as LQ and SQ
start them, with block scales and compressed records (R61 to R66, R149, R199, R303, R309 to R312). -/

namespace Sys2Proof.Machine

/-! ## Configuration and elements (R149, R199, R303) -/

/-- A TCFG as a tile instruction uses it. -/
structure TileCfg where
  type : Nat
  rows : Nat
  cols : Nat
  elt : Elt
deriving DecidableEq, Repr

/-- The elements of a tile type; NF through the register named. -/
def tileElt (nf : Vector (BitVec 32) 4) (code n : Nat) (bad : Trap) : Except Trap Elt :=
  match code with
  | 0x01 => .ok (Elt.int 8 false)
  | 0x02 => .ok (Elt.int 8 true)
  | 0x11 => .ok (Elt.float 16 FFmt.bf16)
  | 0x12 => .ok (Elt.float 16 FFmt.f16)
  | 0x18 =>
    let w := nf[n]?.getD 0
    match nfFmt w with
    | some f => .ok (Elt.float (nfWidth w) f)
    | none => .error (illegalAt (w64 n))
  | _ => .error bad

/-- Bytes of a tile. -/
def TileCfg.bytes (c : TileCfg) : Nat := (c.rows * c.cols * c.elt.bits + 7) / 8

/-- A tile's configuration, checked when its instruction starts. -/
def tileCfg (bad : Trap) (tc : Word) (nf : Vector (BitVec 32) 4) (n matrix : Nat) : Except Trap TileCfg := do
  let v := tc.toNat
  let rows := bitsOf v 15 8
  let cols := bitsOf v 23 16
  if v / 2 ^ 24 ≠ 0 || rows = 0 || 128 < rows || cols = 0 || 128 < cols || matrix = 0 then throw bad
  let elt ← tileElt nf (v % 256) n bad
  let c : TileCfg := { type := v % 256, rows := rows, cols := cols, elt := elt }
  if 4096 * matrix < c.bytes then throw bad
  pure c

/-- Codes from bytes, and back: 4-bit codes two to a byte, the even one low (R303). -/
def codesOf (bits : Nat) : List Byte → List Nat
  | [] => []
  | a :: bs =>
    if bits = 4 then a.toNat % 16 :: a.toNat / 16 :: codesOf bits bs
    else if bits = 16 then
      match bs with
      | [] => [a.toNat]
      | b :: bs => (a.toNat + 256 * b.toNat) :: codesOf bits bs
    else a.toNat :: codesOf bits bs
def bytesOf (bits : Nat) : List Nat → List Byte
  | [] => []
  | a :: cs =>
    if bits = 4 then
      match cs with
      | [] => [BitVec.ofNat 8 (a % 16)]
      | b :: cs => BitVec.ofNat 8 (a % 16 + 16 * (b % 16)) :: bytesOf bits cs
    else if bits = 16 then BitVec.ofNat 8 a :: BitVec.ofNat 8 (a / 256) :: bytesOf bits cs
    else BitVec.ofNat 8 a :: bytesOf bits cs

/-- A tile as an instruction reads it: codes by row, scales, VOID. One whose Valid bit is clear reads free
elements with every scale 127 (R303). -/
structure TileRead where
  cfg : TileCfg
  codes : List Nat
  scales : Vector Byte 128
  void : Bool

def Core.tileSide (c : Core) (k : TReg) : TileSide := c.sides[k.toNat]'k.isLt

/-- A tile that a TLDT has yet to write to a register. -/
def Core.tilePending (c : Core) (k : TReg) : Option (List Byte × TileSide) :=
  (c.c0.lq ++ c.c1.lq).findSome? (fun e =>
    match e.phase with
    | .arrived { tile := some (n, bs, side), .. } => if n = k.toNat then some (bs, side) else none
    | _ => none)

/-- Each part of a tile is the old or the new one, freely. -/
def mixed {α : Type} (free i : Nat) (old new : α) : α := if Config.freeNat (freeKey free i) % 2 = 0 then old else new

/-- A read of a tile register; while a TLDT's write has not landed, each element and scale is the old or the
new one (R321). -/
def Core.readTile (c : Core) (k : TReg) (cfg : TileCfg) (free : Nat) : TileRead :=
  let side := c.tileSide k
  let base := k.toNat * 4096 * c.rooms.matrix
  let old : TileRead :=
    if side.valid then
      { cfg := cfg, codes := codesOf cfg.elt.bits (c.tiles.read base cfg.bytes), scales := side.scales, void := side.void }
    else
      { cfg := cfg, codes := codesOf cfg.elt.bits ((List.range cfg.bytes).map (fun i => Config.freeByte (freeKey free (base + i)))),
        scales := Vector.replicate 128 0x7F, void := side.void }
  match c.tilePending k with
  | none => old
  | some (bs, now) =>
    { old with
      codes := ((old.codes.zip (codesOf cfg.elt.bits (bs ++ List.replicate cfg.bytes 0))).zipIdx).map (fun p =>
        mixed free (base + p.2) p.1.1 p.1.2),
      scales := Vector.ofFn (fun i => mixed free (2 ^ 24 + i.val) old.scales[i] now.scales[i]),
      void := mixed free (2 ^ 24 + 128) old.void now.void }

/-! ## Blocks and scales (R62, R66, R312) -/

def ceilDiv (a b : Nat) : Nat := (a + b - 1) / b

/-- The number of the block that holds element `k` (R62). -/
def Rec.block (r : Rec) (k : Nat) : Nat :=
  let e0 := r.ext 0
  let n0 := ceilDiv e0 128
  if r.geometry = 2 then
    let e1 := if r.rank < 2 then 1 else r.ext 1
    k % e0 / 128 + n0 * (k / e0 % e1 / 128 + ceilDiv e1 128 * (k / e0 / e1))
  else k % e0 / 128 + n0 * (k / e0)

/-- SCALE_POISON (R66). -/
def scalePoison (blk : Nat) (ecc : Option (Nat × Nat)) : Trap :=
  { code := 0x08, detail := w64 blk, grade := .same, ecc := ecc }

/-- What reading a scale's line finds: the scale, or the error. -/
def scaleLine (v : View) (r : Rec) (blk : Nat) : X (Nat ⊕ Uncorr) := fun s =>
  match (readLong v (r.scaleVa + 64 * (blk / 60)) 64).run s with
  | .ok (bs, s) =>
    if fieldAt bs 60 4 = crc32c (bs.take 60) then .ok (.inl (fieldAt bs (blk % 60) 1), s)
    else .ok (.inr { va := r.scaleVa + 64 * (blk / 60), die := v.die, structure_ := 6, transient := false }, s)
  | .error (.poison u) => .ok (.inr u, s)
  | .error e => .error e

/-- The scale of a block under the operand's policy; none where it is corrupt (R66). -/
def Access.scale (a : Access) (r : Rec) (blk : Nat) : X (Option Nat) := do
  match ← scaleLine a.v r blk with
  | .inl b => pure (some b)
  | .inr u =>
    if a.policy = 0 then X.trap (scalePoison blk (some (u.die, u.structure_)))
    X.ecc u.die u.structure_
    let again ← (if a.policy = 2 then do
        if u.transient then modify (fun s => s.dropTransient a.v u)
        scaleLine a.v r blk
      else pure (.inr u))
    match again with
    | .inl b => pure (some b)
    | .inr w =>
      -- each mismatch of a line counts, the second read's too
      if a.policy = 2 && w.structure_ = 6 then X.ecc w.die w.structure_
      modify (a.log (scalePoison blk none) .logged)
      pure none

/-- The map byte of a block of a compressed record (R312). -/
def mapByte (v : View) (r : Rec) (blk : Nat) : X Nat := do
  let bs ← readVa v (r.mapVa + blk) 1
  pure (leNat bs)

/-- The nf format of a compressed record's packed codes. -/
def Rec.packed (r : Rec) (nf : Vector (BitVec 32) 4) : Elt :=
  let w := nf[r.nf]?.getD 0
  match nfFmt w with
  | some f => Elt.float (nfWidth w) f
  | none => Elt.int 8 true

/-- The place of a packed code: the block's first element's address, then the codes in order. -/
def packedPlace (t : Tensor) (r : Rec) (pk : Elt) (k : Nat) : Nat :=
  let i := k % r.ext 0 % 128
  t.coordPlace r (k - i) + i * (pk.bits / 4)

/-- What a block of a compressed record holds. -/
inductive BlockForm where
  | raw
  | packed (b : Nat)
  | corrupt
deriving DecidableEq, Repr

/-- The form of a block, its scale read where it is packed. -/
def Access.form (a : Access) (r : Rec) (blk : Nat) : X BlockForm := do
  if r.mapVa = 0 then pure .raw
  else
    match ← mapByte a.v r blk with
    | 0 => pure .raw
    | 1 =>
      match ← a.scale r blk with
      | some b => pure (if b = 0xFF then .corrupt else .packed b)
      | none => pure .corrupt
    | _ =>
      if a.policy = 0 then X.trap (scalePoison blk none)
      modify (a.log (scalePoison blk none) .logged)
      pure .corrupt

/-! ## What TLDT and TSTT share (R309, R311) -/

/-- The tensor that a tile instruction reaches, its first element and its first column. -/
structure TilePlace where
  t : Tensor
  r : Rec
  k0 : Int
  c0 : Nat
deriving DecidableEq, Repr

/-- Handle and record checks, and where the tile lies (R309, R310). -/
def tilePlace (v : View) (tk : Taken) (h : HReg) (xo : XReg) : X TilePlace := do
  let hd := tk.h h
  X.must (handleOk hd) (handleBad h)
  match ← recordFor v hd tk.nf with
  | none => X.bad 0
  | some r =>
    if r.kind = 3 then X.bad r.addr
    match dtypeElt tk.nf r.dtype r.nf with
    | none => X.bad r.addr
    | some d =>
      let k := hCursor hd + tk.x xo
      if k.toInt < 0 then X.trap (bounds k)
      let e0 := r.ext 0
      let t : Tensor := { h := hd, record := some r, elt := d }
      let c0 := if e0 = 0 then 0 else k.toNat % e0
      if (r.geometry = 1 && c0 % 128 ≠ 0) || (r.geometry = 2 && (c0 % 128 ≠ 0 || k.toNat / e0 % 128 ≠ 0)) then
        X.trap (misalign (w64 (t.coordPlace r k.toNat / 2)))
      pure { t := t, r := r, k0 := k.toInt, c0 := c0 }

/-- The tile elements that are not K padding: number in the tile and element index. -/
def TilePlace.elements (p : TilePlace) (cfg : TileCfg) : List (Nat × Int) :=
  (List.range cfg.rows).flatMap (fun r =>
    ((List.range cfg.cols).filter (fun c => p.c0 + c < p.r.ext 0)).map (fun c =>
      (r * cfg.cols + c, p.k0 + r * p.r.ext 0 + c)))

/-- The block of each row; none for a row that is padding. -/
def TilePlace.rowBlock (p : TilePlace) (r : Nat) : Option Nat :=
  let k := p.k0 + r * p.r.ext 0
  if 0 ≤ k && k < p.r.count then
    some (p.r.block (if p.r.geometry = 2 then p.k0.toNat else k.toNat))
  else none

/-- The element that a read of an index of the tensor reaches: itself, or under EDGE the real element for a
padding one (R65). -/
def TilePlace.source (p : TilePlace) (k : Int) : Option Nat :=
  if 0 ≤ k && k < p.r.count then some k.toNat else if p.r.pad = 2 then edgeIndex p.r k else none

/-- The block whose form the elements of a row are read by; none where they read no element. -/
def TilePlace.formBlock (p : TilePlace) (r : Nat) : Option Nat :=
  (p.source (p.k0 + r * p.r.ext 0)).map p.r.block

/-! ## TLDT (R310) -/

/-- How a source element's code enters the tile: copied, converted, or decoded from a packed block. -/
def tileCode (src pk dst : Elt) (same sat ftz : Bool) (rm : Rm) (form : BlockForm) (code : Nat) : Nat × BitVec 5 :=
  let conv (x : FVal) : Nat × BitVec 5 :=
    match dst.fp with
    | some f => let r := f.encode sat ftz rm x x.isSignalling; (r.code, r.flags)
    | none => (code, 0)
  match form with
  | .raw =>
    if same then (code, 0)
    else
      match src.fp with
      | some f => conv (f.readFtz ftz code)
      | none => (code, 0)
  | .packed b =>
    match pk.fp with
    | some f => conv (readScaled ftz (f.decode code) ((b : Int) - 127))
    | none => (code, 0)
  | .corrupt => conv (.nan false)

/-- The padding value of R65 in the tile's type. DEDUCED (log 42). -/
def tilePad (r : Rec) (dst : Elt) : Nat := if r.pad = 1 then dst.negInf else 0

/-- The scales of a TLDT's rows, 127 where the record has none of its own (R310). DEDUCED (log 42). -/
def rowScales (a : Access) (p : TilePlace) (rows : Nat) (forms : List BlockForm) : X (List Byte) :=
  if p.r.mapVa != 0 then pure (forms.map (fun f => if f == .corrupt then 0xFF else 0x7F))
  else if p.r.geometry = 0 then pure (List.replicate rows 0x7F)
  else if p.r.geometry = 2 then do
    match p.rowBlock 0 with
    | none => pure (List.replicate rows 0x7F)
    | some blk => pure (List.replicate rows (BitVec.ofNat 8 ((← a.scale p.r blk).getD 0xFF)))
  else (List.range rows).mapM (fun r => do
    match p.rowBlock r with
    | none => pure 0x7F
    | some blk => pure (BitVec.ofNat 8 ((← a.scale p.r blk).getD 0xFF)))

/-- TLDT starts (R309, R310, R312). DEDUCED (log 15, 16, 42). -/
def startTldt (b : Starting) (nfn : BitVec 2) (sat : Bool) (rm : Rm) (k : TReg) (h : HReg) (xo : XReg) : X Begun := do
  let s ← get
  let v := b.view s
  let tk := b.e.taken
  let core := (s.core b.c).roomsFor b.k b.e.seq
  let bad := illegalOf (encode b.e.instr)
  let cfg ← X.except (tileCfg bad (tk.tcfg[k.toNat]'(by have := k.isLt; omega)) tk.nf nfn.toNat core.rooms.matrix)
  let p ← tilePlace v tk h xo
  let same := p.r.dtype == cfg.type && (cfg.type != 0x18 || p.r.nf == nfn.toNat)
  let converts := 0x10 ≤ p.r.dtype && p.r.dtype ≤ 0x12 && (cfg.type == 0x11 || cfg.type == 0x12)
  if !same && (!converts || hEncl p.t.h) then X.trap bad
  let els := p.elements cfg
  let ats ← els.mapM (fun q => p.t.elem v false q.2)
  p.t.check core (ats.filterMap id)
  let ch ← readChunks v p.r
  let a := b.access s .lq p.t.h
  let forms ← (List.range cfg.rows).mapM (fun r => do
    match p.formBlock r with
    | some blk => a.form p.r blk
    | none => pure .raw)
  let pk := p.r.packed tk.nf
  let items : List Item := (els.zip ats).map (fun q =>
    match q.2, forms[q.1.1 / cfg.cols]?.getD .raw with
    | some (.place _), .packed _ =>
      { j := q.1.1, nibbles := pk.bits / 4, at_ := .place (packedPlace p.t p.r pk ((p.source q.1.2).getD 0)) }
    | some (.place _), .corrupt => { j := q.1.1, nibbles := 2, at_ := .value 0 }
    | some e, _ => { j := q.1.1, nibbles := p.t.nibbles, at_ := e }
    | none, _ => { j := q.1.1, nibbles := 2, at_ := .value 0 })
  let (g, err) ← gatherX a (hSpace p.t.h) ch items b.e.progress
  match err with
  | some e => pure (.stopped e g)
  | none =>
    let s ← get
    match (rowScales a p cfg.rows forms).run s with
    | .error e => pure (.stopped e g)
    | .ok (scales, s) =>
      set s
      voidAfter v p.t.h g.replaced
      let real := items.map (fun i => match i.at_ with | .value _ => false | _ => true)
      let conv := (g.got.reverse.zip real).map (fun q =>
        let form := forms[q.1.1 / cfg.cols]?.getD .raw
        if q.2 || form == .corrupt then (q.1.1, tileCode p.t.elt pk cfg.elt same sat tk.ftz rm form q.1.2)
        else (q.1.1, (tilePad p.r cfg.elt, 0)))
      let codes := conv.foldl (fun (l : Array Nat) q => l.setIfInBounds q.1 q.2.1) (Array.replicate (cfg.rows * cfg.cols) 0)
      let flags := conv.foldl (fun (f : BitVec 5) q => f ||| q.2.2) 0
      let side : TileSide :=
        { scales := Vector.ofFn (fun i => scales[i.val]?.getD 0x7F), nf := nfn,
          void := hEncl p.t.h && (p.r.status % 2 == 1 || g.replaced || scales.any (fun x => x == 0xFF)),
          valid := true }
      pure (.land { writes := [], latch := none, pred := none, flags := flags,
                    tile := some (k.toNat, bytesOf cfg.elt.bits codes.toList, side) })

/-! ## TSTT (R311, R312) -/

/-- A read that may find its sector uncorrectable: none there, a Lodge's line being scrubbed (R210). -/
def X.orPoison {α : Type} (m : X α) : X (Option α) := fun s =>
  match m.run s with
  | .ok (x, s) => .ok (some x, s)
  | .error (.poison u) => .ok (none, s.scrub u)
  | .error e => .error e

/-- The stores that demote a packed block to its dtype, then its map byte (R312). Codes in an uncorrectable
sector fault as any read, but for TDRAIN, which has no such fault (R322) and writes NaN. DEDUCED (log 42). -/
def demote (a : Access) (drain : Bool) (t : Tensor) (r : Rec) (nf : Vector (BitVec 32) 4) (blk first : Nat) :
    X (List ElemStore) := do
  match ← mapByte a.v r blk with
  | 1 =>
    let pk := r.packed nf
    let line ← scaleLine a.v r blk
    match line with
    | .inl _ => pure ()
    | .inr u => X.ecc u.die u.structure_
    let n := min 128 (r.ext 0 - first % r.ext 0)
    let es ← (List.range n).mapM (fun i => do
      let rd := readElem a.v (hSpace t.h) (pk.bits / 4) (packedPlace t r pk (first + i))
      let code ← if drain then rd.orPoison else some <$> rd
      let x := match line, pk.fp, code with
        | .inl sc, some f, some code => if sc = 0xFF then FVal.nan false else (f.decode code).scale ((sc : Int) - 127)
        | _, _, _ => FVal.nan false
      let c := match t.elt.fp with
        | some f => (f.encode false false .rne x false).code
        | none => 0
      pure (elemStore (hSpace t.h) t.nibbles (t.coordPlace r (first + i)) c))
    pure (es ++ [.mem (r.mapVa + blk) [0]])
  | _ => pure []

/-- The map's part of a RAW write of some elements: demotions before it, and map bytes after it. -/
def rawBlocks (a : Access) (drain : Bool) (t : Tensor) (r : Rec) (nf : Vector (BitVec 32) 4) (ks : List Nat) :
    X (List ElemStore × List ElemStore) := do
  if r.mapVa = 0 then pure ([], [])
  else
    let firsts := (ks.map (fun k => k - k % r.ext 0 % 128)).eraseDups
    let parts ← firsts.mapM (fun f => do
      let n := min 128 (r.ext 0 - f % r.ext 0)
      let blk := r.block f
      if (List.range n).all (fun i => ks.contains (f + i)) then pure ([], [ElemStore.mem (r.mapVa + blk) [0]])
      else pure (← demote a drain t r nf blk f, []))
    pure (parts.flatMap (fun p => p.1), parts.flatMap (fun p => p.2))

/-- A corrupt block ahead of read-modify-writes: its elements read as NaN, and it is RAW after a write that covers
all of them (R66, R312). DEDUCED (log 42). -/
def clearCorrupt (t : Tensor) (r : Rec) (blk first : Nat) (ks : List Nat) : List ElemStore :=
  let n := min 128 (r.ext 0 - first % r.ext 0)
  let nan := match t.elt.fp with | some f => (f.encode false false .rne (FVal.nan false) false).code | none => 0
  (List.range n).map (fun i => elemStore (hSpace t.h) t.nibbles (t.coordPlace r (first + i)) nan) ++
    (if (List.range n).all (fun i => ks.contains (first + i)) then [.mem (r.mapVa + blk) [0]] else [])

/-- The demotions of every block that some elements touch, ahead of read-modify-writes of them. -/
def demoteBlocks (a : Access) (t : Tensor) (r : Rec) (nf : Vector (BitVec 32) 4) (ks : List Nat) : X (List ElemStore) := do
  if r.mapVa = 0 then pure []
  else
    let firsts := (ks.map (fun k => k - k % r.ext 0 % 128)).eraseDups
    let parts ← firsts.mapM (fun f => do
      match ← mapByte a.v r (r.block f) with
      | 0 => pure []
      | 1 => demote a true t r nf (r.block f) f
      | _ => pure (clearCorrupt t r (r.block f) f ks))
    pure parts.flatten

/-- Scale stores by line: (block, byte) pairs. -/
def scaleStores (r : Rec) (l : List (Nat × Byte)) : List ElemStore :=
  let lines := (l.map (fun p => p.1 / 60)).eraseDups
  lines.map (fun n => .scale (r.scaleVa + 64 * n)
    ((l.filter (fun p => p.1 / 60 == n)).map (fun p => (p.1 % 60, p.2))))

/-- TSTT starts: it reads the tile, and its writes wait (R311, R312). DEDUCED (log 16). -/
def startTstt (b : Starting) (k : TReg) (h : HReg) (xo : XReg) : X Begun := do
  let s ← get
  let v := b.view s
  let tk := b.e.taken
  let core := (s.core b.c).roomsFor b.k b.e.seq
  let bad := illegalOf (encode b.e.instr)
  let side := core.tileSide k
  let cfg ← X.except (tileCfg bad (tk.tcfg[k.toNat]'(by have := k.isLt; omega)) tk.nf side.nf.toNat core.rooms.matrix)
  let p ← tilePlace v tk h xo
  if p.r.dtype ≠ cfg.type || (cfg.type = 0x18 && p.r.nf ≠ side.nf.toNat) then X.trap bad
  let els := p.elements cfg
  let ats ← els.mapM (fun q => p.t.elem v true q.2)
  p.t.check core (ats.filterMap id)
  let tile := core.readTile k cfg s.fresh
  let codes := tile.codes.toArray
  let placed := (els.zip ats).filterMap (fun q => match q.2 with | some (.place nib) => some (q.1.1, q.1.2, nib) | _ => none)
  let data := placed.map (fun q => elemStore (hSpace p.t.h) p.t.nibbles q.2.2 (codes[q.1]?.getD 0))
  let (before, after) ← rawBlocks (b.access s .sq p.t.h) false p.t p.r tk.nf (placed.map (fun q => q.2.1.toNat))
  let scales := match p.r.geometry with
    | 0 => []
    | 2 => match p.rowBlock 0 with
      | some blk => scaleStores p.r [(blk, tile.scales[0])]
      | none => []
    | _ => scaleStores p.r ((List.range cfg.rows).filterMap (fun r =>
        (p.rowBlock r).map (fun blk => (blk, tile.scales[r]?.getD 0x7F))))
  pure (.stores (before ++ data ++ scales ++ after))

end Sys2Proof.Machine
end

