-- ==== Sys2Proof/Machine/Affine.lean ====
section
/-! DEFINITION. Affine tensors: their records and lists, the symbol tables, condensation, and how an ENC
instruction checks, pretranslates and writes (R80 to R87, R97 to R103, R324, R376, R377). -/

namespace Sys2Proof.Machine

/-! ## Records and lists (R81, R82) -/

/-- An affine operand: its tensor, record, element count and list (diagonal, id). -/
structure Aff where
  t : Tensor
  r : Rec
  n : Nat
  fmt : FFmt
  list : List (Bool × Nat)

/-- The bytes from a tensor's base to its last element's end, for whole-byte elements (R172). -/
def Rec.spanBytes (r : Rec) (eb : Nat) : Nat :=
  if r.count = 0 then 0 else (r.dims.map (fun d => (r.ext d - 1) * r.str d)).sum + eb

/-- Beyond the rules for every record (R81, R82). -/
def Rec.affineOk (r : Rec) (eb : Nat) : Bool :=
  r.kind == 2 && 0x10 ≤ r.dtype && r.dtype ≤ 0x12 && r.geometry == 0 && r.count ≤ 2 ^ 24 &&
    r.genStride % 64 == 0 && r.spanBytes eb ≤ r.genStride && r.allowance ≤ 65535 &&
    r.live ≤ r.allowance && r.status < 4 && r.symVa % 4 == 0 && r.remVa % 64 == 0

/-- Ascending ids, none inside an earlier diagonal entry's span. -/
def listOk (n : Nat) : List (Bool × Nat) → Bool
  | a :: b :: t => a.2 < b.2 && (!a.1 || a.2 + n ≤ b.2) && listOk n (b :: t)
  | _ => true

def parseList (bs : List Byte) (k : Nat) : List (Bool × Nat) :=
  (List.range k).map (fun i => let w := fieldAt bs (4 * i) 4; (w / 2 ^ 31 == 1, w % 2 ^ 31))
def listBytes (l : List (Bool × Nat)) : List Byte := l.flatMap (fun e => leBytes 4 (bit e.1 * 2 ^ 31 + e.2))

/-- A handle as an affine operand, checked (R138, R324). -/
def affineOf (v : View) (tk : Taken) (h : HReg) : X Aff := do
  let hd := tk.h h
  X.must (handleOk hd) (handleBad h)
  match ← recordFor v hd tk.nf with
  | none => X.bad 0
  | some r =>
    match dtypeElt tk.nf r.dtype r.nf with
    | some { bits := bits, fp := some f, uns := u } =>
      if !hEncl hd || !r.affineOk (bits / 8) then X.bad r.addr
      let l := parseList (← readLong v r.symVa (4 * r.live)) r.live
      if !listOk r.count l then X.bad r.addr
      pure { t := { h := hd, record := some r, elt := { bits := bits, fp := some f, uns := u } }, r := r,
             n := r.count, fmt := f, list := l }
    | _ => X.bad r.addr

/-- Every affine operand has the same extents and dtype (R324). -/
def sameShape (l : List Aff) : X Unit :=
  match l with
  | [] => pure ()
  | a :: rest =>
    match rest.find? (fun b => b.r.dtype != a.r.dtype || b.r.rank != a.r.rank || b.r.extent != a.r.extent) with
    | some b => X.bad b.r.addr
    | none => pure ()

/-! ## Parts -/

/-- A handle with another base. -/
def rebase (h : HandleWord) (base : Nat) : HandleWord := BitVec.ofNat 256 (h.toNat / 2 ^ 64 * 2 ^ 64 + base % 2 ^ 64)

/-- The place of element `j` of stack entry `k`, or of the centre. -/
def Aff.genPlace (a : Aff) (k j : Nat) : Nat :=
  ({ a.t with h := rebase a.t.h (a.r.genVa + k * a.r.genStride) } : Tensor).coordPlace a.r j
def Aff.centrePlace (a : Aff) (j : Nat) : Nat := a.t.coordPlace a.r j
def Aff.remPlace (a : Aff) (j : Nat) : Nat := 2 * (a.r.remVa + 4 * j)

/-- The centre's elements under the checks of R263. DEDUCED (log 43). -/
def Aff.check (a : Aff) (c : Core) : X Unit :=
  a.t.check c ((List.range a.n).map (fun j => .place (a.centrePlace j)))

/-- The bytes that an operand's parts cover, with `m` stack entries: space, from, to (R103); a destination's
with its whole allowance. DESIGN CHOICE (log 75). -/
def Aff.ranges (a : Aff) (core m : Nat) : List Range :=
  let g (lo n : Nat) : Range := { padOf := none, lo := lo, hi := lo + n }
  let span := a.r.spanBytes (a.t.elt.bits / 8)
  [g a.r.addr 192, { padOf := if hSpace a.t.h = 1 then some core else none, lo := hBase a.t.h, hi := hBase a.t.h + span },
   g a.r.remVa (4 * a.n), g a.r.symVa (4 * m), g a.r.genVa (m * a.r.genStride)]

/-- Step 2 of R324: every page of some ranges of global addresses. -/
def pretranslate (v : View) (write : Bool) (l : List Range) : X Unit :=
  (l.filter (fun r => r.padOf.isNone && r.lo < r.hi)).forM (fun r =>
    (List.range ((r.hi - 1) / 65536 - r.lo / 65536 + 1)).forM (fun i => do
      let _ ← translate v (max r.lo ((r.lo / 65536 + i) * 65536)) write))

/-- Codes gathered in order, or the error that stopped it. `met` holds what the instruction's earlier parts have
recorded, of which each is recorded once (R266, R267); it goes on with this part's. -/
def gatherAll (a : Access) (space : Nat) (ch : Option Chunks) (l : List Item) (met : Got) : X (List Nat × Bool × Got) := do
  let (g, err) ← gatherX a space ch l { seen := met.seen, chunkSeen := met.chunkSeen }
  match err with
  | some e => X.fail e
  | none => pure (g.got.reverse.map (fun p => p.2), g.replaced, { seen := g.seen, chunkSeen := g.chunkSeen })

/-- Several parts gathered one after another. -/
def gatherParts (a : Access) (space : Nat) (ch : Option Chunks) : List (List Item) → Got → X (List (List Nat) × Bool × Got)
  | [], met => pure ([], false, met)
  | l :: t, met => do
    let (c, rep, met) ← gatherAll a space ch l met
    let (cs, reps, met) ← gatherParts a space ch t met
    pure (c :: cs, rep || reps, met)

/-- A stack entry: diagonal or not, id, its codes. -/
structure Gen where
  d : Bool
  id : Nat
  g : List Nat
deriving DecidableEq, Repr

/-- An affine operand's values. -/
structure AffVals where
  centre : List Nat
  gens : List Gen
  rem : List FVal
  /-- its VOID bit, or a cause of R101 found while reading it -/
  void : Bool
  /-- some element was replaced (R267) -/
  replaced : Bool
  met : Got

/-- Reads the remainder: negative or NaN as infinite, with VOID (R82). -/
def Aff.readRem (a : Aff) (ac : Access) (ch : Option Chunks) (met : Got) : X (List FVal × Bool × Bool × Got) := do
  let (rs, rep, met) ← gatherAll ac 0 ch ((List.range a.n).map (fun j => { j := j, nibbles := 8, at_ := .place (a.remPlace j) })) met
  let vs := rs.map (fun c => readRadius (FFmt.f32.decode c))
  pure (vs.map (fun p => p.1), vs.any (fun p => p.2), rep, met)

/-- Reads the stack. -/
def Aff.readGens (a : Aff) (ac : Access) (ch : Option Chunks) (met : Got) : X (List Gen × Bool × Got) := do
  let items (k : Nat) : List Item := (List.range a.n).map (fun j => { j := j, nibbles := a.t.nibbles, at_ := .place (a.genPlace k j) })
  let (gs, rep, met) ← gatherParts ac 0 ch ((List.range a.list.length).map items) met
  pure ((a.list.zip gs).map (fun e => { d := e.1.1, id := e.1.2, g := e.2 }), rep, met)

/-- Reads every part. -/
def Aff.read (a : Aff) (ac : Access) (met : Got) : X AffVals := do
  let ch ← readChunks ac.v a.r
  let (c, rep, met) ← gatherAll ac (hSpace a.t.h) ch
    ((List.range a.n).map (fun j => { j := j, nibbles := a.t.nibbles, at_ := .place (a.centrePlace j) })) met
  let (gs, repG, met) ← a.readGens ac ch met
  let (r, bad, repR, met) ← a.readRem ac ch met
  let replaced := rep || repR || repG
  pure { centre := c, gens := gs, rem := r, replaced := replaced, void := a.r.status % 2 == 1 || replaced || bad, met := met }

/-- The places where R324 reads an operand's parts. -/
def Aff.access (a : Aff) (b : Starting) (s : State) : Access := b.access s .cq a.t.h

/-! ## The symbol manager (R83 to R87, R376, R377) -/

def symTable (t : Nat) : Nat := Config.symbolBase + 2 ^ 22 * (t + 1)
def symDir (t : Nat) : Nat := Config.symbolBase + 64 * t

/-- A slot's fields. -/
structure Slot where
  i : Nat
  base : Nat
  count : Nat
  holders : Nat
  birth : Nat
  task : Nat
  ordinal : Nat
deriving DecidableEq, Repr

def State.slotState (s : State) (t i : Nat) : Nat := s.readNear (symTable t + 64 * i + 8) 1

/-- The live slots of a table, `k` of them, from slot `i`. -/
def State.liveSlots (s : State) (t : Nat) : Nat → Nat → Nat → List Slot
  | 0, _, _ => []
  | fuel + 1, i, k =>
    if k = 0 then []
    else if s.slotState t i = 1 then
      let a := symTable t + 64 * i
      { i := i, base := s.readNear a 4, count := s.readNear (a + 4) 4, holders := s.readNear (a + 0xC) 4,
        birth := s.readNear (a + 0x14) 4, task := s.readNear (a + 0x18) 8, ordinal := s.readNear (a + 0x20) 4 } ::
        s.liveSlots t fuel (i + 1) (k - 1)
    else s.liveSlots t fuel (i + 1) k

/-- The ranges of a launch that are not terminal. -/
def State.slots (s : State) (launch : Option Nat) : List Slot :=
  match (launch.bind s.launch?).bind (fun l => l.symbols) with
  | some t => s.liveSlots t 65536 0 (s.readNear (symDir t + 8) 4)
  | none => []

/-- The range that covers an id. -/
def covering (ls : List Slot) (id : Nat) : Option Slot := ls.find? (fun x => x.base ≤ id && id < x.base + x.count)

/-- The lowest slot that holds no live range. DEDUCED (log 43). -/
def State.freeSlot (s : State) (t : Nat) : Nat → Nat → Nat
  | 0, i => i
  | fuel + 1, i => if s.slotState t i = 1 then s.freeSlot t fuel (i + 1) else i

/-- The lowest symbol table that no launch holds. -/
def State.freeTable (s : State) : Option Nat :=
  (List.range 16).find? (fun t => !s.launches.any (fun l => l.symbols == some t))

/-- SYMBOL_EXHAUSTED (R86). -/
def exhausted (next used : Nat) : Trap := { code := 0x10, detail := w64 next, aux := BitVec.ofNat 32 used }

/-- Mints a range for a task (R83, R84, R86): its base. A mint that finds no free table waits (R376), DEDUCED (log 43);
so does one of a context that holds no task, which has no launch to take a table for. DESIGN CHOICE (log 90). -/
def mint (task : Option Nat) (n sig birth : Nat) : X Nat := do
  let s ← get
  match task.bind s.task? with
  | none => X.fail .wait
  | some tk =>
    match s.launch? tk.launch with
    | none => X.fail .wait
    | some l =>
      let t ← match l.symbols with
        | some t => pure t
        | none =>
          match s.freeTable with
          | none => X.fail .wait
          | some t =>
            let s := s.setLaunch { l with symbols := some t }
            set (((s.writeNear (symDir t) 4 l.req.tag.toNat).writeNear (symDir t + 4) 4 1).writeNear (symDir t + 8) 4 0)
            pure t
      let s ← get
      let next := s.readNear (symDir t + 4) 4
      let used := s.readNear (symDir t + 8) 4
      if 2 ^ 31 ≤ next + n || 65536 ≤ used then X.trap (exhausted next used)
      let i := s.freeSlot t 65536 0
      let a := symTable t + 64 * i
      let bytes := leBytes 4 next ++ leBytes 4 n ++ leBytes 4 1 ++ leBytes 4 1 ++ leBytes 4 sig ++ leBytes 4 birth ++
        leBytes 8 tk.word.toNat ++ leBytes 4 tk.mints ++ List.replicate 28 0
      let s := { s with mem := memWrite s.mem a bytes }
      let s := (s.writeNear (symDir t + 4) 4 (next + n)).writeNear (symDir t + 8) 4 (used + 1)
      set (s.setTask { tk with mints := tk.mints + 1 })
      pure next

/-- The live slots that a list names. -/
def named (ls : List Slot) (list : List (Bool × Nat)) : List Nat :=
  (list.filterMap (fun e => (covering ls e.2).map (fun x => x.i))).eraseDups

/-- A slot's holder count moves; at zero the range is terminal and its slot free (R85, R377). -/
def State.holderDown (s : State) (t i : Nat) (condensed : Bool) : State :=
  let a := symTable t + 64 * i
  let n := s.readNear (a + 0xC) 4 - 1
  let s := s.writeNear (a + 0xC) 4 n
  if n = 0 then
    (s.writeNear (a + 8) 1 (if condensed then 2 else 3)).writeNear (symDir t + 8) 4 (s.readNear (symDir t + 8) 4 - 1)
  else s
def State.holderUp (s : State) (t i : Nat) : State :=
  let a := symTable t + 64 * i
  s.writeNear (a + 0xC) 4 (s.readNear (a + 0xC) 4 + 1)

/-- Several holder counts fall: table, slot, whether by condensation. -/
def State.dropHolders (s : State) (l : List (Nat × Nat × Bool)) : State := l.foldl (fun s d => s.holderDown d.1 d.2.1 d.2.2) s

/-- A tensor's list changes: `fresh` was minted for it, `folded` left it by condensation (R85). The ranges that it
names anew gain a holder; those that it names no more, which lose one when the instruction completes, are the
answer. DESIGN CHOICE (log 102). -/
def retarget (launch : Option Nat) (old new : List (Bool × Nat)) (fresh : Option Nat) (folded : List (Bool × Nat)) :
    X (List (Nat × Nat × Bool)) := do
  let s ← get
  match (launch.bind s.launch?).bind (fun l => l.symbols) with
  | none => pure []
  | some t =>
    let ls := s.slots launch
    let before := (named ls old ++ (match fresh with | some b => named ls [(true, b)] | none => [])).eraseDups
    let after := named ls new
    let cond := named ls folded
    set ((after.filter (fun i => !before.contains i)).foldl (fun s i => s.holderUp t i) s)
    pure ((before.filter (fun i => !after.contains i)).map (fun i => (t, i, cond.contains i)))

/-! ## Condensation (R97, R98) -/

/-- Exact Σ |G_k[j]| of an entry, rounded up into F32. -/
def genSig (f : FFmt) (g : Gen) : Nat := encF FFmt.f32 .ru (sumV (g.g.map (fun c => absV (f.decode c))))

/-- The key of R98: significance, birth layer, task, ordinal, offset, id. -/
def condKey (f : FFmt) (ls : List Slot) (g : Gen) : List Nat :=
  match covering ls g.id with
  | some x => [genSig f g, x.birth, x.task, x.ordinal, g.id - x.base, g.id]
  | none => [genSig f g, 0, 0, 0, 0, g.id]

def keyLe : List Nat → List Nat → Bool
  | a :: s, b :: t => a < b || (a == b && keyLe s t)
  | _, _ => true

def insertBy {α : Type} (le : α → α → Bool) (v : α) (l : List α) : List α :=
  l.takeWhile (fun w => !le v w) ++ [v] ++ l.dropWhile (fun w => !le v w)
def sortBy {α : Type} (le : α → α → Bool) (l : List α) : List α := l.foldr (insertBy le) []

/-- The ids of the `k` entries that fold first. -/
def foldFirst (f : FFmt) (ls : List Slot) (gs : List Gen) (k : Nat) : List Nat :=
  ((sortBy (fun a b => keyLe a.1 b.1) (gs.map (fun g => (condKey f ls g, g.id)))).take k).map (fun p => p.2)

/-- A condensed tensor: the entries kept, the remainder, the entries folded. -/
structure Condensed where
  gens : List Gen
  rem : List FVal
  folded : List Gen

/-- Folds entries until `target` are left. -/
def condenseTo (f : FFmt) (ls : List Slot) (gs : List Gen) (rem : List FVal) (target : Nat) : Condensed :=
  if gs.length ≤ target then { gens := gs, rem := rem, folded := [] }
  else
    let ids := foldFirst f ls gs (gs.length - target)
    -- in the order in which they fold
    let fold := ids.filterMap (fun i => gs.find? (fun g => g.id == i))
    { gens := gs.filter (fun g => !ids.contains g.id), folded := fold,
      rem := rem.zipIdx.map (fun p =>
        (round32 .ru (sumV (p.1 :: fold.map (fun g => absV (f.decode (g.g[p.2]?.getD 0)))))).orInf) }

/-- The significances of folded entries, written into their ranges (R84, R98). -/
def noteFolded (launch : Option Nat) (f : FFmt) (gs : List Gen) : X Unit :=
  modify (fun s =>
    match (launch.bind s.launch?).bind (fun l => l.symbols) with
    | none => s
    | some t =>
      let ls := s.slots launch
      gs.foldl (fun s g =>
        match covering ls g.id with
        | some x => s.writeNear (symTable t + 64 * x.i + 0x10) 4 (genSig f g)
        | none => s) s)

/-! ## Writing a result (R324) -/

/-- A result as an ENC instruction writes it. -/
structure AffOut where
  centre : List Nat
  gens : List Gen
  rem : List FVal
  void : Bool
  /-- CONDENSED of the inputs -/
  cond : Bool
  birth : Nat
  fresh : Option Nat

def putElem (v : View) (space nibbles nib code : Nat) : X Unit := performStore v (elemStore space nibbles nib code)

/-- The PERF count of records with a final VOID. -/
def countVoid (c : Nat) (void : Bool) : X Unit := modify (fun s => s.count c 0x13 (bit void))

/-- Condenses a result to its allowance, writes every part, and the record last (R97, R324).
DEDUCED (log 43). -/
def Aff.write (d : Aff) (c : Nat) (v : View) (launch : Option Nat) (o : AffOut) (target : Nat) : X (List (Nat × Nat × Bool)) := do
  let s ← get
  let k := condenseTo d.fmt (s.slots launch) o.gens o.rem target
  let nib := d.t.nibbles
  k.gens.zipIdx.forM (fun g => g.1.g.zipIdx.forM (fun x => putElem v 0 nib (d.genPlace g.2 x.2) x.1))
  o.centre.zipIdx.forM (fun x => putElem v (hSpace d.t.h) nib (d.centrePlace x.2) x.1)
  k.rem.zipIdx.forM (fun x => putElem v 0 8 (d.remPlace x.2) (encF FFmt.f32 .ru x.1))
  noteFolded launch d.fmt k.folded
  modify (fun s => s.count c 0x12 k.folded.length)
  let list := k.gens.map (fun g => (g.d, g.id))
  let drops ← retarget launch d.list list o.fresh (k.folded.map (fun g => (g.d, g.id)))
  writeLong v d.r.symVa (listBytes list)
  writeRec v d.r.addr 0xA0 (leBytes 4 list.length)
  writeRec v d.r.addr 0xAC (leBytes 4 o.birth)
  writeRec v d.r.addr 0xA8 (leBytes 4 (bit o.void + 2 * bit (o.cond || !k.folded.isEmpty)))
  countVoid c o.void
  pure drops

/-- Steps 2 and 3 of R324: pretranslation, VOID in the records to be written, then the work, which answers the ranges
that lose a holder; a fault in the work leaves VOID set and nothing else. DEDUCED (log 24, 43). -/
def encRun (v : View) (reads writes : List Range) (records : List Nat) (work : X (List (Nat × Nat × Bool))) : X Begun := do
  pretranslate v false reads
  pretranslate v true writes
  fun s =>
    match (records.forM (fun a => setStatus v a 1)).run s with
    | .error e => .error e
    | .ok (_, s1) =>
      match work.run s1 with
      | .ok (drops, s2) => .ok (.land { writes := [], latch := none, pred := none, flags := 0, drops := drops }, s2)
      | .error .wait => .error .wait
      | .error (.stop f) => .error (.stop f)
      | .error e => .ok (.stopped e {}, s1)

end Sys2Proof.Machine
end

