-- ==== Sys2Proof/Machine/Enclosure.lean ====
section
/-! DEFINITION. The ENC instructions as CQ starts them (R82, R88, R90 to R97, R323 to R334, R378 to R380). -/

namespace Sys2Proof.Machine

def Landing.empty : Landing := { writes := [], latch := none, pred := none, flags := 0 }

/-- The launch of a starting entry's task. -/
def Starting.launch (b : Starting) (s : State) : Option Nat := ((s.ctx b.c b.k).task.bind s.task?).map (fun t => t.launch)
def Starting.task (b : Starting) (s : State) : Option Nat := (s.ctx b.c b.k).task

/-! ## Plain bounds (R324) -/

/-- A handle of plain F32 bounds, checked: its tensor and the places of its elements. -/
structure Plain where
  t : Tensor
  at_ : List (Option ElemAt)

/-- A plain bound or limit handle: the record's elements are as wide as F32 (R262); a handle may have none, its elements
then lying one after another, as R262 places them. DESIGN CHOICE (log 100). -/
def plainOf (b : Starting) (v : View) (tk : Taken) (h : HReg) (n : Nat) (store : Bool) : X Plain := do
  let hd := tk.h h
  X.must (handleOk hd) (handleBad h)
  let r ← recordFor v hd tk.nf
  match r with
  | some r => if (dtypeElt tk.nf r.dtype r.nf).any (fun d => d.bits != 32) then X.bad r.addr
  | none => pure ()
  let t : Tensor := { h := hd, record := r, elt := Elt.float 32 FFmt.f32 }
  let es ← (List.range n).mapM (fun j => t.elem v store (hCursor hd + w64 j).toInt)
  t.check (((← get).core b.c).roomsFor b.k b.e.seq) (es.filterMap id)
  pure { t := t, at_ := es }

/-- The bytes that a plain handle's accesses may reach, as ranges of global addresses. -/
def Plain.ranges (p : Plain) : List Range :=
  p.at_.filterMap (fun e => match e with
    | some (.place nib) => if hSpace p.t.h = 1 then none else some { padOf := none, lo := nib / 2, hi := nib / 2 + 4 }
    | _ => none)

/-- The values, and whether one of them was replaced (R101). -/
def Plain.read (p : Plain) (b : Starting) (s : State) (met : Got) : X (List FVal × Bool × Got) := do
  let a := b.access s .cq p.t.h
  let ch ← match p.t.record with
    | some r => readChunks a.v r
    | none => pure none
  let (cs, rep, met) ← gatherAll a (hSpace p.t.h) ch
    (p.at_.zipIdx.map (fun e => { j := e.2, nibbles := 8, at_ := e.1.getD (.value 0) })) met
  voidAfter a.v p.t.h rep
  pure (cs.map FFmt.f32.decode, rep, met)

def Plain.write (p : Plain) (v : View) (l : List Nat) : X Unit :=
  (p.at_.zip l).forM (fun e => match e.1 with
    | some (.place nib) => putElem v (hSpace p.t.h) 8 nib e.2
    | _ => pure ())

/-! ## ABOUND and ACHK (R90, R102, R325, R332) -/

/-- The default NaN of F32. -/
def nan32 : Nat := 0x7FC00000

/-- The bounds of each element (R90). -/
def Aff.bounds (a : Aff) (vals : AffVals) : List (Nat × Nat) :=
  if a.r.status % 2 == 1 || vals.replaced then List.replicate a.n (nan32, nan32)
  else
    (vals.centre.zip vals.rem).zipIdx.map (fun p =>
      let c := a.fmt.decode p.1.1
      let s := sumV (p.1.2 :: vals.gens.map (fun g => absV (a.fmt.decode (g.g[p.2]?.getD 0))))
      if s.isNan then (nan32, nan32)
      else if s.isInf then (0xFF800000, 0x7F800000)
      else (encF FFmt.f32 .rd (exactAdd .rd c s.negate).v, encF FFmt.f32 .ru (addV c s)))

/-- ABOUND starts (R325). DEDUCED (log 41). -/
def startAbound (b : Starting) (hd ha hb : HReg) : X Begun := do
  let s ← get
  let v := b.view s
  let tk := b.e.taken
  let a ← affineOf v tk ha
  a.check ((s.core b.c).roomsFor b.k b.e.seq)
  let lo ← plainOf b v tk hd a.n true
  let hi ← plainOf b v tk hb a.n true
  encRun v (a.ranges b.c a.list.length) (lo.ranges ++ hi.ranges) [] do
    let vals ← a.read (a.access b (← get)) {}
    voidAfter v a.t.h vals.replaced
    let bs := a.bounds vals
    lo.write v (bs.map (fun p => p.1))
    hi.write v (bs.map (fun p => p.2))
    pure []

/-- ACHK's 32-byte result (R332). The smallest l and the largest u are a NaN where some bound is a NaN, or where the
tensor has no elements. DESIGN CHOICE (log 99). -/
def achkResult (void : Bool) (bs : List (Nat × Nat)) (lo hi : List FVal) : List Byte :=
  let f := FFmt.f32.decode
  if void then leBytes 4 1 ++ leBytes 4 0xFFFFFFFF ++ leBytes 8 (2 ^ 64 - 1) ++ leBytes 4 nan32 ++ leBytes 4 nan32 ++ leBytes 8 0
  else
    let le (a b : FVal) : Bool := !a.isNan && !b.isNan && !numLt b a
    let fails := ((bs.zip (lo.zip hi)).zipIdx.filter (fun p =>
      !(le p.1.2.1 (f p.1.1.1) && le (f p.1.1.2) p.1.2.2))).map (fun p => p.2)
    let inf := bs.any (fun p => (f p.1).isInf || (f p.2).isInf)
    let pick (better : FVal → FVal → Bool) (l : List Nat) : Nat :=
      l.foldl (fun m c => if (f m).isNan then m else if (f c).isNan || better (f c) (f m) then c else m) (l.headD nan32)
    leBytes 4 (2 * bit fails.isEmpty + 4 * bit inf) ++ leBytes 4 (min fails.length 0xFFFFFFFF) ++
      leBytes 8 (fails.headD (2 ^ 64 - 1)) ++ leBytes 4 (pick numLt (bs.map (fun p => p.1))) ++
      leBytes 4 (pick (fun a b => numLt b a) (bs.map (fun p => p.2))) ++ leBytes 8 0

/-- ACHK starts (R332). DEDUCED (log 41). -/
def startAchk (b : Starting) (hd ha hb hc : HReg) : X Begun := do
  let s ← get
  let v := b.view s
  let tk := b.e.taken
  let a ← affineOf v tk ha
  let core := (s.core b.c).roomsFor b.k b.e.seq
  a.check core
  let res := tk.h hd
  X.must (handleOk res) (handleBad hd)
  X.must (32 ≤ hBound res && (hSpace res != 1 || padOk core (hBase res) 32)) (bounds (w64 (hBase res)))
  X.must (hBase res % 32 == 0) (misalign (w64 (hBase res)))
  let lo ← plainOf b v tk hb a.n false
  let hi ← plainOf b v tk hc a.n false
  let out : List Range := if hSpace res = 1 then [] else [{ padOf := none, lo := hBase res, hi := hBase res + 32 }]
  encRun v (a.ranges b.c a.list.length ++ lo.ranges ++ hi.ranges) out [] do
    let s ← get
    let vals ← a.read (a.access b s) {}
    voidAfter v a.t.h vals.replaced
    let (ls, repLo, met) ← lo.read b s vals.met
    let (hs, repHi, _) ← hi.read b s met
    let bytes := achkResult (a.r.status % 2 == 1 || vals.replaced || repLo || repHi) (a.bounds vals) ls hs
    if hSpace res = 1 then performStore v (.pad (hBase res) bytes) else performStore v (.mem (hBase res) bytes)
    pure []

/-! ## Relaxation rules (R378, R380, R333) -/

/-- A rule entry that keeps its layout, at an index; all zero counts where ATBL loads it. -/
def ruleValid (i : Nat) (bs : List Byte) : Bool :=
  let f := fieldAt bs
  f 0 1 == i / 4 && f 1 1 == i % 4 && i / 4 ≤ 8 && f 2 1 ≤ 4 && f 3 1 == 1 &&
    (FFmt.f32.decode (f 4 4)).isFin && (FFmt.f32.decode (f 8 4)).isFin && (f 2 1 == 2 || f 8 4 == 0) &&
    (bs.drop 12).all (fun x => x == 0)
def ruleZero (bs : List Byte) : Bool := bs.all (fun x => x == 0)

/-- Entry `i` of a core's rule table. -/
def Core.rule (c : Core) (i : Nat) : List Byte := (findKey i c.rules).getD (List.replicate 128 0)

/-- The first entry of cases 0–2 that fails the check of R380: the layout of all three is tested before their betas are
compared (R326). DESIGN CHOICE (log 95). -/
def badRule (c : Core) (f : Nat) : Option Nat :=
  match (List.range 3).find? (fun j => !ruleValid (4 * f + j) (c.rule (4 * f + j))) with
  | some j => some (4 * f + j)
  | none =>
    ((List.range 3).find? (fun j => fieldAt (c.rule (4 * f + j)) 4 4 != fieldAt (c.rule (4 * f)) 4 4)).map (fun j => 4 * f + j)

/-- ATBL starts (R333). -/
def startAtbl (b : Starting) (xs : XReg) (first cnt : Nat) : X Begun := do
  let s ← get
  let v := b.view s
  let a := (b.e.taken.x xs).toNat
  X.must (a % 128 == 0) (misalign (w64 a))
  if 2 ^ 57 ≤ a then X.xlate 2 a
  let es ← (List.range cnt).mapM (fun i => readLong v (a + 128 * i) 128)
  match es.zipIdx.find? (fun e => !(ruleZero e.1 || ruleValid (first + e.2) e.1)) with
  | some e => X.trap (illegalAt (w64 (first + e.2)))
  | none => pure ()
  modify (fun s =>
    let core := s.core b.c
    s.setCore b.c { core with rules := es.zipIdx.foldl (fun l e => setKey (first + e.2) e.1 l) core.rules })
  pure (.land Landing.empty)

/-! ## ARELAX (R91 to R93, R326) -/

/-- A result element: centre, generators, remainder, fresh coefficient's value, and a cause of VOID. -/
structure RelaxElem where
  centre : Nat
  gens : List Nat
  rem : FVal
  e : FVal
  void : Bool

/-- One element relaxed (R92, R93); where l = u = β both case 0 and case 1 hold, and case 0 is taken.
DESIGN CHOICE (log 77). -/
def relaxElem (f : FFmt) (rule : Nat → List Byte) (fn : Nat) (l u : FVal) (c : FVal) (gs : List FVal) (r : FVal) : RelaxElem :=
  let none' (void : Bool) : RelaxElem :=
    { centre := 0, gens := gs.map (fun _ => 0), rem := .inf false, e := zeroV, void := void }
  if l.isNan || u.isNan then none' true
  else
    let beta := FFmt.f32.decode (fieldAt (rule 0) 4 4)
    let case := if !numLt beta u then 0 else if !numLt l beta then 1 else 2
    let bs := rule case
    match relaxLine fn (fieldAt bs 2 1) (FFmt.f32.decode (fieldAt bs 8 4)) beta l u with
    | none =>
      -- a = 0, b = 0 and an infinite remainder
      none' false
    | some ln =>
      let x := addV (mulV ln.a c) ln.b
      let cc := encF f .rne x
      let ys := gs.map (mulV ln.a)
      let gc := ys.map (encF f .rne)
      let errs := errV x (f.decode cc) :: (ys.zip gc).map (fun p => errV p.1 (f.decode p.2))
      { centre := cc, gens := gc, rem := (round32 .ru (sumV (mulV (absV ln.a) r :: errs))).orInf, e := ln.e, void := false }

/-- The fresh diagonal entry of a result, minted where some coefficient is above zero (R93). -/
def freshGen (task : Option Nat) (f : FFmt) (n birth : Nat) (es : List FVal) : X (List Gen × Option Nat) := do
  if es.all (fun e => e.isZero) then pure ([], none)
  else
    let id ← mint task n (encF FFmt.f32 .ru (sumV es)) birth
    pure ([{ d := true, id := id, g := es.map (encF f .ru) }], some id)

/-- The PERF count of minted ids. -/
def countMint (c : Nat) (fresh : Option Nat) (n : Nat) : X Unit :=
  modify (fun s => s.count c 0x11 (if fresh.isSome then n else 0))

/-- ARELAX by rule entries starts (R326); the birth layer counts modulo 2^32. DESIGN CHOICE (log 78). -/
def startArelax (b : Starting) (hd ha hb hc : HReg) (fn : BitVec 4) : X Begun := do
  let s ← get
  let v := b.view s
  let tk := b.e.taken
  let core := (s.core b.c).roomsFor b.k b.e.seq
  match badRule core fn.toNat with
  | some i => X.trap (illegalAt (w64 i))
  | none => pure ()
  let d ← affineOf v tk hd
  let a ← affineOf v tk ha
  sameShape [d, a]
  d.check core
  a.check core
  let lo ← plainOf b v tk hb a.n false
  let hi ← plainOf b v tk hc a.n false
  encRun v (a.ranges b.c a.list.length ++ lo.ranges ++ hi.ranges) (d.ranges b.c d.r.allowance) [d.r.addr] do
    let s ← get
    let vals ← a.read (a.access b s) {}
    let (ls, repLo, met) ← lo.read b s vals.met
    let (us, repHi, _) ← hi.read b s met
    let rule (i : Nat) : List Byte := core.rule (4 * fn.toNat + i)
    let es := (List.range a.n).map (fun j =>
      relaxElem a.fmt rule fn.toNat (ls[j]?.getD zeroV) (us[j]?.getD zeroV) (a.fmt.decode (vals.centre[j]?.getD 0))
        (vals.gens.map (fun g => a.fmt.decode (g.g[j]?.getD 0))) (vals.rem[j]?.getD zeroV))
    let birth := (a.r.birth + 1) % 2 ^ 32
    let (fresh, id) ← freshGen (b.task s) a.fmt a.n birth (es.map (fun e => e.e))
    countMint b.c id a.n
    let gens := vals.gens.zipIdx.map (fun g => { g.1 with g := es.map (fun e => e.gens[g.2]?.getD 0) })
    d.write b.c v (b.launch s)
      { centre := es.map (fun e => e.centre), gens := gens ++ fresh, rem := es.map (fun e => e.rem),
        void := vals.void || repLo || repHi || es.any (fun e => e.void), cond := a.r.status / 2 % 2 == 1, birth := birth, fresh := id }
      d.r.allowance

/-! ## Alignment (R88, R96) -/

/-- A diagonal entry's dense entries. -/
def Gen.expand (f : FFmt) (n : Nat) (g : Gen) : List Gen :=
  (g.g.zipIdx.filter (fun p => !(f.decode p.1).isZero)).map (fun p =>
    { d := false, id := g.id + p.2, g := (List.range n).map (fun j => if j = p.2 then p.1 else 0) })

/-- The entries of one tensor, a diagonal one expanded where the other holds its range as dense entries. -/
def expandFor (f : FFmt) (n : Nat) (gs other : List Gen) : List Gen :=
  gs.flatMap (fun g =>
    if g.d && other.any (fun o => !o.d && g.id ≤ o.id && o.id < g.id + n) then g.expand f n else [g])

/-- The union of two tensors' entries by id: id, diagonal, X's and Y's coefficients where they have it. -/
def unionGens : List Gen → List Gen → Nat → List (Nat × Bool × Option (List Nat) × Option (List Nat))
  | _, _, 0 => []
  | [], ys, _ => ys.map (fun y => (y.id, y.d, none, some y.g))
  | xs, [], _ => xs.map (fun x => (x.id, x.d, some x.g, none))
  | x :: xs, y :: ys, fuel + 1 =>
    if x.id < y.id then (x.id, x.d, some x.g, none) :: unionGens xs (y :: ys) fuel
    else if y.id < x.id then (y.id, y.d, none, some y.g) :: unionGens (x :: xs) ys fuel
    else (x.id, x.d && y.d, some x.g, some y.g) :: unionGens xs ys fuel

def alignGens (f : FFmt) (n : Nat) (xs ys : List Gen) : List (Nat × Bool × Option (List Nat) × Option (List Nat)) :=
  let xs' := expandFor f n xs ys
  let ys' := expandFor f n ys xs
  unionGens xs' ys' (xs'.length + ys'.length + 1)

/-- The code of the opposite sign. -/
def negCode (f : FFmt) (c : Nat) : Nat := c ^^^ 2 ^ f.mag

/-- A rounded combination of codes, with its rounding errors. -/
def combine (f : FFmt) (xs : List FVal) : List (Nat × FVal) :=
  xs.map (fun x => let c := encF f .rne x; (c, errV x (f.decode c)))

/-- An aligned entry of X + σ Y with its rounding errors (R96). -/
def alignEntry (f : FFmt) (sg : Sigma) (p : Nat × Bool × Option (List Nat) × Option (List Nat)) : Gen × List FVal :=
  let zero := sg == Sigma.align
  let sgn (c : Nat) : FVal := if sg == Sigma.sub then (f.decode c).negate else f.decode c
  let exact (g : List Nat) : Gen × List FVal := ({ d := p.2.1, id := p.1, g := g }, g.map (fun _ => zeroV))
  match p.2.2.1, p.2.2.2 with
  | some gx, none => exact gx
  | none, some gy => exact (gy.map (fun c => if zero then 0 else if sg == Sigma.sub then negCode f c else c))
  | some gx, some gy =>
    if zero then exact gx
    else
      let r := combine f ((gx.zip gy).map (fun q => addV (f.decode q.1) (sgn q.2)))
      ({ d := p.2.1, id := p.1, g := r.map (fun q => q.1) }, r.map (fun q => q.2))
  | none, none => exact []

/-- AALIGN starts (R96, R331). -/
def startAalign (b : Starting) (sg : Sigma) (hd ha hb : HReg) : X Begun := do
  let s ← get
  let v := b.view s
  let tk := b.e.taken
  let core := (s.core b.c).roomsFor b.k b.e.seq
  let d ← affineOf v tk hd
  let x ← affineOf v tk ha
  let y ← affineOf v tk hb
  sameShape [d, x, y]
  d.check core
  x.check core
  y.check core
  encRun v (x.ranges b.c x.list.length ++ y.ranges b.c y.list.length) (d.ranges b.c d.r.allowance) [d.r.addr] do
    let s ← get
    let xv ← x.read (x.access b s) {}
    let yv ← y.read (y.access b s) xv.met
    let f := x.fmt
    let zero := sg == Sigma.align
    let dec := f.decode
    let sgn (c : Nat) : FVal := if sg == Sigma.sub then (dec c).negate else dec c
    let parts := (alignGens f x.n xv.gens yv.gens).map (alignEntry f sg)
    let kept := if zero then parts else parts.filter (fun p => !p.1.g.all (fun c => (dec c).isZero))
    let centre := if zero then xv.centre.map (fun c => (c, zeroV))
      else combine f ((xv.centre.zip yv.centre).map (fun q => addV (dec q.1) (sgn q.2)))
    let rem := (List.range x.n).map (fun j =>
      (round32 .ru (sumV ([xv.rem[j]?.getD zeroV] ++ (if zero then [] else [yv.rem[j]?.getD zeroV]) ++
        ((centre.map (fun q => q.2))[j]?.getD zeroV) :: parts.map (fun p => p.2[j]?.getD zeroV)))).orInf)
    d.write b.c v (b.launch s)
      { centre := centre.map (fun q => q.1), gens := kept.map (fun p => p.1), rem := rem,
        void := xv.void || yv.void, cond := x.r.status / 2 % 2 == 1 || y.r.status / 2 % 2 == 1,
        birth := max x.r.birth y.r.birth, fresh := none } d.r.allowance

/-! ## The bilinear rule (R95, R327) -/

/-- ARELAX with BILINEAR starts (R95); the birth layer counts modulo 2^32. DESIGN CHOICE (log 78). -/
def startBilinear (b : Starting) (hd ha hb : HReg) : X Begun := do
  let s ← get
  let v := b.view s
  let tk := b.e.taken
  let core := (s.core b.c).roomsFor b.k b.e.seq
  let d ← affineOf v tk hd
  let x ← affineOf v tk ha
  let y ← affineOf v tk hb
  sameShape [d, x, y]
  d.check core
  x.check core
  y.check core
  encRun v (x.ranges b.c x.list.length ++ y.ranges b.c y.list.length) (d.ranges b.c d.r.allowance) [d.r.addr] do
    let s ← get
    let xv ← x.read (x.access b s) {}
    let yv ← y.read (y.access b s) xv.met
    let f := x.fmt
    let us := alignGens f x.n xv.gens yv.gens
    let at_ (l : List Nat) (j : Nat) : FVal := f.decode (l[j]?.getD 0)
    let opt (l : Option (List Nat)) (j : Nat) : FVal := match l with | some l => at_ l j | none => zeroV
    let js := List.range x.n
    let rx := js.map (fun j => sumV (us.map (fun u => absV (opt u.2.2.1 j))))
    let ry := js.map (fun j => sumV (us.map (fun u => absV (opt u.2.2.2 j))))
    let cs := combine f (js.map (fun j => mulV (at_ xv.centre j) (at_ yv.centre j)))
    let gs := us.map (fun u => (u, combine f (js.map (fun j =>
      addV (mulV (at_ xv.centre j) (opt u.2.2.2 j)) (mulV (at_ yv.centre j) (opt u.2.2.1 j))))))
    let es := js.map (fun j => (round32 .ru (mulV (rx[j]?.getD zeroV) (ry[j]?.getD zeroV))).orInf)
    let rem := js.map (fun j =>
      let q (l : List FVal) : FVal := l[j]?.getD zeroV
      (round32 .ru (sumV ([mulV (addV (absV (at_ xv.centre j)) (q rx)) (q yv.rem),
        mulV (addV (absV (at_ yv.centre j)) (q ry)) (q xv.rem), mulV (q xv.rem) (q yv.rem), q (cs.map (fun c => c.2))] ++
        gs.map (fun g => q (g.2.map (fun c => c.2)))))).orInf)
    let birth := (max x.r.birth y.r.birth + 1) % 2 ^ 32
    let (fresh, id) ← freshGen (b.task s) f x.n birth es
    countMint b.c id x.n
    d.write b.c v (b.launch s)
      { centre := cs.map (fun c => c.1),
        gens := gs.map (fun g => { d := g.1.2.1, id := g.1.1, g := g.2.map (fun c => c.1) }) ++ fresh,
        rem := rem, void := xv.void || yv.void,
        cond := x.r.status / 2 % 2 == 1 || y.r.status / 2 % 2 == 1, birth := birth, fresh := id } d.r.allowance

/-! ## ASYM, ARET (R328, R329) -/

/-- The remainder of ASYM's tensor: its codes, and whether some element was replaced. -/
def asymRem (b : Starting) (d : Aff) : X (List Nat × Bool) := do
  let a := d.access b (← get)
  let ch ← readChunks a.v d.r
  let (rs, rep, _) ← gatherAll a 0 ch ((List.range d.n).map (fun j => { j := j, nibbles := 8, at_ := .place (d.remPlace j) })) {}
  pure (rs, rep)

/-- Every radius is zero. -/
def radiiZero (rs : List Nat) : Bool := rs.all (fun c => (FFmt.f32.decode c).isZero)

/-- ASYM's work (R328). Where replaced elements leave every radius zero, VOID is its only effect (R101, R267).
DESIGN CHOICE (log 101). -/
def asymWork (b : Starting) (d : Aff) : X Unit := do
  let s ← get
  let v := b.view s
  let (rs, rep) ← asymRem b d
  let rd := (rs.map FFmt.f32.decode).map readRadius
  if !radiiZero rs then
    let id ← mint (b.task s) d.n (encF FFmt.f32 .ru (sumV (rd.map (fun p => p.1)))) d.r.birth
    countMint b.c (some id) d.n
    let k := d.list.length
    rd.zipIdx.forM (fun p => do
      let g := if p.1.1.isInf then 0 else encF d.fmt .ru p.1.1
      putElem v 0 d.t.nibbles (d.genPlace k p.2) g
      putElem v 0 8 (d.remPlace p.2) (if p.1.1.isInf then 0x7F800000 else 0))
    writeLong v (d.r.symVa + 4 * k) (listBytes [(true, id)])
    writeRec v d.r.addr 0xA0 (leBytes 4 (k + 1))
  let void := d.r.status % 2 == 1 || rep || rd.any (fun p => p.2)
  writeRec v d.r.addr 0xA8 (leBytes 4 (bit void + d.r.status / 2 * 2))
  countVoid b.c void

/-- ASYM starts (R328): no effect where every radius is zero; otherwise its work, which reads the remainder once VOID is
set (R324). -/
def startAsym (b : Starting) (hd : HReg) : X Begun := do
  let v := b.view (← get)
  let d ← affineOf v b.e.taken hd
  d.check (((← get).core b.c).roomsFor b.k b.e.seq)
  X.must (d.list.length < d.r.allowance) (bounds (w64 d.r.addr))
  pretranslate v true (d.ranges b.c d.r.allowance)
  let s ← get
  match (asymRem b d).run s with
  | .ok ((rs, false), t) => if radiiZero rs then set t; pure (.land Landing.empty) else encRun v [] [] [d.r.addr] (asymWork b d >>= fun _ => pure [])
  | _ => encRun v [] [] [d.r.addr] (asymWork b d >>= fun _ => pure [])

/-- ARET starts (R329): steps 1 and 2 for the record alone. -/
def startAret (b : Starting) (ha : HReg) : X Begun := do
  let s ← get
  let v := b.view s
  let a ← affineOf v b.e.taken ha
  pretranslate v true [{ padOf := none, lo := a.r.addr, hi := a.r.addr + 192 }]
  let drops ← retarget (b.launch s) a.list [] none []
  writeRec v a.r.addr 0xA0 (leBytes 4 0)
  writeRec v a.r.addr 0xA8 (leBytes 4 1)
  countVoid b.c true
  pure (.land { Landing.empty with drops := drops })

/-! ## ACOND (R99, R330) -/

/-- ACOND's CQ part (R330): it waits while the engine holds 8 unstarted jobs or the event queue has no
free slot; the job it hands over counts for the escape bit and for the phase (R212, R411).
DEDUCED (log 28). -/
def startAcond (b : Starting) (ha : HReg) (xs : XReg) : X Begun := do
  let s ← get
  let v := b.view s
  let a ← affineOf v b.e.taken ha
  a.check ((s.core b.c).roomsFor b.k b.e.seq)
  let rs := a.ranges b.c a.r.allowance
  pretranslate v true rs
  let s ← get
  let q := s.quad (quadOf b.c)
  let x := s.ctx b.c b.k
  if 8 ≤ (q.cond.filter (fun j => !j.started)).length || x.freeSlots = 0 then X.fail .wait
  let job : CondJob :=
    { id := s.nextId, core := b.c, context := b.k, who := x.task, launch := b.launch s, handle := b.e.taken.h ha,
      xs := b.e.taken.x xs, ranges := rs, started := false, seq := b.e.seq, scored := b.e.taken.scored, void := false, live := a.list.length,
      parked := none, moved := s.time }
  set ((({ s with nextId := s.nextId + 1 }).setQuad (quadOf b.c) { q with cond := q.cond ++ [job] }).setCtx b.c b.k
    { x with reserved := x.reserved + 1, escape := x.escape || (!x.supervisor && rs.any (s.liveRange x.task)),
             phaseIneligible := x.phaseIneligible || (x.phase && b.e.inPhase && rs.any (fun r => r.padOf.isNone)) })
  pure (.land Landing.empty)

/-- An ENC instruction starts. -/
def startEnc (b : Starting) : X Begun :=
  match b.e.instr with
  | .abound _ d a c => startAbound b d a c
  | .arelax _ d a c e f => startArelax b d a c e f
  | .arelaxBilinear _ d a c => startBilinear b d a c
  | .asym _ d => startAsym b d
  | .aret _ a => startAret b a
  | .acond _ a x => startAcond b a x
  | .aalign _ sg d a c => startAalign b sg d a c
  | .achk _ d a c e => startAchk b d a c e
  | .atbl _ x f n => startAtbl b x f.toNat (n.toNat + 1)
  | _ => pure (.land Landing.empty)

end Sys2Proof.Machine
end

