-- ==== Sys2Proof/Machine/SysReg.lean ====
section
/-! DEFINITION. The system registers: what SRR reads and SRW writes (R143 to R152, R175). -/

namespace Sys2Proof.Machine

/-! ## ARBMODE and LEASE (R150) -/

/-- The two cores and the window of a quad in WIN2 mode; none in LEASE mode, in which a value that
breaks a limit leaves the quad. -/
def Quad.win2 (q : Quad) : Option (BitVec 2 × BitVec 2 × Nat) :=
  let a := q.arbmode.extractLsb' 2 2
  let b := q.arbmode.extractLsb' 4 2
  let w := (q.arbmode.extractLsb' 16 13).toNat
  if q.arbmode.getLsbD 0 && a != b && 64 ≤ w && w ≤ 4096 then some (a, b, w) else none

/-- The named fields of ARBMODE. -/
def arbMask : Word := 0x1FFF003D

/-- A pending ARBMODE takes effect once no lease is in force and, for WIN2, no plane is reserved; a quad
that leaves WIN2 has no last holder (R304, R306). -/
def Quad.applyArb (q : Quad) (now : Nat) : Quad :=
  match q.arbNext, q.lease with
  | some v, none =>
    let n := { q with arbmode := v, arbNext := none, window := false, since := now }
    if n.win2.isSome then
      if q.res0.isNone && q.res1.isNone then { n with requests := [], last := none } else q
    else { n with last := if q.win2.isSome then none else q.last }
  | _, _ => q

/-- A write to a quad's ARBMODE takes effect when the lease in force ends (R150). -/
def Quad.writeArb (q : Quad) (now : Nat) (v : Word) : Quad :=
  { q with arbNext := some (v &&& arbMask) }.applyArb now

/-- The ARBMODE value as it was last written. -/
def Quad.arbRead (q : Quad) : Word := q.arbNext.getD q.arbmode

/-- A core's number within its quad. -/
def inQuad (c : Nat) : BitVec 2 := BitVec.ofNat 2 c

/-- LEASE (R150). -/
def State.leaseRead (s : State) (c : Nat) : Word :=
  let q := s.quad (quadOf c)
  let me := inQuad c
  if q.win2.isSome then 0
  else
    let planes := bit (q.res0 == some me) + 2 * bit (q.res1 == some me)
    match q.lease with
    | some l =>
      if l.core == me then
        w64 (1 + 2 * planes + (64 - l.commands) * 2 ^ 16 +
          (4096 - ((s.die (dieOf c)).cycles.toNat - l.cycles)) * 2 ^ 32)
      else w64 (2 * planes)
    | none => w64 (2 * planes)

/-- LODGEMAP (R150, R205). -/
def Core.lodgemap (c : Core) : Word :=
  let r := c.rooms
  w64 (r.reg + r.cache * 2 ^ 8 + r.matrix * 2 ^ 16 + r.spill * 2 ^ 24 + r.pad * 2 ^ 32 +
    bit c.drain.isSome * 2 ^ 63)

/-! ## Reading (R143) -/

/-- ID (R146). -/
def idWord : Word := 0#24 ++ Config.stepping ++ 0x5A01#16 ++ 0x0C1E#16

/-- The value of a system register at the moment of reading. DESIGN CHOICE (log 9). -/
def State.sysRead (s : State) (n : Nat) : Word :=
  let c := s.here
  let x := s.me
  let d := dieOf s.cur
  if 0x18 ≤ n && n < 0x20 then x.loopc[n - 0x18]?.getD 0
  else if 0x20 ≤ n && n < 0x24 then (c.nf[n - 0x20]?.getD 0).zeroExtend 64
  else if 0x30 ≤ n && n < 0x40 then c.tcfg[n - 0x30]?.getD 0
  else if 0x80 ≤ n && n < 0x88 then c.perf[n - 0x80]?.getD 0
  else if isControl s.cur && (n == 0x002 || n == 0x003 || n == 0x040 || n == 0x041) then
    Config.controlId n s.cur
  else
    match n with
    | 0x000 => idWord
    | 0x001 => w64 Config.capBase
    | 0x002 => w64 (s.cur + s.cur % 4 * 2 ^ 10)
    | 0x003 => w64 (quadOf s.cur % 64)
    | 0x004 => w64 (d + s.moduleId.toNat * 2 ^ 16)
    | 0x005 => ((s.ctxTask s.cur s.myK).map (fun t => t.word)).getD 0
    | 0x006 => ((s.ctxLaunch s.cur s.myK).map (fun l => l.req.seed)).getD 0
    | 0x007 => s.time
    | 0x008 => (s.die d).cycles
    | 0x009 => c.insns
    | 0x010 => x.status
    | 0x011 => x.latmode
    | 0x012 => x.rotb
    | 0x040 => (s.quad (quadOf s.cur)).arbRead
    | 0x041 => s.leaseRead s.cur
    | 0x050 => c.lodgemap
    | 0x051 => c.lodgecap
    | 0x052 => x.spovf
    | 0x053 => x.splim
    | 0x060 => x.evqh.zeroExtend 64
    | 0x061 => x.evqt.zeroExtend 64
    | 0x062 => w64 c.replay.length
    | 0x070 => w64 ((s.die d).bucket / quarterNj)
    | 0x100 => x.tcause
    | 0x101 => x.tval
    | 0x102 => x.epc
    | _ => 0

/-! ## Writing (R143, R144, R175) -/

/-- The registers that only SUPERVISOR level may write. -/
def sysSw (n : Nat) : Bool :=
  n == 0x040 || n == 0x052 || n == 0x053 || n == 0x100 || n == 0x101 || n == 0x102

/-- FTZ and the five flags. -/
def statusMask : Word := 0x11F

/-- The registers of the context that SRW writes. -/
def Context.sysWrite (x : Context) (h n : Nat) (v : Word) : Context :=
  match n with
  | 0x010 => { x with status := (x.status &&& ~~~statusMask) ||| (v &&& statusMask) }
  | 0x012 => { x with rotb := if h = 0 then 0 else w64 (v.toNat % h) }
  | 0x052 => { x with spovf := v &&& 0x01FF_FFFF_FFFF_F000 }
  | 0x053 => { x with splim := v &&& 0xFFFF_FFFF }
  | 0x100 => { x with tcause := v &&& 0x1FF }
  | 0x101 => { x with tval := v }
  | 0x102 => { x with epc := v }
  | n => if 0x18 ≤ n && n < 0x20 then { x with loopc := x.loopc.setIfInBounds (n - 0x18) (v &&& 0xFFFF_FFFF) } else x

/-- The registers of the core that SRW writes. -/
def Core.sysWrite (c : Core) (n : Nat) (v : Word) : Core :=
  if 0x20 ≤ n && n < 0x24 then { c with nf := c.nf.setIfInBounds (n - 0x20) (v.extractLsb' 0 32) }
  else if 0x30 ≤ n && n < 0x40 then { c with tcfg := c.tcfg.setIfInBounds (n - 0x30) v }
  else if 0x80 ≤ n && n < 0x88 then { c with perf := c.perf.setIfInBounds (n - 0x80) v }
  else c

/-- The write of a system register; RO registers and fields keep their values.
DESIGN CHOICE (log 9); DEDUCED (log 44). -/
def State.sysWrite (s : State) (n : Nat) (v : Word) : State :=
  let c := s.here
  let s := s.setHere ((c.setCtx c.active (c.me.sysWrite c.h n v)).sysWrite n v)
  if n = 0x040 && !isControl s.cur then s.setQuad (quadOf s.cur) ((s.quad (quadOf s.cur)).writeArb (s.die (dieOf s.cur)).cycles.toNat v) else s

end Sys2Proof.Machine
end

