-- ==== Sys2Proof/Machine/Array.lean ====
section
/-! DEFINITION. The matrix array of a quad: leases and windows, planes, and the array commands as CQ starts
them (R68 to R74, R302 to R306, R308, R313 to R319). -/

namespace Sys2Proof.Machine

/-! ## Who drives the array (R304 to R306, R308) -/

/-- What stands in an array command's way at start. -/
inductive Gate where
  | ready
  /-- it waits for the lease, and requests it -/
  | request
  | wait
  | bad
deriving DecidableEq, Repr

def Instr.arrayPlane? : Instr → Option Bool
  | .tzero _ p _ | .tmma _ p _ _ _ | .tmmaa _ p _ _ => some p
  | .tdrain a => some a.plane
  | _ => none

def Quad.reserver (q : Quad) (p : Bool) : Option (BitVec 2) := if p then q.res1 else q.res0
def Quad.setReserver (q : Quad) (p : Bool) (c : Option (BitVec 2)) : Quad :=
  if p then { q with res1 := c } else { q with res0 := c }

/-- The core holds the lease, and it has commands and cycles left. -/
def Quad.holds (q : Quad) (me : BitVec 2) (now : Nat) : Bool :=
  match q.lease with
  | some l => l.core == me && l.commands < 64 && now - l.cycles < 4096
  | none => false

/-- The gate of an array command on a plane. -/
def Quad.gate (q : Quad) (me : BitVec 2) (now : Nat) (p : Bool) : Gate :=
  match q.win2 with
  | some (a, b, _) =>
    if me == a then (if p then .bad else if q.window then .wait else .ready)
    else if me == b then (if !p then .bad else if q.window then .ready else .wait)
    else .bad
  | none =>
    if !q.holds me now then .request
    else
      match q.reserver p with
      | some c => if c != me then .bad else .ready
      | none => .ready

/-- The gate of TLEASE. -/
def Quad.leaseGate (q : Quad) (me : BitVec 2) (now : Nat) (reserve : BitVec 2) : Gate :=
  if q.win2.isSome then (if reserve = 0 then .ready else .bad)
  else if reserve = 0 then (if q.holds me now then .ready else .request)
  else
    let p : Bool := reserve == 2
    if !q.holds me now then .request
    else if q.reserver (!p) == some me then .bad
    else
      match q.reserver p with
      | some c => if c == me then .ready else .wait
      | none => .ready

/-- A request for the lease joins those that wait. -/
def Quad.ask (q : Quad) (me : BitVec 2) : Quad :=
  if q.requests.contains me then q else { q with requests := q.requests ++ [me] }

/-- The command counts against the lease from its start. -/
def Quad.use (q : Quad) : Quad :=
  match q.lease with
  | some l => { q with lease := some { l with commands := l.commands + 1 } }
  | none => q

/-- The lease ends; an ARBMODE that waits for it takes effect. -/
def Quad.endLease (q : Quad) (now : Nat) : Quad :=
  match q.lease with
  | some l => { q with lease := none, last := some l.core }.applyArb now
  | none => q

/-- In WIN2 mode a command advances only in its owner's windows (R306). -/
def Quad.mayAdvance (q : Quad) (me : BitVec 2) : Bool :=
  match q.win2 with
  | some (a, b, _) => if q.window then me == b else me == a
  | none => true

/-- The next holder: the requester that follows the last one; the lowest where there is none. -/
def Quad.nextHolder (q : Quad) : Option (BitVec 2) :=
  let order : List (BitVec 2) := match q.last with
    | some l => [l + 1, l + 2, l + 3, l]
    | none => [0, 1, 2, 3]
  order.find? (fun c => q.requests.contains c)

def State.now (s : State) (c : Nat) : Nat := (s.die (dieOf c)).cycles.toNat

/-- The gate of a CQ entry that drives or holds the array; ready for any other. -/
def State.arrayGate (s : State) (c : Nat) (i : Instr) : Gate :=
  let q := s.quad (quadOf c)
  match i, Instr.arrayPlane? i with
  | .tlease _ r, _ => q.leaseGate (inQuad c) (s.now c) r
  | _, some p => q.gate (inQuad c) (s.now c) p
  | _, none => .ready

/-- TLEASE starts: it reserves the plane that it names (R308). -/
def startTlease (b : Starting) (reserve : BitVec 2) : X Begun := do
  modify (fun s =>
    let q := s.quad (quadOf b.c)
    if reserve = 0 || q.win2.isSome then s
    else s.setQuad (quadOf b.c) (q.setReserver (reserve == 2) (some (inQuad b.c))))
  pure (.land Landing.empty)

/-- TREL starts: it ends the lease, and with U the reservation (R308). -/
def startTrel (b : Starting) (u : Bool) : X Begun := do
  modify (fun s =>
    let q := s.quad (quadOf b.c)
    let me := inQuad b.c
    match q.lease with
    | some l =>
      if l.core == me then
        let q := if u then
            { q with res0 := if q.res0 == some me then none else q.res0, res1 := if q.res1 == some me then none else q.res1 }
          else q
        s.setQuad (quadOf b.c) (q.endLease (s.now b.c))
      else s
    | none => s)
  pure (.land Landing.empty)

/-! ## Planes (R68, R302) -/

def Quad.plane (q : Quad) (p : Bool) : Plane := if p then q.plane1 else q.plane0
def Quad.setPlane (q : Quad) (p : Bool) (v : Plane) : Quad :=
  if p then { q with plane1 := v } else { q with plane0 := v }

def PCell.zero : PCell := { v := 0, l := 0, sp := .none }

/-- A cell that nothing has set since reset. -/
def freeCell (seed q i : Nat) : PCell :=
  let n := Config.freeNat (2 ^ 80 + freeKey (4 * q + seed) i)
  { v := BitVec.ofNat 56 n, l := BitVec.ofNat 16 (n / 2 ^ 56),
    sp := match n / 2 ^ 72 % 4 with | 0 => .none | 1 => .posInf | 2 => .negInf | _ => .nan }

/-- The 16,384 cells of a plane of quad `q`. -/
def Plane.load (p : Plane) (q : Nat) : Array PCell :=
  let base : Array PCell := match p.seed with
    | some seed => ((List.range 16384).map (freeCell seed q)).toArray
    | none => Array.replicate 16384 PCell.zero
  p.cells.foldl (fun a c => a.setIfInBounds c.1 c.2) base
/-- A plane's exponent. -/
def Plane.exp (p : Plane) (q : Nat) : Int :=
  match p.seed with
  | some seed => (BitVec.ofNat 16 (Config.freeNat (2 ^ 80 + freeKey (4 * q + seed) 20000))).toInt
  | none => p.e.toInt

/-- A plane's kind is INT. -/
def Plane.isInt (p : Plane) (q : Nat) : Bool :=
  match p.seed with
  | some seed => Config.freeNat (2 ^ 80 + freeKey (4 * q + seed) 20001) % 2 == 1
  | none => p.int

/-- The list form of cells: those that are not zero. -/
def storeCells (a : Array PCell) : List (Nat × PCell) :=
  a.toList.zipIdx.filterMap (fun c => if c.1 == PCell.zero then none else some (c.2, c.1))

/-- A plane at work: cells and exponent, and the renormalisations done. -/
structure Working where
  cells : Array PCell
  e : Int
  norms : Nat

/-- ⌊v / 256⌋ and the loss that follows (R72). -/
def PCell.renorm (c : PCell) : PCell :=
  let v := c.v.toInt
  let q := v / 256
  let l := (c.l.toNat + (v - 256 * q).toNat + 255) / 256
  { c with v := BitVec.ofInt 56 q, l := BitVec.ofNat 16 (min l 0xFFFF) }

def Working.renorm (w : Working) : Working :=
  if 32767 < w.e + 8 then { w with cells := w.cells.map (fun c => { c with sp := .nan }), norms := w.norms + 1 }
  else { cells := w.cells.map PCell.renorm, e := w.e + 8, norms := w.norms + 1 }

/-- |v + p / 2^E| reaches 2^54. -/
def wouldReach (v : Int) (p : Dy) (e : Int) : Bool :=
  !(((({ m := v, e := 0 } : Dy).add { p with e := p.e - e }).abs).lt { m := 1, e := 54 })

/-- Some cell's sum with its product of a step, or a cell without one, reaches 2^54. -/
def Working.reaches (w : Working) (ps : List (Nat × Dy)) : Bool :=
  ps.any (fun p => wouldReach ((w.cells[p.1]?.getD PCell.zero).v.toInt) p.2 w.e) ||
    (w.cells.any (fun c => 2 ^ 54 ≤ c.v.toInt.natAbs) &&
      w.cells.toList.zipIdx.any (fun c => 2 ^ 54 ≤ c.1.v.toInt.natAbs && !ps.any (fun p => p.1 == c.2)))

/-- Renormalises until no sum of the step reaches 2^54 (R71); an exponent that cannot grow ends it. -/
def Working.fit (ps : List (Nat × Dy)) : Nat → Working → Working
  | 0, w => w
  | fuel + 1, w =>
    if w.reaches ps then
      let w' := w.renorm
      if w'.e = w.e then w' else Working.fit ps fuel w'
    else w

/-- One finite product is added (R71). -/
def PCell.add (c : PCell) (p : Dy) (e : Int) : PCell :=
  let (q, lost) := floorDy p.m (p.e - e)
  { c with v := c.v + BitVec.ofInt 56 q,
           l := if lost && c.l != 0xFFFF then c.l + 1 else c.l }

/-- A product that is not finite changes the special state alone (R70). -/
def PCell.special (c : PCell) (x : FVal) : PCell :=
  match x, c.sp with
  | _, .nan => c
  | .inf false, .negInf => { c with sp := .nan }
  | .inf false, _ => { c with sp := .posInf }
  | .inf true, .posInf => { c with sp := .nan }
  | .inf true, _ => { c with sp := .negInf }
  | _, _ => { c with sp := .nan }

/-- One step of K over every cell at once (R71, R315). -/
def Working.step (w : Working) (ps : List (Nat × FVal)) : Working :=
  let fin := ps.filterMap (fun p => if p.2.isFin && !p.2.isZero then some (p.1, p.2.dy) else none)
  let w := Working.fit fin 8300 w
  let cells := fin.foldl (fun a p => a.modify p.1 (fun c => c.add p.2 w.e)) w.cells
  let cells := (ps.filter (fun p => !p.2.isFin)).foldl (fun a p => a.modify p.1 (fun c => c.special p.2)) cells
  { w with cells := cells }

/-! ## TZERO (R302, R313) -/

def startTzero (b : Starting) (plane : Bool) (e : BitVec 16) : X Begun := do
  modify (fun s =>
    let q := s.quad (quadOf b.c)
    s.setQuad (quadOf b.c) (q.use.setPlane plane 
      { cells := [], seed := none, e := e, int := false, fixed := false, void := false }))
  pure (.land Landing.empty)

/-! ## TMMA and TMMAA (R67, R69, R314, R315) -/

/-- A tile's element format kinds for the pairs of R314: float NF, integer, BF16, F16. -/
def pairInt (x y : Nat) : Option Bool :=
  let int (t : Nat) : Bool := t == 1 || t == 2
  if int x && int y then some true
  else if x == y && (x == 0x11 || x == 0x12 || x == 0x18) then some false
  else none

/-- Flushed under R67: subnormal as an F32 value. -/
def flushScaled (v : FVal) : FVal :=
  match v with
  | .fin s m e => if m != 0 && (lg m : Int) + e < -126 then .fin s 0 0 else v
  | v => v

/-- A tile element with its row's scale; 0xFF gives NaN. -/
def TileRead.at_ (t : TileRead) (r k : Nat) : FVal :=
  let sc := (t.scales[r]?.getD 0).toNat
  if sc = 0xFF then .nan false
  else (t.cfg.elt.value (t.codes[r * t.cfg.cols + k]?.getD 0)).scale ((sc : Int) - 127)

def Elt.isLog (e : Elt) : Bool := match e.fp with | some f => f.kind == .log | none => false

/-- The quarter index of a LOG code of value other than zero and NaN. -/
def logQuarter (f : FFmt) (code : Nat) : Int :=
  let c := code % 2 ^ f.mag
  4 * ((c / 2 ^ f.mbits : Nat) - f.bias) + ((c % 2 ^ f.mbits) * 2 ^ (2 - f.mbits) : Nat)

/-- The product of two LOG codes before the scales (R69). -/
def logProduct (fa fb : FFmt) (a b : Nat) (neg : Bool) : FVal :=
  let va := fa.decode a
  let vb := fb.decode b
  if va.isNan || vb.isNan then .nan false
  else if va.isZero || vb.isZero then .fin false 0 0
  else
    let q := logQuarter fa a + logQuarter fb b
    .fin neg (logT (q % 4).toNat) (q / 4 - 23)

/-- The product of two tile elements (R69, R315). -/
def tileProduct (ta tb : TileRead) (abs ftz : Bool) (i j k : Nat) : FVal :=
  let fix (x : FVal) : FVal := if ftz then flushScaled x else x
  let a := fix (ta.at_ i k)
  let b := fix (tb.at_ j k)
  if abs && (b.isNan || (match b with | .fin s m _ => s && m != 0 | .inf s => s | _ => false)) then .nan false
  else
    match ta.cfg.elt.fp, tb.cfg.elt.fp with
    | some fa, some fb =>
      if fa.kind == .log && fb.kind == .log && a.isFin && b.isFin && !a.isZero && !b.isZero then
        let ca := ta.codes[i * ta.cfg.cols + k]?.getD 0
        let cb := tb.codes[j * tb.cfg.cols + k]?.getD 0
        (logProduct fa fb ca cb (!abs && a.sign != b.sign)).scale
          (((ta.scales[i]?.getD 0).toNat : Int) + (tb.scales[j]?.getD 0).toNat - 254)
      else mulV (if abs then absV a else a) b
    | _, _ => mulV (if abs then absV a else a) b

/-- Every step of K in ascending order. -/
def runSteps (ta tb : TileRead) (abs ftz : Bool) : List Nat → Working → Working
  | [], w => w
  | k :: ks, w =>
    let ps := (List.range ta.cfg.rows).flatMap (fun i =>
      (List.range tb.cfg.rows).map (fun j => (128 * i + j, tileProduct ta tb abs ftz i j k)))
    runSteps ta tb abs ftz ks (w.step ps)

/-- TMMA and TMMAA start (R314, R315). -/
def startTmma (b : Starting) (plane : Bool) (ka kb : TReg) (enc abs : Bool) : X Begun := do
  let s ← get
  let tk := b.e.taken
  let core := (s.core b.c).roomsFor b.k b.e.seq
  let bad := illegalOf (encode b.e.instr)
  let cfgOf (k : TReg) : Except Trap TileCfg :=
    tileCfg bad (tk.tcfg[k.toNat]'(by have := k.isLt; omega)) tk.nf (core.tileSide k).nf.toNat core.rooms.matrix
  let ca ← X.except (cfgOf ka)
  let cb ← X.except (cfgOf kb)
  let q := s.quad (quadOf b.c)
  let pl := q.plane plane
  match pairInt ca.type cb.type with
  | none => X.trap bad
  | some int =>
    let okKind := !pl.fixed || pl.int == int
    if ca.cols ≠ cb.cols || !okKind || (abs && int) || (int && pl.exp (quadOf b.c) ≠ 0) then X.trap bad
    let ta := core.readTile ka ca s.fresh
    let tb := core.readTile kb cb s.fresh
    let w := runSteps ta tb abs (!enc && tk.ftz) (List.range ca.cols)
      { cells := pl.load (quadOf b.c), e := pl.exp (quadOf b.c), norms := 0 }
    let void := pl.void || ta.void || tb.void || (enc && (ca.elt.isLog || cb.elt.isLog))
    let pl' : Plane := { cells := storeCells w.cells, seed := none, e := BitVec.ofInt 16 w.e, int := int, fixed := true, void := void }
    set (((s.setQuad (quadOf b.c) (q.use.setPlane plane pl')).count b.c 0x0F ca.cols).count b.c 0x10 w.norms)
    pure (.land Landing.empty)

/-! ## TDRAIN (R74, R312, R316 to R319) -/

/-- V and λ of a cell (R317). -/
def cellV (c : PCell) (e : Int) : Dy := { m := c.v.toInt, e := e }
def cellLoss (c : PCell) (e : Int) : FVal :=
  if c.l = 0xFFFF then .inf false else FVal.ofDy { m := c.l.toNat, e := e } false

/-- What a cell holds as a value. -/
def cellVal (c : PCell) (e : Int) : FVal :=
  match c.sp with
  | .none => FVal.ofDy (cellV c e) false
  | .posInf => .inf false
  | .negInf => .inf true
  | .nan => .nan false

/-- D of R74's plain column: into an integer format, NaN as 0 with INVALID, and an infinite value clamped as VCVT
does (R291). DEDUCED (log 86). -/
def drainPlain (elt : Elt) (sat ftz : Bool) (rm : Rm) (c : PCell) (e : Int) : Nat × BitVec 5 :=
  match elt.fp with
  | some f => let r := f.encode sat ftz rm (cellVal c e) false; (r.code, r.flags)
  | none =>
    if c.sp != .none then floatToInt rm elt.uns elt.bits (cellVal c e)
    else
      let (n, lost) := floorDy c.v.toInt e
      let (v, fl) := satInt sat elt.uns elt.bits n
      (v, fl ||| (if intVal elt.uns elt.bits v = n && !lost then 0 else flInexact))

/-- A cell whose NaN becomes +0 in the format (R59). -/
def drainVoid (elt : Elt) (c : PCell) (e : Int) : Bool :=
  match elt.fp with
  | some f => (f.encode false false .rne (cellVal c e) false).void
  | none => false

/-- The rounding capture of R74's enclosure column. -/
def drainCapture (elt : Elt) (code : Nat) (c : PCell) (e : Int) : FVal :=
  match c.sp, elt.fp with
  | .none, some f => (round32 .ru (addV (errV (cellVal c e) (f.decode code)) (cellLoss c e))).orInf
  | _, _ => .inf false

/-- RU(V + λ), or +∞ (R317). -/
def drainUp (c : PCell) (e : Int) : FVal :=
  match c.sp with
  | .none => (round32 .ru (addV (cellVal c e) (cellLoss c e))).orInf
  | _ => .inf false

/-- RAdd: the new word and a cause of VOID (R82, R317). -/
def rAdd (old : Nat) (c : FVal) : Nat × Bool :=
  let (x, void) := readRadius (FFmt.f32.decode old)
  (encF FFmt.f32 .ru (addV x c).orInf, void)

/-- The F32 word at a place is read, raised and written as one, at its home where it is LIVE and past held
stores; on a LIVE location it sets the escape bit, and it makes its phase ineligible for cancellation
(R212, R248, R317, R319, R411). An uncorrectable word, for which TDRAIN has no fault (R322), is taken as
infinite, with VOID. DEDUCED (log 24). -/
def performRAdd (v : View) (space nib : Nat) (c : FVal) : X Bool := do
  let s ← get
  let a := (spanOf 8 nib).1
  if space = 1 then
    let (n, void) := rAdd ((← (readElem v space 8 nib).orPoison).getD nan32) c
    putElem v space 8 nib n
    pure void
  else
    if s.parkedOn v a then X.fail .wait
    let p ← translate v a true
    modify (fun s => s.recallHome v a p)
    let home := (← get).homeView v a
    let (n, void) := rAdd ((← (readElem home space 8 nib).orPoison).getD nan32) c
    putElem home space 8 nib n
    modify (fun s => s.atomicMark v a)
    pure void

/-- A cell to drain: its value and column, the destination's element and place, the remainder's. -/
structure Drained where
  cell : PCell
  j : Nat
  k : Int
  nib : Nat
  rem : Option (Int × Nat)

/-- The dtypes that a mode takes (R316). -/
def drainDtype (m : DrainMode) (int : Bool) (d : Nat) : Bool :=
  match m with
  | .plain => if int then 1 ≤ d && d ≤ 6 else d == 0x10 || d == 0x11 || d == 0x12 || d == 0x18
  | .encl => !int && 0x10 ≤ d && d ≤ 0x12
  | _ => !int && d == 0x10

/-- A store of TDRAIN: held in a phase where memory or a stash segment serves it (R211, R319).
DEDUCED (log 24). -/
def drainStore (b : Starting) (v : View) (e : ElemStore) : X Unit := do
  let s ← get
  let x := s.ctx b.c b.k
  if x.phase && b.e.inPhase && s.holdsElem v e then set (s.setCtx b.c b.k (x.holdElem b.e.seq e))
  else performStore v e

/-- The codes of a quantised or packed block: its scale byte and each cell's code (R63, R318); where the scale
is NaN, every element is. DESIGN CHOICE (log 81). -/
def quantBlock (f : FFmt) (ftz : Bool) (rm : Rm) (e : Int) (cs : List PCell) : Nat × List (Nat × BitVec 5) :=
  let vs := cs.map (fun c => cellVal c e)
  let sc := f.scaleByte (vs.foldl magMax zeroV)
  (sc, vs.map (fun x =>
    let r := f.encode false false rm (if sc = 0xFF then .nan false else x.scale (127 - (sc : Int))) false
    -- FTZ looks at the code's scaled value (R67)
    let back := (f.decode r.code).scale ((sc : Int) - 127)
    if ftz && !back.isZero && (flushScaled back).isZero then (f.zeroCode back.sign, r.flags ||| flUnderflow ||| flInexact)
    else (r.code, r.flags)))

/-- An address that lies in entry k ≥ allowance of the tensor's stack (R88), and in no place of its centre or
remainder; k is at most 65,535. DEDUCED (log 43). -/
def Aff.pastEntry (x : Aff) (a : Nat) : Bool :=
  let off := a - x.r.genVa
  let centre := hBase x.t.h ≤ a && a < hBase x.t.h + x.r.spanBytes (x.t.elt.bits / 8)
  let rem := x.r.remVa ≤ a && a < x.r.remVa + 4 * x.n
  x.r.genVa + x.r.allowance * x.r.genStride ≤ a && x.r.genStride != 0 && off / x.r.genStride < 65536 &&
    off % x.r.genStride < x.r.spanBytes (x.t.elt.bits / 8) && !centre && !rem

/-- TDRAIN starts (R316 to R319). In a phase the stores that demote a block ahead of RAdds act at once, as the RAdds
do. DESIGN CHOICE (log 93). -/
def startTdrain (b : Starting) (a : DrainArgs) : X Begun := do
  let s ← get
  let v := b.view s
  let tk := b.e.taken
  let core := (s.core b.c).roomsFor b.k b.e.seq
  let bad := illegalOf (encode b.e.instr)
  let qn := quadOf b.c
  let pl := (s.quad qn).plane a.plane
  let e := pl.exp qn
  let cells := pl.load qn
  -- handles and records
  let open' (h : HReg) : X (Tensor × Rec) := do
    let hd := tk.h h
    X.must (handleOk hd) (handleBad h)
    match ← recordFor v hd tk.nf with
    | none => X.bad 0
    | some r =>
      match dtypeElt tk.nf r.dtype r.nf with
      | some d => pure ({ h := hd, record := some r, elt := d }, r)
      | none => X.bad r.addr
  -- an invalid NF register of an NF destination is this instruction's own ILLEGAL (R52, R316); DEDUCED (log 73)
  let hd := tk.h a.hd
  if hRec hd != 0 && handleOk hd then
    let r ← readRec v (hRec hd)
    let w := tk.nf[r.nf]?.getD 0
    if r.dtype = 0x18 && r.nf ≤ 3 && (nfFmt w).isNone && r.ok (Vector.replicate 4 (nfPresets[0])) (hSpace hd) then
      X.trap (illegalAt (w64 r.nf))
  let (td, rd) ← open' a.hd
  let rem ← if a.mode = .encl then (some <$> open' a.hr) else pure none
  let hv ← if a.mode = .plain then pure none else (some <$> affineOf v tk a.hv)
  let int := pl.isInt qn
  if !drainDtype a.mode int rd.dtype then X.trap bad
  match rem with
  | some (_, r) => if r.dtype ≠ 0x10 then X.trap bad
  | none => pure ()
  let packed := a.pack && rd.mapVa != 0
  if a.pack && rd.mapVa = 0 then X.trap bad
  let quant := rd.dtype = 0x18 && rd.geometry = 1
  let k0 := (hCursor td.h + tk.x a.xo).toInt
  let e0 := rd.ext 0
  let mi := a.mi.toNat + 1
  let nj := a.nj.toNat + 1
  if quant && !(k0 % e0 % 128 = 0 && (mi = 128 || e0 ≤ k0 % e0 + mi)) then
    X.trap (misalign (w64 (td.coordPlace rd k0.toNat / 2)))
  -- the cells' places, in ascending j, then i
  let order := (List.range nj).flatMap (fun j => (List.range mi).map (fun i => (i, j)))
  let found ← order.mapM (fun (ij : Nat × Nat) => do
    let k := k0 + ij.1 + ij.2 * e0
    let at_ ← td.elem v true k
    -- a cell that is PADDING in hd is skipped
    let rat ← match rem, at_ with
      | some (tr, r), some (.place _) => do
        let kr := (hCursor tr.h + tk.x a.xo).toInt + ij.1 + ij.2 * r.ext 0
        pure ((← tr.elem v true kr).map (fun p => (kr, p)))
      | _, _ => pure none
    pure (ij, k, at_, rat))
  td.check core (found.filterMap (fun p => p.2.2.1))
  match rem with
  | some (tr, _) => tr.check core (found.filterMap (fun p => p.2.2.2.map (fun q => q.2)))
  | none => pure ()
  let ds : List Drained := found.filterMap (fun (p : (Nat × Nat) × Int × Option ElemAt × Option (Int × ElemAt)) =>
    match p.2.2.1 with
    | some (.place nib) =>
      some { cell := cells[128 * p.1.1 + p.1.2]?.getD PCell.zero, j := p.1.2, k := p.2.1, nib := nib,
             rem := match p.2.2.2 with | some (kr, .place n) => some (kr, n) | _ => none }
    | _ => none)
  -- a stack entry at or past the allowance (R88)
  match hv with
  | some x =>
    if hSpace td.h != 1 then
      match ds.find? (fun d => x.pastEntry (d.nib / 2)) with
      | some d => X.trap (bounds (w64 (d.nib / 2)))
      | none => pure ()
  | none => pure ()
  -- every destination page first (R319)
  let pages (sp : Nat) (l : List Nat) : X Unit :=
    if sp = 1 then pure () else ((l.map (fun n => n / 2 / 65536)).eraseDups).forM (fun p => do
      let _ ← translate v (match l.find? (fun n => n / 2 / 65536 == p) with | some n => n / 2 | none => p * 65536) true)
  pages (hSpace td.h) (ds.map (fun d => d.nib))
  match rem with
  | some (tr, _) => pages (hSpace tr.h) (ds.filterMap (fun d => d.rem.map (fun p => p.2)))
  | none => pure ()
  modify (fun s => s.setQuad qn (s.quad qn).use)
  let sp := hSpace td.h
  let put (el : ElemStore) : X Unit := drainStore b v el
  -- VOID of hv's record (R317)
  let special := pl.void || ds.any (fun d => d.cell.sp != .none)
  let finish (neg : Bool) : X Unit := match hv with
    | some x => if special || neg then orStatus v x.r.addr 1 else pure ()
    | none => pure ()
  let acc := b.access s .cq td.h
  -- the map's part of a RAW write (R312)
  let aroundRaw (m : X Unit) : X Unit := do
    let (before, after) ← rawBlocks acc true td rd tk.nf (ds.map (fun d => d.k.toNat))
    before.forM put
    m
    after.forM put
  -- a NaN that becomes +0 voids an enclosure that it is written into (R59)
  let voided (elt : Elt) : X Unit :=
    if hEncl td.h && ds.any (fun d => drainVoid elt d.cell e) then orStatus v rd.addr 1 else pure ()
  match a.mode with
  | .plain =>
    let plainCodes := ds.map (fun d => (d, drainPlain td.elt a.sat tk.ftz a.rm d.cell e))
    if quant || packed then
      -- the cells of a block, for each j (R318)
      let blocks := (ds.map (fun d => (d.j, rd.block d.k.toNat))).eraseDups
      let mut flags : BitVec 5 := 0
      for jb in blocks do
        let blk := jb.2
        let mine := ds.filter (fun d => d.j == jb.1 && rd.block d.k.toNat == blk)
        let first := (mine.headD { cell := PCell.zero, j := 0, k := 0, nib := 0, rem := none }).k.toNat
        let start := first - first % e0 % 128
        let n := min 128 (e0 - start % e0)
        let whole := (List.range n).all (fun i => mine.any (fun d => d.k == (start + i : Nat)))
        if quant || whole then
          let pk := if quant then td.elt else rd.packed tk.nf
          match pk.fp with
          | none => pure ()
          | some f =>
            let (sc, codes) := quantBlock f tk.ftz a.rm e (mine.map (fun d => d.cell))
            (mine.zip codes).forM (fun p => put (elemStore sp (pk.bits / 4)
              (if quant then p.1.nib else packedPlace td rd pk p.1.k.toNat) p.2.1))
            (scaleStores rd [(blk, BitVec.ofNat 8 sc)]).forM put
            if packed then put (.mem (rd.mapVa + blk) [1])
            flags := flags ||| codes.foldl (fun fl c => fl ||| c.2) 0
        else
          (← demote acc true td rd tk.nf blk start).forM put
          let cs := mine.map (fun d => (d, drainPlain td.elt a.sat tk.ftz a.rm d.cell e))
          cs.forM (fun p => put (elemStore sp td.nibbles p.1.nib p.2.1))
          flags := flags ||| cs.foldl (fun fl c => fl ||| c.2.2) 0
      voided (if quant then td.elt else rd.packed tk.nf)
      pure (.land { Landing.empty with flags := flags })
    else
      aroundRaw (plainCodes.forM (fun p => put (elemStore sp td.nibbles p.1.nib p.2.1)))
      voided td.elt
      pure (.land { Landing.empty with flags := plainCodes.foldl (fun fl p => fl ||| p.2.2) 0 })
  | .encl =>
    let codes := ds.map (fun d => (d, drainPlain td.elt a.sat false a.rm d.cell e))
    aroundRaw (codes.forM (fun p => put (elemStore sp td.nibbles p.1.nib p.2.1)))
    let spr := match rem with | some (tr, _) => hSpace tr.h | none => 0
    match rem with
    | some (tr, r) =>
      (← demoteBlocks acc tr r tk.nf (ds.filterMap (fun d => d.rem.map (fun p => p.1.toNat)))).forM (performStore v)
    | none => pure ()
    let negs ← codes.mapM (fun p => match p.1.rem with
      | some (_, n) => performRAdd v spr n (drainCapture td.elt p.2.1 p.1.cell e)
      | none => pure false)
    finish (negs.any id)
    pure (.land { Landing.empty with flags := codes.foldl (fun fl p => fl ||| p.2.2) 0 })
  | .radd =>
    (← demoteBlocks acc td rd tk.nf (ds.map (fun d => d.k.toNat))).forM (performStore v)
    let negs ← ds.mapM (fun d => performRAdd v sp d.nib (drainUp d.cell e))
    finish (negs.any id)
    pure (.land Landing.empty)
  | .rset =>
    aroundRaw (ds.forM (fun d => put (elemStore sp 8 d.nib (encF FFmt.f32 .ru (drainUp d.cell e)))))
    finish false
    pure (.land Landing.empty)

/-- An array command or lease instruction starts. -/
def startArray (b : Starting) : X Begun :=
  match b.e.instr with
  | .tlease _ r => startTlease b r
  | .trel _ u => startTrel b u
  | .tzero _ p e => startTzero b p e
  | .tmma _ p x y enc => startTmma b p x y enc false
  | .tmmaa _ p x y => startTmma b p x y true true
  | .tdrain a => startTdrain b a
  | _ => pure (.land Landing.empty)

end Sys2Proof.Machine
end

