-- ==== Sys2Proof/Machine/VecArith.lean ====
section
/-! DEFINITION. What a vector instruction computes when it starts: the VALU, VINT, VCVT, VRED, VSFU and
VACC functions (R75 to R79, R276 to R301). -/

namespace Sys2Proof.Machine

/-- What a vector instruction computes: its landing, and the first block of a corrupt scale (R293). -/
structure VOut where
  land : Landing
  poison : Option Nat
deriving DecidableEq, Repr

def Landing.none : Landing := { writes := [], latch := Option.none, pred := Option.none, flags := 0 }

/-- The void elements of a result in a format (R59): where the format has no NaN, INVALID comes of one alone. -/
def Lanes.voidIn (l : Lanes) (e : Elt) : Nat :=
  match e.fp with
  | some f => if f.nanCode.isNone then l.inv else 0
  | none => 0

/-- Lanes written to a destination operand, and the latch with it (R120, R278); `void` holds the bits of their void
elements. -/
def Reader.out (r : Reader) (d : VOp) (l : Lanes) (void : Nat := 0) : VOut :=
  match r.t.dest d with
  | some p =>
    { land := { writes := [{ dest := p, val := BitVec.ofNat 8192 l.val, mask := BitVec.ofNat 8192 l.mask,
                             void := BitVec.ofNat 8192 void }],
                latch := if p == .latch then none else some p, pred := none, flags := l.flags },
      poison := none }
  | none => { land := { Landing.none with flags := l.flags }, poison := none }

/-- Lanes from up to three sources, inactive ones left out. -/
def lanes3 (e : Nat) (act : List Bool) (a b c : List Nat) (f : Nat → Nat → Nat → Nat × BitVec 5) : Lanes :=
  gatherLanes e ((act.zip (a.zip (b.zip c))).map (fun x =>
    if x.1 then some (f x.2.1 x.2.2.1 x.2.2.2) else none))

/-- A result whose elements are void where they became so (R59), or where an element that they come of was.
DESIGN CHOICE (log 97). -/
def Reader.outVoid (r : Reader) (d : VOp) (e : Elt) (srcs : List VOp) (l : Lanes) : VOut :=
  r.out d l (l.voidIn e ||| r.voidLanes e.bits srcs)

def Coded.pair (c : Coded) : Nat × BitVec 5 := (c.code, c.flags)

/-- The format of a type at start, with the check of a literal (R52, R123, R282). -/
def Reader.elt (r : Reader) (bad : Trap) (t : VTy) (b : VSrc) : Except Trap Elt := do
  let e ← eltOf r.t.nf t
  if litOk r.t.nf t b then pure e else throw bad

/-- A source that a function has not. -/
def noSrc : VSrc := .lit 0

/-! ## VALU (R283 to R287) -/

/-- An operation on values that are rounded once into the type (R284). -/
def Reader.fp (r : Reader) (bad : Trap) (h : VHdr) (d : VOp) (a b c : VSrc)
    (op : FVal → FVal → FVal → ExactV) : Except Trap VOut := do
  let e ← r.elt bad h.ty b
  match e.fp with
  | none => throw bad
  | some f =>
    let rd (x : Nat) : FVal := f.readFtz r.t.ftz x
    let g (x y z : Nat) : Nat × BitVec 5 :=
      let v := op (rd x) (rd y) (rd z)
      (f.encode h.sat r.t.ftz h.rm v.v v.inv).pair
    let w := e.bits
    pure (r.outVoid d e (a.ops ++ b.ops ++ c.ops)
      (lanes3 w (actives r.t.guard w) (r.src w false a) (r.src w false b) (r.src w false c) g))

/-- A float code as VMIN, VMAX, VABS and VNEG see it: its value, with a code that FTZ flushes read as
zero of its sign (R278, R285). -/
def FFmt.readCode (f : FFmt) (ftz : Bool) (x : Nat) : FVal × Nat :=
  let c := x % 2 ^ f.width
  if ftz && f.flushes (c % 2 ^ f.mag) then
    let s := c / 2 ^ f.mag % 2 == 1
    (.fin (s && f.kind != .log) 0 0, f.zeroCode s)
  else (f.decode c, c)

/-- The default NaN, INVALID when some operand signals (R285). -/
def FFmt.nanPair (f : FFmt) (vs : List FVal) : Nat × BitVec 5 :=
  (f.nanCode.getD 0, if vs.any FVal.isSignalling then flInvalid else 0)

/-- The smaller or the larger of two codes by value (R285). -/
def FFmt.pick (f : FFmt) (ftz max : Bool) (x y : Nat) : Nat × BitVec 5 :=
  let (a, ca) := f.readCode ftz x
  let (b, cb) := f.readCode ftz y
  if a.isNan || b.isNan then f.nanPair [a, b]
  else if max then (if rankLt a b then cb else ca, 0)
  else (if rankLt b a then cb else ca, 0)

/-- |A| and −A (R285). -/
def FFmt.absCode (f : FFmt) (ftz : Bool) (x : Nat) : Nat × BitVec 5 :=
  let (a, c) := f.readCode ftz x
  if a.isNan then f.nanPair [a] else (c % 2 ^ f.mag, 0)
def FFmt.negCode (f : FFmt) (ftz : Bool) (x : Nat) : Nat × BitVec 5 :=
  let (a, c) := f.readCode ftz x
  if a.isNan then f.nanPair [a]
  else if a.isZero then (f.zeroCode (!(c / 2 ^ f.mag % 2 == 1)), 0)
  else (f.signed (!(c / 2 ^ f.mag % 2 == 1)) (c % 2 ^ f.mag), 0)

/-- An operation on codes, or on integers, that keeps the type. -/
def Reader.codes (r : Reader) (bad : Trap) (h : VHdr) (d : VOp) (a b : VSrc)
    (op : Elt → Nat → Nat → Nat × BitVec 5) : Except Trap VOut := do
  let e ← r.elt bad h.ty b
  let w := e.bits
  let x := r.src w e.uns a
  pure (r.outVoid d e (a.ops ++ b.ops) (lanes3 w (actives r.t.guard w) x (r.src w e.uns b) x (fun x y _ => op e x y)))

/-- An operation on float codes alone. -/
def onFp (f : FFmt → Nat × BitVec 5) (e : Elt) : Nat × BitVec 5 :=
  match e.fp with | some t => f t | none => (0, 0)

/-- Truth values of elements as predicate bits under a mask (R139, R286). -/
def predBits (e : Nat) (g : PredWord) (t : List Bool) : PredWord × PredWord :=
  let bits := (List.range 256).map (fun i =>
    if e = 64 then
      if g.getLsbD (i / 2 * 2) then some (t[i / 2]?.getD false) else none
    else if g.getLsbD i then some (((t.drop (i * (32 / e))).take (32 / e)).all (fun b => b)) else none)
  let l := gatherLanes 1 (bits.map (fun b => b.map (fun v => (bit v, 0))))
  (BitVec.ofNat 256 l.val, BitVec.ofNat 256 l.mask)

/-- A comparison into a predicate (R286). -/
def Reader.compare (r : Reader) (bad : Trap) (h : VHdr) (pd : PReg) (a b : VSrc)
    (op : Elt → Nat → Nat → Bool × BitVec 5) : Except Trap VOut := do
  let e ← r.elt bad h.ty b
  let w := e.bits
  let t := (List.zip (r.src w e.uns a) (r.src w e.uns b)).map (fun p => op e p.1 p.2)
  let fl := ((actives r.t.guard w).zip t).foldl (fun f p => if p.1 then f ||| p.2.2 else f) 0
  let (v, m) := predBits w r.t.guard (t.map (fun p => p.1))
  pure { land := { writes := [], latch := none, pred := some (pd, v, m), flags := fl }, poison := none }

/-- The conditions of VCMP (R286). -/
def FFmt.cond (f : FFmt) (ftz : Bool) (c : BitVec 3) (x y : Nat) : Bool × BitVec 5 :=
  let a := f.readFtz ftz x
  let b := f.readFtz ftz y
  let nan := a.isNan || b.isNan
  let fl := if a.isSignalling || b.isSignalling then flInvalid else 0
  (match c.toNat with
  | 0 => !nan && numEq a b
  | 1 => nan || !numEq a b
  | 2 => !nan && numLt a b
  | 3 => !nan && !numLt b a
  | 4 => !nan && numLt b a
  | 5 => !nan && !numLt a b
  | 6 => nan
  | _ => !nan, fl)

/-- The conditions of VICMP (R288). -/
def intCond (c : BitVec 3) (a b : Int) : Bool :=
  match c.toNat with
  | 0 => a = b
  | 1 => a ≠ b
  | 2 => a < b
  | 3 => a ≤ b
  | 4 => b < a
  | _ => b ≤ a

/-- The bits of an element that a move keeps: a 6-bit code leaves bits 7–6 zero (R276). -/
def Elt.clip (e : Elt) (x : Nat) : Nat :=
  match e.fp with
  | some f => x % 2 ^ f.width
  | none => x % 2 ^ e.bits

/-- VSEL (R287): the guard selects. -/
def Reader.select (r : Reader) (bad : Trap) (h : VHdr) (d a : VOp) (b : VSrc) : Except Trap VOut := do
  let e ← r.elt bad h.ty b
  let w := e.bits
  let g := (actives r.t.guard w).map (fun x => bit x)
  let all := List.replicate (laneCount w) true
  let void := (lanes3 w all (r.voids w a) ((b.ops.map (r.voids w)).headD (List.replicate (laneCount w) 0)) g
    (fun x y s => (if s = 1 then x else y, 0))).val
  pure (r.out d (lanes3 w all ((r.op a).elems w) (r.src w e.uns b) g (fun x y s =>
    (e.clip (if s = 1 then x else y), 0))) (if (r.core.ctx r.k).voids.isEmpty then 0 else void))

/-! ## VINT (R288) -/

/-- An integer operation on exact values: wrapped, or clamped under SAT (R50). -/
def arith (sat : Bool) (op : Int → Int → Int) (e : Elt) (x y : Nat) : Nat × BitVec 5 :=
  satInt sat e.uns e.bits (op (intVal e.uns e.bits x) (intVal e.uns e.bits y))

def mulHi (e : Elt) (x y : Nat) : Nat × BitVec 5 :=
  (wrapInt e.bits (intVal e.uns e.bits x * intVal e.uns e.bits y / 2 ^ e.bits), 0)
def intPick (max : Bool) (e : Elt) (x y : Nat) : Nat × BitVec 5 :=
  let lt : Bool := intVal e.uns e.bits x < intVal e.uns e.bits y
  (if lt == max then y else x, 0)
def sraElt (w x n : Nat) : Nat := wrapInt w (toSigned w x / 2 ^ (n % w))
def rolElt (w x n : Nat) : Nat := (x * 2 ^ (n % w) + x / 2 ^ (w - n % w)) % 2 ^ w

/-! ## VCVT (R290 to R294) -/

/-- One element converted (R291). -/
def cvtElem (rm : Rm) (sat ftz : Bool) (se de : Elt) (x : Nat) : Nat × BitVec 5 :=
  match se.fp, de.fp with
  | some f, some g =>
    let v := f.readFtz ftz x
    (g.encode sat ftz rm v v.isSignalling).pair
  | some f, none => floatToInt rm de.uns de.bits (f.readFtz ftz x)
  | none, some g => (g.encode sat ftz rm (FVal.ofDy (Dy.ofInt (intVal se.uns se.bits x)) false) false).pair
  | none, none =>
    let v := intVal se.uns se.bits x
    if se.bits < de.bits then (wrapInt de.bits v, 0) else satInt sat de.uns de.bits v

/-- Results placed at an index of a row of `e`-bit elements, the rest left out. -/
def placeLanes (e start : Nat) (l : List (Option (Nat × BitVec 5))) : Lanes :=
  let x := gatherLanes e l
  { x with val := x.val <<< (start * e), mask := x.mask <<< (start * e), inv := x.inv <<< (start * e) }

/-- VCVT (R290). -/
def Reader.convert (r : Reader) (bad : Trap) (h : VHdr) (d a : VOp) (part : Nat) (sty : VTy) :
    Except Trap VOut := do
  let de ← eltOf r.t.nf h.ty
  let se ← eltOf r.t.nf sty
  let big := max se.bits de.bits
  let n := laneCount big
  if big / min se.bits de.bits ≤ part then throw bad
  let src := ((r.op a).elems se.bits).drop (if de.bits ≤ se.bits then 0 else part * n)
  let res := ((List.range n).zip src).map (fun p =>
    if activeAt r.t.guard big p.1 then some (cvtElem h.rm h.sat r.t.ftz se de p.2) else none)
  let start := if de.bits ≤ se.bits then part * n else 0
  let l := placeLanes de.bits start res
  let marks := (r.voids se.bits a).drop (if de.bits ≤ se.bits then 0 else part * n)
  let fed := if (r.core.ctx r.k).voids.isEmpty then 0
    else (placeLanes de.bits start ((marks.take n).map (fun m => if m = 0 then none else some (0, 0)))).mask
  pure (r.out d l (l.voidIn de ||| fed))

/-- The byte `i` of a row. -/
def rowByte (r : Nat) (i : Nat) : Nat := (r >>> (8 * i)) % 256

/-- The CRC of a line of a scale row (R62). -/
def lineCrc (r line : Nat) : Nat :=
  crc32c ((List.range 60).map (fun i => BitVec.ofNat 8 (rowByte r (64 * line + i))))
/-- The CRC that a line holds. -/
def lineHeld (r line : Nat) : Nat := (r >>> (8 * (64 * line + 60))) % 2 ^ 32

/-- The place of block `m` in a scale row (R292). -/
def scaleAt (m : Nat) : Nat := m / 60 * 64 + m % 60

/-- A strip of VQNT: its block's scale byte and the codes of its active elements. -/
def quantStrip (f g : FFmt) (ftz : Bool) (rm : Rm) (xs : List (Bool × Nat)) :
    Option Nat × List (Option (Nat × BitVec 5)) :=
  let vs := xs.map (fun p => (p.1, f.readFtz ftz p.2))
  let act := vs.filter (fun p => p.1)
  if act.isEmpty then (none, xs.map (fun _ => none))
  else
    let b := g.scaleByte (act.foldl (fun m p => magMax m p.2) (.fin false 0 0))
    let k : Int := (b : Int) - 127
    (some b, vs.map (fun p =>
      if !p.1 then none
      else
        let v := if b = 255 then FVal.nan false else p.2.scale (-k)
        some (g.flushScaled ftz k (g.encode false false rm v p.2.isSignalling)).pair))

/-- VQNT (R292). -/
def Reader.quantise (r : Reader) (bad : Trap) (h : VHdr) (d a : VOp) (xc : XReg) : Except Trap VOut := do
  let de ← eltOf r.t.nf h.ty
  let c := (r.t.x xc).toNat
  let part := bitsOf c 35 32
  let src : Option (Nat × FFmt) :=
    match bitsOf c 37 36 with
    | 0 => some (32, FFmt.f32) | 1 => some (16, FFmt.bf16) | 2 => some (16, FFmt.f16) | _ => none
  match src, de.fp, d with
  | some (es, f), some g, .row n =>
    if bitsOf c 63 38 ≠ 0 || es / de.bits ≤ part then throw bad
    let ns := laneCount es
    let xs := (actives r.t.guard es).zip ((r.op a).elems es)
    let strips := (List.range (ns / 128)).map (fun s => quantStrip f g r.t.ftz h.rm ((xs.drop (128 * s)).take 128))
    let codes := placeLanes de.bits (part * ns) (strips.map (fun s => s.2)).flatten
    let m0 := c % 2 ^ 32
    let bytes := (strips.zipIdx.filterMap (fun s => s.1.1.map (fun b => ((m0 + s.2) % 960, b))))
    let old := (match r.op (.row (n + 1)) with | .row v => v.toNat | .all _ => 0)
    let put (acc : Nat × Nat) (at_ v : Nat) : Nat × Nat :=
      (acc.1 ||| v <<< (8 * at_), acc.2 ||| 255 <<< (8 * at_))
    let sc := bytes.foldl (fun acc p => put acc (scaleAt p.1) p.2) (0, 0)
    let merged := (BitVec.ofNat 8192 old &&& ~~~(BitVec.ofNat 8192 sc.2)).toNat ||| sc.1
    let lines := (bytes.map (fun p => p.1 / 60)).dedup
    let all := lines.foldl (fun acc l =>
      (acc.1 ||| lineCrc merged l <<< (8 * (64 * l + 60)), acc.2 ||| (2 ^ 32 - 1) <<< (8 * (64 * l + 60)))) sc
    let o := r.out d codes (codes.voidIn de)
    let w2 := (r.t.dest (.row (n + 1))).map (fun p =>
      { dest := p, val := BitVec.ofNat 8192 all.1, mask := BitVec.ofNat 8192 all.2 : RowWrite })
    pure { o with land := { o.land with writes := o.land.writes ++ w2.toList } }
  | _, _, _ => throw bad

/-- VDQNT (R293). -/
def Reader.dequantise (r : Reader) (bad : Trap) (h : VHdr) (d a : VOp) (xc : XReg) : Except Trap VOut := do
  let de ← eltOf r.t.nf h.ty
  let c := (r.t.x xc).toNat
  let part := bitsOf c 35 32
  let se ← eltOf r.t.nf (.nf (BitVec.ofNat 2 (bitsOf c 37 36)))
  match se.fp, de.fp, a with
  | some g, some f, .row n =>
    if bitsOf c 63 38 ≠ 0 || de.bits / se.bits ≤ part then throw bad
    let nd := laneCount de.bits
    let codes := ((r.op a).elems se.bits).drop (part * nd)
    let sr := (match r.op (.row (n + 1)) with | .row v => v.toNat | .all _ => 0)
    let good := (List.range 16).map (fun l => lineCrc sr l == lineHeld sr l)
    let m0 := c % 2 ^ 32
    let block (j : Nat) : Nat := (m0 + j / 128) % 960
    let one (j x : Nat) : Nat × BitVec 5 :=
      let m := block j
      let b := rowByte sr (scaleAt m)
      if !(good[m / 60]?.getD false) || b = 255 then (f.encode h.sat r.t.ftz h.rm (.nan false) false).pair
      else
        let v := readScaled r.t.ftz (g.decode (x % 2 ^ g.width)) ((b : Int) - 127)
        (f.encode h.sat r.t.ftz h.rm v v.isSignalling).pair
    let act := actives r.t.guard de.bits
    let res := ((List.range nd).zip (act.zip codes)).map (fun p => if p.2.1 then some (one p.1 p.2.2) else none)
    let bad1 := ((List.range nd).zip act).find? (fun p => p.2 && !(good[block p.1 / 60]?.getD false))
    let o := r.out d (gatherLanes de.bits res)
    pure { o with poison := bad1.map (fun p => block p.1) }
  | _, _, _ => throw bad

/-- VPACK (R294). -/
def Reader.pack (r : Reader) (h : VHdr) (d a b : VOp) : Except Trap VOut := do
  let e ← eltOf r.t.nf h.ty
  let w := 2 * e.bits
  let n := laneCount w
  let one (p : Nat × Nat) : Option (Nat × BitVec 5) :=
    if activeAt r.t.guard w p.1 then some (satInt h.sat e.uns e.bits (intVal e.uns w p.2)) else none
  let half (o : VOp) : List (Option (Nat × BitVec 5)) := ((List.range n).zip ((r.op o).elems w)).map one
  pure (r.out d (gatherLanes e.bits (half a ++ half b)))

/-- VUNPACK (R294). -/
def Reader.unpack (r : Reader) (h : VHdr) (d a : VOp) (p : Bool) : Except Trap VOut := do
  let e ← eltOf r.t.nf h.ty
  let w := e.bits / 2
  let n := laneCount e.bits
  let src := ((r.op a).elems w).drop (if p then n else 0)
  pure (r.out d (lanes3 e.bits (actives r.t.guard e.bits) src src src (fun x _ _ =>
    (wrapInt e.bits (intVal e.uns w x), 0))))

/-- VSCALE (R294). -/
def Reader.scale (r : Reader) (bad : Trap) (h : VHdr) (d a : VOp) (b : VSrc) : Except Trap VOut := do
  let e ← r.elt bad h.ty b
  match e.fp with
  | none => throw bad
  | some f =>
    let w := e.bits
    let x := (r.op a).elems w
    pure (r.outVoid d e [a] (lanes3 w (actives r.t.guard w) x (r.src w false b) x (fun x k _ =>
      let v := f.readFtz r.t.ftz x
      (f.encode h.sat r.t.ftz h.rm (v.scale (toSigned w k)) v.isSignalling).pair)))

/-! ## VRED (R77, R295) -/

/-- One level of the tree: adjacent nodes, absent ones passing their sibling on. -/
def treeLevel (op : Nat → Nat → Nat × BitVec 5) :
    List (Option Nat) → List (Option Nat) × BitVec 5
  | [] => ([], 0)
  | [x] => ([x], 0)
  | x :: y :: t =>
    let (rest, f) := treeLevel op t
    match x, y with
    | some a, some b => let (v, g) := op a b; (some v :: rest, f ||| g)
    | some a, none => (some a :: rest, f)
    | none, y => (y :: rest, f)

/-- The tree over all levels. -/
def treeFold (op : Nat → Nat → Nat × BitVec 5) (l : List (Option Nat)) (f : BitVec 5) : Nat → Option Nat × BitVec 5
  | 0 => (l.head?.getD none, f)
  | k + 1 =>
    let (m, g) := treeLevel op l
    treeFold op m (f ||| g) k

/-- A reduction: element 0 receives the result and the rest zero. `leaf` prepares an element. -/
def Reader.reduce (r : Reader) (bad : Trap) (h : VHdr) (d a : VOp) (leaf : Elt → Nat → Nat × BitVec 5)
    (op : Elt → Nat → Nat → Nat × BitVec 5) : Except Trap VOut := do
  let e ← eltOf r.t.nf h.ty
  if e.bits = 4 then throw bad
  let w := e.bits
  let ls := ((actives r.t.guard w).zip ((r.op a).elems w)).map (fun p => if p.1 then some (leaf e p.2) else none)
  let fl := ls.foldl (fun f x => match x with | some p => f ||| p.2 | none => f) 0
  let (v, f) := treeFold (op e) (ls.map (fun x => x.map (fun p => p.1))) fl 11
  let l : Lanes := { val := v.getD 0 % 2 ^ w, mask := 2 ^ 8192 - 1, flags := f, inv := if f &&& flInvalid = 0 then 0 else 2 ^ w - 1 }
  let fed := r.voidLanes w [a] &&& (gatherLanes w ((actives r.t.guard w).map (fun b => if b then some (0, 0) else none))).mask
  pure (r.out d l (l.voidIn e ||| (if fed = 0 then 0 else 2 ^ w - 1)))

/-- An element of a sum or an order: a NaN becomes the default NaN (R47), FTZ reads zero. -/
def redLeaf (ftz : Bool) (e : Elt) (x : Nat) : Nat × BitVec 5 :=
  match e.fp with
  | none => (x, 0)
  | some f =>
    let (v, c) := f.readCode ftz x
    if v.isNan then f.nanPair [v] else (c, 0)

/-- A node of VRSUM (R77). DEDUCED (log 41). -/
def sumNode (sat ftz : Bool) (rm : Rm) (e : Elt) (x y : Nat) : Nat × BitVec 5 :=
  match e.fp with
  | none => arith sat (fun a b => a + b) e x y
  | some f =>
    let v := exactAdd rm (f.decode x) (f.decode y)
    (f.encode sat ftz rm v.v v.inv).pair

/-- A node of VRMAX or VRMIN. -/
def pickNode (max : Bool) (e : Elt) (x y : Nat) : Nat × BitVec 5 :=
  match e.fp with
  | none => intPick max e x y
  | some f => f.pick false max x y

/-- A movement of elements: destination `j` takes element `src j`, or zero. -/
def Reader.moveLanes (r : Reader) (h : VHdr) (d a : VOp) (src : Nat → Nat → Option Nat) : Except Trap VOut := do
  let e ← eltOf r.t.nf h.ty
  let w := e.bits
  let n := laneCount w
  let xs := ((r.op a).elems w).toArray
  let res := ((List.range n).zip (actives r.t.guard w)).map (fun p =>
    if p.2 then some (((src n p.1).map (fun i => e.clip (xs[i]?.getD 0))).getD 0, 0) else none)
  let ms := (r.voids w a).toArray
  let void := if (r.core.ctx r.k).voids.isEmpty then 0
    else packElems w ((List.range n).map (fun j => ((src n j).map (fun i => ms[i]?.getD 0)).getD 0))
  pure (r.out d (gatherLanes w res) void)

/-- VSHUF (R295). -/
def Reader.shuffle (r : Reader) (h : VHdr) (d a b : VOp) : Except Trap VOut := do
  let e ← eltOf r.t.nf h.ty
  let ix := ((r.op b).elems e.bits).toArray
  r.moveLanes h d a (fun n j => some (ix[j]?.getD 0 % n))

/-- The count of VROT and VSLIDE: a register's 64 bits or a literal's 32, signed. -/
def Reader.countOf (r : Reader) : VSrc → Int
  | .op (.bcast x) => (r.t.x x).toInt
  | .op _ => 0
  | .lit v => v.toInt

/-! ## VSFU (R78, R79, R296) -/

/-- A special function of every active element. -/
def Reader.special (r : Reader) (bad : Trap) (h : VHdr) (d a : VOp) (fn : Sfu) : Except Trap VOut :=
  r.codes bad h d (.op a) noSrc (fun e x _ =>
    onFp (fun f => (f.sfu fn h.sat r.t.ftz h.rm (f.readFtz r.t.ftz x) x).pair) e)

/-! ## VACC (R75, R76, R297 to R299) -/

/-- A lane of the vector accumulator: V × 2^X, or NaN-marked. -/
structure AccLane where
  v : Int
  x : Int
deriving DecidableEq, Repr

/-- DEDUCED (log 41). -/
def accNan : Int := -(2 ^ 31)

/-- The 256 lanes of accumulator wN. -/
def Reader.acc (r : Reader) (n : BitVec 8) : List AccLane :=
  let row (i : Nat) : List Nat := (r.op (.row (n + BitVec.ofNat 8 i))).elems 32
  ((row 0).zip ((row 1).zip (row 2))).map (fun p =>
    { v := toSigned 64 (p.1 + p.2.1 * 2 ^ 32), x := toSigned 32 p.2.2 })

/-- Writes of the lanes that changed; a lane newly marked NaN holds a free V. DEDUCED (log 41). -/
def Reader.accOut (r : Reader) (n : BitVec 8) (l : List (Option (Option AccLane))) (fl : BitVec 5) : VOut :=
  let free := rowElems 32 (Config.freeRow (freeKey r.free (2 ^ 21)))
  let free2 := rowElems 32 (Config.freeRow (freeKey r.free (2 ^ 21 + 1)))
  let pick (f : AccLane → Int) (fr : List Nat) (nan : Option Int) : Lanes :=
    gatherLanes 32 ((l.zip fr).map (fun p =>
      match p.1 with
      | none => none
      | some none => some ((nan.map (fun v => wrapInt 32 v)).getD p.2, 0)
      | some (some a) => some (wrapInt 32 (f a), 0)))
  let w (i : Nat) (x : Lanes) : List RowWrite :=
    ((r.t.dest (.row (n + BitVec.ofNat 8 i))).map (fun p =>
      { dest := p, val := BitVec.ofNat 8192 x.val, mask := BitVec.ofNat 8192 x.mask : RowWrite })).toList
  { land := { writes := w 0 (pick (fun a => a.v) free none) ++ w 1 (pick (fun a => a.v / 2 ^ 32) free2 none) ++
                w 2 (pick (fun a => a.x) free (some accNan)),
              latch := none, pred := none, flags := fl }, poison := none }

/-- Whether a lane's terms take a signalling NaN, multiply 0 by an infinity, or sum infinities of both
signs, each of which sets INVALID (R47). DEDUCED (log 41). -/
def termsInvalid (l : List ExactV) : Bool :=
  l.any (fun t => t.inv) ||
    (l.any (fun t => t.v.isInf && t.v.sign) && l.any (fun t => t.v.isInf && !t.v.sign))

/-- The exact value of a finite term. -/
def ExactV.dy (t : ExactV) : Option Dy := if t.v.isFin then some t.v.dy else none

/-- The exact sum of a lane's terms. -/
def sumTerms (l : List (Option Dy)) : Option Dy :=
  l.foldl (fun acc t => match acc, t with | some a, some b => some (a.add b) | _, _ => none) (some Dy.zero)

/-- A lane with an addend (R298): none where it becomes NaN-marked; whether bits were lost. -/
def AccLane.add (a : AccLane) (q : Option Dy) : Option (AccLane × Bool) :=
  if a.x = accNan then none
  else
    match q with
    | none => none
    | some q =>
      let (n, lost) := floorDy q.m (q.e - a.x)
      some ({ a with v := a.v + n }, lost)

def headroom (lane : Nat) : Trap := { code := 0x09, detail := w64 lane }

/-- VACCMUL and VACCADD (R298): `terms` gives the exact terms of the elements. -/
def Reader.accumulate (r : Reader) (bad : Trap) (h : VHdr) (n : BitVec 8) (a b : VSrc) (mul : Bool) :
    Except Trap VOut := do
  let e ← r.elt bad h.ty (if mul then b else a)
  let g := 32 / e.bits
  let xs := (r.src e.bits false a).map e.value
  let ts := if mul then (xs.zip ((r.src e.bits false b).map e.value)).map (fun p => exactMul p.1 p.2)
    else xs.map (fun x => { v := x, inv := x.isSignalling : ExactV })
  let lanes := r.acc n
  let terms (j : Nat) : List ExactV := (ts.drop (g * j)).take g
  let res := lanes.zipIdx.map (fun p =>
    if r.t.guard.getLsbD p.2 then some (p.1.add (sumTerms ((terms p.2).map ExactV.dy))) else none)
  let past (x : Option (Option (AccLane × Bool))) : Bool :=
    match x with
    | some (some (l, _)) => l.v < -(2 ^ 63) || 2 ^ 63 ≤ l.v
    | _ => false
  match res.zipIdx.find? (fun p => past p.1) with
  | some p => throw (headroom p.2)
  | none =>
    let fl := if res.any (fun x => match x with | some (some (_, true)) => true | _ => false) then flInexact else 0
    let inv := (List.range 256).any (fun j => r.t.guard.getLsbD j && termsInvalid (terms j))
    pure (r.accOut n (res.map (fun x => x.map (fun y => y.map (fun z => z.1))))
      (fl ||| (if inv then flInvalid else 0)))

/-- The least multiple of 8 that brings |V| below 2^47 (R76). -/
def normShift (v : Int) : Nat :=
  let ok (s : Nat) : Bool := (v / 2 ^ s).natAbs < 2 ^ 47
  if ok 0 then 0 else if ok 8 then 8 else if ok 16 then 16 else 24

/-- VNORM (R76, R299). -/
def Reader.normalise (r : Reader) (n : BitVec 8) : VOut :=
  let res := (r.acc n).zipIdx.map (fun p =>
    if r.t.guard.getLsbD p.2 && p.1.x ≠ accNan then
      let s := normShift p.1.v
      some (if (2 : Int) ^ 31 ≤ p.1.x + (s : Int) then none else some { v := p.1.v / 2 ^ s, x := p.1.x + (s : Int) : AccLane },
        p.1.v % 2 ^ s != 0)
    else none)
  let fl := if res.any (fun x => match x with | some (_, true) => true | _ => false) then flInexact else 0
  r.accOut n (res.map (fun x => x.map (fun y => y.1))) fl

/-- VACCRD (R299). -/
def Reader.accRead (r : Reader) (bad : Trap) (h : VHdr) (d : VOp) (n : BitVec 8) (p : Nat) : Except Trap VOut := do
  let e ← eltOf r.t.nf h.ty
  if 32 / e.bits ≤ p then throw bad
  let one (a : AccLane) : Nat × BitVec 5 :=
    match e.fp with
    | some f =>
      if a.x = accNan then (f.encode h.sat r.t.ftz h.rm (.nan false) false).pair
      else (f.encodeFin h.sat r.t.ftz h.rm (a.v < 0) a.v.natAbs a.x false).pair
    | none =>
      if a.x = accNan then (0, flInvalid)
      else
        let (v, lost) := floorDy a.v a.x
        -- a magnitude past every range wraps to zero bits
        let wide := 128 < (lg a.v.natAbs : Int) + a.x && a.v != 0
        let (c, f) := satInt h.sat e.uns e.bits (if wide && !h.sat then 0 else v)
        (c, f ||| (if lost then flInexact else 0))
  let res := (r.acc n).zipIdx.map (fun q => if r.t.guard.getLsbD q.2 then some (one q.1) else none)
  let l := placeLanes e.bits (p * 256) res
  pure (r.out d l (l.voidIn e))

/-- VACCZ (R299). -/
def Reader.accZero (r : Reader) (n : BitVec 8) (x : XReg) : VOut :=
  let v := toSigned 32 (r.t.x x).toNat
  r.accOut n ((List.range 256).map (fun j => if r.t.guard.getLsbD j then some (some { v := 0, x := v }) else none)) 0

/-! ## Every vector instruction (R276 to R299) -/

/-- What a standard vector instruction computes when it starts; `bad` is its ILLEGAL. DEDUCED (log 17). -/
def Reader.vector (r : Reader) (bad : Trap) (i : Instr) : Except Trap VOut :=
  match i with
  | .vadd h d a b => r.fp bad h d (.op a) b noSrc (fun x y _ => exactAdd h.rm x y)
  | .vsub h d a b => r.fp bad h d (.op a) b noSrc (fun x y _ => exactAdd h.rm x y.negate)
  | .vmul h d a b => r.fp bad h d (.op a) b noSrc (fun x y _ => exactMul x y)
  | .vfma h d a b c => r.fp bad h d (.op a) (.op b) (.op (c.getD d)) (fun x y z => exactFma h.rm x y z)
  | .vfms h d a b c => r.fp bad h d (.op a) (.op b) (.op (c.getD d)) (fun x y z => exactFma h.rm x y z.negate)
  | .vmin h d a b => r.codes bad h d (.op a) b (fun e x y => onFp (fun f => f.pick r.t.ftz false x y) e)
  | .vmax h d a b => r.codes bad h d (.op a) b (fun e x y => onFp (fun f => f.pick r.t.ftz true x y) e)
  | .vabs h d a => r.codes bad h d (.op a) noSrc (fun e x _ => onFp (fun f => f.absCode r.t.ftz x) e)
  | .vneg h d a => r.codes bad h d (.op a) noSrc (fun e x _ => onFp (fun f => f.negCode r.t.ftz x) e)
  | .vcmp h pd c a b => r.compare bad h pd (.op a) b (fun e x y =>
      match e.fp with | some f => f.cond r.t.ftz c x y | none => (false, 0))
  | .vsel h d a b => r.select bad h d a b
  | .vcpy h d a => r.codes bad h d a a (fun e x _ => (e.clip x, 0))
  | .viadd h d a b => r.codes bad h d (.op a) b (arith h.sat (fun x y => x + y))
  | .visub h d a b => r.codes bad h d (.op a) b (arith h.sat (fun x y => x - y))
  | .vimul h d a b => r.codes bad h d (.op a) b (arith h.sat (fun x y => x * y))
  | .vimulh h d a b => r.codes bad h d (.op a) b mulHi
  | .vimin h d a b => r.codes bad h d (.op a) b (intPick false)
  | .vimax h d a b => r.codes bad h d (.op a) b (intPick true)
  | .vand h d a b => r.codes bad h d (.op a) b (fun _ x y => (x &&& y, 0))
  | .vor h d a b => r.codes bad h d (.op a) b (fun _ x y => (x ||| y, 0))
  | .vxor h d a b => r.codes bad h d (.op a) b (fun _ x y => (x ^^^ y, 0))
  | .vandn h d a b => r.codes bad h d (.op a) b (fun e x y => (x &&& (2 ^ e.bits - 1 - y), 0))
  | .vsll h d a b => r.codes bad h d (.op a) b (fun e x y => (x * 2 ^ (y % e.bits), 0))
  | .vsrl h d a b => r.codes bad h d (.op a) b (fun e x y => (x / 2 ^ (y % e.bits), 0))
  | .vsra h d a b => r.codes bad h d (.op a) b (fun e x y => (sraElt e.bits x y, 0))
  | .vrol h d a b => r.codes bad h d (.op a) b (fun e x y => (rolElt e.bits x y, 0))
  | .vpopc h d a => r.codes bad h d (.op a) noSrc (fun e x _ => (popCount e.bits x, 0))
  | .vclz h d a => r.codes bad h d (.op a) noSrc (fun e x _ => (leadingZeros e.bits x, 0))
  | .vctz h d a => r.codes bad h d (.op a) noSrc (fun e x _ => (trailingZeros e.bits x, 0))
  | .vfnsb h d a b => r.codes bad h d (.op a) b (fun e x y => (rankBit e.bits x y, 0))
  | .vbrev h d a => r.codes bad h d (.op a) noSrc (fun e x _ => (reverseBits e.bits x, 0))
  | .vicmp h pd c a b => r.compare bad h pd (.op a) b (fun e x y =>
      (intCond c (intVal e.uns e.bits x) (intVal e.uns e.bits y), 0))
  | .vcvt h d a p s => r.convert bad h d a p.toNat s
  | .vqnt h d a x => r.quantise bad h d a x
  | .vdqnt h d a x => r.dequantise bad h d a x
  | .vpack h d a b => r.pack h d a b
  | .vunpack h d a p => r.unpack h d a p
  | .vscale h d a b => r.scale bad h d a b
  | .vrsum h d a => r.reduce bad h d a (redLeaf r.t.ftz) (sumNode h.sat r.t.ftz h.rm)
  | .vrmax h d a => r.reduce bad h d a (redLeaf r.t.ftz) (pickNode true)
  | .vrmin h d a => r.reduce bad h d a (redLeaf r.t.ftz) (pickNode false)
  | .vshuf h d a b => r.shuffle h d a b
  | .vbcast h d a x => r.moveLanes h d a (fun n _ => some ((r.t.x x).toNat % n))
  | .vrot h d a b => r.moveLanes h d a (fun n j => some (((j : Int) + r.countOf b) % n).toNat)
  | .vslide h d a b => r.moveLanes h d a (fun n j =>
      let i := (j : Int) + r.countOf b
      if 0 ≤ i && i < n then some i.toNat else none)
  | .vrcp h d a => r.special bad h d a .rcp
  | .vrsq h d a => r.special bad h d a .rsq
  | .vsqrt h d a => r.special bad h d a .sqrt
  | .vexp2 h d a => r.special bad h d a .exp2
  | .vlog2 h d a => r.special bad h d a .log2
  | .vtanh h d a => r.special bad h d a .tanh
  | .vaccmul h n a b => r.accumulate bad h n (.op a) b true
  | .vaccadd h n a => r.accumulate bad h n a noSrc false
  | .vnorm _ n => .ok (r.normalise n)
  | .vaccrd h d n p => r.accRead bad h d n p.toNat
  | .vaccz _ n x => .ok (r.accZero n x)
  | _ => .error bad

end Sys2Proof.Machine
end

