-- ==== Sys2Proof/Machine/Queue.lean ====
section
/-! DEFINITION. The queues of a context: routing, tokens, the order in which entries may start and land,
parked stores, and the cancellation of a phase (R140, R148, R205, R211, R212, R235 to R247, R279 to R282,
R335 to R341). -/

namespace Sys2Proof.Machine

def Context.queue (x : Context) : QName → List Entry
  | .lq => x.lq
  | .cq => x.cq
  | .sq => x.sq
def Context.setQueue (x : Context) (q : QName) (l : List Entry) : Context :=
  match q with
  | .lq => { x with lq := l }
  | .cq => { x with cq := l }
  | .sq => { x with sq := l }
/-- An entry replaced by its new self. -/
def Context.setEntry (x : Context) (q : QName) (e : Entry) : Context :=
  x.setQueue q ((x.queue q).map (fun f => if f.seq == e.seq then e else f))
def State.setEntry (s : State) (c : Nat) (k : Bool) (q : QName) (e : Entry) : State :=
  s.setCtx c k ((s.ctx c k).setEntry q e)

/-- Not started, or stopped. -/
def Entry.unstarted (e : Entry) : Bool :=
  match e.phase with
  | .waiting | .stalled _ | .faulted | .faultedStores _ => true
  | _ => false
/-- Its effects have landed. -/
def Entry.landed (e : Entry) : Bool := match e.phase with | .pushing .. => true | _ => false
/-- The phase holds its stores (R211). -/
def Entry.isHeld (e : Entry) : Bool := match e.phase with | .held => true | _ => false
/-- The context's own accesses see its effects. -/
def Entry.done (e : Entry) : Bool := e.landed || e.isHeld

/-- Whether an entry came from the release of held stores. -/
def Entry.released (e : Entry) : Bool := match e.instr with | .pswap => true | _ => false

/-! ## Routing (R336) -/

/-- Bytes of an instruction. -/
def instrBytes (i : Instr) : Nat := 4 * (encode i).length

/-- A compare to the register is routed and has not landed (R281). DEDUCED (log 23). -/
def Context.comparing (x : Context) (p : PReg) : Bool :=
  p != 0 && x.cq.any (fun e => Instr.writesP e.instr == some p && !e.landed)

/-- A store that the phase hold list counts when it is routed (R211). -/
def countsAtRouting (x : Context) (i : Instr) : Bool :=
  x.phase && (Instr.queue? i == some .sq) && (Instr.takesH i).any (fun h => hSpace (x.rh h) != 1)

def queuePerf : QName → Nat
  | .lq => 0x03
  | .cq => 0x04
  | .sq => 0x05

/-- The queue has room for another entry (R335). DEDUCED (log 23). -/
def Context.hasRoom (x : Context) (q : QName) : Bool :=
  ((x.queue q).filter (fun e => !e.released && !e.isHeld)).length < 32

/-- A sequencer load has yet to return a register that the instruction takes (R154, R341). -/
def Context.awaits (x : Context) (i : Instr) (now : Nat) : Bool :=
  (Instr.takesX i).any (fun r => x.pendingX.any (fun p => p.reg == r && now < p.due))

/-- A register that the sequencer computes from a load's result returns with the load (R154, R434); any other value
that it computes is there at once. -/
def Context.carryLoads (x : Context) (d : XReg) (srcs : List XReg) : Context :=
  if d = 0 then x
  else
    { x with pendingX := ((x.pendingX.filter (fun p => srcs.contains p.reg)).map (fun p => { p with reg := d })) ++
        x.pendingX.filter (fun p => p.reg != d) }

/-- The cycles that an instruction of the load queue has waited for a load by the time that it would be routed: those
since the miss, the instructions of the sequencer between them waiting for the same load (R434). -/
def Context.missCycles (x : Context) (i : Instr) (now : Nat) : Nat :=
  if Instr.queue? i == some .lq && x.lq.isEmpty then
    ((x.pendingX.filter (fun p => (Instr.takesX i).contains p.reg && now < p.due)).map (fun p => now - p.since)).foldl max 0
  else 0

/-- What the loads that have yet to return make of the instruction that the sequencer issues: a register that it
computes from one waits with it, and one of the load queue that takes one counts the cycles of the miss
(R154, R341, R434). DESIGN CHOICE (log 2). -/
def State.loadsOut (s : State) (i : Instr) : State :=
  if s.me.pendingX.isEmpty then s
  else
    match Instr.computes? i with
    | some (d, srcs) => s.setMe (s.me.carryLoads d srcs)
    | none => s.count s.cur 0x08 (s.me.missCycles i (s.now s.cur))

/-- The running context's instruction enters a queue with the values that it takes. DEDUCED (log 21). -/
def State.routeTo (s : State) (q : QName) (i : Instr) : State :=
  let x := s.me
  let e : Entry := { seq := x.seq, instr := i, pc := x.pc, taken := s.take i, inPhase := x.phase, moved := s.time }
  let y : Context :=
    { (x.setQueue q (x.queue q ++ [e])) with seq := x.seq + 1, holdCount := x.holdCount + bit (countsAtRouting x i) }
  ((s.setMe y).count s.cur (queuePerf q) 1).retire (instrBytes i)

/-- What an engine-routed instruction does when the sequencer executes it: it is routed, or held until it
can be; one that may not name rows, or that would be the 33rd counted store of a phase, faults.
DEDUCED (log 21). -/
def route (i : Instr) (s : State) : Host.Outcome State Fault Refusal :=
  let x := s.me
  let q := (Instr.queue? i).getD .cq
  if s.here.h = 0 && Instr.namesRow i then .next (s.fault (illegalOf (encode i)))
  else if !x.hasRoom q || x.comparing (Instr.guardReg i) || x.awaits i (s.now s.cur) then .next (s.holdOn i .route)
  else if countsAtRouting x i && 32 ≤ x.holdCount then .next (s.fault (illegalOf (encode i)))
  else .next (s.routeTo q i)

/-! ## Tokens (R337, R338) -/

/-- The counters that an entry's pop bits take from. -/
def popsOf (q : QName) (t : Tok) : List Nat :=
  match q with
  | .lq => if t.pr then [1] else []
  | .cq => (if t.pl then [0] else []) ++ (if t.pr then [3] else [])
  | .sq => if t.pl then [2] else []
/-- The counter of each push bit: right, then left. -/
def pushRight : QName → Option Nat
  | .lq => some 0
  | .cq => some 2
  | .sq => none
def pushLeft : QName → Option Nat
  | .lq => none
  | .cq => some 1
  | .sq => some 3

def Context.token (x : Context) (n : Nat) : Nat := (x.tokens[n]?.getD 0).toNat

/-- A moving counter ends a YIELD, but rouses no core that HALT has stopped (R180, R182). -/
def Context.wakeYield (x : Context) : Context := if x.mode == .asleep then x else x.wake

/-- A counter moves by one; an entry of the open phase moves the snapshot's account as well (R212). -/
def Context.moveToken (x : Context) (n : Nat) (up inPhase : Bool) : Context :=
  let x := { x.wakeYield with tokens := x.tokens.setIfInBounds n (if up then x.tokens[n]?.getD 0 + 1 else x.tokens[n]?.getD 0 - 1) }
  match x.snap, inPhase with
  | some sn, true =>
    { x with snap := some { sn with delta := sn.delta.setIfInBounds n (sn.delta[n]?.getD 0 + (if up then 1 else -1)) } }
  | _, _ => x

/-- The pushes that an entry still owes. -/
def Entry.owes (e : Entry) (q : QName) : Bool × Bool :=
  match e.phase with
  | .pushing r l => (r, l)
  | _ => ((Instr.tok e.instr).sr && (pushRight q).isSome, (Instr.tok e.instr).sl && (pushLeft q).isSome)

/-- One push, if the entry is complete, nothing before it waits, and the counter has room. -/
def tryPush (x : Context) (n : Option Nat) (due blocked : Bool) (e : Entry) : Bool × Context :=
  match n with
  | some n => if due && e.landed && !blocked && x.token n < 15 then (true, x.moveToken n true e.inPhase) else (false, x)
  | none => (false, x)

/-- The pushes of one queue in routing order, and the entries that remain: those not complete, and
those whose push waits. -/
def settleFrom (q : QName) (x : Context) (blockR blockL : Bool) : List Entry → Context × List Entry
  | [] => (x, [])
  | e :: t =>
    let (r, l) := e.owes q
    let (doneR, x) := tryPush x (pushRight q) r blockR e
    let (doneL, x) := tryPush x (pushLeft q) l blockL e
    let r' := r && !doneR
    let l' := l && !doneL
    let (y, rest) := settleFrom q x (blockR || r') (blockL || l') t
    if e.landed && !r' && !l' then (y, rest)
    else (y, (if e.landed then { e with phase := .pushing r' l' } else e) :: rest)

def Context.settle1 (x : Context) (q : QName) : Context :=
  let (y, l) := settleFrom q x false false (x.queue q)
  y.setQueue q l

/-- Every push that may take place takes place. -/
def Context.settle (x : Context) : Context := ((x.settle1 .lq).settle1 .cq).settle1 .sq

/-- An entry completes: it owes its pushes. -/
def Context.finish (x : Context) (q : QName) (e : Entry) : Context :=
  let (r, l) := e.owes q
  (x.setEntry q { e with phase := .pushing r l }).settle

/-! ## Ranges -/

/-- Two ranges share a byte. -/
def Range.meets (a b : Range) : Bool := a.padOf == b.padOf && a.lo < b.hi && b.lo < a.hi
/-- Two ranges share a 64-byte granule (R343). -/
def Range.meets64 (a b : Range) : Bool :=
  a.padOf == b.padOf && a.lo < a.hi && b.lo < b.hi && a.lo / 64 ≤ (b.hi - 1) / 64 && b.lo / 64 ≤ (a.hi - 1) / 64
def rangesMeet (f : Range → Range → Bool) (l m : List Range) : Bool := l.any (fun a => m.any (f a))

/-- The record that a handle names, as it stands; none where it cannot be read. -/
def State.recOf (s : State) (v : View) (h : HandleWord) : Option Rec :=
  if hRec h = 0 then none
  else
    match (readRec v (hRec h)).run s with
    | .ok (r, _) => some r
    | .error _ => none

/-- The range of a job's handle (R343): BASE to BASE + BOUND − 1, or to the top of the space. -/
def State.jobRange (s : State) (v : View) (c : Nat) (h : HandleWord) : Range :=
  let paged := match s.recOf v h with | some r => r.kind == 3 | none => false
  { padOf := if hSpace h = 1 then some c else none, lo := hBase h, hi := if paged then 2 ^ 57 else hBase h + hBound h }

/-- Every range that an access through a handle may reach, the parts of its record included; the blocks of a
PAGED record, or of one that cannot be read, may lie anywhere. -/
def State.reach (s : State) (v : View) (c : Nat) (h : HandleWord) : List Range :=
  let g (lo n : Nat) : Range := { padOf := none, lo := lo, hi := lo + n }
  (match s.recOf v h with
  | some r => if r.kind = 3 then g 0 (2 ^ 57) else s.jobRange v c h
  | none => if hRec h != 0 && hSpace h = 0 then g 0 (2 ^ 57) else s.jobRange v c h) ::
  (match s.recOf v h with
  | none => []
  | some r =>
    let blocks := if r.count = 0 then 0 else r.block (r.count - 1) + 1
    (if r.scaleVa = 0 then [] else [g r.scaleVa (64 * ceilDiv blocks 60)]) ++
    (if r.mapVa = 0 then [] else [g r.mapVa blocks]) ++
    (if r.kind = 2 then
      [g r.addr 192, g r.remVa (4 * r.count), g r.symVa (4 * r.allowance), g r.genVa (r.allowance * r.genStride)]
    else []))

/-- The bytes of a vector memory access whose indices are known when it is routed: all that its handle may reach
while its record or block table cannot be read, and none where it faults before any access. DEDUCED (log 26). -/
def State.vmemRanges (s : State) (b : Starting) (m : VMem) (store : Bool) : List Range :=
  let v := b.view s
  let places : X (List Range) := do
    let t ← vmemTensor v b.e.taken m
    let ls := vmemLanes b.e.taken.guard t.elt.bits (vmemIndex (s.readerFor b) m b.e.instr)
    let es ← vmemElems v t store ls
    let pad := if hSpace t.h = 1 then some b.c else none
    pure (es.filterMap (fun p => match p.2 with
      | .place nib => let (a, n) := spanOf t.nibbles nib; some { padOf := pad, lo := a, hi := a + n }
      | _ => none))
  match places.run s with
  | .ok (l, _) => l
  | .error (.fault _ false _) => []
  | .error _ => s.reach v b.c (b.e.taken.h m.h)

/-- What an entry reads and writes in memory. -/
def State.footprint (s : State) (c : Nat) (k : Bool) (e : Entry) : List Range × List Range :=
  let b : Starting := { c := c, k := k, e := e, q := (Instr.queue? e.instr).getD .cq, cancel := false }
  let v := s.view c k
  let r (h : HReg) : List Range := s.reach v c (e.taken.h h)
  match e.instr with
  | .vld m _ | .vlds m _ _ | .vldx m _ => (s.vmemRanges b m false, [])
  | .vgather m .. => (r m.h, [])
  | .vst m _ | .vsts m _ _ =>
    (match e.phase with
    | .stores l => ([], l.map (fun x => let (p, lo, hi) := x.range; { padOf := if p then some c else none, lo := lo, hi := hi }))
    | _ => ([], s.vmemRanges b m true))
  | .vscatter m .. => ([], r m.h)
  | .tldt _ _ _ _ _ h _ => (r h, [])
  | .tstt _ _ h _ => ([], r h)
  | .tdrain a => ([], r a.hd ++ r a.hr ++ r a.hv)
  | .abound _ d x y => (r x, r d ++ r y)
  | .arelax _ d x y z _ => (r x ++ r y ++ r z, r d)
  | .arelaxBilinear _ d x y => (r x ++ r y, r d)
  | .aalign _ _ d x y => (r x ++ r y, r d)
  | .achk _ d x y z => (r x ++ r y ++ r z, r d)
  | .asym _ d => ([], r d)
  | .aret _ x => ([], r x)
  | .acond _ x _ => ([], r x)
  | .atbl _ x _ n => ([{ padOf := none, lo := (e.taken.x x).toNat, hi := (e.taken.x x).toNat + 128 * (n.toNat + 1) }], [])
  | .pswap =>
    (match e.phase with
    | .stores l => ([], l.map (fun x => let (p, lo, hi) := x.range; { padOf := if p then some c else none, lo := lo, hi := hi }))
    | _ => ([], []))
  | _ => ([], [])

/-- Two footprints, at least one access of which is a write, meet. -/
def conflict (f : Range → Range → Bool) (a b : List Range × List Range) : Bool :=
  rangesMeet f a.2 b.1 || rangesMeet f a.1 b.2 || rangesMeet f a.2 b.2

/-! ## The scoreboard of a scored region (R247, R280, R321, R340) -/

/-- A place, a tile or a plane. -/
inductive Res where
  | place (d : Dest)
  | tile (k : TReg)
  | plane (p : Bool)
deriving DecidableEq, Repr

def Entry.readsRes (e : Entry) : List Res :=
  (Instr.srcOps e.instr).filterMap (fun o => (e.taken.dest o).map Res.place) ++
  (match e.instr with
  | .tmma _ p a b _ | .tmmaa _ p a b => [.tile a, .tile b, .plane p]
  | .tstt _ k _ _ => [.tile k]
  | .tdrain a => [.plane a.plane]
  | _ => [])
/-- DEDUCED (log 23). -/
def Entry.writesRes (e : Entry) : List Res :=
  let ds := (Instr.dstOps e.instr).filterMap e.taken.dest
  (if ds.isEmpty then [] else .place .latch :: ds.map Res.place) ++
  (match e.instr with
  | .tldt _ _ _ _ k _ _ => [.tile k]
  | .tzero _ p _ | .tmma _ p _ _ _ | .tmmaa _ p _ _ => [.plane p]
  | _ => [])

def meetsRes (a b : List Res) : Bool := a.any (fun r => b.contains r)

/-- Two sets of writes meet, the latch apart: a load's row does not wait for the latch of an earlier
pass. DEDUCED (log 23). -/
def meetsWrites (a b : List Res) : Bool := a.any (fun r => r != .place .latch && b.contains r)

/-- The earlier entries of a context that have not left their queues. -/
def Context.before (x : Context) (seq : Nat) : List (QName × Entry) :=
  ((x.lq.map (fun e => (QName.lq, e))) ++ (x.cq.map (fun e => (QName.cq, e))) ++ (x.sq.map (fun e => (QName.sq, e)))).filter
    (fun e => e.2.seq < seq)

/-- The scoreboard lets an entry start. -/
def scoreStart (x : Context) (q : QName) (e : Entry) : Bool :=
  (x.before e.seq).all (fun f =>
    (f.2.landed || !meetsRes f.2.writesRes e.readsRes) &&
    (q == .lq ||
      ((f.2.landed || f.1 == q || !meetsWrites f.2.writesRes e.writesRes) &&
       (!f.2.unstarted || !meetsRes f.2.readsRes e.writesRes))))

/-- The scoreboard lets a load write its destination. -/
def scoreLand (x : Context) (e : Entry) : Bool :=
  (x.before e.seq).all (fun f =>
    f.1 == .lq ||
      ((f.2.landed || !meetsWrites f.2.writesRes e.writesRes) &&
       (!f.2.unstarted || !meetsRes f.2.readsRes e.writesRes)))

/-! ## Memory order (R100, R241, R246, R247) -/

/-- An entry's accesses keep the order of the context's earlier ones: a load waits for an overlapping
earlier store, and a store for an overlapping earlier load or store; CQ is ordered so in a scored
region only. -/
def State.orderOk (s : State) (c : Nat) (k : Bool) (q : QName) (e : Entry) : Bool :=
  let x := s.ctx c k
  let mine := s.footprint c k e
  if mine.1.isEmpty && mine.2.isEmpty then true
  else
    (x.before e.seq).all (fun f =>
      f.2.done || ((q == .cq || f.1 == .cq) && !e.taken.scored) || (q == .cq && f.1 == .cq) ||
        (f.1 == .lq && !f.2.unstarted) || (q == .sq && f.1 == .sq) ||
        !conflict Range.meets mine (s.footprint c k f.2))

/-- In a scored region an access waits for an overlapping incomplete job of the same context. -/
def State.jobsOk (s : State) (c : Nat) (k : Bool) (e : Entry) : Bool :=
  let mine := s.footprint c k e
  !e.taken.scored ||
    (s.jobs.all (fun j => !s.mine c k j || e.seq < j.seq || j.orphan ||
      !conflict Range.meets64 mine (j.reads, j.writes)) &&
     s.conds.all (fun j => !s.mineCond c k j || e.seq < j.seq || !conflict Range.meets64 mine ([], j.ranges)))

/-- An ENC instruction is ordered as a job of its die (R99, R103, R246, R324): it waits for the overlapping jobs,
condensation jobs among them, that reached the scheduler before it. DEDUCED (log 26). -/
def State.condOk (s : State) (c : Nat) (k : Bool) (e : Entry) : Bool :=
  match e.instr with
  | .abound .. | .arelax .. | .arelaxBilinear .. | .asym .. | .aret .. | .acond .. | .aalign .. | .achk .. | .tdrain .. =>
    let mine := s.footprint c k e
    s.conds.all (fun j => dieOf j.core != dieOf c || (s.mineCond c k j && e.seq < j.seq) ||
      !conflict Range.meets64 mine ([], j.ranges)) &&
    (match e.instr with
    | .tdrain .. => true
    | _ => s.jobs.all (fun j => j.die.toNat != dieOf c || (s.mine c k j && e.seq < j.seq) ||
        !conflict Range.meets64 mine (j.reads, j.writes)))
  | _ => true

/-- A TSTT of a compressed record demotes what the stores before it leave (R312): it waits for those that
overlap. -/
def State.demoteOk (s : State) (c : Nat) (k : Bool) (e : Entry) : Bool :=
  match e.instr with
  | .tstt _ _ h _ =>
    let squeezed := match s.recOf (s.view c k) (e.taken.h h) with | some r => r.mapVa != 0 | none => false
    !squeezed || (s.ctx c k).sq.all (fun f => e.seq ≤ f.seq || f.done ||
      !conflict Range.meets (s.footprint c k e) (s.footprint c k f))
  | _ => true

/-! ## LRMAP's drain (R205) -/

/-- What an entry or an instruction touches (R205): rooms by name, and bytes of the spaces. -/
structure Touch where
  reg : Bool := false
  mat : Bool := false
  cache : Bool := false
  pad : Bool := false
  ranges : List Range := []

/-- Bytes that an access through a handle reads on its own behalf: its record, the record's bad-chunk list and its
block table. -/
def State.tables (s : State) (v : View) (h : HandleWord) : List Range :=
  let g (lo n : Nat) : Range := { padOf := none, lo := lo, hi := lo + n }
  if hRec h = 0 then []
  else
    g (hRec h) 192 ::
      (match s.recOf v h with
      | none => []
      | some r =>
        (if r.chunkVa = 0 then [] else [g r.chunkVa (16 + 8 * 65536)]) ++
        (if r.kind = 3 then [g r.blockVa (8 * (r.ext 0 / max 1 r.pageBlock + 1))] else []))

/-- What a queue entry touches: the rooms that its operands lie in, and the bytes that it reads and writes. -/
def State.touch (s : State) (c : Nat) (k : Bool) (e : Entry) : Touch :=
  let hs := (Instr.takesH e.instr).filter (fun h => h != 0)
  let f := s.footprint c k e
  { reg := Instr.namesRow e.instr,
    mat := (match e.instr with | .tldt .. | .tstt .. | .tmma .. | .tmmaa .. => true | _ => false),
    ranges := f.1 ++ f.2 ++ hs.flatMap (fun h => s.tables (s.view c k) (e.taken.h h)) }

/-- A range of global bytes meets the top of a spill window that a SPILL room of some banks serves (R200); it lies
within it. -/
def Context.spillMeets (x : Context) (banks : Nat) (r : Range) : Bool :=
  let top := x.spovf.toNat + x.splim.toNat
  r.lo < top && max x.spovf.toNat (top - 32768 * banks) < r.hi
def Context.spillTakes (x : Context) (banks : Nat) (r : Range) : Bool :=
  let top := x.spovf.toNat + x.splim.toNat
  max x.spovf.toNat (top - 32768 * banks) ≤ r.lo && r.hi ≤ top

/-- A drain holds what touches a changing room (R205): a range of the PAD touches PAD; global bytes touch SPILL where
the room serves them, PAD where a stash segment maps them, and otherwise CACHE, which every global access uses. -/
def State.drainHolds (s : State) (n : Nat) (k : Bool) (t : Touch) : Bool :=
  let c := s.core n
  match c.drain with
  | none => false
  | some d =>
    let x := c.ctx k
    let spill := max d.old.spill c.rooms.spill
    let stashed (r : Range) : Bool := c.stash.any (fun m => r.lo < m.va + 4096 && m.va < r.hi)
    let within (r : Range) : Bool := c.stash.any (fun m => m.va ≤ r.lo && r.hi ≤ m.va + 4096)
    let holds (r : Range) : Bool :=
      if r.padOf.isSome then d.old.pad != c.rooms.pad
      else
        (d.old.spill != c.rooms.spill && x.spillMeets spill r) || (d.old.pad != c.rooms.pad && stashed r) ||
          (d.old.cache != c.rooms.cache && !x.spillTakes (min d.old.spill c.rooms.spill) r && !within r)
    (t.reg && d.old.reg != c.rooms.reg) || (t.mat && d.old.matrix != c.rooms.matrix) ||
      (t.cache && d.old.cache != c.rooms.cache) || (t.pad && d.old.pad != c.rooms.pad) || t.ranges.any holds

def Drain.seqOf (d : Drain) (k : Bool) : Nat := if k then d.seqs.2 else d.seqs.1

/-- An entry routed after the LRMAP waits for its drain. -/
def State.drainGate (s : State) (c : Nat) (k : Bool) (e : Entry) : Bool :=
  match (s.core c).drain with
  | some d => e.seq < d.seqOf k || !s.drainHolds c k (s.touch c k e)
  | none => true

/-! ## What may start (R279, R338, R340, R361) -/

/-- A context whose engines may start entries. DEDUCED (log 22). -/
def Core.engages (c : Core) (k : Bool) : Bool :=
  match (c.ctx k).mode with
  | .exiting => true
  | .live | .asleep => c.running && c.active == k && !(c.ctx k).stopping
  | _ => false

/-- A queue's data queue has room (R340). DEDUCED (log 23). -/
def Context.dataRoom (x : Context) : QName → Bool
  | .lq => (x.lq.filter (fun e => match e.phase with | .arrived _ => true | _ => false)).length < 16
  | .sq => (x.sq.filter (fun e => match e.phase with | .stores (_ :: _) => true | _ => false)).length < 16
  | .cq => true

/-- No push of the queue waits at a full counter to which the entry would push. -/
def Context.pushFree (x : Context) (q : QName) (e : Entry) : Bool :=
  let (r, l) := e.owes q
  (x.queue q).all (fun f =>
    match f.phase with
    | .pushing fr fl =>
      !(r && fr && (pushRight q).any (fun n => x.token n == 15)) && !(l && fl && (pushLeft q).any (fun n => x.token n == 15))
    | _ => true)

/-- The latest known-answer check with a key. DEDUCED (log 27). -/
def Context.katFor (x : Context) (vector : Bool) (i : BitVec 8) : Option KatCheck :=
  x.kat.reverse.find? (fun c => c.vector == vector && c.pattern == i)

/-- Waits of single instructions: KATC for its check, TREL for earlier array commands (R308, R352). -/
def Context.ownGate (x : Context) (e : Entry) : Bool :=
  match e.instr with
  | .katc _ u i _ => (match x.katFor u i with | some c => c.done | none => true)
  | .trel .. => x.cq.all (fun f => e.seq ≤ f.seq || f.landed || (Instr.arrayPlane? f.instr).isNone)
  | _ => true

/-- The head entry of a queue that may start, but for the array's gate. -/
def State.startable (s : State) (c : Nat) (k : Bool) (q : QName) : Option Entry :=
  let core := s.core c
  let x := core.ctx k
  match (x.queue q).find? Entry.unstarted with
  | some e =>
    if (match e.phase with | .waiting => true | _ => false) && core.engages k && !s.issueLocked c &&
        (e.popped || (popsOf q (Instr.tok e.instr)).all (fun n => 0 < x.token n)) &&
        x.pushFree q e && x.dataRoom q && x.ownGate e && s.drainGate c k e &&
        s.orderOk c k q e && s.jobsOk c k e && s.condOk c k e && s.demoteOk c k e && (!e.taken.scored || scoreStart x q e) then some e
    else none
  | none => none

/-! ## Cancelling a phase (R212) -/

/-- The conditions of R212 that the context decides, for an entry or a sequencer load. -/
def Context.mayCancel (x : Context) (inPhase : Bool) : Bool :=
  x.phase && inPhase && !x.phaseCancelled && !x.phaseIneligible && x.snap.isSome

/-- A CPY that a cancellation issues again: it reserves no slot and writes no record. -/
def State.reissue (s : State) (c : Nat) (k : Bool) (hd hs : HandleWord) (n : Nat) : State :=
  let x := s.ctx c k
  let v := s.view c k
  let job : Job :=
    { id := s.nextId, kind := .cpy hd hs n, die := BitVec.ofNat 2 (dieOf c), core := c, context := k, who := x.task,
      launch := (s.ctxTask c k).map (fun t => t.launch), tag := 0, words := 0, nf := (s.core c).nf, seq := x.seq, scored := x.latmode.getLsbD 0,
      reads := [s.jobRange v c hs], writes := [s.jobRange v c hd], phase := .waiting, pos := 0, got := (0, 0), replaced := false,
      seen := [], chunkSeen := false, table := [], parts := [], late := none, phaseNo := none, orphan := false, reissued := true, moved := s.time }
  { s with nextId := s.nextId + 1, jobs := s.jobs ++ [job] }

/-- What a counter would hold had no discarded entry executed, and the pushes that would then wait for it
to fall below 15 (R212, R338). -/
def undoTokens (now : BitVec 4) (delta : Int) : BitVec 4 × Nat :=
  let n := max 0 ((now.toNat : Int) - delta)
  (BitVec.ofInt 4 (min 15 n), (n - 15).toNat)

/-- Pushes that wait at a full counter, each as an entry that has landed. -/
def Context.repush (x : Context) (q : QName) (right : Bool) (n : Nat) : Context :=
  (List.range n).foldl (fun x _ =>
    let e : Entry :=
      { seq := x.seq, instr := .pswap, pc := 0,
        taken := { xs := [], hs := [], guard := 0, rotb := 0, rows := 0, half := false, ftz := false,
                   nf := Vector.replicate 4 0, tcfg := Vector.replicate 16 0, scored := false },
        phase := .pushing right (!right), popped := true }
    { x.setQueue q (e :: x.queue q) with seq := x.seq + 1 }) x

/-- The snapshot's registers come back, PHASE stays 1, and the context goes on after its restart point; CTX
keeps naming the context that it runs in (R144). DEDUCED (log 24). -/
def Context.rollBack (x : Context) (sn : Snapshot) : Context :=
  let t := Vector.ofFn (fun i : Fin 4 => undoTokens x.tokens[i] sn.delta[i])
  let y : Context :=
    { x with
      x := sn.x, h := sn.h, p := sn.p, rotb := sn.rotb, loopc := sn.loopc,
      status := (sn.status &&& ~~~0x8000) ||| (x.status &&& 0x8000) ||| 0x4000,
      lq := x.lq.filter (fun e => !e.inPhase), cq := x.cq.filter (fun e => !e.inPhase),
      sq := x.sq.filter (fun e => !e.inPhase), holdList := [], holdCount := 0,
      tokens := vecMap (fun p => p.1) t,
      snap := some { sn with delta := Vector.replicate 4 0 }, pendingX := [],
      pc := x.restart + 4, hold := none, phaseCancelled := true }
  (((y.repush .lq true t[0].2).repush .cq false t[1].2).repush .cq true t[2].2).repush .sq false t[3].2

/-- Steps 1 to 4 of the cancellation; the phase's parked stores are discarded with the held ones.
DEDUCED (log 24). -/
def State.cancelPhase (s : State) (c : Nat) (k : Bool) : State :=
  let x := s.ctx c k
  match x.snap with
  | none => s
  | some sn =>
    let mine := x.copies.filter (fun p => p.1 + 1 == x.phaseNo)
    let s := (mine.drop (mine.length - 8)).foldl (fun s p => s.reissue c k p.2.1 p.2.2.1 p.2.2.2) s
    let core := s.core c
    let s := s.setCore c { core with replay := core.replay.filter (fun p => !(p.context == k && p.inPhase)) }
    s.setCtx c k ((s.ctx c k).rollBack sn)

/-- An uncorrectable error cancels the phase: a RECOVERED record, which is counted (R415), and no halt. -/
def State.cancelOn (s : State) (c : Nat) (k : Bool) (engine : Bool) (src : BitVec 8) (u : Uncorr) : State :=
  let s := (((s.scrub u).eccCount u.die u.structure_ true).cancelPhase c k).count c 0x16 1
  s.raise (dieOf c) (s.ctxRec c k .recovered engine src (s.ctx c k).pc { u.trap with grade := .same })

/-- A halt on a consumed uncorrectable sector. -/
def State.haltOn (s : State) (c : Nat) (k : Bool) (engine : Bool) (src : BitVec 8) (pc : Word) (u : Uncorr) : State :=
  (s.scrub u).takeTrap c k .halted engine src pc u.trap

/-! ## Starting an entry -/

/-- The uncorrectable sectors of rows that a vector instruction reads: row, sector of the row. -/
def State.rowErrors (s : State) (c : Nat) (e : Entry) : List (Nat × Nat × Poison) :=
  if s.poison.isEmpty then []
  else
    (e.readsRes.eraseDups).flatMap (fun r =>
      match r with
      | .place (.row p) => (s.rowPoison c p e.readsSector).map (fun x => (p, x))
      | _ => [])

/-- A row of which a sector reads as a free value. -/
def Core.freeSector (c : Core) (free p i : Nat) : Core :=
  let m : Row := (BitVec.allOnes 8192 >>> (8192 - 512)) <<< (512 * i)
  { c with rows := setKey p ((c.row p &&& ~~~m) ||| (Config.freeRow (freeKey free (2 ^ 22 + p)) &&& m)) c.rows }

/-- A vector instruction has read an uncorrectable sector: it raises no ECC fault (R301); the error counts, the line is
scrubbed, and one that has come again takes the bank out and halts the task (R210, R398). DEDUCED (log 35). -/
def State.rowError (s : State) (c : Nat) (k : Bool) (q : Poison) : State :=
  match s.lodgeErr c 0 (dieOf c) q with
  | .poison u => (s.scrub u).eccCount u.die u.structure_ true
  | .fault t _ _ => s.takeTrap c k .halted true srcCq (s.ctx c k).pc t
  | _ => s

/-- A vector instruction starts. -/
def startVector (b : Starting) : X Begun := do
  let s ← get
  let bad := s.rowErrors b.c b.e
  let r := s.readerFor b
  let r : Reader := { r with core := bad.foldl (fun core x => core.freeSector s.fresh x.1 x.2.1) r.core }
  match r.vector (illegalOf (encode b.e.instr)) b.e.instr with
  | .error t => X.trap t
  | .ok v =>
    match v.poison with
    | some blk => modify (fun s => s.log b.c b.k .logged true srcCq (scalePoison blk none))
    | none => pure ()
    modify (fun s => bad.foldl (fun s x => s.rowError b.c b.k x.2.2) s)
    pure (.land v.land)

/-- KATI hands its pattern to a port (R352). -/
def startKati (b : Starting) (vector : Bool) (i : BitVec 8) : X Begun := do
  modify (fun s =>
    let x := s.ctx b.c b.k
    s.setCtx b.c b.k { x with kat := x.kat.filter (fun c => !(c.vector == vector && c.pattern == i)) ++
      [{ vector := vector, pattern := i, done := false, result := 0 }] })
  pure (.land Landing.empty)

/-- KAT_MISMATCH (R352, R406). -/
def katMismatch (vector : Bool) (i : BitVec 8) (want got : BitVec 32) : Trap :=
  { code := 0x0F, detail := got ++ want, grade := .other, aux := w64 (256 * bit vector + i.toNat) |>.extractLsb' 0 32 }

/-- KATC compares the check of its pattern, zero where there is none. -/
def startKatc (b : Starting) (vector : Bool) (i : BitVec 8) (check : BitVec 32) : X Begun := do
  let s ← get
  let got := (((s.ctx b.c b.k).katFor vector i).map (fun c => c.result)).getD 0
  if got ≠ check then X.trap (katMismatch vector i check got)
  set (s.count b.c 0x14 1)
  pure (.land Landing.empty)

/-- What an entry does when it starts. DEDUCED (log 21). -/
def startOf (b : Starting) : X Begun :=
  match b.e.instr with
  | .vld .. | .vst .. | .vlds .. | .vsts .. | .vgather .. | .vscatter .. | .vldx .. | .vpref .. => startVmem b
  | .tldt _ n sat rm t h x => startTldt b n sat rm t h x
  | .tstt _ t h x => startTstt b t h x
  | .tlease .. | .trel .. | .tzero .. | .tmma .. | .tmmaa .. | .tdrain .. => startArray b
  | .abound .. | .arelax .. | .arelaxBilinear .. | .asym .. | .aret .. | .acond .. | .aalign .. | .achk ..
  | .atbl .. => startEnc b
  | .kati _ u i => startKati b u i
  | .katc _ u i w => startKatc b u i w
  | _ => startVector b

/-- What a try comes to: nothing may happen, a new state, or a stop. -/
inductive Tried where
  | no
  | go (s : State)
  | stop (f : Fault)

def Tried.outcome (t : Tried) (s : State) : Host.Outcome State Fault Refusal :=
  match t with
  | .no => .next s
  | .go s => .next s
  | .stop f => .fault f

/-- A mismatch joins its die's count and log (R397, R412). -/
def State.noteKat (s : State) (c : Nat) (t : Trap) : State :=
  if t.code = 0x0F then
    let d := s.die (dieOf c)
    s.setDie (dieOf c) { d with katMismatches := d.katMismatches + 1, katLog := d.katLog ++ [(c, t.aux.getLsbD 8, s.time)] }
  else s

/-- An entry that stopped before its end. DEDUCED (log 38). -/
def State.entryStop (s : State) (c : Nat) (k : Bool) (q : QName) (e : Entry) (err : XErr) : Tried :=
  let x := s.ctx c k
  match err with
  | .fault t resolvable va =>
    if q == .lq && resolvable then
      .go ((s.setEntry c k q { e with phase := .stalled va }).log c k .parked true (queueSrc q) t)
    else .go (((s.setEntry c k q { e with phase := .faulted }).noteKat c t).takeTrap c k .halted true (queueSrc q) x.pc t)
  | .poison u =>
    if x.mayCancel e.inPhase then .go (s.cancelOn c k true (queueSrc q) u)
    else .go ((s.setEntry c k q { e with phase := .faulted }).haltOn c k true (queueSrc q) x.pc u)
  | .wait => .go (s.setEntry c k q { e with phase := .waiting })
  | .stop f => .stop f

/-- An uncorrectable sector of a row or tile that a memory or array instruction reads (R210, R266, R398): no handle
names it, so its policy is FAULT. DEDUCED (log 35). -/
def State.operandErr (s : State) (c : Nat) (e : Entry) : Option XErr :=
  if s.poison.isEmpty || e.instr.vhdr?.isSome then none
  else
    (e.readsRes.findSome? (fun r =>
      match r with
      | .place (.row p) => (s.rowPoison c p e.readsSector).head?.map (fun x => x.2)
      | .tile t => s.tilePoison c t.toNat
      | _ => none)).map (s.lodgeErr c 0 (dieOf c))

/-- An entry starts: pops first, then its effect (R338). DEDUCED (log 21). -/
def State.startEntry (s : State) (c : Nat) (k : Bool) (q : QName) (e : Entry) : Tried :=
  let x := s.ctx c k
  let pops := if e.popped then [] else popsOf q (Instr.tok e.instr)
  let e' : Entry := { e with popped := true, moved := s.time }
  let y := ((pops.foldl (fun x n => x.moveToken n false e.inPhase) x).setEntry q e').settle
  let s0 := s.setCtx c k y
  let b : Starting := { c := c, k := k, e := e', q := q, cancel := x.mayCancel e.inPhase }
  let begun (l : EntryPhase) (s1 : State) : Tried :=
    .go { s1.setEntry c k q { e' with phase := l } with fresh := s1.fresh + 1 }
  match s0.operandErr c e with
  | some err => s0.entryStop c k q e' err
  | none =>
  match (startOf b).run s0 with
  | .ok (.land l, s1) => begun (if q == .lq then .arrived l else .started l) s1
  | .ok (.stores l, s1) => begun (.stores l) s1
  | .ok (.stopped .wait g, s1) =>
    if g.got.length = e.got.length && pops.isEmpty then .no
    else .go (s1.setEntry c k q (e'.setProgress g))
  | .ok (.stopped err g, s1) => s1.entryStop c k q (e'.setProgress g) err
  | .error .wait => if pops.isEmpty then .no else .go s0
  | .error err => s0.entryStop c k q e' err

/-- An array command asks for the lease where it has not (R304). -/
def State.askLease (s : State) (c : Nat) : Tried :=
  let q := s.quad (quadOf c)
  if q.requests.contains (inQuad c) then .no else .go (s.setQuad (quadOf c) (q.ask (inQuad c)))

/-- The quad's array command queue holds 16 commands of a core (R335). -/
def State.arrayRoom (s : State) (c : Nat) (i : Instr) : Bool :=
  (Instr.arrayPlane? i).isNone ||
    ((((s.ctx c false).cq ++ (s.ctx c true).cq).filter (fun e =>
      (Instr.arrayPlane? e.instr).isSome && !e.unstarted && !e.done)).length < 16)

/-- The head of a queue starts where it may. -/
def State.tryStart (s : State) (c : Nat) (k : Bool) (q : QName) : Tried :=
  match s.startable c k q with
  | none => .no
  | some e =>
    match s.arrayGate c e.instr with
    | .ready => if s.arrayRoom c e.instr then s.startEntry c k q e else .no
    | .request => s.askLease c
    | .wait => .no
    | .bad =>
      -- the fault comes at start, after the pops
      let x := s.ctx c k
      let pops := if e.popped then [] else popsOf q (Instr.tok e.instr)
      let y := ((pops.foldl (fun x n => x.moveToken n false e.inPhase) x).setEntry q { e with popped := true }).settle
      (s.setCtx c k y).entryStop c k q { e with popped := true } (.fault (illegalOf (encode e.instr)) false 0)

/-! ## Completing an entry (R268, R279, R340) -/

/-- Two landings write one place. -/
def Landing.meets (a b : Landing) : Bool :=
  a.writes.any (fun w => b.writes.any (fun v => v.dest == w.dest)) || (a.latch.isSome && b.latch.isSome) ||
    (a.latch.isSome && b.writes.any (fun v => v.dest == .latch)) || (b.latch.isSome && a.writes.any (fun w => w.dest == .latch)) ||
    (match a.pred, b.pred with | some p, some r => p.1 == r.1 | _, _ => false)

/-- A CQ entry's writes may land: none to the same place waits before it. -/
def Context.cqLandable (x : Context) (e : Entry) (l : Landing) : Bool :=
  x.cq.all (fun f => e.seq ≤ f.seq || (match f.phase with | .started m => !l.meets m | _ => true))

/-- The load data queue's oldest row is written, and its load completes. DEDUCED (log 21). -/
def State.loadReturn (s : State) (c : Nat) (k : Bool) : Tried :=
  let x := s.ctx c k
  match x.lq.find? (fun e => match e.phase with | .arrived _ => true | _ => false) with
  | some e =>
    (match e.phase with
    | .arrived l =>
      if e.taken.scored && !scoreLand x e then .no
      else
        let s := s.landOn c k l
        .go (s.setCtx c k ((s.ctx c k).finish .lq e))
    | _ => .no)
  | none => .no

/-! ## Stores, parked and held (R211, R237) -/

/-- How far the element stores of a store have come. -/
inductive Done where
  | all (s : State)
  /-- an element waits behind a parked store of its page -/
  | behind (rest : List ElemStore) (s : State)
  | stopped (rest : List ElemStore) (e : XErr) (s : State)

/-- One element store of the store instruction `seq`: held where its phase holds it, once it has been translated
with its permission, and else performed (R211, R250). -/
def storeElem (v : View) (seq : Nat) (phase : Bool) (e : ElemStore) : X Unit := do
  if phase && (← get).holdsElem v e then
    let _ ← translate v (e.globalOf.getD 0) true
    modify (fun s =>
      match v.ctx with
      | some (c, k) => s.setCtx c k ((s.ctx c k).holdElem seq e)
      | none => s)
  else performStore v e

/-- Element stores in order, until one does not complete (R235). DEDUCED (log 25); DESIGN CHOICE (log 72). -/
def performAll (v : View) (seq : Nat) (phase : Bool) : List ElemStore → State → Done
  | [], s => .all s
  | e :: t, s =>
    let parked := match e.globalOf with | some a => s.parkedOn v a | none => false
    if parked then .behind (e :: t) s
    else
      match (storeElem v seq phase e).run s with
      | .ok (_, s) => performAll v seq phase t s
      | .error err => .stopped (e :: t) err s

/-- The core's replay queue takes a store. DEDUCED (log 25). -/
def State.park (s : State) (c : Nat) (p : Parked) : State :=
  let core := s.core c
  (s.setCore c { core with replay := core.replay ++ [p] }).count c 0x0D 1
def Core.replayFull (c : Core) : Bool := 16 ≤ c.replay.length

/-- REPLAY_FULL (R237). -/
def replayFullTrap (va : Nat) : Trap := { code := 0x15, detail := w64 va, grade := .same }

def firstVa (l : List ElemStore) : Nat := match l with | e :: _ => e.range.2.1 | [] => 0

/-- An entry's stores that came to a halt. -/
def State.storeStop (s : State) (c : Nat) (k : Bool) (q : QName) (e : Entry) (rest : List ElemStore) (err : XErr) (moved : Bool) : Tried :=
  let x := s.ctx c k
  let halt (t : Trap) : Tried :=
    .go ((s.setEntry c k q { e with phase := .faultedStores rest }).takeTrap c k .halted true srcStore x.pc t)
  match err with
  | .fault t true va =>
    if (s.core c).replayFull then halt (replayFullTrap va)
    else
      let s := s.park c { context := k, seq := e.seq, stores := rest, inPhase := x.phase && e.inPhase }
      .go ((s.setEntry c k q { e with phase := .stores [] }).log c k .parked true srcStore t)
  | .fault t false _ => halt t
  | .poison u =>
    if x.mayCancel e.inPhase then .go (s.cancelOn c k true srcStore u) else halt u.trap
  | .wait => if moved then .go (s.setEntry c k q { e with phase := .stores rest, moved := s.time }) else .no
  | .stop f => .stop f

/-- No earlier store of the context's queues that overlaps waits to be written, or has halted with elements to
write. -/
def Context.sqOrdered (x : Context) (e : Entry) (l : List ElemStore) : Bool :=
  let rs (l : List ElemStore) : List Range :=
    l.map (fun e => let (p, lo, hi) := e.range; { padOf := if p then some 0 else none, lo := lo, hi := hi })
  (x.cq ++ x.sq).all (fun f => e.seq ≤ f.seq ||
    (match f.phase with | .stores m | .faultedStores m => !rangesMeet Range.meets (rs l) (rs m) | _ => true))

/-- The phase keeps stores of the store instruction `seq`. -/
def Context.holds (x : Context) (seq : Nat) : Bool := x.holdList.any (fun h => h.seq == seq)

/-- The element stores of an entry are performed: a phase holds what memory serves, a resolvable fault parks the
rest, and the entry completes once nothing of it is parked or held. DEDUCED (log 21). -/
def State.performEntry (s : State) (c : Nat) (k : Bool) (q : QName) (e : Entry) (l : List ElemStore) : Tried :=
  let x := s.ctx c k
  if (s.core c).replay.any (fun p => p.context == k && p.seq == e.seq) then .no
  else if !x.sqOrdered e l then .no
  else
    let phase := x.phase && e.inPhase
    match performAll (s.entryView c k .sq e) e.seq phase l s with
    | .all s =>
      if phase && (s.ctx c k).holds e.seq then .go (s.setEntry c k q { e with phase := .held })
      else .go (s.setCtx c k ((s.ctx c k).finish q e))
    | .behind rest s =>
      if (s.core c).replayFull then s.storeStop c k q e rest (.fault (replayFullTrap (firstVa rest)) false 0) true
      else .go ((s.park c { context := k, seq := e.seq, stores := rest, inPhase := phase }).setEntry c k q { e with phase := .stores [] })
    | .stopped rest err s => s.storeStop c k q e rest err (rest.length < l.length)

/-- An SQ entry's data are written. -/
def State.completeSq (s : State) (c : Nat) (k : Bool) (e : Entry) : Tried :=
  match e.phase with
  | .stores l => s.performEntry c k .sq e l
  | _ => .no

/-- A CQ entry completes; an array command in WIN2 only in its core's window (R306); a drain whose stores its phase
holds once they are released and written (R319). DEDUCED (log 21). -/
def State.completeCq (s : State) (c : Nat) (k : Bool) (e : Entry) : Tried :=
  let x := s.ctx c k
  let advances := (Instr.arrayPlane? e.instr).isNone || (s.quad (quadOf c)).mayAdvance (inQuad c)
  match e.phase with
  | .started l =>
    if x.cqLandable e l && advances then
      let s := (s.landOn c k l).dropHolders l.drops
      let x := s.ctx c k
      .go (if x.holds e.seq then s.setEntry c k .cq { e with phase := .held } else s.setCtx c k (x.finish .cq e))
    else .no
  | .stores l => if advances then s.performEntry c k .cq e l else .no
  | _ => .no

/-- The entry at a position of a queue completes where it may. -/
def State.tryComplete (s : State) (c : Nat) (k : Bool) (q : QName) (n : Nat) : Tried :=
  match ((s.ctx c k).queue q)[n]? with
  | none => .no
  | some e =>
    match q with
    | .cq => s.completeCq c k e
    | .sq => s.completeSq c k e
    | .lq => .no

/-! ## The known-answer ports (R352) -/

def katArray (i : Nat) : List Byte :=
  let ta (r c : Nat) : Int := ((31 * r + 17 * c + 7 * i) % 256 : Nat) - 128
  let tb (r c : Nat) : Int := ((13 * r + 29 * c + 11 * i) % 256 : Nat) - 128
  (List.range 128).flatMap (fun r => (List.range 128).flatMap (fun j =>
    leBytes 4 (BitVec.ofInt 32 ((List.range 128).foldl (fun acc k => acc + ta r k * tb j k) 0)).toNat))

def katVector (i : Nat) : List Byte :=
  (List.range 256).flatMap (fun j =>
    let a := (2654435761 * j + i) % 2 ^ 32
    let b := a ^^^ 0x5A5A5A5A
    leBytes 4 ((a * b % 2 ^ 32 + popCount 32 (a ^^^ b)) % 2 ^ 32))

/-- The check of a pattern. -/
def katCheck (vector : Bool) (i : Nat) : BitVec 32 :=
  BitVec.ofNat 32 (crc32c (if vector then katVector i else katArray i))

/-- The oldest check that a unit's port holds is done. -/
def Context.katDone (x : Context) (vector : Bool) : Context :=
  match x.kat.find? (fun c => c.vector == vector && !c.done) with
  | none => x
  | some c =>
    { x with kat := x.kat.map (fun d => if d == c then { c with done := true, result := katCheck vector c.pattern.toNat } else d) }

end Sys2Proof.Machine
end

