-- ==== Sys2Proof/Machine/Seq.lean ====
section
/-! DEFINITION. The sequencer's own memory accesses: their checks, their order against the context's
entries and jobs, loads, stores that are held or parked, and the FENCE conditions (R183, R201, R211,
R234, R237, R247, R250, R251). -/

namespace Sys2Proof.Machine

/-! ## Running a meaning of the sequencer -/

/-- A sequencer instruction runs to its end, faults precisely, waits to run again, or consumes an
uncorrectable sector, which cancels an eligible phase. -/
def attempt (i : Instr) (h : Hold) (m : M Unit) (s : State) : Host.Outcome State Fault Refusal :=
  match m.run s with
  | .ok (_, t) => .next t
  | .error (.trap t) => .next (s.fault t)
  | .error .wait => .next (s.holdOn i h)
  | .error (.poison u cancels) =>
    if cancels && s.me.mayCancel s.me.phase then .next (s.cancelOn s.cur s.myK false srcSequencer u)
    else .next (s.haltOn s.cur s.myK false srcSequencer s.me.pc u)
  | .error (.stop f) => .fault f

/-- No deadline: the wait ends when its cause ends. -/
def noDeadline : Hold := .wait (-1)

/-! ## Order (R241, R247) -/

/-- A sequencer access keeps the order of the context's entries, and in a scored region of its jobs. -/
def State.accessReady (s : State) (c : Nat) (k : Bool) (mine : List Range × List Range) : Bool :=
  let x := s.ctx c k
  let scored := x.latmode.getLsbD 0
  (x.before x.seq).all (fun f =>
      f.2.done || (f.1 == .cq && !scored) || (f.1 == .lq && !f.2.unstarted) ||
        !conflict Range.meets mine (s.footprint c k f.2)) &&
    (!scored ||
      (s.jobs.all (fun j => !s.mine c k j || j.orphan || !conflict Range.meets64 mine (j.reads, j.writes)) &&
       s.conds.all (fun j => !s.mineCond c k j || !conflict Range.meets64 mine ([], j.ranges))))

/-- The range of an access of the sequencer. -/
def globalRange (va n : Nat) : Range := { padOf := none, lo := va, hi := va + n }

/-- Waits that come before any access: LRMAP's drain (R205), then R241 and R247. -/
def seqOrder (va n : Nat) (write : Bool) : M Unit := do
  let s ← get
  let r := globalRange va n
  M.waitFor (!s.drainHolds s.cur s.myK { ranges := [r] })
  M.waitFor (s.accessReady s.cur s.myK (if write then ([], [r]) else ([r], [])))

/-! ## Checks (R201, R250) -/

/-- SPILL_OVERFLOW (R201). -/
def spillOverflow (va : Word) : Trap := { code := 0x11, detail := va }

/-- The checks of R250 before translation, for the address operand `a`. -/
def seqCheck (a : XReg) (va : Word) (n : Nat) : M Unit := do
  M.must (va.toNat % n == 0) (misalign va)
  let x := (← get).me
  M.must (!(a.toNat == 62 && !x.inWindow va.toNat)) (spillOverflow va)
  M.must (va.toNat < 2 ^ 57) (xlate 2 va.toNat)

/-! ## Loads -/

/-- A load of `n` bytes at `va`, based on `a`. -/
def seqLoad (a : XReg) (va : Word) (n : Nat) : M Nat := do
  seqCheck a va n
  seqOrder va.toNat n false
  let bs ← seqX (readVa (← get).myView va.toNat n)
  pure (leNat bs)

/-! ## Stores (R211, R237) -/

/-- A store instruction of the sequencer: its elements are performed in order, a phase holds what memory or a
stash segment serves and counts it (R211), and a resolvable fault parks the rest (R237). DEDUCED (log 24). -/
def seqStore (i : Instr) (l : List ElemStore) : M Unit := do
  let s ← get
  let x := s.me
  let v := { s.myView with inPhase := x.phase }
  let counts := x.phase && l.any (s.holdsElem v)
  M.must (!counts || x.holdCount < 32) (illegalOf (encode i))
  let issued (s : State) : State :=
    s.setMe { s.me with holdCount := x.holdCount + bit counts, seq := x.seq + 1 }
  let parkWith (rest : List ElemStore) (s : State) : State :=
    (issued s).park s.cur { context := s.myK, seq := x.seq, stores := rest, inPhase := x.phase }
  match performAll v x.seq x.phase l s with
  | .all s => set (if counts then issued s else s)
  | .behind rest s =>
    M.must (!s.here.replayFull) (replayFullTrap (firstVa rest))
    set (parkWith rest s)
  | .stopped rest (.fault t true va) s =>
    M.must (!s.here.replayFull) (replayFullTrap va)
    set ((parkWith rest s).log s.cur s.myK .parked false srcSequencer t)
  | .stopped _ (.fault t false _) _ => M.trap t
  | .stopped _ (.poison u) _ => throw (.poison u true)
  | .stopped _ .wait _ => M.wait
  | .stopped _ (.stop f) _ => throw (.stop f)

/-! ## FENCE (R183) -/

/-- Every load that the context has routed has returned. DEDUCED (log 27). -/
def Context.loadsDone (x : Context) : Bool := x.lq.all (fun e => e.landed)
/-- Every store that the context has routed is performed, or held by its phase (R211). -/
def Context.storesDone (x : Context) : Bool := x.sq.all (fun e => e.done)
/-- No store of the context is parked. -/
def Core.noneParked (c : Core) (k : Bool) : Bool := c.replay.all (fun p => p.context != k)

/-- What FENCE.REL waits for. -/
def State.released (s : State) : Bool := s.me.loadsDone && s.me.storesDone && s.here.noneParked s.myK

/-! ## One scalar access -/

/-- The instruction of `n` bytes completes. -/
def M.retire (n : Nat) : M Unit := modify (fun s => s.retire n)
def M.writeX (d : XReg) (v : Word) : M Unit := modify (fun s => s.setX d v)

/-- A load of the sequencer finds its bytes neither in the Lodge nor in the cache room (R434). -/
def State.loadMisses (s : State) (va : Nat) : Bool :=
  let v := s.myView
  if (s.here.banksOf .cache).isEmpty || (s.spillOf v va).isSome || (s.servedBy v va).isSome then false
  else
    match (translate v va false).run s with
    | .ok (p, _) => !s.here.cacheHit p
    | .error _ => false

/-- The register of a load that misses returns a hundred cycles later, or more; what it holds is written at once, and
an instruction that an engine takes waits for it (R154, R341). DESIGN CHOICE (log 2). -/
def State.awaitLoad (s : State) (d : XReg) (missed : Bool) : State :=
  let now := s.now s.cur
  let rest := s.me.pendingX.filter (fun p => p.reg != d && now < p.due)
  if missed && d != 0 then
    let (n, s) := s.choose 1024
    s.setMe { s.me with pendingX := { reg := d, due := now + 100 + n, since := now } :: rest }
  else if s.me.pendingX.isEmpty then s
  else s.setMe { s.me with pendingX := rest }

/-- A scalar load (R249, R250). -/
def State.scalarLoad (s : State) (i : Instr) (d a : XReg) (imm : BitVec 12) (n : Nat) (signed : Bool) :
    Host.Outcome State Fault Refusal :=
  attempt i noDeadline (do
    let va := s.x a + imm.signExtend 64
    let v ← seqLoad a va n
    modify (fun t => t.awaitLoad d (s.loadMisses va.toNat))
    M.writeX d (if signed then BitVec.ofInt 64 (toSigned (8 * n) v) else w64 v)
    M.retire 4) s

/-- A scalar store (R249, R250). -/
def State.scalarStore (s : State) (i : Instr) (r a : XReg) (imm : BitVec 12) (n : Nat) :
    Host.Outcome State Fault Refusal :=
  attempt i noDeadline (do
    let va := s.x a + imm.signExtend 64
    seqCheck a va n
    seqOrder va.toNat n true
    seqStore i [.mem va.toNat (leBytes n (s.x r).toNat)]
    M.retire 4) s

end Sys2Proof.Machine
end

