-- ==== Sys2Proof/Machine/Merge.lean ====
section
/-! DEFINITION. Merging a revision into a target, element by element or sector by sector (R29 to R31). -/

namespace Sys2Proof.Machine

/-! ## One unit (R29) -/

/-- The element format of a region. -/
def Region.elt (r : Region) : Elt := (dtypeElt (Vector.replicate 4 0) r.elem 0).getD (Elt.int 8 true)

/-- OR and AND take sectors; the other types take elements. -/
def Region.bySector (r : Region) : Bool := r.merge == 7 || r.merge == 8
/-- Bytes of a unit. -/
def Region.unit (r : Region) : Nat := if r.bySector then 64 else r.elt.bits / 8

/-- SUM of a changed element. -/
def mergeSum (sat : Bool) (e : Elt) (a m c : Nat) : Nat :=
  match e.fp with
  | some f => encF f .rne (addV (f.decode m) (f.decode (encF f .rne (subV (f.decode c) (f.decode a)))))
  | none => (satInt sat e.uns e.bits (intVal e.uns e.bits m + (intVal e.uns e.bits c - intVal e.uns e.bits a))).1

/-- MAX and MIN of a changed element. -/
def mergePick (max : Bool) (e : Elt) (m c : Nat) : Nat :=
  match e.fp with
  | some f => (f.pick false max m c).1
  | none => (intPick max e m c).1

/-- HULL of a changed element: what is negative or no number counts as infinite. Of −0 and +0, which are equal, the
target's code stays. DESIGN CHOICE (log 80). -/
def mergeHull (m c : Nat) : Nat :=
  let x := (readRadius (FFmt.f32.decode m)).1
  let y := (readRadius (FFmt.f32.decode c)).1
  if x.isInf || y.isInf then 0x7F800000 else if numLt x y then c else m

/-- The target's unit after a merge, and whether it conflicts. -/
def Region.mergeUnit (r : Region) (a m c : Nat) : Nat × Bool :=
  if c = a then (m, false)
  else
    match r.merge with
    | 2 => if m = a then (c, false) else (m, true)
    | 3 => (c, false)
    | 4 => (mergeSum r.sat r.elt a m c, false)
    | 5 => (mergePick true r.elt m c, false)
    | 6 => (mergePick false r.elt m c, false)
    | 7 => (m ||| (c &&& ((2 ^ 512 - 1) ^^^ a)), false)
    | 8 => (m &&& (c ||| ((2 ^ 512 - 1) ^^^ a)), false)
    | 9 => (mergeHull m c, false)
    | _ => (m, false)

/-! ## Images -/

/-- The place of a byte in a revision whose leaves are listed; a page that is not listed is the launch's,
and none where no frame backs it. -/
def State.imageAt (s : State) (ls : List RevLeaf) (va : Nat) : Option Phys :=
  match ls.find? (fun l => l.page == va / 65536) with
  | some l => some (physOf va 3 l.leaf.toNat)
  | none =>
    match s.walk false va with
    | .leaf _ lvl e => some (physOf va lvl e)
    | _ => none

/-- Bytes of a revision, within a page; what no frame backs is zero. -/
def State.imageBytes (s : State) (ls : List RevLeaf) (va n : Nat) : List Byte :=
  match s.imageAt ls va with
  | some p => s.bytesAt p n
  | none => List.replicate n 0
/-- Bytes that may cross pages. -/
def State.imageLong (s : State) (ls : List RevLeaf) (va n : Nat) : List Byte :=
  (pieces va n).flatMap (fun p => s.imageBytes ls p.1 p.2)

/-- Two revisions hold a page in the same place. -/
def State.samePage (s : State) (a c : List RevLeaf) (page : Nat) : Bool :=
  (s.imageAt a (page * 65536)).map (fun p => (p.far, p.addr)) == (s.imageAt c (page * 65536)).map (fun p => (p.far, p.addr))

/-- The target of a merge. -/
structure Target where
  get : Nat → Nat → X (List Byte)
  put : Nat → List Byte → X Unit

/-- Bytes of the launch state written by its join, on a die: a demand-zero page is allocated (R221), a replica is
dropped (R232), and other agents' copies are recalled (R197). Bytes for a page that no table maps are lost, though a
fill mark that counts them has moved. DESIGN CHOICE (log 88). -/
def putLaunch (die va : Nat) (bs : List Byte) : X Unit := do
  let write (p : Phys) : X Unit := modify (fun s =>
    ((((s.dropReplica (va / 2 ^ 21)).recallAt none p bs.length).cacheOthers none p bs.length true).storeAt p bs))
  match (← get).walk false va with
  | .leaf _ lvl e => write (physOf va lvl e)
  | .allocate .. =>
    let (_, lvl, e) ← tableWalk (jobView none die) false va
    write (physOf va lvl e)
  | _ => pure ()

/-- The launch state as a target. -/
def launchTarget (die : Nat) : Target :=
  { get := fun va n => do pure ((← get).imageLong [] va n),
    put := fun va bs => (pieces va bs.length).forM (fun p => putLaunch die p.1 ((bs.drop (p.1 - va)).take p.2)) }

/-- The revision that a view reads and writes, as a target. -/
def viewTarget (v : View) : Target :=
  { get := fun va n => do
      -- the merge reads the bytes as they stand
      let s ← get
      let bs := (readLong v va n).run { s with poison := [] }
      match bs with
      | .ok (bs, _) => pure bs
      | .error e => X.fail e,
    put := writeLong v }

/-! ## One region -/

/-- Conflicts of a region: the offset of the first, and how many. -/
structure Conflicts where
  first : Option Nat
  units : Nat
deriving DecidableEq, Repr

def Conflicts.none : Conflicts := { first := Option.none, units := 0 }
def Conflicts.add (c : Conflicts) (off : Nat) : Conflicts := { first := some (c.first.getD off), units := c.units + 1 }

/-- The units of a region in a page: their addresses. -/
def Region.unitsIn (r : Region) (page : Nat) : List Nat :=
  let lo := max r.base (page * 65536)
  let hi := min (r.base + r.size) (page * 65536 + 65536)
  (List.range ((hi - lo) / r.unit)).map (fun i => lo + i * r.unit)

/-- One unit is merged; `s` holds A and C as they stood when the merge began. DEDUCED (log 35, 51). -/
def mergeAt (s : State) (t : Target) (r : Region) (a c : List RevLeaf) (acc : Conflicts) (va : Nat) : X Conflicts := do
  let n := r.unit
  let x := leNat (s.imageBytes a va n)
  let z := leNat (s.imageBytes c va n)
  if z = x then pure acc
  else
    let y := leNat (← t.get va n)
    let (w, bad) := r.mergeUnit x y z
    if w ≠ y then t.put va (leBytes n w)
    pure (if bad then acc.add (va - r.base) else acc)

/-- The pages of a revision that a region touches and that are not its ancestor's, ascending. -/
def State.changedPages (s : State) (r : Region) (a c : List RevLeaf) : List Nat :=
  sortBy (fun x y => x ≤ y) ((c.map (fun l => l.page)).filter (fun p =>
    r.base < p * 65536 + 65536 && p * 65536 < r.base + r.size && !s.samePage a c p))

/-- The fill mark of an APPEND region (R30). -/
def State.fillMark (s : State) (ls : List RevLeaf) (r : Region) : Nat := leNat (s.imageBytes ls r.base 8)

/-- APPEND (R30). DEDUCED (log 51). -/
def mergeAppend (s : State) (t : Target) (r : Region) (a c : List RevLeaf) : X Conflicts := do
  let fa := s.fillMark a r
  let fc := s.fillMark c r
  let fm := leNat (← t.get r.base 8)
  if fc < fa || (fc ≠ fa && r.size < 64 + fm + (fc - fa)) then pure (Conflicts.none.add 0)
  else if fc = fa then pure Conflicts.none
  else
    t.put (r.base + 64 + fm) (s.imageLong c (r.base + 64 + fa) (fc - fa))
    t.put r.base (leBytes 8 (fm + (fc - fa)))
    pure Conflicts.none

/-- One region is merged. -/
def mergeRegion (s : State) (t : Target) (r : Region) (a c : List RevLeaf) : X Conflicts :=
  if r.merge ≤ 1 then pure Conflicts.none
  else if r.merge = 10 then mergeAppend s t r a c
  else (s.changedPages r a c).foldlM (fun acc p => (r.unitsIn p).foldlM (mergeAt s t r a c) acc) Conflicts.none

/-- A revision `c` with ancestor `a` is merged into a target, region by region: the regions with
conflicts, by number. -/
def mergeAll (s : State) (t : Target) (rs : List Region) (a c : List RevLeaf) : X (List (Nat × Conflicts)) := do
  let l ← rs.zipIdx.mapM (fun r => do
    let k ← mergeRegion s t r.1 a c
    pure (r.2, k))
  pure (l.filter (fun p => p.2.units != 0))

/-- MERGE_CONFLICT (R31, R406). DEDUCED (log 51). -/
def mergeConflict (region : Nat) (c : Conflicts) : Trap :=
  { code := 0x0B, detail := w64 (c.first.getD 0 % 2 ^ 48 + min c.units 65535 * 2 ^ 48), aux := BitVec.ofNat 32 region }

/-- The launch counts its MERGE_CONFLICT records (R44) as they are raised, those among them that find no room in the
fault queue and are dropped (R405). DESIGN CHOICE (log 79). -/
def State.countConflicts (s : State) (launch n : Nat) : State :=
  match s.launch? launch with
  | some l => s.setLaunch { l with conflicts := l.conflicts + n }
  | none => s

end Sys2Proof.Machine
end

