-- ==== Sys2Proof/Machine/Place.lean ====
section
/-! DEFINITION. Which cores may take a task and which core deterministic placement gives, and how a task
becomes ready (R16, R18, R22 to R24, R38, R151, R356, R407). -/

namespace Sys2Proof.Machine

/-! ## The grid (R16, R18) -/

/-- The spatial levels of a launch, in table order. -/
def spatial (ls : List Level) : List Level := ls.filter (fun v => v.kind == 1 || v.kind == 2)

/-- Tasks of each superstep. -/
def gridSize (ls : List Level) : Nat := (spatial ls).foldl (fun n v => n * v.extent) 1

/-- The coordinates of a task index, the last spatial level varying fastest. -/
def coordsOf : List Level → Nat → List Nat
  | [], _ => []
  | v :: rest, i => (i / gridSize rest) % v.extent :: coordsOf rest i

/-- The loop counters of R18. -/
def loopStart (step : Nat) : List Level → List Nat → List Word
  | [], _ => []
  | v :: rest, cs =>
    match v.kind with
    | 0 => w64 step :: loopStart step rest cs
    | 3 => w64 v.extent :: loopStart step rest cs
    | _ => w64 (cs.headD 0) :: loopStart step rest (cs.drop 1)
def loopCounters (ls : List Level) (step index : Nat) : Vector Word 8 :=
  let l := loopStart step ls (coordsOf (spatial ls) index)
  Vector.ofFn (fun i => l[i.val]?.getD 0)

/-- The die of a task's coordinate on a SPATIAL_DIE level (R22). -/
def dieOfTask (ls : List Level) (index : Nat) : Option (BitVec 2) :=
  (((spatial ls).zip (coordsOf (spatial ls) index)).find? (fun p => p.1.kind == 1)).map (fun p => BitVec.ofNat 2 (p.2 % 4))

/-! ## Eligible cores (R22) -/

/-- Banks that a room request names. -/
def requestBanks (req : BitVec 32) : Nat :=
  (req.extractLsb' 0 8).toNat + (req.extractLsb' 8 8).toNat + (req.extractLsb' 16 8).toNat + (req.extractLsb' 24 8).toNat

/-- The good banks of a core as LODGECAP counts them. -/
def Core.goodBanks (c : Core) : Nat := ((List.range 48).filter (fun i => c.good.getLsbD i)).length

def onDie (die : Option (BitVec 2)) (c : Nat) : Bool :=
  match die with | some d => c / 256 == d.toNat | none => true

/-- The cores whose good banks cover a request, ascending. -/
def State.fitting (s : State) (req : BitVec 32) (die : Option (BitVec 2)) : List Nat :=
  (List.range 1024).filter (fun c => onDie die c && requestBanks req ≤ (s.core c).goodBanks)
/-- Those that the supervisor has not disabled. -/
def State.eligible (s : State) (req : BitVec 32) (die : Option (BitVec 2)) : List Nat :=
  (s.fitting req die).filter (fun c => !(s.core c).disabled)

/-! ## Deterministic placement (R24) -/

/-- The permutation P of 0 to 2^n − 1. -/
def permute (seed : Word) (n v : Nat) : Nat :=
  let h := n / 2
  let r := (List.range 4).foldl (fun (p : Nat × Nat) i =>
    let k := bitsOf seed.toNat (16 * i + 15) (16 * i)
    let f := (p.2 * 0x9E37 + k) % 2 ^ 32 * 0x85EB % 2 ^ 32 / 2 ^ 16
    (p.2, p.1 ^^^ (f % 2 ^ h))) (v / 2 ^ h, v % 2 ^ h)
  r.1 * 2 ^ h ||| r.2

/-- The cycle walk, which ends within 2^n steps. -/
def walkFromV (seed : Word) (n m : Nat) : Nat → Nat → Nat
  | 0, v => v
  | fuel + 1, v =>
    let c := permute seed n v
    if c < m then c else walkFromV seed n m fuel c

/-- The core of R24 for a list of eligible cores. -/
def detCore (seed : Word) (es : List Nat) (v : Nat) : Option Nat :=
  let m := es.length
  if m = 0 then none
  else
    let n := if es.all (fun c => c / 256 == es.headD 0 / 256) then 8 else 10
    es[walkFromV seed n m (2 ^ n) (v % m)]?

/-- Where a deterministic launch's task runs: among the cores eligible at its acceptance, or, where all of
the die's are disabled, among those that fit. DEDUCED (log 52). -/
def State.detPlace (s : State) (l : Launch) (die : Option (BitVec 2)) (v : Nat) : Option Nat :=
  match l.eligible.filter (onDie die) with
  | [] => detCore l.req.seed (s.fitting l.req.rooms die) v
  | es => detCore l.req.seed es v

/-! ## Save slices (R356, R364) -/

/-- The address of a launch's slice. -/
def Launch.sliceAt (l : Launch) (i : Nat) : Nat := l.req.ovfBase + i * l.req.overflow

def bytes8 (v : Nat) : List Byte := leBytes 8 v

/-- The view in which the dispatcher writes and reads an image. -/
def sliceView (id c : Nat) : View := { task := some id, ctx := none, core := none, die := dieOf c, sup := false }

/-- The pieces written; one that cannot be written is left as it was. -/
def State.writePieces (s : State) (v : View) (base : Nat) (l : List (Nat × List Byte)) : State :=
  l.foldl (fun (s : State) p =>
    match (writeLong v (base + p.1) p.2).run s with
    | .ok (_, s) => s
    | .error _ => s) s

/-! ## Becoming ready -/

/-- The index of a task, and its place in the fork tree (R33). -/
def taskIndex (w : Word) : Nat := bitsOf w.toNat 47 0

/-- A task of a launch, as its loop table or a FORK makes it, not yet ready. -/
def Task.make (id launch : Nat) (word : Word) (step : Nat) (entry : Word) (args : Vector Word 8) (now : Word) : Task :=
  { id := id, launch := launch, word := word, step := step, entry := entry, args := args, phase := .ready, since := now,
    age := 0, eligible := [], core := none, die := none, slice := none, parent := none, depth := 0, ordinal := 0, rev := [],
    anc := [], reserved := [], faulted := false, killed := false, escape := false, energy := 0, mints := 0, passed := none, crowded := none }

/-- A record against a task that holds no context. -/
def State.taskRec (s : State) (t : Task) (status : RecStatus) (src : BitVec 8) (f : Trap) : FaultRec :=
  { code := f.code, grade := f.grade, status := status, source := src,
    tag := ((s.launch? t.launch).map (fun l => l.req.tag)).getD 0, launch := some t.launch, who := some t.id, task := t.word,
    detail := f.detail, time := s.time, aux := f.aux, escape := t.escape }

/-- LODGE_REFUSED (R406, R407). -/
def lodgeRefused (req : BitVec 32) (die : Nat) : Trap :=
  { code := 0x0C, detail := w64 (req.toNat + die * 2 ^ 32), grade := .other }

/-- A task joins the launch's tasks and becomes ready; where no core's good banks fit, it is refused and
counts as faulted (R407). DEDUCED (log 54). -/
def State.makeReady (s : State) (l : Launch) (t : Task) : State :=
  let fits := s.fitting l.req.rooms t.die
  if fits.isEmpty then
    let d := (t.die.map (fun d => d.toNat)).getD l.die.toNat
    let s := { s with tasks := s.tasks ++ [{ t with phase := .ended false }] }
    ((s.dropMap t t.rev).raise l.die.toNat (s.taskRec t .halted srcDispatcher (lodgeRefused l.req.rooms d))).markFaulted t.id
  else { s with tasks := s.tasks ++ [{ t with eligible := s.eligible l.req.rooms t.die }] }

end Sys2Proof.Machine
end

