-- ==== Sys2Proof/Machine/Waybill.lean ====
section
/-! DEFINITION. The gazetteer and waybills, and what another module's traffic does here (R345, R383 to
R389). -/

namespace Sys2Proof.Machine

/-! ## Waybills (R386, R387) -/

def wbHops (w : BitVec 128) : Nat := bitsOf w.toNat 3 0
def wbChannel (w : BitVec 128) : Nat := bitsOf w.toNat 5 4
/-- Hop `h`: port and dateline. -/
def wbHop (w : BitVec 128) (h : Nat) : Nat := bitsOf w.toNat (15 + 10 * h) (6 + 10 * h)
def wbPort (w : BitVec 128) (h : Nat) : Nat := wbHop w h % 512
def wbDateline (w : BitVec 128) (h : Nat) : Nat := wbHop w h / 512
def wbModule (w : BitVec 128) : Nat := bitsOf w.toNat 111 96
def wbCore (w : BitVec 128) : Nat := bitsOf w.toNat 121 112
def wbEngine (w : BitVec 128) : Nat := bitsOf w.toNat 127 122

/-- The engines that a waybill names. -/
def engInbox : Nat := 0
def engMemory : Nat := 1
def engCollective : Nat := 2

/-- A pair of registers as a waybill (R342). -/
def State.waybill (s : State) (w : XReg) : BitVec 128 := s.x (w + 1) ++ s.x w

/-- The health mask of the gazetteer: bit i while link i is up (R383). -/
def State.health (s : State) : Nat := s.readNear (Config.gazetteerBase + 0x10) 4
/-- DEDUCED (log 48). -/
def State.linkUp (s : State) (l : Nat) : Bool := s.health.testBit l

/-- The check at injection (R387). -/
def State.waybillOk (s : State) (w : BitVec 128) (engine : Nat) : Bool :=
  let n := wbHops w
  n ≤ 8 && bitsOf w.toNat 95 86 == 0 && (List.range 8).all (fun h => h < n || wbHop w h == 0) &&
    wbEngine w == engine && (n != 0 || wbModule w == s.moduleId.toNat) &&
    (n == 0 || (wbPort w 0 ≤ 31 && s.linkUp (wbPort w 0))) &&
    wbChannel w + ((List.range 8).map (wbDateline w)).sum ≤ 3

/-- The link that a packet with a waybill leaves by, where it is down (R385, R449). -/
def State.downLink (s : State) (w : BitVec 128) : Option Nat :=
  if wbHops w != 0 && s.linksDown.getLsbD (wbPort w 0) then some (wbPort w 0) else none

/-- ROUTE_CHECK with a hop index, 0xF at injection and 0xE at arrival (R406). -/
def routeCheck (hop module : Nat) : Trap :=
  { code := 0x0D, detail := w64 (hop + module * 2 ^ 32), grade := .same }
/-- LINK_DOWN (R406). -/
def linkDown (l : Nat) : Trap := { code := 0x13, detail := w64 l, grade := .same }
/-- REMOTE_ACCESS (R345, R406). -/
def remoteAccess (addr : Word) (reason module : Nat) : Trap :=
  { code := 0x17, detail := xlateDetail reason addr.toNat, aux := BitVec.ofNat 32 module }

/-! ## Traffic of another module's engine (R345, R389) -/

/-- The view of traffic from another module: the task root's, of no task. -/
def remoteView (die : Nat) : View := { task := none, ctx := none, core := none, die := die, sup := false }

/-- The reason of R233 that a fault of a remote access gives. -/
def reasonOf (t : Trap) : BitVec 4 := if t.code = 0x05 then t.detail.extractLsb' 60 4 else 0

/-- What a remote access comes to: its report, or a wait. -/
inductive Served where
  | report (r : RemoteReport) (s : State)
  | wait
  | stop (f : Fault)

/-- Granules written in ascending address, up to the first that faults. -/
def serveWrite (v : View) : List (Nat × List Byte) → State → Served
  | [], s => .report .visible s
  | (a, bs) :: rest, s =>
    match (writeVa v a bs).run s with
    | .ok (_, s) => serveWrite v rest s
    | .error (.fault t _ _) => .report (.access [] (w64 a) (reasonOf t)) s
    | .error (.poison ..) => .report (.access [] (w64 a) 0) s
    | .error .wait => .wait
    | .error (.stop f) => .stop f

/-- Granules read in ascending address; they are sent as they stand. DEDUCED (log 35). -/
def serveRead (v : View) : List (Nat × Nat) → List Byte → State → Served
  | [], got, s => .report (.data got) s
  | (a, n) :: rest, got, s =>
    match (readVa v a n).run { s with poison := [] } with
    | .ok (bs, s') => serveRead v rest (got ++ bs) { s' with poison := s.poison }
    | .error (.fault t _ _) => .report (.access got (w64 a) (reasonOf t)) s
    | .error (.poison ..) => .report (.access got (w64 a) 0) s
    | .error .wait => .wait
    | .error (.stop f) => .stop f

/-- SEND's or RECV's access, performed on a die. -/
def State.serve (s : State) (die : Nat) (r : RemoteReq) : Served :=
  match r with
  | .write va data =>
    serveWrite (remoteView die) ((pieces va.toNat data.length).map (fun p => (p.1, (data.drop (p.1 - va.toNat)).take p.2))) s
  | .read va n _ => serveRead (remoteView die) (pieces va.toNat n) [] s

/-- What leaves the module. DESIGN CHOICE (log 47, 71). -/
def State.emit (s : State) (o : Out) : State := { s with outbox := s.outbox ++ [o] }

/-- REMOTE_WRITE_ARRIVE (R345, R389): checked on arrival, then translated and performed, and reported back. -/
def execRemoteWriteArrive (src : BitVec 16) (d : DieNo) (core : BitVec 10) (dest : Addressee)
    (r : RemoteReq) (s : State) : Host.Outcome State Fault Refusal :=
  if dest.module ≠ s.moduleId || core.toNat / 256 ≠ d.toNat || dest.engine.toNat ≠ engMemory then .next (s.emit (.report src (.routeCheck 0xE)))
  else
    match s.serve d.toNat r with
    | .report rep s => .next (s.emit (.report src rep))
    | .wait => .next s
    | .stop f => .fault f

end Sys2Proof.Machine
end

