-- ==== Sys2Proof/Machine/Job.lean ====
section
/-! DEFINITION. The asynchronous jobs: how CPY, XTBL, XDUC, COLL, SEND and RECV issue them, when the task
scheduler starts them, and how they end (R246, R247, R342 to R347, R411). -/

namespace Sys2Proof.Machine

/-! ## Engines (R335, R346, R403) -/

inductive Engine where
  | copy | transducer | collective
deriving DecidableEq, Repr

def JobKind.engine : JobKind → Engine
  | .cpy .. | .save .. => .copy
  | .xtbl .. | .xduc .. => .transducer
  | .coll .. | .send .. | .recv .. => .collective

/-- The capacity of an engine's queue on a die. -/
def Engine.capacity : Engine → Nat
  | .copy => 256
  | .transducer => 64
  | .collective => 128
/-- The source of its event records. -/
def Engine.eventSrc : Engine → BitVec 8
  | .copy => 1
  | .transducer => 2
  | .collective => 3
/-- The source of its fault records. -/
def Engine.faultSrc : Engine → BitVec 8
  | .copy => srcCopy
  | .transducer => srcTransducer
  | .collective => srcCollective

/-! ## Issue (R343) -/

def State.queueFull (s : State) (d : Nat) (e : Engine) : Bool :=
  e.capacity ≤ (s.jobs.filter (fun j => j.die.toNat == d && j.kind.engine == e)).length

/-- Words 0 and 1 of an instruction as the ILLEGAL detail takes them. -/
def wordsOf (i : Instr) : Word := (illegalOf (encode i)).detail

/-- What the acceptance of a job leaves behind in its context: the escape bit (R411), what the job means
for its phase (R212), and its reservation (R346). -/
def Context.jobIssued (x : Context) (escapes spoils : Bool) (copy : Option (HandleWord × HandleWord × Nat)) : Context :=
  { x with reserved := x.reserved + 1, escape := x.escape || escapes, phaseIneligible := x.phaseIneligible || (x.phase && spoils),
           copies := match copy, x.phase with
             | some p, true => x.copies ++ [(x.phaseNo, p.1, p.2.1, p.2.2)]
             | _, _ => x.copies }

/-- A job instruction: `named` its handles, `rd` the handle that it reads and `wr` the one it writes. -/
def issueJob (i : Instr) (kind : JobKind) (rd wr : Option HReg) (xt : XReg) : M Unit := do
  let s ← get
  let c := s.cur
  let k := s.myK
  let x := s.me
  (wr.toList ++ rd.toList).forM (fun h => M.must (handleOk (s.h h)) (handleBad h))
  let spaces := (wr.toList ++ rd.toList).map (fun h => hSpace (s.h h))
  M.waitFor (!s.drainHolds c k { cache := spaces.any (fun n => n != 1), pad := spaces.any (fun n => n != 0) })
  let e := kind.engine
  M.waitFor (!s.queueFull (dieOf c) e)
  M.waitFor (x.freeSlots != 0)
  let v := s.myView
  let reads := rd.toList.map (fun h => s.jobRange v c (s.h h))
  let writes := wr.toList.map (fun h => s.jobRange v c (s.h h))
  let fabric := match kind with | .send .. => true | .coll .. => true | _ => false
  let receives := match kind with | .recv .. => true | _ => false
  let escapes := fabric || (!receives && writes.any (s.liveRange x.task))
  let spoils := fabric || writes.any (fun r => r.padOf.isNone)
  let copy := match kind with
    | .cpy hd hs n => if hSpace hd = 1 then some (hd, hs, n) else none
    | _ => none
  let table := match kind with
    | .xduc _ _ _ _ slot => (s.die (dieOf c)).slots[slot.toNat]'slot.isLt
    | _ => []
  let job : Job :=
    { id := s.nextId, kind := kind, die := BitVec.ofNat 2 (dieOf c), core := c, context := k, who := x.task,
      launch := (s.ctxTask c k).map (fun t => t.launch), tag := (s.x xt).extractLsb' 0 32, words := wordsOf i, nf := s.here.nf,
      seq := x.seq, scored := x.latmode.getLsbD 0, reads := reads, writes := writes, phase := .waiting, pos := 0, got := (0, 0),
      replaced := false, seen := [], chunkSeen := false, table := table, parts := [], late := none,
      phaseNo := if x.phase then some x.phaseNo else none, orphan := false, reissued := false, moved := s.time }
  set { s with nextId := s.nextId + 1, jobs := s.jobs ++ [job] }
  modify (fun s => (s.setMe (s.me.jobIssued (escapes && !x.supervisor) spoils copy)).count c 0x17 1)
  M.retire 8

/-- CPY (R343, R345). -/
def execCpy (hd hs : HReg) (xn xt : XReg) (s : State) : Host.Outcome State Fault Refusal :=
  attempt (.cpy hd hs xn xt) .route
    (issueJob (.cpy hd hs xn xt) (.cpy (s.h hd) (s.h hs) (s.x xn).toNat) (some hs) (some hd) xt) s

/-- XTBL (R343, R345). -/
def execXtbl (slot : BitVec 3) (hs : HReg) (xt : XReg) (s : State) : Host.Outcome State Fault Refusal :=
  attempt (.xtbl slot hs xt) .route (issueJob (.xtbl slot hs xt) (.xtbl slot (s.h hs)) (some hs) none xt) s

/-- XDUC (R343, R345). -/
def execXduc (hd hs : HReg) (xn xs : XReg) (slot : BitVec 3) (xt : XReg) (s : State) : Host.Outcome State Fault Refusal :=
  attempt (.xduc hd hs xn xs slot xt) .route
    (issueJob (.xduc hd hs xn xs slot xt) (.xduc (s.h hd) (s.h hs) (s.x xn).toNat (s.x xs) slot) (some hs) (some hd) xt) s

/-- COLL (R343, R345). -/
def execColl (op : CollOp) (hd hs : HReg) (xn xg xt : XReg) (s : State) : Host.Outcome State Fault Refusal :=
  attempt (.coll op hd hs xn xg xt) .route
    (issueJob (.coll op hd hs xn xg xt) (.coll op (s.h hd) (s.h hs) (s.x xn).toNat (s.x xg).toNat) (some hs) (some hd) xt) s

/-- SEND (R343, R345). -/
def execSend (hs : HReg) (xr xw xt : XReg) (s : State) : Host.Outcome State Fault Refusal :=
  attempt (.send hs xr xw xt) .route
    (issueJob (.send hs xr xw xt) (.send (s.h hs) (s.x xr) (s.waybill xw)) (some hs) none xt) s

/-- RECV (R343, R345). -/
def execRecv (hd : HReg) (xr xw xt : XReg) (s : State) : Host.Outcome State Fault Refusal :=
  attempt (.recv hd xr xw xt) .route
    (issueJob (.recv hd xr xw xt) (.recv (s.h hd) (s.x xr) (s.waybill xw)) none (some hd) xt) s

/-! ## Who issued a job -/

/-- Where the context that issued a job is now. -/
inductive Owner where
  | here (c : Nat) (k : Bool)
  | saved (t : Task) (v : Saved)
  | gone

def State.ownerOf (s : State) (who : Option Nat) (c : Nat) (k : Bool) : Owner :=
  match who with
  | none => if (s.ctx c k).task.isNone && (s.ctx c k).mode != .free then .here c k else .gone
  | some id =>
    match s.task? id with
    | none => .gone
    | some t =>
      match t.phase with
      | .placed c k => if (s.ctx c k).task == some id then .here c k else .gone
      | .saved v => .saved t v
      | _ => .gone

/-- A record enters the queue of an issuing context and gives back its slot (R344, R346). -/
def State.deliver (s : State) (o : Owner) (r : BitVec 128) : State :=
  let put (x : Context) : Context := ({ x with reserved := x.reserved - 1 } : Context).pushEvent r
  match o with
  | .here c k => s.setCtx c k (put (s.ctx c k))
  | .saved t v => s.setTask { t with phase := .saved { v with ctx := put v.ctx } }
  | .gone => s

/-- A saved task's context halts on a fault of its engine's work: its image is in state 2, with the trap registers
(R364, R365). DESIGN CHOICE (log 62). -/
def State.haltSaved (s : State) (w : Task) (v : Saved) (t : Trap) : State :=
  let y : Context := { v.ctx with mode := .halted, tcause := causeWord t.code true, tval := t.detail, epc := v.ctx.pc, hold := none }
  let s := s.setTask { w with phase := .saved { v with ctx := y, halted := true } }
  match s.launch? w.launch with
  | some l => s.writePieces (sliceView w.id v.fromCore) (l.sliceAt (w.slice.getD 0))
      [(0x8, bytes8 y.tcause.toNat), (0x10, bytes8 y.tval.toNat), (0x18, [2])]
  | none => s

/-- A fault of an engine of die `d` halts the task that issued the work, saved or resident; a task that has issued EXIT
goes on to its end, and counts as faulted (R42, R347, R365, R403). -/
def State.ownerFault (s : State) (d : Nat) (o : Owner) (src : BitVec 8) (t : Trap) : State :=
  match o with
  | .here c k =>
    if (s.ctx c k).exited then
      let s := (s.eccOf t).bankLeaves c t
      let s := s.raise d (s.ctxRec c k .halted true src 0 t)
      match (s.ctx c k).task with
      | some id => s.markFaulted id
      | none => s
    else s.takeTrapOn d c k .halted true src (s.ctx c k).pc t
  | .saved w v =>
    let s := (s.eccOf t).bankLeaves v.fromCore t
    let r : FaultRec :=
      { s.taskRec w .halted src t with
          engine := true, epc := v.ctx.pc, escape := v.ctx.escape,
          core := BitVec.ofNat 16 v.fromCore, context := if v.context then 1 else 0 }
    let s := s.raise d r
    if v.ctx.exited then s.markFaulted w.id
    else if v.ctx.mode == .halted then s else s.haltSaved w v t
  | .gone => s.eccOf t

/-- A record against the task of the work of an engine of die `d`, which goes on. -/
def State.ownerLog (s : State) (d : Nat) (o : Owner) (status : RecStatus) (src : BitVec 8) (t : Trap) : State :=
  match o with
  | .here c k => s.raise d (s.ctxRec c k status true src 0 t)
  | .saved w v =>
    s.raise d { s.taskRec w status src t with
      engine := true, escape := v.ctx.escape, core := BitVec.ofNat 16 v.fromCore, context := if v.context then 1 else 0 }
  | .gone => s

/-- The context that issued an engine's work, where it is held or resident. -/
def State.ownerCtx (s : State) (o : Owner) : Option Context :=
  match o with
  | .here c k => some (s.ctx c k)
  | .saved _ v => some v.ctx
  | .gone => none

def State.owner (s : State) (j : Job) : Owner := s.ownerOf j.who j.core j.context

/-! ## Starting (R246, R247, R344) -/

def Job.clashes (a b : Job) : Bool := conflict Range.meets64 (a.reads, a.writes) (b.reads, b.writes)

/-- The footprint edges to earlier jobs of the die have cleared. -/
def State.edgesClear (s : State) (j : Job) : Bool :=
  s.jobs.all (fun i => j.id ≤ i.id || i.die != j.die || !i.clashes j) &&
  s.quads.all (fun q => q.1 / 64 != j.die.toNat ||
    q.2.cond.all (fun i => j.id ≤ i.id || !conflict Range.meets64 ([], i.ranges) (j.reads, j.writes)))

/-- No store of a context routed before a number, and parked, overlaps some ranges. -/
def Core.parkedClear (core : Core) (c : Nat) (k : Bool) (seq : Nat) (rs : List Range) : Bool :=
  core.replay.all (fun p => p.context != k || seq ≤ p.seq ||
    !rangesMeet Range.meets (p.stores.map (fun e => let r := e.range; { padOf := if r.1 then some c else none, lo := r.2.1, hi := r.2.2 })) rs)

/-- No earlier access of its context, in a scored region, that overlaps the job is still to be performed. -/
def State.scoreClear (s : State) (j : Job) : Bool :=
  !j.scored ||
    (match s.owner j with
    | .here c k =>
      let x := s.ctx c k
      (x.before j.seq).all (fun e => e.2.landed || !conflict Range.meets (s.footprint c k e.2) (j.reads, j.writes)) &&
        (s.core c).parkedClear c k j.seq (j.reads ++ j.writes)
    | .saved _ v => (v.ctx.before j.seq).all (fun e => e.2.landed) && v.parked.all (fun p => j.seq ≤ p.seq)
    | .gone => true)

/-- A job that its kind lets start: a save once its bytes are fixed, XDUC and XTBL once every earlier XTBL of their
slot is done, so that the table of the last one accepted stays (R345). -/
def State.kindReady (s : State) (j : Job) : Bool :=
  match j.kind with
  | .save _ bs => !bs.isEmpty
  | .xduc _ _ _ _ slot | .xtbl slot _ => s.jobs.all (fun i => j.id ≤ i.id || i.die != j.die ||
      (match i.kind with | .xtbl t _ => t != slot | _ => true))
  | _ => true

/-- A job that its engine may take. -/
def State.jobReady (s : State) (j : Job) : Bool :=
  j.phase == .waiting && s.kindReady j && s.edgesClear j && s.scoreClear j &&
    s.jobs.all (fun i => j.id ≤ i.id || i.core != j.core || i.context != j.context || i.who != j.who || i.kind.engine != j.kind.engine ||
      i.phase != .waiting)

/-- The job that an engine of a die starts next. -/
def State.nextJob (s : State) (d : DieNo) (e : Engine) : Option Job :=
  s.jobs.find? (fun j => j.die == d && j.kind.engine == e && s.jobReady j)

/-- JOB_START (R344). -/
def execJobStart (j : Nat) (s : State) : Host.Outcome State Fault Refusal :=
  match s.job? j with
  | none => .next s
  | some x => s.when ((s.nextJob x.die x.kind.engine).map (fun y => y.id) == some j) (s.setJob { x with phase := .started, moved := s.time })

/-! ## Ending (R41, R43, R344 to R347) -/

/-- A job of a task has not ended. -/
def State.hasJobs (s : State) (id : Nat) : Bool := s.jobs.any (fun j => j.who == some id)

/-- A killed task's revision goes when its last job has ended, and the task with it once its superstep has joined
(R25, R43). DEDUCED (log 49). -/
def State.reap (s : State) (who : Option Nat) : State :=
  match who.bind s.task? with
  | none => s
  | some t =>
    if !t.hasEnded || !t.killed || s.hasJobs t.id then s
    else if (s.launch? t.launch).any (fun l => l.step != t.step) then s.dropTask t.id
    else (s.dropRev t.id).dropAnc t.id

/-- A job that leaves no completion record. -/
def Job.silent (j : Job) : Bool := j.orphan || j.reissued || (match j.kind with | .save .. => true | _ => false)

/-- The detail of a completion record (R345). -/
def Job.detail (j : Job) : Word :=
  match j.kind with
  | .cpy .. => w64 j.got.1
  | .xduc .. =>
    let st := j.got.2 % 2 ^ 14
    w64 (j.got.1 % 2 ^ 32 + st * 2 ^ 32 + (j.got.2 / 2 ^ 14 % 4) * 2 ^ 62)
  | .coll _ _ _ n _ => w64 n
  | .send hs _ _ => w64 (hBound hs)
  | .recv hd _ _ => w64 (hBound hd)
  | _ => 0

def State.removeJob (s : State) (j : Job) : State := { s with jobs := s.jobs.filter (fun i => i.id != j.id) }

/-- A finished job's effect beyond memory: XTBL's table replaces the slot's for the jobs accepted later. -/
def State.jobEffect (s : State) (j : Job) : State :=
  match j.kind with
  | .xtbl slot _ =>
    let d := s.die j.die.toNat
    let s := s.setDie j.die.toNat { d with slots := d.slots.set slot.toNat j.table slot.isLt }
    { s with jobs := s.jobs.map (fun i =>
        match i.kind with
        | .xduc _ _ _ _ t => if j.id < i.id && i.die == j.die && t == slot then { i with table := j.table } else i
        | _ => i) }
  | _ => s

def Job.record (j : Job) (status code : BitVec 8) : BitVec 128 :=
  eventRecord 1 j.kind.engine.eventSrc status code j.tag j.detail

/-- A job completes. -/
def State.endJob (s : State) (j : Job) : State :=
  let o := s.owner j
  let s := (s.jobEffect j).removeJob j
  let s := if j.silent then s else s.deliver o (j.record 0 0)
  s.reap j.who

/-- A job faults: its record first, then the fault record and the halt of its task. -/
def State.faultJob (s : State) (j : Job) (t : Trap) : State :=
  let o := s.owner j
  let s := s.removeJob j
  let s := if j.silent then s else s.deliver o (j.record 1 t.code)
  let s := if j.orphan then s.eccOf t else s.ownerFault j.die.toNat (s.owner j) j.kind.engine.faultSrc t
  s.reap j.who

end Sys2Proof.Machine
end

