-- ==== Sys2Proof/Machine/Engine.lean ====
section
/-! DEFINITION. What the engines do: copies, transducer tables and transductions, LRMAP saves, SEND and
RECV, and collectives (R345, R347, R381, R382, R384 to R389, R448). -/

namespace Sys2Proof.Machine

/-! ## Elements of a job -/

/-- The core whose PAD a job uses. -/
def Job.padCore (j : Job) : Nat := ((j.reads ++ j.writes).findSome? (fun r => r.padOf)).getD 0

/-- The stream of a job's engine (R227). -/
def Job.stream (j : Job) : TlbAt :=
  .engine j.die.toNat (match j.kind.engine with | .copy => 0 | .transducer => 1 | .collective => 2)

/-- The view in which a job uses a handle; records come through the issuing core's record cache (R262). -/
def Job.view (j : Job) (h : HandleWord) : View :=
  { jobView j.who j.die.toNat j.stream with
    core := if hSpace h = 1 then some j.padCore else none, recs := some j.core, sup := isControl j.core }

/-- Reading through a handle: its poison policy, and records against the job's task. -/
def Job.access (j : Job) (h : HandleWord) : Access :=
  { v := j.view h, policy := hPoison h, cancel := false,
    log := fun t st s => s.ownerLog j.die.toNat (s.owner j) st j.kind.engine.faultSrc t }

def Job.progress (j : Job) : Got := { got := [], replaced := j.replaced, seen := j.seen, chunkSeen := j.chunkSeen }
def Job.setProgress (j : Job) (g : Got) : Job := { j with replaced := g.replaced, seen := g.seen, chunkSeen := g.chunkSeen }

/-- A handle without its record, as a run of elements of some bits from BASE. DEDUCED (log 45). -/
def bare (h : HandleWord) (bits : Nat) : Tensor := { h := h, record := none, elt := Elt.int bits false }

/-- One element read. -/
def readJob (a : Access) (t : Tensor) (ch : Option Chunks) (k : Int) (j : Job) : X (Nat × Job) := do
  let e ← t.elem a.v false k
  let e := e.getD (.value 0)
  t.check ((← get).core j.padCore) [e]
  let g ← a.element (hSpace t.h) t.nibbles ch j.progress 0 e
  pure ((g.got.headD (0, 0)).2, j.setProgress g)

/-- Where one element is to be written; none where it is padding. -/
def writePlace (v : View) (t : Tensor) (k : Int) (j : Job) : X (Option Nat) := do
  let e ← t.elem v true k
  match e with
  | none => pure none
  | some e =>
    t.check ((← get).core j.padCore) [e]
    pure (match e with | .place nib => some nib | _ => none)

/-! ## A job's run -/

/-- What running a job comes to: its end, an error with how far it came, or a wait for the fabric. -/
inductive Ran where
  | done (j : Job) (s : State)
  | err (e : XErr) (j : Job) (s : State)
  | away (j : Job) (s : State)

/-- One step of a job after another, `n` at most; a step says whether the job ends with it. -/
def runN (f : Job → X (Job × Bool)) : Nat → Job → State → Ran
  | 0, j, s => .done j s
  | n + 1, j, s =>
    match (f j).run s with
    | .ok ((j, true), s) => .done j s
    | .ok ((j, false), s) => runN f n j s
    | .error e => .err e j s

/-- A run's continuation. -/
def Ran.andThen (r : Ran) (f : Job → State → Ran) : Ran :=
  match r with
  | .done j s => f j s
  | r => r

/-- A fault of the job itself. -/
def Ran.fault (t : Trap) (j : Job) (s : State) : Ran := .err (.fault t false 0) j s

/-- Checks that come before a job's first element. -/
def Ran.check (m : X Unit) (j : Job) (s : State) : Ran :=
  match m.run s with
  | .ok (_, s) => .done j s
  | .error e => .err e j s

/-- The VOID OR that ends a job with a replaced element (R267). -/
def finishVoid (h : HandleWord) (j : Job) (s : State) : Ran :=
  Ran.check (voidAfter { j.view h with core := none } h j.replaced) j s

def Job.illegal (j : Job) : Trap := illegalAt j.words

/-! ## CPY (R345) -/

/-- The record of a handle with its element format; none where it has no record. -/
def jobRecord (j : Job) (h : HandleWord) : X (Option (Rec × Elt)) := do
  match ← recordFor { j.view h with core := none } h j.nf with
  | none => pure none
  | some r =>
    match dtypeElt j.nf r.dtype r.nf with
    | some e => pure (some (r, e))
    | none => X.bad r.addr

/-- The two ends of a CPY with their element size, and the source's bad chunks. -/
def copyEnds (j : Job) (hd hs : HandleWord) : X (Tensor × Tensor × Option Chunks) := do
  let a ← jobRecord j hs
  let b ← jobRecord j hd
  let byte : Elt := Elt.int 8 true
  let ea := (a.map (fun p => p.2)).getD ((b.map (fun p => p.2)).getD byte)
  let eb := (b.map (fun p => p.2)).getD ((a.map (fun p => p.2)).getD byte)
  X.must (ea.bits == eb.bits) j.illegal
  let ch ← match a with
    | some (r, _) => readChunks { j.view hs with core := none } r
    | none => pure none
  pure ({ h := hs, record := a.map (fun p => p.1), elt := ea }, { h := hd, record := b.map (fun p => p.1), elt := eb }, ch)

/-- The element index `n` elements from a handle's cursor. DEDUCED (log 45). -/
def fromCursor (h : HandleWord) (n : Nat) : Int := (hCursor h + w64 n).toInt

/-- Element `pos` is copied. -/
def copyOne (src dst : Tensor) (ch : Option Chunks) (j : Job) : X (Job × Bool) := do
  let (code, j') ← readJob (j.access src.h) src ch (fromCursor src.h j.pos) j
  let v := j.view dst.h
  match ← writePlace v dst (fromCursor dst.h j.pos) j with
  | none => pure ({ j' with pos := j.pos + 1 }, false)
  | some nib =>
    putElem v (hSpace dst.h) dst.nibbles nib code
    pure ({ j' with pos := j.pos + 1, got := (j.got.1 + 1, 0) }, false)

/-- DEDUCED (log 45). -/
def runCopy (hd hs : HandleWord) (n : Nat) (j : Job) (s : State) : Ran :=
  match (copyEnds j hd hs).run s with
  | .error e => .err e j s
  | .ok ((src, dst, ch), s) => (runN (copyOne src dst ch) (n - j.pos) j s).andThen (finishVoid hs)

/-! ## LRMAP's save (R204) -/

/-- The line `pos` of a save is written. -/
def saveOne (va : Nat) (bs : List Byte) (j : Job) : X (Job × Bool) := do
  writeLong (j.view 0) (va + 64 * j.pos) ((bs.drop (64 * j.pos)).take 64)
  pure ({ j with pos := j.pos + 1 }, false)

/-- A job whose work is done, but for the fault that is to end it. -/
def Job.ended (j : Job) (s : State) : Ran :=
  match j.late with
  | some (code, detail, grade, aux) => .fault { code := code, detail := detail, grade := grade, aux := aux } j s
  | none => .done j s

def runSave (va : Nat) (bs : List Byte) (j : Job) (s : State) : Ran :=
  (runN (saveOne va bs) (ceilDiv bs.length 64 - j.pos) j s).andThen Job.ended

/-! ## Transducers (R345, R381, R382) -/

/-- 64 bytes read from BASE on. -/
def readLine (hs : HandleWord) (j : Job) : X (List Byte × Job) := do
  let (v, j) ← readJob (j.access hs) (bare hs 512) none j.pos j
  pure (leBytes 64 v, { j with pos := j.pos + 1 })

/-- States of a table. -/
def tableStates (t : List Byte) : Nat := fieldAt t 0 4

/-- The word of state `q` and nibble `v`. -/
def tableEntry (t : List Byte) (q v : Nat) : Nat := fieldAt t (64 + 64 * q + 4 * v) 4

/-- An entry's layout. -/
def entryOk (states w : Nat) : Bool :=
  bitsOf w 31 26 == 0 && bitsOf w 15 14 == 0 && (bitsOf w 25 24 == 1 || bitsOf w 23 16 == 0) && bitsOf w 13 0 < states

/-- The offset of the first breach of R381. -/
def badEntry (t : List Byte) : Option Nat :=
  let n := tableStates t
  ((List.range (16 * n)).find? (fun i => !entryOk n (fieldAt t (64 + 4 * i) 4))).map (fun i => 64 + 4 * i)

def lineStep (hs : HandleWord) (j : Job) : X (Job × Bool) := do
  let (bs, j') ← readLine hs j
  pure ({ j' with table := j.table ++ bs }, false)

/-- XTBL's work, DEDUCED (log 16, 45); a header that breaks R381 comes before a BOUND too small. DESIGN CHOICE (log 98). -/
def runXtbl (hs : HandleWord) (j : Job) (s : State) : Ran :=
  if hBase hs % 64 ≠ 0 then .fault (misalign (w64 (hBase hs))) j s
  else
    (runN (lineStep hs) (1 - j.pos) j s).andThen (fun j s =>
      let n := tableStates j.table
      if n = 0 || 16384 < n || fieldAt j.table 4 60 ≠ 0 then .fault (illegalAt 0) j s
      else if hBound hs < 64 + 64 * n then .fault (bounds (w64 (hBase hs))) j s
      else
        (runN (lineStep hs) (1 + n - j.pos) j s).andThen (fun j s =>
          match badEntry j.table with
          | some off => .fault (illegalAt (w64 off)) j s
          | none => finishVoid hs j s))

/-- Nibbles through a table: the bytes emitted, the state, and how it ended (1 accept, 2 reject). -/
def transduce (t : List Byte) : List Nat → Nat → List Byte × Nat × Nat
  | [], q => ([], q, 0)
  | v :: rest, q =>
    let w := tableEntry t q v
    let q' := bitsOf w 13 0
    match bitsOf w 25 24 with
    | 1 =>
      let (bs, r) := transduce t rest q'
      (BitVec.ofNat 8 (bitsOf w 23 16) :: bs, r)
    | 2 => ([], q', 1)
    | 3 => ([], q', 2)
    | _ => transduce t rest q'

/-- Bytes emitted, one after another. -/
def emitBytes (hd : HandleWord) (j : Job) : List Byte → Nat → X Unit
  | [], _ => pure ()
  | b :: rest, n => do
    match ← writePlace (j.view hd) (bare hd 8) n j with
    | some nib => putElem (j.view hd) (hSpace hd) 2 nib b.toNat
    | none => pure ()
    emitBytes hd j rest (n + 1)

/-- Nibble `pos` of the input, the low nibble of each byte first: `got` holds the bytes emitted, and the state with how
it ended and the byte under way. -/
def xducOne (hd hs : HandleWord) (j : Job) : X (Job × Bool) := do
  let (b, j') ← if j.pos % 2 = 0 then readJob (j.access hs) (bare hs 8) none (j.pos / 2 : Nat) j
    else pure (bitsOf j.got.2 23 16, j)
  let (bs, q, e) := transduce j.table [if j.pos % 2 = 0 then b % 16 else b / 16] (j.got.2 % 2 ^ 14)
  emitBytes hd j bs j.got.1
  pure ({ j' with pos := j.pos + 1, got := (j.got.1 + bs.length, q + e * 2 ^ 14 + b * 2 ^ 16) }, e != 0)

/-- DEDUCED (log 45). -/
def runXduc (hd hs : HandleWord) (n : Nat) (init : Word) (j : Job) (s : State) : Ran :=
  let q := bitsOf init.toNat 13 0
  if j.table.isEmpty || tableStates j.table ≤ q then .fault j.illegal j s
  else
    let j := if j.pos = 0 then { j with got := (0, q) } else j
    -- a job that has halted and then waited for its VOID OR is done with its input
    (runN (xducOne hd hs) (if j.got.2 / 2 ^ 14 % 4 = 0 then 2 * n - j.pos else 0) j s).andThen (finishVoid hs)

/-! ## SEND and RECV (R345) -/

/-- The alignment and size rules. -/
def transferOk (h : HandleWord) (addr : Word) : Bool :=
  hBase h % 64 == 0 && hBound h % 64 == 0 && addr.toNat % 64 == 0 && hBound h ≤ 2 ^ 24

/-- Line `pos` of the local bytes is written. -/
def fillOne (hd : HandleWord) (bs : List Byte) (j : Job) : X (Job × Bool) := do
  match ← writePlace (j.view hd) (bare hd 512) j.pos j with
  | some nib => putElem (j.view hd) (hSpace hd) 128 nib (leNat ((bs.drop (64 * j.pos)).take 64))
  | none => pure ()
  pure ({ j with pos := j.pos + 1 }, false)

/-- The bytes that a RECV has received are written; a fault of the far end follows them. -/
def runFill (hd : HandleWord) (j : Job) (s : State) : Ran :=
  (runN (fillOne hd j.table) (j.table.length / 64 - j.pos) j s).andThen Job.ended

/-- What the far end of a transfer reports (R345, R387 to R389). -/
def applyReport (w : BitVec 128) (r : RemoteReport) (j : Job) (s : State) : Ran :=
  match r with
  | .visible => .done j s
  | .data bs =>
    (match j.kind with
    | .recv .. => .away { j with table := bs, pos := 0 } s
    | _ => .away j s)
  | .routeCheck hop => .fault (routeCheck hop.toNat (wbModule w)) j s
  | .linkDown l => .fault (linkDown l.toNat) j s
  | .access before a reason =>
    let t := remoteAccess a reason.toNat (wbModule w)
    match j.kind with
    | .recv .. => .away { j with table := before, pos := 0, late := some (t.code, t.detail, t.grade, t.aux) } s
    | _ => .fault t j s

/-- A transfer to a die of this module. -/
def serveHere (w : BitVec 128) (q : RemoteReq) (j : Job) (s : State) : Ran :=
  match s.serve (wbCore w / 256) q with
  | .report r s => applyReport w r j s
  | .wait => .err .wait j s
  | .stop f => .err (.stop f) j s

def runSend (hs : HandleWord) (addr : Word) (w : BitVec 128) (j : Job) (s : State) : Ran :=
  if !transferOk hs addr then .fault j.illegal j s
  else if !s.waybillOk w engMemory then .fault (routeCheck 0xF (wbModule w)) j s
  else
    (runN (lineStep hs) (hBound hs / 64 - j.pos) j s).andThen (fun j s =>
      (finishVoid hs j s).andThen (fun j s =>
        if wbHops w = 0 then serveHere w (.write addr j.table) j s
        else
          match s.downLink w with
          | some l => .fault (linkDown l) j s
          | none => .away j (s.emit (.packet j.id w addr j.table))))

/-- RECV asks for its bytes; when they have come, it writes them. -/
def runRecv (hd : HandleWord) (addr : Word) (w : BitVec 128) (j : Job) (s : State) : Ran :=
  if !transferOk hd addr then .fault j.illegal j s
  else if j.got.1 = 1 then runFill hd j s
  else if !s.waybillOk w engMemory then .fault (routeCheck 0xF (wbModule w)) j s
  else
    if wbHops w = 0 then
      match serveHere w (.read addr (hBound hd) j.id) j s with
      | .away j s => runFill hd { j with got := (1, 0) } s
      | r => r
    else
      match s.downLink w with
      | some l => .fault (linkDown l) j s
      | none => .away { j with got := (1, 0) } (s.emit (.fetch j.id w addr (hBound hd)))

/-! ## Collectives (R345, R384, R448) -/

/-- A group of the gazetteer. -/
structure Group where
  members : Nat
  rank : Nat
  switch : Bool
  waybills : List (BitVec 128)

/-- The directory entry of a group; none where it breaks the layout of R384. -/
def State.group (s : State) (g : Nat) : Option Group :=
  let base := Config.gazetteerBase
  let count := s.readNear (base + 0x28) 2
  let e := base + s.readNear (base + 0x20) 8 + 16 * g
  let list := s.readNear e 8
  let n := s.readNear (e + 8) 4
  let rank := s.readNear (e + 12) 2
  let flags := s.readNear (e + 14) 2
  if count ≤ g || list % 16 ≠ 0 || n = 0 || 65536 < n || n ≤ rank || 1 < flags then none
  else
    some { members := n, rank := rank, switch := flags == 1,
           waybills := (List.range n).map (fun i => BitVec.ofNat 128 (s.readNear (base + list + 16 * i) 16)) }

/-- Link table entry: peer kind and id. -/
def State.peer (s : State) (l : Nat) : Nat × Nat :=
  let a := Config.gazetteerBase + s.readNear (Config.gazetteerBase + 0x18) 8 + 16 * l
  (s.readNear a 1, s.readNear (a + 2) 2)

/-- The waybills of the other members. -/
def Group.others (g : Group) : List (BitVec 128) := (g.waybills.zipIdx.filter (fun p => p.2 != g.rank)).map (fun p => p.1)

/-- Every member lies one switch hop from a common switch. DEDUCED (log 46). -/
def State.oneSwitch (s : State) (g : Group) : Bool :=
  let ps := g.others.map (fun w => (wbHops w, s.peer (wbPort w 0)))
  ps.all (fun p => p.1 == 2 && p.2.1 == 1) &&
    (match ps with
    | [] => true
    | p :: rest => rest.all (fun q => q.2.2 == p.2.2))

/-- The conditions of a switch reduction. DEDUCED (log 46). -/
def State.switchOk (s : State) (g : Group) (op : CollOp) (e : Elt) (n : Nat) : Bool :=
  s.oneSwitch g && g.members ≤ 288 && op != .or && n ≤ 4096 && (e.bits != 16)

/-- The element types that COLL takes. -/
def collElt (code : Nat) : Option Elt :=
  match code with
  | 0x10 => some (Elt.float 32 FFmt.f32)
  | 0x11 => some (Elt.float 16 FFmt.bf16)
  | 0x05 => some (Elt.int 32 false)
  | 0x07 => some (Elt.int 64 false)
  | _ => none

/-- One combination m ∘ n. -/
def collCombine (op : CollOp) (e : Elt) (a b : Nat) : Nat :=
  match op, e.fp with
  | .sum, some f => encF f .rne (addV (f.decode a) (f.decode b))
  | .sum, none => (a + b) % 2 ^ e.bits
  | .max, _ => mergePick true e a b
  | .min, _ => mergePick false e a b
  | .or, _ => a ||| b

/-- The members' contributions in ascending rank. -/
def combineParts (op : CollOp) (e : Elt) (parts : List (Nat × List Word)) : List Nat :=
  match sortBy (fun (a b : Nat × List Word) => a.1 ≤ b.1) parts with
  | [] => []
  | p :: rest => rest.foldl (fun acc q => acc.zipWith (fun a b => collCombine op e a b) (q.2.map (fun w => w.toNat)))
      (p.2.map (fun w => w.toNat))

/-- The tensors of a COLL; their records must give one type that COLL takes. -/
def collEnds (j : Job) (op : CollOp) (hd hs : HandleWord) : X (Tensor × Tensor × Elt × Option Chunks) := do
  match ← jobRecord j hs, ← jobRecord j hd with
  | some (a, _), some (b, _) =>
    match collElt a.dtype with
    | some e =>
      X.must (a.dtype == b.dtype && (op != .or || e.fp.isNone)) j.illegal
      let ch ← readChunks { j.view hs with core := none } a
      pure ({ h := hs, record := some a, elt := e }, { h := hd, record := some b, elt := e }, e, ch)
    | none => X.trap j.illegal
  | _, _ => X.trap j.illegal

/-- One element of this member's contribution. -/
def collRead (src : Tensor) (ch : Option Chunks) (rank : Nat) (j : Job) : X (Job × Bool) := do
  let (code, j') ← readJob (j.access src.h) src ch (fromCursor src.h j.pos) j
  let mine := ((j.parts.find? (fun p => p.1 == rank)).map (fun p => p.2)).getD []
  pure ({ j' with pos := j.pos + 1,
                  parts := j.parts.filter (fun p => p.1 != rank) ++ [(rank, mine ++ [w64 code])] }, false)

/-- One element of the result. -/
def collWrite (dst : Tensor) (res : Array Nat) (n : Nat) (j : Job) : X (Job × Bool) := do
  let k := j.pos - n
  let v := j.view dst.h
  match ← writePlace v dst (fromCursor dst.h k) j with
  | some nib => putElem v (hSpace dst.h) dst.nibbles nib (res.getD k 0)
  | none => pure ()
  pure ({ j with pos := j.pos + 1 }, false)

/-- Contributions that came before the job was ready for them are its own. DEDUCED (log 46). -/
def State.takeEarly (s : State) (j : Job) (group : Nat) : Job × State :=
  let d := s.die j.die.toNat
  let have_ (l : List (Nat × List Word)) (r : Nat) : Bool := l.any (fun p => p.1 == r)
  let (mine, rest) := d.early.foldl (fun (acc : List (Nat × List Word) × List (Nat × Nat × List Word)) e =>
    if e.1 == group && !have_ (j.parts ++ acc.1) e.2.1 then (acc.1 ++ [(e.2.1, e.2.2)], acc.2) else (acc.1, acc.2 ++ [e])) ([], [])
  ({ j with parts := j.parts ++ mine }, s.setDie j.die.toNat { d with early := rest })

/-- COLL: this member's elements are read and sent, and when every contribution is there, the result is
written. `got` holds the number of members once the contribution has been sent. DEDUCED (log 46). -/
def runColl (op : CollOp) (hd hs : HandleWord) (n group : Nat) (j : Job) (s : State) : Ran :=
  match (collEnds j op hd hs).run s with
  | .error e => .err e j s
  | .ok ((src, dst, e, ch), s) =>
    let write (j : Job) (s : State) : Ran :=
      (runN (collWrite dst (combineParts op e j.parts).toArray n) (2 * n - j.pos) j s).andThen (finishVoid hs)
    if j.got.2 ≠ 0 then (if j.parts.length = j.got.2 then write j s else .away j s)
    else
      match s.group group with
      | none => .fault j.illegal j s
      | some g =>
        if g.switch && !s.switchOk g op e n then .fault j.illegal j s
        else
          match g.others.find? (fun w => !s.waybillOk w engCollective) with
          | some w => .fault (routeCheck 0xF (wbModule w)) j s
          | none =>
            match g.others.findSome? s.downLink with
            | some l => .fault (linkDown l) j s
            | none =>
            (runN (collRead src ch g.rank) (n - j.pos) j s).andThen (fun j s =>
              let own : List (Nat × List Word) := if n = 0 then [(g.rank, [])] else j.parts
              let j := { j with got := (0, g.members), parts := own }
              let s := if g.members = 1 then s
                else s.emit (.contribution j.id group g.rank ((own.headD (0, [])).2))
              let (j, s) := if g.switch then (j, s) else s.takeEarly j group
              if j.parts.length = j.got.2 then write j s else .away j s)

/-! ## JOB_COMPLETE (R346, R347) -/

/-- A started job's work. DEDUCED (log 45). -/
def State.runJob (s : State) (j : Job) : Ran :=
  match j.kind with
  | .cpy hd hs n => runCopy hd hs n j s
  | .xtbl _ hs => runXtbl hs j s
  | .xduc hd hs n init _ => runXduc hd hs n init j s
  | .coll op hd hs n group => runColl op hd hs n group j s
  | .send hs addr w => runSend hs addr w j s
  | .recv hd addr w => runRecv hd addr w j s
  | .save va bs => runSave va bs j s

/-- A job with the TIME of its last progress (R409), as it was and as it has become. -/
def Job.noteMove (j old : Job) (now : Word) : Job :=
  if j.pos = old.pos && j.got = old.got then j else { j with moved := now }

/-- What a run leaves of its job, which was `old` (R347). -/
def State.settleRun (old : Job) (r : Ran) : Host.Outcome State Fault Refusal :=
  match r with
  | .done j s => .next (s.endJob j)
  | .away j s => .next (s.setJob { j with phase := .remote, moved := s.time })
  | .err (.fault t true va) j s =>
    .next ((s.setJob { j with phase := .parked va, moved := s.time }).ownerLog j.die.toNat (s.owner j) .parked j.kind.engine.faultSrc t)
  | .err (.fault t false _) j s => .next (s.faultJob j t)
  | .err (.poison u) j s => .next ((s.scrub u).faultJob j u.trap)
  | .err .wait j s => .next (s.setJob (j.noteMove old s.time))
  | .err (.stop f) _ _ => .fault f

/-- JOB_COMPLETE (R345 to R347). DEDUCED (log 45). -/
def execJobComplete (j : Nat) (s : State) : Host.Outcome State Fault Refusal :=
  match s.job? j with
  | some x => if x.phase == .started then State.settleRun x (s.runJob x) else .next s
  | none => .next s

/-! ## What the fabric brings back -/

/-- A report for a SEND or RECV that waits for the fabric (R345, R388, R389). -/
def State.reportArrives (s : State) (j : Job) (w : BitVec 128) (r : RemoteReport) : Host.Outcome State Fault Refusal :=
  match applyReport w r j s with
  | .away j s =>
    let receives := match j.kind with | .recv .. => true | _ => false
    .next (s.setJob { j with phase := if receives then .started else .remote, moved := s.time })
  | r => State.settleRun j r

/-- COLL_RESULT_ARRIVE's incomplete result (R345, R448). -/
def reductionIncomplete (missing : List Nat) (group : Nat) : Trap :=
  { code := 0x14, detail := w64 ((missing.foldl min (missing.headD 0)) % 2 ^ 32 + missing.length % 2 ^ 32 * 2 ^ 32), grade := .same,
    aux := BitVec.ofNat 32 group }

/-- COLL_RESULT_ARRIVE (R448): a reduction's result, or the loss of a contribution on its way, as a switch or the
receiving module reports it or the link that has failed shows it (R388, R389, R449). -/
def execCollResultArrive (j : Nat) (r : SwitchResult) (s : State) : Host.Outcome State Fault Refusal :=
  match s.job? j with
  | some x =>
    (match x.kind, x.phase, r with
    | .coll _ _ _ _ _, .remote, .complete elems =>
      .next (s.setJob { x with parts := [(0, elems)], got := (0, 1), phase := .started, moved := s.time })
    | .coll _ _ _ _ group, .remote, .incomplete missing => .next (s.faultJob x (reductionIncomplete missing group))
    | .coll .., .remote, .routeCheck hop module => .next (s.faultJob x (routeCheck hop.toNat module.toNat))
    | .coll .., .remote, .linkDown l => .next (s.faultJob x (linkDown l.toNat))
    | _, _, _ => .next s)
  | none => .next s

/-- A COLL that lacks a rank's contribution: the oldest of the die for the group. -/
def State.wantsPart (s : State) (d group rank : Nat) : Option Job :=
  s.jobs.find? (fun j => j.die.toNat == d && j.phase == .remote && j.parts.all (fun p => p.1 != rank) &&
    (match j.kind with | .coll _ _ _ _ g => g == group | _ => false))

/-- COLLECTIVE_PACKET_ARRIVE (R345, R389). -/
def execCollectivePacketArrive (core : BitVec 10) (head : PacketHead)
    (group rank : Nat) (elems : List Word) (s : State) : Host.Outcome State Fault Refusal :=
  if head.module ≠ s.moduleId || head.engine.toNat ≠ engCollective then .next (s.emit (.report head.src (.routeCheck 0xE)))
  else
    let d := core.toNat / 256
    match s.wantsPart d group rank with
    | some j =>
      let parts := j.parts ++ [(rank, elems)]
      .next (s.setJob { j with parts := parts, phase := if parts.length = j.got.2 then .started else .remote, moved := s.time })
    | none => .next (s.setDie d { s.die d with early := (s.die d).early ++ [(group, rank, elems)] })

end Sys2Proof.Machine
end

