-- ==== Sys2Proof/Machine/Condense.lean ====
section
/-! DEFINITION. The condensation engine of a quad (R97 to R101, R330, R347). -/

namespace Sys2Proof.Machine

/-- The quad's number over the module. -/
def quadNo (d : DieNo) (q : BitVec 6) : Nat := 64 * d.toNat + q.toNat

def Quad.setCond (q : Quad) (j : CondJob) : Quad := { q with cond := q.cond.map (fun i => if i.id == j.id then j else i) }
def State.setCond (s : State) (n : Nat) (j : CondJob) : State := s.setQuad n ((s.quad n).setCond j)

def State.condOwner (s : State) (j : CondJob) : Owner := s.ownerOf j.who j.core j.context

/-- No earlier job of the die that overlaps the tensor is left, of its condensation engines too (R246). -/
def State.condEdges (s : State) (n : Nat) (j : CondJob) : Bool :=
  s.quads.all (fun q => q.1 / 64 != n / 64 ||
    q.2.cond.all (fun i => j.id ≤ i.id || !conflict Range.meets64 ([], i.ranges) ([], j.ranges))) &&
  s.jobs.all (fun i => j.id ≤ i.id || i.die.toNat != n / 64 || !conflict Range.meets64 (i.reads, i.writes) ([], j.ranges))

/-- In a scored region, no earlier access of the context that overlaps the tensor is still to be performed, its parked
stores among them (R103, R247). -/
def State.condScore (s : State) (j : CondJob) : Bool :=
  !j.scored ||
    (match s.condOwner j with
    | .here c k =>
      ((s.ctx c k).before j.seq).all (fun e => e.2.landed || !conflict Range.meets (s.footprint c k e.2) ([], j.ranges)) &&
        (s.core c).parkedClear c k j.seq j.ranges
    | .saved _ v => (v.ctx.before j.seq).all (fun e => e.2.landed) && v.parked.all (fun p => j.seq ≤ p.seq)
    | .gone => true)

/-- The view in which the engine uses the tensor. -/
def CondJob.view (j : CondJob) (n : Nat) : View :=
  { jobView j.who (n / 64) with
    core := if hSpace j.handle = 1 then j.ranges.findSome? (fun r => r.padOf) else none, recs := some j.core,
    sup := isControl j.core }

/-- The tensor as an ENC instruction would take it. -/
def CondJob.taken (j : CondJob) : Taken :=
  { xs := [], hs := [(1, j.handle)], guard := 0, rotb := 0, rows := 0, half := false, ftz := false, nf := nfPresets,
    tcfg := Vector.replicate 16 0, scored := false }

/-- The tensor's record and list. -/
def condTensor (n : Nat) (j : CondJob) : X Aff := affineOf (j.view n) j.taken 1

/-- The count to which the job condenses. -/
def CondJob.target (j : CondJob) : Nat := j.xs.toNat % 2 ^ 16

/-- The job's end: its record goes to the context that handed it over (R330). -/
def State.condEnd (s : State) (n : Nat) (j : CondJob) (status code : BitVec 8) (live : Nat) : State :=
  let o := s.condOwner j
  let q := s.quad n
  let s := s.setQuad n { q with cond := q.cond.filter (fun i => i.id != j.id) }
  s.deliver o (eventRecord 5 4 status code (j.xs.extractLsb' 32 32) (w64 live))

/-- A job that does not go on: a resolvable fault parks it, any other ends it, and VOID stays (R99); its
record then gives the live count that the job found. DEDUCED (log 50). -/
def State.condStop (s : State) (n : Nat) (j : CondJob) (e : XErr) : Host.Outcome State Fault Refusal :=
  let fail (t : Trap) : Host.Outcome State Fault Refusal :=
    let s := s.condEnd n j 1 t.code j.live
    .next (s.ownerFault (n / 64) (s.condOwner j) srcCondense t)
  match e with
  | .fault t true va => .next ((s.setCond n { j with parked := some va, moved := s.time }).ownerLog (n / 64) (s.condOwner j) .parked srcCondense t)
  | .fault t false _ => fail t
  | .poison u =>
    let s := (s.scrub u).condEnd n j 1 u.trap.code j.live
    .next (s.ownerFault (n / 64) (s.condOwner j) srcCondense u.trap)
  | .wait => .next s
  | .stop f => .fault f

/-- The first act of a job: VOID is set in the tensor's status, where the job may change the stack (R99); a job whose
target the live count does not exceed changes nothing. The list is read afterwards, so that a fault there leaves VOID
set, and a job that parks there keeps VOID's prior value. DEDUCED (log 50). -/
def condVoid (n : Nat) (j : CondJob) : X CondJob := do
  let v := j.view n
  match ← recordFor v j.handle nfPresets with
  | none => X.bad (hRec j.handle)
  | some r =>
    if j.target < r.live then setStatus v r.addr 1
    pure { j with void := r.status % 2 == 1, live := r.live }

/-- ACOND_JOB_START (R99, R330): the engine takes its oldest job. -/
def execAcondJobStart (d : DieNo) (q : BitVec 6) (s : State) : Host.Outcome State Fault Refusal :=
  let n := quadNo d q
  match (s.quad n).cond with
  | [] => .next s
  | j :: _ =>
    if j.started || j.parked.isSome || !s.condEdges n j || !s.condScore j then .next s
    else
      match (condVoid n j).run s with
      | .ok (j, s) => .next (s.setCond n { j with started := true, moved := s.time })
      | .error e => s.condStop n j e

/-- The engine's reads. -/
def CondJob.access (j : CondJob) (n : Nat) : Access :=
  { v := j.view n, policy := hPoison j.handle, cancel := false,
    log := fun t st s => s.ownerLog (n / 64) (s.condOwner j) st srcCondense t }

/-- The work of a job (R97 to R99): the new live count. DEDUCED (log 50). -/
def condWork (n : Nat) (j : CondJob) : X Nat := do
  let a ← condTensor n j
  if a.list.length ≤ j.target then pure a.list.length
  else
    let v := j.view n
    let ac := j.access n
    let ch ← readChunks v a.r
    let nib := a.t.nibbles
    let (gs, repG, met) ← a.readGens ac ch {}
    let (rem, bad, rep, _) ← a.readRem ac ch met
    let s ← get
    let k := condenseTo a.fmt (s.slots j.launch) gs rem j.target
    k.rem.zipIdx.forM (fun x => putElem v 0 8 (a.remPlace x.2) (encF FFmt.f32 .ru x.1))
    k.gens.zipIdx.forM (fun g => g.1.g.zipIdx.forM (fun x => putElem v 0 nib (a.genPlace g.2 x.2) x.1))
    noteFolded j.launch a.fmt k.folded
    modify (fun s => s.count j.core 0x12 k.folded.length)
    let list := k.gens.map (fun g => (g.d, g.id))
    let drops ← retarget j.launch a.list list none (k.folded.map (fun g => (g.d, g.id)))
    modify (fun s => s.dropHolders drops)
    let void := j.void || bad || rep || repG
    writeLong v a.r.symVa (listBytes list)
    writeRec v a.r.addr 0xA0 (leBytes 4 list.length)
    writeRec v a.r.addr 0xA8 (leBytes 4 (bit void + 2))
    countVoid j.core void
    pure list.length

/-- ACOND_JOB_END (R97 to R99, R330). -/
def execAcondJobEnd (d : DieNo) (q : BitVec 6) (s : State) : Host.Outcome State Fault Refusal :=
  let n := quadNo d q
  match (s.quad n).cond with
  | [] => .next s
  | j :: _ =>
    if !j.started || j.parked.isSome then .next s
    else
      match (condWork n j).run s with
      | .ok (live, s) => .next (s.condEnd n j 0 0 live)
      | .error e => s.condStop n j e

end Sys2Proof.Machine
end

