-- ==== Sys2Proof/Machine/Inbox.lean ====
section
/-! DEFINITION. Remote enqueue and the inbox, the reports of the fabric, and the known-answer ports
(R345, R348 to R352, R389). -/

namespace Sys2Proof.Machine

/-! ## RENQ (R348, R349) -/

/-- The entry that RENQ sends. -/
def State.inboxEntry (s : State) (xa : Word) : BitVec 128 :=
  BitVec.ofNat 128 (xa.toNat % 2 ^ 57 + s.moduleId.toNat * 2 ^ 64 + s.cur % 2 ^ 10 * 2 ^ 80)

/-- An inbox takes an entry; none where it is full. -/
def State.enqueue (s : State) (c : Nat) (e : BitVec 128) : Option State :=
  let core := s.core c
  if 16 ≤ core.inbox.length then none else some (s.setCore c { core with inbox := core.inbox ++ [e] })

/-- RENQ's entry has been accepted. -/
def State.renqDone (s : State) (d : XReg) : State :=
  let x := s.me
  (s.setMe { x with escape := x.escape || !x.supervisor }).retireX 8 d 0

/-- RENQ waits for 256 cycles. -/
def State.renqWait (s : State) (d a w : XReg) : State := s.holdOn (.renq d a w) (.wait (w64 (s.now s.cur + 256)))

/-- RENQ sends its entry: to an inbox of this module, or over the fabric. -/
def State.renqSend (s : State) (d a w : XReg) : State :=
  let wb := s.waybill w
  let e := s.inboxEntry (s.x a)
  if wbHops wb = 0 then
    match s.enqueue (wbCore wb) e with
    | some t => t.renqDone d
    | none => s.renqWait d a w
  else
    match s.downLink wb with
    | some l => s.fault (linkDown l)
    | none => (s.emit (.enqueue s.cur wb e)).renqWait d a w

/-- RENQ has sent its entry and waits for the answer. -/
def Context.renqWaits (x : Context) : Option (XReg × XReg × XReg × Word) :=
  match x.hold with
  | some (.renq d a w, .wait t) => if t = -1 then none else some (d, a, w, t)
  | _ => none

/-- RENQ (R348, R349). -/
def execRenq (d a w : XReg) (s : State) : Host.Outcome State Fault Refusal :=
  match s.me.renqWaits with
  | some _ => .next s
  | none =>
    if !s.released then .next (s.holdOn (.renq d a w) noDeadline)
    else if !s.waybillOk (s.waybill w) engInbox then .next (s.fault (routeCheck 0xF (wbModule (s.waybill w))))
    else .next (s.renqSend d a w)

/-- RENQ_RESEND (R349): after 256 cycles the entry is injected again, its waybill checked as before (R387); `accepted` is another module's answer.
DESIGN CHOICE (log 47). -/
def execRenqResend (c : CoreNo) (accepted : Bool) (s : State) : Host.Outcome State Fault Refusal :=
  let t := { s with cur := c.toNat }
  match t.me.renqWaits with
  | none => .next s
  | some (d, a, w, due) =>
    if !t.here.running || t.me.mode != .live || t.me.stopping || t.issueLocked t.cur || t.now t.cur < due.toNat then .next s
    else if !t.waybillOk (t.waybill w) engInbox then
      .next { t.fault (routeCheck 0xF (wbModule (t.waybill w))) with cur := s.cur }
    else if wbHops (t.waybill w) = 0 then .next { t.renqSend d a w with cur := s.cur }
    else if accepted then
      .next { (t.emit (.enqueue t.cur (t.waybill w) (t.inboxEntry (t.x a)))).renqDone d with cur := s.cur }
    else .next { t.renqSend d a w with cur := s.cur }

/-- The number under which the fabric's answer to a core's RENQ comes back. -/
def renqReport : Nat := 2 ^ 32

/-- The answer to a RENQ. DESIGN CHOICE (log 47). -/
def State.renqAnswer (s : State) (c : Nat) (r : RemoteReport) : State :=
  let t := { s with cur := c }
  match t.me.renqWaits with
  | none => s
  | some (d, _, w, _) =>
    let wb := t.waybill w
    let u := match r with
      | .routeCheck hop => t.fault (routeCheck hop.toNat (wbModule wb))
      | .linkDown l => t.fault (linkDown l.toNat)
      | _ => t.renqDone d
    { u with cur := s.cur }

/-- SEND_REPORT_ARRIVE (R345, R349, R388, R389). DESIGN CHOICE (log 47). -/
def execSendReportArrive (j : Nat) (r : RemoteReport) (s : State) : Host.Outcome State Fault Refusal :=
  if renqReport ≤ j then .next (s.renqAnswer (j - renqReport) r)
  else
    match s.job? j with
    | some x =>
      (match x.kind, x.phase with
      | .send _ _ w, .remote => s.reportArrives x w r
      | .recv _ _ w, .remote => s.reportArrives x w r
      | _, _ => .next s)
    | none => .next s

/-! ## The inbox (R349 to R351, R389) -/

/-- INBOX_ENTRY_ARRIVE (R349, R389). -/
def execInboxEntryArrive (c : BitVec 10) (dest : Addressee) (entry : BitVec 128) (s : State) :
    Host.Outcome State Fault Refusal :=
  let sender := entry.extractLsb' 64 16
  if dest.module ≠ s.moduleId || dest.engine.toNat ≠ engInbox then .next (s.emit (.report sender (.routeCheck 0xE)))
  else
    let from_ := entry.extractLsb' 80 10
    match s.enqueue c.toNat entry with
    | some t => .next (t.emit (.accepted sender from_ true))
    | none => .next (s.emit (.accepted sender from_ false))

/-- The INBOX record of an entry (R351). -/
def inboxRecord (e : BitVec 128) : BitVec 128 :=
  eventRecord 4 5 0 0 ((e.extractLsb' 64 26).zeroExtend 32) ((e.extractLsb' 0 57).zeroExtend 64)

/-- The context that receives an inbox entry: the running one, else the one that stands by (R350). -/
def Core.receiver (c : Core) : Option Bool :=
  if c.running then some c.active
  else if c.c0.mode != .free then some false
  else if c.c1.mode != .free then some true
  else none

/-- INBOX_DELIVER (R346, R350, R351). -/
def execInboxDeliver (c : CoreNo) (s : State) : Host.Outcome State Fault Refusal :=
  let core := s.core c.toNat
  match core.inbox, core.receiver with
  | e :: rest, some k =>
    let x := core.ctx k
    s.when (x.freeSlots != 0) (s.setCore c.toNat ({ core with inbox := rest }.setCtx k (x.pushEvent (inboxRecord e))))
  | _, _ => .next s

/-! ## KAT_PORT_DONE (R352) -/

/-- KAT_PORT_DONE (R352). -/
def execKatPortDone (c : CoreNo) (k : Bool) (vector : Bool) (s : State) : Host.Outcome State Fault Refusal :=
  .next (s.setCtx c.toNat k ((s.ctx c.toNat k).katDone vector))

end Sys2Proof.Machine
end

