-- ==== Sys2Proof/Machine/Lodge.lean ====
section
/-! DEFINITION. The Lodge's room maps and the LODGE instructions: LRMAP and its drain, LRQRY, LFLUSH, LSTASH
and LUNSTASH (R192, R193, R202 to R209). -/

namespace Sys2Proof.Machine

/-! ## Room maps (R192, R193, R204) -/

def Rooms.size (r : Rooms) : Room → Nat
  | .reg => r.reg
  | .pad => r.pad
  | .cache => r.cache
  | .matrix => r.matrix
  | .spill => r.spill

/-- Good banks of a core. -/
def Core.goodCount (c : Core) : Nat := ((List.range 48).filter (fun i => c.good.getLsbD i)).length

/-- The map that a room request asks for on a core: PAD receives the good banks that remain. -/
def Core.roomsOf (c : Core) (req : Nat) : Rooms :=
  let r := bitsOf req 7 0
  let ca := bitsOf req 15 8
  let m := bitsOf req 23 16
  let sp := bitsOf req 31 24
  { reg := r, cache := ca, matrix := m, spill := sp, pad := c.goodCount - (r + ca + m + sp) }

/-- The order in which rooms take banks. -/
def roomOrder : List Room := [.reg, .matrix, .spill, .cache, .pad]

/-- Banks handed out in order, so many to each room. -/
def deal (banks : Vector Room 48) (free : List Nat) : List (Room × Nat) → Vector Room 48
  | [] => banks
  | (r, n) :: t => deal ((free.take n).foldl (fun b i => b.setIfInBounds i r) banks) (free.drop n) t

/-- The room map set for a launch: ascending banks to the rooms in order. -/
def Core.dealAll (c : Core) (r : Rooms) : Vector Room 48 :=
  deal (Vector.replicate 48 .pad) ((List.range 48).filter (fun i => c.good.getLsbD i))
    (roomOrder.map (fun x => (x, r.size x)))

/-- The banks that leave a room when it shrinks: its highest. -/
def Core.departing (c : Core) (new : Rooms) (r : Room) : List Nat :=
  (c.banksOf r).drop (new.size r)

/-- An accepted LRMAP's banks (R204). -/
def Core.redeal (c : Core) (new : Rooms) : Vector Room 48 :=
  let gone := (List.range 48).filter (fun i => roomOrder.any (fun r => (c.departing new r).contains i))
  deal c.banks gone (roomOrder.map (fun r => (r, new.size r - c.rooms.size r)))

/-- Banks that change role (R206). -/
def banksChanging (old new : Rooms) : Nat := (roomOrder.map (fun r => old.size r - new.size r)).sum

/-! ## LRMAP's refusals (R203) -/

/-- A room's own size rule, but for the floors. -/
def granuleOk (req splim : Nat) : Bool :=
  let r := bitsOf req 7 0
  let m := bitsOf req 23 16
  req < 2 ^ 32 && (r == 0 || r == 8 || r == 16) && bitsOf req 15 8 ≤ 32 && m % 2 == 0 && m ≤ 16 &&
    32768 * bitsOf req 31 24 ≤ splim

/-- The spill stack in use of a context (R203). -/
def Context.spillUsed (x : Context) : Int :=
  if x.mode == .free then 0 else (x.spovf.toNat : Int) + x.splim.toNat - (x.rx 62).toNat

/-- The core holds the lease or a reserved plane, or has MTX entries that are not complete. -/
def State.holdsArray (s : State) (c : Nat) : Bool :=
  let q := s.quad (quadOf c)
  !isControl c && ((match q.lease with | some l => l.core == inQuad c | none => false) ||
    q.res0 == some (inQuad c) || q.res1 == some (inQuad c))
def State.mtxPending (s : State) (c : Nat) : Bool :=
  let f (x : Context) : Bool := (x.lq ++ x.cq ++ x.sq).any (fun e => !e.landed && (match e.instr with
    | .tlease .. | .trel .. | .tldt .. | .tzero .. | .tmma .. | .tmmaa .. | .tdrain .. | .tstt .. => true
    | _ => false))
  f (s.core c).c0 || f (s.core c).c1

/-- A PAD range that a job of the core names. -/
def State.jobNamesPad (s : State) (c lo hi : Nat) : Bool :=
  s.jobs.any (fun j => (j.reads ++ j.writes).any (fun r => Range.meets r { padOf := some c, lo := lo, hi := hi }))

/-- The first refusal of a request, 0 for OK (R203). DEDUCED (log 34). -/
def State.lrmapCode (s : State) (req : Nat) (dr dm dp : Disp) : Nat :=
  let c := s.cur
  let core := s.here
  let old := core.rooms
  let new := core.roomsOf req
  let floor := ((s.ctxLaunch c s.myK).map (fun l => (l.req.rooms.extractLsb' 24 8).toNat)).getD 0
  let low := 32768 * min old.spill new.spill
  let other := core.ctx (!s.myK)
  if core.drain.isSome then 8
  else if !granuleOk req s.me.splim.toNat then 6
  else if new.cache < 12 || new.spill < max 1 floor then 2
  else if core.goodCount < new.reg + new.cache + new.matrix + new.spill then 7
  else if new.matrix ≠ old.matrix && (s.holdsArray c || s.mtxPending c) then 1
  else if new.pad < old.pad &&
      (core.stash.any (fun m => 65536 * new.pad ≤ 4096 * m.seg) || s.jobNamesPad c (65536 * new.pad) (65536 * old.pad)) then 4
  else if core.c0.spillUsed > low || core.c1.spillUsed > low then 5
  else if (new.reg ≠ old.reg && (dr == .none || (other.mode != .free && other.issued))) ||
      (new.matrix ≠ old.matrix && dm == .none) || (new.pad < old.pad && dp == .none) then 3
  else 0

/-- What an LRMAP saves, in bytes (R204). -/
def saveSize (old new : Rooms) (dr dm dp : Disp) : Nat :=
  65536 * ((if dr == .save && new.reg ≠ old.reg then old.reg else 0) +
    (if dm == .save && new.matrix ≠ old.matrix then old.matrix else 0) + (if dp == .save then old.pad - new.pad else 0))

/-- Sectors of a cache line that a mask names. -/
def sectorCount (b : BitVec 2) : Nat := popCount 2 b.toNat
/-- Dirty sectors of the cache lines in some banks. -/
def Core.dirtyIn (c : Core) (banks : List Nat) : Nat :=
  ((c.cache.filter (fun l => banks.contains l.bank)).map (fun l => sectorCount l.dirty)).sum

/-- The drain bound (R206), with the dirty sectors of the departing ways. -/
def drainBound (old new : Rooms) (relocated dirty : Nat) : Nat :=
  64 + 512 * banksChanging old new + (if new.cache < old.cache then 2 * dirty else 0) + 1024 * relocated

/-- Jobs of a die's copy queue. -/
def isCopy (k : JobKind) : Bool := match k with | .cpy .. => true | .save .. => true | _ => false
def State.copyFull (s : State) (d : Nat) : Bool :=
  256 ≤ (s.jobs.filter (fun j => j.die.toNat == d && isCopy j.kind)).length

/-- An accepted LRMAP: the new sizes, the drain, and the job that will save what departs; a save writes outside the PAD
(R212), and may write LIVE bytes (R411). The banks change their rooms as the drain ends. -/
def State.startDrain (s : State) (req : Nat) (dr dm dp : Disp) (va n : Nat) : State :=
  let core := s.here
  let new := core.roomsOf req
  let id := s.nextId
  let x := s.me
  let job : Job :=
    { id := id, kind := .save va [], die := BitVec.ofNat 2 (dieOf s.cur), core := s.cur, context := s.myK, who := x.task,
      launch := (s.ctxTask s.cur s.myK).map (fun t => t.launch), tag := 0, words := 0, nf := core.nf, seq := x.seq, scored := x.latmode.getLsbD 0,
      reads := [], writes := [{ padOf := none, lo := va, hi := va + n }], phase := .waiting, pos := 0, got := (0, 0), replaced := false,
      seen := [], chunkSeen := false, table := [], parts := [], late := none, phaseNo := none, orphan := false, reissued := false, moved := s.time }
  let d : Drain :=
    { old := core.rooms, seqs := (core.c0.seq, core.c1.seq), begun := false, reg := dr, mat := dm, pad := dp,
      save := if n = 0 then none else some id }
  let s := s.setHere { core with rooms := new, drain := some d }
  if n = 0 then s
  else
    let s := s.setMe { s.me with
      phaseIneligible := x.phaseIneligible || x.phase,
      escape := x.escape || (!x.supervisor && s.liveRange x.task { padOf := none, lo := va, hi := va + n }) }
    { s with nextId := id + 1, jobs := s.jobs ++ [job] }

/-- LRMAP (R203 to R206). A save area that runs past the address space faults XLATE with reason RANGE, xb in the
detail. DESIGN CHOICE (log 85). -/
def execLrmap (d a b : XReg) (reg mat pad : Disp) (s : State) : Host.Outcome State Fault Refusal :=
  attempt (.lrmap d a b reg mat pad) noDeadline (do
    let req := (s.x a).toNat
    let code := s.lrmapCode req reg mat pad
    let old := s.here.rooms
    let new := s.here.roomsOf req
    if code ≠ 0 then
      M.writeX d (w64 code)
      M.retire 8
    else if new = old then
      M.writeX d 0
      M.retire 8
    else
      let n := saveSize old new reg mat pad
      let va := s.x b
      if 0 < n then
        M.must (va.toNat % 4096 == 0) (misalign va)
        M.must (va.toNat + n ≤ 2 ^ 57) (xlate 2 va.toNat)
        seqX ((List.range ((va.toNat + n - 1) / 65536 - va.toNat / 65536 + 1)).forM (fun i => do
          let _ ← translate s.myView (max va.toNat ((va.toNat / 65536 + i) * 65536)) true))
        M.waitFor (!s.copyFull (dieOf s.cur))
      let dirty := s.here.dirtyIn (s.here.departing new .cache)
      modify (fun s => s.startDrain req reg mat pad va.toNat n)
      M.writeX d (w64 (drainBound old new (n / 65536) dirty % 2 ^ 32 * 2 ^ 32))
      M.retire 8) s

/-! ## The drain (R204 to R206) -/

/-- Every entry routed before the LRMAP that touches a changing room has completed. -/
def State.drainReady (s : State) (n : Nat) : Bool :=
  let c := s.core n
  match c.drain with
  | none => false
  | some d =>
    let f (k : Bool) (x : Context) : Bool :=
      (x.lq ++ x.cq ++ x.sq).all (fun e => d.seqOf k ≤ e.seq || e.landed || !s.drainHolds n k (s.touch n k e))
    !d.begun && f false c.c0 && f true c.c1

/-- The bytes that an LRMAP saves: the old REG room, the old MATRIX room, the departing PAD banks. -/
def Core.savedBytes (c : Core) (d : Drain) : List Byte :=
  (if d.reg == .save && c.rooms.reg ≠ d.old.reg then
      (List.range (64 * d.old.reg)).flatMap (fun r => leBytes 1024 (c.row r).toNat) else []) ++
  ((if d.mat == .save && c.rooms.matrix ≠ d.old.matrix then c.tiles.read 0 (65536 * d.old.matrix) else []) ++
   (if d.pad == .save then c.pad.read (65536 * c.rooms.pad) (65536 * (d.old.pad - c.rooms.pad)) else []))

/-- The uncorrectable sectors of the banks that an LRMAP saves whole. -/
def State.savedPoison (s : State) (c : Nat) (d : Drain) : List Poison :=
  let core := s.core c
  let banks := (if d.reg == .save && core.rooms.reg ≠ d.old.reg then core.banksOf .reg else []) ++
    (if d.mat == .save && core.rooms.matrix ≠ d.old.matrix then core.banksOf .matrix else []) ++
    (if d.pad == .save then (core.banksOf .pad).drop core.rooms.pad else [])
  s.poison.filter (fun q => q.lodgeOf == some c && banks.contains (q.sector / 1024))

/-- The save's own reads of the Lodge: each uncorrectable sector counts and is scrubbed, and the save's job is to fault on
the first of them once it is written (R210, R347). DEDUCED (log 35). -/
def State.savedErr (s : State) (c va : Nat) (d : Drain) (j : Job) : Job × State :=
  (s.savedPoison c d).foldl (fun (p : Job × State) q =>
    let (t, s) := match p.2.lodgeErr c va (dieOf c) q with
      | .poison u => (u.trap, (p.2.scrub u).eccCount u.die u.structure_ true)
      | .fault t _ _ => (t, p.2)
      | _ => (eccUncorr va (dieOf c) 0, p.2)
    ({ p.1 with late := p.1.late.orElse (fun _ => some (t.code, t.detail, t.grade, t.aux)) }, s)) (j, s)

/-- The drain begins: what departs is handed to its save. -/
def State.drainBegin (s : State) (c : Nat) : State :=
  let core := s.core c
  match core.drain with
  | none => s
  | some d =>
    let s := s.setCore c { core with drain := some { d with begun := true } }
    match d.save.bind s.job? with
    | some j =>
      (match j.kind with
      | .save va _ =>
        let (j, s) := s.savedErr c va d j
        s.setJob { j with kind := .save va (core.savedBytes d) }
      | _ => s)
    | none => s

/-- A context's spill store under another SPILL size: the window's top is kept (R204). -/
def spillResize (st : Store) (old new seed : Nat) : Store :=
  if new < old then { st with cells := st.cells.filter (fun c => 0x400000 - 32768 * new ≤ c.1) }
  else if old < new then st.forget (0x400000 - 32768 * new) (0x400000 - 32768 * old) seed
  else st

/-- Contents under the new map (R204, R303). DEDUCED (log 33). -/
def Core.remap (c : Core) (d : Drain) (seed : Nat) : Core :=
  let c := if c.rooms.reg ≠ d.old.reg then { c with rows := [], rowSeed := some seed, c0 := c.c0.dropVoids, c1 := c.c1.dropVoids } else c
  let c := if c.rooms.matrix ≠ d.old.matrix then
      { c with tiles := Store.empty.forget 0 (65536 * c.rooms.matrix) seed, sides := c.sides.map (fun t => { t with valid := false }) }
    else c
  let c := if c.rooms.pad < d.old.pad then
      { c with pad := { c.pad with cells := c.pad.cells.filter (fun x => x.1 < 65536 * c.rooms.pad) } }
    else if d.old.pad < c.rooms.pad then { c with pad := c.pad.forget (65536 * d.old.pad) (65536 * c.rooms.pad) seed }
    else c
  { c with spill0 := spillResize c.spill0 d.old.spill c.rooms.spill seed,
           spill1 := spillResize c.spill1 d.old.spill c.rooms.spill seed, drain := none }

/-- The drain ends: the banks that change their room lose what they held, and the lines of ways that depart are
invalid; ROTB stays as it is, even where it is not below the new H. DEDUCED (log 33); DESIGN CHOICE (log 83). -/
def State.drainEnd (s : State) (c : Nat) : State :=
  let core := s.core c
  match core.drain with
  | none => s
  | some d =>
    let (f, s) := s.draw
    let banks := ({ core with rooms := d.old } : Core).redeal core.rooms
    let kept (b : Nat) : Bool := banks[b]? == core.banks[b]?
    let s := { s with poison := s.poison.filter (fun q => q.lodgeOf != some c || kept (q.sector / 1024)) }
    s.setCore c { core.remap d f with banks := banks, cache := core.cache.filter (fun l => kept l.bank) }

/-- LRMAP_DRAIN_BEGIN (R205, R206). -/
def execLrmapDrainBegin (c : CoreNo) (s : State) : Host.Outcome State Fault Refusal :=
  s.when (s.drainReady c.toNat) (s.drainBegin c.toNat)

/-- LRMAP_DRAIN_END (R204 to R206). -/
def execLrmapDrainEnd (c : CoreNo) (s : State) : Host.Outcome State Fault Refusal :=
  s.when (match (s.core c.toNat).drain with | some d => d.begun | none => false) (s.drainEnd c.toNat)

/-! ## LRQRY (R207) -/

/-- Segments that an LRMAP would find pinned. -/
def State.pinnedSegments (s : State) (c : Nat) : Nat :=
  let core := s.core c
  ((List.range (16 * core.rooms.pad)).filter (fun i =>
    core.stash.any (fun m => m.seg == i) || s.jobNamesPad c (4096 * i) (4096 * (i + 1)))).length

/-- LRQRY (R207). -/
def execLrqry (d : XReg) (room : Room) (s : State) : Host.Outcome State Fault Refusal :=
  let c := s.here
  let out (a b : Int) : Word := w64 (c.rooms.size room + (a % 2 ^ 24).toNat * 2 ^ 8 + (b % 2 ^ 32).toNat * 2 ^ 32)
  match room with
  | .reg => .next (s.retireX 8 d (out c.h 0))
  | .pad => .next (s.retireX 8 d (out c.stash.length (s.pinnedSegments s.cur)))
  | .cache => .next (s.retireX 8 d (out (c.dirtyIn (List.range 48)) c.cache.length))
  | .matrix => .next (s.retireX 8 d (out (4096 * c.rooms.matrix) (bit (s.holdsArray s.cur))))
  | .spill => .next (s.retireX 8 d (out s.me.spillUsed (c.ctx (!s.myK)).spillUsed))

/-! ## LFLUSH, LSTASH and LUNSTASH (R208, R209) -/

/-- Sectors of a mapping that a range takes in. -/
def Stash.sectors (m : Stash) (lo hi : Nat) : List Nat :=
  (List.range 64).filter (fun i => lo < m.va + 64 * i + 64 && m.va + 64 * i < hi)

/-- A mapping's sectors in a range, written back and, with INVAL, to be filled again. -/
def State.flushOne (s : State) (c : Nat) (lo hi : Nat) (inval : Bool) (m : Stash) : State :=
  let is := m.sectors lo hi
  let s := s.writeBack c m is
  if !inval then s
  else
    match (s.core c).stash.find? (fun n => n.seg == m.seg) with
    | none => s
    | some n =>
      let mask : BitVec 64 := is.foldl (fun b i => if n.dirty.getLsbD i then b else b ||| (1#64 <<< i)) 0
      s.setCore c ((s.core c).setStash { n with filled := n.filled &&& ~~~mask })

/-- Bytes that one entry of a table of a level covers (R217). -/
def entryBytes (lvl : Nat) : Nat := match lvl with | 0 => 2 ^ 43 | _ => levelBytes lvl

/-- Bytes that one leaf maps: its first virtual address, their number, and where they lie. -/
structure Mapped where
  va : Nat
  bytes : Nat
  far : Bool
  addr : Nat

/-- The bytes that a leaf of a level maps. -/
def mappedBy (va lvl e : Nat) : Mapped :=
  { va := va, bytes := levelBytes lvl, far := leafFar e, addr := leafFrame e * 65536 }

/-- What a table, and those below it, map that covers a byte of a range. Entries that are not valid or are malformed
map nothing (R208). -/
def State.leavesIn (s : State) (sup : Bool) (lo hi : Nat) : List Nat → Nat → Nat → List Mapped
  | [], _, _ => []
  | lvl :: rest, tbl, base =>
    (List.range (tableSize lvl / 8)).flatMap (fun i =>
      let va := base + i * entryBytes lvl
      let at_ := tbl + 8 * i
      let e := s.readNear at_ 8
      if va + entryBytes lvl ≤ lo || hi ≤ va || !nearAddr at_ || !leafValid e || malformed sup (s.moves at_) e lvl then []
      else if leafSize e = 3 then s.leavesIn sup lo hi rest (bitsOf e 51 8 * 256) va
      else [mappedBy va lvl e])

/-- The virtual addresses of the running context, in a range, at which a line of memory may be mapped: through the
tables, through its task's revision, and through a replica. -/
def State.namesOf (s : State) (lo hi : Nat) (far : Bool) (a : Nat) : List Nat :=
  let sup := s.me.supervisor
  let root := (if sup then s.superRoot else s.taskRoot).toNat
  let tables := if root % 2 = 0 then [] else s.leavesIn sup lo hi [0, 1, 2, 3] (bitsOf root 51 17 * 2 ^ 17) 0
  let own := match s.me.task.bind s.task? with
    | some t => t.rev.map (fun l => mappedBy (l.page * 65536) 3 l.leaf.toNat)
    | none => []
  let copies := s.replicas.flatMap (fun m => m.frames.map (fun f =>
    ({ va := f.page * 65536, bytes := levelBytes f.level, far := false, addr := f.frame * 65536 } : Mapped)))
  ((tables ++ own ++ copies).filter (fun m => m.far == far && m.addr ≤ a && a < m.addr + m.bytes)).map (fun m =>
    m.va + (a - m.addr))

/-- The running context's translation of a virtual address is the line that a cache line holds. -/
def State.namesLine (s : State) (va : Nat) (l : CacheLine) : Bool :=
  match (translate s.myView.bare va false).run s with
  | .ok (p, _) => p.far == l.far && p.addr / 128 == l.line
  | .error _ => false

/-- The lines of the cache room in a range of the running context's addresses are cleaned, and with INVAL
invalidated; memory already holds their bytes (R198, R208). DESIGN CHOICE (log 32). -/
def State.flushLines (s : State) (all : Bool) (lo hi : Nat) (inval : Bool) : State :=
  let c := s.here
  let hit (l : CacheLine) : Bool :=
    all || (s.namesOf lo hi l.far (128 * l.line)).any (fun va => lo < va + 128 && va < hi && s.namesLine va l)
  s.setHere { c with cache := (c.cache.map (fun l =>
    if hit l then { l with dirty := 0, valid := if inval then 0 else l.valid } else l)).filter (fun l => l.valid != 0) }

/-- What an LFLUSH, LSTASH or LUNSTASH would act on moves with an LRMAP's drain (R205). -/
def State.lodgeHeld (s : State) (mem : Bool) : Bool :=
  s.drainHolds s.cur s.myK { cache := mem, pad := true }

/-- LFLUSH (R208). DEDUCED (log 16, 34). -/
def execLflush (a b : XReg) (inval : Bool) (s : State) : Host.Outcome State Fault Refusal :=
  let lo := (s.x a).toNat
  let n := (s.x b).toNat
  if 2 ^ 57 < lo + n then .next (s.fault (bounds (s.x a)))
  else if !s.released || s.lodgeHeld true then .next (s.holdOn (.lflush a b inval) noDeadline)
  else
    let (lo, hi) := if n = 0 then (0, 2 ^ 57) else (lo, lo + n)
    .next (((s.here.stash.foldl (fun s m => s.flushOne s.cur lo hi inval m) s).flushLines (n == 0) lo hi inval).retire 8)

/-- No entry of a core that names a segment, or the addresses that it serves, is incomplete; one whose stores its phase
holds has stored nothing yet. -/
def State.segmentFree (s : State) (c seg : Nat) : Bool :=
  let pad : Range := { padOf := some c, lo := 4096 * seg, hi := 4096 * (seg + 1) }
  let rs := pad :: (((s.core c).stash.filter (fun m => m.seg == seg)).map (fun m => globalRange m.va 4096))
  let f (k : Bool) : Bool := (s.ctx c k).before (s.ctx c k).seq |>.all (fun e =>
    e.2.done || !conflict Range.meets ([], rs) (s.footprint c k e.2))
  f false && f true

/-- LSTASH (R209). DEDUCED (log 34). -/
def execLstash (d a b : XReg) (s : State) : Host.Outcome State Fault Refusal :=
  let xa := (s.x a).toNat
  let xb := (s.x b).toNat
  let seg := xa / 4096
  let c := s.here
  if s.lodgeHeld false then .next (s.holdOn (.lstash d a b) noDeadline)
  else if xa % 4096 ≠ 0 || 65536 * c.rooms.pad ≤ xa || xb % 4096 ≠ 0 || 2 ^ 57 ≤ xb then .next (s.retireX 8 d 4)
  else if c.stash.any (fun m => m.seg == seg) then .next (s.retireX 8 d 1)
  else if c.stash.any (fun m => m.va == xb) then .next (s.retireX 8 d 2)
  else if 64 ≤ c.stash.length then .next (s.retireX 8 d 3)
  else if !s.segmentFree s.cur seg then .next (s.holdOn (.lstash d a b) noDeadline)
  else
    let m : Stash := { seg := seg, va := xb, context := s.myK, filled := 0, dirty := 0 }
    .next ((s.setHere { c with stash := c.stash ++ [m] }).retireX 8 d 0)

/-- A mapping ends: dirty sectors are written back, and sectors never filled are undefined. -/
def State.unstash (s : State) (c : Nat) (m : Stash) : State :=
  let s := s.writeBack c m (List.range 64)
  let core := s.core c
  let (f, s) := s.draw
  let pad := ((List.range 64).filter (fun i => !m.filled.getLsbD i)).foldl
    (fun (st : Store) i => st.forget (4096 * m.seg + 64 * i) (4096 * m.seg + 64 * i + 64) f) core.pad
  s.setCore c { core with pad := pad, stash := core.stash.filter (fun n => n.seg != m.seg) }

/-- LUNSTASH (R209). DEDUCED (log 34). -/
def execLunstash (d a : XReg) (s : State) : Host.Outcome State Fault Refusal :=
  let xa := (s.x a).toNat
  let c := s.here
  if s.lodgeHeld false then .next (s.holdOn (.lunstash d a) noDeadline)
  else if xa % 4096 ≠ 0 || 65536 * c.rooms.pad ≤ xa then .next (s.retireX 8 d 4)
  else
    match c.stash.find? (fun m => m.seg == xa / 4096) with
    | none => .next (s.retireX 8 d 1)
    | some m =>
      if s.segmentFree s.cur m.seg then .next ((s.unstash s.cur m).retireX 8 d 0)
      else .next (s.holdOn (.lunstash d a) noDeadline)

/-- STASH_RECALL (R197): another agent's access recalls a sector of a core's stash. DESIGN CHOICE (log 32). -/
def execStashRecall (c : CoreNo) (va : Word) (s : State) : Host.Outcome State Fault Refusal :=
  .next (s.recall c.toNat va.toNat)

end Sys2Proof.Machine
end

