-- ==== Sys2Proof/Machine/Revision.lean ====
section
/-! DEFINITION. FORK, JOIN, RTYPE and RMARK, and the joining of a child (R33 to R38, R224 to R226, R269 to
R274). -/

namespace Sys2Proof.Machine

/-! ## Children -/

/-- The unjoined children of a task, in ascending ordinal. -/
def State.children (s : State) (id : Nat) : List Task :=
  sortBy (fun a b => a.ordinal ≤ b.ordinal) (s.tasks.filter (fun t => t.parent == some id))

/-- The ranges of the revisioned regions of a task's launch. -/
def State.revRanges (s : State) (task : Option Nat) : List Range :=
  ((s.taskRegions task).filter (fun r => r.merge != 0)).map (fun r => globalRange r.base r.size)

/-! ## What FORK and JOIN wait for (R33, R271) -/

/-- Every store of a context is performed; one that its phase holds is not. DEDUCED (log 26). -/
def State.storesLanded (s : State) (c : Nat) (k : Bool) : Bool :=
  let x := s.ctx c k
  x.sq.all Entry.landed && x.holdList.isEmpty && (s.core c).noneParked k &&
    x.cq.all (fun e => e.landed || (s.footprint c k e).2.isEmpty)

/-- No incomplete job of a context writes any of some ranges. -/
def State.jobsClear (s : State) (c : Nat) (k : Bool) (rs : List Range) (reads : Bool) : Bool :=
  s.jobs.all (fun j => !s.mine c k j || j.orphan ||
    !rangesMeet Range.meets ((if reads then j.reads else []) ++ j.writes) rs) &&
  s.conds.all (fun j => !s.mineCond c k j || !rangesMeet Range.meets j.ranges rs)

/-- FORK and JOIN may act. DEDUCED (log 26). -/
def State.forkReady (s : State) : Bool :=
  s.storesLanded s.cur s.myK && s.jobsClear s.cur s.myK (s.revRanges s.me.task) false

/-! ## FORK (R33 to R35, R224, R270) -/

/-- The leaf of a page as a revision map holds it: 64 KiB, over the table's frame. -/
def revLeafOf (page lvl e : Nat) : RevLeaf :=
  { page := page, leaf := w64 (putBits (putBits e 51 16 ((physOf (page * 65536) lvl e).addr / 65536)) 4 3 0) }

/-- Every leaf of a task's revision: its own, and the launch state's where it has none. DEDUCED (log 30). -/
def State.wholeRev (s : State) (t : Task) : List RevLeaf :=
  let pages := ((s.taskRegions (some t.id)).filter (fun r => r.merge != 0)).flatMap (fun r =>
    (List.range ((r.base + r.size - 1) / 65536 - r.base / 65536 + 1)).map (fun i => r.base / 65536 + i))
  pages.eraseDups.filterMap (fun p =>
    match t.leafAt p with
    | some l => some l
    | none =>
      match s.walk false (p * 65536) with
      | .leaf _ lvl e => some (revLeafOf p lvl e)
      | _ => none)

/-- COW where the leaf is writable. -/
def setCow (l : RevLeaf) : RevLeaf :=
  if leafW l.leaf.toNat then { l with leaf := w64 (putBits l.leaf.toNat 2 2 1) } else l

/-- The parent's leaves come to be shared by three maps; the maps of the child and of its ancestor.
DEDUCED (log 30). -/
def State.shareRev (s : State) (t : Task) : List RevLeaf × State :=
  let ls := (s.wholeRev t).map setCow
  let s := ls.foldl (fun (s : State) l => s.tlbDropRev t.id l.page) (s.setTask { t with rev := ls })
  let s := ls.foldl (fun (s : State) l =>
    s.setCount l.page (leafFrame l.leaf.toNat) (min 255 (leafCount l.leaf.toNat + 2))) s
  (((s.task? t.id).map (fun t => t.rev)).getD [], s)

/-- The dirty sectors of a context's stash segments go to its revision. DEDUCED (log 52). -/
def State.flushStash (s : State) (c : Nat) (k : Bool) : State :=
  ((s.core c).stash.filter (fun m => m.context == k)).foldl (fun s m => s.writeBack c m (List.range 64)) s

/-- The lowest ordinal that no unjoined child holds. -/
def State.lowestOrdinal (s : State) (id : Nat) : Nat :=
  ((List.range 16).map (· + 1)).find? (fun k => !(s.children id).any (fun t => t.ordinal == k)) |>.getD 0

/-- Why a FORK is refused (R34, R270). -/
def State.forkCode (s : State) (t : Task) (l : Launch) : Nat :=
  if 16 ≤ (s.children t.id).length then 1
  else if 8 < t.depth + 1 then 2
  else if l.req.budget < 65536 * s.ancestorPages l.id + 65536 then 3
  else 0

/-- TASK of a child (R33). -/
def childWord (w : Word) (depth ordinal : Nat) : Word := w64 (taskIndex w + depth * 2 ^ 48 + ordinal * 2 ^ 56)

/-- FORK's effect, once it may act: the child is created, and its ordinal given (R33, R38).
DEDUCED (log 52). -/
def State.forkChild (s : State) (t : Task) (l : Launch) (target : Word) : Nat × State :=
  let k := s.lowestOrdinal t.id
  let x := s.me
  let s := s.flushStash s.cur s.myK
  let (ls, s) := s.shareRev ((s.task? t.id).getD t)
  let args : Vector Word 8 := Vector.ofFn (fun i => x.x[40 + i.val]'(by omega))
  let u := Task.make s.nextId l.id (childWord t.word (t.depth + 1) k) t.step target args s.time
  let u : Task :=
    { u with parent := some t.id, depth := t.depth + 1, ordinal := k, rev := ls, anc := ls, die := t.die,
             core := if l.req.det then s.detPlace l (some (BitVec.ofNat 2 (dieOf s.cur))) (taskIndex t.word * 17 + k) else none }
  (k, ({ s with nextId := s.nextId + 1 }).makeReady l u)

/-- FORK (R269, R270). A context that holds no task has no children, and the manual gives it no result.
DEDUCED (log 52). -/
def execFork (d : XReg) (off : BitVec 32) (s : State) : Host.Outcome State Fault Refusal :=
  let target := s.me.pc + (off.signExtend 64 <<< 2)
  match s.ctxTask s.cur s.myK, s.ctxLaunch s.cur s.myK with
  | some t, some l =>
    if !s.forkReady then .next (s.holdOn (.fork d off) noDeadline)
    else
      let code := s.forkCode t l
      if code ≠ 0 then .next (s.retireX 12 d (w64 (code * 256)))
      else
        let (k, s) := s.forkChild t l target
        .next (s.retireX 12 d (w64 k))
  | _, _ =>
    let (f, s) := s.draw
    .next (s.retireX 12 d (w64 (Config.freeNat f)))

/-! ## Joining (R36, R42, R226, R271) -/

/-- The revision of a child is kept for its join. -/
def Task.keeps (t : Task) : Bool := match t.phase with | .ended b => b | _ => false

/-- One ended child is joined into its parent's revision: whether it was merged, and the records written.
DEDUCED (log 51). -/
def joinOne (v : View) (c : Nat) (k : Bool) (p : Task) (id : Nat) : X (Bool × Nat) := do
  let s ← get
  match s.task? id with
  | none => pure (true, 0)
  | some u =>
    let n ← if u.keeps then do
        let cs ← mergeAll s (viewTarget v) (s.taskRegions (some p.id)) u.anc u.rev
        modify (fun s =>
          let s := cs.foldl (fun (s : State) q => s.log c k .logged false srcMerge (mergeConflict q.1 q.2)) s
          let x := s.ctx c k
          (s.setCtx c k { x with escape := x.escape || u.escape }).countConflicts p.launch cs.length)
        pure cs.length
      else pure 0
    modify (fun s => s.dropTask id)
    pure (u.keeps, n)

/-- JOIN's result (R271). -/
def joinResult (merged : Bool) (conflicts : Nat) : Word := w64 ((if merged then 0 else 2) + min conflicts 0xFFFF * 2 ^ 16)

/-- The result of some joins with that of one more. -/
def joinAdd (r : Word) (one : Bool × Nat) : Word := joinResult (r.toNat % 4 = 0 && one.1) (bitsOf r.toNat 31 16 + one.2)

/-- What a run of joins comes to: the result so far, whether a child has been joined in it, and whether all are. -/
structure JoinRun where
  result : Word
  moved : Bool
  all : Bool

/-- Ended children joined in ascending ordinal, as far as no merge has to wait, for a frame or for a leaf that
moves; what is joined stays so (R272). A stop is a page table that does not exist. DEDUCED (log 51). -/
def joinRun (v : View) (c : Nat) (k : Bool) (p : Task) : List Nat → JoinRun → State → Except Fault (JoinRun × State)
  | [], r, s => .ok (r, s)
  | id :: t, r, s =>
    match (joinOne v c k p id).run s with
    | .ok (one, s) => joinRun v c k p t { r with result := joinAdd r.result one, moved := true } s
    | .error (.stop f) => .error f
    | .error _ => .ok ({ r with all := false }, s)

/-- The view in which a context's joins write its revision: without its held stores and its spill window,
and exempt from the budget's stall (R35). -/
def State.joinView (s : State) (c : Nat) (k : Bool) : View := { s.view c k with ctx := none, exempt := true }

/-- The joins of some children of a context's task, from the result that its merge has kept (R272). -/
def State.runJoins (s : State) (c : Nat) (k : Bool) (p : Task) (ids : List Nat) : Except Fault (JoinRun × State) :=
  let kept := (((s.ctx c k).merge).map (fun m => m.2)).getD 0
  joinRun (s.joinView c k) c k p ids { result := kept, moved := false, all := true } s

/-- A context's merge has begun and goes on without the context: its result so far is kept, and TIME where it has
made progress (R272, R409). -/
def State.keepMerge (s : State) (c : Nat) (k : Bool) (r : JoinRun) : State :=
  let x := s.ctx c k
  let since := if r.moved then s.time else ((x.merge.map (fun m => m.1)).getD s.time)
  s.setCtx c k { x with merge := some (since, r.result) }

/-- A merge that meets no frame waits for one. -/
def joinX {α : Type} (m : X α) : M α := fun s =>
  match m.run s with
  | .ok r => .ok r
  | .error (.stop f) => .error (.stop f)
  | .error _ => .error .wait

/-- No merge of a JOIN that has begun has children left to join (R272). -/
def State.mergeDone (s : State) (c : Nat) (k : Bool) : Bool :=
  let x := s.ctx c k
  match x.merge, x.hold, x.task with
  | some _, some (.join _ a, _), some id => (s.children id).all (fun t => (x.rx a).toNat % 256 < t.ordinal)
  | _, _, _ => true

/-- JOIN completes: its result is read, and no merge is kept any more. -/
def State.joinDone (s : State) (d : XReg) (r : Word) : State := (s.setMe { s.me with merge := none }).retireX 8 d r

/-- JOIN's merges run; it completes at once, or on the step that reads what they have kept, which a pre-emption
may come before (R272). DEDUCED (log 51); DESIGN CHOICE (log 72). -/
def State.joinMerge (s : State) (d a : XReg) (p : Task) (ids : List Nat) : Host.Outcome State Fault Refusal :=
  match s.runJoins s.cur s.myK p ids with
  | .error f => .fault f
  | .ok (r, t) =>
    let (n, t) := t.choose 2
    if !r.all || s.me.stopping || (r.moved && n = 1) then .next ((t.keepMerge t.cur t.myK r).holdOn (.join d a) noDeadline)
    else .next (t.joinDone d r.result)

/-- JOIN (R269, R271, R272). DEDUCED (log 51). -/
def execJoin (d a : XReg) (s : State) : Host.Outcome State Fault Refusal :=
  let begun := s.me.merge.isSome
  if !begun && !s.forkReady then .next (s.holdOn (.join d a) noDeadline)
  else
    let k := (s.x a).toNat % 256
    match s.ctxTask s.cur s.myK with
    | none => .next (s.retireX 8 d 1)
    | some p =>
      let due := (s.children p.id).filter (fun t => t.ordinal ≤ k)
      if !begun && !due.any (fun t => t.ordinal == k) then .next (s.retireX 8 d 1)
      else if !due.all Task.hasEnded then .next (s.holdOn (.join d a) noDeadline)
      else s.joinMerge d a p (due.map (fun t => t.id))

/-! ## RTYPE (R273) -/

/-- RTYPE's result. -/
def State.regionWord (s : State) (va : Nat) : Word :=
  match regionAt (s.taskRegions s.me.task) va with
  | some (n, r) => w64 (r.merge + r.elem * 2 ^ 8 + n * 2 ^ 16)
  | none => 0xFF0000

/-- RTYPE (R269, R273). -/
def execRtype (d a : XReg) (s : State) : Host.Outcome State Fault Refusal :=
  .next (s.retireX 8 d (s.regionWord (s.x a).toNat))

/-! ## RMARK (R274) -/

/-- The range lies in one revisioned region. -/
def State.inOneRegion (s : State) (lo n : Nat) : Bool :=
  match regionAt (s.taskRegions s.me.task) lo with
  | some (_, r) => r.merge != 0 && lo + n ≤ r.base + r.size
  | none => false

/-- The task's stores and jobs that touch a range are done. -/
def State.rangeQuiet (s : State) (r : Range) : Bool :=
  let c := s.cur
  let k := s.myK
  (s.me.before s.me.seq).all (fun e => e.2.done || !rangesMeet Range.meets (s.footprint c k e.2).2 [r]) &&
    s.here.replay.all (fun p => p.context != k || !rangesMeet Range.meets (p.stores.map (fun e =>
      let (pad, lo, hi) := e.range; { padOf := if pad then some c else none, lo := lo, hi := hi })) [r]) &&
    s.jobsClear c k [r] true

/-- Held stores and stash sectors of a range are discarded with it. -/
def State.forgetRange (s : State) (lo hi : Nat) : State :=
  let x := s.me
  let hs := x.holdList.map (fun h => { h with stores := h.stores.filter (fun e =>
    match e.globalOf with | some a => !(lo ≤ a && a < hi) | none => true) })
  let s := s.setMe { x with holdList := hs }
  let c := s.here
  s.setHere { c with stash := c.stash.map (fun m =>
    if m.context == s.myK then
      let mask : BitVec 64 := (m.sectors lo hi).foldl (fun b i => b ||| (1#64 <<< i)) 0
      { m with filled := m.filled &&& ~~~mask, dirty := m.dirty &&& ~~~mask }
    else m) }

/-- A page restored whole drops its private frame (R226). -/
def State.restorePage (s : State) (id page : Nat) : State :=
  match s.task? id with
  | none => s
  | some t =>
    match t.leafAt page with
    | none => s
    | some l =>
      if s.samePage t.anc t.rev page then s
      else
        let held := s.holdsCount t l
        let s := ({ s with tasks := s.tasks.map (fun (u : Task) =>
          if u.id == id then { u with rev := u.rev.filter (fun m => m.page != page) } else u) } : State).tlbDropRev id page
        let s := if held then s.dropCount t.launch l else s
        match t.anc.find? (fun m => m.page == page), s.task? id with
        | some _, some u =>
          (match u.anc.find? (fun m => m.page == page) with
          | some m =>
            let f := leafFrame m.leaf.toNat
            let s := s.setTask { u with rev := m :: u.rev }
            s.setCount page f (min 255 (leafCount m.leaf.toNat + 1))
          | none => s)
        | _, _ => s

/-- One page's share of a range goes back to the ancestor. -/
def restorePart (v : View) (id page lo hi : Nat) : X Unit := do
  let a := max lo (page * 65536)
  let b := min hi (page * 65536 + 65536)
  let s ← get
  if b - a = 65536 then set (s.restorePage id page)
  else
    match s.task? id with
    | none => pure ()
    | some t =>
      if s.samePage t.anc t.rev page then pure ()
      else writeLong v a (s.imageLong t.anc a (b - a))

/-- RMARK (R269, R274). DEDUCED (log 16). -/
def execRmark (d a b : XReg) (s : State) : Host.Outcome State Fault Refusal :=
  attempt (.rmark d a b) noDeadline (do
    let lo := (s.x a).toNat
    let n := (s.x b).toNat
    M.must (lo % 64 == 0 && n % 64 == 0) (misalign (s.x a))
    match s.me.task with
    | some id =>
      if !s.inOneRegion lo n then
        M.writeX d 1
        M.retire 8
      else
        M.waitFor (s.rangeQuiet (globalRange lo n))
        modify (fun s => s.forgetRange lo (lo + n))
        let v : View := { s.myView with ctx := none, core := none }
        joinX ((List.range ((lo + n + 65535) / 65536 - lo / 65536)).forM (fun i =>
          restorePart v id (lo / 65536 + i) lo (lo + n)))
        M.writeX d 0
        M.retire 8
    | none =>
      M.writeX d 1
      M.retire 8) s

end Sys2Proof.Machine
end

