-- ==== Sys2Proof/Machine/System.lean ====
section
/-! DEFINITION. The system group: HALT, EXIT, TRAP, ERET, BRK, YIELD, the fences, TIMER, PSWAP, SSTEP and
LATM (R176 to R189, R211, R346). -/

namespace Sys2Proof.Machine

/-- NOP (R176). -/
def execNop (s : State) : Host.Outcome State Fault Refusal := .next (s.retire 4)

/-! ## Stopping (R180, R181) -/

/-- HALT's effect on a control-complex core: fetch stops, and goes on after the instruction once something has
come for the core. -/
def State.sleep (s : State) : State :=
  let t := s.retire 4
  t.setMe { t.me with mode := .asleep, hold := some (.halt, .yield (-1) false) }

/-- HALT (R176, R180). -/
def execHalt (s : State) : Host.Outcome State Fault Refusal :=
  if s.me.supervisor then .next s.sleep else .next (s.fault (illegalPrivilege (encode .halt)))

/-! ## Phases (R189, R211, R237) -/

/-- The element stores that the phase holds of a store instruction. -/
def heldOf (l : List HeldStore) (q : Nat) : List ElemStore := (l.filter (fun h => h.seq == q)).flatMap (fun h => h.stores)

/-- An entry of SQ, or a drain in CQ, takes back the stores that its phase has held, before those it has yet to
perform. -/
def Entry.release (l : List HeldStore) (e : Entry) : Entry :=
  match e.phase with
  | .held => { e with phase := .stores (heldOf l e.seq), inPhase := false }
  | .stores m => { e with phase := .stores (heldOf l e.seq ++ m), inPhase := false }
  | .faultedStores m => { e with phase := .faultedStores (heldOf l e.seq ++ m), inPhase := false }
  | _ => { e with inPhase := false }

/-- The stores of SQ once a phase's held stores are released, in the order of their instructions: entries of the
queue have theirs again, and those of other instructions are entries of their own. -/
def releaseEntries (tk : Taken) (cq sq : List Entry) (l : List HeldStore) : List Entry :=
  let others := ((l.map (fun h => h.seq)).eraseDups).filter (fun q => !(cq ++ sq).any (fun e => e.seq == q))
  let more : List Entry := others.map (fun q =>
    { seq := q, instr := .pswap, pc := 0, taken := tk, popped := true, phase := .stores (heldOf l q) })
  sortBy (fun a b => a.seq ≤ b.seq) (sq.map (Entry.release l) ++ more)

/-- The open phase is committed: its held stores are released in SQ, and PHASE falls. DEDUCED (log 24). -/
def State.commitPhase (s : State) : State :=
  let x := s.me
  let clear (l : List Entry) : List Entry := l.map (fun e => { e with inPhase := false })
  s.setMe { (x.setPhase false) with
    snap := none, holdList := [], holdCount := 0, lq := clear x.lq, cq := x.cq.map (Entry.release x.holdList),
    sq := releaseEntries (s.take .pswap) x.cq x.sq x.holdList }

/-- A phase opens at the instruction: the snapshot of R211 is taken. -/
def State.openPhase (s : State) : State :=
  let x := s.me
  let sn : Snapshot :=
    { x := x.x, h := x.h, p := x.p, rotb := x.rotb, loopc := x.loopc, status := x.status,
      delta := Vector.replicate 4 0, seq := x.seq }
  s.setMe { (x.setPhase true) with
    restart := x.pc, snap := some sn, holdList := [], holdCount := 0, phaseCancelled := false, phaseIneligible := false,
    phaseNo := x.phaseNo + 1, copies := x.copies.filter (fun p => x.phaseNo ≤ p.1) }

/-- PSWAP (R189); a commit waits until the context has no parked store (R237). -/
def execPswap (s : State) : Host.Outcome State Fault Refusal :=
  if s.me.phase then
    if s.here.noneParked s.myK then .next (s.commitPhase.retire 4) else .next (s.holdOn .pswap noDeadline)
  else .next (s.openPhase.retire 4)

/-- EXIT (R41, R181): an open phase is committed first. -/
def execExit (s : State) : Host.Outcome State Fault Refusal :=
  if s.me.supervisor then .next s.sleep
  else if s.me.phase && !s.here.noneParked s.myK then .next (s.holdOn .exit noDeadline)
  else
    let t := (if s.me.phase then s.commitPhase else s).retire 4
    .next (t.setMe { t.me with mode := .exiting, exited := true })

/-! ## Service requests (R177 to R179) -/

/-- The trap registers, the halt and the service record of TRAP and BRK; the instruction counts, and EPC is
the next one. DEDUCED (log 12, 28). -/
def State.service (s : State) (code : BitVec 8) : State :=
  let t := s.retire 4
  t.takeTrap t.cur t.myK .service false srcSequencer t.me.pc { code := code, detail := 0, grade := .status }

/-- TRAP n (R177, R179). -/
def execTrap (n : BitVec 6) (s : State) : Host.Outcome State Fault Refusal :=
  .next (s.service (0x40 + n.zeroExtend 8))

/-- BRK n (R178, R179). -/
def execBrk (n : BitVec 6) (s : State) : Host.Outcome State Fault Refusal :=
  .next (s.service (0x80 + n.zeroExtend 8))

/-- ERET (R145, R176, R179). -/
def execEret (s : State) : Host.Outcome State Fault Refusal :=
  if s.me.supervisor then .next s.returnFromTrap else .next (s.fault (illegalPrivilege (encode .eret)))

/-! ## YIELD (R182) -/

/-- YIELD: the instruction is complete, and fetch waits for up to 256 cycles. -/
def execYield (s : State) : Host.Outcome State Fault Refusal :=
  let t := s.retire 4
  .next (t.holdOn .yield (.yield (w64 (t.now t.cur + 256)) false))

/-! ## Fences (R183 to R185) -/

/-- FENCE (R183). DESIGN CHOICE (log 72). -/
def execFence (o : Order) (sc : Scope) (s : State) : Host.Outcome State Fault Refusal :=
  if (if o == .acq then s.me.loadsDone else s.released) then .next (s.retire 4)
  else .next (s.holdOn (.fence o sc) noDeadline)

/-- An entry that has yet to read a shape record. -/
def Entry.recordDue (e : Entry) : Bool :=
  e.unstarted && (Instr.takesH e.instr).any (fun h => hRec (e.taken.h h) != 0)

/-- RFENCE (R184). -/
def execRfence (s : State) : Host.Outcome State Fault Refusal :=
  let x := s.me
  if x.storesDone && s.here.noneParked s.myK && (x.lq ++ x.cq ++ x.sq).all (fun e => !e.recordDue) then
    .next ((s.setHere { s.here with records := [] }).retire 4)
  else .next (s.holdOn .rfence noDeadline)

/-- An entry of an MTX instruction. -/
def Entry.isMtx (e : Entry) : Bool :=
  match e.instr with
  | .tlease .. | .trel .. | .tldt .. | .tzero .. | .tmma .. | .tmmaa .. | .tdrain .. | .tstt .. => true
  | _ => false

/-- TFENCE (R185). -/
def execTfence (s : State) : Host.Outcome State Fault Refusal :=
  let x := s.me
  if (x.lq ++ x.cq ++ x.sq).all (fun e => !e.isMtx || e.landed) then .next (s.retire 4)
  else .next (s.holdOn .tfence noDeadline)

/-! ## TIMER, SSTEP, LATM (R186 to R188) -/

/-- The alarm armed or disarmed, with its one reservation (R346). DEDUCED (log 44). -/
def Context.setAlarm (x : Context) (t : Word) : Context :=
  if t = 0 then
    (match x.alarm with
    | some _ => { x with alarm := none, reserved := x.reserved - 1 }
    | none => x)
  else
    (match x.alarm with
    | some _ => { x with alarm := some t }
    | none => { x with alarm := some t, reserved := x.reserved + 1 })

/-- TIMER (R186): arming where no alarm is armed needs a free slot of the event queue. -/
def execTimer (d a : XReg) (s : State) : Host.Outcome State Fault Refusal :=
  let t := s.x a
  let x := s.me
  if t ≠ 0 && x.alarm.isNone && x.freeSlots = 0 then .next (s.holdOn (.timer d a) noDeadline)
  else .next ((s.setMe (x.setAlarm t)).retireX 4 d s.time)

/-- SSTEP (R187): it does not count itself. -/
def execSstep (a : XReg) (s : State) : Host.Outcome State Fault Refusal :=
  let n := (s.x a).extractLsb' 0 32
  let t := s.retire 4
  .next (t.setMe { t.me with steps := n, stepDue := false })

/-- Everything that a context has issued is complete: entries, parked stores, jobs and condensations.
DEDUCED (log 26). -/
def State.drained (s : State) (c : Nat) (k : Bool) : Bool :=
  let x := s.ctx c k
  x.lq.isEmpty && x.cq.isEmpty && x.sq.isEmpty && (s.core c).noneParked k &&
    s.jobs.all (fun j => !s.mine c k j || j.orphan) &&
    s.conds.all (fun j => !s.mineCond c k j)

/-- LATM (R188). -/
def execLatm (scored : Bool) (s : State) : Host.Outcome State Fault Refusal :=
  if s.me.phase then .next (s.fault (illegalOf (encode (.latm scored))))
  else if s.drained s.cur s.myK then
    .next ((s.setMe { s.me with latmode := w64 (bit scored) }).retire 4)
  else .next (s.holdOn (.latm scored) noDeadline)

end Sys2Proof.Machine
end

