-- ==== Sys2Proof/Machine/Task.lean ====
section
/-! DEFINITION. Contexts as tasks come and go: the room map's setting, a task's start, the freeing of a
context after EXIT, and kills (R20, R21, R26, R37, R41 to R43, R193, R200, R210, R304, R305, R356, R358). -/

namespace Sys2Proof.Machine

/-! ## Spill slices (R356, R364) -/

/-- H and SPILL of a room request. -/
def reqRows (req : BitVec 32) : Nat := 32 * bitsOf req.toNat 7 0
def reqSpill (req : BitVec 32) : Nat := bitsOf req.toNat 31 24
/-- Z, the size of a save area. -/
def saveBytes (req : BitVec 32) : Nat := 131072 + 1024 * reqRows req + 32768 * reqSpill req

/-- The lowest free slice. -/
def Launch.freeSlice (l : Launch) : Option Nat := (List.range 2048).find? (fun i => !l.slices.contains i)

def Launch.takeSlice (l : Launch) (i : Nat) : Launch := { l with slices := i :: l.slices }
def Launch.dropSlice (l : Launch) (i : Nat) : Launch := { l with slices := l.slices.filter (fun j => j != i) }

/-! ## Setting a core's room map (R193) -/

/-- The Lodge is zeroed and divided, and what the map's setting clears is cleared (R51, R303, R333, R373); the
inbox stays where the launch is the one for which the map was last set (R350). DEDUCED (log 33). -/
def Core.setMap (c : Core) (launch : Nat) (r : Rooms) : Core :=
  { c with
    launch := some launch, rooms := r, banks := c.dealAll r, drain := none, rows := [], rowSeed := none, pad := Store.empty,
    tiles := Store.empty, sides := Vector.replicate 16 TileSide.reset, spill0 := Store.empty, spill1 := Store.empty,
    stash := [], cache := [], nf := nfPresets, rules := [], records := [],
    inbox := if c.mapOf == some launch then c.inbox else [], mapOf := some launch }

/-- A core gives up the planes that it has reserved (R305). -/
def Quad.unreserve (q : Quad) (me : BitVec 2) : Quad :=
  { q with res0 := if q.res0 == some me then none else q.res0, res1 := if q.res1 == some me then none else q.res1 }

/-- Poison of a core's Lodge goes with the zeroes written into it. -/
def State.cleanLodge (s : State) (c : Nat) : State := { s with poison := s.poison.filter (fun q => q.lodgeOf != some c) }

/-- The room map of a launch is set on a core. DEDUCED (log 33). -/
def State.setMap (s : State) (c : Nat) (l : Launch) : State :=
  let core := s.core c
  let s := (s.setCore c (core.setMap l.id (core.roomsOf l.req.rooms.toNat))).cleanLodge c
  let q := s.quad (quadOf c)
  if q.res0 == some (inQuad c) || q.res1 == some (inQuad c) then
    s.setQuad (quadOf c) ((q.unreserve (inQuad c)).applyArb (s.now c))
  else s

/-! ## A task's start (R21, R26) -/

/-- The superstep-start record (R26, R346); the manual gives it no tag. -/
def superstepRecord (ts : Word) (free : Nat) : BitVec 128 :=
  eventRecord 3 5 0 0 (BitVec.ofNat 32 (Config.freeNat free)) ts

/-- The context of a task at its start. DESIGN CHOICE (log 6); DEDUCED (log 53). -/
def Context.start (k : Bool) (l : Launch) (t : Task) (slice free : Nat) : Context :=
  let base := l.sliceAt slice + saveBytes l.req.rooms
  let size := l.req.overflow - saveBytes l.req.rooms
  let x : Vector Word 64 := Vector.ofFn (fun i =>
    if h : 40 ≤ i.val ∧ i.val < 48 then t.args[i.val - 40]'(by omega)
    else if i.val = 62 then w64 (base + size) else 0)
  let c : Context :=
    { (if k then Context.reset1 else Context.reset) with
      mode := .live, task := some t.id, x := x, pc := t.entry,
      status := (if k then 0x8000 else 0) ||| (if l.req.det then 0x2000 else 0),
      loopc := loopCounters l.levels t.step (taskIndex t.word),
      latmode := w64 (bit l.req.scored), spovf := w64 base, splim := w64 size,
      ofile := Vector.ofFn (fun i => Config.freeRow (freeKey free i.val)), latch := Config.freeRow (freeKey free 8) }
  if t.depth = 0 then c.pushEvent (superstepRecord l.ts (freeKey free 9)) else c

/-- A context begins to hold a task; it runs where no other does. -/
def Core.occupy (c : Core) (k : Bool) (x : Context) : Core :=
  let c := c.setCtx k x
  if c.running then c else { c with active := k, running := true }

/-! ## The energy bucket (R358) -/

/-- A launch's estimate as the bucket counts it, in quarters of a nanojoule. -/
def Launch.cost (l : Launch) : Nat := min (l.req.estimate * quarterNj) bucketCap

/-- The bucket settles when a context is freed: the measured energy, in nanojoules, less the estimate. -/
def Die.settle (d : Die) (measured cost : Nat) : Die :=
  let m := measured * 4
  { d with bucket := if cost ≤ m then d.bucket - (m - cost) else min bucketCap (d.bucket + (cost - m)) }

def State.settleEnergy (s : State) (c : Nat) (t : Task) : State :=
  match s.launch? t.launch with
  | some l =>
    let s := if l.req.det then s else s.setDie (dieOf c) ((s.die (dieOf c)).settle t.energy l.cost)
    s.setTask { t with energy := 0 }
  | none => s

/-! ## A context is freed -/

/-- Banks that were to leave leave a core that holds no task (R210); its room map is then set anew.
DEDUCED (log 33). -/
def Core.shed (c : Core) : Core :=
  if c.c0.mode == .free && c.c1.mode == .free && c.leaving != 0 then
    { c with good := c.good &&& ~~~c.leaving, leaving := 0, launch := none,
             scrubbed := c.scrubbed.filter (fun n => !c.leaving.getLsbD (n / 512)) }
  else c

/-- The context is free; the other one runs; the lease ends when both are free (R20, R304).
DEDUCED (log 22). -/
def State.freeContext (s : State) (c : Nat) (k : Bool) : State :=
  let core := (s.core c).setCtx k (if k then Context.reset1 else Context.reset)
  let other := core.ctx (!k)
  let core : Core := if core.active == k then { core with active := if other.mode == .free then k else !k,
                                                            running := other.mode != .free } else core
  let out := if other.mode == .free then popCount 48 (core.good &&& core.leaving).toNat else 0
  let s := (s.setCore c core.shed)
  let d := s.die (dieOf c)
  let s := s.setDie (dieOf c) { d with banksOut := d.banksOut + out }
  let q := s.quad (quadOf c)
  match q.lease with
  | some l =>
    if l.core == inQuad c && other.mode == .free && !isControl c then s.setQuad (quadOf c) (q.endLease (s.now c)) else s
  | none => s

/-- The stash mappings that a context made are removed (R209). -/
def State.dropStash (s : State) (c : Nat) (k : Bool) : State :=
  ((s.core c).stash.filter (fun m => m.context == k)).foldl (fun s m => s.unstash c m) s

/-- A task gives back its slice. -/
def State.freeSlice (s : State) (id : Nat) : State :=
  match s.task? id with
  | none => s
  | some t =>
    match t.slice, s.launch? t.launch with
    | some i, some l => (s.setLaunch (l.dropSlice i)).setTask { t with slice := none }
    | _, _ => s

/-! ## CONTEXT_FREE (R37, R41, R42) -/

/-- Everything that an exiting context has issued is done. DEDUCED (log 26). -/
def State.exitDone (s : State) (c : Nat) (k : Bool) : Bool := (s.ctx c k).mode == .exiting && s.drained c k

/-- The children that an exiting task has not joined. -/
def State.unjoined (s : State) (c : Nat) (k : Bool) : List Task :=
  match (s.ctx c k).task with
  | some id => s.children id
  | none => []

/-- No entry of the core names a segment that the context has mapped (R209). -/
def State.stashFree (s : State) (c : Nat) (k : Bool) : Bool :=
  ((s.core c).stash.filter (fun m => m.context == k)).all (fun m => s.segmentFree c m.seg)

/-- An exiting context may be freed. -/
def State.freeable (s : State) (c : Nat) (k : Bool) : Bool :=
  s.exitDone c k && s.stashFree c k && (s.unjoined c k).all Task.hasEnded

/-- The task of a freed context counts as complete, unless a job of it has faulted after its EXIT. -/
def State.taskDone (s : State) (c : Nat) (k : Bool) : State :=
  match (s.ctx c k).task.bind s.task? with
  | none => s
  | some t =>
    let x := s.ctx c k
    let s := s.setTask { t with phase := .ended (!t.faulted), escape := x.escape }
    let s := match s.launch? t.launch with
      | some l => if t.faulted then s else s.setLaunch { l with completed := l.completed + 1 }
      | none => s
    let s := match s.task? t.id with
      | some t => s.settleEnergy c t
      | none => s
    s.freeSlice t.id

/-- The implicit joins of a task that exits: whether all are done. -/
def State.implicitJoins (s : State) (c : Nat) (k : Bool) : Except Fault (Bool × State) :=
  match s.ctxTask c k with
  | none => .ok (true, s)
  | some p =>
    match s.runJoins c k p ((s.unjoined c k).map (fun t => t.id)) with
    | .error f => .error f
    | .ok (r, s) => .ok (r.all, if r.all then s else s.keepMerge c k r)

/-- CONTEXT_FREE (R37, R41, R42). -/
def execContextFree (c : CoreNo) (k : Bool) (s : State) : Host.Outcome State Fault Refusal :=
  let n := c.toNat
  if !s.freeable n k then .next s
  else
    match (s.dropStash n k).implicitJoins n k with
    | .ok (true, t) => .next ((t.taskDone n k).freeContext n k)
    | .ok (false, t) => .next t
    | .error f => .fault f

/-! ## Kills (R43, R344) -/

/-- What a killed task has issued: unstarted jobs are discarded, started ones end without a record.
DEDUCED (log 49). -/
def State.orphanJobs (s : State) (id : Nat) : State :=
  let s := { s with
    jobs := (s.jobs.filter (fun j => j.who != some id || j.phase != .waiting)).map (fun j =>
      if j.who == some id then { j with orphan := true } else j),
    quads := s.quads.map (fun q => (q.1, { q.2 with cond := q.2.cond.filter (fun j => j.who != some id) })) }
  s

/-- A killed task's context is freed without draining. DEDUCED (log 49). -/
def State.killContext (s : State) (c : Nat) (k : Bool) : State :=
  let s := s.dropStash c k
  let core := s.core c
  let s := s.setCore c { core with replay := core.replay.filter (fun p => p.context != k) }
  let s := match (s.ctx c k).task.bind s.task? with
    | some t => s.settleEnergy c { t with escape := (s.ctx c k).escape }
    | none => s
  s.freeContext c k

/-- One task is killed: its context or save is freed, and it counts as faulted. DEDUCED (log 49). -/
def State.killOne (s : State) (id : Nat) : State :=
  match s.task? id with
  | none => s
  | some t =>
    let s := s.orphanJobs id
    let s := match t.phase with
      | .placed c k => if (s.ctx c k).task == some id then s.killContext c k else s
      | _ => s
    let s := (s.freeSlice id).markFaulted id
    let s := match s.task? id with
      | some t => s.setTask { t with phase := .ended false, killed := true }
      | none => s
    s.reap (some id)

/-- The unjoined descendants of some tasks, generation by generation, the deepest first (R43). -/
def State.below (s : State) : Nat → List Nat → List Nat
  | 0, _ => []
  | fuel + 1, ids =>
    let next := ids.flatMap (fun id => (s.children id).map (fun u => u.id))
    if next.isEmpty then [] else s.below fuel next ++ next

/-- An unjoined child of a killed task: one that has ended cleanly is discarded, another killed, and it is joined no
more. DEDUCED (log 49). -/
def State.killChild (s : State) (id : Nat) : State :=
  match s.task? id with
  | none => s
  | some u =>
    if u.hasEnded && u.keeps then s.dropTask id
    else
      let s := if u.hasEnded then s else s.killOne id
      let s := if s.hasJobs id then s else s.dropAnc id
      match s.task? id with
      | some u => s.setTask { u with parent := none }
      | none => s

/-- KILL's effects on a task and its children. DEDUCED (log 49). -/
def State.killTask (s : State) (id : Nat) : State :=
  ((s.below 9 [id]).foldl (fun (s : State) u => s.killChild u) s).killOne id

end Sys2Proof.Machine
end

