-- ==== Sys2Proof/Machine/Save.lean ====
section
/-! DEFINITION. Save images: a context saved to its slice and restored from it, and the core state in a core
save buffer (R157, R363 to R366, R408). -/

namespace Sys2Proof.Machine

/-! ## The context's image (R364) -/

def wordsImage (l : List Word) : List Byte := l.flatMap (fun w => bytes8 w.toNat)
def rowsImage (l : List (BitVec 256)) : List Byte := l.flatMap (fun w => leBytes 32 w.toNat)

/-- Unjoined children as the image shows them. -/
def State.childMask (s : State) (id : Nat) : Nat := ((s.children id).map (fun t => 2 ^ (t.ordinal - 1))).sum

/-- A phase snapshot's bytes. -/
def Snapshot.image (n : Snapshot) : List Byte :=
  wordsImage n.x.toList ++ (rowsImage n.h.toList ++ (rowsImage n.p.toList ++
    wordsImage (n.rotb :: n.loopc.toList ++ [n.status])))

/-- The event queue in slot order. -/
def Context.eventImage (x : Context) : List Byte :=
  (List.range 64).flatMap (fun i =>
    leBytes 16 ((x.evq[(i + 64 - x.evqh.toNat % 64) % 64]?).getD 0).toNat)

/-- Bytes padded with zeros. -/
def padTo (n : Nat) (l : List Byte) : List Byte := l ++ List.replicate (n - l.length) 0

/-- The pieces of an image, the state byte last. DESIGN CHOICE (log 62). -/
def Core.contextImage (c : Core) (k : Bool) (req : BitVec 32) (children : Nat) (free : Nat) : List (Nat × List Byte) :=
  let x := c.ctx k
  let halted := x.mode == .halted
  let epc := if halted then x.epc else x.pc
  let flags := bit x.phaseCancelled + 2 * bit x.phaseIneligible
  let rows := (List.range (reqRows req)).flatMap (fun r => leBytes 1024 (c.row (bit k * c.h + r)).toNat)
  let top := 0x400000 - 32768 * reqSpill req
  [(0x0, bytes8 epc.toNat), (0x8, bytes8 x.tcause.toNat), (0x10, bytes8 x.tval.toNat), (0x19, List.replicate 39 0),
   (0x40, wordsImage x.x.toList), (0x240, rowsImage x.h.toList), (0x640, rowsImage x.p.toList),
   (0x1240, wordsImage (x.rotb :: x.loopc.toList ++ [x.status, x.latmode, x.spovf, x.splim, x.alarm.getD 0,
      x.steps.zeroExtend 64, x.restart, w64 (bit x.escape), w64 children, w64 flags])),
   (0x12D8, List.replicate 40 0)] ++
  ([(0x1300, x.ofile.toList.flatMap (fun r => leBytes 1024 r.toNat)), (0x3300, leBytes 1024 x.latch.toNat),
    (0x3700, padTo 4864 (match x.snap with | some n => n.image | none => [])), (0x4A00, x.eventImage),
    (0x4E00, bytes8 x.evqh.toNat ++ bytes8 x.evqt.toNat), (0x4E10, List.replicate 45552 0),
    (0x10000, (List.range 65536).map (fun i => Config.freeByte (freeKey free i))), (0x20000, rows),
    (0x20000 + 1024 * reqRows req, (c.spill k).read top (32768 * reqSpill req)),
    (0x18, [if halted then 2 else 1])] : List (Nat × List Byte))

/-! ## Saving (R157, R361, R364) -/

/-- A row that the load data queue can write (R340): its oldest, unless the scoreboard keeps it there. -/
def Context.returns (x : Context) : Bool :=
  match x.lq.find? (fun e => match e.phase with | .arrived _ => true | _ => false) with
  | some e => !e.taken.scored || scoreLand x e
  | none => false

/-- Every entry of a context that has started has completed (R361), but for what the hold list and the replay queue
keep, rows for which the scoreboard waits, and stores behind one that has halted. -/
def Context.settled (x : Context) : Bool :=
  !x.returns &&
    (x.cq ++ x.sq).all (fun e => match e.phase with
      | .started _ => false
      | .stores (a :: l) => !x.sqOrdered e (a :: l)
      | _ => true)

/-- A context is saved to its slice and freed; `held` until RESTORE. A waiting instruction runs again from its
start, a WAIT with a fresh deadline (R157, R355). DESIGN CHOICE (log 62); DEDUCED (log 64). -/
def State.saveContext (s : State) (c : Nat) (k held : Bool) : State :=
  match s.ctxTask c k, s.ctxLaunch c k with
  | some t, some l =>
    let (f, s) := s.draw
    let s := s.writePieces (sliceView t.id c) (l.sliceAt (t.slice.getD 0))
      ((s.core c).contextImage k l.req.rooms (s.childMask t.id) f)
    let core := s.core c
    let x := core.ctx k
    let halted := x.mode == .halted
    let y : Context := if halted then x else { x with epc := x.pc }
    let v : Saved :=
      { ctx := { y with hold := none, pendingX := [], stopping := false }, halted := halted, rows := (List.range core.h).map (fun r => (r, core.row (bit k * core.h + r))),
        spill := core.spill k, parked := core.replay.filter (fun p => p.context == k), fromCore := c, context := k, held := held }
    let s := s.settleEnergy c t
    let s := match s.task? t.id with
      | some t => s.setTask { t with phase := .saved v, since := s.time, age := 0, escape := x.escape }
      | none => s
    let core := s.core c
    (s.setCore c { core with replay := core.replay.filter (fun p => p.context != k) }).freeContext c k
  | _, _ => s

/-! ## Restoring (R365) -/

/-- A row's number in another half. -/
def Dest.move (k k' : Bool) (h h' : Nat) : Dest → Dest
  | .row p => .row (p - bit k * h + bit k' * h')
  | d => d

def Landing.move (k k' : Bool) (h h' : Nat) (l : Landing) : Landing :=
  { l with writes := l.writes.map (fun w => { w with dest := w.dest.move k k' h h' }), latch := l.latch.map (Dest.move k k' h h') }

/-- An entry as the context's new half has it. -/
def Entry.move (k k' : Bool) (h h' : Nat) (e : Entry) : Entry :=
  { e with taken := { e.taken with half := k', rows := h' },
           phase := match e.phase with
             | .arrived l => .arrived (l.move k k' h h')
             | p => p }

/-- What an image lets the supervisor edit. -/
structure Edited where
  epc : Word
  x : Vector Word 64
  h : Vector HandleWord 32
  p : Vector PredWord 96
  status : Word
  ofile : Vector Row 8
  latch : Row
  rows : List (Nat × Row)
  spill : List Byte

/-- Item `i` of some bytes cut into items of `n` bytes. -/
def itemAt (bs : List Byte) (n i : Nat) : Nat := fieldAt bs (n * i) n

/-- The editable fields of an image; none where its state byte is not the one that it was given.
DESIGN CHOICE (log 62). -/
def readImage (v : View) (base : Nat) (req : BitVec 32) (halted : Bool) : X (Option Edited) := do
  let st ← readLong v (base + 0x18) 1
  if leNat st ≠ (if halted then 2 else 1) then pure none
  else
    let e ← readLong v base 8
    let xs ← readLong v (base + 0x40) 512
    let hs ← readLong v (base + 0x240) 1024
    let ps ← readLong v (base + 0x640) 3072
    let sw ← readLong v (base + 0x1288) 8
    let os ← readLong v (base + 0x1300) 9216
    let rs ← readLong v (base + 0x20000) (1024 * reqRows req)
    let sp ← readLong v (base + 0x20000 + 1024 * reqRows req) (32768 * reqSpill req)
    pure (some
      { epc := w64 (leNat e), x := Vector.ofFn (fun i => w64 (itemAt xs 8 i.val)),
        h := Vector.ofFn (fun i => BitVec.ofNat 256 (itemAt hs 32 i.val)),
        p := Vector.ofFn (fun i => BitVec.ofNat 256 (itemAt ps 32 i.val)), status := w64 (leNat sw),
        ofile := Vector.ofFn (fun i => BitVec.ofNat 8192 (itemAt os 1024 i.val)), latch := BitVec.ofNat 8192 (itemAt os 1024 8),
        rows := (List.range (reqRows req)).map (fun r => (r, BitVec.ofNat 8192 (itemAt rs 1024 r))), spill := sp })

/-- The flags and FTZ of an edited STATUS, and the number of the context. -/
def restoredStatus (old new : Word) (k : Bool) : Word :=
  (old &&& ~~~(statusMask ||| 0x8000)) ||| (new &&& statusMask) ||| (if k then 0x8000 else 0)

/-- The context as it goes on. DEDUCED (log 64). -/
def Saved.context' (v : Saved) (e : Edited) (k : Bool) (oldH newH : Nat) : Context :=
  let x := v.ctx
  let mv (l : List Entry) : List Entry := l.map (Entry.move v.context k oldH newH)
  { x with
    mode := if v.halted then .halted else .live, pc := if v.halted then x.pc else e.epc, epc := e.epc,
    x := e.x, h := e.h, p := e.p.set 0 (BitVec.allOnes 256), status := restoredStatus x.status e.status k, ofile := e.ofile,
    latch := e.latch, lq := mv x.lq, cq := mv x.cq, sq := mv x.sq,
    voids := x.voids.map (fun p => (p.1.move v.context k oldH newH, p.2)) }

/-- Rows of a half put back. -/
def Core.putRows (c : Core) (k : Bool) (l : List (Nat × Row)) : Core :=
  l.foldl (fun (c : Core) p => if p.1 < c.h then c.setPlace k (.row (bit k * c.h + p.1)) p.2 else c) c

/-- A restored task's context is put on a core. -/
def State.putBack (s : State) (t : Task) (v : Saved) (e : Edited) (c : Nat) (k : Bool) (req : BitVec 32) : State :=
  let core := s.core c
  let x := v.context' e k v.rows.length core.h
  let core := (core.putRows k v.rows).putRows k e.rows
  let top := 0x400000 - 32768 * reqSpill req
  let core := core.setSpill k (v.spill.write top e.spill)
  let core := { core with replay := core.replay ++ v.parked.map (fun (p : Parked) => { p with context := k }) }
  let s := s.setCore c (core.occupy k x)
  let s := s.setTask { t with phase := .placed c k }
  { s with
    jobs := s.jobs.map (fun j => if j.who == some t.id then { j with core := c, context := k } else j),
    quads := s.quads.map (fun q => (q.1, { q.2 with cond := q.2.cond.map (fun j =>
      if j.who == some t.id then { j with core := c, context := k } else j) })) }

/-- PREEMPTED (R406, R408). -/
def preempted (base : Nat) : Trap := { code := 0x18, detail := w64 base, grade := .same }

/-- A saved task is discarded (R408). -/
def State.discardSaved (s : State) (t : Task) : State :=
  let (d, base) := match t.phase, s.launch? t.launch with
    | .saved v, some l => (dieOf v.fromCore, l.sliceAt (t.slice.getD 0))
    | _, _ => (0, 0)
  (s.raise d (s.taskRec t .logged srcDispatcher (preempted base))).killTask t.id

/-! ## The core's buffer (R363, R366) -/

/-- The plane that a core has reserved. -/
def State.reservedPlane (s : State) (c : Nat) : Option (Bool × Plane) :=
  let q := s.quad (quadOf c)
  if q.res0 == some (inQuad c) then some (false, q.plane0)
  else if q.res1 == some (inQuad c) then some (true, q.plane1)
  else none

/-- A cell's 16 bytes; the special state is counted as none, POS_INF, NEG_INF, NAN. -/
def PCell.image (p : PCell) : List Byte :=
  let code : Byte := match p.sp with | .none => 0 | .posInf => 1 | .negInf => 2 | .nan => 3
  leBytes 7 p.v.toNat ++ ([0] : List Byte) ++ leBytes 2 p.l.toNat ++ ([code, 0, 0, 0, 0, 0] : List Byte)

def TileSide.image (t : TileSide) : List Byte :=
  padTo 256 (t.scales.toList ++ [BitVec.ofNat 8 t.nf.toNat, BitVec.ofNat 8 (bit t.void), BitVec.ofNat 8 (bit t.valid)])

/-- The pieces of a buffer. DESIGN CHOICE (log 63). -/
def State.coreImage (s : State) (c : Nat) (tag : BitVec 32) : List (Nat × List Byte) :=
  let core := s.core c
  let q := quadOf c
  let planeHead := match s.reservedPlane c with
    | some (n, p) => bytes8 (1 + 2 * bit n) ++ bytes8 ((p.exp q % 2 ^ 16).toNat + bit (p.isInt q) * 2 ^ 16 + bit p.void * 2 ^ 17)
    | none => List.replicate 16 0
  let planeBody := match s.reservedPlane c with
    | some (_, p) => (p.load q).toList.flatMap PCell.image
    | none => []
  [(0x0, bytes8 core.lodgemap.toNat), (0x8, core.nf.toList.flatMap (fun n => bytes8 n.toNat)),
   (0x28, wordsImage core.tcfg.toList), (0xA8, planeHead), (0xB8, bytes8 tag.toNat),
   (0x100, core.stash.flatMap (fun m => bytes8 (4096 * m.seg) ++ bytes8 m.va)),
   (0x500, core.sides.toList.flatMap TileSide.image)] ++
  ([(0x2000, (List.range 64).flatMap core.rule), (0x4000, planeBody), (0x44000, core.tiles.read 0 (65536 * core.rooms.matrix)),
    (0x144000, core.pad.read 0 (65536 * core.rooms.pad))] : List (Nat × List Byte))

/-- The core's state goes to a buffer, its segments are unmapped, and it holds no launch's map any more.
DESIGN CHOICE (log 63). -/
def State.saveCore (s : State) (c launch : Nat) (tag : BitVec 32) (frame : Nat) : State :=
  let addr := frame * 65536
  let plane := s.reservedPlane c
  let s := (s.core c).stash.foldl (fun s m => s.writeBack c m (List.range 64)) s
  let s := { s with mem := memZero s.mem addr 0x400000 }
  let s := (s.coreImage c tag).foldl (fun s p => s.storeAt { far := false, addr := addr + p.1, home := frame / 2 ^ 22 } p.2) s
  let d := s.die (dieOf c)
  let s := s.setDie (dieOf c) { d with saves := d.saves ++ [{ launch := launch, addr := addr, core := s.core c, plane := plane }] }
  let s := (s.core c).stash.foldl (fun s m => s.unstash c m) s
  let s := s.setCore c { s.core c with launch := none, cache := [] }
  let q := s.quad (quadOf c)
  s.setQuad (quadOf c) ((q.unreserve (inQuad c)).applyArb (s.now c))

/-- The save of a launch's core state that some die holds, with the die. -/
def State.coreSave (s : State) (launch : Nat) : Option (Nat × CoreSave) :=
  (List.range 4).findSome? (fun d => ((s.die d).saves.find? (fun b => b.launch == launch)).map (fun b => (d, b)))

def State.dropSave (s : State) (d : Nat) (b : CoreSave) : State :=
  (s.setDie d { s.die d with saves := (s.die d).saves.filter (fun x => x.addr != b.addr) }).release (b.addr / 65536)

/-- The saved map on a core: PAD has what the core's good banks leave. -/
def Core.savedRooms (c : Core) (r : Rooms) : Rooms := { r with pad := c.goodCount - (r.reg + r.cache + r.matrix + r.spill) }

/-- A core can take a saved core state: its banks cover the map, and no other core holds the plane. -/
def State.canHold (s : State) (c : Nat) (b : CoreSave) : Bool :=
  let r := b.core.rooms
  r.reg + r.cache + r.matrix + r.spill ≤ (s.core c).goodCount &&
    (match b.plane with
    | some (n, _) => ((s.quad (quadOf c)).reserver n).isNone && (s.quad (quadOf c)).win2.isNone
    | none => true)

/-- Core state restored (R365, R366); `from_` is the context that saved mappings belonged to, and `k` the one
that its task now has. DESIGN CHOICE (log 63). -/
def State.restoreCore (s : State) (c d : Nat) (b : CoreSave) (from_ k : Bool) : State :=
  let core := s.core c
  let r := core.savedRooms b.core.rooms
  let core : Core :=
    { core with
      rooms := r, banks := core.dealAll r, nf := b.core.nf, tcfg := b.core.tcfg, rules := b.core.rules,
      pad := { b.core.pad with cells := b.core.pad.cells.filter (fun x => x.1 < 65536 * r.pad) }, tiles := b.core.tiles,
      sides := b.core.sides,
      stash := (b.core.stash.filter (fun m => m.seg < 16 * r.pad)).map (fun m =>
        { m with context := if m.context == from_ then k else !k, filled := 0, dirty := 0 }) }
  let s := s.setCore c core
  let s := match b.plane with
    | some (n, p) =>
      let q := (s.quad (quadOf c)).setReserver n (some (inQuad c))
      s.setQuad (quadOf c) (if n then { q with plane1 := p } else { q with plane0 := p })
    | none => s
  s.dropSave d b

end Sys2Proof.Machine
end

