-- ==== Sys2Proof/Machine/Complete.lean ====
section
/-! DEFINITION. How a launch completes: the completion record and the notice, and what the module frees with
a launch (R44, R85, R224, R228, R366, R376, R405, R445, R453, R457, R460). -/

namespace Sys2Proof.Machine

/-! ## The dispatcher's own accesses (R460) -/

/-- The task address space as the dispatcher of a die reads it. -/
def dispatchView (d : Nat) : View := { task := none, ctx := none, core := none, die := d, sup := false }

/-- The record of an access that failed: `kind` 1 for a launch record, 2 for a completion record. -/
def State.dispatchRec (s : State) (launch : Option Nat) (tag : BitVec 32) (kind : Nat) (t : Trap) : FaultRec :=
  { code := t.code, grade := t.grade, status := .logged, source := srcDispatcher, tag := tag, launch := launch,
    detail := t.detail, time := s.time, aux := t.aux ||| BitVec.ofNat 32 (kind * 256) }

/-- A record of the dispatcher, with its own error counted (R398). -/
def State.dispatchRaise (s : State) (d : Nat) (launch : Option Nat) (tag : BitVec 32) (kind : Nat) (t : Trap) : State :=
  (s.eccOf t).raise d (s.dispatchRec launch tag kind t)

/-- The fault that an access came to, the address where it is an uncorrectable error that of the record. -/
def dispatchTrap (va : Nat) (e : XErr) : Option Trap :=
  match e with
  | .fault t _ _ => some { t with detail := w64 (t.detail.toNat / 2 ^ 57 * 2 ^ 57 + va % 2 ^ 57) }
  | .poison u => some (eccUncorr va u.die u.structure_)
  | _ => none

/-! ## The completion record (R44) -/

/-- Bytes 0x00 to 0x3B. -/
def Launch.completion (l : Launch) (status : BitVec 8) (now : Word) : List Byte :=
  [status, l.firstCode, 0, 0] ++ (leBytes 4 l.steps ++ leBytes 8 l.completed ++ leBytes 4 l.faulted ++ leBytes 4 l.conflicts ++
    leBytes 8 l.firstTask.toNat ++ leBytes 8 l.start.toNat ++ leBytes 8 now.toNat ++ leBytes 8 (l.energy / 1000) ++
    leBytes 4 l.req.tag.toNat : List Byte)

/-- The record, then the done word. DEDUCED (log 56). -/
def writeCompletion (l : Launch) (status : BitVec 8) (now : Word) : X Unit := do
  let v := dispatchView l.die.toNat
  writeLong v l.req.target (l.completion status now)
  writeLong v (l.req.target + 0x3C) (leBytes 4 1)

/-! ## What ends with a launch -/

/-- The symbol table's ranges are freed, and the table with them (R85, R376). -/
def State.freeSymbols (s : State) (l : Launch) : State :=
  match l.symbols with
  | none => s
  | some t =>
    let s := (s.slots (some l.id)).foldl (fun (s : State) x => s.writeNear (symTable t + 64 * x.i + 8) 1 0) s
    { s with mem := memZero s.mem (symDir t) 64 }

/-- Translations whose G bit is clear are dropped, whatever their root (R228). -/
def State.dropLocal (s : State) : State := { s with tlb := s.tlb.filter (fun t => t.leaf.getLsbD 63) }

/-- The launch was accepted: a rejected one has no loop table. -/
def Launch.accepted (l : Launch) : Bool := !l.levels.isEmpty

/-- The clocks unlock when no accepted deterministic launch is left (R453). DEDUCED (log 67). -/
def State.unlockClocks (s : State) : State :=
  if s.launches.any (fun l => l.req.det && l.accepted) then s
  else
    { s with
      clocksLocked := false, locking := false,
      dies := if s.clocksLocked then vecMap (fun (d : Die) => { d with clock := 20 }) s.dies else s.dies }

/-- A draining module that has no accepted launch left is drained, though a rejected one may still complete (R457). -/
def State.drainedOut (s : State) : State :=
  if s.modState == .draining && s.launches.all (fun l => !l.accepted) then { s with modState := .drained, deadline := none } else s

/-- The core save buffers of a launch go back. -/
def State.dropSaves (s : State) (id : Nat) : State :=
  (List.range 4).foldl (fun (s : State) d =>
    ((s.die d).saves.filter (fun b => b.launch == id)).foldl (fun s b => s.dropSave d b) s) s

/-- The launch is no more, and nothing of it is kept. -/
def State.endLaunch (s : State) (l : Launch) : State :=
  let s := (s.freeSymbols l).dropSaves l.id
  let s := (s.tasks.filter (fun t => t.launch == l.id)).foldl (fun (s : State) t => (s.dropMap t t.rev).dropMap t t.anc) s
  let s := (((s.launch? l.id).map (fun x => x.sticky)).getD []).foldl (fun (s : State) f => s.release f) s
  let s := { s with tasks := s.tasks.filter (fun t => t.launch != l.id), launches := s.launches.filter (fun x => x.id != l.id) }
  (s.dropLocal.unlockClocks).drainedOut

/-- The completion notice of a launch's queue (R445). DESIGN CHOICE (log 71). -/
def State.notify (s : State) (l : Launch) : State :=
  let m := ((s.die l.die.toNat).queues[l.cls.toNat]?.getD LaunchQueue.reset).msi
  if m.getLsbD 63 then { s with outbox := s.outbox ++ [.msi l.die l.cls (m.extractLsb' 0 11)] } else s

/-! ## Completing (R44, R405, R460) -/

/-- No record of a launch waits to be written, and no job of it runs. DEDUCED (log 14). -/
def State.quietLaunch (s : State) (id : Nat) : Bool :=
  vecAll (fun (d : Die) => d.pending.all (fun r => r.launch != some id)) s.dies && s.jobs.all (fun j => j.launch != some id) &&
    s.conds.all (fun j => j.launch != some id)

/-- A launch that is done, or whose record could not be written, comes to its end. DEDUCED (log 57). -/
def State.completeLaunch (s : State) (id : Nat) : Tried :=
  match s.launch? id with
  | none => .no
  | some l =>
    if !s.quietLaunch id then .no
    else
      match l.phase with
      | .completing st =>
        (match (writeCompletion l st s.time).run s with
        | .ok (_, t) => .go ((t.notify l).endLaunch l)
        | .error (.stop f) => .stop f
        | .error e =>
          match dispatchTrap l.req.target e with
          | some t => .go ((s.dispatchRaise l.die.toNat (some id) l.req.tag 2 t).setLaunch { l with phase := .notifying })
          | none => .no)
      | .notifying => .go ((s.notify l).endLaunch l)
      | _ => .no

/-- The state after a launch's end where it may come to it. -/
def State.thenComplete (s : State) (id : Nat) : Host.Outcome State Fault Refusal := (s.completeLaunch id).outcome s

/-- Every launch that can complete does. -/
def State.completeAll (s : State) : List Nat → Host.Outcome State Fault Refusal
  | [] => .next s
  | id :: t =>
    match s.completeLaunch id with
    | .no => s.completeAll t
    | .go s => s.completeAll t
    | .stop f => .fault f

/-- DONE or FAULTED (R44). -/
def Launch.result (l : Launch) : BitVec 8 := if l.faulted = 0 then 0 else 1

/-- A launch begins to complete; its tasks that hold no context and are not saved are dropped. -/
def State.beginCompletion (s : State) (id : Nat) (status : BitVec 8) : State :=
  match s.launch? id with
  | some l => s.setLaunch { l with phase := .completing status }
  | none => s

end Sys2Proof.Machine
end

