-- ==== Sys2Proof/Machine/Accept.lean ====
section
/-! DEFINITION. The launch queues, and how the dispatcher accepts or rejects a launch (R11 to R17, R22, R27,
R192, R223, R356, R442 to R446, R453, R458, R460). -/

namespace Sys2Proof.Machine

/-! ## Launch queue registers (R442, R443) -/

def Die.queue (x : Die) (c : BitVec 3) : LaunchQueue := x.queues[c.toNat]'c.isLt
def State.setQueueReg (s : State) (d : DieNo) (c : BitVec 3) (q : LaunchQueue) : State :=
  let x := s.die d.toNat
  s.setDie d.toNat { x with queues := x.queues.set c.toNat q c.isLt }

/-- A capacity that lets the queue work. -/
def legalCapacity (n : Nat) : Bool := (List.range 13).any (fun i => n == 2 ^ (i + 4))
/-- The launch queues are enabled once the module has come ONLINE (R450, R457). -/
def State.queuesOn (s : State) : Bool := s.modState != .reset
/-- DEDUCED (log 58). -/
def State.queueWorks (s : State) (q : LaunchQueue) : Bool := s.queuesOn && legalCapacity q.capacity.toNat && !q.stopped

/-- A queue that stops. -/
def LaunchQueue.stop (q : LaunchQueue) (cause : BitVec 8) : LaunchQueue :=
  { q with stopped := true, cause := cause, expected := BitVec.ofNat 32 (q.head.toNat + 1) }

/-! ## Queue entries (R442) -/

def LaunchQueue.inHost (q : LaunchQueue) : Bool := q.msi.getLsbD 62

/-- The 64 bytes of the entry at the head. DEDUCED (log 58). -/
def State.queueEntry (s : State) (q : LaunchQueue) : List Byte :=
  let a := q.base.toNat + 64 * (q.head.toNat % q.capacity.toNat)
  memRead (if q.inHost then s.hostMem else s.mem) a 64

/-- An entry stands between head and the doorbell of a working queue. -/
def State.entryDue (s : State) (q : LaunchQueue) : Bool := s.queueWorks q && q.head.toNat < q.doorbell.toNat
def LaunchQueue.tagOk (q : LaunchQueue) (e : List Byte) : Bool := fieldAt e 0 8 == (q.head.toNat + 1) % 2 ^ 64

/-- The dispatcher reads the tag of the entry at the head, where one is due. -/
def State.readTag (s : State) (d : DieNo) (c : BitVec 3) (q : LaunchQueue) : State :=
  s.setQueueReg d c { q with misread := s.entryDue q && !q.tagOk (s.queueEntry q) }

/-- Until when the entry's tag is read again: 2,000 ticks from the doorbell that announced the entry, or from the
restart. -/
def LaunchQueue.limit (q : LaunchQueue) : Nat :=
  let rung := ((q.bells.filter (fun b => q.head.toNat < b.1.toNat)).getLast?.map (fun b => b.2.toNat)).getD 0
  max q.since.toNat rung + 2000

/-- DOORBELL (R443): a dispatcher that has nothing to wait for reads the entry's tag at once. DEDUCED (log 58). -/
def execDoorbell (d : DieNo) (c : BitVec 3) (v : Word) (s : State) : Host.Outcome State Fault Refusal :=
  let q := (s.die d.toNat).queue c
  if !s.queueWorks q || v.toNat ≤ q.doorbell.toNat then .next s
  else if q.head.toNat + q.capacity.toNat < v.toNat then .next (s.setQueueReg d c (q.stop 2))
  else
    let r : LaunchQueue := { q with doorbell := v, bells := (v, s.time) :: q.bells }
    .next (if q.head == q.doorbell then s.readTag d c r else s.setQueueReg d c r)

/-- LAUNCH_QUEUE_RESTART (R442, R444). -/
def execLaunchQueueRestart (d : DieNo) (c : BitVec 3) (s : State) : Host.Outcome State Fault Refusal :=
  let q := (s.die d.toNat).queue c
  .next (s.readTag d c { q with stopped := false, cause := 0, expected := 0, since := s.time })

/-- NOTIFY_TIMEOUT (R444). -/
def execNotifyTimeout (d : DieNo) (c : BitVec 3) (s : State) : Host.Outcome State Fault Refusal :=
  let q := (s.die d.toNat).queue c
  s.when (s.entryDue q && (q.misread || !q.tagOk (s.queueEntry q)) && q.limit ≤ s.time.toNat) (s.setQueueReg d c (q.stop 1))

/-! ## The launch record (R11) -/

def parseLaunch (b : List Byte) : LaunchRec :=
  let f := fieldAt b
  let mode := f 0x1A 2
  { code := w64 (f 0 8), det := mode % 2 == 1, scored := bitsOf mode 1 1 == 1, cls := bitsOf mode 4 2,
    estimate := f 0x1C 4, rooms := BitVec.ofNat 32 (f 0x20 4), overflow := f 0x24 4, ovfBase := f 0x28 8,
    seed := w64 (f 0x30 8), target := f 0x38 8, budget := f 0x48 8, tag := BitVec.ofNat 32 (f 0x50 4) }

/-- The room size rules (R192). -/
def roomsLegal (req : BitVec 32) (overflow : Nat) : Bool :=
  let r := req.toNat
  let reg := bitsOf r 7 0
  let cache := bitsOf r 15 8
  let mat := bitsOf r 23 16
  let spill := bitsOf r 31 24
  (reg == 0 || reg == 8 || reg == 16) && 12 ≤ cache && cache ≤ 32 && mat % 2 == 0 && mat ≤ 16 && 1 ≤ spill &&
    spill * 32768 ≤ overflow && reg + cache + mat + spill ≤ 48

/-- The checks of R12 on the record alone, at `va`. -/
def recordLegal (va : Nat) (b : List Byte) (r : LaunchRec) : Bool :=
  let f := fieldAt b
  va % 64 == 0 && r.code.toNat % 4 == 0 && f 0x08 8 % 16 == 0 && (f 0x19 1 == 0 || f 0x10 8 % 32 == 0) &&
    1 ≤ f 0x18 1 && f 0x18 1 ≤ 8 && f 0x19 1 ≤ 64 && f 0x1A 2 < 32 && r.overflow % 4096 == 0 && r.ovfBase % 4096 == 0 &&
    r.target % 64 == 0 && f 0x40 8 % 8 == 0 && (b.drop 0x54).all (fun x => x == 0) && roomsLegal r.rooms r.overflow &&
    saveBytes r.rooms + 32768 * reqSpill r.rooms ≤ r.overflow

/-! ## The loop table (R14, R15) -/

/-- One entry; none where it breaks a rule. -/
def parseLevel (args : Vector Word 8) (b : List Byte) : Option Level :=
  let f := fieldAt b
  let kind := f 4 1
  let bound := f 8 1
  let flags := f 6 2
  let extent := if bound = 0 then some (f 0 4)
    else if 40 ≤ bound && bound ≤ 47 then
      let v := (args[bound - 40]?.getD 0).toNat
      if v < 2 ^ 32 then some v else none
    else none
  match extent with
  | none => none
  | some e =>
    if kind ≤ 3 && (kind == 3 || f 5 1 == 0) && (if kind = 0 then flags ≤ 20 else flags == 0) && (b.drop 9).all (fun x => x == 0) then
      some { kind := kind, extent := e, stride := f 5 1, q := if kind = 0 then flags else 0 }
    else none

/-- Kinds never fall, at most one level is SUPERSTEP, one SPATIAL_DIE and three SPATIAL_CORE. -/
def levelsLegal (ls : List Level) : Bool :=
  let ks := ls.map (fun l => l.kind)
  let count (k : Nat) : Nat := (ks.filter (fun x => x == k)).length
  (ks.zip (ks.drop 1)).all (fun p => p.1 ≤ p.2) && count 0 ≤ 1 && count 1 ≤ 1 && count 2 ≤ 3 && gridSize ls < 2 ^ 32

/-- A table's entries of `n` bytes. -/
def entriesOf (b : List Byte) (n count : Nat) : List (List Byte) := (List.range count).map (fun i => (b.drop (n * i)).take n)

def parseLevels (args : Vector Word 8) (b : List Byte) (count : Nat) : Option (List Level) :=
  match (entriesOf b 16 count).mapM (parseLevel args) with
  | some ls => if levelsLegal ls then some ls else none
  | none => none

/-! ## The region table (R27) -/

def parseRegion (b : List Byte) : Option Region :=
  let f := fieldAt b
  let merge := f 0x10 1
  let elem := f 0x11 1
  if f 0 8 % 64 == 0 && f 8 8 != 0 && f 8 8 % 64 == 0 && merge ≤ 10 && dtypeKnown elem && elem != 0x18 &&
      (merge != 9 || elem == 0x10) && f 0x12 2 ≤ 1 && (b.drop 0x14).all (fun x => x == 0) then
    some { base := f 0 8, size := f 8 8, merge := merge, elem := elem, sat := f 0x12 2 == 1 }
  else none

/-- Regions may not overlap. -/
def disjoint : List Region → Bool
  | [] => true
  | r :: t => t.all (fun x => x.base + x.size ≤ r.base || r.base + r.size ≤ x.base) && disjoint t

def parseRegions (b : List Byte) (count : Nat) : Option (List Region) :=
  match (entriesOf b 32 count).mapM parseRegion with
  | some rs => if disjoint rs then some rs else none
  | none => none

/-! ## Reading a launch (R12, R13) -/

/-- What the dispatcher learns from the tables of a launch. -/
structure Tables where
  args : Vector Word 8
  levels : List Level
  regions : List Region

/-- The argument block and the tables, each read once; none where a rule is broken. -/
def readTables (d : Nat) (b : List Byte) : X (Option Tables) := do
  let v := dispatchView d
  let f := fieldAt b
  let a ← readLong v (f 0x40 8) 64
  let args : Vector Word 8 := Vector.ofFn (fun i => w64 (fieldAt a (8 * i.val) 8))
  let lt ← readLong v (f 0x08 8) (16 * f 0x18 1)
  let rt ← if f 0x19 1 = 0 then pure [] else readLong v (f 0x10 8) (32 * f 0x19 1)
  pure (match parseLevels args lt (f 0x18 1), parseRegions rt (f 0x19 1) with
    | some ls, some rs => some { args := args, levels := ls, regions := rs }
    | _, _ => none)

/-! ## Splitting leaves (R223) -/

/-- A frame's 64 KiB leaves under a leaf of 2 MiB, or its 2 MiB leaves under one of 1 GiB: entry `i`.
DEDUCED (log 31). -/
def splitEntry (lvl e i : Nat) : Nat :=
  let step := if lvl = 1 then 32 else 1
  let size := if lvl = 1 then 1 else 0
  let frame := if leafValid e then leafFrame e + step * i else leafFrame e
  putBits (putBits e 51 16 frame) 4 3 size

/-- The leaf over an address is split once; none where the ring has no frame for the table.
DEDUCED (log 31). -/
def State.splitLeaf (s : State) (d : Nat) (a lvl e : Nat) : Option State :=
  match s.ringTake d 0 with
  | none => none
  | some (f, s) =>
    let n := if lvl = 1 then 512 else 32
    let bytes := (List.range n).flatMap (fun i => leBytes 8 (splitEntry lvl e i))
    let s := { s with mem := memWrite (memZero s.mem (f * 65536) 65536) (f * 65536) bytes }
    let s := s.writeNear a 8 (f * 65536 + 0x19)
    some (s.tlbDropLeaf a)

/-- The leaf of a level over an address, present or to be allocated, is split once, where the ring has a frame. -/
def State.splitOnce (s : State) (d va level : Nat) : State :=
  match s.walk false va with
  | .leaf a lvl e | .allocate a lvl e => if lvl = level then (s.splitLeaf d a lvl e).getD s else s
  | _ => s

/-- The whole of the 2 MiB or 1 GiB leaf over an address is split into 64 KiB leaves, as far as the ring has frames. -/
def State.splitAt (s : State) (d va : Nat) : State :=
  match s.walk false va with
  | .leaf _ 1 _ =>
    (List.range 512).foldl (fun s i => s.splitOnce d (va / 2 ^ 30 * 2 ^ 30 + i * 2 ^ 21) 2) (s.splitOnce d va 1)
  | _ => s.splitOnce d va 2

/-- The 2 MiB spans that a region covers a byte of. -/
def Region.spans (r : Region) : List Nat :=
  (List.range ((r.base + r.size - 1) / 2 ^ 21 - r.base / 2 ^ 21 + 1)).map (fun i => r.base / 2 ^ 21 + i)

/-- The unit ends its own moves and replicas of the spans of revisioned regions, and splits their leaves.
DEDUCED (log 31); DESIGN CHOICE (log 94). -/
def State.splitRegions (s : State) (d : Nat) (rs : List Region) : State :=
  (((rs.filter (fun r => r.merge != 0)).flatMap Region.spans).eraseDups).foldl (fun (s : State) n =>
    ((s.abandonMove n).dropReplica n).splitAt d (n * 2 ^ 21)) s

/-! ## Accepting (R12, R17, R25, R26) -/

/-- The first multiple of 2^q that is at least a time. -/
def nextMultiple (t : Nat) (q : Nat) : Nat := ceilDiv t (2 ^ q) * 2 ^ q

/-- Supersteps of a launch, and the quantum exponent (R16, R25). -/
def superstepsOf (ls : List Level) : Nat := match ls with | l :: _ => if l.kind = 0 then l.extent else 1 | [] => 1
def quantumOf (ls : List Level) : Nat := match ls with | l :: _ => l.q | [] => 0

/-- The launch as it is entered. -/
def Launch.make (id : Nat) (d : DieNo) (c : BitVec 3) (r : LaunchRec) (now : Word) : Launch :=
  { id := id, die := d, cls := c, req := r, levels := [], regions := [], args := Vector.replicate 8 0, phase := .waiting, step := 0,
    start := now, ts := now, steps := 0, completed := 0, faulted := 0, conflicts := 0, firstCode := 0, firstTask := -1,
    energy := 0, eligible := [], slices := [], symbols := none, turn := 0, sticky := [] }

/-- A launch joins the module's launches. -/
def State.addLaunch (s : State) (l : Launch) : State :=
  { s with nextId := s.nextId + 1, launches := s.launches ++ [l] }

/-- A launch that ends as it is entered. -/
def State.endAtOnce (s : State) (l : Launch) (status : BitVec 8) : Host.Outcome State Fault Refusal :=
  (s.addLaunch { l with phase := .completing status }).thenComplete l.id

/-- An accepted launch: its leaves are split, and its first superstep begins at the first multiple of 2^q
after its acceptance. DEDUCED (log 53). -/
def State.accept (s : State) (l : Launch) (t : Tables) : Host.Outcome State Fault Refusal :=
  let l := { l with
    args := t.args, levels := t.levels, regions := t.regions, turn := s.turns,
    ts := w64 (nextMultiple (s.time.toNat + 1) (quantumOf t.levels)),
    eligible := if l.req.det then s.eligible l.req.rooms none else [] }
  if superstepsOf t.levels = 0 || gridSize t.levels = 0 then s.endAtOnce l 0
  else
    let s := s.splitRegions l.die.toNat t.regions
    let s := s.addLaunch l
    .next (if l.req.det && !s.clocksLocked then { s with locking := true } else s)

/-- The dispatcher's judgement of a launch (R12, R443, R446, R457); a page that moves is waited for, from the
state before the entry was read. DEDUCED (log 56). -/
def State.judge (s before : State) (l : Launch) (va : Nat) (b e : List Byte) : Host.Outcome State Fault Refusal :=
  if s.modState != .online then s.endAtOnce l 5
  else if l.req.cls ≠ l.cls.toNat || !(e.drop 0x10).all (fun x => x == 0) || !recordLegal va b l.req then
    s.endAtOnce l 2
  else
    match (readTables l.die.toNat b).run s with
    | .ok (some t, s) => if (s.fitting l.req.rooms none).isEmpty then s.endAtOnce l 3 else s.accept l t
    | .ok (none, s) => s.endAtOnce l 2
    | .error .wait => .next before
    | .error (.stop f) => .fault f
    | .error _ => s.endAtOnce l 2

/-- The head of a queue advances. -/
def LaunchQueue.consumed (q : LaunchQueue) : LaunchQueue :=
  { q with head := q.head + 1, bells := q.bells.filter (fun b => q.head.toNat + 1 < b.1.toNat) }

/-- An entry whose tag matches is taken. While the task root is not set, the launch is rejected with its record unread,
so that it has no completion target (R446). DEDUCED (log 56). -/
def State.takeEntry (s : State) (d : DieNo) (c : BitVec 3) (q : LaunchQueue) (e : List Byte) : Host.Outcome State Fault Refusal :=
  let va := fieldAt e 8 8
  if !s.taskRoot.getLsbD 0 then
    (s.readTag d c q.consumed).endAtOnce (Launch.make s.nextId d c (parseLaunch []) s.time) 2
  else
    match (readLong (dispatchView d.toNat) va 128).run s with
    | .ok (b, t) => (t.readTag d c q.consumed).judge s (Launch.make t.nextId d c (parseLaunch b) s.time) va b e
    | .error .wait => .next s
    | .error (.stop f) => .fault f
    | .error err =>
      let s := s.readTag d c q.consumed
      match dispatchTrap va err with
      | some t => .next (s.dispatchRaise d.toNat none 0 1 t)
      | none => .next s

/-- LAUNCH_ENTRY_CONSUME (R443, R444, R458): the entry is taken where its tag matches, on the first reading or within
the limit. DEDUCED (log 56). -/
def execLaunchEntryConsume (d : DieNo) (c : BitVec 3) (s : State) : Host.Outcome State Fault Refusal :=
  let q := (s.die d.toNat).queue c
  let e := s.queueEntry q
  if !s.entryDue q then .next s
  else if !q.tagOk e then .next (s.setQueueReg d c { q with misread := true })
  else if q.misread && q.limit < s.time.toNat then .next s
  else s.takeEntry d c q e

/-- CLOCK_LOCK_COMPLETE (R453): the clocks stand at their fixed ratios, and tasks issue again. -/
def execClockLockComplete (s : State) : Host.Outcome State Fault Refusal :=
  s.when s.locking { s with locking := false, clocksLocked := true, dies := vecMap (fun (d : Die) => { d with clock := 18 }) s.dies }

end Sys2Proof.Machine
end

