-- ==== Sys2Proof/Machine/Atomic.lean ====
section
/-! DEFINITION. The atomics (R253 to R258). -/

namespace Sys2Proof.Machine

/-! ## Functions (R254, R255) -/

/-- A signed or unsigned pick of two numbers of `w` bits. -/
def pickInt (w : Nat) (signed larger : Bool) (x y : Nat) : Nat :=
  let v (n : Nat) : Int := intVal (!signed) w n
  if larger then (if v x < v y then y else x) else (if v y < v x then y else x)

/-- The NaN of R255. -/
def atomicNan : Nat := 0x7FC00000

/-- ATFMAX (R255): +0 ranks above −0, and a NaN gives the default NaN. -/
def atFmax (x y : Nat) : Nat :=
  let a := FFmt.f32.decode x
  let b := FFmt.f32.decode y
  if a.isNan || b.isNan then atomicNan
  else if numLt a b then y
  else if numLt b a then x
  else if a.sign then y else x

/-- ATFADD (R255): rounded RNE, subnormals kept. -/
def atFadd (x y : Nat) : Nat :=
  let a := FFmt.f32.decode x
  let b := FFmt.f32.decode y
  if a.isNan || b.isNan then atomicNan
  else
    let r := exactAdd .rne a b
    if r.v.isNan then atomicNan else (FFmt.f32.encode false false .rne r.v r.inv).code

/-! ## The access (R254, R256, R257) -/

/-- The order's wait before the atomic is performed. -/
def waitsBefore : Order → Bool
  | .rel | .ar | .sc => true
  | .rlx | .acq => false

/-- Reads under an uncorrectable sector halt the task: R212 cancels a phase for loads alone.
DEDUCED (log 36). -/
def seqXhard {α : Type} (m : X α) : M α := fun s =>
  match m.run s with
  | .ok r => .ok r
  | .error (.poison u) => .error (.poison u false)
  | .error (.fault t _ _) => .error (.trap t)
  | .error .wait => .error .wait
  | .error (.stop f) => .error (.stop f)

/-- An atomic on `n` bytes: `f` gives the new value, none where a CAS fails; on a revisioned location its order
and scope have no effect (R256). DEDUCED (log 36). -/
def State.atomic (s : State) (i : Instr) (m : AmoArgs) (f : Nat → Nat → Nat → Option Nat) : Host.Outcome State Fault Refusal :=
  attempt i noDeadline (do
    let va := s.x m.xa
    let n := if m.wide then 8 else 4
    let v := { s.myView with inPhase := s.me.phase }
    seqCheck m.xa va n
    M.waitFor (s.revisioned v.task va.toNat || !waitsBefore m.order || s.released)
    seqOrder va.toNat n true
    M.waitFor (!s.parkedOn v va.toNat)
    let p ← seqXhard (translate v va.toNat true)
    modify (fun s => s.recallHome v va.toNat p)
    let home := s.homeView v va.toNat
    let old := leNat (← seqXhard (readVa home va.toNat n))
    match f (8 * n) old ((s.x m.xb).toNat % 2 ^ (8 * n)) with
    | some new => seqXhard (writeVa home va.toNat (leBytes n new))
    | none => pure ()
    -- an atomic that writes nothing leaves the escape bit
    modify (fun t =>
      let e := t.me.escape
      let t := t.atomicMark v va.toNat
      if (f (8 * n) old ((s.x m.xb).toNat % 2 ^ (8 * n))).isSome then t else t.setMe { t.me with escape := e })
    M.writeX m.xd (BitVec.ofInt 64 (toSigned (8 * n) old))
    M.retire 8) s

/-- ATADD (R254). -/
def execAtadd (m : AmoArgs) (s : State) : Host.Outcome State Fault Refusal :=
  s.atomic (.atadd m) m (fun w x y => some ((x + y) % 2 ^ w))

/-- ATSWAP (R254). -/
def execAtswap (m : AmoArgs) (s : State) : Host.Outcome State Fault Refusal :=
  s.atomic (.atswap m) m (fun _ _ y => some y)

/-- ATAND (R254). -/
def execAtand (m : AmoArgs) (s : State) : Host.Outcome State Fault Refusal :=
  s.atomic (.atand m) m (fun _ x y => some (x &&& y))

/-- ATOR (R254). -/
def execAtor (m : AmoArgs) (s : State) : Host.Outcome State Fault Refusal :=
  s.atomic (.ator m) m (fun _ x y => some (x ||| y))

/-- ATXOR (R254). -/
def execAtxor (m : AmoArgs) (s : State) : Host.Outcome State Fault Refusal :=
  s.atomic (.atxor m) m (fun _ x y => some (x ^^^ y))

/-- ATMIN (R254). -/
def execAtmin (m : AmoArgs) (s : State) : Host.Outcome State Fault Refusal :=
  s.atomic (.atmin m) m (fun w x y => some (pickInt w true false x y))

/-- ATMAX (R254). -/
def execAtmax (m : AmoArgs) (s : State) : Host.Outcome State Fault Refusal :=
  s.atomic (.atmax m) m (fun w x y => some (pickInt w true true x y))

/-- ATMINU (R254). -/
def execAtminu (m : AmoArgs) (s : State) : Host.Outcome State Fault Refusal :=
  s.atomic (.atminu m) m (fun w x y => some (pickInt w false false x y))

/-- ATMAXU (R254). -/
def execAtmaxu (m : AmoArgs) (s : State) : Host.Outcome State Fault Refusal :=
  s.atomic (.atmaxu m) m (fun w x y => some (pickInt w false true x y))

/-- ATFMAX (R254, R255). -/
def execAtfmax (m : AmoArgs) (s : State) : Host.Outcome State Fault Refusal :=
  s.atomic (.atfmax m) m (fun _ x y => some (atFmax x y))

/-- ATFADD (R254, R255). -/
def execAtfadd (m : AmoArgs) (s : State) : Host.Outcome State Fault Refusal :=
  s.atomic (.atfadd m) m (fun _ x y => some (atFadd x y))

/-- CAS (R254): a failing CAS writes nothing. -/
def execCas (m : AmoArgs) (xc : XReg) (s : State) : Host.Outcome State Fault Refusal :=
  s.atomic (.cas m xc) m (fun w x y => if x = (s.x xc).toNat % 2 ^ w then some y else none)

end Sys2Proof.Machine
end

