-- ==== Sys2Proof/Machine/Superstep.lean ====
section
/-! DEFINITION. Supersteps: their tasks are made ready, and their revisions are joined (R16, R18, R23, R25,
R26, R31, R32, R44). -/

namespace Sys2Proof.Machine

/-! ## SUPERSTEP_START (R16, R23, R25) -/

/-- The task of a grid point. -/
def State.gridTask (s : State) (l : Launch) (i : Nat) : Task :=
  let t := Task.make s.nextId l.id (w64 i) l.step l.req.code l.args s.time
  let die := dieOfTask l.levels i
  { t with die := die, core := if l.req.det then s.detPlace l die i else none }

/-- The tasks of a superstep become ready in ascending index. -/
def State.startTasks (s : State) (l : Launch) : State :=
  (List.range (gridSize l.levels)).foldl (fun (s : State) i =>
    let t := s.gridTask l i
    ({ s with nextId := s.nextId + 1 }).makeReady l t) s

/-- SUPERSTEP_START (R25). -/
def execSuperstepStart (l : Nat) (s : State) : Host.Outcome State Fault Refusal :=
  match s.launch? l with
  | none => .next s
  | some x => s.when (x.phase == .waiting && x.ts.toNat ≤ s.time.toNat) ((s.setLaunch { x with phase := .computing }).startTasks x)

/-! ## SUPERSTEP_JOIN (R25, R31, R32) -/

/-- The tasks of a launch. -/
def State.tasksOf (s : State) (l : Nat) : List Task := s.tasks.filter (fun t => t.launch == l)

/-- The barrier: every task's context has been freed (R25). -/
def State.barrier (s : State) (l : Launch) : Bool :=
  l.phase == .computing && (s.tasksOf l.id).all Task.hasEnded

/-- The tasks whose revisions are folded, in ascending task index. -/
def State.folded (s : State) (l : Nat) : List Task :=
  sortBy (fun a b => taskIndex a.word ≤ taskIndex b.word) ((s.tasksOf l).filter (fun t => t.depth == 0 && t.keeps))

/-- One task's revision is folded into the launch state; `a` is the state as the join found it.
DEDUCED (log 51). -/
def foldTask (a : State) (l : Launch) (t : Task) : X Unit := do
  let cs ← mergeAll a (launchTarget l.die.toNat) l.regions [] t.rev
  modify (fun s =>
    (cs.foldl (fun (s : State) q => s.raise l.die.toNat (s.taskRec t .logged srcMerge (mergeConflict q.1 q.2))) s).countConflicts
      l.id cs.length)

/-- Every revision is folded. -/
def foldAll (l : Launch) : X Unit := do
  let a ← get
  (a.folded l.id).forM (foldTask a l)

/-- The tasks of the superstep are no more, and what their revisions held is freed; a killed one stays, outside every
join, while a job of it goes on. DEDUCED (log 49). -/
def State.endTasks (s : State) (l : Launch) : State :=
  ((s.tasksOf l.id).filter (fun t => !s.hasJobs t.id)).foldl (fun (s : State) t => s.dropTask t.id) s

/-- The next superstep's time is fixed, or the launch is done. -/
def Launch.advance (l : Launch) (now : Word) : Launch :=
  let l := { l with step := l.step + 1, steps := l.steps + 1 }
  if l.step < superstepsOf l.levels then
    { l with phase := .waiting, ts := w64 (nextMultiple now.toNat (quantumOf l.levels)) }
  else { l with phase := .completing l.result }

/-- The join of a launch's superstep. -/
def State.joinStep (s : State) (l : Launch) : Host.Outcome State Fault Refusal :=
  match (foldAll l).run s with
  | .ok (_, s) =>
    let s := s.endTasks l
    (match s.launch? l.id with
    | some l => (s.setLaunch (l.advance s.time)).thenComplete l.id
    | none => .next s)
  | .error (.stop f) => .fault f
  | .error _ => .next s

/-- SUPERSTEP_JOIN (R25, R32, R44): the join, and the completion of a launch whose last superstep has joined. -/
def execSuperstepJoin (l : Nat) (s : State) : Host.Outcome State Fault Refusal :=
  match s.launch? l with
  | none => .next s
  | some x => if s.barrier x then s.joinStep x else s.thenComplete l

end Sys2Proof.Machine
end

