-- ==== Sys2Proof/Machine/Schedule.lean ====
section
/-! DEFINITION. The dispatcher: which ready task goes where, aging, pre-emption for a more urgent task, and
the power limit of deterministic launches (R20 to R24, R151, R193, R356 to R359, R363, R365, R366, R408). -/

namespace Sys2Proof.Machine

/-! ## What may be dispatched (R356, R362) -/

/-- A task that waits for a context. -/
def Task.waits (t : Task) : Bool :=
  match t.phase with
  | .ready => true
  | .saved v => !v.held
  | _ => false

def Task.save? (t : Task) : Option Saved := match t.phase with | .saved v => some v | _ => none

/-- A core that a task of a launch may be placed on (R22, R24, R151, R365). DEDUCED (log 54). -/
def State.allows (s : State) (l : Launch) (t : Task) (c : Nat) : Bool :=
  let core := s.core c
  c < 1024 && !core.disabled && requestBanks l.req.rooms ≤ core.goodBanks && onDie t.die c &&
    (if l.req.det then
      (match t.phase with
      | .saved v => v.fromCore == c
      | _ => t.core == some c)
    else t.eligible.isEmpty || t.eligible.contains c)

/-- The other context of a core leaves room for a launch's task (R20). -/
def State.roomBeside (s : State) (l : Launch) (c : Nat) (k : Bool) : Bool :=
  let core := s.core c
  (core.ctx k).mode == .free && core.drain.isNone && !(core.ctx (!k)).stopping &&
    ((core.ctx (!k)).mode == .free ||
      (core.launch == some l.id && ((s.ctxTask c (!k)).map (fun t => t.launch)) == some l.id))

/-- The core state of a saved task can be put there (R365, R366). -/
def State.stateFits (s : State) (l : Launch) (t : Task) (c : Nat) : Bool :=
  (s.core c).launch == some l.id || t.save?.isNone ||
    (match s.coreSave l.id with | some (_, b) => s.canHold c b | none => true)

/-- The tasks that a core runs of a deterministic launch go in ascending task index (R24). -/
def State.inTurn (s : State) (l : Launch) (t : Task) : Bool :=
  !l.req.det || s.tasks.all (fun u => u.launch != t.launch || u.core != t.core || !u.waits || taskIndex t.word ≤ taskIndex u.word)

/-- A task may be placed on a context, its turn and its energy apart. -/
def State.canPlace (s : State) (t : Task) (c : Nat) (k : Bool) : Bool :=
  match s.launch? t.launch with
  | none => false
  | some l =>
    t.waits && s.allows l t c && s.roomBeside l c k && (t.slice.isSome || l.freeSlice.isSome) && s.stateFits l t c && s.inTurn l t

/-! ## Turns (R357) -/

def Task.effClass (t : Task) (l : Launch) : Nat := min 7 (l.req.cls + t.age)

/-- A class has dispatched its share of the round. DEDUCED (log 53). -/
def State.spent (s : State) (cls : Nat) : Bool := 2 ^ cls ≤ s.served[cls]?.getD 0

/-- The order in which waiting tasks are served. DEDUCED (log 53). -/
def State.urgency (s : State) (t : Task) : List Nat :=
  match s.launch? t.launch with
  | none => []
  | some l =>
    let e := t.effClass l
    [bit (s.spent e), 7 - e, l.turn, l.id, taskIndex t.word, t.id]

def State.ahead (s : State) (u t : Task) : Bool := u.id != t.id && keyLe (s.urgency u) (s.urgency t)

/-- What a task's dispatch takes from the bucket; nothing in deterministic mode (R358). -/
def State.dispatchCost (s : State) (t : Task) : Nat :=
  match s.launch? t.launch with
  | some l => if l.req.det then 0 else l.cost
  | none => 0
def State.affords (s : State) (t : Task) (c : Nat) : Bool := s.dispatchCost t ≤ (s.die (dieOf c)).bucket

/-- A task ahead of another one may be passed over: its estimate does not fit, the other's is smaller, and it
has not waited past 4,096 ticks (R358). DEDUCED (log 53). -/
def State.passable (s : State) (u t : Task) (c : Nat) : Bool :=
  !s.affords u c && s.dispatchCost t < s.dispatchCost u &&
    (match u.passed with | some w => s.time.toNat < w.toNat + 4096 | none => true)

/-- The tasks ahead of one for a context. -/
def State.rivals (s : State) (t : Task) (c : Nat) (k : Bool) : List Task :=
  s.tasks.filter (fun u => s.canPlace u c k && s.ahead u t)

/-- DISPATCH is enabled. -/
def State.dispatchable (s : State) (t : Task) (c : Nat) (k : Bool) : Bool :=
  s.canPlace t c k && s.affords t c && (s.rivals t c k).all (fun u => s.passable u t c)

/-! ## Placing -/

/-- The tasks passed over remember since when. -/
def State.markPassed (s : State) (us : List Task) : State :=
  { s with tasks := s.tasks.map (fun (u : Task) =>
      if us.any (fun v => v.id == u.id) && u.passed.isNone then { u with passed := some s.time } else u) }

/-- The round's account, and the launch's turn (R357). DEDUCED (log 53). -/
def State.countTurn (s : State) (l : Launch) (cls : Nat) : State :=
  let round : Vector Nat 8 := if s.spent cls then Vector.replicate 8 0 else s.served
  let s := { s with served := round.setIfInBounds cls (round[cls]?.getD 0 + 1), turns := s.turns + 1 }
  s.setLaunch { l with turn := s.turns }

/-- The room map that a task needs, and the core state that a save buffer holds for it (R20, R193, R365). -/
def State.readyCore (s : State) (l : Launch) (t : Task) (c : Nat) (k : Bool) : State :=
  if (s.core c).launch == some l.id then s
  else
    let s := s.setMap c l
    match t.save?, s.coreSave l.id with
    | some v, some (d, b) => s.restoreCore c d b v.context k
    | _, _ => s

/-- A ready task starts on a context. -/
def State.startTask (s : State) (l : Launch) (t : Task) (c : Nat) (k : Bool) : State :=
  let i := l.freeSlice.getD 0
  let (f, s) := s.draw
  let s := s.setLaunch (l.takeSlice i)
  let s := s.setTask { t with phase := .placed c k, slice := some i, passed := none, crowded := none, age := 0 }
  s.setCore c ((s.core c).occupy k (Context.start k l t i f))

/-- A saved task goes back to a context; a bad image discards it (R365, R408), and a page that moves is waited
for, from the state before its turn. DESIGN CHOICE (log 62). -/
def State.restoreTask (s before : State) (l : Launch) (t : Task) (v : Saved) (c : Nat) (k : Bool) : Host.Outcome State Fault Refusal :=
  match (readImage (sliceView t.id c) (l.sliceAt (t.slice.getD 0)) l.req.rooms v.halted).run s with
  | .ok (some e, s) =>
    let s := s.readyCore l t c k
    .next (s.putBack { t with passed := none, crowded := none, age := 0 } v e c k l.req.rooms)
  | .ok (none, s) => .next (s.discardSaved t)
  | .error .wait => .next before
  | .error (.stop f) => .fault f
  | .error _ => .next (s.discardSaved t)

/-- A task is taken for a context: the energy debited, the turn counted. -/
def State.takeTask (s : State) (l : Launch) (t : Task) (c : Nat) (k : Bool) : State :=
  let s := s.markPassed (s.rivals t c k)
  let s := s.countTurn l (t.effClass l)
  let d := s.die (dieOf c)
  s.setDie (dieOf c) { d with bucket := d.bucket - s.dispatchCost t }

/-- DISPATCH (R20 to R24, R356 to R358, R365). DESIGN CHOICE (log 4). -/
def execDispatch (task : Nat) (c : CoreNo) (k : Bool) (s : State) : Host.Outcome State Fault Refusal :=
  let n := c.toNat
  match s.task? task with
  | none => .next s
  | some t =>
    if !s.dispatchable t n k then .next s
    else
      match s.launch? t.launch with
      | none => .next s
      | some l =>
        let u := s.takeTask l t n k
        match u.task? task, u.launch? t.launch with
        | some t, some l =>
          (match t.phase with
          | .saved v => u.restoreTask s l t v n k
          | _ => .next ((u.readyCore l t n k).startTask l t n k))
        | _, _ => .next s

/-! ## Aging (R357) -/

/-- TASK_CLASS_AGE. -/
def execTaskClassAge (task : Nat) (s : State) : Host.Outcome State Fault Refusal :=
  match s.task? task with
  | none => .next s
  | some t =>
    match s.launch? t.launch with
    | none => .next s
    | some l => s.when (t.waits && l.req.cls + t.age < 7 && t.since.toNat + 65536 * (t.age + 1) ≤ s.time.toNat)
        (s.setTask { t with age := t.age + 1 })

/-! ## Pre-emption by the dispatcher (R359, R363) -/

/-- The class of the launch that a core runs, none for a core that runs none or a deterministic one.
DEDUCED (log 55). -/
def State.coreClass (s : State) (c : Nat) : Option Nat :=
  match (s.ctxLaunch c false).orElse (fun _ => s.ctxLaunch c true) with
  | some l => if l.req.det then none else some l.req.cls
  | none => none

/-- A core that may be pre-empted for a task. -/
def State.victim (s : State) (l : Launch) (t : Task) (c : Nat) : Bool :=
  s.allows l t c &&
    (match s.coreClass c with
    | some n => n + 2 ≤ t.effClass l
    | none => false)

/-- The core that the dispatcher takes: the lowest class, then the lowest number. DEDUCED (log 55). -/
def State.bestVictim (s : State) (l : Launch) (t : Task) : Option Nat :=
  ((sortBy keyLe (((List.range 1024).filter (s.victim l t)).map (fun c => [(s.coreClass c).getD 0, c]))).head?).bind (fun l => l[1]?)

/-- Both contexts can be saved now: none of them is exiting, every started entry and merge is complete, no room
moves, and no job uses the PAD. -/
def State.savable (s : State) (c : Nat) : Bool :=
  let core := s.core c
  core.drain.isNone && [false, true].all (fun k => !(core.ctx k).exited && (core.ctx k).settled && s.mergeDone c k) &&
    s.jobs.all (fun j => (j.reads ++ j.writes).all (fun r => r.padOf != some c)) &&
    s.conds.all (fun j => j.ranges.all (fun r => r.padOf != some c))

/-- A saved task becomes ready; where no core's good banks fit it any more, it is refused (R407).
DEDUCED (log 54, 60). -/
def State.becomeReady (s : State) (id : Nat) : State :=
  match s.task? id with
  | none => s
  | some t =>
    match s.launch? t.launch with
    | none => s
    | some l =>
      if (s.fitting l.req.rooms t.die).isEmpty then
        let d := (t.die.map (fun d => d.toNat)).getD l.die.toNat
        (s.raise l.die.toNat (s.taskRec t .halted srcDispatcher (lodgeRefused l.req.rooms d))).killTask id
      else s.setTask { t with since := s.time, age := 0, crowded := none, eligible := s.eligible l.req.rooms t.die }

/-- The core is saved whole (R363, R366), and its tasks become ready. -/
def State.preemptCore (s : State) (c : Nat) (frame : Nat) : State :=
  let l := (s.ctxLaunch c false).orElse (fun _ => s.ctxLaunch c true)
  let ids := ([false, true] : List Bool).filterMap (fun k => (s.ctx c k).task)
  let s := [false, true].foldl (fun (s : State) k => if (s.ctx c k).mode == .free then s else s.saveContext c k false) s
  let s := match l with
    | some l => s.saveCore c l.id l.req.tag frame
    | none => s
  ids.foldl (fun (s : State) id => s.becomeReady id) s

/-- A pre-emption request reaches both contexts of a core: each that holds a task stops at an instruction boundary
(R361); one that has issued EXIT goes on until it is freed (R41). -/
def Context.stopNow (x : Context) : Context := if x.mode == .free || x.exited then x else { x with stopping := true }
def Core.stopBoth (c : Core) : Core := { c with c0 := c.c0.stopNow, c1 := c.c1.stopNow }

/-- A TASKCMD PREEMPT of a context runs (R362). -/
def State.commanded (s : State) (c : Nat) (k : Bool) : Bool :=
  (List.range 4).any (fun d =>
    let v := (s.die d).taskcmd
    v.getLsbD 63 && (v.extractLsb' 0 10).toNat == c && v.getLsbD 10 == k)

/-- The dispatcher has asked a core's contexts to stop. DEDUCED (log 55). -/
def State.preempting (s : State) (c : Nat) : Bool :=
  ([false, true] : List Bool).any (fun k => (s.ctx c k).stopping && !s.commanded c k)

/-- A core that the dispatcher has stopped is saved once it may be, where its die's ring has a buffer. -/
def State.takeCore (s : State) (c : Nat) : State :=
  if s.preempting c && s.savable c then
    match s.ringTake (dieOf c) 3 with
    | some (f, t) => t.preemptCore c f
    | none => s
  else s

/-- A context that a task could take is free (R359). -/
def State.contextFree (s : State) (l : Launch) (t : Task) : Bool :=
  (if t.eligible.isEmpty || l.req.det then List.range 1024 else t.eligible).any (fun c =>
    (s.roomBeside l c false || s.roomBeside l c true) && s.allows l t c && s.stateFits l t c)

/-- A ready task notes since when no context that it could take has been free. DEDUCED (log 55). -/
def State.noteRoom (s : State) (t : Task) : Task :=
  match s.launch? t.launch with
  | some l =>
    if t.waits && (t.slice.isSome || l.freeSlice.isSome) then
      { t with crowded := if s.contextFree l t then none else some (t.crowded.getD s.time) }
    else { t with crowded := none }
  | none => t
def State.noteRooms (s : State) : State :=
  if s.tasks.any Task.waits then { s with tasks := s.tasks.map s.noteRoom } else s

/-- The dispatcher may pre-empt a core for a ready task: the task has waited 2^14 ticks with no free eligible context,
the core is the one that the dispatcher chooses, and a buffer is free (R359). -/
def State.mayPreempt (s : State) (l : Launch) (t : Task) (c : Nat) : Bool :=
  t.waits && (match t.crowded with | some w => w.toNat + 2 ^ 14 ≤ s.time.toNat | none => false) &&
    !s.contextFree l t && s.bestVictim l t == some c && (s.ringTake (dieOf c) 3).isSome

/-- DISPATCHER_PREEMPT (R359, R361, R363): the core's contexts stop, and the core is saved, at once where nothing that
they have started is incomplete. DEDUCED (log 55). -/
def execDispatcherPreempt (task : Nat) (c : CoreNo) (s : State) : Host.Outcome State Fault Refusal :=
  let n := c.toNat
  if s.preempting n then .next (s.takeCore n)
  else
    match (s.task? task).bind (fun t => (s.launch? t.launch).map (fun l => (l, t))) with
    | some (l, t) => s.when (s.mayPreempt l t n) ((s.setCore n (s.core n).stopBoth).takeCore n)
    | none => .next s

/-! ## DET_POWER (R358) -/

/-- DET_POWER (R406). -/
def detPowerTrap (uj : Nat) : Trap := { code := 0x0E, detail := w64 uj, grade := .same }

/-- The contexts of a die that hold tasks of deterministic launches. -/
def State.detContexts (s : State) (d : Nat) : List (Nat × Bool) :=
  ((List.range 256).flatMap (fun i => [(256 * d + i, false), (256 * d + i, true)])).filter (fun p =>
    match s.ctxLaunch p.1 p.2 with | some l => l.req.det | none => false)

/-- DET_POWER: a window of 1 µs in which a die has drawn more than 900 µJ. DEDUCED (log 55). -/
def execDetPower (d : DieNo) (uj : Nat) (s : State) : Host.Outcome State Fault Refusal :=
  if uj ≤ 900 then .next s
  else .next ((s.detContexts d.toNat).foldl (fun (s : State) p =>
    s.takeTrap p.1 p.2 .halted false srcDispatcher (s.ctx p.1 p.2).pc (detPowerTrap uj)) s)

end Sys2Proof.Machine
end

