-- ==== Sys2Proof/Machine/Records.lean ====
section
/-! DEFINITION. The die's fault queue: writing a record, its grade, and the watchdog (R403 to R405, R409 to
R412, R457). -/

namespace Sys2Proof.Machine

/-! ## Codes of the fields (R403) -/

def Grade.code : Grade → BitVec 8
  | .program => 0
  | .same => 1
  | .other => 2
  | .none => 3
  | .retire => 4
  | .status => 5
def RecStatus.code : RecStatus → BitVec 8
  | .halted => 0
  | .parked => 1
  | .recovered => 2
  | .replaced => 3
  | .logged => 4
  | .service => 5

/-- A record's 64 bytes. -/
def FaultRec.bytes (r : FaultRec) (d : Nat) (grade : Grade) (escalated : Bool) (seq : Word) : List Byte :=
  let flags : Nat := bit r.engine + 2 * bit escalated + 4 * bit r.afterExit
  [r.code, grade.code, r.status.code, BitVec.ofNat 8 flags, r.source, BitVec.ofNat 8 d, r.context, 0] ++
    (leBytes 2 r.core.toNat ++ leBytes 2 0 ++ leBytes 4 r.tag.toNat ++ leBytes 8 r.task.toNat ++ leBytes 8 r.epc.toNat ++
      leBytes 8 r.detail.toNat ++ leBytes 8 r.time.toNat ++ leBytes 8 seq.toNat ++ leBytes 4 r.aux.toNat ++ leBytes 4 0 : List Byte)

/-! ## Grades (R411, R412, R460) -/

/-- A record of the dispatcher's own accesses, which is never escalated. -/
def FaultRec.ofDispatcher (r : FaultRec) : Bool :=
  r.source == srcDispatcher && r.status == .logged && (r.code == 5 || r.code == 6 || r.code == 7)

/-- The second mismatch of a unit of a core within 2^40 ticks. -/
def State.katLimit (s : State) (d : Nat) (r : FaultRec) : Bool :=
  r.code == 0x0F &&
    2 ≤ ((s.die d).katLog.filter (fun m => m.1 == r.core.toNat && m.2.1 == r.aux.getLsbD 8 && m.2.2.toNat ≤ r.time.toNat &&
      r.time.toNat < m.2.2.toNat + 2 ^ 40)).length

/-- Banks of a die that have left or are to leave. DEDUCED (log 67). -/
def State.banksGone (s : State) (d : Nat) : Nat :=
  (s.die d).banksOut +
    ((s.cores.filter (fun c => dieOf c.1 == d)).map (fun c => popCount 48 (c.2.good &&& c.2.leaving).toNat)).sum
def State.bankLimit (s : State) (d : Nat) (r : FaultRec) : Bool := r.code == 0x1B && 64 < s.banksGone d

/-- The stacks with more than 1,024 uncorrectable events of which no record has told. -/
def State.stacksOver (s : State) (st : Nat) : List Nat :=
  ((List.range 4).filter (fun e => 1024 < ((s.die e).ecc[st]?.getD (0, 0)).2.toNat &&
    !(s.hbmLimit[3 * e + (st - 3)]?.getD true))).map (fun e => 3 * e + (st - 3))
def State.hbmOver (s : State) (r : FaultRec) : List Nat :=
  let st := r.aux.toNat
  if r.code == 0x07 && 3 ≤ st && st ≤ 5 then s.stacksOver st else []

/-- The third uncorrectable error of structure 8 or 10 of a die within 2^40 ticks. -/
def State.softLimit (s : State) (d : Nat) (r : FaultRec) : Bool :=
  r.code == 0x07 && (r.aux == 8 || r.aux == 10) &&
    3 ≤ ((s.die d).softLog.filter (fun t => t.toNat ≤ r.time.toNat && r.time.toNat < t.toNat + 2 ^ 40)).length

/-- The record brings the module to a limit of R412. DEDUCED (log 68). -/
def State.retires (s : State) (d : Nat) (r : FaultRec) : Bool :=
  !r.ofDispatcher && (s.katLimit d r || s.bankLimit d r || s.softLimit d r || !(s.hbmOver r).isEmpty)

/-- The escape bit of a record's task. DEDUCED (log 15). -/
def State.escaped (s : State) (r : FaultRec) : Bool :=
  r.escape ||
    (match r.who.bind s.task? with
    | some t => (match t.phase with
      | .placed c k => (s.ctx c k).task == r.who && (s.ctx c k).escape
      | .saved v => v.ctx.escape
      | _ => t.escape)
    | none => false)

/-- The grade that a record is written with, and whether it was escalated. -/
def State.finalGrade (s : State) (d : Nat) (r : FaultRec) : Grade × Bool :=
  if s.retires d r then (.retire, true)
  else if (r.status == .halted || r.status == .parked) && (r.grade == .program || r.grade == .same || r.grade == .other) && s.escaped r then
    (.none, true)
  else (r.grade, false)

/-! ## FAULT_RECORD_WRITE (R405) -/

/-- Capacities that R397 allows; 0 and any other value leave no room. -/
def legalFq (n : Nat) : Bool := 64 ≤ n && n == 2 ^ Nat.log2 n
def Die.fqRoom (x : Die) : Bool :=
  legalFq x.fqCapacity.toNat && (x.fqTail.toNat + 2 ^ 64 - x.fqHead.toNat) % 2 ^ 64 < x.fqCapacity.toNat

/-- A record that waits for room. -/
def FaultRec.keeps (r : FaultRec) : Bool := r.status == .halted || r.status == .parked || r.status == .service

/-- The launch remembers the code of its first record (R44). DEDUCED (log 14). -/
def State.noteFirst (s : State) (r : FaultRec) : State :=
  match r.launch.bind s.launch? with
  | some l => if l.firstCode = 0 then s.setLaunch { l with firstCode := r.code } else s
  | none => s

/-- The module retires (R412, R457). -/
def State.retireModule (s : State) : State :=
  { s with modState := .retire, deadline := some (s.deadline.getD (s.time + w64 (2 ^ 30))) }

def removeAt (n : Nat) (l : List α) : List α := l.take n ++ l.drop (n + 1)

/-- A service record reaches the die's core of the control complex, which goes on if HALT has stopped it (R180).
DEDUCED (log 103). -/
def State.wakeControl (s : State) (d : Nat) (r : FaultRec) : State :=
  if r.status == .service then
    let c := s.core (1024 + d)
    s.setCore (1024 + d) (c.setCtx c.active c.me.wake)
  else s

/-- One record is written at the tail. -/
def State.writeRecord (s : State) (d : Nat) (r : FaultRec) : State :=
  let x := s.die d
  let (g, esc) := s.finalGrade d r
  let s := (s.hbmOver r).foldl (fun (s : State) n => { s with hbmLimit := s.hbmLimit.setIfInBounds n true }) s
  let at_ := x.fqBase.toNat + 64 * (x.fqTail.toNat % x.fqCapacity.toNat)
  let s := s.storeAt { far := false, addr := at_, home := d } (r.bytes d g esc x.nextSeq)
  let s := s.setDie d { s.die d with fqTail := x.fqTail + 1, nextSeq := x.nextSeq + 1 }
  let s := { (s.noteFirst r).wakeControl d r with recordsWritten := s.recordsWritten + 1 }
  if g == .retire then s.retireModule else s

/-- The record that comes next: the oldest where there is room, else the oldest that does not wait.
DEDUCED (log 14). -/
def Die.nextRecord (x : Die) : Option (Nat × FaultRec) :=
  match x.pending with
  | [] => none
  | r :: _ =>
    if x.fqRoom then some (0, r)
    else ((x.pending.zipIdx.find? (fun p => !p.1.keeps)).map (fun p => (p.2, p.1)))

/-- FAULT_RECORD_WRITE (R403 to R405, R410 to R412): a record is written, or dropped where there is no room;
launches that waited for it complete. DEDUCED (log 14). -/
def execFaultRecordWrite (d : DieNo) (s : State) : Host.Outcome State Fault Refusal :=
  let n := d.toNat
  let x := s.die n
  match x.nextRecord with
  | none => .next s
  | some (i, r) =>
    let s := s.setDie n { x with pending := removeAt i x.pending }
    let x := s.die n
    let s := if x.fqRoom then s.writeRecord n r
      else s.setDie n { x with dropped := x.dropped + 1, nextSeq := x.nextSeq + 1 }
    s.completeAll (r.launch.toList)

/-! ## WATCHDOG (R409) -/

def watchdogTrap (src : BitVec 8) : Trap := { code := 0x1A, detail := src.zeroExtend 64, grade := .other }

/-- The queue whose engine has a source. -/
def sourceQueue (src : BitVec 8) : Option QName :=
  if src = srcAccess then some .lq else if src = srcCq then some .cq else if src = srcStore then some .sq else none

/-- A time of last progress lies 2^30 ticks back. -/
def State.stale (s : State) (moved : Word) : Bool := moved.toNat + 2 ^ 30 ≤ s.time.toNat

/-- An entry that has started and not completed; one that its phase holds, or whose stores the replay queue has, does
not wait for its engine. DEDUCED (log 68). -/
def Entry.working (e : Entry) : Bool := !e.unstarted && !e.done && (match e.phase with | .stores [] => false | _ => true)

/-- The oldest entry of a context's queue that has made no progress. -/
def State.stuckEntry (s : State) (c : Nat) (k : Bool) (q : QName) : Option Entry :=
  ((s.ctx c k).queue q).find? (fun e => e.working && s.stale e.moved)

/-- The oldest job of a context in the engine of a source that has made no progress. -/
def State.stuckJob (s : State) (c : Nat) (k : Bool) (src : BitVec 8) : Option Job :=
  s.jobs.find? (fun j => s.mine c k j && j.kind.engine.faultSrc == src && (j.phase == .started || j.phase == .remote) && s.stale j.moved)

/-- The condensation job of a context that has made no progress. -/
def State.stuckCond (s : State) (c : Nat) (k : Bool) : Option (Nat × CondJob) :=
  let n := quadOf c
  ((s.quad n).cond.find? (fun j => s.mineCond c k j && j.started && j.parked.isNone && s.stale j.moved)).map (fun j => (n, j))

/-- The die's count of its watchdog's records. -/
def State.countDog (s : State) (d : Nat) : State :=
  let x := s.die d
  s.setDie d { x with watchdogs := x.watchdogs + 1 }

/-- A merge of a context's JOIN has made no progress. -/
def State.stuckMerge (s : State) (c : Nat) (k : Bool) : Bool :=
  match (s.ctx c k).merge with
  | some (since, _) => !s.mergeDone c k && s.stale since
  | none => false

/-- WATCHDOG (R409): the unit that has made no progress for 2^30 ticks abandons its work, and the task halts.
DEDUCED (log 68). -/
def execWatchdog (c : CoreNo) (k : Bool) (src : BitVec 8) (s : State) : Host.Outcome State Fault Refusal :=
  let n := c.toNat
  let x := s.ctx n k
  match sourceQueue src with
  | some q =>
    (match s.stuckEntry n k q with
    | some e =>
      let y := x.setQueue q ((x.queue q).filter (fun f => f.seq != e.seq))
      .next (((s.countDog (dieOf n)).setCtx n k y).takeTrap n k .halted true src x.pc (watchdogTrap src))
    | none => .next s)
  | none =>
    if src = srcCondense then
      match s.stuckCond n k with
      | some (q, j) => .next (((s.countDog (dieOf n)).condEnd q j 1 0x1A 0).takeTrap n k .halted true src x.pc (watchdogTrap src))
      | none => .next s
    else if src = srcMerge then
      s.when (s.stuckMerge n k)
        (((s.countDog (dieOf n)).setCtx n k { x with merge := none }).takeTrap n k .halted false src x.pc (watchdogTrap src))
    else
      match s.stuckJob n k src with
      | some j => .next ((s.countDog (dieOf n)).faultJob j (watchdogTrap src))
      | none => .next s

end Sys2Proof.Machine
end

