-- ==== Sys2Proof/Machine/Command.lean ====
section
/-! DEFINITION. Supervisor commands: TASKCMD, TXCMD, the page-table roots, and the registers of the
supervisor's windows (R43, R150, R151, R229, R236, R238, R347, R361, R362, R397, R408, R442, R446, R452). -/

namespace Sys2Proof.Machine

/-! ## TASKCMD (R362) -/

/-- The register as a command leaves it. -/
def taskcmdWord (busy : Bool) (result cmd : Nat) (c : CoreNo) (k : Bool) : Word :=
  w64 (bit busy * 2 ^ 63 + result * 2 ^ 20 + cmd * 2 ^ 16 + bit k * 2 ^ 10 + c.toNat)

def State.setTaskcmd (s : State) (d : DieNo) (v : Word) : State := s.setDie d.toNat { s.die d.toNat with taskcmd := v }

/-- A command that runs on the die, so that a write is ignored. -/
def State.taskBusy (s : State) (d : DieNo) : Bool := (s.die d.toNat).taskcmd.getLsbD 63

/-- A command that is refused, or that takes effect at once. -/
def State.command (s : State) (d : DieNo) (cmd : Nat) (c : CoreNo) (k : Bool) (refused : Bool) (t : State) :
    Host.Outcome State Fault Refusal :=
  if s.taskBusy d then .next s
  else if refused then .next (s.setTaskcmd d (taskcmdWord false 1 cmd c k))
  else .next (t.setTaskcmd d (taskcmdWord false 0 cmd c k))

/-! ### RESUME and RESTART_PHASE -/

/-- An entry whose fault halted the task starts again, with the values that it took at routing but for the core's NF
registers as they now stand, so that an SRW to one of them takes its cause away (R282). DEDUCED (log 18). -/
def Entry.again (c : Core) (e : Entry) : Entry :=
  match e.phase with
  | .faulted => { e with phase := .waiting, taken := { e.taken with nf := c.nf } }
  | .faultedStores l => { e with phase := .stores l }
  | _ => e

/-- A halted context goes on at an address, or goes on exiting where its task has issued EXIT (R42, R43). An expiry of the
step counter that was due when the context halted is over: it had halted before that instruction for another cause.
DESIGN CHOICE (log 84). -/
def Context.goOn (x : Context) (c : Core) (pc : Word) : Context :=
  { x with mode := if x.exited then .exiting else .live, pc := pc, hold := none, stepDue := false,
           lq := x.lq.map (Entry.again c), cq := x.cq.map (Entry.again c), sq := x.sq.map (Entry.again c) }

/-- TASKCMD RESUME (R362). -/
def execTaskcmdResume (d : DieNo) (c : CoreNo) (k : Bool) (s : State) : Host.Outcome State Fault Refusal :=
  let x := s.ctx c.toNat k
  s.command d 1 c k (x.mode != .halted) (s.setCtx c.toNat k (x.goOn (s.core c.toNat) x.epc))

/-- RESTART_PHASE's effect: steps 1 to 4 of the cancellation, then the resumption after the restart point; R362 has it
write no record. -/
def State.restartPhase (s : State) (c : Nat) (k : Bool) : State :=
  let s := s.cancelPhase c k
  let x := s.ctx c k
  s.setCtx c k (x.goOn (s.core c) (x.restart + 4))

/-- TASKCMD RESTART_PHASE (R212, R362). DEDUCED (log 60). -/
def execTaskcmdRestartPhase (d : DieNo) (c : CoreNo) (k : Bool) (s : State) : Host.Outcome State Fault Refusal :=
  let x := s.ctx c.toNat k
  s.command d 2 c k (x.mode != .halted || !x.mayCancel true) (s.restartPhase c.toNat k)

/-! ### KILL -/

/-- What a context holds is killed. -/
def State.killHeld (s : State) (c : Nat) (k : Bool) : State :=
  match (s.ctx c k).task with
  | some id => s.killTask id
  | none => s.killContext c k

/-- TASKCMD KILL (R43, R362). -/
def execTaskcmdKill (d : DieNo) (c : CoreNo) (k : Bool) (s : State) : Host.Outcome State Fault Refusal :=
  s.command d 3 c k ((s.ctx c.toNat k).mode == .free) (s.killHeld c.toNat k)

/-! ### PREEMPT and RESTORE -/

/-- The task that an earlier PREEMPT of a context holds. -/
def State.heldTask (s : State) (c : Nat) (k : Bool) : Option Task :=
  s.tasks.find? (fun t => match t.phase with
    | .saved v => v.held && v.fromCore == c && v.context == k
    | _ => false)

/-- A PREEMPT that runs goes as far as it may: the context stops (R361); one that has been freed is not saved, one that
has issued EXIT, or has started entries or a merge, is waited for, and any other is saved and freed (R41, R272, R364).
DEDUCED (log 22, 60). -/
def State.preemptTry (s : State) (d : DieNo) (c : CoreNo) (k : Bool) : State :=
  let n := c.toNat
  let x := s.ctx n k
  let done (s : State) : State := s.setTaskcmd d (taskcmdWord false 0 4 c k)
  if x.mode == .free then done s
  else if x.exited || !x.settled || !s.mergeDone n k then
    (s.setCtx n k x.stopNow).setTaskcmd d (taskcmdWord true 0 4 c k)
  else
    let base := match s.ctxTask n k, s.ctxLaunch n k with
      | some t, some l => w64 (l.sliceAt (t.slice.getD 0))
      | _, _ => 0
    let s := s.saveContext n k true
    done (s.setDie d.toNat { s.die d.toNat with sliceBase := base })

/-- TASKCMD PREEMPT (R361, R362, R364). DEDUCED (log 60). -/
def execTaskcmdPreempt (d : DieNo) (c : CoreNo) (k : Bool) (s : State) : Host.Outcome State Fault Refusal :=
  let x := s.ctx c.toNat k
  if s.taskBusy d then .next s
  else if x.mode == .free || x.task.isNone || (s.heldTask c.toNat k).isSome then
    .next (s.setTaskcmd d (taskcmdWord false 1 4 c k))
  else .next (s.preemptTry d c k)

/-- A PREEMPT that still waits on a die, taken up again. -/
def State.retryPreempt (s : State) (d : DieNo) : State :=
  let v := (s.die d.toNat).taskcmd
  if v.getLsbD 63 then s.preemptTry d (v.extractLsb' 0 10) (v.getLsbD 10) else s

/-- A held task is released. -/
def State.releaseHeld (s : State) (t : Task) : State :=
  match t.phase with
  | .saved v => (s.setTask { t with phase := .saved { v with held := false } }).becomeReady t.id
  | _ => s

/-- TASKCMD RESTORE (R362). -/
def execTaskcmdRestore (d : DieNo) (c : CoreNo) (k : Bool) (s : State) : Host.Outcome State Fault Refusal :=
  match s.heldTask c.toNat k with
  | some t => s.command d 5 c k false (s.releaseHeld t)
  | none => s.command d 5 c k true s

/-! ### CANCEL (R43, R44, R362, R408) -/

/-- A task that has held no context and is not saved. -/
def Task.untouched (t : Task) : Bool := match t.phase with | .ready => true | _ => false

/-- Tasks made ready and never dispatched are dropped: they count neither as completed nor as faulted. -/
def State.dropReady (s : State) (l : Nat) : State :=
  ((s.tasksOf l).filter Task.untouched).foldl (fun (s : State) t => s.dropTask t.id) s

/-- A task of a cancelled launch: a saved one is discarded, a resident one killed. -/
def State.cancelTask (s : State) (id : Nat) : State :=
  match s.task? id with
  | none => s
  | some t =>
    match t.phase with
    | .saved _ => s.discardSaved t
    | .placed .. => s.killTask id
    | _ => s

/-- A launch's tasks, children before their parents. DEDUCED (log 59). -/
def State.deepestFirst (s : State) (l : Nat) : List Nat :=
  (sortBy (fun (a b : Task) => b.depth ≤ a.depth) (s.tasksOf l)).map (fun t => t.id)

/-- DEDUCED (log 59). -/
def State.cancelLaunch (s : State) (l : Nat) : State :=
  let s := s.dropReady l
  let s := (s.deepestFirst l).foldl (fun (s : State) id => s.cancelTask id) s
  s.beginCompletion l 4

/-- The launch whose tasks a core holds. -/
def State.coreLaunch (s : State) (c : Nat) : Option Launch := (s.ctxLaunch c false).orElse (fun _ => s.ctxLaunch c true)

/-- TASKCMD CANCEL (R362). -/
def execTaskcmdCancel (d : DieNo) (c : CoreNo) (k : Bool) (s : State) : Host.Outcome State Fault Refusal :=
  match s.coreLaunch c.toNat with
  | none => s.command d 6 c k true s
  | some l =>
    if s.taskBusy d then .next s
    else ((s.cancelLaunch l.id).setTaskcmd d (taskcmdWord false 0 6 c k)).thenComplete l.id

/-! ## TXCMD (R229) -/

def State.txBusy (s : State) (d : DieNo) : Bool := (s.die d.toNat).txcmd.getLsbD 63
def State.setTxcmd (s : State) (d : DieNo) (v : Word) : State := s.setDie d.toNat { s.die d.toNat with txcmd := v }

/-- 64 KiB pages of a size code. -/
def txPages (size : BitVec 2) : Nat := match size.toNat with | 0 => 1 | 1 => 32 | _ => 16384

/-- TXCMD on a page (R229). DEDUCED (log 61). -/
def execTxcmdDropPage (d : DieNo) (resume : Bool) (size : BitVec 2) (page : BitVec 41) (s : State) : Host.Outcome State Fault Refusal :=
  if s.txBusy d || size = 3 then .next s
  else
    let n := txPages size
    let lo := page.toNat / n * n
    let s := (s.tlbDrop false lo n).tlbDrop true lo n
    .next (s.setTxcmd d (w64 (2 ^ 63 + bit resume * 2 ^ 61 + size.toNat * 2 ^ 59 + page.toNat * 2 ^ 16)))

/-- TXCMD with ALL (R229): the size and page fields, which it ignores, stay as they were written. -/
def execTxcmdDropAll (d : DieNo) (resume : Bool) (s : State) : Host.Outcome State Fault Refusal :=
  if s.txBusy d then .next s
  else
    let kept : Word := (s.die d.toNat).txcmd &&& w64 (3 * 2 ^ 59 + (2 ^ 41 - 1) * 2 ^ 16)
    let s := { s with tlb := s.tlb.filter (fun t => t.leaf.getLsbD 63) }
    .next (s.setTxcmd d (w64 (2 ^ 63 + 2 ^ 62 + bit resume * 2 ^ 61) ||| kept))

/-- The addresses that a command covers. -/
def txRange (v : Word) : Nat × Nat :=
  if v.getLsbD 62 then (0, 2 ^ 64)
  else
    let n := txPages (v.extractLsb' 59 2) * 65536
    let a := bitsOf v.toNat 56 16 * 65536 / n * n
    (a, a + n)

/-- TXCMD_COMPLETE (R229): BUSY falls, and what RESUME covers is due for another try. DEDUCED (log 61). -/
def execTxcmdComplete (d : DieNo) (s : State) : Host.Outcome State Fault Refusal :=
  let v := (s.die d.toNat).txcmd
  let s' := s.setTxcmd d (v &&& 0x7FFFFFFFFFFFFFFF)
  s.when (v.getLsbD 63) (if v.getLsbD 61 then { s' with txResume := s'.txResume ++ [txRange v] } else s')

/-! ### RESUME (R236, R238, R347) -/

def covers (r : Nat × Nat) (va : Nat) : Bool := r.1 ≤ va && va < r.2

/-- A stalled load goes on at its element. -/
def Entry.unstall (r : Nat × Nat) (now : Word) (e : Entry) : Entry :=
  match e.phase with
  | .stalled va => if covers r va then { e with phase := .waiting, moved := now } else e
  | _ => e
def Context.unstall (x : Context) (r : Nat × Nat) (now : Word) : Context := { x with lq := x.lq.map (Entry.unstall r now) }

/-- One parked store is tried again, with only the parked stores before it in the queue; what of it stays
parked. -/
def State.retryStore (s : State) (c : Nat) (p : Parked) : Except Fault (Option Parked × State) :=
  let v : View := { s.view c p.context with stream := some (.store c), inPhase := p.inPhase }
  match performAll v p.seq p.inPhase p.stores s with
  | .all s => .ok (none, s)
  | .behind rest s => .ok (some { p with stores := rest }, s)
  | .stopped _ (.stop f) _ => .error f
  | .stopped rest _ s => .ok (some { p with stores := rest }, s)

/-- A core's parked stores in a range are tried again, oldest first. -/
def State.retryFrom (s : State) (c : Nat) (r : Nat × Nat) : List Parked → Except Fault State
  | [] => .ok s
  | p :: t =>
    let keep (p : Parked) (s : State) : State := s.setCore c { s.core c with replay := (s.core c).replay ++ [p] }
    if covers r (firstVa p.stores) then
      match s.retryStore c p with
      | .ok (some p, s) => (keep p s).retryFrom c r t
      | .ok (none, s) => s.retryFrom c r t
      | .error f => .error f
    else (keep p s).retryFrom c r t

def State.retryCore (s : State) (c : Nat) (r : Nat × Nat) : Except Fault State :=
  let l := (s.core c).replay
  (s.setCore c { s.core c with replay := [] }).retryFrom c r l

/-- A write to a LIVE location (R411). -/
def State.isLive (s : State) (task : Option Nat) (e : ElemStore) : Bool :=
  match e.globalOf with
  | some a => !s.revisioned task a
  | none => false

/-- One element store of a parked store of a saved context: its phase holds it, or it is performed, and sets the saved
context's escape bit where it writes a LIVE location (R211, R411). -/
def savedElem (v : View) (p : Parked) (x : Context) (e : ElemStore) : X Context := do
  if p.inPhase then
    let _ ← translate v (e.globalOf.getD 0) true
    pure (x.holdElem p.seq e)
  else
    performStore v e
    pure { x with escape := x.escape || (← get).isLive v.task e }

/-- A parked store of a saved context is tried again, behind those parked before it that stay. -/
def performSaved (v : View) (kept : List Parked) (p : Parked) : List ElemStore → Context → State → Context × Done
  | [], x, s => (x, .all s)
  | e :: t, x, s =>
    if kept.any (fun p => p.stores.any (fun f => (e.globalOf).any (fun a => parkedOn f a))) then (x, .behind (e :: t) s)
    else
      match (savedElem v p x e).run s with
      | .ok (x, s) => performSaved v kept p t x s
      | .error err => (x, .stopped (e :: t) err s)

/-- The parked stores of a saved context, oldest first: those that stay, and the state. DEDUCED (log 25). -/
def retrySaved (v : View) (r : Nat × Nat) :
    List Parked → List Parked → Context → State → Except Fault (List Parked × Context × State)
  | kept, [], x, s => .ok (kept, x, s)
  | kept, p :: t, x, s =>
    if covers r (firstVa p.stores) then
      match performSaved v kept p p.stores x s with
      | (x, .all s) => retrySaved v r kept t x s
      | (x, .behind rest s) => retrySaved v r (kept ++ [({ p with stores := rest } : Parked)]) t x s
      | (_, .stopped _ (.stop f) _) => .error f
      | (x, .stopped rest _ s) => retrySaved v r (kept ++ [({ p with stores := rest } : Parked)]) t x s
    else retrySaved v r (kept ++ [p]) t x s

/-- The parked stores that a task's saved context took with it (R238). DEDUCED (log 25). -/
def State.retryTask (s : State) (r : Nat × Nat) (id : Nat) : Except Fault State :=
  match s.task? id with
  | none => .ok s
  | some t =>
    match t.phase with
    | .saved v =>
      if v.parked.isEmpty then .ok s
      else
        match retrySaved (jobView (some id) (dieOf v.fromCore)) r [] v.parked v.ctx s with
        | .error f => .error f
        | .ok (kept, x, s) =>
          (match s.task? id with
          | some t => .ok (s.setTask { t with phase := .saved { v with parked := kept, ctx := x } })
          | none => .ok s)
    | _ => .ok s

/-- Halted access units and parked jobs of a range go on. -/
def State.unpark (s : State) (r : Nat × Nat) : State :=
  { s with
    cores := s.cores.map (fun c => (c.1, { c.2 with c0 := c.2.c0.unstall r s.time, c1 := c.2.c1.unstall r s.time })),
    tasks := s.tasks.map (fun (t : Task) => match t.phase with
      | .saved v => { t with phase := .saved { v with ctx := v.ctx.unstall r s.time } }
      | _ => t),
    jobs := s.jobs.map (fun j => match j.phase with
      | .parked va => if covers r va then { j with phase := .started, moved := s.time } else j
      | _ => j),
    quads := s.quads.map (fun q => (q.1, { q.2 with cond := q.2.cond.map (fun (j : CondJob) =>
      match j.parked with
      | some va => if covers r va then { j with parked := none, moved := s.time } else j
      | none => j) })) }

/-- TXCMD_RESUME (R229, R236, R238, R347): what a completed command covers is tried again.
DEDUCED (log 25, 61). -/
def execTxcmdResume (_d : DieNo) (s : State) : Host.Outcome State Fault Refusal :=
  match s.txResume with
  | [] => .next s
  | r :: t =>
    let s := ({ s with txResume := t }).unpark r
    match (s.cores.map (fun c => c.1)).foldlM (fun (s : State) c => s.retryCore c r) s with
    | .error f => .fault f
    | .ok s =>
      match (s.tasks.map (fun t => t.id)).foldlM (fun (s : State) id => s.retryTask r id) s with
      | .ok s => .next s
      | .error f => .fault f

/-! ## Roots (R446) -/

def rootMask : Word := 0x000FFFFFFFFE0001

/-- A write to the task root, ignored while a launch is accepted. -/
def execTaskRootWrite (v : Word) (s : State) : Host.Outcome State Fault Refusal :=
  s.when (s.launches.all (fun l => !l.accepted)) { s with taskRoot := v &&& rootMask }

/-- A write to the supervisor root, which drops every supervisor translation. -/
def execSupervisorRootWrite (v : Word) (s : State) : Host.Outcome State Fault Refusal :=
  .next { s with superRoot := v &&& rootMask, tlb := s.tlb.filter (fun t => !t.supervisor) }

/-! ## The core control block (R151) -/

/-- A write to a quad's ARBMODE (R150, R151). -/
def execArbmodeWrite (d : DieNo) (q : BitVec 6) (v : Word) (s : State) : Host.Outcome State Fault Refusal :=
  let n := quadNo d q
  .next (s.setQuad n ((s.quad n).writeArb (s.now (4 * n)) v))

/-- A write to DISABLED (R151). -/
def execCoreDisable (c : CoreNo) (v : Bool) (s : State) : Host.Outcome State Fault Refusal :=
  .next (s.setCore c.toNat { s.core c.toNat with disabled := v })

/-! ## Other registers (R397, R442, R452) -/

/-- POWER_LIMIT_WRITE: a limit from 1,500 to 3,600 W (R452). -/
def execPowerLimitWrite (v : Word) (s : State) : Host.Outcome State Fault Refusal :=
  let n := v.toNat % 65536
  s.when (1500 ≤ n && n ≤ 3600) { s with powerLimit := w64 n }

def State.setDieReg (s : State) (d : DieNo) (f : Die → Die) : State := s.setDie d.toNat (f (s.die d.toNat))

/-- REGISTER_WRITE (R397, R442). -/
def execRegisterWrite (d : DieNo) (r : SupReg) (v : Word) (s : State) : Host.Outcome State Fault Refusal :=
  match r with
  | .fqBase => .next (s.setDieReg d (fun x => { x with fqBase := v }))
  | .fqCapacity => .next (s.setDieReg d (fun x => { x with fqCapacity := v }))
  | .fqHead => .next (s.setDieReg d (fun x => { x with fqHead := v }))
  | .accessSnapshot => .next (s.setDieReg d (fun x => { x with snapshot := v }))
  | .lqBase c => .next (s.setQueueReg d c { (s.die d.toNat).queue c with base := v })
  | .lqCapacity c => .next (s.setQueueReg d c { (s.die d.toNat).queue c with capacity := v })
  | .lqMsi c => .next (s.setQueueReg d c { (s.die d.toNat).queue c with msi := v &&& 0xC0000000000007FF })
  | .ignored => .next s

end Sys2Proof.Machine
end

