-- ==== Sys2Proof/Machine/Control.lean ====
section
/-! DEFINITION. Branches, jumps, hardware loops, rotation, predicates and system registers (R163 to R169,
R174, R175, R190). -/

namespace Sys2Proof.Machine

/-- An offset in words, sign-extended, in bytes (R110, R117). -/
def wordOffset {n : Nat} (off : BitVec n) : Word := sext off <<< 2

/-- A branch of `n` bytes: to its target when taken, else to the next instruction. -/
def State.branch (n : Nat) (taken : Bool) (off : Word) (s : State) : State :=
  s.completeAt (s.me.pc + (if taken then off else w64 n))

/-! ## Branches on zero (R163) -/

/-- BEQZ (R163). -/
def execBeqz (a : XReg) (off : BitVec 15) (s : State) : Host.Outcome State Fault Refusal :=
  let x := s.x a
  .next (s.branch 4 (x == 0) (wordOffset off))

/-- BNEZ (R163). -/
def execBnez (a : XReg) (off : BitVec 15) (s : State) : Host.Outcome State Fault Refusal :=
  let x := s.x a
  .next (s.branch 4 (x != 0) (wordOffset off))

/-- BLTZ (R163). -/
def execBltz (a : XReg) (off : BitVec 15) (s : State) : Host.Outcome State Fault Refusal :=
  let x := s.x a
  .next (s.branch 4 (x.slt 0) (wordOffset off))

/-- BGEZ (R163). -/
def execBgez (a : XReg) (off : BitVec 15) (s : State) : Host.Outcome State Fault Refusal :=
  let x := s.x a
  .next (s.branch 4 (!x.slt 0) (wordOffset off))

/-- BGTZ (R163). -/
def execBgtz (a : XReg) (off : BitVec 15) (s : State) : Host.Outcome State Fault Refusal :=
  let x := s.x a
  .next (s.branch 4 ((0 : Word).slt x) (wordOffset off))

/-- BLEZ (R163). -/
def execBlez (a : XReg) (off : BitVec 15) (s : State) : Host.Outcome State Fault Refusal :=
  let x := s.x a
  .next (s.branch 4 (!(0 : Word).slt x) (wordOffset off))

/-! ## Compare and branch (R164) -/

/-- BEQ (R164). -/
def execBeq (a b : XReg) (off : BitVec 32) (s : State) : Host.Outcome State Fault Refusal :=
  let x := s.x a
  let y := s.x b
  .next (s.branch 8 (x == y) (wordOffset off))

/-- BNE (R164). -/
def execBne (a b : XReg) (off : BitVec 32) (s : State) : Host.Outcome State Fault Refusal :=
  let x := s.x a
  let y := s.x b
  .next (s.branch 8 (x != y) (wordOffset off))

/-- BLT (R164). -/
def execBlt (a b : XReg) (off : BitVec 32) (s : State) : Host.Outcome State Fault Refusal :=
  let x := s.x a
  let y := s.x b
  .next (s.branch 8 (x.slt y) (wordOffset off))

/-- BGE (R164). -/
def execBge (a b : XReg) (off : BitVec 32) (s : State) : Host.Outcome State Fault Refusal :=
  let x := s.x a
  let y := s.x b
  .next (s.branch 8 (!x.slt y) (wordOffset off))

/-- BLTU (R164). -/
def execBltu (a b : XReg) (off : BitVec 32) (s : State) : Host.Outcome State Fault Refusal :=
  let x := s.x a
  let y := s.x b
  .next (s.branch 8 (x.ult y) (wordOffset off))

/-- BGEU (R164). -/
def execBgeu (a b : XReg) (off : BitVec 32) (s : State) : Host.Outcome State Fault Refusal :=
  let x := s.x a
  let y := s.x b
  .next (s.branch 8 (!x.ult y) (wordOffset off))

/-! ## Jumps (R165, R166) -/

/-- JAL (R165). -/
def execJal (d : XReg) (off : BitVec 18) (s : State) : Host.Outcome State Fault Refusal :=
  let pc := s.me.pc
  .next ((s.setX d (pc + 4)).completeAt (pc + wordOffset off))

/-- JALR (R165): xa is read before xd is written. -/
def execJalr (d a : XReg) (imm : BitVec 12) (s : State) : Host.Outcome State Fault Refusal :=
  let t := s.x a + sext imm
  .next ((s.setX d (s.me.pc + 4)).completeAt t)

/-! ## Hardware loops and rotation (R167 to R169) -/

/-- Level `k` of the running task's launch, if it is TEMPORAL. -/
def State.temporal (s : State) (k : Nat) : Option Level :=
  ((s.ctxLaunch s.cur s.myK).bind (fun l => l.levels[k]?)).filter (fun l => l.kind == 3)

/-- LOOP's move of ROTB. -/
def rotate (h : Nat) (rotb : Word) (n : Int) : Word :=
  if h = 0 then rotb else BitVec.ofInt 64 (((rotb.toNat : Int) + n) % h)

/-- LOOP on a TEMPORAL level (R167). -/
def State.loopOn (s : State) (k : Nat) (l : Level) (off : Word) : State :=
  let x := s.me
  let c := (x.loopc[k]?.getD 0).toNat
  let y := { x with rotb := rotate s.here.h x.rotb l.stride }
  if 1 < c then
    (s.setMe { y with loopc := y.loopc.setIfInBounds k (w64 (c - 1)) }).completeAt (x.pc + off)
  else
    (s.setMe { y with loopc := y.loopc.setIfInBounds k (w64 l.extent) }).completeAt (x.pc + 4)

/-- LOOP (R167). -/
def execLoop (k : BitVec 3) (off : BitVec 15) (s : State) : Host.Outcome State Fault Refusal :=
  match s.temporal k.toNat with
  | none => .next (s.fault (illegalOf (encode (.loop k off))))
  | some l => .next (s.loopOn k.toNat l (wordOffset off))

/-- WBASE (R169). -/
def execWbase (a : XReg) (imm : BitVec 12) (s : State) : Host.Outcome State Fault Refusal :=
  let v := (s.x a + sext imm).toInt
  .next ((s.setMe { s.me with rotb := if s.here.h = 0 then 0 else BitVec.ofInt 64 (v % s.here.h) }).retire 4)

/-! ## Predicates (R174) -/

/-- The sequencer holds an instruction that reads a predicate register which a routed compare has yet to
write (R281). -/
def State.unlessPending (s : State) (i : Instr) (ps : List PReg) (t : State) : Host.Outcome State Fault Refusal :=
  if ps.any s.me.comparing then .next (s.holdOn i .route) else .next t

/-- PAND (R174). -/
def execPand (d a b : PReg) (s : State) : Host.Outcome State Fault Refusal :=
  let x := s.p a
  let y := s.p b
  s.unlessPending (.pand d a b) [a, b] ((s.setP d (x &&& y)).retire 4)

/-- POR (R174). -/
def execPor (d a b : PReg) (s : State) : Host.Outcome State Fault Refusal :=
  let x := s.p a
  let y := s.p b
  s.unlessPending (.por d a b) [a, b] ((s.setP d (x ||| y)).retire 4)

/-- PXOR (R174). -/
def execPxor (d a b : PReg) (s : State) : Host.Outcome State Fault Refusal :=
  let x := s.p a
  let y := s.p b
  s.unlessPending (.pxor d a b) [a, b] ((s.setP d (x ^^^ y)).retire 4)

/-- PANDN (R174). -/
def execPandn (d a b : PReg) (s : State) : Host.Outcome State Fault Refusal :=
  let x := s.p a
  let y := s.p b
  s.unlessPending (.pandn d a b) [a, b] ((s.setP d (x &&& ~~~y)).retire 4)

/-- PNOT (R174). -/
def execPnot (d a : PReg) (s : State) : Host.Outcome State Fault Refusal :=
  s.unlessPending (.pnot d a) [a] ((s.setP d (~~~s.p a)).retire 4)

/-- The lowest `n` set bits of a word, of the bits from `i` up. -/
def lowestBits (x : Nat) (n i : Nat) : Nat → Nat
  | 0 => 0
  | k + 1 =>
    if n = 0 then 0
    else if x.testBit i then 2 ^ i + lowestBits x (n - 1) (i + 1) k else lowestBits x n (i + 1) k

/-- PFIRSTN (R174). -/
def execPfirstn (d a : PReg) (b : XReg) (s : State) : Host.Outcome State Fault Refusal :=
  s.unlessPending (.pfirstn d a b) [a]
    ((s.setP d (BitVec.ofNat 256 (lowestBits (s.p a).toNat (s.x b).toNat 0 256))).retire 4)

/-- PCNT (R174). -/
def execPcnt (d : XReg) (a : PReg) (s : State) : Host.Outcome State Fault Refusal :=
  s.unlessPending (.pcnt d a) [a] (s.retireX 4 d (w64 (popCount 256 (s.p a).toNat)))

/-- PFIRST (R174). -/
def execPfirst (d : XReg) (a : PReg) (s : State) : Host.Outcome State Fault Refusal :=
  s.unlessPending (.pfirst d a) [a] (s.retireX 4 d (w64 (trailingZeros 256 (s.p a).toNat)))

/-! ## System registers (R175) -/

/-- SRR (R175). -/
def execSrr (d : XReg) (n : BitVec 12) (s : State) : Host.Outcome State Fault Refusal :=
  .next (s.retireX 4 d (s.sysRead n.toNat))

/-- SRW (R143, R175, R396): its own completion is counted before the write. DEDUCED (log 28). -/
def execSrw (n : BitVec 12) (a : XReg) (s : State) : Host.Outcome State Fault Refusal :=
  if sysSw n.toNat && !s.me.supervisor then
    .next (s.fault (illegalPrivilege (encode (.srw n a))))
  else .next ((s.retire 4).sysWrite n.toNat (s.x a))

end Sys2Proof.Machine
end

