-- ==== Sys2Proof/Machine/HandleOps.lean ====
section
/-! DEFINITION. The handle instructions (R170 to R173). -/

namespace Sys2Proof.Machine

/-- The address of HLD and HST: xa plus 32 imm6 (R171). -/
def handleAddr (s : State) (a : XReg) (off : BitVec 6) : Word := s.x a + (off.signExtend 64 <<< 5)

/-- HLD (R171): four doubleword loads; hd is written when all have been read. -/
def execHld (d : HReg) (a : XReg) (off : BitVec 6) (s : State) : Host.Outcome State Fault Refusal :=
  attempt (.hld d a off) noDeadline (do
    let va := handleAddr s a off
    M.must (va.toNat % 32 == 0) (misalign va)
    let v0 ← seqLoad a va 8
    let v1 ← seqLoad a (va + 8) 8
    let v2 ← seqLoad a (va + 16) 8
    let v3 ← seqLoad a (va + 24) 8
    modify (fun s => s.setH d (w64 v3 ++ w64 v2 ++ w64 v1 ++ w64 v0))
    M.retire 4) s

/-- HST (R171): four doubleword stores. -/
def execHst (d : HReg) (a : XReg) (off : BitVec 6) (s : State) : Host.Outcome State Fault Refusal :=
  attempt (.hst d a off) noDeadline (do
    let va := handleAddr s a off
    M.must (va.toNat % 32 == 0) (misalign va)
    [0, 8, 16, 24].forM (fun n => seqCheck a (va + w64 n) 8)
    seqOrder va.toNat 32 true
    let v := (s.h d).toNat
    seqStore (.hst d a off) ([0, 8, 16, 24].map (fun n => .mem (va.toNat + n) (leBytes 8 (v / 2 ^ (8 * n)))))
    M.retire 4) s

/-- HMOV (R170). -/
def execHmov (d a : HReg) (s : State) : Host.Outcome State Fault Refusal :=
  .next ((s.setH d (s.h a)).retire 4)

/-- A field of a handle (R171). -/
def getField (h : HandleWord) : HField → Word
  | .base => h.extractLsb' 0 64
  | .record => (h.extractLsb' 64 48).zeroExtend 64
  | .attr => (h.extractLsb' 112 5).zeroExtend 64
  | .cursor => h.extractLsb' 128 64
  | .bound => h.extractLsb' 192 64

/-- Bits `lo` to `lo + n − 1` of a handle replaced. -/
def putBitsAt (h : HandleWord) (lo n : Nat) (v : Word) : HandleWord :=
  (h &&& ~~~((BitVec.ofNat 256 (2 ^ n - 1)) <<< lo)) ||| ((BitVec.ofNat 256 (v.toNat % 2 ^ n)) <<< lo)

/-- A handle with a field replaced (R171). -/
def setField (h : HandleWord) (v : Word) : HField → HandleWord
  | .base => putBitsAt h 0 64 v
  | .record => putBitsAt h 64 48 v
  | .attr => putBitsAt h 112 5 v
  | .cursor => putBitsAt h 128 64 v
  | .bound => putBitsAt h 192 64 v

/-- HGET (R171). -/
def execHget (d : XReg) (a : HReg) (f : HField) (s : State) : Host.Outcome State Fault Refusal :=
  .next (s.retireX 4 d (getField (s.h a) f))

/-- HSET (R171). -/
def execHset (d : HReg) (f : HField) (a : XReg) (s : State) : Host.Outcome State Fault Refusal :=
  .next ((s.setH d (setField (s.h d) (s.x a) f)).retire 4)

/-- HADV (R170). -/
def execHadv (d : HReg) (a : XReg) (s : State) : Host.Outcome State Fault Refusal :=
  .next ((s.setH d (setField (s.h d) (hCursor (s.h d) + s.x a) .cursor)).retire 4)

/-- The element size of a dtype in nibbles; none where R370 gives none. DEDUCED (log 37). -/
def dtypeNibbles (nf : Vector (BitVec 32) 4) (code n : Nat) : Option Nat :=
  match code with
  | 0x01 | 0x02 => some 2
  | 0x03 | 0x04 | 0x11 | 0x12 => some 4
  | 0x05 | 0x06 | 0x10 => some 8
  | 0x07 | 0x08 => some 16
  | 0x18 =>
    match (nf[n]?.map (fun w => (w.extractLsb' 20 4).toNat)) with
    | some 4 => some 1
    | some 6 | some 8 => some 2
    | _ => none
  | _ => none

/-- The span of a record (R172), an exact number, which a BASE beyond the address space makes negative for a PAGED
one (R8). An element size that R370 does not give, and extents past the sixth, add a free number of bytes.
DEDUCED (log 37). -/
def hrecSpan (r : Rec) (nf : Vector (BitVec 32) 4) (base free : Nat) : Int :=
  if r.kind = 3 then (2 ^ 57 : Int) - base
  else if r.dims.any (fun d => d < 6 && r.ext d == 0) then 0
  else
    let sum := ((r.dims.filter (fun d => d < 6)).map (fun d => (r.ext d - 1) * r.str d)).sum
    let more := if 6 < r.rank then Config.freeNat free else 0
    match dtypeNibbles nf r.dtype r.nf with
    | some 1 => (sum + 1 + 1) / 2 + more
    | some n => sum + n / 2 + more
    | none => sum + Config.freeNat free + more

/-- HREC (R172). -/
def execHrec (d : HReg) (a : XReg) (s : State) : Host.Outcome State Fault Refusal :=
  attempt (.hrec d a) noDeadline (do
    let va := s.x a
    M.must (va.toNat < 2 ^ 48) (bounds va)
    M.must (va.toNat % 64 == 0) (misalign va)
    seqOrder va.toNat 192 false
    let r ← seqX (readRec (← get).myView va.toNat)
    M.must (1 ≤ r.kind && r.kind ≤ 3 && r.poison ≤ 2 && r.tailOk) (shapeBad va)
    let h := s.h d
    let (n, s') := (← get).draw
    set s'
    let span := hrecSpan r s.here.nf (hBase h) n
    M.must (span ≤ 2 ^ 57) (shapeBad va)
    let attr := bitsOf h.toNat 113 112 + 4 * r.poison + 16 * bit (r.kind == 2)
    let h1 := setField (setField (setField (setField h va .record) 0 .cursor) (BitVec.ofInt 64 span) .bound) (w64 attr) .attr
    modify (fun s => s.setH d h1)
    M.retire 4) s

end Sys2Proof.Machine
end

