-- ==== Sys2Proof/Machine/LoadStore.lean ====
section
/-! DEFINITION. Scalar loads and stores (R249 to R252). -/

namespace Sys2Proof.Machine

/-- LDB (R249, R250). -/
def execLdb (d a : XReg) (imm : BitVec 12) (s : State) : Host.Outcome State Fault Refusal :=
  s.scalarLoad (.ldb d a imm) d a imm 1 true

/-- LDBU (R249, R250). -/
def execLdbu (d a : XReg) (imm : BitVec 12) (s : State) : Host.Outcome State Fault Refusal :=
  s.scalarLoad (.ldbu d a imm) d a imm 1 false

/-- LDH (R249, R250). -/
def execLdh (d a : XReg) (imm : BitVec 12) (s : State) : Host.Outcome State Fault Refusal :=
  s.scalarLoad (.ldh d a imm) d a imm 2 true

/-- LDHU (R249, R250). -/
def execLdhu (d a : XReg) (imm : BitVec 12) (s : State) : Host.Outcome State Fault Refusal :=
  s.scalarLoad (.ldhu d a imm) d a imm 2 false

/-- LDW (R249, R250). -/
def execLdw (d a : XReg) (imm : BitVec 12) (s : State) : Host.Outcome State Fault Refusal :=
  s.scalarLoad (.ldw d a imm) d a imm 4 true

/-- LDWU (R249, R250). -/
def execLdwu (d a : XReg) (imm : BitVec 12) (s : State) : Host.Outcome State Fault Refusal :=
  s.scalarLoad (.ldwu d a imm) d a imm 4 false

/-- LDD (R249, R250). -/
def execLdd (d a : XReg) (imm : BitVec 12) (s : State) : Host.Outcome State Fault Refusal :=
  s.scalarLoad (.ldd d a imm) d a imm 8 false

/-- STB (R249, R250). -/
def execStb (r a : XReg) (imm : BitVec 12) (s : State) : Host.Outcome State Fault Refusal :=
  s.scalarStore (.stb r a imm) r a imm 1

/-- STH (R249, R250). -/
def execSth (r a : XReg) (imm : BitVec 12) (s : State) : Host.Outcome State Fault Refusal :=
  s.scalarStore (.sth r a imm) r a imm 2

/-- STW (R249, R250). -/
def execStw (r a : XReg) (imm : BitVec 12) (s : State) : Host.Outcome State Fault Refusal :=
  s.scalarStore (.stw r a imm) r a imm 4

/-- STD (R249, R250). -/
def execStd (r a : XReg) (imm : BitVec 12) (s : State) : Host.Outcome State Fault Refusal :=
  s.scalarStore (.std r a imm) r a imm 8

end Sys2Proof.Machine
end

