-- ==== Sys2Proof/Machine/Matrix.lean ====
section
/-! DEFINITION. The MTX, ENC and known-answer instructions as the sequencer meets them: TLDT is routed to LQ, TSTT to
SQ and the rest to CQ, where `startTldt`, `startTstt`, `startArray`, `startEnc`, `startKati` and `startKatc`
give their effect (R307, R323, R336, R352). -/

namespace Sys2Proof.Machine

/-- TLEASE (R308). -/
def execTlease (t : Tok) (reserve : BitVec 2) (s : State) : Host.Outcome State Fault Refusal :=
  route (.tlease t reserve) s

/-- TREL (R308). -/
def execTrel (t : Tok) (u : Bool) (s : State) : Host.Outcome State Fault Refusal :=
  route (.trel t u) s

/-- TLDT (R310). -/
def execTldt (t : Tok) (nf : BitVec 2) (sat : Bool) (rm : Rm) (k : TReg) (h : HReg) (xo : XReg) (s : State) : Host.Outcome State Fault Refusal :=
  route (.tldt t nf sat rm k h xo) s

/-- TZERO (R313). -/
def execTzero (t : Tok) (plane : Bool) (e : BitVec 16) (s : State) : Host.Outcome State Fault Refusal :=
  route (.tzero t plane e) s

/-- TMMA (R315). -/
def execTmma (t : Tok) (plane : Bool) (ta : TReg) (tb : TReg) (enc : Bool) (s : State) : Host.Outcome State Fault Refusal :=
  route (.tmma t plane ta tb enc) s

/-- TMMAA (R315). -/
def execTmmaa (t : Tok) (plane : Bool) (ta : TReg) (tb : TReg) (s : State) : Host.Outcome State Fault Refusal :=
  route (.tmmaa t plane ta tb) s

/-- TDRAIN (R316 to R319). -/
def execTdrain (a : DrainArgs) (s : State) : Host.Outcome State Fault Refusal :=
  route (.tdrain a) s

/-- TSTT (R311). -/
def execTstt (t : Tok) (k : TReg) (h : HReg) (xo : XReg) (s : State) : Host.Outcome State Fault Refusal :=
  route (.tstt t k h xo) s

/-- ABOUND (R325). -/
def execAbound (t : Tok) (hd : HReg) (ha : HReg) (hb : HReg) (s : State) : Host.Outcome State Fault Refusal :=
  route (.abound t hd ha hb) s

/-- ARELAX by rule entries (R326). -/
def execArelax (t : Tok) (hd : HReg) (ha : HReg) (hb : HReg) (hc : HReg) (f : BitVec 4) (s : State) : Host.Outcome State Fault Refusal :=
  route (.arelax t hd ha hb hc f) s

/-- ARELAX with BILINEAR (R327). -/
def execArelaxBilinear (t : Tok) (hd : HReg) (ha : HReg) (hb : HReg) (s : State) : Host.Outcome State Fault Refusal :=
  route (.arelaxBilinear t hd ha hb) s

/-- ASYM (R328). -/
def execAsym (t : Tok) (hd : HReg) (s : State) : Host.Outcome State Fault Refusal :=
  route (.asym t hd) s

/-- ARET (R329). -/
def execAret (t : Tok) (ha : HReg) (s : State) : Host.Outcome State Fault Refusal :=
  route (.aret t ha) s

/-- ACOND (R330). -/
def execAcond (t : Tok) (ha : HReg) (xs : XReg) (s : State) : Host.Outcome State Fault Refusal :=
  route (.acond t ha xs) s

/-- AALIGN (R331). -/
def execAalign (t : Tok) (sg : Sigma) (hd : HReg) (ha : HReg) (hb : HReg) (s : State) : Host.Outcome State Fault Refusal :=
  route (.aalign t sg hd ha hb) s

/-- ACHK (R332). -/
def execAchk (t : Tok) (hd : HReg) (ha : HReg) (hb : HReg) (hc : HReg) (s : State) : Host.Outcome State Fault Refusal :=
  route (.achk t hd ha hb hc) s

/-- ATBL (R333). -/
def execAtbl (t : Tok) (xs : XReg) (first : BitVec 6) (cnt : BitVec 6) (s : State) : Host.Outcome State Fault Refusal :=
  route (.atbl t xs first cnt) s

/-- KATI (R352). -/
def execKati (t : Tok) (vector : Bool) (i : BitVec 8) (s : State) : Host.Outcome State Fault Refusal :=
  route (.kati t vector i) s

/-- KATC (R352). -/
def execKatc (t : Tok) (vector : Bool) (i : BitVec 8) (check : BitVec 32) (s : State) : Host.Outcome State Fault Refusal :=
  route (.katc t vector i check) s

end Sys2Proof.Machine
end

