-- ==== Sys2Proof/Machine/Fetch.lean ====
section
/-! DEFINITION. Fetching an instruction (R107, R108), what a fetch or decode fault does, and how a word
is placed where the next step fetches. -/

namespace Sys2Proof.Machine

/-- The view of the fetch: the task's revision, without stash, spill, held or parked stores. -/
def State.fetchView (s : State) : View := { s.myView with ctx := none, core := none }

/-- What a fetch comes to. -/
inductive Fetched where
  | instr (i : Instr)
  | illegal (w0 w1 : IWord)
  | fault (f : FetchFault)
  | wait
  | stop (f : Fault)
deriving DecidableEq, Repr

/-- The cause of a fetch fault. -/
def fetchCause (t : Trap) (va : Nat) : FetchFault :=
  if t.code = 0x05 then .xlate (t.detail.extractLsb' 60 4) (w64 va) else .permission (w64 va)

/-- One word of an instruction: what memory holds as the fetch reads it, a store to the program being seen at once and
never one that the context has held or parked. DESIGN CHOICE (log 82). -/
def fetchWord (a : Word) : X IWord := do
  let v := (← get).fetchView
  let bs ← readVa v a.toNat 4
  pure (BitVec.ofNat 32 (leNat bs))

/-- The words of the instruction at `pc`, in ascending order, its length taken from word 0. -/
def fetchWords (pc : Word) : X (List IWord) := do
  let w0 ← fetchWord pc
  match lengthOf w0 with
  | 2 => do
    let w1 ← fetchWord (pc + 4)
    pure [w0, w1]
  | 3 => do
    let w1 ← fetchWord (pc + 4)
    let w2 ← fetchWord (pc + 8)
    pure [w0, w1, w2]
  | _ => pure [w0]

/-- The instruction that some words are. DEDUCED (log 20). -/
def fetchedOf (ws : List IWord) : Fetched :=
  match decode ws with
  | .ok (i, _) => .instr i
  | .error _ =>
    match ws with
    | w0 :: w1 :: _ => .illegal w0 w1
    | w0 :: _ => .illegal w0 0
    | [] => .illegal 0 0

/-- The fetch of the current context, with the state that its accesses leave. -/
def State.fetch (s : State) : Fetched × State :=
  let pc := s.me.pc
  if pc.toNat % 4 ≠ 0 then (.fault .misalign, s)
  else
    match (fetchWords pc).run s with
    | .ok (ws, s') => (fetchedOf ws, s')
    | .error (.fault t _ va) => (.fault (fetchCause t va), s)
    | .error (.poison u) => (.fault (.ecc (w64 u.va)), s)
    | .error .wait => (.wait, s)
    | .error (.stop f) => (.stop f, s)

/-! ## Placing an instruction -/

/-- The running context of the current core can fetch: it is live, and nothing holds it. -/
def State.runs (s : State) : Bool :=
  s.here.running && s.me.mode == .live && s.me.hold.isNone && !s.me.stepDue && !s.me.stopping

/-- Core 0 runs its context 0, which holds no task but is live, as a dispatch would leave it.
DESIGN CHOICE (log 3). -/
def State.wakeFirst (s : State) : State :=
  if s.runs then s
  else
    let c := s.core 0
    { (s.setCore 0 { c with running := true, active := false, c0 := { c.c0 with mode := .live, hold := none, stepDue := false, stopping := false } })
      with cur := 0 }

/-- A pc that no fetch accepts goes down to its word. DESIGN CHOICE (log 3). -/
def State.alignPc (s : State) : State :=
  if s.me.pc.toNat % 4 = 0 then s else s.setMe { s.me with pc := s.me.pc &&& 0xFFFFFFFFFFFFFFFC }

/-- Page tables that map one page, used only where the fetch address has no translation: the tables lie
in the frames from 0xA0, and the page in frame 0x100. DESIGN CHOICE (log 3). -/
def State.mapPage (s : State) (va : Nat) : State :=
  let root := 0xA0_0000
  let put (s : State) (lvl tbl v : Nat) : State := s.writeNear (tbl + 8 * vaIndex va lvl) 8 v
  let table (n : Nat) : Nat := n + 0x19
  let s := put s 0 root (table (root + 0x2_0000))
  let s := put s 1 (root + 0x2_0000) (table (root + 0x3_0000))
  let s := put s 2 (root + 0x3_0000) (table (root + 0x3_1000))
  let s := put s 3 (root + 0x3_1000) (0x100 * 65536 + 0x103)
  if s.me.supervisor then { s with superRoot := w64 (root + 1), tlb := [] }
  else { s with taskRoot := w64 (root + 1), tlb := [] }

/-- Where a byte of an instruction lies; none where it has no translation. -/
def State.fetchPlace (s : State) (a : Word) : Option Phys :=
  match (translate s.fetchView a.toNat false).run s with
  | .ok (p, _) => some p
  | .error _ => none

/-- A word stored where the fetch reads it. DESIGN CHOICE (log 3). -/
def State.placeWord (s : State) (a : Word) (w : Nat) : State :=
  match s.fetchPlace a with
  | some p => s.storeAt p (leBytes 4 w)
  | none =>
    let s := s.mapPage a.toNat
    match s.fetchPlace a with
    | some p => s.storeAt p (leBytes 4 w)
    | none => s

/-- The three words from bit 0 of `w` placed at the fetch address. DESIGN CHOICE (log 3). -/
def State.placeAt (s : State) (w : Nat) : State :=
  let pc := s.me.pc
  ((s.placeWord pc (w % 2 ^ 32)).placeWord (pc + 4) (w / 2 ^ 32 % 2 ^ 32)).placeWord (pc + 8) (w / 2 ^ 64 % 2 ^ 32)

end Sys2Proof.Machine
end

