-- ==== Sys2Proof/Machine/Wait.lean ====
section
/-! DEFINITION. WAIT and WAITT, and the instructions that pop events (R353 to R355). -/

namespace Sys2Proof.Machine

/-- The ticks of a timeout field: 0 encodes 2^32 (R354). -/
def timeoutTicks (t : BitVec 32) : Word := if t = 0 then 0x1_0000_0000 else t.zeroExtend 64

/-- WAIT_TIMEOUT (R355). -/
def waitTimeoutTrap (deadline : Word) : Trap := { code := 0x0A, detail := deadline }

/-- The comparison of condition M on numbers of `w` bits. -/
def waitCompare (c : WCmp) (w a b : Nat) : Bool :=
  match c with
  | .eq => a == b
  | .ne => a != b
  | .lt => toSigned w a < toSigned w b
  | .ge => toSigned w b ≤ toSigned w a
  | .ltu => a < b
  | .geu => b ≤ a

/-- Condition M (R355): the task's own view of memory; its read with xm = x62 is not checked against the spill window
(R201). DESIGN CHOICE (log 91). -/
def waitMem (w : WaitArgs) : M Bool := do
  let s ← get
  let va := s.x w.xm
  let n := if w.wide then 8 else 4
  M.must (va.toNat % n == 0) (misalign va)
  M.must (va.toNat < 2 ^ 57) (xlate 2 va.toNat)
  seqOrder va.toNat n false
  let bs ← seqX (readVa s.myView va.toNat n)
  pure (waitCompare w.cmp (8 * n) (leNat bs) ((s.x w.xv).toNat % 2 ^ (8 * n)))

/-- The conditions that hold, as bits 3–0. -/
def waitHolds (w : WaitArgs) (m : Bool) (s : State) : Nat :=
  bit (w.enM && m) + 2 * bit (w.enE && !s.me.evq.isEmpty) +
    4 * bit (w.enK && w.thr.toNat ≤ s.me.token w.ctr.toNat) + 8 * bit (w.enT && (s.x w.xt).toNat ≤ s.time.toNat)

/-- The conditions that are enabled. -/
def waitEnabled (w : WaitArgs) : Nat := bit w.enM + 2 * bit w.enE + 4 * bit w.enK + 8 * bit w.enT

/-- The deadline of a WAIT: fixed when it issued. -/
def waitDeadline (w : WaitArgs) (s : State) : Word :=
  match s.me.hold with
  | some (.wait _, .wait d) => d
  | _ => s.time + timeoutTicks w.timeout

/-- WAIT (R354, R355). -/
def execWait (w : WaitArgs) (s : State) : Host.Outcome State Fault Refusal :=
  let deadline := waitDeadline w s
  attempt (.wait w) (.wait deadline) (do
    let m ← if w.enM then waitMem w else pure false
    let t ← get
    let h := waitHolds w m t
    if (if w.all then h == waitEnabled w else h != 0) then
      M.writeX w.xd (w64 h)
      M.retire 12
    else if deadline.toNat ≤ t.time.toNat then M.trap (waitTimeoutTrap deadline)
    else M.wait) s

/-- WAITT (R355). -/
def execWaitt (a : XReg) (timeout : BitVec 32) (s : State) : Host.Outcome State Fault Refusal :=
  let xa := s.x a
  let late := match s.me.hold with
    | some (.waitt .., _) => false
    | _ => s.time.toNat + (timeoutTicks timeout).toNat < xa.toNat
  if late then .next (s.fault (waitTimeoutTrap (s.time + timeoutTicks timeout)))
  else if xa.toNat ≤ s.time.toNat then .next (s.retire 12)
  else .next (s.holdOn (.waitt a timeout) (.wait xa))

/-! ## Popping events (R353) -/

/-- The head record, of type NONE where the queue is empty. -/
def Context.headEvent (x : Context) : BitVec 128 := x.evq.headD 0

/-- Bytes 7–0 and 15–8 of the head record into xd and xd + 1. -/
def State.readEvent (s : State) (d : XReg) : State :=
  let r := s.me.headEvent
  (s.setX d (r.extractLsb' 0 64)).setX (d + 1) (r.extractLsb' 64 64)

/-- The head leaves the queue, and EVQH advances (R152). -/
def State.popEvent (s : State) : State :=
  let x := s.me
  if x.evq.isEmpty then s
  else (s.setMe { x with evq := x.evq.drop 1, evqh := x.evqh + 1 }).count s.cur 0x18 1

/-- EVPOP (R353). -/
def execEvpop (d : XReg) (s : State) : Host.Outcome State Fault Refusal :=
  .next ((s.readEvent d).popEvent.retire 8)

/-- EVPEEK (R353). -/
def execEvpeek (d : XReg) (s : State) : Host.Outcome State Fault Refusal :=
  .next ((s.readEvent d).retire 8)

end Sys2Proof.Machine
end

