-- ==== Sys2Proof/Machine/Wake.lean ====
section
/-! DEFINITION. The steps of queues, waiting instructions, alarms and the array's lease, and what a fetch or a
decode that fails does (R107, R108, R145, R150, R157, R179, R180, R182, R186, R187, R279, R304, R306, R336, R338,
R340, R355). -/

namespace Sys2Proof.Machine

/-! ## Instructions that are held (R157, R336) -/

/-- A held instruction is executed again. -/
def runHeld (i : Instr) (s : State) : Host.Outcome State Fault Refusal :=
  match i with
  | .pand d a b => execPand d a b s
  | .por d a b => execPor d a b s
  | .pxor d a b => execPxor d a b s
  | .pandn d a b => execPandn d a b s
  | .pnot d a => execPnot d a s
  | .pfirstn d a b => execPfirstn d a b s
  | .pcnt d a => execPcnt d a s
  | .pfirst d a => execPfirst d a s
  | .pswap => execPswap s
  | .exit => execExit s
  | .fence o sc => execFence o sc s
  | .rfence => execRfence s
  | .tfence => execTfence s
  | .timer d a => execTimer d a s
  | .latm scored => execLatm scored s
  | .ldb d a imm => execLdb d a imm s
  | .ldbu d a imm => execLdbu d a imm s
  | .ldh d a imm => execLdh d a imm s
  | .ldhu d a imm => execLdhu d a imm s
  | .ldw d a imm => execLdw d a imm s
  | .ldwu d a imm => execLdwu d a imm s
  | .ldd d a imm => execLdd d a imm s
  | .stb r a imm => execStb r a imm s
  | .sth r a imm => execSth r a imm s
  | .stw r a imm => execStw r a imm s
  | .std r a imm => execStd r a imm s
  | .atadd m => execAtadd m s
  | .atswap m => execAtswap m s
  | .atand m => execAtand m s
  | .ator m => execAtor m s
  | .atxor m => execAtxor m s
  | .atmin m => execAtmin m s
  | .atmax m => execAtmax m s
  | .atminu m => execAtminu m s
  | .atmaxu m => execAtmaxu m s
  | .atfmax m => execAtfmax m s
  | .atfadd m => execAtfadd m s
  | .cas m xc => execCas m xc s
  | .cpy hd hs xn xt => execCpy hd hs xn xt s
  | .xtbl slot hs xt => execXtbl slot hs xt s
  | .xduc hd hs xn xs slot xt => execXduc hd hs xn xs slot xt s
  | .coll op hd hs xn xg xt => execColl op hd hs xn xg xt s
  | .send hs xr xw xt => execSend hs xr xw xt s
  | .recv hd xr xw xt => execRecv hd xr xw xt s
  | .lrmap d a b reg mat pad => execLrmap d a b reg mat pad s
  | .lflush a b inval => execLflush a b inval s
  | .lstash d a b => execLstash d a b s
  | .lunstash d a => execLunstash d a s
  | .hld d a off => execHld d a off s
  | .hst d a off => execHst d a off s
  | .hrec d a => execHrec d a s
  | .fork d off => execFork d off s
  | .join d a => execJoin d a s
  | .rmark d a b => execRmark d a b s
  | .wait w => execWait w s
  | .waitt a timeout => execWaitt a timeout s
  | .renq d a w => execRenq d a w s
  | i => route i s

/-- What a core's running context is held on; of a context that a pre-emption has stopped, only a merge that has begun
goes on (R272, R361). -/
def Core.heldOn (c : Core) : Option (Instr × Hold) :=
  if c.running && c.me.mode == .live && (!c.me.stopping || c.me.merge.isSome) then c.me.hold else none

/-- A core's held instruction runs again, where no lock keeps it from issuing (R453), and the state that comes of it is
kept where `ok` holds of it. -/
def State.rerun (s : State) (c : Nat) (i : Instr) (ok : State → Bool) : Host.Outcome State Fault Refusal :=
  if s.issueLocked c then .next s
  else
  match runHeld i { s with cur := c } with
  | .next t => if ok t then .next { t with cur := s.cur } else .next s
  | o => o

/-- Nothing holds the context any more. -/
def State.goesOn (c : Nat) (t : State) : Bool := (t.core c).me.hold.isNone
/-- The merge of its JOIN has come further. -/
def State.merged (c : Nat) (s t : State) : Bool := (t.core c).me.merge != (s.core c).me.merge
/-- The instruction completed. -/
def State.completed (c : Nat) (s t : State) : Bool := (t.core c).insns != (s.core c).insns

/-- QUEUE_ROUTE_AFTER_ROOM (R281, R336). -/
def execQueueRouteAfterRoom (c : AnyCore) (s : State) : Host.Outcome State Fault Refusal :=
  match (s.core c.toNat).heldOn with
  | some (i, .route) => s.rerun c.toNat i (State.goesOn c.toNat)
  | _ => .next s

def isWait : Instr → Bool
  | .wait _ => true
  | .waitt .. => true
  | _ => false

/-- WAIT_GROUP_RESUME (R157): the wait of any other instruction of the waiting group ends, or its merge goes on. -/
def execWaitGroupResume (c : AnyCore) (s : State) : Host.Outcome State Fault Refusal :=
  match (s.core c.toNat).heldOn with
  | some (i, .wait _) => if isWait i then .next s
    else s.rerun c.toNat i (fun t => State.goesOn c.toNat t || State.merged c.toNat s t)
  | _ => .next s

/-- WAIT_SATISFIED (R355): the sense of a WAIT holds at a re-evaluation, or its read of memory faults. -/
def execWaitSatisfied (c : AnyCore) (s : State) : Host.Outcome State Fault Refusal :=
  match (s.core c.toNat).heldOn with
  | some (.wait w, .wait due) =>
    s.rerun c.toNat (.wait w) (fun t => State.goesOn c.toNat t && (State.completed c.toNat s t || s.time.toNat < due.toNat))
  | _ => .next s

/-- WAIT_TIMEOUT (R39, R355): the deadline has come and the sense does not hold. -/
def execWaitTimeout (c : AnyCore) (s : State) : Host.Outcome State Fault Refusal :=
  match (s.core c.toNat).heldOn with
  | some (.wait w, .wait due) =>
    s.rerun c.toNat (.wait w) (fun t => State.goesOn c.toNat t && !State.completed c.toNat s t && due.toNat ≤ s.time.toNat)
  | _ => .next s

/-- WAITT_END (R355). -/
def execWaittEnd (c : AnyCore) (s : State) : Host.Outcome State Fault Refusal :=
  match (s.core c.toNat).heldOn with
  | some (.waitt a n, .wait _) => s.rerun c.toNat (.waitt a n) (State.goesOn c.toNat)
  | _ => .next s

/-- YIELD_WAKE (R182). -/
def execYieldWake (c : AnyCore) (s : State) : Host.Outcome State Fault Refusal :=
  let n := c.toNat
  let core := s.core n
  match core.heldOn with
  | some (_, .yield u woken) => s.when (woken || u.toNat ≤ s.now n) (s.setCtx n core.active { core.me with hold := none })
  | _ => .next s

/-- A core of the control complex has something to go on for since its HALT: a record of its event queue, or a service
record of its die (R180). -/
def Context.roused (x : Context) : Bool := match x.hold with | some (_, .yield _ woken) => woken | _ => false

/-- HALT_WAKE (R180): a core of the control complex fetches again; one that has not fetched since reset is started.
DESIGN CHOICE (log 9). -/
def execHaltWake (d : DieNo) (s : State) : Host.Outcome State Fault Refusal :=
  let n := 1024 + d.toNat
  let core := s.core n
  s.when (core.me.mode == .asleep && (core.me.roused || core.me.hold.isNone))
    (s.setCtx n core.active { core.me with mode := .live, hold := none })

/-! ## Alarms and the step counter (R186, R187) -/

/-- The TIMER record; the manual gives it no tag. DEDUCED (log 15). -/
def timerRecord (alarm : Word) (free : Nat) : BitVec 128 := eventRecord 2 0 0 0 (BitVec.ofNat 32 (Config.freeNat free)) alarm

/-- TIMER_ALARM (R186, R346). -/
def execTimerAlarm (c : AnyCore) (k : Bool) (s : State) : Host.Outcome State Fault Refusal :=
  let x := s.ctx c.toNat k
  match x.alarm with
  | none => .next s
  | some a =>
    let y : Context := { x with alarm := none, reserved := x.reserved - 1 }
    let s' := { s with fresh := s.fresh + 1 }
    s.when (x.mode != .free && a.toNat ≤ s.time.toNat) (s'.setCtx c.toNat k (y.pushEvent (timerRecord a s.fresh)))

/-- SSTEP_EXPIRY (R187): BRK code 63, before the next instruction. -/
def execSstepExpiry (c : AnyCore) (s : State) : Host.Outcome State Fault Refusal :=
  let n := c.toNat
  let core := s.core n
  let x := core.me
  let s' := s.setCtx n core.active { x with stepDue := false }
  s.when (core.running && x.mode == .live && x.stepDue && x.hold.isNone)
    (s'.takeTrap n core.active .service false srcSequencer x.pc { code := 0xBF, detail := 0, grade := .status })

/-! ## Queues (R279, R338, R340) -/

/-- QUEUE_ENTRY_START (R279, R338). DESIGN CHOICE (log 4). -/
def execQueueEntryStart (c : AnyCore) (k : Bool) (q : QName) (s : State) : Host.Outcome State Fault Refusal :=
  (s.tryStart c.toNat k q).outcome s

/-- QUEUE_ENTRY_COMPLETE (R279, R338). -/
def execQueueEntryComplete (c : AnyCore) (k : Bool) (q : QName) (n : Nat) (s : State) : Host.Outcome State Fault Refusal :=
  (s.tryComplete c.toNat k q n).outcome s

/-- LOAD_DATA_RETURN (R340). -/
def execLoadDataReturn (c : AnyCore) (k : Bool) (s : State) : Host.Outcome State Fault Refusal :=
  (s.loadReturn c.toNat k).outcome s

/-! ## The array (R304, R306) -/

/-- An array command of a core has started and not completed. DEDUCED (log 65). -/
def State.arrayBusy (s : State) (c : Nat) : Bool :=
  ([false, true] : List Bool).any (fun k => (s.ctx c k).cq.any (fun e =>
    (Instr.arrayPlane? e.instr).isSome && !e.unstarted && !e.done))

/-- An array command at the head of CQ still asks for the lease: one that was routed by a context that has been freed,
killed, saved or rolled back does not (R304). -/
def State.stillAsks (s : State) (c : Nat) : Bool :=
  ([false, true] : List Bool).any (fun k => (s.core c).engages k &&
    (match (s.ctx c k).cq.find? Entry.unstarted with
    | some e => (match s.arrayGate c e.instr with | .request => true | _ => false)
    | none => false))

/-- A quad with the requests of cores that still ask. -/
def State.asking (s : State) (n : Nat) : Quad :=
  let u := s.quad n
  { u with requests := u.requests.filter (fun r => s.stillAsks (4 * n + r.toNat)) }

/-- LEASE_GRANT (R304): a command in progress completes within the lease that it started in.
DEDUCED (log 65). -/
def execLeaseGrant (d : DieNo) (q : BitVec 6) (s : State) : Host.Outcome State Fault Refusal :=
  let n := quadNo d q
  let u := s.asking n
  let busy := match u.last with | some l => s.arrayBusy (4 * n + l.toNat) | none => false
  match u.nextHolder with
  | none => .next s
  | some c =>
    s.when (u.win2.isNone && u.lease.isNone && !busy)
      (s.setQuad n { u with lease := some { core := c, commands := 0, cycles := s.now (4 * n) },
                            requests := u.requests.filter (fun r => r != c) })

/-- LEASE_EXPIRE (R304): the 64th command has started, or 4,096 cycles have passed. -/
def execLeaseExpire (d : DieNo) (q : BitVec 6) (s : State) : Host.Outcome State Fault Refusal :=
  let n := quadNo d q
  let u := s.quad n
  match u.lease with
  | none => .next s
  | some l => s.when (64 ≤ l.commands || 4096 ≤ s.now (4 * n) - l.cycles) (s.setQuad n (u.endLease (s.now (4 * n))))

/-- WIN2_WINDOW_SWITCH (R306). -/
def execWin2WindowSwitch (d : DieNo) (q : BitVec 6) (s : State) : Host.Outcome State Fault Refusal :=
  let n := quadNo d q
  let u := s.quad n
  match u.win2 with
  | none => .next s
  | some (_, _, w) => s.when (u.since + w ≤ s.now (4 * n)) (s.setQuad n { u with window := !u.window, since := u.since + w })

/-! ## Fetch and decode faults (R107, R108) -/

/-- A fault of the running context of a core, before the instruction at its pc. -/
def State.faultOn (s : State) (c : Nat) (t : Trap) : State :=
  let core := s.core c
  s.takeTrap c core.active .halted false srcSequencer core.me.pc t

/-- The record of a phase cancellation of the core's running task waits to be written (R415). -/
def State.recovering (s : State) (c : Nat) : Bool :=
  match (s.core c).me.task with
  | some id => s.dies.toList.any (fun d => d.pending.any (fun r => r.status == .recovered && r.who == some id))
  | none => false

/-- A core that fetches. -/
def State.fetches (s : State) (c : Nat) : Bool :=
  let core := s.core c
  core.running && core.me.mode == .live && core.me.hold.isNone && !core.me.stepDue && !core.me.stopping && !s.issueLocked c && !s.recovering c

/-- ILLEGAL_INSTRUCTION (R108). DEDUCED (log 20). -/
def execIllegalInstruction (c : AnyCore) (w0 w1 : IWord) (s : State) : Host.Outcome State Fault Refusal :=
  s.when (s.fetches c.toNat) (s.faultOn c.toNat (illegal w0 w1))

/-- Where an uncorrectable word of the program lies: die and structure. -/
def State.fetchPoison (s : State) (c : Nat) (va : Nat) : Nat × Nat :=
  let t := { s with cur := c }
  match (translate t.fetchView va false).run t with
  | .ok (p, _) => ((p.home, ((s.poisonAt p.far p.addr 4).map (fun q => q.structure_.toNat)).getD 0))
  | .error _ => (dieOf c, 0)

/-- The trap of a fetch fault. -/
def State.fetchTrap (s : State) (c : Nat) (f : FetchFault) : Trap :=
  match f with
  | .xlate r va => xlate r.toNat va.toNat
  | .permission va => permission va.toNat
  | .ecc va => let (d, st) := s.fetchPoison c va.toNat; eccUncorr va.toNat d st
  | .misalign => misalign (s.core c).me.pc

/-- INSTRUCTION_FETCH_FAULT (R107, R266). -/
def execInstructionFetchFault (c : AnyCore) (f : FetchFault) (s : State) : Host.Outcome State Fault Refusal :=
  s.when (s.fetches c.toNat) (s.faultOn c.toNat (s.fetchTrap c.toNat f))

end Sys2Proof.Machine
end

