-- ==== Sys2Proof/Machine/Module.lean ====
section
/-! DEFINITION. The module's own steps: drain states, reset and firmware, time, power and clocks, the L2's check
mode, links, the host's accesses, the health table and energy (R385, R390 to R393, R399, R400, R402, R440,
R449 to R458). -/

namespace Sys2Proof.Machine

/-! ## Module states (R457, R458) -/

/-- MGMTCMD as a command leaves it. -/
def mgmtWord (cmd result deadline : Nat) : Word := w64 (cmd * 2 ^ 60 + result * 2 ^ 58 + deadline)

/-- DRAINING begins, or its deadline comes earlier. DEDUCED (log 59). -/
def State.startDrain' (s : State) (ticks : Nat) : State :=
  let t := s.time + w64 ticks
  match s.modState with
  | .online => ({ s with modState := .draining, deadline := some t } : State).drainedOut
  | .draining =>
    let d := s.deadline.getD t
    { s with deadline := some (if t.toNat < d.toNat then t else d) }
  | _ => s

/-- DRAIN (R457). -/
def execDrain (deadline : BitVec 48) (s : State) : Host.Outcome State Fault Refusal :=
  let ok := s.modState == .online || s.modState == .draining
  .next { s.startDrain' deadline.toNat with mgmt := mgmtWord 1 (bit (!ok)) deadline.toNat }

/-- ONLINE (R457); the deadline field stays as it was written. -/
def execOnline (s : State) : Host.Outcome State Fault Refusal :=
  let ok := s.modState == .drained || s.modState == .service
  .next { s with modState := if ok then .online else s.modState, mgmt := mgmtWord 2 (bit (!ok)) (s.mgmt.toNat % 2 ^ 48) }

/-- SERVICE (R457); the deadline field stays as it was written. -/
def execService (s : State) : Host.Outcome State Fault Refusal :=
  let ok := s.modState == .drained
  .next { s with modState := if ok then .service else s.modState, mgmt := mgmtWord 3 (bit (!ok)) (s.mgmt.toNat % 2 ^ 48) }

/-- DRAINING (R406). -/
def drainingTrap (deadline : Word) : Trap := { code := 0x19, detail := deadline, grade := .other }

/-- A task at the drain deadline: its record, then its kill. -/
def State.drainTask (s : State) (deadline : Word) (id : Nat) : State :=
  match s.task? id with
  | none => s
  | some t =>
    match t.phase with
    | .placed c k =>
      (s.raise (dieOf c) (s.ctxRec c k .halted false srcDispatcher (s.ctx c k).pc (drainingTrap deadline))).killTask id
    | .saved v =>
      (s.raise (dieOf v.fromCore) { s.taskRec t .halted srcDispatcher (drainingTrap deadline) with escape := v.ctx.escape }).killTask id
    | _ => s

/-- A launch at the drain deadline completes as FAULTED once its records are written. DEDUCED (log 59). -/
def State.drainLaunch (s : State) (deadline : Word) (l : Launch) : State :=
  match l.phase with
  | .completing _ | .notifying => s
  | _ =>
    let s := s.dropReady l.id
    let s := (s.deepestFirst l.id).foldl (fun (s : State) id => s.drainTask deadline id) s
    s.beginCompletion l.id 1

/-- DRAIN_DEADLINE (R458). -/
def execDrainDeadline (s : State) : Host.Outcome State Fault Refusal :=
  match s.deadline with
  | none => .next s
  | some d =>
    if s.time.toNat < d.toNat then .next s
    else
      let t : State := s.launches.foldl (fun (s : State) (l : Launch) => s.drainLaunch d l) s
      let u : State := { t with modState := if t.modState == .draining then .drained else t.modState, deadline := none }
      u.completeAll (u.launches.map (fun l => l.id))

/-! ## Reset, firmware, attestation (R391, R392, R450, R456) -/

/-- One capability entry. -/
def capEntry (id len : Nat) (body : List Word) : List Byte :=
  leBytes 2 id ++ leBytes 1 1 ++ leBytes 1 len ++ leBytes 4 0 ++ body.flatMap (fun w => leBytes 8 w.toNat)

def perDie (f : Nat → Nat) : List Word := [w64 (f 0), w64 (f 1), w64 (f 2), w64 (f 3)]

/-- The capability list that firmware writes at boot (R392). DESIGN CHOICE (log 10). -/
def capList : List Byte :=
  capEntry 0x01 2 [w64 (0xF + Config.stepping.toNat * 2 ^ 8)] ++
  (capEntry 0x10 13 ((List.range 4).flatMap (fun d => [w64 (Config.ringBase d 0), w64 (Config.ringBase d 1), w64 (Config.ringBase d 2)])) ++
  (capEntry 0x11 5 (perDie Config.txcmdAt) ++ (capEntry 0x12 2 [w64 Config.migrationBase] ++
  (capEntry 0x13 5 (perDie Config.taskcmdAt) ++ (capEntry 0x14 5 (perDie (fun d => Config.ringBase d 3)) ++
  (capEntry 0x20 2 [w64 Config.gazetteerBase] ++ (capEntry 0x21 2 [w64 Config.healthBase] ++
  (capEntry 0x22 2 [w64 Config.symbolBase] ++ (leBytes 8 0 : List Byte)))))))))

/-- A core after a reset: its bad banks stay bad. DESIGN CHOICE (log 11). -/
def keepBanks (s : State) : List (Nat × Core) :=
  s.cores.map (fun c => (c.1, { (if isControl c.1 then Core.resetControl else Core.reset) with good := c.2.good &&& ~~~c.2.leaving }))

/-- The boot ROM accepts an image: its signature, its key hash, and a security version no lower than the fused rollback
counter (R456). -/
def FwImage.verified (i : FwImage) (rollback : Nat) : Bool := i.signatureOk && i.keyHashOk && rollback ≤ i.securityVersion

/-- The boot checks pass: the ROM accepts every image that it is to run, of which there is one at least (R456). -/
def BootObs.passes (o : BootObs) (rollback : Nat) : Bool :=
  o.othersPass && !o.images.isEmpty && o.images.all (fun i => FwImage.verified i rollback)

/-- The module as a reset leaves it: what is fused or found by the boot test stays. DESIGN CHOICE (log 11). -/
def State.resetModule (s : State) (bootOk : Bool) : State :=
  let dies : Vector Die 4 := Vector.ofFn (fun d => { Die.reset with banksOut := s.banksGone d.val })
  { State.reset with
    cores := keepBanks s, dies := dies, booted := bootOk, rollback := s.rollback, firmware := s.firmware,
    hostMem := s.hostMem, outbox := s.outbox, agenda := s.agenda, pace := s.pace, choices := s.choices, eager := s.eager, fresh := s.fresh,
    mem := if bootOk then memWrite [] Config.capBase capList else [] }

/-- MODULE_RESET (R391, R392, R456, R457): the module comes ONLINE once TIME has been set; one that fails its checks stays
in reset. DESIGN CHOICE (log 11). -/
def execModuleReset (o : BootObs) (s : State) : Host.Outcome State Fault Refusal :=
  let t := s.resetModule (BootObs.passes o s.rollback)
  .next (if t.booted then { t with firmware := (o.images.head?.map FwImage.securityVersion).getD s.firmware } else t)

/-- FIRMWARE_UPDATE (R456): an image that fails its check takes no effect. -/
def execFirmwareUpdate (i : FwImage) (s : State) : Host.Outcome State Fault Refusal :=
  s.when (FwImage.verified i s.rollback) { s with rollback := i.securityVersion, firmware := i.securityVersion }

/-- SPDM_REQUEST (R456): each answer is a free value of its own; a module that is in reset is absent. -/
def execSpdmRequest (req : List Byte) (s : State) : Host.Outcome State Fault Refusal :=
  s.when s.booted (let (f, t) := s.draw; t.emit (.spdm (Config.spdmReply f req)))

/-! ## Time (R393, R450, R451) -/

/-- The rate adjustment within ±100 ppm. -/
def clampRate (r : Int) : Int := max (-100000000) (min 100000000 r)

/-- The first setting of TIME brings the module ONLINE. DESIGN CHOICE (log 11). -/
def State.setTime (s : State) (t : Word) : State :=
  { s with time := t, modState := .online, dies := vecMap (fun (d : Die) =>
      { d with queues := vecMap (fun (q : LaunchQueue) => { q with since := t }) d.queues }) s.dies }

/-- The status block rewritten, its generation even again. -/
def TimeStatus.bump (t : TimeStatus) : TimeStatus := { t with generation := t.generation + 2 }

/-- PTP_EVENT_MESSAGE (R450, R451): the first lock sets TIME; after that only the rate is steered.
DEDUCED (log 44). -/
def execPtpEventMessage (o : PtpObs) (s : State) : Host.Outcome State Fault Refusal :=
  if !s.booted then .next s
  else
    let s := if s.modState == .reset then s.setTime o.grand else s
    .next { s with timeStatus :=
      { s.timeStatus.bump with state := 1, offset := o.offset, bound := o.bound, rate := clampRate o.rate, last := s.time } }

/-- TIME_LOCK_TIMEOUT (R450). -/
def execTimeLockTimeout (s : State) : Host.Outcome State Fault Refusal :=
  s.when (s.booted && s.modState == .reset) (s.setTime 0)

/-- TIME_HOLDOVER (R451): the bound is known only while LOCKED. -/
def execTimeHoldover (s : State) : Host.Outcome State Fault Refusal :=
  s.when (s.timeStatus.state == 1) { s with timeStatus := { s.timeStatus.bump with state := 2, bound := -1 } }

/-! ## The L2's check mode (R397, R402) -/

def State.setL2 (s : State) (d : DieNo) (mode : Word) (done : Nat) : State :=
  let x := s.die d.toNat
  s.setDie d.toNat { x with l2mode := mode, l2switches := x.l2switches + w64 done }

/-- L2_SWITCH_TO_DECTED. -/
def execL2SwitchToDected (d : DieNo) (s : State) : Host.Outcome State Fault Refusal :=
  s.when ((s.die d.toNat).l2mode == 0) (s.setL2 d 2 0)

/-- L2_SWITCH_TO_SECDED. -/
def execL2SwitchToSecded (d : DieNo) (s : State) : Host.Outcome State Fault Refusal :=
  s.when ((s.die d.toNat).l2mode == 1) (s.setL2 d 3 0)

/-- L2_SWITCH_COMPLETE. -/
def execL2SwitchComplete (d : DieNo) (s : State) : Host.Outcome State Fault Refusal :=
  let m := (s.die d.toNat).l2mode
  s.when (m.getLsbD 1) (s.setL2 d (if m.getLsbD 0 then 0 else 1) 1)

/-! ## Supply, clocks, coolant (R452 to R455) -/

/-- SUPPLY_SAG. -/
def execSupplySag (d : DieNo) (s : State) : Host.Outcome State Fault Refusal :=
  let x := s.die d.toNat
  s.when (!x.sagging) (s.setDie d.toNat { x with sagging := true, sags := x.sags + 1 })

/-- SAG_RESTORE. -/
def execSagRestore (d : DieNo) (s : State) : Host.Outcome State Fault Refusal :=
  .next (s.setDie d.toNat { s.die d.toNat with sagging := false })

/-- No step of the clocks while they are locked. -/
def State.clocksFree (s : State) : Bool := !s.clocksLocked && !s.locking

/-- The lowest and the highest clock, in units of 100 MHz. -/
def minClock : Nat := 10
def maxClock : Nat := 20
def Die.stepDown (x : Die) : Die := { x with clock := max minClock (x.clock - 1) }
def Die.stepUp (x : Die) : Die := { x with clock := min maxClock (x.clock + 1) }

/-- CLOCK_STEP_DOWN: the module's draw over 100 µs, in watts, is above the limit in force, and each die's clock steps. -/
def execClockStepDown (o : DrawObs) (s : State) : Host.Outcome State Fault Refusal :=
  s.when (s.clocksFree && s.powerLimit.toNat < o.draw) { s with dies := vecMap Die.stepDown s.dies }

/-- CLOCK_STEP_UP: the draw is below 95 % of the limit. -/
def execClockStepUp (o : DrawObs) (s : State) : Host.Outcome State Fault Refusal :=
  s.when (s.clocksFree && 100 * o.draw < 95 * s.powerLimit.toNat) { s with dies := vecMap Die.stepUp s.dies }

/-- COOLANT_WARNING. -/
def execCoolantWarning (s : State) : Host.Outcome State Fault Refusal :=
  s.when s.clocksFree { s with dies := vecMap Die.stepDown s.dies }

/-- COOLANT_CRITICAL: DRAINING with a deadline of 10^8 ticks. DEDUCED (log 59). -/
def execCoolantCritical (s : State) : Host.Outcome State Fault Refusal := .next (s.startDrain' (10 ^ 8))

/-! ## Links (R385, R400, R449) -/

/-- LINK_FAILURE: the link is down and its health bit cleared. DEDUCED (log 48). -/
def execLinkFailure (l : BitVec 5) (s : State) : Host.Outcome State Fault Refusal :=
  let mask : BitVec 32 := BitVec.ofNat 32 s.health &&& ~~~(1#32 <<< l.toNat)
  .next { s.writeNear (Config.gazetteerBase + 0x10) 4 mask.toNat with linksDown := s.linksDown ||| (1#32 <<< l.toNat) }

/-- LINK_RETRAINING: the supervisor may set the health bit again. DEDUCED (log 48). -/
def execLinkRetraining (l : BitVec 5) (s : State) : Host.Outcome State Fault Refusal :=
  .next { s with linksDown := s.linksDown &&& ~~~(1#32 <<< l.toNat) }

/-- A link's counters move. -/
def State.linkCount (s : State) (l : BitVec 5) (crc : Bool) : State :=
  let d := l.toNat / 8
  let x := s.die d
  let p := x.links[l.toNat % 8]?.getD (0, 0)
  s.setDie d { x with links := x.links.setIfInBounds (l.toNat % 8) (if crc then (p.1, satSucc32 p.2) else (satSucc32 p.1, p.2)) }

/-- FLIT_CRC_ERROR: a flit received with a bad CRC; or one that this module sent, which it sends again.
DEDUCED (log 48). -/
def execFlitCrcError (o : FlitObs) (s : State) : Host.Outcome State Fault Refusal := .next (s.linkCount o.link (!o.sent))

/-- FLIT_ACK_TIMEOUT: a flit sent again. DEDUCED (log 48). -/
def execFlitAckTimeout (l : BitVec 5) (s : State) : Host.Outcome State Fault Refusal := .next (s.linkCount l false)

/-! ## The host's accesses (R216, R440) -/

/-- Every frame that a range touches exists. -/
def nearRange (a n : Nat) : Bool := (List.range ((a + n - 1) / 65536 - a / 65536 + 1)).all (fun i => nearFrame (a / 65536 + i))

/-- The host is an agent like any other: what stashes and cache rooms hold of a range is recalled. DESIGN CHOICE (log 69). -/
def State.hostTouch (s : State) (p : Phys) (n : Nat) (write : Bool) : State := (s.recallAt none p n).cacheOthers none p n write

/-- What BAR0 shows at an offset (R441): ID, CAP, the launch queue registers and the time status of each die, MGMTCMD, the
health table and the memory from CAP; of other offsets the manual says nothing. DESIGN CHOICE (log 69). -/
def State.barByte (s : State) (free o : Nat) : Byte :=
  let part (w : Word) : Byte := w.extractLsb' (8 * (o % 8)) 8
  let d := o / 0x1_0000 - 1
  let i := o % 0x1_0000
  if o < 8 then part idWord
  else if o < 16 then part (w64 Config.capBase)
  else if 0x1_0000 ≤ o && o < 0x5_0000 && i < 0x200 then part (s.windowRead (Config.launchAt d + i / 8 * 8))
  else if 0x1_0000 ≤ o && o < 0x5_0000 && 0x1000 ≤ i && i < 0x1040 then part (s.windowRead (Config.timeAt d + (i - 0x1000) / 8 * 8))
  else if 0x10_0000 ≤ o && o < 0x10_0008 then part s.mgmt
  else if 0x20_0000 ≤ o && o < 0x20_1000 then memGet s.mem (Config.healthBase + (o - 0x20_0000))
  else if 0x30_0000 ≤ o && o < 0x31_0000 then memGet s.mem (Config.capBase + (o - 0x30_0000))
  else Config.freeByte (freeKey free o)

/-- The register that an 8-byte write of the host to BAR0 reaches. -/
def barRegister (o : Nat) : Option Nat :=
  if o % 8 ≠ 0 then none
  else if 0x1_0000 ≤ o && o < 0x5_0000 && o % 0x1_0000 < 0x200 then some (Config.launchAt (o / 0x1_0000 - 1) + o % 0x1_0000)
  else if o = 0x10_0000 then some Config.mgmtAt
  else none

/-- HDM_ACCESS (R440, R441): the host's reads and writes of near memory and of BAR0; a write to a register arrives as a
supervisor's would. A module that is in reset is absent, and nothing of it answers (R456). DESIGN CHOICE (log 69). -/
def execHdmAccess (r : HdmReq) (s : State) : Host.Outcome State Fault Refusal :=
  if !s.booted then .next s
  else
  match r with
  | .read a n =>
    let s := s.hostTouch { far := false, addr := a, home := a / 2 ^ 38 } n false
    .next (s.emit (.hdm (if nearRange a n then memRead s.mem a n else List.replicate n 0xFF)))
  | .write a bs =>
    let p : Phys := { far := false, addr := a, home := a / 2 ^ 38 }
    if nearRange a bs.length then .next ((s.hostTouch p bs.length true).storeAt p bs) else .next s
  | .barRead off n =>
    let (f, s) := s.draw
    .next (s.emit (.bar ((List.range n).map (fun i => s.barByte f (off.toNat + i)))))
  | .barWrite off bs =>
    match (if bs.length = 8 then barRegister off.toNat else none) with
    | some a => .next { s with agenda := .reg a (w64 (leNat bs)) :: s.agenda }
    | none => .next s

/-- CXL_CACHE_SNOOP (R216): far lines are coherent with the host; what stashes and cache rooms hold of them is recalled,
and a write brings the host's bytes. DESIGN CHOICE (log 69). -/
def execCxlCacheSnoop (pa : Nat) (data : Option (List Byte)) (s : State) : Host.Outcome State Fault Refusal :=
  let p : Phys := { far := true, addr := pa, home := 0 }
  match data with
  | some bs => .next ((s.hostTouch p bs.length true).storeAt p bs)
  | none => .next (s.hostTouch { p with addr := pa / 64 * 64 } 64 false)

/-! ## The health table (R390) -/

def ModState.health : ModState → Nat
  | .draining => 1
  | .drained => 2
  | .service => 3
  | .retire => 4
  | _ => 0

/-- A sum over the structures of R398 that count events. -/
def Die.eccSum (x : Die) (f : BitVec 32 × BitVec 32 → BitVec 32) : Nat := (((x.ecc.toList).take 13).map (fun p => (f p).toNat)).sum

/-- One die's 64 bytes. -/
def State.healthDie (s : State) (d : Nat) : List Byte :=
  let x := s.die d
  let cs := (List.range 256).map (fun i => s.core (256 * d + i))
  leBytes 2 (cs.filter (fun c => !c.disabled)).length ++ leBytes 2 ((cs.map Core.goodBanks).sum % 2 ^ 16) ++
    leBytes 1 (x.l2mode.toNat % 2) ++ leBytes 3 0 ++ leBytes 8 x.sags.toNat ++ leBytes 8 (x.eccSum Prod.fst) ++
    leBytes 8 (x.eccSum Prod.snd) ++ leBytes 8 x.energy.toNat ++ List.replicate 24 0

/-- Bit s for each HBM stack that has not reached the limit of R412. DEDUCED (log 68). -/
def State.stacksHealthy (s : State) : Nat := ((List.range 12).map (fun i => bit (!(s.hbmLimit[i]?.getD false)) * 2 ^ i)).sum

/-- The table, with a generation. -/
def State.healthTable (s : State) (gen : Nat) : List Byte :=
  leBytes 8 gen ++ leBytes 8 s.time.toNat ++ leBytes 1 s.modState.health ++ leBytes 3 0 ++ leBytes 4 s.recordsWritten.toNat ++
    leBytes 4 s.health ++ leBytes 2 s.stacksHealthy ++ List.replicate 34 0 ++
    ((List.range 4).flatMap s.healthDie : List Byte)

/-- HEALTH_TABLE_REWRITE (R390). -/
def execHealthTableRewrite (s : State) : Host.Outcome State Fault Refusal :=
  s.when (s.modState != .reset)
    { s with mem := memWrite s.mem Config.healthBase (s.healthTable ((s.readNear Config.healthBase 8 + 2) % 2 ^ 64)) }

/-! ## Energy (R358, R397, R399) -/

/-- What a key's count is of a list of counts. -/
def countOf (k : Nat) (l : List (Nat × Nat)) : Nat := (findKey k l).getD 0
/-- A count raised. -/
def addKey (k n : Nat) (l : List (Nat × Nat)) : List (Nat × Nat) := setKey k (countOf k l + n) l
/-- An amount shared in proportion to counts, rounded down. -/
def shareOut (amount : Nat) (l : List (Nat × Nat)) : List (Nat × Nat) :=
  let total := (l.map (fun p => p.2)).sum
  if total = 0 then [] else l.map (fun p => (p.1, amount * p.2 / total))

/-- The cycles of each task with a running context on a die since the last attribution. -/
def State.dieRan (s : State) (d : Nat) : List (Nat × Nat) :=
  ((s.cores.filter (fun c => dieOf c.1 == d)).flatMap (fun c => c.2.ran)).foldl (fun l p => addKey p.1 p.2 l) []

/-- Cycles by task as cycles by launch. -/
def State.byLaunch (s : State) (l : List (Nat × Nat)) : List (Nat × Nat) :=
  l.foldl (fun m p => match s.task? p.1 with | some t => addKey t.launch p.2 m | none => m) []

/-- Nanojoules added to a task, and to a launch. -/
def State.giveTask (s : State) (p : Nat × Nat) : State :=
  match s.task? p.1 with
  | some t => s.setTask { t with energy := t.energy + p.2 }
  | none => s
def State.giveLaunch (s : State) (p : Nat × Nat) : State :=
  match s.launch? p.1 with
  | some l => s.setLaunch { l with energy := l.energy + p.2 }
  | none => s

/-- A launch's share of what is not a core's own, and its tasks' shares of it in proportion to their cycles. -/
def State.giveShared (s : State) (ran : List (Nat × Nat)) (p : Nat × Nat) : State :=
  let mine := ran.filter (fun r => ((s.task? r.1).map (fun t => t.launch)) == some p.1)
  (shareOut p.2 mine).foldl State.giveTask (s.giveLaunch p)

/-- One core's energy goes to the tasks that have run on it, and to their launches. -/
def State.giveCore (s : State) (p : Nat × Nat) : State :=
  let l := shareOut p.2 (s.core p.1).ran
  (s.byLaunch l).foldl State.giveLaunch (l.foldl State.giveTask s)

/-- A die's counts of cycles begin again. -/
def State.clearCycles (s : State) (d : Nat) : State :=
  { s with cores := s.cores.map (fun c => if dieOf c.1 = d then (c.1, { c.2 with ran := [] }) else c),
           quads := s.quads.map (fun q => if q.1 / 64 = d then (q.1, { q.2 with used := [] }) else q) }

/-- What a die has drawn in a microsecond is attributed. DESIGN CHOICE (log 70). -/
def State.attributeDie (s : State) (o : EnergyObs) : State :=
  let d := o.die.toNat
  let x := s.die d
  let s := { s.setDie d { x with energy := x.energy + w64 o.drawn } with moduleEnergy := s.moduleEnergy + w64 o.module }
  let ran := s.dieRan d
  let s := o.cores.foldl State.giveCore s
  let s := o.quads.foldl (fun (s : State) p => (shareOut p.2 (s.quad p.1).used).foldl (fun s q => s.giveShared ran q) s) s
  ((shareOut o.rest (s.byLaunch ran)).foldl (fun s q => s.giveShared ran q) s).clearCycles d

/-- ENERGY_ATTRIBUTION (R399). DESIGN CHOICE (log 70). -/
def execEnergyAttribution (obs : List EnergyObs) (s : State) : Host.Outcome State Fault Refusal :=
  .next (obs.foldl (fun (s : State) o => s.attributeDie o) s)

end Sys2Proof.Machine
end

