-- ==== Sys2Proof/Machine/Migrate.lean ====
section
/-! DEFINITION. Migration and replication of spans, and the access snapshot (R230 to R232, R401). -/

namespace Sys2Proof.Machine

/-! ## Thresholds (R230) -/

structure Thresholds where
  /-- the epoch is 2^k ticks; a k outside 16 to 30 counts as the nearer of the two. DESIGN CHOICE (log 87) -/
  k : Nat
  mig : Nat
  rep : Nat
  prom : Nat
  queueMax : Nat
  framesMin : Nat
  flags : Nat

def State.thresholds (s : State) : Thresholds :=
  let f (o : Nat) : Nat := s.readNear (Config.migrationBase + o) 4
  { k := max 16 (min 30 (f 0x00)), mig := f 0x04, rep := f 0x08, prom := f 0x0C, queueMax := f 0x10, framesMin := f 0x14, flags := f 0x18 }

/-- Frames in the 64 KiB free ring of a die. -/
def State.freeFrames (s : State) (d : Nat) : Nat :=
  let h := Config.ringBase d 0
  (s.readNear (h + 24) 8 + 2 ^ 64 - s.readNear (h + 16) 8) % 2 ^ 64

/-! ## The leaves of a span -/

/-- A leaf that maps part of a span: its first page, level, place and value. -/
structure SpanLeaf where
  page : Nat
  lvl : Nat
  at_ : Nat
  e : Nat

/-- The valid leaves of a span; none where some entry of it may not be moved. DEDUCED (log 66). -/
def State.spanLeaves (s : State) (span : Nat) : Nat → Nat → Option (List SpanLeaf)
  | 0, _ => some []
  | fuel + 1, i =>
    let page := span * 32 + i
    match s.walk false (page * 65536) with
    | .leaf a 2 e => if i = 0 then some [{ page := page, lvl := 2, at_ := a, e := e }] else none
    | .leaf a 3 e => (s.spanLeaves span fuel (i + 1)).map (fun l => { page := page, lvl := 3, at_ := a, e := e } :: l)
    | .bad 0 => s.spanLeaves span fuel (i + 1)
    | _ => none

/-- A span that the unit may consider: its leaves are all in state NONE, and no revisioned region touches it.
DEDUCED (log 66). -/
def State.movable (s : State) (span : Nat) : Option (List SpanLeaf) :=
  let lo := span * 2 ^ 21
  let hi := lo + 2 ^ 21
  let revisioned := s.launches.any (fun l => l.regions.any (fun r => r.merge != 0 && r.base < hi && lo < r.base + r.size))
  match s.spanLeaves span 32 0 with
  | some (x :: rest) => if !revisioned && (x :: rest).all (fun l => leafState l.e == 0) then some (x :: rest) else none
  | _ => none

/-! ## Counting (R230, R401) -/

/-- The die that tracks a span. -/
def State.spanHome (s : State) (span : Nat) : Nat :=
  match s.spanLeaves span 32 0 with
  | some (l :: _) => leafHome l.e
  | _ => match s.walk false (span * 2 ^ 21) with | .leaf _ _ e => leafHome e | _ => 0

/-- One more miss of a die's agents. -/
def SpanCount.miss (p : SpanCount) (d : DieNo) : SpanCount :=
  let n := p.misses[d.toNat]'d.isLt
  { p with misses := p.misses.set d.toNat (if n = BitVec.allOnes 16 then n else n + 1) d.isLt }

/-- An access of a die's agent to a span misses the L2: the span takes an entry of its home die's table at its first
counted miss, where one is free (R230, R401). -/
def State.countMiss (s : State) (d : DieNo) (span : Nat) : State :=
  let h := s.spanHome span
  let x := s.die h
  if x.spans.any (fun p => p.span == span) then
    s.setDie h { x with spans := x.spans.map (fun p => if p.span == span then p.miss d else p) }
  else if x.spans.length < 16384 then
    s.setDie h { x with spans := x.spans ++ [({ span := span, misses := Vector.replicate 4 0 } : SpanCount).miss d] }
  else if x.untracked.contains span then s
  else s.setDie h { x with untracked := span :: x.untracked }

/-! ## The decision (R231) -/

def SpanCount.counts (p : SpanCount) : List Nat := p.misses.toList.map (fun n => n.toNat)

/-- The die with the most misses, the lowest on a tie. -/
def topDie (l : List Nat) : Nat := ((List.range 4).foldl (fun (b : Nat) d => if l[b]?.getD 0 < l[d]?.getD 0 then d else b) 0)

/-- What becomes of a span: none, or the die and whether it is replicated there; `depth` gives the present depth of the
link queue from die h to die t at 4 h + t. A span whose leaves differ in TIER counts as of its first leaf's.
DESIGN CHOICE (log 92). -/
def State.decide (s : State) (t : Thresholds) (depth : List Nat) (p : SpanCount) (leaf : SpanLeaf) : Option (Nat × Bool) :=
  let a := p.counts
  let to_ := topDie a
  let n := a[to_]?.getD 0
  let home := leafHome leaf.e
  let room := t.framesMin ≤ s.freeFrames to_
  if leafFar leaf.e && t.flags.testBit 2 && t.prom ≤ n && room then some (to_, false)
  else if to_ ≠ home && t.mig ≤ n && 2 * (a[home]?.getD 0) ≤ n && depth[4 * home + to_]?.getD 0 ≤ t.queueMax && room then
    if t.flags.testBit 1 && t.rep ≤ n && !s.written.contains p.span then some (to_, true)
    else if t.flags.testBit 0 then some (to_, false)
    else none
  else none

/-- A frame for every leaf; none where a ring has not enough. -/
def State.takeFrames (s : State) (d : Nat) : List SpanLeaf → Option (List MovedLeaf × State)
  | [] => some ([], s)
  | l :: rest =>
    match s.ringTake d (3 - l.lvl) with
    | none => none
    | some (f, s) =>
      (s.takeFrames d rest).map (fun p => ({ page := l.page, level := l.lvl, frame := f, addr := l.at_ } :: p.1, p.2))

/-- The leaves are set to MIGRATING, and no translation of them is cached (R232). -/
def State.beginMove (s : State) (span d : Nat) (replica : Bool) (ls : List SpanLeaf) : State :=
  match s.takeFrames d ls with
  | none => s
  | some (fs, s) =>
    let s := ls.foldl (fun (s : State) l => (s.writeNear l.at_ 8 (putBits l.e 55 52 2)).tlbDropLeaf l.at_) s
    { s with moving := s.moving ++ [{ span := span, die := BitVec.ofNat 2 d, replica := replica, frames := fs }] }

def State.consider (s : State) (depth : List Nat) (p : SpanCount) : State :=
  match s.movable p.span with
  | some (l :: rest) =>
    (match s.decide s.thresholds depth p l with
    | some (d, rep) => s.beginMove p.span d rep (l :: rest)
    | none => s)
  | _ => s

/-! ## The access snapshot (R401) -/

def State.spanImage (s : State) (p : SpanCount) : List Byte :=
  leBytes 8 (p.span * 2 ^ 21 + bit (s.written.contains p.span)) ++ p.counts.flatMap (fun n => leBytes 2 n)

/-- A die's table goes to its buffer at an epoch's end. -/
def State.snapshotDie (s : State) (d : Nat) : State :=
  let x := s.die d
  let epoch := x.epoch + 1
  let s := s.setDie d { x with epoch := epoch }
  if x.snapshot = 0 then s
  else
    let base := x.snapshot.toNat / 65536 * 65536
    let gen := (s.readNear base 8 + 2) % 2 ^ 64
    let bytes := leBytes 8 gen ++ leBytes 8 epoch.toNat ++ leBytes 4 x.spans.length ++ leBytes 4 x.untracked.length ++
      List.replicate 40 0 ++ (x.spans.flatMap s.spanImage : List Byte)
    { s with mem := memWrite s.mem base bytes }

/-- Counters and flags are cleared, and the next epoch begins (R230). -/
def State.newEpoch (s : State) : State :=
  { s with dies := vecMap (fun (d : Die) => { d with spans := [], untracked := [] }) s.dies, written := [], epochStart := s.time }

/-- MIGRATION_EPOCH_END (R230, R231, R401), 2^k ticks after the epoch began: no span is considered while a deterministic
launch runs. DEDUCED (log 66). -/
def execMigrationEpochEnd (depth : List Nat) (s : State) : Host.Outcome State Fault Refusal :=
  if s.time.toNat < s.epochStart.toNat + 2 ^ s.thresholds.k then .next s
  else
    let tracked := s.dies.toList.flatMap (fun d => d.spans)
    let t := (List.range 4).foldl State.snapshotDie s
    let u := if t.launches.any (fun l => l.req.det && l.accepted) then t else tracked.foldl (fun (t : State) p => t.consider depth p) t
    .next u.newEpoch

/-! ## SPAN_MOVE_DONE (R232) -/

/-- A frame goes to the released ring of its home die: a near frame's die, or the one that a far leaf names. -/
def State.releaseHome (s : State) (far : Bool) (home f : Nat) : State :=
  if far then s.releaseTo home f else s.release f

/-- One leaf's data is copied, and the leaf rewritten: for the new frame, the old one being released, or over the old one
as a replica. DEDUCED (log 66). -/
def State.moveLeaf (s : State) (m : Moving) (f : MovedLeaf) : State :=
  match s.walk false (f.page * 65536) with
  | .leaf a lvl e =>
    if leafState e ≠ 2 || lvl ≠ f.level || a ≠ f.addr then s.release f.frame
    else
      let n := levelBytes lvl
      let src := physOf 0 lvl e
      let dst := f.frame * 65536
      let s := s.movePoison src dst n
      let s := if src.far then { s with mem := memWrite s.mem dst (memRead s.hostMem src.addr n) }
        else { s with mem := memCopy s.mem src.addr dst n }
      if m.replica then (s.writeNear a 8 (putBits e 55 52 3)).tlbDropLeaf a
      else
        let e' := putBits (putBits (putBits (putBits e 55 52 0) 51 16 f.frame) 7 6 m.die.toNat) 5 5 0
        (((s.cacheOthers none src n true).writeNear a 8 e').tlbDropLeaf a).releaseHome src.far src.home (leafFrame e)
  | _ => s.release f.frame

/-- SPAN_MOVE_DONE (R232). DEDUCED (log 66). -/
def execSpanMoveDone (span : BitVec 36) (s : State) : Host.Outcome State Fault Refusal :=
  match s.moving.find? (fun m => m.span == span.toNat) with
  | none => .next s
  | some m =>
    let s := m.frames.foldl (fun (s : State) f => s.moveLeaf m f) s
    let s := { s with moving := s.moving.filter (fun x => x.span != m.span) }
    .next (if m.replica then { s with replicas := s.replicas ++ [m] } else s)

end Sys2Proof.Machine
end

