-- ==== Sys2Proof/Machine/Scalar.lean ====
section
/-! DEFINITION. The sequencer's arithmetic: the SA group, the immediates and the constants (R117, R154
to R162). None of them faults or changes a flag. -/

namespace Sys2Proof.Machine

/-! ## The SA group (R158) -/

/-- ADD (R158). -/
def execAdd (d a b : XReg) (s : State) : Host.Outcome State Fault Refusal :=
  let x := s.x a
  let y := s.x b
  .next (s.retireX 4 d (x + y))

/-- SUB (R158). -/
def execSub (d a b : XReg) (s : State) : Host.Outcome State Fault Refusal :=
  let x := s.x a
  let y := s.x b
  .next (s.retireX 4 d (x - y))

/-- AND (R158). -/
def execAnd (d a b : XReg) (s : State) : Host.Outcome State Fault Refusal :=
  let x := s.x a
  let y := s.x b
  .next (s.retireX 4 d (x &&& y))

/-- OR (R158). -/
def execOr (d a b : XReg) (s : State) : Host.Outcome State Fault Refusal :=
  let x := s.x a
  let y := s.x b
  .next (s.retireX 4 d (x ||| y))

/-- XOR (R158). -/
def execXor (d a b : XReg) (s : State) : Host.Outcome State Fault Refusal :=
  let x := s.x a
  let y := s.x b
  .next (s.retireX 4 d (x ^^^ y))

/-- ANDN (R158). -/
def execAndn (d a b : XReg) (s : State) : Host.Outcome State Fault Refusal :=
  let x := s.x a
  let y := s.x b
  .next (s.retireX 4 d (x &&& ~~~y))

/-- ORN (R158). -/
def execOrn (d a b : XReg) (s : State) : Host.Outcome State Fault Refusal :=
  let x := s.x a
  let y := s.x b
  .next (s.retireX 4 d (x ||| ~~~y))

/-- XNOR (R158). -/
def execXnor (d a b : XReg) (s : State) : Host.Outcome State Fault Refusal :=
  let x := s.x a
  let y := s.x b
  .next (s.retireX 4 d (~~~(x ^^^ y)))

/-- SLL (R158). -/
def execSll (d a b : XReg) (s : State) : Host.Outcome State Fault Refusal :=
  let x := s.x a
  let y := s.x b
  .next (s.retireX 4 d (x <<< shamt y))

/-- SRL (R158). -/
def execSrl (d a b : XReg) (s : State) : Host.Outcome State Fault Refusal :=
  let x := s.x a
  let y := s.x b
  .next (s.retireX 4 d (x >>> shamt y))

/-- SRA (R158). -/
def execSra (d a b : XReg) (s : State) : Host.Outcome State Fault Refusal :=
  let x := s.x a
  let y := s.x b
  .next (s.retireX 4 d (x.sshiftRight (shamt y)))

/-- ROL (R158). -/
def execRol (d a b : XReg) (s : State) : Host.Outcome State Fault Refusal :=
  let x := s.x a
  let y := s.x b
  .next (s.retireX 4 d (x.rotateLeft (shamt y)))

/-- ROR (R158). -/
def execRor (d a b : XReg) (s : State) : Host.Outcome State Fault Refusal :=
  let x := s.x a
  let y := s.x b
  .next (s.retireX 4 d (x.rotateRight (shamt y)))

/-- MUL (R158). -/
def execMul (d a b : XReg) (s : State) : Host.Outcome State Fault Refusal :=
  let x := s.x a
  let y := s.x b
  .next (s.retireX 4 d (x * y))

/-- WMULS (R158). -/
def execWmuls (d a b : XReg) (s : State) : Host.Outcome State Fault Refusal :=
  let x := s.x a
  let y := s.x b
  .next (s.retireX 4 d (mulHigh x.toInt y.toInt))

/-- WMULU (R158). -/
def execWmulu (d a b : XReg) (s : State) : Host.Outcome State Fault Refusal :=
  let x := s.x a
  let y := s.x b
  .next (s.retireX 4 d (mulHigh x.toNat y.toNat))

/-- WMULM (R158). -/
def execWmulm (d a b : XReg) (s : State) : Host.Outcome State Fault Refusal :=
  let x := s.x a
  let y := s.x b
  .next (s.retireX 4 d (mulHigh x.toInt y.toNat))

/-- DIV (R158). -/
def execDiv (d a b : XReg) (s : State) : Host.Outcome State Fault Refusal :=
  let x := s.x a
  let y := s.x b
  .next (s.retireX 4 d (divS x y))

/-- DIVU (R158). -/
def execDivu (d a b : XReg) (s : State) : Host.Outcome State Fault Refusal :=
  let x := s.x a
  let y := s.x b
  .next (s.retireX 4 d (divU x y))

/-- REM (R158). -/
def execRem (d a b : XReg) (s : State) : Host.Outcome State Fault Refusal :=
  let x := s.x a
  let y := s.x b
  .next (s.retireX 4 d (remS x y))

/-- REMU (R158). -/
def execRemu (d a b : XReg) (s : State) : Host.Outcome State Fault Refusal :=
  let x := s.x a
  let y := s.x b
  .next (s.retireX 4 d (remU x y))

/-- MIN (R158). -/
def execMin (d a b : XReg) (s : State) : Host.Outcome State Fault Refusal :=
  let x := s.x a
  let y := s.x b
  .next (s.retireX 4 d (if x.slt y then x else y))

/-- MAX (R158). -/
def execMax (d a b : XReg) (s : State) : Host.Outcome State Fault Refusal :=
  let x := s.x a
  let y := s.x b
  .next (s.retireX 4 d (if x.slt y then y else x))

/-- MINU (R158). -/
def execMinu (d a b : XReg) (s : State) : Host.Outcome State Fault Refusal :=
  let x := s.x a
  let y := s.x b
  .next (s.retireX 4 d (if x.ult y then x else y))

/-- MAXU (R158). -/
def execMaxu (d a b : XReg) (s : State) : Host.Outcome State Fault Refusal :=
  let x := s.x a
  let y := s.x b
  .next (s.retireX 4 d (if x.ult y then y else x))

/-- SLT (R158). -/
def execSlt (d a b : XReg) (s : State) : Host.Outcome State Fault Refusal :=
  let x := s.x a
  let y := s.x b
  .next (s.retireX 4 d (w64 (bit (x.slt y))))

/-- SLTU (R158). -/
def execSltu (d a b : XReg) (s : State) : Host.Outcome State Fault Refusal :=
  let x := s.x a
  let y := s.x b
  .next (s.retireX 4 d (w64 (bit (x.ult y))))

/-- SEQ (R158). -/
def execSeq (d a b : XReg) (s : State) : Host.Outcome State Fault Refusal :=
  let x := s.x a
  let y := s.x b
  .next (s.retireX 4 d (w64 (bit (x == y))))

/-- SNE (R158). -/
def execSne (d a b : XReg) (s : State) : Host.Outcome State Fault Refusal :=
  let x := s.x a
  let y := s.x b
  .next (s.retireX 4 d (w64 (bit (x != y))))

/-- FNSB (R158). -/
def execFnsb (d a b : XReg) (s : State) : Host.Outcome State Fault Refusal :=
  let x := s.x a
  let y := s.x b
  .next (s.retireX 4 d (fnsb x y))

/-- BEXT (R158). -/
def execBext (d a b : XReg) (s : State) : Host.Outcome State Fault Refusal :=
  let x := s.x a
  let y := s.x b
  .next (s.retireX 4 d (bext x y))

/-- ADDW (R158). -/
def execAddw (d a b : XReg) (s : State) : Host.Outcome State Fault Refusal :=
  let x := s.x a
  let y := s.x b
  .next (s.retireX 4 d (sext32 (x + y)))

/-- SUBW (R158). -/
def execSubw (d a b : XReg) (s : State) : Host.Outcome State Fault Refusal :=
  let x := s.x a
  let y := s.x b
  .next (s.retireX 4 d (sext32 (x - y)))

/-- BINS (R160): xd is a source too. -/
def execBins (d a b : XReg) (s : State) : Host.Outcome State Fault Refusal :=
  .next (s.retireX 4 d (bins (s.x d) (s.x a) (s.x b)))

/-- CLZ (R158). -/
def execClz (d a : XReg) (s : State) : Host.Outcome State Fault Refusal :=
  let x := s.x a
  .next (s.retireX 4 d (w64 (leadingZeros 64 x.toNat)))

/-- CTZ (R158). -/
def execCtz (d a : XReg) (s : State) : Host.Outcome State Fault Refusal :=
  let x := s.x a
  .next (s.retireX 4 d (w64 (trailingZeros 64 x.toNat)))

/-- POPC (R158). -/
def execPopc (d a : XReg) (s : State) : Host.Outcome State Fault Refusal :=
  let x := s.x a
  .next (s.retireX 4 d (w64 (popCount 64 x.toNat)))

/-- BREV (R158). -/
def execBrev (d a : XReg) (s : State) : Host.Outcome State Fault Refusal :=
  let x := s.x a
  .next (s.retireX 4 d (x.reverse))

/-- BYTR (R158). -/
def execBytr (d a : XReg) (s : State) : Host.Outcome State Fault Refusal :=
  let x := s.x a
  .next (s.retireX 4 d (w64 (leNat (leBytes 8 x.toNat).reverse)))

/-! ## Immediates (R161) and constants (R117, R162) -/

/-- ADDI (R161). -/
def execAddi (d a : XReg) (imm : BitVec 12) (s : State) : Host.Outcome State Fault Refusal :=
  let x := s.x a
  let y := sext imm
  .next (s.retireX 4 d (x + y))

/-- ANDI (R161). -/
def execAndi (d a : XReg) (imm : BitVec 12) (s : State) : Host.Outcome State Fault Refusal :=
  let x := s.x a
  let y := sext imm
  .next (s.retireX 4 d (x &&& y))

/-- ORI (R161). -/
def execOri (d a : XReg) (imm : BitVec 12) (s : State) : Host.Outcome State Fault Refusal :=
  let x := s.x a
  let y := sext imm
  .next (s.retireX 4 d (x ||| y))

/-- XORI (R161). -/
def execXori (d a : XReg) (imm : BitVec 12) (s : State) : Host.Outcome State Fault Refusal :=
  let x := s.x a
  let y := sext imm
  .next (s.retireX 4 d (x ^^^ y))

/-- SLTI (R161). -/
def execSlti (d a : XReg) (imm : BitVec 12) (s : State) : Host.Outcome State Fault Refusal :=
  let x := s.x a
  let y := sext imm
  .next (s.retireX 4 d (w64 (bit (x.slt y))))

/-- SLTIU (R161). -/
def execSltiu (d a : XReg) (imm : BitVec 12) (s : State) : Host.Outcome State Fault Refusal :=
  let x := s.x a
  let y := sext imm
  .next (s.retireX 4 d (w64 (bit (x.ult y))))

/-- SLLI (R161). -/
def execSlli (d a : XReg) (n : BitVec 6) (s : State) : Host.Outcome State Fault Refusal :=
  let x := s.x a
  .next (s.retireX 4 d (x <<< n.toNat))

/-- SRLI (R161). -/
def execSrli (d a : XReg) (n : BitVec 6) (s : State) : Host.Outcome State Fault Refusal :=
  let x := s.x a
  .next (s.retireX 4 d (x >>> n.toNat))

/-- SRAI (R161). -/
def execSrai (d a : XReg) (n : BitVec 6) (s : State) : Host.Outcome State Fault Refusal :=
  let x := s.x a
  .next (s.retireX 4 d (x.sshiftRight n.toNat))

/-- RORI (R161). -/
def execRori (d a : XReg) (n : BitVec 6) (s : State) : Host.Outcome State Fault Refusal :=
  let x := s.x a
  .next (s.retireX 4 d (x.rotateRight n.toNat))

/-- LI: the sign-extended constant (R117). -/
def execLi (d : XReg) (imm : BitVec 32) (s : State) : Host.Outcome State Fault Refusal :=
  .next (s.retireX 12 d (sext imm))

/-- LIH: the constant over the low half of xd (R117). -/
def execLih (d : XReg) (imm : BitVec 32) (s : State) : Host.Outcome State Fault Refusal :=
  .next (s.retireX 12 d (imm ++ (s.x d).extractLsb' 0 32))

end Sys2Proof.Machine
end

