-- ==== Sys2Proof/Machine/Stream.lean ====
section
/-! DEFINITION. The VMEM instructions as the sequencer meets them: loads are routed to LQ and stores to SQ, where
`startVmem` gives their effect (R259, R336). -/

namespace Sys2Proof.Machine

/-- VLD (R259, R264). -/
def execVld (m : VMem) (v : VOp) (s : State) : Host.Outcome State Fault Refusal :=
  route (.vld m v) s

/-- VST (R259, R265). -/
def execVst (m : VMem) (v : VOp) (s : State) : Host.Outcome State Fault Refusal :=
  route (.vst m v) s

/-- VLDS (R259, R264). -/
def execVlds (m : VMem) (v : VOp) (xs : XReg) (s : State) : Host.Outcome State Fault Refusal :=
  route (.vlds m v xs) s

/-- VSTS (R259, R265). -/
def execVsts (m : VMem) (v : VOp) (xs : XReg) (s : State) : Host.Outcome State Fault Refusal :=
  route (.vsts m v xs) s

/-- VGATHER (R259, R264). -/
def execVgather (m : VMem) (v : VOp) (i : VOp) (wide : Bool) (s : State) : Host.Outcome State Fault Refusal :=
  route (.vgather m v i wide) s

/-- VSCATTER (R259, R265). -/
def execVscatter (m : VMem) (v : VOp) (i : VOp) (wide : Bool) (s : State) : Host.Outcome State Fault Refusal :=
  route (.vscatter m v i wide) s

/-- VLDX (R259, R264). -/
def execVldx (m : VMem) (v : VOp) (s : State) : Host.Outcome State Fault Refusal :=
  route (.vldx m v) s

/-- VPREF (R259, R264). -/
def execVpref (m : VMem) (s : State) : Host.Outcome State Fault Refusal :=
  route (.vpref m) s

end Sys2Proof.Machine
end

