-- ==== Sys2Proof/Machine/Vector.lean ====
section
/-! DEFINITION. The VALU, VINT, VCVT, VRED, VSFU and VACC instructions as the sequencer meets them: each is routed to
CQ with the values that it takes (R148, R155, R336), and computes by `Reader.vector` when CQ starts it. -/

namespace Sys2Proof.Machine

/-- VADD (R283, R284). -/
def execVadd (h : VHdr) (d : VOp) (a : VOp) (b : VSrc) (s : State) : Host.Outcome State Fault Refusal :=
  route (.vadd h d a b) s

/-- VSUB (R283, R284). -/
def execVsub (h : VHdr) (d : VOp) (a : VOp) (b : VSrc) (s : State) : Host.Outcome State Fault Refusal :=
  route (.vsub h d a b) s

/-- VMUL (R283, R284). -/
def execVmul (h : VHdr) (d : VOp) (a : VOp) (b : VSrc) (s : State) : Host.Outcome State Fault Refusal :=
  route (.vmul h d a b) s

/-- VFMA (R124, R284). -/
def execVfma (h : VHdr) (d : VOp) (a : VOp) (b : VOp) (c : Option VOp) (s : State) : Host.Outcome State Fault Refusal :=
  route (.vfma h d a b c) s

/-- VFMS (R124, R284). -/
def execVfms (h : VHdr) (d : VOp) (a : VOp) (b : VOp) (c : Option VOp) (s : State) : Host.Outcome State Fault Refusal :=
  route (.vfms h d a b c) s

/-- VMIN (R285). -/
def execVmin (h : VHdr) (d : VOp) (a : VOp) (b : VSrc) (s : State) : Host.Outcome State Fault Refusal :=
  route (.vmin h d a b) s

/-- VMAX (R285). -/
def execVmax (h : VHdr) (d : VOp) (a : VOp) (b : VSrc) (s : State) : Host.Outcome State Fault Refusal :=
  route (.vmax h d a b) s

/-- VABS (R285). -/
def execVabs (h : VHdr) (d : VOp) (a : VOp) (s : State) : Host.Outcome State Fault Refusal :=
  route (.vabs h d a) s

/-- VNEG (R285). -/
def execVneg (h : VHdr) (d : VOp) (a : VOp) (s : State) : Host.Outcome State Fault Refusal :=
  route (.vneg h d a) s

/-- VCMP (R281, R286). -/
def execVcmp (h : VHdr) (pd : PReg) (cond : BitVec 3) (a : VOp) (b : VSrc) (s : State) : Host.Outcome State Fault Refusal :=
  route (.vcmp h pd cond a b) s

/-- VSEL (R287). -/
def execVsel (h : VHdr) (d : VOp) (a : VOp) (b : VSrc) (s : State) : Host.Outcome State Fault Refusal :=
  route (.vsel h d a b) s

/-- VCPY (R287). -/
def execVcpy (h : VHdr) (d : VOp) (a : VSrc) (s : State) : Host.Outcome State Fault Refusal :=
  route (.vcpy h d a) s

/-- VIADD (R288). -/
def execViadd (h : VHdr) (d : VOp) (a : VOp) (b : VSrc) (s : State) : Host.Outcome State Fault Refusal :=
  route (.viadd h d a b) s

/-- VISUB (R288). -/
def execVisub (h : VHdr) (d : VOp) (a : VOp) (b : VSrc) (s : State) : Host.Outcome State Fault Refusal :=
  route (.visub h d a b) s

/-- VIMUL (R288). -/
def execVimul (h : VHdr) (d : VOp) (a : VOp) (b : VSrc) (s : State) : Host.Outcome State Fault Refusal :=
  route (.vimul h d a b) s

/-- VIMULH (R288). -/
def execVimulh (h : VHdr) (d : VOp) (a : VOp) (b : VSrc) (s : State) : Host.Outcome State Fault Refusal :=
  route (.vimulh h d a b) s

/-- VIMIN (R288). -/
def execVimin (h : VHdr) (d : VOp) (a : VOp) (b : VSrc) (s : State) : Host.Outcome State Fault Refusal :=
  route (.vimin h d a b) s

/-- VIMAX (R288). -/
def execVimax (h : VHdr) (d : VOp) (a : VOp) (b : VSrc) (s : State) : Host.Outcome State Fault Refusal :=
  route (.vimax h d a b) s

/-- VAND (R288). -/
def execVand (h : VHdr) (d : VOp) (a : VOp) (b : VSrc) (s : State) : Host.Outcome State Fault Refusal :=
  route (.vand h d a b) s

/-- VOR (R288). -/
def execVor (h : VHdr) (d : VOp) (a : VOp) (b : VSrc) (s : State) : Host.Outcome State Fault Refusal :=
  route (.vor h d a b) s

/-- VXOR (R288). -/
def execVxor (h : VHdr) (d : VOp) (a : VOp) (b : VSrc) (s : State) : Host.Outcome State Fault Refusal :=
  route (.vxor h d a b) s

/-- VANDN (R288). -/
def execVandn (h : VHdr) (d : VOp) (a : VOp) (b : VSrc) (s : State) : Host.Outcome State Fault Refusal :=
  route (.vandn h d a b) s

/-- VSLL (R288). -/
def execVsll (h : VHdr) (d : VOp) (a : VOp) (b : VSrc) (s : State) : Host.Outcome State Fault Refusal :=
  route (.vsll h d a b) s

/-- VSRL (R288). -/
def execVsrl (h : VHdr) (d : VOp) (a : VOp) (b : VSrc) (s : State) : Host.Outcome State Fault Refusal :=
  route (.vsrl h d a b) s

/-- VSRA (R288). -/
def execVsra (h : VHdr) (d : VOp) (a : VOp) (b : VSrc) (s : State) : Host.Outcome State Fault Refusal :=
  route (.vsra h d a b) s

/-- VROL (R288). -/
def execVrol (h : VHdr) (d : VOp) (a : VOp) (b : VSrc) (s : State) : Host.Outcome State Fault Refusal :=
  route (.vrol h d a b) s

/-- VPOPC (R288). -/
def execVpopc (h : VHdr) (d : VOp) (a : VOp) (s : State) : Host.Outcome State Fault Refusal :=
  route (.vpopc h d a) s

/-- VCLZ (R288). -/
def execVclz (h : VHdr) (d : VOp) (a : VOp) (s : State) : Host.Outcome State Fault Refusal :=
  route (.vclz h d a) s

/-- VCTZ (R288). -/
def execVctz (h : VHdr) (d : VOp) (a : VOp) (s : State) : Host.Outcome State Fault Refusal :=
  route (.vctz h d a) s

/-- VFNSB (R288). -/
def execVfnsb (h : VHdr) (d : VOp) (a : VOp) (b : VSrc) (s : State) : Host.Outcome State Fault Refusal :=
  route (.vfnsb h d a b) s

/-- VBREV (R288). -/
def execVbrev (h : VHdr) (d : VOp) (a : VOp) (s : State) : Host.Outcome State Fault Refusal :=
  route (.vbrev h d a) s

/-- VICMP (R281, R288). -/
def execVicmp (h : VHdr) (pd : PReg) (cond : BitVec 3) (a : VOp) (b : VSrc) (s : State) : Host.Outcome State Fault Refusal :=
  route (.vicmp h pd cond a b) s

/-- VCVT (R290, R291). -/
def execVcvt (h : VHdr) (d : VOp) (a : VOp) (part : BitVec 4) (sty : VTy) (s : State) : Host.Outcome State Fault Refusal :=
  route (.vcvt h d a part sty) s

/-- VQNT (R292). -/
def execVqnt (h : VHdr) (d : VOp) (a : VOp) (xc : XReg) (s : State) : Host.Outcome State Fault Refusal :=
  route (.vqnt h d a xc) s

/-- VDQNT (R293). -/
def execVdqnt (h : VHdr) (d : VOp) (a : VOp) (xc : XReg) (s : State) : Host.Outcome State Fault Refusal :=
  route (.vdqnt h d a xc) s

/-- VPACK (R294). -/
def execVpack (h : VHdr) (d : VOp) (a : VOp) (b : VOp) (s : State) : Host.Outcome State Fault Refusal :=
  route (.vpack h d a b) s

/-- VUNPACK (R294). -/
def execVunpack (h : VHdr) (d : VOp) (a : VOp) (p : Bool) (s : State) : Host.Outcome State Fault Refusal :=
  route (.vunpack h d a p) s

/-- VSCALE (R294). -/
def execVscale (h : VHdr) (d : VOp) (a : VOp) (b : VSrc) (s : State) : Host.Outcome State Fault Refusal :=
  route (.vscale h d a b) s

/-- VRSUM (R295). -/
def execVrsum (h : VHdr) (d : VOp) (a : VOp) (s : State) : Host.Outcome State Fault Refusal :=
  route (.vrsum h d a) s

/-- VRMAX (R295). -/
def execVrmax (h : VHdr) (d : VOp) (a : VOp) (s : State) : Host.Outcome State Fault Refusal :=
  route (.vrmax h d a) s

/-- VRMIN (R295). -/
def execVrmin (h : VHdr) (d : VOp) (a : VOp) (s : State) : Host.Outcome State Fault Refusal :=
  route (.vrmin h d a) s

/-- VSHUF (R295). -/
def execVshuf (h : VHdr) (d : VOp) (a : VOp) (b : VOp) (s : State) : Host.Outcome State Fault Refusal :=
  route (.vshuf h d a b) s

/-- VBCAST (R295). -/
def execVbcast (h : VHdr) (d : VOp) (a : VOp) (x : XReg) (s : State) : Host.Outcome State Fault Refusal :=
  route (.vbcast h d a x) s

/-- VROT (R295). -/
def execVrot (h : VHdr) (d : VOp) (a : VOp) (b : VSrc) (s : State) : Host.Outcome State Fault Refusal :=
  route (.vrot h d a b) s

/-- VSLIDE (R295). -/
def execVslide (h : VHdr) (d : VOp) (a : VOp) (b : VSrc) (s : State) : Host.Outcome State Fault Refusal :=
  route (.vslide h d a b) s

/-- VRCP (R78, R296). -/
def execVrcp (h : VHdr) (d : VOp) (a : VOp) (s : State) : Host.Outcome State Fault Refusal :=
  route (.vrcp h d a) s

/-- VRSQ (R78, R296). -/
def execVrsq (h : VHdr) (d : VOp) (a : VOp) (s : State) : Host.Outcome State Fault Refusal :=
  route (.vrsq h d a) s

/-- VSQRT (R78, R296). -/
def execVsqrt (h : VHdr) (d : VOp) (a : VOp) (s : State) : Host.Outcome State Fault Refusal :=
  route (.vsqrt h d a) s

/-- VEXP2 (R78, R296). -/
def execVexp2 (h : VHdr) (d : VOp) (a : VOp) (s : State) : Host.Outcome State Fault Refusal :=
  route (.vexp2 h d a) s

/-- VLOG2 (R78, R296). -/
def execVlog2 (h : VHdr) (d : VOp) (a : VOp) (s : State) : Host.Outcome State Fault Refusal :=
  route (.vlog2 h d a) s

/-- VTANH (R78, R296). -/
def execVtanh (h : VHdr) (d : VOp) (a : VOp) (s : State) : Host.Outcome State Fault Refusal :=
  route (.vtanh h d a) s

/-- VACCMUL (R298). -/
def execVaccmul (h : VHdr) (n : BitVec 8) (a : VOp) (b : VSrc) (s : State) : Host.Outcome State Fault Refusal :=
  route (.vaccmul h n a b) s

/-- VACCADD (R298). -/
def execVaccadd (h : VHdr) (n : BitVec 8) (a : VSrc) (s : State) : Host.Outcome State Fault Refusal :=
  route (.vaccadd h n a) s

/-- VNORM (R299). -/
def execVnorm (h : VHdr) (n : BitVec 8) (s : State) : Host.Outcome State Fault Refusal :=
  route (.vnorm h n) s

/-- VACCRD (R299). -/
def execVaccrd (h : VHdr) (d : VOp) (n : BitVec 8) (p : BitVec 4) (s : State) : Host.Outcome State Fault Refusal :=
  route (.vaccrd h d n p) s

/-- VACCZ (R299). -/
def execVaccz (h : VHdr) (n : BitVec 8) (x : XReg) (s : State) : Host.Outcome State Fault Refusal :=
  route (.vaccz h n x) s

end Sys2Proof.Machine
end

