-- ==== Sys2Proof/Machine/Dispatch.lean ====
section
/-! DEFINITION. One arm for every constructor of `Instr`: the meaning that gives its effect. -/

namespace Sys2Proof.Machine

/-- What the module does in the step that an instruction or event is. -/
def exec (i : Instr) (s : State) : Host.Outcome State Fault Refusal :=
  match i with
  | .add d a b => Sys2Proof.Machine.execAdd d a b s
  | .sub d a b => Sys2Proof.Machine.execSub d a b s
  | .and d a b => Sys2Proof.Machine.execAnd d a b s
  | .or d a b => Sys2Proof.Machine.execOr d a b s
  | .xor d a b => Sys2Proof.Machine.execXor d a b s
  | .andn d a b => Sys2Proof.Machine.execAndn d a b s
  | .orn d a b => Sys2Proof.Machine.execOrn d a b s
  | .xnor d a b => Sys2Proof.Machine.execXnor d a b s
  | .sll d a b => Sys2Proof.Machine.execSll d a b s
  | .srl d a b => Sys2Proof.Machine.execSrl d a b s
  | .sra d a b => Sys2Proof.Machine.execSra d a b s
  | .rol d a b => Sys2Proof.Machine.execRol d a b s
  | .ror d a b => Sys2Proof.Machine.execRor d a b s
  | .mul d a b => Sys2Proof.Machine.execMul d a b s
  | .wmuls d a b => Sys2Proof.Machine.execWmuls d a b s
  | .wmulu d a b => Sys2Proof.Machine.execWmulu d a b s
  | .wmulm d a b => Sys2Proof.Machine.execWmulm d a b s
  | .div d a b => Sys2Proof.Machine.execDiv d a b s
  | .divu d a b => Sys2Proof.Machine.execDivu d a b s
  | .rem d a b => Sys2Proof.Machine.execRem d a b s
  | .remu d a b => Sys2Proof.Machine.execRemu d a b s
  | .min d a b => Sys2Proof.Machine.execMin d a b s
  | .max d a b => Sys2Proof.Machine.execMax d a b s
  | .minu d a b => Sys2Proof.Machine.execMinu d a b s
  | .maxu d a b => Sys2Proof.Machine.execMaxu d a b s
  | .slt d a b => Sys2Proof.Machine.execSlt d a b s
  | .sltu d a b => Sys2Proof.Machine.execSltu d a b s
  | .seq d a b => Sys2Proof.Machine.execSeq d a b s
  | .sne d a b => Sys2Proof.Machine.execSne d a b s
  | .clz d a => Sys2Proof.Machine.execClz d a s
  | .ctz d a => Sys2Proof.Machine.execCtz d a s
  | .popc d a => Sys2Proof.Machine.execPopc d a s
  | .brev d a => Sys2Proof.Machine.execBrev d a s
  | .bytr d a => Sys2Proof.Machine.execBytr d a s
  | .fnsb d a b => Sys2Proof.Machine.execFnsb d a b s
  | .bext d a b => Sys2Proof.Machine.execBext d a b s
  | .bins d a b => Sys2Proof.Machine.execBins d a b s
  | .addw d a b => Sys2Proof.Machine.execAddw d a b s
  | .subw d a b => Sys2Proof.Machine.execSubw d a b s
  | .addi d a imm => Sys2Proof.Machine.execAddi d a imm s
  | .andi d a imm => Sys2Proof.Machine.execAndi d a imm s
  | .ori d a imm => Sys2Proof.Machine.execOri d a imm s
  | .xori d a imm => Sys2Proof.Machine.execXori d a imm s
  | .slli d a n => Sys2Proof.Machine.execSlli d a n s
  | .srli d a n => Sys2Proof.Machine.execSrli d a n s
  | .srai d a n => Sys2Proof.Machine.execSrai d a n s
  | .rori d a n => Sys2Proof.Machine.execRori d a n s
  | .slti d a imm => Sys2Proof.Machine.execSlti d a imm s
  | .sltiu d a imm => Sys2Proof.Machine.execSltiu d a imm s
  | .ldb d a imm => Sys2Proof.Machine.execLdb d a imm s
  | .ldbu d a imm => Sys2Proof.Machine.execLdbu d a imm s
  | .ldh d a imm => Sys2Proof.Machine.execLdh d a imm s
  | .ldhu d a imm => Sys2Proof.Machine.execLdhu d a imm s
  | .ldw d a imm => Sys2Proof.Machine.execLdw d a imm s
  | .ldwu d a imm => Sys2Proof.Machine.execLdwu d a imm s
  | .ldd d a imm => Sys2Proof.Machine.execLdd d a imm s
  | .stb r a imm => Sys2Proof.Machine.execStb r a imm s
  | .sth r a imm => Sys2Proof.Machine.execSth r a imm s
  | .stw r a imm => Sys2Proof.Machine.execStw r a imm s
  | .std r a imm => Sys2Proof.Machine.execStd r a imm s
  | .beqz a off => Sys2Proof.Machine.execBeqz a off s
  | .bnez a off => Sys2Proof.Machine.execBnez a off s
  | .bltz a off => Sys2Proof.Machine.execBltz a off s
  | .bgez a off => Sys2Proof.Machine.execBgez a off s
  | .bgtz a off => Sys2Proof.Machine.execBgtz a off s
  | .blez a off => Sys2Proof.Machine.execBlez a off s
  | .jal d off => Sys2Proof.Machine.execJal d off s
  | .jalr d a imm => Sys2Proof.Machine.execJalr d a imm s
  | .nop => Sys2Proof.Machine.execNop s
  | .halt => Sys2Proof.Machine.execHalt s
  | .exit => Sys2Proof.Machine.execExit s
  | .trap n => Sys2Proof.Machine.execTrap n s
  | .eret => Sys2Proof.Machine.execEret s
  | .brk n => Sys2Proof.Machine.execBrk n s
  | .yield => Sys2Proof.Machine.execYield s
  | .fence o sc => Sys2Proof.Machine.execFence o sc s
  | .rfence => Sys2Proof.Machine.execRfence s
  | .tfence => Sys2Proof.Machine.execTfence s
  | .timer d a => Sys2Proof.Machine.execTimer d a s
  | .pswap => Sys2Proof.Machine.execPswap s
  | .sstep a => Sys2Proof.Machine.execSstep a s
  | .latm scored => Sys2Proof.Machine.execLatm scored s
  | .srr d n => Sys2Proof.Machine.execSrr d n s
  | .srw n a => Sys2Proof.Machine.execSrw n a s
  | .hld d a off => Sys2Proof.Machine.execHld d a off s
  | .hst d a off => Sys2Proof.Machine.execHst d a off s
  | .hmov d a => Sys2Proof.Machine.execHmov d a s
  | .hget d a f => Sys2Proof.Machine.execHget d a f s
  | .hset d f a => Sys2Proof.Machine.execHset d f a s
  | .hrec d a => Sys2Proof.Machine.execHrec d a s
  | .hadv d a => Sys2Proof.Machine.execHadv d a s
  | .pand d a b => Sys2Proof.Machine.execPand d a b s
  | .por d a b => Sys2Proof.Machine.execPor d a b s
  | .pxor d a b => Sys2Proof.Machine.execPxor d a b s
  | .pandn d a b => Sys2Proof.Machine.execPandn d a b s
  | .pnot d a => Sys2Proof.Machine.execPnot d a s
  | .pfirstn d a b => Sys2Proof.Machine.execPfirstn d a b s
  | .pcnt d a => Sys2Proof.Machine.execPcnt d a s
  | .pfirst d a => Sys2Proof.Machine.execPfirst d a s
  | .loop k off => Sys2Proof.Machine.execLoop k off s
  | .wbase a imm => Sys2Proof.Machine.execWbase a imm s
  | .beq a b off => Sys2Proof.Machine.execBeq a b off s
  | .bne a b off => Sys2Proof.Machine.execBne a b off s
  | .blt a b off => Sys2Proof.Machine.execBlt a b off s
  | .bge a b off => Sys2Proof.Machine.execBge a b off s
  | .bltu a b off => Sys2Proof.Machine.execBltu a b off s
  | .bgeu a b off => Sys2Proof.Machine.execBgeu a b off s
  | .li d imm => Sys2Proof.Machine.execLi d imm s
  | .lih d imm => Sys2Proof.Machine.execLih d imm s
  | .atadd m => Sys2Proof.Machine.execAtadd m s
  | .atswap m => Sys2Proof.Machine.execAtswap m s
  | .atand m => Sys2Proof.Machine.execAtand m s
  | .ator m => Sys2Proof.Machine.execAtor m s
  | .atxor m => Sys2Proof.Machine.execAtxor m s
  | .atmin m => Sys2Proof.Machine.execAtmin m s
  | .atmax m => Sys2Proof.Machine.execAtmax m s
  | .atminu m => Sys2Proof.Machine.execAtminu m s
  | .atmaxu m => Sys2Proof.Machine.execAtmaxu m s
  | .cas m xc => Sys2Proof.Machine.execCas m xc s
  | .atfmax m => Sys2Proof.Machine.execAtfmax m s
  | .atfadd m => Sys2Proof.Machine.execAtfadd m s
  | .wait w => Sys2Proof.Machine.execWait w s
  | .waitt a timeout => Sys2Proof.Machine.execWaitt a timeout s
  | .vadd h d a b => Sys2Proof.Machine.execVadd h d a b s
  | .vsub h d a b => Sys2Proof.Machine.execVsub h d a b s
  | .vmul h d a b => Sys2Proof.Machine.execVmul h d a b s
  | .vfma h d a b c => Sys2Proof.Machine.execVfma h d a b c s
  | .vfms h d a b c => Sys2Proof.Machine.execVfms h d a b c s
  | .vmin h d a b => Sys2Proof.Machine.execVmin h d a b s
  | .vmax h d a b => Sys2Proof.Machine.execVmax h d a b s
  | .vabs h d a => Sys2Proof.Machine.execVabs h d a s
  | .vneg h d a => Sys2Proof.Machine.execVneg h d a s
  | .vcmp h pd cond a b => Sys2Proof.Machine.execVcmp h pd cond a b s
  | .vsel h d a b => Sys2Proof.Machine.execVsel h d a b s
  | .vcpy h d a => Sys2Proof.Machine.execVcpy h d a s
  | .viadd h d a b => Sys2Proof.Machine.execViadd h d a b s
  | .visub h d a b => Sys2Proof.Machine.execVisub h d a b s
  | .vimul h d a b => Sys2Proof.Machine.execVimul h d a b s
  | .vimulh h d a b => Sys2Proof.Machine.execVimulh h d a b s
  | .vimin h d a b => Sys2Proof.Machine.execVimin h d a b s
  | .vimax h d a b => Sys2Proof.Machine.execVimax h d a b s
  | .vand h d a b => Sys2Proof.Machine.execVand h d a b s
  | .vor h d a b => Sys2Proof.Machine.execVor h d a b s
  | .vxor h d a b => Sys2Proof.Machine.execVxor h d a b s
  | .vandn h d a b => Sys2Proof.Machine.execVandn h d a b s
  | .vsll h d a b => Sys2Proof.Machine.execVsll h d a b s
  | .vsrl h d a b => Sys2Proof.Machine.execVsrl h d a b s
  | .vsra h d a b => Sys2Proof.Machine.execVsra h d a b s
  | .vrol h d a b => Sys2Proof.Machine.execVrol h d a b s
  | .vpopc h d a => Sys2Proof.Machine.execVpopc h d a s
  | .vclz h d a => Sys2Proof.Machine.execVclz h d a s
  | .vctz h d a => Sys2Proof.Machine.execVctz h d a s
  | .vfnsb h d a b => Sys2Proof.Machine.execVfnsb h d a b s
  | .vbrev h d a => Sys2Proof.Machine.execVbrev h d a s
  | .vicmp h pd cond a b => Sys2Proof.Machine.execVicmp h pd cond a b s
  | .vcvt h d a part sty => Sys2Proof.Machine.execVcvt h d a part sty s
  | .vqnt h d a xc => Sys2Proof.Machine.execVqnt h d a xc s
  | .vdqnt h d a xc => Sys2Proof.Machine.execVdqnt h d a xc s
  | .vpack h d a b => Sys2Proof.Machine.execVpack h d a b s
  | .vunpack h d a p => Sys2Proof.Machine.execVunpack h d a p s
  | .vscale h d a b => Sys2Proof.Machine.execVscale h d a b s
  | .vrsum h d a => Sys2Proof.Machine.execVrsum h d a s
  | .vrmax h d a => Sys2Proof.Machine.execVrmax h d a s
  | .vrmin h d a => Sys2Proof.Machine.execVrmin h d a s
  | .vshuf h d a b => Sys2Proof.Machine.execVshuf h d a b s
  | .vbcast h d a x => Sys2Proof.Machine.execVbcast h d a x s
  | .vrot h d a b => Sys2Proof.Machine.execVrot h d a b s
  | .vslide h d a b => Sys2Proof.Machine.execVslide h d a b s
  | .vrcp h d a => Sys2Proof.Machine.execVrcp h d a s
  | .vrsq h d a => Sys2Proof.Machine.execVrsq h d a s
  | .vsqrt h d a => Sys2Proof.Machine.execVsqrt h d a s
  | .vexp2 h d a => Sys2Proof.Machine.execVexp2 h d a s
  | .vlog2 h d a => Sys2Proof.Machine.execVlog2 h d a s
  | .vtanh h d a => Sys2Proof.Machine.execVtanh h d a s
  | .vaccmul h n a b => Sys2Proof.Machine.execVaccmul h n a b s
  | .vaccadd h n a => Sys2Proof.Machine.execVaccadd h n a s
  | .vnorm h n => Sys2Proof.Machine.execVnorm h n s
  | .vaccrd h d n p => Sys2Proof.Machine.execVaccrd h d n p s
  | .vaccz h n x => Sys2Proof.Machine.execVaccz h n x s
  | .vld m v => Sys2Proof.Machine.execVld m v s
  | .vst m v => Sys2Proof.Machine.execVst m v s
  | .vlds m v xs => Sys2Proof.Machine.execVlds m v xs s
  | .vsts m v xs => Sys2Proof.Machine.execVsts m v xs s
  | .vgather m v idx wide => Sys2Proof.Machine.execVgather m v idx wide s
  | .vscatter m v idx wide => Sys2Proof.Machine.execVscatter m v idx wide s
  | .vldx m v => Sys2Proof.Machine.execVldx m v s
  | .vpref m => Sys2Proof.Machine.execVpref m s
  | .tlease t reserve => Sys2Proof.Machine.execTlease t reserve s
  | .trel t u => Sys2Proof.Machine.execTrel t u s
  | .tldt t nf sat rm k h xo => Sys2Proof.Machine.execTldt t nf sat rm k h xo s
  | .tzero t plane e => Sys2Proof.Machine.execTzero t plane e s
  | .tmma t plane ta tb enc => Sys2Proof.Machine.execTmma t plane ta tb enc s
  | .tmmaa t plane ta tb => Sys2Proof.Machine.execTmmaa t plane ta tb s
  | .tdrain a => Sys2Proof.Machine.execTdrain a s
  | .tstt t k h xo => Sys2Proof.Machine.execTstt t k h xo s
  | .abound t hd ha hb => Sys2Proof.Machine.execAbound t hd ha hb s
  | .arelax t hd ha hb hc f => Sys2Proof.Machine.execArelax t hd ha hb hc f s
  | .arelaxBilinear t hd ha hb => Sys2Proof.Machine.execArelaxBilinear t hd ha hb s
  | .asym t hd => Sys2Proof.Machine.execAsym t hd s
  | .aret t ha => Sys2Proof.Machine.execAret t ha s
  | .acond t ha xs => Sys2Proof.Machine.execAcond t ha xs s
  | .aalign t sg hd ha hb => Sys2Proof.Machine.execAalign t sg hd ha hb s
  | .achk t hd ha hb hc => Sys2Proof.Machine.execAchk t hd ha hb hc s
  | .atbl t xs first cnt => Sys2Proof.Machine.execAtbl t xs first cnt s
  | .cpy hd hs xn xt => Sys2Proof.Machine.execCpy hd hs xn xt s
  | .xtbl slot hs xt => Sys2Proof.Machine.execXtbl slot hs xt s
  | .xduc hd hs xn xs slot xt => Sys2Proof.Machine.execXduc hd hs xn xs slot xt s
  | .coll op hd hs xn xg xt => Sys2Proof.Machine.execColl op hd hs xn xg xt s
  | .send hs xr xw xt => Sys2Proof.Machine.execSend hs xr xw xt s
  | .recv hd xr xw xt => Sys2Proof.Machine.execRecv hd xr xw xt s
  | .renq d a w => Sys2Proof.Machine.execRenq d a w s
  | .kati t vector idx => Sys2Proof.Machine.execKati t vector idx s
  | .katc t vector idx check => Sys2Proof.Machine.execKatc t vector idx check s
  | .evpop d => Sys2Proof.Machine.execEvpop d s
  | .evpeek d => Sys2Proof.Machine.execEvpeek d s
  | .lrmap d a b reg mat pad => Sys2Proof.Machine.execLrmap d a b reg mat pad s
  | .lrqry d room => Sys2Proof.Machine.execLrqry d room s
  | .lflush a b inval => Sys2Proof.Machine.execLflush a b inval s
  | .lstash d a b => Sys2Proof.Machine.execLstash d a b s
  | .lunstash d a => Sys2Proof.Machine.execLunstash d a s
  | .fork d off => Sys2Proof.Machine.execFork d off s
  | .join d a => Sys2Proof.Machine.execJoin d a s
  | .rtype d a => Sys2Proof.Machine.execRtype d a s
  | .rmark d a b => Sys2Proof.Machine.execRmark d a b s
  | .queueRouteAfterRoom c => Sys2Proof.Machine.execQueueRouteAfterRoom c s
  | .queueEntryStart c k q => Sys2Proof.Machine.execQueueEntryStart c k q s
  | .queueEntryComplete c k q n => Sys2Proof.Machine.execQueueEntryComplete c k q n s
  | .loadDataReturn c k => Sys2Proof.Machine.execLoadDataReturn c k s
  | .waitGroupResume c => Sys2Proof.Machine.execWaitGroupResume c s
  | .waitSatisfied c => Sys2Proof.Machine.execWaitSatisfied c s
  | .waitTimeout c => Sys2Proof.Machine.execWaitTimeout c s
  | .waittEnd c => Sys2Proof.Machine.execWaittEnd c s
  | .timerAlarm c k => Sys2Proof.Machine.execTimerAlarm c k s
  | .sstepExpiry c => Sys2Proof.Machine.execSstepExpiry c s
  | .yieldWake c => Sys2Proof.Machine.execYieldWake c s
  | .haltWake d => Sys2Proof.Machine.execHaltWake d s
  | .contextFree c k => Sys2Proof.Machine.execContextFree c k s
  | .superstepJoin l => Sys2Proof.Machine.execSuperstepJoin l s
  | .superstepStart l => Sys2Proof.Machine.execSuperstepStart l s
  | .doorbell d c v => Sys2Proof.Machine.execDoorbell d c v s
  | .launchEntryConsume d c => Sys2Proof.Machine.execLaunchEntryConsume d c s
  | .clockLockComplete => Sys2Proof.Machine.execClockLockComplete s
  | .notifyTimeout d c => Sys2Proof.Machine.execNotifyTimeout d c s
  | .launchQueueRestart d c => Sys2Proof.Machine.execLaunchQueueRestart d c s
  | .dispatch task c k => Sys2Proof.Machine.execDispatch task c k s
  | .taskClassAge task => Sys2Proof.Machine.execTaskClassAge task s
  | .dispatcherPreempt task c => Sys2Proof.Machine.execDispatcherPreempt task c s
  | .detPower d uj => Sys2Proof.Machine.execDetPower d uj s
  | .leaseGrant d q => Sys2Proof.Machine.execLeaseGrant d q s
  | .leaseExpire d q => Sys2Proof.Machine.execLeaseExpire d q s
  | .win2WindowSwitch d q => Sys2Proof.Machine.execWin2WindowSwitch d q s
  | .lrmapDrainBegin c => Sys2Proof.Machine.execLrmapDrainBegin c s
  | .lrmapDrainEnd c => Sys2Proof.Machine.execLrmapDrainEnd c s
  | .jobStart j => Sys2Proof.Machine.execJobStart j s
  | .jobComplete j => Sys2Proof.Machine.execJobComplete j s
  | .acondJobStart d q => Sys2Proof.Machine.execAcondJobStart d q s
  | .acondJobEnd d q => Sys2Proof.Machine.execAcondJobEnd d q s
  | .remoteWriteArrive src d core dest r => Sys2Proof.Machine.execRemoteWriteArrive src d core dest r s
  | .sendReportArrive j r => Sys2Proof.Machine.execSendReportArrive j r s
  | .collResultArrive j r => Sys2Proof.Machine.execCollResultArrive j r s
  | .inboxEntryArrive c dest entry => Sys2Proof.Machine.execInboxEntryArrive c dest entry s
  | .renqResend c accepted => Sys2Proof.Machine.execRenqResend c accepted s
  | .inboxDeliver c => Sys2Proof.Machine.execInboxDeliver c s
  | .katPortDone c k vector => Sys2Proof.Machine.execKatPortDone c k vector s
  | .stashRecall c va => Sys2Proof.Machine.execStashRecall c va s
  | .faultRecordWrite d => Sys2Proof.Machine.execFaultRecordWrite d s
  | .watchdog c k src => Sys2Proof.Machine.execWatchdog c k src s
  | .taskcmdResume d c k => Sys2Proof.Machine.execTaskcmdResume d c k s
  | .taskcmdRestartPhase d c k => Sys2Proof.Machine.execTaskcmdRestartPhase d c k s
  | .taskcmdKill d c k => Sys2Proof.Machine.execTaskcmdKill d c k s
  | .taskcmdPreempt d c k => Sys2Proof.Machine.execTaskcmdPreempt d c k s
  | .taskcmdRestore d c k => Sys2Proof.Machine.execTaskcmdRestore d c k s
  | .taskcmdCancel d c k => Sys2Proof.Machine.execTaskcmdCancel d c k s
  | .txcmdDropPage d resume size page => Sys2Proof.Machine.execTxcmdDropPage d resume size page s
  | .txcmdDropAll d resume => Sys2Proof.Machine.execTxcmdDropAll d resume s
  | .txcmdResume d => Sys2Proof.Machine.execTxcmdResume d s
  | .txcmdComplete d => Sys2Proof.Machine.execTxcmdComplete d s
  | .taskRootWrite v => Sys2Proof.Machine.execTaskRootWrite v s
  | .supervisorRootWrite v => Sys2Proof.Machine.execSupervisorRootWrite v s
  | .arbmodeWrite d q v => Sys2Proof.Machine.execArbmodeWrite d q v s
  | .coreDisable c v => Sys2Proof.Machine.execCoreDisable c v s
  | .powerLimitWrite v => Sys2Proof.Machine.execPowerLimitWrite v s
  | .registerWrite d r v => Sys2Proof.Machine.execRegisterWrite d r v s
  | .drain deadline => Sys2Proof.Machine.execDrain deadline s
  | .online => Sys2Proof.Machine.execOnline s
  | .service => Sys2Proof.Machine.execService s
  | .drainDeadline => Sys2Proof.Machine.execDrainDeadline s
  | .migrationEpochEnd depth => Sys2Proof.Machine.execMigrationEpochEnd depth s
  | .spanMoveDone span => Sys2Proof.Machine.execSpanMoveDone span s
  | .l2SwitchToDected d => Sys2Proof.Machine.execL2SwitchToDected d s
  | .l2SwitchToSecded d => Sys2Proof.Machine.execL2SwitchToSecded d s
  | .l2SwitchComplete d => Sys2Proof.Machine.execL2SwitchComplete d s
  | .supplySag d => Sys2Proof.Machine.execSupplySag d s
  | .sagRestore d => Sys2Proof.Machine.execSagRestore d s
  | .clockStepDown o => Sys2Proof.Machine.execClockStepDown o s
  | .clockStepUp o => Sys2Proof.Machine.execClockStepUp o s
  | .coolantWarning => Sys2Proof.Machine.execCoolantWarning s
  | .coolantCritical => Sys2Proof.Machine.execCoolantCritical s
  | .linkFailure l => Sys2Proof.Machine.execLinkFailure l s
  | .flitCrcError o => Sys2Proof.Machine.execFlitCrcError o s
  | .ptpEventMessage o => Sys2Proof.Machine.execPtpEventMessage o s
  | .timeLockTimeout => Sys2Proof.Machine.execTimeLockTimeout s
  | .moduleReset o => Sys2Proof.Machine.execModuleReset o s
  | .firmwareUpdate idx => Sys2Proof.Machine.execFirmwareUpdate idx s
  | .spdmRequest req => Sys2Proof.Machine.execSpdmRequest req s
  | .hdmAccess r => Sys2Proof.Machine.execHdmAccess r s
  | .healthTableRewrite => Sys2Proof.Machine.execHealthTableRewrite s
  | .illegalInstruction c w0 w1 => Sys2Proof.Machine.execIllegalInstruction c w0 w1 s
  | .instructionFetchFault c f => Sys2Proof.Machine.execInstructionFetchFault c f s
  | .linkRetraining l => Sys2Proof.Machine.execLinkRetraining l s
  | .timeHoldover => Sys2Proof.Machine.execTimeHoldover s
  | .collectivePacketArrive core head group rank elems => Sys2Proof.Machine.execCollectivePacketArrive core head group rank elems s
  | .cxlCacheSnoop pa data => Sys2Proof.Machine.execCxlCacheSnoop pa data s
  | .flitAckTimeout l => Sys2Proof.Machine.execFlitAckTimeout l s
  | .energyAttribution obs => Sys2Proof.Machine.execEnergyAttribution obs s

end Sys2Proof.Machine
end

