-- ==== Sys2Proof/Machine/Env.lean ====
section
/-! DEFINITION. What comes to the module beside the steps of the table: soft errors, far frames that the host
interface loses and finds, misses of the L2, the id that fabric enumeration gives, and the banks that the boot test
finds bad (R146, R210, R230, R233, R398). -/

namespace Sys2Proof.Machine

/-! ## Soft errors (R398) -/

/-- The structure of an uncorrectable sector: a Lodge's, the L2's where it struck there, far memory, or the HBM stack of
the frame (R216). -/
def Poison.placed (q : Poison) : Poison :=
  { q with structure_ :=
      if q.lodgeOf.isSome then 0
      else if q.structure_ = 1 || q.structure_ = 2 then q.structure_
      else BitVec.ofNat 4 (memStructure q.far (q.sector / 1024)) }

/-- A sector becomes uncorrectable. -/
def State.poisonSector (s : State) (q : Poison) : State :=
  let p := q.placed
  { s with poison := p :: s.poison.filter (fun r => !(r.lodgeOf == p.lodgeOf && r.far == p.far && r.sector == p.sector)) }

/-- A corrected error: its structure's counter moves, and for a Lodge's banks and tiles the core's PERF registers
(R395). -/
def State.correct (s : State) (d : DieNo) (st : BitVec 4) (c : Option Nat) : State :=
  let s := s.eccCount d.toNat st.toNat false
  match c with
  | some c => if st = 0 || st = 11 then s.count c 0x19 1 else s
  | none => s

/-- TIME of an uncorrectable error of structure 8 or 10 (R412). -/
def State.noteSoft (s : State) (d : Nat) : State :=
  let x := s.die d
  s.setDie d { x with softLog := x.softLog ++ [s.time] }

/-- The ECC_UNCORR of a structure that has no address (R406). -/
def softTrap (d st : Nat) : Trap := eccUncorr 0 d st

/-- A register, latch or queue of a context: its task halts, and no phase is cancelled. DEDUCED (log 68). -/
def State.registerError (s : State) (c : Nat) (k : Bool) : State :=
  let d := dieOf c
  let x := s.ctx c k
  let s := s.noteSoft d
  if x.mode == .free then s.eccCount d 8 true
  else s.takeTrap c k .halted false srcSequencer x.pc (softTrap d 8)

/-- A cell's special state becomes NAN, and a record is logged. DEDUCED (log 68). -/
def State.cellError (s : State) (n : Nat) (p : Bool) (i j : BitVec 7) : State :=
  let q := s.quad n
  let v := q.plane p
  let key := 128 * i.toNat + j.toNat
  let cell := (findKey key v.cells).getD (match v.seed with | some f => freeCell f n key | none => PCell.zero)
  let s := s.setQuad n (q.setPlane p { v with cells := setKey key { cell with sp := .nan } v.cells })
  let t := softTrap (n / 64) 9
  (s.eccOf t).raise (n / 64)
    { code := t.code, grade := t.grade, status := .logged, source := srcCq, detail := t.detail, time := s.time, aux := t.aux }

/-- The supervisor's core of a die faults. DEDUCED (log 68). -/
def State.controlError (s : State) (d : DieNo) : State :=
  let n := 1024 + d.toNat
  let core := s.core n
  (s.noteSoft d.toNat).takeTrap n core.active .halted false srcSequencer core.me.pc (softTrap d.toNat 10)

/-- A soft error strikes. -/
def State.softError (s : State) (e : SoftError) : State :=
  match e with
  | .sector q => s.poisonSector q
  | .corrected d st c => s.correct d st c
  | .translation d n =>
    ({ s with tlb := removeAt n s.tlb } : State).eccCount d.toNat 7 false
  | .record c a =>
    let core := s.core c
    (s.setCore c { core with records := core.records.filter (fun r => r.1 != a) }).eccCount (dieOf c) 7 false
  | .register c k => s.registerError c k
  | .cell n p i j => s.cellError n p i j
  | .control d => s.controlError d
  | .tags q =>
    let q : Poison := { q with lodgeOf := none, structure_ := 2 }
    (s.poisonSector q).eccCount (if q.far then 0 else q.sector * 64 / 2 ^ 38) 2 true

/-! ## Everything that comes so -/

/-- One of them. DESIGN CHOICE (log 76). -/
def execEnv (e : Env) (s : State) : Host.Outcome State Fault Refusal :=
  match e with
  | .soft e => .next (s.softError e)
  | .farLost f => .next { s with farGone := if s.farGone.contains f then s.farGone else f :: s.farGone }
  | .farBack f => .next { s with farGone := s.farGone.filter (fun g => g != f) }
  | .miss d va => .next (if va < 2 ^ 57 then s.countMiss d (va / 2 ^ 21) else s)
  | .enumerate id => .next { s with moduleId := id }
  | .bankBad c b => s.when (!s.booted) (s.setCore c { s.core c with good := (s.core c).good &&& ~~~(1#48 <<< b.toNat) })

end Sys2Proof.Machine
end

