-- ==== Sys2Proof/Machine/Tick.lean ====
section
/-! DEFINITION. What a step does besides its move: time and clocks advance, energy buckets refill, the
performance counters count cycles, held frames go to the rings, ready tasks note whether a context is free
(R222, R341, R358, R359, R393 to R395, R399). -/

namespace Sys2Proof.Machine

/-! ## Time and clocks (R393, R394, R452 to R454) -/

/-- Ticks of a step where the schedule gives none. DESIGN CHOICE (log 2). -/
def stepTicks : Nat := 10

/-- Cycles of a die in the ticks of such a step: its clock in units of 100 MHz, halved under a sag.
DESIGN CHOICE (log 2); DEDUCED (log 67). -/
def Die.stepCycles (x : Die) : Nat := if x.sagging then x.clock / 2 else x.clock

/-- A die's clock and energy bucket after some ticks and cycles: the bucket takes a quarter of the module's power
limit (R358). -/
def Die.tick (x : Die) (limit : Word) (ticks cycles : Nat) : Die :=
  { x with
    cycles := x.cycles + w64 cycles, bucket := min bucketCap (x.bucket + limit.toNat * ticks) }

/-- Ticks of the step, and each die's cycles. DESIGN CHOICE (log 2). -/
def State.stepPace (s : State) : Nat × (Die → Nat) :=
  match s.pace with
  | [] => (stepTicks, Die.stepCycles)
  | (t, c) :: _ => (t, fun _ => c)

/-! ## Cycles that are counted (R341, R395) -/

/-- The head of a queue: its first entry that has not started. -/
def Context.head (x : Context) (q : QName) : Option Entry :=
  match (x.queue q).find? Entry.unstarted with
  | some e => (match e.phase with | .waiting => some e | _ => none)
  | none => none

/-- The head waits for a token. -/
def Context.tokenWait (x : Context) (q : QName) : Bool :=
  match x.head q with
  | some e => !e.popped && !(popsOf q (Instr.tok e.instr)).all (fun n => 0 < x.token n)
  | none => false

/-- The head waits on the scoreboard: for rows and tiles (R280), or for an overlapping job (R247). -/
def State.scoreWait (s : State) (c : Nat) (k : Bool) (q : QName) : Bool :=
  let x := s.ctx c k
  match x.head q with
  | some e => e.taken.scored && (!scoreStart x q e || !s.jobsOk c k e)
  | none => false

/-- A load waits for what an earlier CQ entry writes. -/
def Context.loadWaitsCq (x : Context) (e : Entry) : Bool :=
  e.taken.scored && (x.before e.seq).any (fun f => f.1 == .cq && !f.2.landed && meetsRes f.2.writesRes e.readsRes)

/-- The head of LQ waits on CQ. -/
def Context.lqWaitsCq (x : Context) : Bool := x.tokenWait .lq || (match x.head .lq with | some e => x.loadWaitsCq e | none => false)

/-- The sequencer holds an instruction bound for LQ on a register that a load has yet to return. -/
def Context.routeWaitsLoad (x : Context) (now : Nat) : Bool :=
  match x.hold with
  | some (i, .route) => Instr.queue? i == some .lq && x.awaits i now
  | _ => false

/-- The access unit cannot run ahead of the compute side (R341). -/
def Context.decoupled (x : Context) (now : Nat) : Bool :=
  x.lq.all (fun e => match e.phase with | .arrived _ => false | _ => true) && (x.lqWaitsCq || x.routeWaitsLoad now)

/-- An array command at the head of CQ waits for the lease; TLEASE is none, and a window of WIN2 or another core's
reservation is no lease (R304, R306, R308). -/
def State.leaseWait (s : State) (c : Nat) (k : Bool) : Bool :=
  match (s.ctx c k).head .cq with
  | some e => (Instr.arrayPlane? e.instr).isSome && (match s.arrayGate c e.instr with | .request => true | _ => false)
  | none => false

/-- The sequencer is held by a full queue. -/
def Core.queueFull (c : Core) : Bool :=
  match (if c.running && c.me.mode == .live then c.me.hold else none) with
  | some (i, .route) => !c.me.hasRoom ((Instr.queue? i).getD .cq)
  | _ => false

/-- How many of a core's context queues answer. -/
def Core.queuesThat (c : Core) (f : Bool → QName → Bool) : Nat :=
  (([(false, .lq), (false, .cq), (false, .sq), (true, .lq), (true, .cq), (true, .sq)] : List (Bool × QName)).filter
    (fun p => c.engages p.1 && f p.1 p.2)).length
/-- Whether some context of a core answers. -/
def Core.someThat (c : Core) (f : Bool → Bool) : Bool := ([false, true] : List Bool).any (fun k => c.engages k && f k)

/-- What each cycle adds to a core's counters. DEDUCED (log 28). -/
def State.cycleEvents (s : State) (c : Nat) (core : Core) : List (Nat × Nat) :=
  [(0x01, bit core.running), (0x06, bit core.queueFull), (0x07, core.queuesThat (fun k q => (core.ctx k).tokenWait q)),
   (0x08, bit (core.someThat (fun k => (core.ctx k).decoupled (s.now c)))), (0x09, core.queuesThat (s.scoreWait c)),
   (0x0E, bit (core.someThat (s.leaseWait c))),
   (0x15, bit (match core.drain with | some d => d.begun | none => false))]

/-- A core whose counters count nothing. -/
def Core.uncounted (c : Core) : Bool := vecAll (fun v => v.toNat / 2 ^ 56 == 0) c.perf

def State.countCycles (s : State) (n : Die → Nat) (c : Nat) (core : Core) : Core :=
  if core.uncounted then core
  else (s.cycleEvents c core).foldl (fun (x : Core) e => x.count e.1 (e.2 * n (s.die (dieOf c)))) core

/-! ## Cycles that energy is shared by (R399) -/

/-- The cycles of a core's running context are its task's. -/
def Core.countRun (c : Core) (n : Nat) : Core :=
  match (if c.running then c.me.task else none) with
  | some id => { c with ran := addKey id n c.ran }
  | none => c

/-- The launches whose array commands and condensation jobs a quad works on. -/
def State.quadUsers (s : State) (n : Nat) (q : Quad) : List Nat :=
  ((List.range 4).filterMap (fun i => if s.arrayBusy (4 * n + i) then (s.core (4 * n + i)).launch else none)) ++
    (q.cond.filter (fun j => j.started)).filterMap (fun j => j.launch)

/-- A quad's cycles by launch. -/
def State.countUse (s : State) (n : Nat) (q : Quad) (cycles : Nat) : Quad :=
  { q with used := (s.quadUsers n q).foldl (fun l i => addKey i cycles l) q.used }

/-! ## The step's tick -/

/-- Frames that wait for a full released ring are offered to it again (R222). -/
def State.retryReleases (s : State) : State :=
  (List.range 4).foldl (fun (s : State) d =>
    match (s.die d).unreleased with
    | [] => s
    | l => l.foldl (fun (s : State) f => s.releaseTo d f) (s.setDie d { s.die d with unreleased := [] })) s

/-- Time, clocks, buckets and counters move. DESIGN CHOICE (log 2). -/
def State.tick (s : State) : State :=
  let (t, n) := s.stepPace
  { s with
    time := s.time + w64 t, pace := s.pace.drop 1, dies := vecMap (fun d => d.tick s.powerLimit t (n d)) s.dies,
    cores := s.cores.map (fun c => (c.1, (s.countCycles n c.1 c.2).countRun (n (s.die (dieOf c.1))))),
    quads := s.quads.map (fun q => (q.1, s.countUse q.1 q.2 (n (s.die (q.1 / 64))))) }

/-- What every step does before its move. -/
def State.begin_ (s : State) : State := s.tick.retryReleases.noteRooms

end Sys2Proof.Machine
end

