-- ==== Sys2Proof/Machine/Windows.lean ====
section
/-! DEFINITION. A supervisor's 8-byte store to a register of its windows: which command or register write it is
(R151, R229, R362, R397, R441, R442, R446, R452, R457). -/

namespace Sys2Proof.Machine

/-- A register as a write to its supervisor fields leaves it, before the command that the write names runs (R4). -/
def putFields (old v fields : Word) : Word := (old &&& ~~~fields) ||| (v &&& fields)

/-- TXCMD's fields that a supervisor writes, TASKCMD's and MGMTCMD's (R229, R362, R457). -/
def txFields : Word := w64 (15 * 2 ^ 59 + (2 ^ 41 - 1) * 2 ^ 16)
def taskFields : Word := w64 (7 * 2 ^ 16 + 0x7FF)
def mgmtFields : Word := w64 (7 * 2 ^ 60 + (2 ^ 48 - 1))

def State.writeTxFields (s : State) (d : DieNo) (v : Word) : State :=
  if s.txBusy d then s else s.setTxcmd d (putFields (s.die d.toNat).txcmd v txFields)
def State.writeTaskFields (s : State) (d : DieNo) (v : Word) : State :=
  if s.taskBusy d then s else s.setTaskcmd d (putFields (s.die d.toNat).taskcmd v taskFields)
def State.writeMgmtFields (s : State) (v : Word) : State := { s with mgmt := putFields s.mgmt v mgmtFields }

/-- TXCMD (R229): a command of size 3 does nothing. -/
def writeTxcmd (d : DieNo) (v : Word) (s : State) : Host.Outcome State Fault Refusal :=
  let s := s.writeTxFields d v
  if v.getLsbD 62 then execTxcmdDropAll d (v.getLsbD 61) s
  else execTxcmdDropPage d (v.getLsbD 61) (v.extractLsb' 59 2) (v.extractLsb' 16 41) s

/-- TASKCMD (R362): commands 0 and 7 do nothing but stand in the register. -/
def writeTaskcmd (d : DieNo) (v : Word) (s : State) : Host.Outcome State Fault Refusal :=
  let s := s.writeTaskFields d v
  let c : CoreNo := v.extractLsb' 0 10
  let k := v.getLsbD 10
  match bitsOf v.toNat 18 16 with
  | 1 => execTaskcmdResume d c k s
  | 2 => execTaskcmdRestartPhase d c k s
  | 3 => execTaskcmdKill d c k s
  | 4 => execTaskcmdPreempt d c k s
  | 5 => execTaskcmdRestore d c k s
  | 6 => execTaskcmdCancel d c k s
  | _ => .next s

/-- The counter block (R397). -/
def writeCounter (d : DieNo) (o : Nat) (v : Word) (s : State) : Host.Outcome State Fault Refusal :=
  match o with
  | 0x00 => execRegisterWrite d .fqBase v s
  | 0x08 => execRegisterWrite d .fqCapacity v s
  | 0x10 => execRegisterWrite d .fqHead v s
  | 0x78 => execRegisterWrite d .accessSnapshot v s
  | _ => execRegisterWrite d .ignored v s

/-- A class's launch queue registers (R442). -/
def writeQueue (d : DieNo) (o : Nat) (v : Word) (s : State) : Host.Outcome State Fault Refusal :=
  let c : BitVec 3 := BitVec.ofNat 3 (o / 64)
  match o % 64 with
  | 0x00 => execRegisterWrite d (.lqBase c) v s
  | 0x08 => execRegisterWrite d (.lqCapacity c) v s
  | 0x18 => execDoorbell d c v s
  | 0x28 => execRegisterWrite d (.lqMsi c) v s
  | 0x30 => if v.getLsbD 0 then execLaunchQueueRestart d c s else .next s
  | _ => execRegisterWrite d .ignored v s

/-- MGMTCMD (R457): a command that it does not list does nothing but stand in the register. -/
def writeMgmt (v : Word) (s : State) : Host.Outcome State Fault Refusal :=
  let s := s.writeMgmtFields v
  match bitsOf v.toNat 62 60 with
  | 1 => execDrain (v.extractLsb' 0 48) s
  | 2 => execOnline s
  | 3 => execService s
  | _ => .next s

/-- The core control block (R151). -/
def writeControl (d : DieNo) (o : Nat) (v : Word) (s : State) : Host.Outcome State Fault Refusal :=
  if o < 0x200 then execArbmodeWrite d (BitVec.ofNat 6 (o / 8)) v s
  else if o < 0xA00 then execCoreDisable (BitVec.ofNat 10 (256 * d.toNat + (o - 0x200) / 8)) (v.getLsbD 0) s
  else execRegisterWrite d .ignored v s

/-- A store to the 8 bytes at an address of a window. -/
def writeWindow (a : Nat) (v : Word) (s : State) : Host.Outcome State Fault Refusal :=
  let n := (a - Config.window 0) / 0x10_0000
  let d : DieNo := BitVec.ofNat 2 n
  let o := (a - Config.window n) / 8 * 8
  if o < 0x1_0000 then
    (match o with
    | 0x00 => writeTxcmd d v s
    | 0x08 => execTaskRootWrite v s
    | 0x10 => execSupervisorRootWrite v s
    | _ => execRegisterWrite d .ignored v s)
  else if o = 0x1_0000 then writeTaskcmd d v s
  else if 0x1_1000 ≤ o && o < 0x1_2000 then writeCounter d (o - 0x1_1000) v s
  else if 0x1_2000 ≤ o && o < 0x1_2200 then writeQueue d (o - 0x1_2000) v s
  else if 0x1_4000 ≤ o && o < 0x1_5000 then writeControl d (o - 0x1_4000) v s
  else if d = 0 && o = 0x1_3800 then writeMgmt v s
  else if d = 0 && o = 0x1_3808 then execPowerLimitWrite v s
  else execRegisterWrite d .ignored v s

end Sys2Proof.Machine
end

