-- ==== Sys2Proof/Machine/Auto.lean ====
section
/-! DEFINITION. The moves of a step: the fetch and execution of an instruction, a scheduled event, a register
write, or, where the schedule gives none, the first of the module's own steps that changes the machine. -/

namespace Sys2Proof.Machine

/-! ## A core's instruction (R107, R108) -/

/-- The fetch and execution of one instruction by the current core. -/
def runStep (s : State) : Host.Outcome State Fault Refusal :=
  match s.fetch with
  | (.instr i, t) => exec i (t.loadsOut i)
  | (.illegal w0 w1, t) => execIllegalInstruction (BitVec.ofNat 11 s.cur) w0 w1 t
  | (.fault f, t) => execInstructionFetchFault (BitVec.ofNat 11 s.cur) f t
  | (.wait, _) => .next s
  | (.stop f, _) => .fault f

/-- A core that may fetch. -/
def State.mayFetch (s : State) (c : Nat) : Bool := s.fetches c

/-- A core's turn. -/
def runOn (c : Nat) (s : State) : Host.Outcome State Fault Refusal :=
  if s.mayFetch c then runStep { s with cur := c } else .next s

/-! ## Which step comes by itself -/

abbrev Try : Type := State → Host.Outcome State Fault Refusal

/-- The first of some steps that changes the machine. DESIGN CHOICE (log 4). -/
def firstMove : List Try → Try
  | [], s => .next s
  | f :: t, s =>
    match f s with
    | .next u => if u = s then firstMove t s else .next u
    | o => o

def dieNo (d : Nat) : DieNo := BitVec.ofNat 2 d

/-- A die's fault queue and supervisor commands. -/
def dieTries (d : Nat) : List Try :=
  [execFaultRecordWrite (dieNo d), fun s => .next (s.retryPreempt (dieNo d)), execTxcmdResume (dieNo d), execTxcmdComplete (dieNo d)]

/-- The entries of a queue that may complete, oldest first. -/
def completeTry (c : Nat) (k : Bool) (q : QName) (s : State) : Host.Outcome State Fault Refusal :=
  firstMove ((List.range ((s.ctx c k).queue q).length).map (fun n => fun (s : State) => (s.tryComplete c k q n).outcome s)) s

/-- A context's alarm, queues and known-answer ports. -/
def contextTries (c : Nat) (k : Bool) : List Try :=
  [execTimerAlarm (BitVec.ofNat 11 c) k, execLoadDataReturn (BitVec.ofNat 11 c) k, completeTry c k .cq, completeTry c k .sq,
   execQueueEntryStart (BitVec.ofNat 11 c) k .lq, execQueueEntryStart (BitVec.ofNat 11 c) k .cq,
   execQueueEntryStart (BitVec.ofNat 11 c) k .sq, execKatPortDone (BitVec.ofNat 10 c) k false,
   execKatPortDone (BitVec.ofNat 10 c) k true]

/-- A core of the control complex that has something to go on for since its HALT (R180). -/
def wakeTry (c : Nat) (s : State) : Host.Outcome State Fault Refusal :=
  if isControl c && (s.core c).me.roused then execHaltWake (dieNo (c - 1024)) s else .next s

/-- A core's step counter, LRMAP drain, held instruction and inbox. -/
def coreTries (c : Nat) : List Try :=
  [execSstepExpiry (BitVec.ofNat 11 c), execQueueRouteAfterRoom (BitVec.ofNat 11 c), execWaitGroupResume (BitVec.ofNat 11 c),
   execWaitSatisfied (BitVec.ofNat 11 c), execWaitTimeout (BitVec.ofNat 11 c), execWaittEnd (BitVec.ofNat 11 c),
   execYieldWake (BitVec.ofNat 11 c), wakeTry c]
def computeTries (c : Nat) : List Try :=
  if isControl c then []
  else
    [execLrmapDrainBegin (BitVec.ofNat 10 c), execLrmapDrainEnd (BitVec.ofNat 10 c), execContextFree (BitVec.ofNat 10 c) false,
     execContextFree (BitVec.ofNat 10 c) true, fun s => .next (s.takeCore c), execInboxDeliver (BitVec.ofNat 10 c), execRenqResend (BitVec.ofNat 10 c) true]

def coreTry (c : Nat) (s : State) : Host.Outcome State Fault Refusal :=
  firstMove (contextTries c false ++ (contextTries c true ++ (computeTries c ++ (coreTries c : List Try)))) s

/-- A quad's lease and condensation engine. -/
def quadTries (n : Nat) : List Try :=
  let d := dieNo (n / 64)
  let q := BitVec.ofNat 6 n
  [execLeaseExpire d q, execLeaseGrant d q, execWin2WindowSwitch d q, execAcondJobStart d q, execAcondJobEnd d q]

def jobTries (j : Nat) : List Try := [execJobStart j, execJobComplete j]
def launchTries (l : Nat) : List Try := [execSuperstepJoin l, execSuperstepStart l]
def queueTries (d : Nat) (c : Nat) : List Try :=
  [execLaunchEntryConsume (dieNo d) (BitVec.ofNat 3 c), execNotifyTimeout (dieNo d) (BitVec.ofNat 3 c)]

/-- The free context that the model takes for a task, R23 leaving the choice open: one of an empty core, where the
task runs at once, before one that stands by behind another task. DEDUCED (log 55). -/
def State.freeFor (s : State) (x : Task) : Option (Nat × Bool) :=
  let cs := (List.range 1024).filter (fun c => s.dispatchable x c false || s.dispatchable x c true)
  let slot (c : Nat) : Nat × Bool := (c, !s.dispatchable x c false)
  match cs.find? (fun c => (s.ctx c false).mode == .free && (s.ctx c true).mode == .free) with
  | some c => some (slot c)
  | none => cs.head?.map slot

/-- The dispatcher's turn for a task. DEDUCED (log 55). -/
def dispatchTry (t : Nat) (s : State) : Host.Outcome State Fault Refusal :=
  match s.task? t with
  | none => .next s
  | some x =>
    if !x.waits then .next s
    else
      match s.freeFor x with
      | some (c, k) => execDispatch t (BitVec.ofNat 10 c) k s
      | none => .next s

/-- A more urgent task's pre-emption of a core. -/
def preemptTry (t : Nat) (s : State) : Host.Outcome State Fault Refusal :=
  match s.task? t with
  | none => .next s
  | some x =>
    if !x.waits then .next s
    else
      match (s.launch? x.launch).bind (fun l => s.bestVictim l x) with
      | some c => execDispatcherPreempt t (BitVec.ofNat 10 c) s
      | none => .next s

def taskTries (t : Nat) : List Try := [execTaskClassAge t, dispatchTry t, preemptTry t]

/-- The steps that the module takes of itself, in the order in which the model tries them. -/
def State.tries (s : State) : List Try :=
  (List.range 4).flatMap dieTries ++
  (s.quads.flatMap (fun q => quadTries q.1) ++
  (s.jobs.flatMap (fun j => jobTries j.id) ++
  (s.cores.map (fun c => coreTry c.1) ++
  (s.launches.flatMap (fun l => launchTries l.id) ++
  ((List.range 4).flatMap (fun d => (List.range 8).flatMap (queueTries d)) ++
  (s.tasks.flatMap (fun t => taskTries t.id) ++ ([execClockLockComplete, execDrainDeadline] : List Try)))))))

/-- The next core that fetches, after the current one in ascending order. -/
def State.nextCore (s : State) : Option Nat :=
  let cs := (s.cores.map (fun c => c.1)).filter s.mayFetch
  match cs.find? (fun c => s.cur < c) with
  | some c => some c
  | none => cs.head?

def fetchTry (s : State) : Host.Outcome State Fault Refusal :=
  match s.nextCore with
  | some c => runOn c s
  | none => .next s

/-- A step that the schedule leaves to the model: the module's own steps come first when it is eager, and a fetch
comes first otherwise. DESIGN CHOICE (log 1). -/
def State.auto (s : State) : Host.Outcome State Fault Refusal :=
  if s.eager then firstMove (s.tries ++ ([fetchTry] : List Try)) s
  else if s.nextCore.isSome then fetchTry s
  else firstMove s.tries s

/-! ## The move of a step -/

/-- One move of the schedule. DESIGN CHOICE (log 1). -/
def makeMove (m : Move) (s : State) : Host.Outcome State Fault Refusal :=
  match m with
  | .ev i => exec i s
  | .run c => runOn c s
  | .reg a v => writeWindow a v s
  | .env e => execEnv e s

/-- The schedule's next move, or the model's own choice where it is empty. DESIGN CHOICE (log 1). -/
def State.move (s : State) : Host.Outcome State Fault Refusal :=
  match s.agenda with
  | m :: t => makeMove m { s with agenda := t }
  | [] => s.auto

end Sys2Proof.Machine
end

