-- ==== Sys2Proof/Machine/Step.lean ====
section
/-! DEFINITION. One step of the module, and where its next instruction is placed. -/

namespace Sys2Proof.Machine

/-- One step: time moves, and one event, register write or instruction takes place. DESIGN CHOICE (log 72). -/
def step (s : State) : Host.Outcome State Fault Refusal := s.begin_.move

/-- The state with an instruction placed where the next step fetches it (R107). DESIGN CHOICE (log 3). -/
def State.withFetchWord (s : State) (nbits w : Nat) : State :=
  let s := s.wakeFirst.alignPc
  { s.placeAt (w % 2 ^ nbits) with agenda := [.run s.cur], locking := false }

end Sys2Proof.Machine
end

