-- ==== Sys2Proof/Safety.lean ====
section
/-! DEFINITION. The terms in which claims are stated: one byte of memory, what a completed instruction leaves
unchanged, what taking an exception does, and when a state is in good form. -/

namespace Sys2Proof.Machine

/-! ## Memory -/

/-- One byte of near memory, by module physical address, and one of host memory. DESIGN CHOICE (log 7). -/
def State.nearByte (s : State) (a : Nat) : Byte := memGet s.mem a
/-- DESIGN CHOICE (log 7). -/
def State.farByte (s : State) (a : Nat) : Byte := memGet s.hostMem a

/-- Every byte reads as before. -/
def SameBytes (s t : State) : Prop := (∀ a, t.nearByte a = s.nearByte a) ∧ ∀ a, t.farByte a = s.farByte a

/-- The byte at a physical place. -/
def State.byteAt (s : State) (far : Bool) (a : Nat) : Byte := if far then s.farByte a else s.nearByte a

/-- Both memories are in their canonical form. -/
abbrev MemOk (s : State) : Prop := memWf s.mem ∧ memWf s.hostMem

/-! ## An ordinary access (R214 to R220, R250) -/

/-- The running context's access to an address, in the ordinary case: the page tables map it in state NONE and the
translation caches agree, the leaf lets the access through, the address is not in a revisioned region, a spill room,
a stash segment or a register window, no stash segment of any core holds a filled sector to be recalled, no store of
the context is parked on its page, and the bytes are sound. -/
structure Ordinary (s : State) (va n : Nat) (write : Bool) (p : Phys) : Prop where
  below : va < 2 ^ 57
  leaf : ∃ a lvl e, s.walk s.me.supervisor va = .leaf a lvl e ∧ p = physOf va lvl e ∧ leafState e = 0 ∧
    (write = true → leafW e = true ∧ leafCow e = false) ∧
    (leafFar e = true → s.farGone.contains (leafFrame e + va % levelBytes lvl / 65536) = false) ∧
    ∀ t ∈ s.tlb, t.maps s.me.supervisor va = true → t.leaf = w64 e ∧ t.level = lvl
  live : s.revisioned s.me.task va = false
  ram : isWindow p = false
  sound : s.poisonAt p.far p.addr n = none
  direct : s.here.inSpill s.myK va = false
  unstashed : s.here.stashAt va = none
  unfilled : ∀ c, ∀ m ∈ (s.core c).stash, m.filled = 0
  unparked : s.here.parkedPage s.myK va = false
  clean : s.poison.any (fun q => q.lodgeOf == some s.cur) = false

/-- Nothing differs but what accesses leave in the caches: translations, lines of the cache rooms and their PERF
counts, the choices made for them, and the flags of spans written in the epoch (R198, R227, R230, R395). -/
structure Touches (s t : State) : Prop where
  rest : t = { s with tlb := t.tlb, choices := t.choices, written := t.written, cores := t.cores }
  cores : ∀ c, t.core c = { s.core c with cache := (t.core c).cache, perf := (t.core c).perf }

/-- Nothing that the context has issued before, and no LRMAP drain, holds an access of the sequencer back
(R205, R241, R247). -/
def Ready (s : State) (va n : Nat) (write : Bool) : Prop :=
  s.drainHolds s.cur s.myK { ranges := [globalRange va n] } = false ∧
    s.accessReady s.cur s.myK (if write then ([], [globalRange va n]) else ([globalRange va n], [])) = true

/-! ## What stays as it was -/

/-- Nothing differs but the current core. -/
def OnlyHere (s t : State) : Prop := ({ t with cores := s.cores } : State) = s ∧ ∀ c, c ≠ s.cur → t.core c = s.core c

/-- Nothing differs but the running context of the current core and the core's counters. -/
def OnlyContext (s t : State) : Prop :=
  OnlyHere s t ∧ t.here.ctx (!s.myK) = s.here.ctx (!s.myK) ∧
    ({ t.here with c0 := s.here.c0, c1 := s.here.c1, insns := s.here.insns, perf := s.here.perf } : Core) = s.here

/-! ## A sequencer instruction that completes (R154, R187, R394, R395) -/

/-- A context after one of its instructions has completed and execution goes on at an address. -/
def Context.passed (x : Context) (pc : Word) : Context := { x.stepCount with pc := pc, hold := none, issued := true }

/-- `t` is `s` after one instruction that completes: the running context is `y` gone on to `pc`, the instruction is
counted once in INSNS and in the PERF registers that count instructions, and nothing else differs. -/
structure Retires (s t : State) (y : Context) (pc : Word) : Prop where
  context : t.me = y.passed pc
  counted : t.here.insns = s.here.insns + 1
  perf : t.here.perf = vecMap (countPerf 2 1) s.here.perf
  frame : OnlyContext s t
  bytes : SameBytes s t

/-- An instruction of `n` bytes writes scalar register `d`, where x0 discards the write (R137), and nothing else. -/
def WritesX (s t : State) (d : XReg) (v : Word) (n : Nat) : Prop :=
  (∀ r, t.x r = if r = d ∧ d ≠ 0 then v else s.x r) ∧ Retires s t { s.me with x := t.me.x } (s.me.pc + w64 n)

/-- A load of 4 bytes writes scalar register `d` (R154, R249): what the access leaves in the caches, the register, and
the cycle at which the register returns; nothing else. -/
def LoadsX (s t : State) (d : XReg) (v : Word) : Prop :=
  ∃ m, Touches s m ∧ (∀ r, t.x r = if r = d ∧ d ≠ 0 then v else s.x r) ∧
    Retires m t { s.me with x := t.me.x, pendingX := t.me.pendingX } (s.me.pc + 4)

/-- An instruction of 4 bytes writes handle register `d`, where h0 discards the write (R138), and nothing else. -/
def WritesH (s t : State) (d : HReg) (v : HandleWord) : Prop :=
  (∀ r, t.h r = if r = d ∧ d ≠ 0 then v else s.h r) ∧ Retires s t { s.me with h := t.me.h } (s.me.pc + 4)

/-- An instruction of 4 bytes writes predicate register `d`, where p0 discards the write (R139), and nothing else. -/
def WritesP (s t : State) (d : PReg) (v : PredWord) : Prop :=
  (∀ r : PReg, r.toNat < 96 → t.p r = if r = d ∧ d ≠ 0 then v else s.p r) ∧
    Retires s t { s.me with p := t.me.p } (s.me.pc + 4)

/-- The instruction of `n` bytes completes, and its one effect is that scalar register `d` receives a value of which
`P` holds. -/
def GivesX (i : Instr) (s : State) (d : XReg) (n : Nat) (P : Word → Prop) : Prop :=
  ∃ t v, exec i s = .next t ∧ P v ∧ WritesX s t d v n

/-- The same for a handle register and for a predicate register. -/
def GivesH (i : Instr) (s : State) (d : HReg) (P : HandleWord → Prop) : Prop :=
  ∃ t v, exec i s = .next t ∧ P v ∧ WritesH s t d v
def GivesP (i : Instr) (s : State) (d : PReg) (P : PredWord → Prop) : Prop :=
  ∃ t v, exec i s = .next t ∧ P v ∧ WritesP s t d v

/-- The instruction completes with no effect but that execution goes on at an address. -/
def GoesTo (i : Instr) (s : State) (pc : Word) : Prop := ∃ t, exec i s = .next t ∧ Retires s t s.me pc

/-! ## Taking an exception (R145, R361, R405) -/

/-- `t` is `s` after the running context of the current core has taken a precise fault: a task's context halts with
TCAUSE, TVAL and EPC written, and one record of the fault waits on the core's die; nothing else differs. -/
structure Faults (s t : State) (f : Trap) : Prop where
  context : t.me = { s.me with tcause := causeWord f.code false, tval := f.detail, epc := s.me.pc, hold := none, mode := .halted }
  record : ∃ r : FaultRec,
    r.code = f.code ∧ r.detail = f.detail ∧ r.status = .halted ∧ r.epc = s.me.pc ∧ r.core.toNat = s.cur ∧ r.time = s.time ∧
      (t.die (dieOf s.cur)).pending = (s.die (dieOf s.cur)).pending ++ [r]
  counted : t.here.insns = s.here.insns
  others : ∀ c, c ≠ s.cur → t.core c = s.core c
  standby : t.here.ctx (!s.myK) = s.here.ctx (!s.myK)
  bytes : SameBytes s t

/-- The task-level context of the current core may take an exception: it runs a task that has neither halted nor
exited, on a core of the module. -/
structure AtTask (s : State) : Prop where
  level : s.me.supervisor = false
  running : s.me.mode ≠ .halted ∧ s.me.mode ≠ .exiting
  core : dieOf s.cur < 4

/-- `t` is `s` after TRAP or BRK at TASK level (R145, R177): the instruction counts, the trap registers are written with
EPC after the instruction, the task halts, and a service record waits on the die; nothing else differs. -/
structure Serves (s t : State) (code : BitVec 8) : Prop where
  context : t.me = { s.me.passed (s.me.pc + 4) with
    tcause := code.zeroExtend 64, tval := 0, epc := s.me.pc + 4, mode := .halted }
  record : ∃ r : FaultRec,
    r.code = code ∧ r.detail = 0 ∧ r.status = .service ∧ r.epc = s.me.pc + 4 ∧ r.core.toNat = s.cur ∧ r.time = s.time ∧
      (t.die (dieOf s.cur)).pending = (s.die (dieOf s.cur)).pending ++ [r]
  counted : t.here.insns = s.here.insns + 1
  others : ∀ c, c ≠ s.cur → t.core c = s.core c
  standby : t.here.ctx (!s.myK) = s.here.ctx (!s.myK)
  bytes : SameBytes s t

/-- `t` is `s` after code of the control complex has entered its core's handler (R179), from a context that was `y`:
LEVEL stays, the trap registers are written, and execution goes on at 0x1000. -/
structure Enters (s t : State) (y : Context) (cause : Word) (detail epc : Word) : Prop where
  context : t.me = { y with tcause := cause, tval := detail, epc := epc, pc := 0x1000, hold := none, stepDue := false }
  others : ∀ c, c ≠ s.cur → t.core c = s.core c
  standby : t.here.ctx (!s.myK) = s.here.ctx (!s.myK)
  bytes : SameBytes s t

/-! ## Terms of single claims -/

/-- The bits of a handle register that a field of R171 takes: the lowest and the number. -/
def handleField : HField → Nat × Nat
  | .base => (0, 64) | .record => (64, 48) | .attr => (112, 5) | .cursor => (128, 64) | .bound => (192, 64)

/-- The queue of every engine-routed instruction (R125), by name: LQ for loads, CQ for vector, array, enclosure and
known-answer instructions, SQ for stores; none for any other. -/
def routesTo : Instr → Option QName
  | .vld .. | .vlds .. | .vgather .. | .vldx .. | .vpref .. | .tldt .. => some .lq
  | .vadd .. | .vsub .. | .vmul .. | .vfma .. | .vfms .. | .vmin .. | .vmax .. | .vabs .. | .vneg .. | .vcmp .. | .vsel ..
  | .vcpy .. | .viadd .. | .visub .. | .vimul .. | .vimulh .. | .vimin .. | .vimax .. | .vand .. | .vor .. | .vxor ..
  | .vandn .. | .vsll .. | .vsrl .. | .vsra .. | .vrol .. | .vpopc .. | .vclz .. | .vctz .. | .vfnsb .. | .vbrev ..
  | .vicmp .. | .vcvt .. | .vqnt .. | .vdqnt .. | .vpack .. | .vunpack .. | .vscale .. | .vrsum .. | .vrmax .. | .vrmin ..
  | .vshuf .. | .vbcast .. | .vrot .. | .vslide .. | .vrcp .. | .vrsq .. | .vsqrt .. | .vexp2 .. | .vlog2 .. | .vtanh ..
  | .vaccmul .. | .vaccadd .. | .vnorm .. | .vaccrd .. | .vaccz ..
  | .tlease .. | .trel .. | .tzero .. | .tmma .. | .tmmaa .. | .tdrain ..
  | .abound .. | .arelax .. | .arelaxBilinear .. | .asym .. | .aret .. | .acond .. | .aalign .. | .achk .. | .atbl ..
  | .kati .. | .katc .. => some .cq
  | .vst .. | .vsts .. | .vscatter .. | .tstt .. => some .sq
  | _ => none

/-- The x and h registers that an instruction names for its engine are taken as they stand (R148, R155). -/
def takesAll (s : State) (e : Entry) (i : Instr) : Prop :=
  (∀ r ∈ i.takesX, e.taken.x r = s.x r) ∧ (∀ r ∈ i.takesH, e.taken.h r = s.h r) ∧ e.taken.guard = s.p i.guardReg ∧
    e.taken.rotb = s.me.rotb.toNat ∧ e.taken.rows = s.here.h ∧ e.taken.half = s.myK ∧ e.taken.nf = s.here.nf ∧
    e.taken.tcfg = s.here.tcfg

/-- Element `j` of `w` bits of a row. -/
def elemAt (r : Row) (w j : Nat) : Nat := r.toNat / 2 ^ (j * w) % 2 ^ w

/-! ## Lanes of vector instructions (R139, R276, R278) -/

/-- The element that a source gives lane `j`: of a row as it is read, of a scalar register or of a literal for every
lane, where a literal is extended to 64 bits by the signedness of the type (R123). -/
def laneOf (r : Reader) (uns : Bool) (w j : Nat) : VSrc → Nat
  | .op o => match r.op o with | .row v => elemAt v w j | .all x => x.toNat % 2 ^ w
  | .lit v => (if w = 64 then (if uns then v.toNat else (v.signExtend 64).toNat) else v.toNat) % 2 ^ w

/-- A result of `w`-bit lanes: one write, to the destination, and the latch with it; a lane of `act` holds what `f`
gives, and no bit of another lane is written. -/
def LaneWrite (r : Reader) (d : VOp) (w : Nat) (o : Except Trap VOut) (act : Nat → Bool) (f : Nat → Nat) : Prop :=
  ∃ v p wr, o = .ok v ∧ r.t.dest d = some p ∧ v.land.writes = [wr] ∧ wr.dest = p ∧
    v.land.latch = (if p = .latch then none else some p) ∧ v.land.pred = none ∧
    ∀ j, (j + 1) * w ≤ 8192 →
      (act j = true → elemAt wr.mask w j = 2 ^ w - 1 ∧ elemAt wr.val w j = f j) ∧
      (act j = false → elemAt wr.mask w j = 0)

/-- The same where the guard says which lanes are active. -/
def LaneResult (r : Reader) (d : VOp) (w : Nat) (o : Except Trap VOut) (f : Nat → Nat) : Prop :=
  LaneWrite r d w o (activeAt r.t.guard w) f

/-- The flags of a result are those of its active lanes together (R49). -/
def LaneFlags (w : Nat) (o : Except Trap VOut) (act : Nat → Bool) (fl : Nat → BitVec 5) : Prop :=
  ∀ v, o = .ok v → ∀ b < 5, v.land.flags.getLsbD b = true ↔
    ∃ j, (j + 1) * w ≤ 8192 ∧ act j = true ∧ (fl j).getLsbD b = true

/-- A result under the guard of which lane `j` holds a code, and gives flags, of which `P j` says what they are. -/
def LanesGive (r : Reader) (d : VOp) (w : Nat) (o : Except Trap VOut) (P : Nat → Nat → BitVec 5 → Prop) : Prop :=
  ∃ g fl, LaneResult r d w o g ∧ LaneFlags w o (activeAt r.t.guard w) fl ∧ ∀ j, (j + 1) * w ≤ 8192 → P j (g j) (fl j)

/-- A compare into predicate register `pd` (R286): no row and no latch, the bits that govern an active element, each
the AND of the truth values of its elements, and the flags of the active lanes. -/
def TruthResult (r : Reader) (pd : PReg) (w : Nat) (o : Except Trap VOut) (t : Nat → Prop) (fl : Nat → BitVec 5) : Prop :=
  ∃ v bits mask, o = .ok v ∧ v.land.writes = [] ∧ v.land.latch = none ∧ v.land.pred = some (pd, bits, mask) ∧
    (∀ i < 256, mask.getLsbD i = r.t.guard.getLsbD (if w = 64 then i / 2 * 2 else i)) ∧
    (∀ i < 256, mask.getLsbD i = true →
      (bits.getLsbD i = true ↔ ∀ j, j * w < 32 * (i + 1) → 32 * i < (j + 1) * w → t j)) ∧
    LaneFlags w o (activeAt r.t.guard w) fl

/-- The integer types, with their widths and whether they are unsigned (R119). -/
def IntTy (ty : VTy) (w : Nat) (u : Bool) : Prop :=
  (ty, w, u) ∈ [(VTy.i8, 8, false), (.i16, 16, false), (.i32, 32, false), (.i64, 64, false),
    (.n8, 8, true), (.n16, 16, true), (.n32, 32, true), (.n64, 64, true)]

/-- The float types, with their widths and formats: F32, BF16, F16, and NF through a valid register (R46, R51, R119). -/
def FloatTy (nf : Vector (BitVec 32) 4) (ty : VTy) (w : Nat) (f : FFmt) : Prop :=
  (ty, w, f) ∈ [(VTy.f32, 32, FFmt.f32), (.bf16, 16, FFmt.bf16), (.f16, 16, FFmt.f16)] ∨
    ∃ n : BitVec 2, ty = .nf n ∧ nfFmt (nf[n.toNat]'n.isLt) = some f ∧ w = if f.width = 4 then 4 else 8

/-! ## Numbers (R46 to R58) -/

/-- A number clamped to the range of an integer type (R50). -/
def clampInt (u : Bool) (w : Nat) (v : Int) : Int := max (intMin u w) (min (intMax u w) v)

/-- The value of a finite float; 0 of the others. -/
def FVal.rat : FVal → ℚ
  | .fin s m e => (if s then -1 else 1) * m * 2 ^ e
  | _ => 0

/-- The numeric order of values that are no NaN, where −0 equals +0. -/
def FVal.less (a b : FVal) : Prop :=
  (a = .inf true ∧ b ≠ .inf true) ∨ (b = .inf false ∧ a ≠ .inf false) ∨
    (a.isFin = true ∧ b.isFin = true ∧ a.rat < b.rat)

/-- The order of R285, where −0 lies below +0. -/
def FVal.below (a b : FVal) : Prop :=
  a.less b ∨ (a.isFin = true ∧ b.isFin = true ∧ a.rat = b.rat ∧ a.sign = true ∧ b.sign = false)

/-- A number rounded to an integer under a mode (R56, R291). -/
def roundInt (rm : Rm) (q : ℚ) : Int :=
  match rm with
  | .rd => ⌊q⌋
  | .ru => ⌈q⌉
  | .rz => if 0 ≤ q then ⌊q⌋ else ⌈q⌉
  | .rne => if q - ⌊q⌋ < 1 / 2 ∨ (q - ⌊q⌋ = 1 / 2 ∧ ⌊q⌋ % 2 = 0) then ⌊q⌋ else ⌊q⌋ + 1

/-- The points of a format's magnitudes without subnormals, continued both ways: those of R53 by exponent and
significand, those of R54 by the table (R56). -/
def FFmt.point (f : FFmt) (c : Int) : ℚ :=
  if f.kind = .log then (logT ((c % 2 ^ f.mbits).toNat * 2 ^ (2 - f.mbits)) : ℚ) / 2 ^ 23 * 2 ^ (c / 2 ^ f.mbits - f.bias)
  else (1 + ((c % 2 ^ f.mbits : Int) : ℚ) / 2 ^ f.mbits) * 2 ^ (c / 2 ^ f.mbits - f.bias)

/-- The number of the first point of R56's limit: the smallest normal value, or LOG's smallest positive one. -/
def FFmt.first (f : FFmt) : Nat := if f.kind = .log then 1 else 2 ^ f.mbits

/-- The magnitude of code `c` on a format's grid: zero and the subnormals below the first point, and past the largest
finite value the grid that R56 continues. -/
def FFmt.grid (f : FFmt) (c : Nat) : ℚ :=
  if c < f.first then (c : ℚ) / 2 ^ f.mbits * 2 ^ (1 - f.bias) else f.point c

/-- Point `i` of a grid is what a number becomes, rounded down, up, or to the nearest with ties to even (R56). -/
def RoundsTo {ι : Type} (grid : ι → ℚ) (even : ι → Prop) (md : MagMode) (y : ℝ) (i : ι) : Prop :=
  match md with
  | .down => grid i ≤ y ∧ ∀ j, (grid j : ℝ) ≤ y → grid j ≤ grid i
  | .up => y ≤ grid i ∧ ∀ j, y ≤ (grid j : ℝ) → grid i ≤ grid j
  | .near => ∀ j, |y - grid i| ≤ |y - grid j| ∧ (|y - grid i| = |y - grid j| → j ≠ i → even i)

/-- The direction in which a mode rounds the magnitude of a number of a sign (R56). -/
def direction : Rm → Bool → MagMode
  | .rne, _ => .near
  | .rz, _ => .down
  | .rd, s => if s then .up else .down
  | .ru, s => if s then .down else .up

/-- What R56, R57, R58, R48 and R49 make of a number of sign `s` and magnitude `y` above zero: the code and the flags.
The magnitude is rounded on the continued grid; past the largest finite value it overflows; a result that FTZ flushes
becomes zero; else it is the rounded value, with INEXACT where it differs, and UNDERFLOW as well where it is tiny. The
flags of an inexact result in a format without fraction bits, where ties have no even significand, are left out:
DESIGN CHOICE (log 74). -/
def FFmt.Makes (f : FFmt) (sat ftz : Bool) (rm : Rm) (s : Bool) (y : ℝ) (code : Nat) (flags : BitVec 5) : Prop :=
  ∃ g : Nat, RoundsTo f.grid (fun c => c % 2 = 0) (direction rm s) y g ∧
    (f.maxMag < g → flags = 4 ||| 16 ∧
      code = if sat = true ∨ f.std = false ∨ rm = .rz ∨ rm = .rd ∧ s = false ∨ rm = .ru ∧ s = true
        then bit s * 2 ^ f.mag + f.maxMag else bit s * 2 ^ f.mag + (2 ^ f.ebits - 1) * 2 ^ f.mbits) ∧
    (g ≤ f.maxMag →
      let flushed : Prop := ftz = true ∧ (if f.std then 0 < g ∧ g < f.first else 0 < f.grid g ∧ f.grid g < 1 / 2 ^ 126)
      (flushed → code = (if f.kind = .log then 0 else bit s * 2 ^ f.mag) ∧ flags = 8 ||| 16) ∧
      (¬ flushed → code = (if f.kind = .log ∧ g = 0 then 0 else bit s * 2 ^ f.mag + g) ∧
        ((f.grid g : ℝ) = y → flags = 0) ∧
        ((f.grid g : ℝ) ≠ y → f.kind = .log ∨ 1 ≤ f.mbits →
          ∀ c : Int, RoundsTo f.point (fun c => c % 2 = 0) (direction rm s) y c →
            flags = if f.point c < f.point f.first then 8 ||| 16 else 16)))

/-- The nodes of a pairwise tree over leaves of which some are absent (R77): node `i` of a level. -/
def pairTree {α : Type} (op : α → α → α) (leaf : Nat → Option α) : Nat → Nat → Option α
  | 0, i => leaf i
  | k + 1, i =>
    match pairTree op leaf k (2 * i), pairTree op leaf k (2 * i + 1) with
    | some a, some b => some (op a b)
    | some a, none => some a
    | none, b => b

/-- A vector accumulator written (R75, R298): rows n, n + 1 and n + 2 receive, in the lanes of `act`, V and X, or the
NaN mark, beside which V is open; no bit of another lane, and no latch. -/
def AccResult (r : Reader) (n : BitVec 8) (o : Except Trap VOut) (act : Nat → Bool) (new : Nat → Option (Int × Int)) : Prop :=
  ∃ v w0 w1 w2, o = .ok v ∧ v.land.writes = [w0, w1, w2] ∧ r.t.dest (.row n) = some w0.dest ∧
    r.t.dest (.row (n + 1)) = some w1.dest ∧ r.t.dest (.row (n + 2)) = some w2.dest ∧ v.land.latch = none ∧
    v.land.pred = none ∧ ∀ j < 256,
      (act j = true → (∀ w ∈ [w0, w1, w2], elemAt w.mask 32 j = 2 ^ 32 - 1) ∧
        match new j with
        | some (m, e) => (elemAt w0.val 32 j + 2 ^ 32 * elemAt w1.val 32 j : Int) = m % 2 ^ 64 ∧ (elemAt w2.val 32 j : Int) = e % 2 ^ 32
        | none => elemAt w2.val 32 j = 2 ^ 31) ∧
      (act j = false → ∀ w ∈ [w0, w1, w2], elemAt w.mask 32 j = 0)

/-! ## Entries of the queues (R236, R259 to R266, R338) -/

/-- An entry starts at once: it is the head of its queue and may start, its pops are done and nothing of it has been
gathered, no sector is uncorrectable, no LRMAP drains, and no push of its context can take place. -/
structure Head (s : State) (c : Nat) (k : Bool) (q : QName) (e : Entry) : Prop where
  first : s.startable c k q = some e
  gate : s.arrayGate c e.instr = .ready
  room : s.arrayRoom c e.instr = true
  popped : e.popped = true
  untouched : e.progress = {}
  sound : s.poison = []
  drained : (s.core c).drain = none
  settled : ((s.ctx c k).setEntry q { e with moved := s.time }).settle = (s.ctx c k).setEntry q { e with moved := s.time }

/-- Where a starting entry reads its operands. -/
def State.startReader (s : State) (c : Nat) (k : Bool) (q : QName) (e : Entry) : Reader :=
  { core := (s.setEntry c k q { e with moved := s.time }).core c, k := k, t := e.taken, free := s.fresh }

/-- `t` is `s` after an entry has started and has come to `ph`: its context differs in that entry alone, another context,
core or byte of memory in nothing. -/
structure Began (s t : State) (c : Nat) (k : Bool) (q : QName) (e : Entry) (ph : EntryPhase) : Prop where
  context : t.ctx c k = (s.ctx c k).setEntry q { e with phase := ph, moved := s.time }
  standby : t.ctx c (!k) = s.ctx c (!k)
  others : ∀ n, n ≠ c → t.core n = s.core n
  rows : (t.core c).rows = (s.core c).rows
  number : t.fresh = s.fresh + 1
  bytes : SameBytes s t

/-- A code of `w` bits at a place counted in nibbles, from the bytes there (R259). -/
def codeAt (w nib : Nat) (bs : List Byte) : Nat := leNat bs / (if w = 4 ∧ nib % 2 = 1 then 16 else 1) % 2 ^ w

/-- The load forms, and the store forms, with their operands and the element index of each lane (R261). -/
def VmemForm (r : Reader) (i : Instr) (m : VMem) (o : VOp) (store : Bool) (act : Nat → Bool) (k0 : Int) (idx : Nat → Int) : Prop :=
  (i = (if store then .vst m o else .vld m o) ∧ ∀ j, idx j = k0 + j) ∨
  (∃ xs, i = (if store then .vsts m o xs else .vlds m o xs) ∧ ∀ j, idx j = k0 + j * (r.t.x xs).toInt) ∨
  (∃ x wide w, i = (if store then .vscatter m o x wide else .vgather m o x wide) ∧ w = (if wide then 64 else 32) ∧
    ∀ j, idx j = k0 + toSigned w (laneOf r false w j (.op x))) ∨
  (store = false ∧ i = .vldx m o ∧ ∀ j, idx j = k0 + ((List.range j).filter act).length)

/-- A loaded row of `w`-bit elements: active lanes hold their codes, and no bit of another is written (R264). -/
def Loads (wr : RowWrite) (w : Nat) (act : Nat → Bool) (code : Nat → Nat) : Prop :=
  wr.void = 0 ∧ ∀ j, (j + 1) * w ≤ 8192 →
    (act j = true → elemAt wr.mask w j = 2 ^ w - 1 ∧ elemAt wr.val w j = code j) ∧ (act j = false → elemAt wr.mask w j = 0)

/-- The PAD bytes of a core. -/
def State.padByte (s : State) (c a : Nat) : Byte := (s.core c).pad.get a

/-- Bytes `lo` to `lo + n` of a handle without a record in the PAD room of core `c`, in no stash segment
(R138, R196, R262). -/
structure InPad (s : State) (h : HandleWord) (c lo n : Nat) : Prop where
  ok : handleOk h = true
  bare : hRec h = 0
  space : hSpace h = 1
  bound : hBase h ≤ lo ∧ lo + n ≤ hBase h + hBound h
  room : lo + n ≤ 65536 * (s.core c).rooms.pad
  unstashed : (s.core c).stash = []

/-- Nothing differs but PAD bytes of core `c`, which read as `f` says. -/
structure PadWritten (s t : State) (c : Nat) (f : Nat → Byte) : Prop where
  rest : t = { s with cores := t.cores }
  others : ∀ n, n ≠ c → t.core n = s.core n
  core : t.core c = { s.core c with pad := (t.core c).pad }
  bytes : ∀ a, t.padByte c a = f a

/-- Bytes of the PAD under element stores, in order (R265). -/
def padAfter (f : Nat → Byte) : List ElemStore → Nat → Byte
  | [] => f
  | .pad o bs :: l => padAfter (fun a => if o ≤ a ∧ a < o + bs.length then bs[a - o]?.getD 0 else f a) l
  | .padNib o hi n :: l => padAfter (fun a => if a = o then putNibble (f a) hi n else f a) l
  | _ :: l => padAfter f l

/-- The record cache of core `c` gives `r` for a handle (R103, R372, R373). -/
structure Cached (s : State) (c : Nat) (nf : Vector (BitVec 32) 4) (h : HandleWord) (r : Rec) : Prop where
  ok : handleOk h = true
  named : hRec h ≠ 0
  held : ∃ bs, findKey (hRec h) (s.core c).records = some bs ∧ r = parseRec (hRec h) bs
  kept : s.choices = []
  valid : r.ok nf (hSpace h) = true

end Sys2Proof.Machine
end

