-- ==== Sys2Proof/Certificates/Slice0/Obligations.lean ====
section
/-! DEFINITION. The statements about the machine, for the provers. Each says which rules of the specification it speaks of;
where a clause rests on a choice of the model, the docstring names the entry of the assumption log. -/

open Sys2Proof Sys2Proof.Machine

/-- The SA group, the immediates and the constants: each instruction completes and writes xd with its result and nothing
else. -/
def Obligations.ScalarResults : Prop :=
  /- R158: ADD, SUB, the six bitwise operations, MUL, ADDW and SUBW. Each completes, writes xd and nothing else. -/
  (∀ (s : State) (d a b : XReg),
    GivesX (.add d a b) s d 4 (fun v => v.toNat = ((s.x a).toNat + (s.x b).toNat) % 2 ^ 64) ∧
    GivesX (.sub d a b) s d 4 (fun v => (v.toNat : Int) = ((s.x a).toNat - (s.x b).toNat : Int) % 2 ^ 64) ∧
    GivesX (.and d a b) s d 4 (fun v => ∀ i, v.getLsbD i = ((s.x a).getLsbD i && (s.x b).getLsbD i)) ∧
    GivesX (.or d a b) s d 4 (fun v => ∀ i, v.getLsbD i = ((s.x a).getLsbD i || (s.x b).getLsbD i)) ∧
    GivesX (.xor d a b) s d 4 (fun v => ∀ i, v.getLsbD i = ((s.x a).getLsbD i ^^ (s.x b).getLsbD i)) ∧
    GivesX (.andn d a b) s d 4 (fun v => ∀ i < 64, v.getLsbD i = ((s.x a).getLsbD i && !(s.x b).getLsbD i)) ∧
    GivesX (.orn d a b) s d 4 (fun v => ∀ i < 64, v.getLsbD i = ((s.x a).getLsbD i || !(s.x b).getLsbD i)) ∧
    GivesX (.xnor d a b) s d 4 (fun v => ∀ i < 64, v.getLsbD i = !((s.x a).getLsbD i ^^ (s.x b).getLsbD i)) ∧
    GivesX (.mul d a b) s d 4 (fun v => v.toNat = (s.x a).toNat * (s.x b).toNat % 2 ^ 64) ∧
    GivesX (.addw d a b) s d 4 (fun v =>
      v.toInt = (((s.x a).toNat + (s.x b).toNat : Int) + 2 ^ 31) % 2 ^ 32 - 2 ^ 31) ∧
    GivesX (.subw d a b) s d 4 (fun v =>
      v.toInt = (((s.x a).toNat - (s.x b).toNat : Int) + 2 ^ 31) % 2 ^ 32 - 2 ^ 31)) ∧
  /- R158: the shifts and rotates, by xb mod 64. -/
  (∀ (s : State) (d a b : XReg) (n : Nat), n = (s.x b).toNat % 64 →
    GivesX (.sll d a b) s d 4 (fun v => v.toNat = (s.x a).toNat * 2 ^ n % 2 ^ 64) ∧
    GivesX (.srl d a b) s d 4 (fun v => v.toNat = (s.x a).toNat / 2 ^ n) ∧
    GivesX (.sra d a b) s d 4 (fun v => v.toInt = (s.x a).toInt / 2 ^ n) ∧
    GivesX (.rol d a b) s d 4 (fun v => ∀ i < 64, v.getLsbD ((i + n) % 64) = (s.x a).getLsbD i) ∧
    GivesX (.ror d a b) s d 4 (fun v => ∀ i < 64, v.getLsbD i = (s.x a).getLsbD ((i + n) % 64))) ∧
  /- R158: MIN to SNE. -/
  (∀ (s : State) (d a b : XReg),
    GivesX (.min d a b) s d 4 (fun v => v.toInt = min (s.x a).toInt (s.x b).toInt) ∧
    GivesX (.max d a b) s d 4 (fun v => v.toInt = max (s.x a).toInt (s.x b).toInt) ∧
    GivesX (.minu d a b) s d 4 (fun v => v.toNat = min (s.x a).toNat (s.x b).toNat) ∧
    GivesX (.maxu d a b) s d 4 (fun v => v.toNat = max (s.x a).toNat (s.x b).toNat) ∧
    GivesX (.slt d a b) s d 4 (fun v => v = if (s.x a).toInt < (s.x b).toInt then 1 else 0) ∧
    GivesX (.sltu d a b) s d 4 (fun v => v = if (s.x a).toNat < (s.x b).toNat then 1 else 0) ∧
    GivesX (.seq d a b) s d 4 (fun v => v = if s.x a = s.x b then 1 else 0) ∧
    GivesX (.sne d a b) s d 4 (fun v => v = if s.x a = s.x b then 0 else 1)) ∧
  /- R158: the high halves of the 128-bit products. -/
  (∀ (s : State) (d a b : XReg),
    GivesX (.wmuls d a b) s d 4 (fun v => v.toInt = (s.x a).toInt * (s.x b).toInt / 2 ^ 64) ∧
    GivesX (.wmulu d a b) s d 4 (fun v => v.toNat = (s.x a).toNat * (s.x b).toNat / 2 ^ 64) ∧
    GivesX (.wmulm d a b) s d 4 (fun v => v.toInt = (s.x a).toInt * (s.x b).toNat / 2 ^ 64)) ∧
  /- R158: the bit counts and the reversals. -/
  (∀ (s : State) (d a : XReg),
    GivesX (.clz d a) s d 4 (fun v => v.toNat ≤ 64 ∧ (∀ i < v.toNat, (s.x a).getLsbD (63 - i) = false) ∧
      (v.toNat < 64 → (s.x a).getLsbD (63 - v.toNat) = true)) ∧
    GivesX (.ctz d a) s d 4 (fun v => v.toNat ≤ 64 ∧ (∀ i < v.toNat, (s.x a).getLsbD i = false) ∧
      (v.toNat < 64 → (s.x a).getLsbD v.toNat = true)) ∧
    GivesX (.popc d a) s d 4 (fun v => v.toNat = ((List.range 64).filter (fun i => (s.x a).getLsbD i)).length) ∧
    GivesX (.brev d a) s d 4 (fun v => ∀ i < 64, v.getLsbD (63 - i) = (s.x a).getLsbD i) ∧
    GivesX (.bytr d a) s d 4 (fun v => ∀ i < 8, v.extractLsb' (8 * (7 - i)) 8 = (s.x a).extractLsb' (8 * i) 8)) ∧
  /- R161, R117: the immediates and the constants. -/
  (∀ (s : State) (d a : XReg) (k : BitVec 12) (n : BitVec 6) (c : BitVec 32),
    GivesX (.addi d a k) s d 4 (fun v => (v.toNat : Int) = ((s.x a).toNat + k.toInt) % 2 ^ 64) ∧
    GivesX (.andi d a k) s d 4 (fun v => ∀ i < 64, v.getLsbD i = ((s.x a).getLsbD i && k.getLsbD (min i 11))) ∧
    GivesX (.ori d a k) s d 4 (fun v => ∀ i < 64, v.getLsbD i = ((s.x a).getLsbD i || k.getLsbD (min i 11))) ∧
    GivesX (.xori d a k) s d 4 (fun v => ∀ i < 64, v.getLsbD i = ((s.x a).getLsbD i ^^ k.getLsbD (min i 11))) ∧
    GivesX (.slli d a n) s d 4 (fun v => v.toNat = (s.x a).toNat * 2 ^ n.toNat % 2 ^ 64) ∧
    GivesX (.srli d a n) s d 4 (fun v => v.toNat = (s.x a).toNat / 2 ^ n.toNat) ∧
    GivesX (.srai d a n) s d 4 (fun v => v.toInt = (s.x a).toInt / 2 ^ n.toNat) ∧
    GivesX (.rori d a n) s d 4 (fun v => ∀ i < 64, v.getLsbD i = (s.x a).getLsbD ((i + n.toNat) % 64)) ∧
    GivesX (.slti d a k) s d 4 (fun v => v = if (s.x a).toInt < k.toInt then 1 else 0) ∧
    GivesX (.sltiu d a k) s d 4 (fun v => v = if ((s.x a).toNat : Int) < k.toInt % 2 ^ 64 then 1 else 0) ∧
    GivesX (.li d c) s d 12 (fun v => v.toInt = c.toInt) ∧
    GivesX (.lih d c) s d 12 (fun v => v.toNat = c.toNat * 2 ^ 32 + (s.x d).toNat % 2 ^ 32))

/-- Division and remainder; FNSB, BEXT and BINS give the bit of a rank, the field and the insertion. -/
def Obligations.DivisionAndFields : Prop :=
  /- R159: division by zero, the overflow, and in every other case the quotient and the remainder. -/
  (∀ (s : State) (d a b : XReg),
    GivesX (.div d a b) s d 4 (fun v =>
      (s.x b = 0 → v = BitVec.allOnes 64) ∧
      (s.x a = BitVec.intMin 64 → s.x b = BitVec.allOnes 64 → v = BitVec.intMin 64) ∧
      (s.x b ≠ 0 → ¬ (s.x a = BitVec.intMin 64 ∧ s.x b = BitVec.allOnes 64) →
        ∃ m : Int, (s.x a).toInt = v.toInt * (s.x b).toInt + m ∧ m.natAbs < (s.x b).toInt.natAbs ∧
          (m = 0 ∨ (m < 0 ↔ (s.x a).toInt < 0)))) ∧
    GivesX (.rem d a b) s d 4 (fun v =>
      (s.x b = 0 → v = s.x a) ∧
      (s.x a = BitVec.intMin 64 → s.x b = BitVec.allOnes 64 → v = 0) ∧
      (s.x b ≠ 0 → ∃ q : Int, (s.x a).toInt = q * (s.x b).toInt + v.toInt ∧ v.toInt.natAbs < (s.x b).toInt.natAbs ∧
          (v.toInt = 0 ∨ (v.toInt < 0 ↔ (s.x a).toInt < 0)))) ∧
    GivesX (.divu d a b) s d 4 (fun v =>
      (s.x b = 0 → v = BitVec.allOnes 64) ∧
      (s.x b ≠ 0 → ∃ m, (s.x a).toNat = v.toNat * (s.x b).toNat + m ∧ m < (s.x b).toNat)) ∧
    GivesX (.remu d a b) s d 4 (fun v =>
      (s.x b = 0 → v = s.x a) ∧
      (s.x b ≠ 0 → ∃ q, (s.x a).toNat = q * (s.x b).toNat + v.toNat ∧ v.toNat < (s.x b).toNat))) ∧
  /- R160: FNSB gives the position of the set bit of xa of rank xb, or 64. -/
  (∀ (s : State) (d a b : XReg),
    GivesX (.fnsb d a b) s d 4 (fun v => v.toNat ≤ 64 ∧
      (v.toNat < 64 → (s.x a).getLsbD v.toNat = true ∧
        ((List.range v.toNat).filter (fun i => (s.x a).getLsbD i)).length = (s.x b).toNat) ∧
      (v.toNat = 64 → ((List.range 64).filter (fun i => (s.x a).getLsbD i)).length ≤ (s.x b).toNat))) ∧
  /- R160: BEXT and BINS take pos from bits 5–0 of xb, len from bits 14–8, where values above 64 count as 64, and L =
     min(len, 64 − pos). -/
  (∀ (s : State) (d a b : XReg) (pos l : Nat), pos = (s.x b).toNat % 64 →
    l = min (min ((s.x b).toNat / 2 ^ 8 % 2 ^ 7) 64) (64 - pos) →
    GivesX (.bext d a b) s d 4 (fun v => ∀ i < 64, v.getLsbD i =
      if i < l then (s.x a).getLsbD (pos + i)
      else ((s.x b).getLsbD 16 && decide (0 < l) && (s.x a).getLsbD (pos + l - 1))) ∧
    GivesX (.bins d a b) s d 4 (fun v => ∀ i < 64, v.getLsbD i =
      if pos ≤ i ∧ i < pos + l then (s.x a).getLsbD (i - pos) else (s.x d).getLsbD i))

/-- Branches on zero, compare and branch, JAL and JALR: where they go and how they are encoded. -/
def Obligations.BranchesAndJumps : Prop :=
  /- R163: the branches on zero; none changes a register, a flag or memory. -/
  (∀ (s : State) (a : XReg) (off : BitVec 15) (goes : Bool → Word),
    (∀ taken, goes taken = if taken then BitVec.ofInt 64 (s.me.pc.toNat + off.toInt * 4) else s.me.pc + 4) →
    GoesTo (.beqz a off) s (goes (decide ((s.x a).toInt = 0))) ∧
    GoesTo (.bnez a off) s (goes (decide ((s.x a).toInt ≠ 0))) ∧
    GoesTo (.bltz a off) s (goes (decide ((s.x a).toInt < 0))) ∧
    GoesTo (.bgez a off) s (goes (decide (0 ≤ (s.x a).toInt))) ∧
    GoesTo (.bgtz a off) s (goes (decide (0 < (s.x a).toInt))) ∧
    GoesTo (.blez a off) s (goes (decide ((s.x a).toInt ≤ 0)))) ∧
  /- R163: the words of the branches on zero. -/
  (∀ (a : XReg) (off : BitVec 15) (n : Nat) (i : Instr), (n, i) ∈ [(0, Instr.beqz a off), (1, .bnez a off), (2, .bltz a off),
      (3, .bgez a off), (4, .bgtz a off), (5, .blez a off)] →
    (encode i).map BitVec.toNat = [off.toNat * 2 ^ 17 + a.toNat * 2 ^ 11 + n * 2 ^ 8 + 0x54]) ∧
  /- R164: compare and branch. -/
  (∀ (s : State) (a b : XReg) (off : BitVec 32) (goes : Bool → Word),
    (∀ taken, goes taken = if taken then BitVec.ofInt 64 (s.me.pc.toNat + off.toInt * 4) else s.me.pc + 8) →
    GoesTo (.beq a b off) s (goes (decide (s.x a = s.x b))) ∧
    GoesTo (.bne a b off) s (goes (decide (s.x a ≠ s.x b))) ∧
    GoesTo (.blt a b off) s (goes (decide ((s.x a).toInt < (s.x b).toInt))) ∧
    GoesTo (.bge a b off) s (goes (decide ((s.x b).toInt ≤ (s.x a).toInt))) ∧
    GoesTo (.bltu a b off) s (goes (decide ((s.x a).toNat < (s.x b).toNat))) ∧
    GoesTo (.bgeu a b off) s (goes (decide ((s.x b).toNat ≤ (s.x a).toNat)))) ∧
  /- R164: the words of compare and branch. -/
  (∀ (a b : XReg) (off : BitVec 32) (n : Nat) (i : Instr), (n, i) ∈ [(0, Instr.beq a b off), (1, .bne a b off), (2, .blt a b off),
      (3, .bge a b off), (4, .bltu a b off), (5, .bgeu a b off)] →
    (encode i).map BitVec.toNat = [b.toNat * 2 ^ 25 + n * 2 ^ 19 + a.toNat * 2 ^ 12 + 0x06, off.toNat]) ∧
  /- R165: JAL and JALR write the address of the next instruction and go to their target; JALR reads xa before it
     writes xd. -/
  (∀ (s : State) (d a : XReg) (off : BitVec 18) (k : BitVec 12),
    (∃ t, exec (.jal d off) s = .next t ∧ (∀ r, t.x r = if r = d ∧ d ≠ 0 then s.me.pc + 4 else s.x r) ∧
      Retires s t { s.me with x := t.me.x } (BitVec.ofInt 64 (s.me.pc.toNat + off.toInt * 4))) ∧
    (∃ t, exec (.jalr d a k) s = .next t ∧ (∀ r, t.x r = if r = d ∧ d ≠ 0 then s.me.pc + 4 else s.x r) ∧
      Retires s t { s.me with x := t.me.x } (BitVec.ofInt 64 ((s.x a).toNat + k.toInt)))) ∧
  /- R165: the words of JAL and JALR. -/
  (∀ (d a : XReg) (off : BitVec 18) (k : BitVec 12),
    (encode (.jal d off)).map BitVec.toNat = [off.toNat * 2 ^ 14 + d.toNat * 2 ^ 8 + 0x58] ∧
    (encode (.jalr d a k)).map BitVec.toNat = [k.toNat * 2 ^ 20 + a.toNat * 2 ^ 14 + d.toNat * 2 ^ 8 + 0x5C])

/-- WBASE sets ROTB as R169 says; LOOP turns ROTB, counts its level and goes back or on. -/
def Obligations.LoopAndRotation : Prop :=
  /- R169: WBASE sets ROTB to xa + imm, read as signed, mod H; with H = 0, ROTB stays 0. -/
  (∀ (s : State) (a : XReg) (k : BitVec 12),
    ∃ t r, exec (.wbase a k) s = .next t ∧ Retires s t { s.me with rotb := r } (s.me.pc + 4) ∧
      (s.here.h = 0 → r = 0) ∧
      (0 < s.here.h → s.here.h < 2 ^ 64 → r.toNat < s.here.h ∧ ((r.toNat : Int) - (s.x a + k.signExtend 64).toInt) % s.here.h = 0)) ∧
  /- R169: the word of WBASE. -/
  (∀ (a : XReg) (k : BitVec 12), (encode (.wbase a k)).map BitVec.toNat = [k.toNat * 2 ^ 20 + a.toNat * 2 ^ 14 + 0x78]) ∧
  /- R167, R168: LOOP on level `k`. On a level that is not TEMPORAL it faults ILLEGAL with no effect; on a TEMPORAL
     level it turns ROTB by the level's stride where H is not 0, and goes back while the counter is above 1, or
     reloads it. -/
  (∀ (s : State) (k : BitVec 3) (off : BitVec 15),
    (s.temporal k.toNat = none → exec (.loop k off) s = .next (s.fault (illegalOf (encode (.loop k off))))) ∧
    (∀ l, s.temporal k.toNat = some l →
      ∃ t y, exec (.loop k off) s = .next t ∧
        y = { s.me with
              rotb := if s.here.h = 0 then s.me.rotb else w64 ((s.me.rotb.toNat + l.stride) % s.here.h),
              loopc := t.me.loopc } ∧
        (∀ j : Fin 8, t.me.loopc[j] = if j.val = k.toNat then
          (if 1 < (s.me.loopc[j]).toNat then s.me.loopc[j] - 1 else w64 l.extent) else s.me.loopc[j]) ∧
        Retires s t y (if 1 < (s.me.loopc[k.toNat]'k.isLt).toNat then BitVec.ofInt 64 (s.me.pc.toNat + off.toInt * 4)
          else s.me.pc + 4)))

/-- R249, R250: a scalar load of an ordinary, aligned address answers the bytes that the context sees there, in
little-endian order, sign- or zero-extended; only xd and the caches change. An access through x62 is one inside the
spill window (R201). Model choices: log 2, log 29, log 72. -/
def Obligations.LoadResults : Prop :=
  ∀ (s : State) (d a : XReg) (imm : BitVec 12) (va : Nat) (p : Phys),
    va = (s.x a + imm.signExtend 64).toNat →
    (a = 62 → s.me.inWindow va = true) →
    ∀ i n signed, (i, n, signed) ∈ [(Instr.ldb d a imm, 1, true), (.ldbu d a imm, 1, false), (.ldh d a imm, 2, true),
        (.ldhu d a imm, 2, false), (.ldw d a imm, 4, true), (.ldwu d a imm, 4, false), (.ldd d a imm, 8, true)] →
      va % n = 0 → Ordinary s va n false p → Ready s va n false →
      ∃ t v, exec i s = .next t ∧ LoadsX s t d v ∧
        (if signed then v.toInt = toSigned (8 * n) (leNat (s.me.overlay va (s.bytesAt p n)))
         else v.toNat = leNat (s.me.overlay va (s.bytesAt p n)))

/-- Scalar stores write their bytes and no other; in a phase they are held and counted. Model choices: log 15, log 24,
log 72. -/
def Obligations.StoreResults : Prop :=
  /- R249, R251: a scalar store of an ordinary, aligned address outside a phase writes the low bytes of xr in
     little-endian order, and every other byte of memory stays. Besides, only the caches, the poison of a sector that
     it rewrites and the context's escape bit may change. -/
  (∀ (s : State) (r a : XReg) (imm : BitVec 12) (va : Nat) (p : Phys),
    va = (s.x a + imm.signExtend 64).toNat →
    (a = 62 → s.me.inWindow va = true) →
    s.me.phase = false →
    ∀ i n, (i, n) ∈ [(Instr.stb r a imm, 1), (.sth r a imm, 2), (.stw r a imm, 4), (.std r a imm, 8)] →
      va % n = 0 → Ordinary s va n true p → Ready s va n true →
      ∃ t m, exec i s = .next t ∧ Touches s m ∧
        (∀ far x, t.byteAt far x = if far = p.far ∧ p.addr ≤ x ∧ x < p.addr + n
          then (s.x r).extractLsb' (8 * (x - p.addr)) 8 else s.byteAt far x) ∧
        Retires { m with mem := t.mem, hostMem := t.hostMem, poison := t.poison } t
          { s.me with escape := t.me.escape } (s.me.pc + 4)) ∧
  /- R211, R250: in an open phase that holds fewer than 32 stores, a scalar store of an ordinary address is held, the
     youngest of the phase, and counted; no byte of memory changes. -/
  (∀ (s : State) (r a : XReg) (imm : BitVec 12) (va : Nat) (p : Phys),
    va = (s.x a + imm.signExtend 64).toNat →
    (a = 62 → s.me.inWindow va = true) → s.me.phase = true → s.me.holdCount < 32 →
    ∀ i n, (i, n) ∈ [(Instr.stb r a imm, 1), (.sth r a imm, 2), (.stw r a imm, 4), (.std r a imm, 8)] →
      va % n = 0 → Ordinary s va n true p → Ready s va n true →
      ∃ t m, exec i s = .next t ∧ Touches s m ∧
        t.me.holdList.flatMap (fun h => h.stores) =
          s.me.holdList.flatMap (fun h => h.stores) ++ [.mem va (leBytes n (s.x r).toNat)] ∧
        (t.me.holdList.getLast?).map (fun h => h.seq) = some s.me.seq ∧
        Retires m t { s.me with
          holdList := t.me.holdList, holdCount := s.me.holdCount + 1, seq := s.me.seq + 1 } (s.me.pc + 4))

/-- The checks of scalar accesses, handle accesses, HREC and atomics fault before any effect. Model choices: log 16.
-/
def Obligations.AccessFaults : Prop :=
  /- R250, R201: the checks of a scalar access, in their order: MISALIGN, SPILL_OVERFLOW for x62 outside its window,
     XLATE of a number above the address space. -/
  (∀ (s : State) (d a : XReg) (imm : BitVec 12) (va : Word), va = s.x a + imm.signExtend 64 →
    ∀ i n, (i, n) ∈ [(Instr.ldb d a imm, 1), (.ldbu d a imm, 1), (.ldh d a imm, 2), (.ldhu d a imm, 2), (.ldw d a imm, 4),
        (.ldwu d a imm, 4), (.ldd d a imm, 8), (.stb d a imm, 1), (.sth d a imm, 2), (.stw d a imm, 4), (.std d a imm, 8)] →
      (va.toNat % n ≠ 0 → exec i s = .next (s.fault (misalign va))) ∧
      (va.toNat % n = 0 → a = 62 → s.me.inWindow va.toNat = false → exec i s = .next (s.fault (spillOverflow va))) ∧
      (va.toNat % n = 0 → (a = 62 → s.me.inWindow va.toNat = true) → 2 ^ 57 ≤ va.toNat →
        exec i s = .next (s.fault (xlate 2 va.toNat)))) ∧
  /- R171: HLD and HST of an address that is not a multiple of 32 fault MISALIGN before any effect. -/
  (∀ (s : State) (d : HReg) (a : XReg) (off : BitVec 6) (va : Word), va = s.x a + BitVec.ofInt 64 (off.toInt * 32) →
    va.toNat % 32 ≠ 0 →
    exec (.hld d a off) s = .next (s.fault (misalign va)) ∧ exec (.hst d a off) s = .next (s.fault (misalign va))) ∧
  /- R172: the checks of HREC that come before it reads the record. -/
  (∀ (s : State) (d : HReg) (a : XReg),
    (2 ^ 48 ≤ (s.x a).toNat → exec (.hrec d a) s = .next (s.fault (bounds (s.x a)))) ∧
    ((s.x a).toNat < 2 ^ 48 → (s.x a).toNat % 64 ≠ 0 → exec (.hrec d a) s = .next (s.fault (misalign (s.x a))))) ∧
  /- R254, R201: the checks of an atomic before it translates, in their order. -/
  (∀ (s : State) (m : AmoArgs) (xc : XReg) (va : Word) (n : Nat), va = s.x m.xa → n = (if m.wide then 8 else 4) →
    ∀ i ∈ [Instr.atadd m, .atswap m, .atand m, .ator m, .atxor m, .atmin m, .atmax m, .atminu m, .atmaxu m, .cas m xc,
        .atfmax m, .atfadd m],
      (va.toNat % n ≠ 0 → exec i s = .next (s.fault (misalign va))) ∧
      (va.toNat % n = 0 → m.xa = 62 → s.me.inWindow va.toNat = false → exec i s = .next (s.fault (spillOverflow va))) ∧
      (va.toNat % n = 0 → (m.xa = 62 → s.me.inWindow va.toNat = true) → 2 ^ 57 ≤ va.toNat →
        exec i s = .next (s.fault (xlate 2 va.toNat))))

/-- HMOV, HGET, HSET and HADV write their destination register and nothing else; HREC through the record cache points
hd at the record. Model choices: log 37. -/
def Obligations.HandleResults : Prop :=
  /- R170, R171: HMOV, HGET, HSET and HADV write their destination register and nothing else. -/
  (∀ (s : State) (d a : HReg) (x : XReg) (f : HField),
    GivesH (.hmov d a) s d (fun v => v = s.h a) ∧
    GivesX (.hget x a f) s x 4 (fun v => v.toNat = (s.h a).toNat / 2 ^ (handleField f).1 % 2 ^ (handleField f).2) ∧
    GivesH (.hset d f x) s d (fun v => ∀ i < 256, v.getLsbD i =
      if (handleField f).1 ≤ i ∧ i < (handleField f).1 + (handleField f).2 then (s.x x).getLsbD (i - (handleField f).1)
      else (s.h d).getLsbD i) ∧
    GivesH (.hadv d x) s d (fun v =>
      v.toNat / 2 ^ 128 % 2 ^ 64 = ((s.h d).toNat / 2 ^ 128 + (s.x x).toNat) % 2 ^ 64 ∧
      ∀ i < 256, (i < 128 ∨ 192 ≤ i) → v.getLsbD i = (s.h d).getLsbD i)) ∧
  /- R172: HREC through a record that the record cache holds points hd at the record: REC is xa, CURSOR 0, BOUND the
     span, poison and enclosure the record's; BASE, space and the reserved bits stay. The span is 2^57 − BASE of a paged
     record, negative where BASE is above 2^57, 0 where an extent is 0, else the sum of (extent − 1) × stride over the
     dimensions plus the element's bytes; strides of 4-bit elements count nibbles. -/
  (∀ (s : State) (d : HReg) (a : XReg) (bs : List Byte) (r : Rec) (span : Int) (sum nib : Nat),
    (s.x a).toNat < 2 ^ 48 → (s.x a).toNat % 64 = 0 → Ready s (s.x a).toNat 192 false →
    findKey (s.x a).toNat s.here.records = some bs → (s.choose 2).1 = 0 → r = parseRec (s.x a).toNat bs →
    1 ≤ r.kind → r.kind ≤ 3 → r.poison ≤ 2 → r.tailOk = true →
    sum = ((List.range r.rank).map (fun i => (r.ext i - 1) * r.str i)).sum →
    (r.kind = 3 → span = (2 ^ 57 : Int) - hBase (s.h d)) →
    (r.kind ≠ 3 → r.rank ≤ 6 ∧ dtypeNibbles s.here.nf r.dtype r.nf = some nib ∧
      span = (if (List.range r.rank).any (fun i => r.ext i == 0) then 0
        else if nib = 1 then (sum + 2) / 2 else sum + nib / 2 : Nat)) →
    span ≤ 2 ^ 57 →
    ∃ t v, exec (.hrec d a) s = .next t ∧
      WritesH { s with choices := t.choices, fresh := t.fresh } t d v ∧
      hRec v = (s.x a).toNat ∧ hCursor v = 0 ∧ (hBound v : Int) = span % 2 ^ 64 ∧ hPoison v = r.poison ∧
      hEncl v = (r.kind == 2) ∧ hBase v = hBase (s.h d) ∧ hSpace v = hSpace (s.h d) ∧
      v.toNat / 2 ^ 117 % 2 ^ 11 = (s.h d).toNat / 2 ^ 117 % 2 ^ 11)

/-- HLD and HST of an ordinary address outside a phase move a handle register and memory. Model choices: log 15. -/
def Obligations.HandleMemory : Prop :=
  /- R171: HLD of an ordinary, 32-byte aligned address reads four doublewords in ascending order into hd; off is imm6
     × 32. Only hd and the caches change. -/
  (∀ (s : State) (d : HReg) (a : XReg) (off : BitVec 6) (va : Nat) (p : Phys),
    va = (s.x a + BitVec.ofInt 64 (off.toInt * 32)).toNat →
    va % 32 = 0 →
    (∀ j ∈ [0, 8, 16, 24], Ordinary s (va + j) 8 false { p with addr := p.addr + j } ∧ Ready s (va + j) 8 false ∧
      (a = 62 → s.me.inWindow (va + j) = true)) →
    ∃ t m v, exec (.hld d a off) s = .next t ∧ Touches s m ∧ WritesH m t d v ∧
      ∀ j ∈ [0, 8, 16, 24], v.toNat / 2 ^ (8 * j) % 2 ^ 64 =
        leNat (s.me.overlay (va + j) (s.bytesAt { p with addr := p.addr + j } 8))) ∧
  /- R171: HST outside a phase writes the 32 bytes of hd, bits 7–0 first, and no other byte of memory; the stored
     bytes are taken to be no entry of the page tables that map them. -/
  (∀ (s : State) (d : HReg) (a : XReg) (off : BitVec 6) (va : Nat) (p : Phys),
    va = (s.x a + BitVec.ofInt 64 (off.toInt * 32)).toNat →
    va % 32 = 0 → s.me.phase = false →
    (∀ j ∈ [0, 8, 16, 24], Ordinary s (va + j) 8 true { p with addr := p.addr + j } ∧
      (a = 62 → s.me.inWindow (va + j) = true)) →
    Ready s va 32 true →
    (∀ m h, (∀ x, x < p.addr ∨ p.addr + 32 ≤ x → memGet m x = memGet s.mem x) →
      ({ s with mem := m, hostMem := h } : State).walk s.me.supervisor va = s.walk s.me.supervisor va) →
    ∃ t m, exec (.hst d a off) s = .next t ∧ Touches s m ∧
      (∀ far x, t.byteAt far x = if far = p.far ∧ p.addr ≤ x ∧ x < p.addr + 32
        then (s.h d).extractLsb' (8 * (x - p.addr)) 8 else s.byteAt far x) ∧
      Retires { m with mem := t.mem, hostMem := t.hostMem, poison := t.poison } t
        { s.me with escape := t.me.escape } (s.me.pc + 4))

/-- The predicate group: results and encodings. Waiting for a routed compare is R336 and R281 (log 23). -/
def Obligations.PredicateResults : Prop :=
  /- R174: the predicate group, where no routed compare has yet to write a register that it reads. -/
  (∀ (s : State) (d a b : PReg) (x : XReg), s.me.comparing a = false → s.me.comparing b = false →
    GivesP (.pand d a b) s d (fun v => ∀ i < 256, v.getLsbD i = ((s.p a).getLsbD i && (s.p b).getLsbD i)) ∧
    GivesP (.por d a b) s d (fun v => ∀ i < 256, v.getLsbD i = ((s.p a).getLsbD i || (s.p b).getLsbD i)) ∧
    GivesP (.pxor d a b) s d (fun v => ∀ i < 256, v.getLsbD i = ((s.p a).getLsbD i ^^ (s.p b).getLsbD i)) ∧
    GivesP (.pandn d a b) s d (fun v => ∀ i < 256, v.getLsbD i = ((s.p a).getLsbD i && !(s.p b).getLsbD i)) ∧
    GivesP (.pnot d a) s d (fun v => ∀ i < 256, v.getLsbD i = !(s.p a).getLsbD i) ∧
    GivesP (.pfirstn d a x) s d (fun v => ∀ i < 256, v.getLsbD i = ((s.p a).getLsbD i &&
      decide (((List.range i).filter (fun j => (s.p a).getLsbD j)).length < (s.x x).toNat))) ∧
    GivesX (.pcnt x a) s x 4 (fun v => v.toNat = ((List.range 256).filter (fun j => (s.p a).getLsbD j)).length) ∧
    GivesX (.pfirst x a) s x 4 (fun v => v.toNat ≤ 256 ∧ (∀ i < v.toNat, (s.p a).getLsbD i = false) ∧
      (v.toNat < 256 → (s.p a).getLsbD v.toNat = true))) ∧
  /- R174: the words of the predicate group. -/
  (∀ (d a b : PReg) (x : XReg) (n u v w : Nat) (i : Instr), (n, u, v, w, i) ∈ [
      (0, d.toNat, a.toNat, b.toNat, Instr.pand d a b), (1, d.toNat, a.toNat, b.toNat, .por d a b),
      (2, d.toNat, a.toNat, b.toNat, .pxor d a b), (3, d.toNat, a.toNat, b.toNat, .pandn d a b),
      (4, d.toNat, a.toNat, 0, .pnot d a), (5, d.toNat, a.toNat, x.toNat, .pfirstn d a x),
      (6, x.toNat, a.toNat, 0, .pcnt x a), (7, x.toNat, a.toNat, 0, .pfirst x a)] →
    (encode i).map BitVec.toNat = [n * 2 ^ 29 + w * 2 ^ 22 + v * 2 ^ 15 + u * 2 ^ 8 + 0x70])

/-- SRR reads a register as it issues; SRW completes for every register that the level may write, and writes its RW
fields alone. Model choices: log 5, log 9, log 28, log 44. -/
def Obligations.SystemRegisters : Prop :=
  /- R175: SRR writes xd with the register's value as it issues, and changes nothing else. -/
  (∀ (s : State) (d : XReg) (n : BitVec 12), ∃ t, exec (.srr d n) s = .next t ∧
    WritesX s t d (s.sysRead n.toNat) 4 ∧
    (n = 0x007 → s.sysRead n.toNat = s.time) ∧ (n = 0x010 → s.sysRead n.toNat = s.me.status) ∧
    (n = 0x009 → s.sysRead n.toNat = s.here.insns) ∧
    (n = 0x012 → s.sysRead n.toNat = s.me.rotb) ∧ (n = 0x100 → s.sysRead n.toNat = s.me.tcause) ∧
    (n = 0x101 → s.sysRead n.toNat = s.me.tval) ∧ (n = 0x102 → s.sysRead n.toNat = s.me.epc)) ∧
  /- R143, R144, R175: SRW of the context's registers writes their RW fields alone; a register that is SW faults
     PRIVILEGE at TASK level and is written at SUPERVISOR level. -/
  (∀ (s : State) (n : BitVec 12) (a : XReg),
    (sysSw n.toNat = true → s.me.supervisor = false →
      exec (.srw n a) s = .next (s.fault (illegalPrivilege (encode (.srw n a))))) ∧
    (n = 0x010 → ∃ t v, exec (.srw n a) s = .next t ∧ Retires s t { s.me with status := v } (s.me.pc + 4) ∧
      ∀ i < 64, v.getLsbD i = if i < 5 ∨ i = 8 then (s.x a).getLsbD i else s.me.status.getLsbD i) ∧
    (n = 0x012 → 0 < s.here.h → s.here.h < 2 ^ 64 → ∃ t v, exec (.srw n a) s = .next t ∧
      Retires s t { s.me with rotb := v } (s.me.pc + 4) ∧ v.toNat = (s.x a).toNat % s.here.h) ∧
    (s.me.supervisor = true →
      (n = 0x100 → ∃ t, exec (.srw n a) s = .next t ∧
        Retires s t { s.me with tcause := s.x a &&& 0x1FF } (s.me.pc + 4)) ∧
      (n = 0x101 → ∃ t, exec (.srw n a) s = .next t ∧ Retires s t { s.me with tval := s.x a } (s.me.pc + 4)) ∧
      (n = 0x102 → ∃ t, exec (.srw n a) s = .next t ∧ Retires s t { s.me with epc := s.x a } (s.me.pc + 4)))) ∧
  /- R143, R150, R175, R396: SRW completes for every register that the level may write. A read-only register keeps its
     value; a context, core or quad register takes the bits of its RW fields, and nothing else changes. The counts that
     SRW's own completion adds come before the write of a PERF register. -/
  (∀ (s : State) (n : BitVec 12) (a : XReg), (sysSw n.toNat = false ∨ s.me.supervisor = true) →
    ∃ t, exec (.srw n a) s = .next t ∧ t.me.pc = s.me.pc + 4 ∧ t.here.insns = s.here.insns + 1 ∧
      (∀ c, c ≠ s.cur → t.core c = s.core c) ∧ t.here.ctx (!s.myK) = s.here.ctx (!s.myK) ∧ SameBytes s t ∧
      ((n.toNat < 0x00A ∨ n = 0x011 ∨ n = 0x041 ∨ n = 0x050 ∨ n = 0x051 ∨ n = 0x060 ∨ n = 0x061 ∨ n = 0x062 ∨ n = 0x070) →
        Retires s t s.me (s.me.pc + 4)) ∧
      (∀ j : Fin 8, n.toNat = 0x18 + j.val →
        Retires s t { s.me with loopc := s.me.loopc.set j (s.x a &&& 0xFFFF_FFFF) } (s.me.pc + 4)) ∧
      (n = 0x012 → s.here.h = 0 → Retires s t { s.me with rotb := 0 } (s.me.pc + 4)) ∧
      (n = 0x052 → Retires s t { s.me with spovf := s.x a &&& 0x01FF_FFFF_FFFF_F000 } (s.me.pc + 4)) ∧
      (n = 0x053 → Retires s t { s.me with splim := s.x a &&& 0xFFFF_FFFF } (s.me.pc + 4)) ∧
      (∀ j : Fin 4, n.toNat = 0x20 + j.val →
        Retires (s.setHere { s.here with nf := s.here.nf.set j ((s.x a).extractLsb' 0 32) }) t s.me (s.me.pc + 4)) ∧
      (∀ j : Fin 16, n.toNat = 0x30 + j.val →
        Retires (s.setHere { s.here with tcfg := s.here.tcfg.set j (s.x a) }) t s.me (s.me.pc + 4)) ∧
      (∀ j : Fin 8, n.toNat = 0x80 + j.val → OnlyContext s t ∧ t.me = s.me.passed (s.me.pc + 4) ∧
        t.here.perf = (vecMap (countPerf 2 1) s.here.perf).set j (s.x a)) ∧
      (n = 0x040 → isControl s.cur = false → ∃ q : Quad, q.arbRead = s.x a &&& 0x1FFF_003D ∧
        Retires (s.setQuad (quadOf s.cur) q) t s.me (s.me.pc + 4)) ∧
      (n = 0x040 → isControl s.cur = true → Retires s t s.me (s.me.pc + 4)))

/-- NOP and the fences go on once what they wait for has happened; FENCE holds until then. A store that an open phase
holds is done for them (R211). That FENCE goes on alike at every scope is log 72. Model choices: log 27, log 72. -/
def Obligations.Fences : Prop :=
  /- R176, R183 to R185: NOP, and the fences once what they wait for has happened, go on with no other effect; RFENCE
     empties the core's record cache. -/
  (∀ (s : State) (o : Order) (sc : Scope),
    GoesTo .nop s (s.me.pc + 4) ∧
    (s.me.lq.all Entry.landed = true → o = .acq → GoesTo (.fence o sc) s (s.me.pc + 4)) ∧
    (s.me.lq.all Entry.landed = true → s.me.sq.all Entry.done = true → s.here.noneParked s.myK = true →
      GoesTo (.fence o sc) s (s.me.pc + 4)) ∧
    (s.me.sq.all Entry.done = true → s.here.noneParked s.myK = true →
      (s.me.lq ++ s.me.cq ++ s.me.sq).all (fun e => !e.recordDue) = true →
      ∃ t, exec .rfence s = .next t ∧ Retires (s.setHere { s.here with records := [] }) t s.me (s.me.pc + 4)) ∧
    ((s.me.lq ++ s.me.cq ++ s.me.sq).all (fun e => !e.isMtx || e.landed) = true → GoesTo .tfence s (s.me.pc + 4))) ∧
  /- R183: a FENCE other than ACQ holds the sequencer while a load or store of the context is due or a store is
     parked, and FENCE.ACQ while a load is due, whatever its stores. -/
  (∀ (s : State) (o : Order) (sc : Scope),
    (o ≠ .acq → (s.me.lq.all Entry.landed && s.me.sq.all Entry.done && s.here.noneParked s.myK) = false →
      exec (.fence o sc) s = .next (s.setMe { s.me with hold := some (.fence o sc, noDeadline) })) ∧
    (s.me.lq.all Entry.landed = false →
      exec (.fence .acq sc) s = .next (s.setMe { s.me with hold := some (.fence .acq sc, noDeadline) })))

/-- PSWAP opens a phase, and commits one with its held stores released in order. Model choices: log 24. -/
def Obligations.PhaseSwitch : Prop :=
  /- R189, R211: PSWAP with PHASE 0 opens a phase: it records its address as the restart point and a snapshot of the
     registers, and sets PHASE; no register, queue or byte of memory changes. -/
  (∀ (s : State), s.me.phase = false →
    ∃ t y sn, exec .pswap s = .next t ∧ Retires s t y (s.me.pc + 4) ∧
      y = { s.me with status := s.me.status ||| 0x4000, restart := s.me.pc, snap := some sn, holdList := [], holdCount := 0,
                      phaseCancelled := false, phaseIneligible := false, phaseNo := s.me.phaseNo + 1, copies := t.me.copies } ∧
      t.me.phase = true ∧
      sn.x = s.me.x ∧ sn.h = s.me.h ∧ sn.p = s.me.p ∧ sn.rotb = s.me.rotb ∧ sn.loopc = s.me.loopc ∧ sn.status = s.me.status) ∧
  /- R189, R237: PSWAP with PHASE 1 and no parked store commits the phase: PHASE falls, nothing is held any more, and
     every held store stands in its entry of SQ, or of CQ for a drain, or in an entry of its own in SQ where its
     instruction has none; SQ is in the order of the instructions. -/
  (∀ (s : State), s.me.phase = true → s.here.noneParked s.myK = true →
    ∃ t y, exec .pswap s = .next t ∧ Retires s t y (s.me.pc + 4) ∧
      y = { s.me with status := s.me.status &&& ~~~0x4000, snap := none, holdList := [], holdCount := 0, lq := t.me.lq,
                      cq := t.me.cq, sq := t.me.sq } ∧
      t.me.phase = false ∧ t.me.lq = s.me.lq.map (fun e => { e with inPhase := false }) ∧
      t.me.sq.Pairwise (fun a b => a.seq ≤ b.seq) ∧
      (∀ h ∈ s.me.holdList, (∀ e ∈ s.me.cq ++ s.me.sq, e.seq ≠ h.seq) →
        ∃ e ∈ t.me.sq, ∃ l, e.seq = h.seq ∧ e.phase = .stores l ∧ ∀ st ∈ h.stores, st ∈ l) ∧
      (∀ q, q = .cq ∨ q = .sq → ∀ e ∈ s.me.queue q, (e.phase = .held ∨ ∃ m, e.phase = .stores m) →
        ∃ f ∈ t.me.queue q, ∃ l, f.seq = e.seq ∧ f.instr = e.instr ∧ f.phase = .stores l ∧
          ∀ h ∈ s.me.holdList, h.seq = e.seq → ∀ st ∈ h.stores, st ∈ l))

/-- TIMER, SSTEP, LATM and YIELD complete with the effects of R182 and R186 to R188; EVPOP and EVPEEK read the head
record. Model choices: log 28, log 44. -/
def Obligations.SequencerControl : Prop :=
  /- R186: TIMER writes xd with TIME and arms the alarm at xa, or disarms it where xa is 0; arming where no alarm is
     armed takes one free slot of the event queue (R346). -/
  (∀ (s : State) (d a : XReg),
    (s.x a = 0 ∨ s.me.alarm.isSome = true ∨ s.me.evq.length + s.me.reserved < 64) →
    ∃ t y, exec (.timer d a) s = .next t ∧ Retires s t y (s.me.pc + 4) ∧
      y = { s.me with x := t.me.x, alarm := if s.x a = 0 then none else some (s.x a), reserved := t.me.reserved } ∧
      (∀ r, t.x r = if r = d ∧ d ≠ 0 then s.time else s.x r) ∧
      (s.x a ≠ 0 → s.me.alarm = none → t.me.reserved = s.me.reserved + 1) ∧
      (s.x a = 0 → s.me.alarm.isSome = true → t.me.reserved = s.me.reserved - 1)) ∧
  /- R187: SSTEP sets the step counter to the low 32 bits of xa and does not count itself. -/
  (∀ (s : State) (a : XReg), ∃ u, Retires s u s.me (s.me.pc + 4) ∧
    exec (.sstep a) s = .next (u.setMe { u.me with steps := (s.x a).extractLsb' 0 32, stepDue := false })) ∧
  /- R188: LATM sets LATMODE once everything that the context has issued is complete; with PHASE 1 it faults ILLEGAL.
     -/
  (∀ (s : State) (m : Bool),
    (s.me.phase = true → exec (.latm m) s = .next (s.fault (illegalOf (encode (.latm m))))) ∧
    (s.me.phase = false → s.me.lq = [] → s.me.cq = [] → s.me.sq = [] → s.here.noneParked s.myK = true →
      (∀ j ∈ s.jobs, s.mine s.cur s.myK j = true → j.orphan = true) →
      (∀ j ∈ s.conds, s.mineCond s.cur s.myK j = false) →
      ∃ t, exec (.latm m) s = .next t ∧ Retires s t { s.me with latmode := if m then 1 else 0 } (s.me.pc + 4))) ∧
  /- R182: YIELD is complete and fetch stops for up to 256 cycles. -/
  (∀ (s : State), ∃ u, Retires s u s.me (s.me.pc + 4) ∧
    exec .yield s = .next (u.setMe { u.me with
      hold := some (.yield, .yield (w64 ((s.die (dieOf s.cur)).cycles.toNat + 256)) false) })) ∧
  /- R353: EVPOP and EVPEEK read the head record into the even register and the next, zero where the queue is empty;
     EVPOP removes it and advances EVQH, and its PERF event counts. -/
  (∀ (s : State) (d : XReg), d.toNat % 2 = 0 →
    (∃ t, exec (.evpeek d) s = .next t ∧ Retires s t { s.me with x := t.me.x } (s.me.pc + 8) ∧
      ∀ r, t.x r = if r = d ∧ d ≠ 0 then (s.me.evq.headD 0).extractLsb' 0 64
        else if r = d + 1 then (s.me.evq.headD 0).extractLsb' 64 64 else s.x r) ∧
    (s.me.evq ≠ [] → ∃ t, exec (.evpop d) s = .next t ∧
      Retires (s.setHere { s.here with perf := vecMap (countPerf 0x18 1) s.here.perf }) t
        { s.me with x := t.me.x, evq := s.me.evq.drop 1, evqh := s.me.evqh + 1 } (s.me.pc + 8) ∧
      ∀ r, t.x r = if r = d ∧ d ≠ 0 then (s.me.evq.headD 0).extractLsb' 0 64
        else if r = d + 1 then (s.me.evq.headD 0).extractLsb' 64 64 else s.x r) ∧
    (s.me.evq = [] → ∃ t, exec (.evpop d) s = .next t ∧ Retires s t { s.me with x := t.me.x } (s.me.pc + 8) ∧
      ∀ r, t.x r = if r = d ∨ r = d + 1 then 0 else s.x r))

/-- R176, R180, R181: HALT at SUPERVISOR level, and EXIT there, stop fetch; EXIT of a task outside a phase ends it;
the instruction counts, and execution would go on after it. EXIT in an open phase commits the phase as PSWAP does and
then ends the task; while a store is parked it waits (R189, R237). HALT and ERET at TASK level fault PRIVILEGE with
word 0; ERET at SUPERVISOR level goes on at EPC (R179). -/
def Obligations.HaltExitReturn : Prop :=
  ∀ (s : State), ∃ u, Retires s u s.me (s.me.pc + 4) ∧
    (s.me.supervisor = true →
      exec .halt s = .next (u.setMe { u.me with mode := .asleep, hold := some (.halt, .yield (-1) false) }) ∧
      exec .exit s = .next (u.setMe { u.me with mode := .asleep, hold := some (.halt, .yield (-1) false) }) ∧
      GoesTo .eret s s.me.epc) ∧
    (s.me.supervisor = false →
      exec .halt s = .next (s.fault (privilege 0x0010_0060)) ∧
      exec .eret s = .next (s.fault (privilege 0x0040_0060)) ∧
      (s.me.phase = false → exec .exit s = .next (u.setMe { u.me with mode := .exiting, exited := true })) ∧
      (s.me.phase = true → s.here.noneParked s.myK = true →
        ∃ t, exec .pswap s = .next t ∧ exec .exit s = .next (t.setMe { t.me with mode := .exiting, exited := true })) ∧
      (s.me.phase = true → s.here.noneParked s.myK = false →
        exec .exit s = .next (s.setMe { s.me with hold := some (.exit, noDeadline) })))

/-- TRAP and BRK of a task halt it with a service record; exceptions of the control complex enter its handler. Model
choices: log 13, log 14, log 28, log 84. -/
def Obligations.ServiceAndHandlers : Prop :=
  /- R177, R178: TRAP n and BRK n of a task write TCAUSE 0x40 + n or 0x80 + n, TVAL 0 and EPC after the instruction,
     halt the task and leave one service record. That both count in INSNS is log 28; that the trap's own TCAUSE stands
     where the step counter expires with it is log 84. -/
  (∀ (s : State) (n : BitVec 6), AtTask s →
    (∃ t, exec (.trap n) s = .next t ∧ Serves s t (0x40 + n.zeroExtend 8)) ∧
    (∃ t, exec (.brk n) s = .next t ∧ Serves s t (0x80 + n.zeroExtend 8))) ∧
  /- R179: on a core of the control complex TRAP, BRK and every fault enter the core's handler at 0x1000, with the trap
     registers written and LEVEL still 1; a step-counter expiry is dropped at the entry (log 84). -/
  (∀ (s : State) (n : BitVec 6) (f : Trap), s.me.supervisor = true →
    (∃ t, exec (.trap n) s = .next t ∧
      Enters s t (s.me.passed (s.me.pc + 4)) (BitVec.zeroExtend 64 (0x40 + n.zeroExtend 8 : BitVec 8)) 0 (s.me.pc + 4) ∧ t.me.supervisor = true) ∧
    (∃ t, exec (.brk n) s = .next t ∧
      Enters s t (s.me.passed (s.me.pc + 4)) (BitVec.zeroExtend 64 (0x80 + n.zeroExtend 8 : BitVec 8)) 0 (s.me.pc + 4) ∧ t.me.supervisor = true) ∧
    (f.code ≠ 0x1B → Enters s (s.fault f) s.me (f.code.zeroExtend 64) f.detail s.me.pc ∧ (s.fault f).me.supervisor = true))

/-- R253 to R257: an atomic of an ordinary, aligned, LIVE address writes what its function makes of the old value and
xb, little-endian, and xd receives the old value, sign-extended; a CAS whose comparison fails stores nothing. The
context's escape bit, the phase's eligibility, the caches and the poison of the sector may change. Model choices:
log 36, log 72. -/
def Obligations.AtomicResults : Prop :=
  ∀ (s : State) (m : AmoArgs) (xc : XReg) (va n : Nat) (p : Phys), va = (s.x m.xa).toNat → n = (if m.wide then 8 else 4) →
    va % n = 0 → (m.xa = 62 → s.me.inWindow va = true) →
    Ordinary s va n true p → Ready s va n true →
    ((m.order = .rel ∨ m.order = .ar ∨ m.order = .sc) → s.released = true) →
    ∀ i (f : Nat → Nat → Nat), (i, f) ∈ [
        (Instr.atadd m, fun x y => (x + y) % 2 ^ (8 * n)), (.atswap m, fun _ y => y),
        (.atand m, fun x y => x &&& y), (.ator m, fun x y => x ||| y), (.atxor m, fun x y => x ^^^ y),
        (.atmin m, fun x y => if toSigned (8 * n) y < toSigned (8 * n) x then y else x),
        (.atmax m, fun x y => if toSigned (8 * n) x < toSigned (8 * n) y then y else x),
        (.atminu m, fun x y => min x y), (.atmaxu m, fun x y => max x y),
        (.cas m xc, fun x y => if x = (s.x xc).toNat % 2 ^ (8 * n) then y else x),
        (.atfmax m, fun x y => atFmax x y), (.atfadd m, fun x y => atFadd x y)] →
      ∃ t m' old, exec i s = .next t ∧ Touches s m' ∧ old = leNat (s.bytesAt p n) ∧
        (∀ r, t.x r = if r = m.xd ∧ m.xd ≠ 0 then BitVec.ofInt 64 (toSigned (8 * n) old) else s.x r) ∧
        (∀ far x, t.byteAt far x = if far = p.far ∧ p.addr ≤ x ∧ x < p.addr + n
          then BitVec.ofNat 8 (f old ((s.x m.xb).toNat % 2 ^ (8 * n)) / 2 ^ (8 * (x - p.addr))) else s.byteAt far x) ∧
        Retires { m' with mem := t.mem, hostMem := t.hostMem, poison := t.poison } t
          { s.me with x := t.me.x, escape := t.me.escape, phaseIneligible := t.me.phaseIneligible } (s.me.pc + 8)

/-- Engine-routed instructions enter their queue at the tail with the operands as they stand, or hold, or fault. Model
choices: log 23, log 24, log 28. -/
def Obligations.Routing : Prop :=
  /- R125, R148, R155, R336: an engine-routed instruction that finds room in its queue enters it at the tail,
     unstarted, with the values of the registers that it names, and the sequencer goes on; the queue's PERF event
     counts. A row operand needs rows, a guard that a routed compare has yet to write and a scalar register that a load
     has yet to return hold it, and a phase counts at most 32 stores. -/
  (∀ (s : State) (i : Instr) (q : QName), routesTo i = some q →
    (i.namesRow = true → 0 < s.here.h) →
    ((s.me.queue q).filter (fun e => !e.released && !e.isHeld)).length < 32 →
    s.me.comparing i.guardReg = false → s.me.awaits i (s.now s.cur) = false →
    (countsAtRouting s.me i = true → s.me.holdCount < 32) →
    ∃ t e y, exec i s = .next t ∧
      Retires (s.setHere { s.here with perf := vecMap (countPerf (match q with | .lq => 3 | .cq => 4 | .sq => 5) 1) s.here.perf })
        t y (s.me.pc + w64 i.size) ∧
      y = { s.me.setQueue q (s.me.queue q ++ [e]) with seq := s.me.seq + 1, holdCount := t.me.holdCount } ∧
      t.me.holdCount = s.me.holdCount + (if countsAtRouting s.me i then 1 else 0) ∧
      e.instr = i ∧ e.pc = s.me.pc ∧ e.seq = s.me.seq ∧ e.phase = .waiting ∧ e.popped = false ∧ takesAll s e i) ∧
  /- R140, R154, R211, R281, R336: what an engine-routed instruction does that may not be routed: it faults ILLEGAL
     where it names a row and H is 0; else it waits for room, for the compare or for the load; else it faults as the
     33rd counted store. -/
  (∀ (s : State) (i : Instr) (q : QName), routesTo i = some q →
    (i.namesRow = true → s.here.h = 0 → exec i s = .next (s.fault (illegalOf (encode i)))) ∧
    ((i.namesRow = true → 0 < s.here.h) →
      (32 ≤ ((s.me.queue q).filter (fun e => !e.released && !e.isHeld)).length ∨ s.me.comparing i.guardReg = true ∨
        s.me.awaits i (s.now s.cur) = true) →
      exec i s = .next (s.setMe { s.me with hold := some (i, .route) })) ∧
    ((i.namesRow = true → 0 < s.here.h) → ((s.me.queue q).filter (fun e => !e.released && !e.isHeld)).length < 32 →
      s.me.comparing i.guardReg = false → s.me.awaits i (s.now s.cur) = false → countsAtRouting s.me i = true →
      32 ≤ s.me.holdCount →
      exec i s = .next (s.fault (illegalOf (encode i)))))

/-- R288: the integer operations and VCPY, VSEL and VICMP on the integer types, signed and unsigned, lane by lane under
the guard, with row, broadcast and literal sources; SAT clamps with OVERFLOW. -/
def Obligations.VectorInteger : Prop :=
  ∀ (r : Reader) (bad : Trap) (h : VHdr) (w : Nat) (u : Bool) (d a : VOp) (b : VSrc) (x y : Nat → Nat),
    IntTy h.ty w u → (∀ j, x j = laneOf r u w j (.op a)) → (∀ j, y j = laneOf r u w j b) →
    /- VIADD, VISUB and VIMUL: the exact result wrapped, or clamped under SAT with OVERFLOW. -/
    (d.notBcast = true → ∀ (i : Instr) (op : Int → Int → Int),
      (i, op) ∈ [(Instr.viadd h d a b, fun m n => m + n), (.visub h d a b, fun m n => m - n), (.vimul h d a b, fun m n => m * n)] →
      LanesGive r d w (r.vector bad i) (fun j z fl => ∀ v, v = op (intVal u w (x j)) (intVal u w (y j)) →
        (z : Int) = (if h.sat then clampInt u w v else v) % 2 ^ w ∧
          fl = if h.sat = true ∧ clampInt u w v ≠ v then 4 else 0)) ∧
    /- The others raise no flag: high products, minimum and maximum, bitwise operations, shifts and rotates by B mod e,
       and the moves. -/
    (d.notBcast = true → ∀ (i : Instr) (f : Nat → Nat → Nat), (i, f) ∈ [
        (Instr.vimulh h d a b, fun m n => (intVal u w m * intVal u w n / 2 ^ w % 2 ^ w).toNat),
        (.vimin h d a b, fun m n => if intVal u w n < intVal u w m then n else m),
        (.vimax h d a b, fun m n => if intVal u w m < intVal u w n then n else m),
        (.vand h d a b, fun m n => m &&& n), (.vor h d a b, fun m n => m ||| n),
        (.vxor h d a b, fun m n => m ^^^ n), (.vandn h d a b, fun m n => m &&& (2 ^ w - 1 - n)),
        (.vsll h d a b, fun m n => m * 2 ^ (n % w) % 2 ^ w), (.vsrl h d a b, fun m n => m / 2 ^ (n % w)),
        (.vsra h d a b, fun m n => (toSigned w m / 2 ^ (n % w) % 2 ^ w).toNat),
        (.vrol h d a b, fun m n => (m * 2 ^ (n % w) + m / 2 ^ (w - n % w)) % 2 ^ w),
        (.vcpy h d b, fun _ n => n)] →
      LanesGive r d w (r.vector bad i) (fun j z fl => z = f (x j) (y j) ∧ fl = 0)) ∧
    /- The bit counts, the bit of a rank and the reversal. -/
    (d.notBcast = true → ∀ (i : Instr) (P : Nat → Nat → Nat → Prop), (i, P) ∈ [
        (Instr.vpopc h d a, fun m _ z => z = ((List.range w).filter (fun i => m.testBit i)).length),
        (.vclz h d a, fun m _ z => z ≤ w ∧ (∀ i < z, m.testBit (w - 1 - i) = false) ∧ (z < w → m.testBit (w - 1 - z) = true)),
        (.vctz h d a, fun m _ z => z ≤ w ∧ (∀ i < z, m.testBit i = false) ∧ (z < w → m.testBit z = true)),
        (.vfnsb h d a b, fun m n z => z ≤ w ∧
          (z < w → m.testBit z = true ∧ ((List.range z).filter (fun i => m.testBit i)).length = n) ∧
          (z = w → ((List.range w).filter (fun i => m.testBit i)).length ≤ n)),
        (.vbrev h d a, fun m _ z => z < 2 ^ w ∧ ∀ i < w, z.testBit (w - 1 - i) = m.testBit i)] →
      LanesGive r d w (r.vector bad i) (fun j z fl => P (x j) (y j) z ∧ fl = 0)) ∧
    /- R287: VSEL writes every element, and the guard selects. -/
    (d.notBcast = true → LaneWrite r d w (r.vector bad (.vsel h d a b)) (fun _ => true)
      (fun j => if activeAt r.t.guard w j then x j else y j)) ∧
    /- R286, R288: VICMP writes the truth of its condition into a predicate. -/
    (∀ (pd : PReg) (c : BitVec 3) (t : Int → Int → Prop), (c, t) ∈ [((0 : BitVec 3), fun m n => m = n), (1, fun m n => m ≠ n),
        (2, fun m n => m < n), (3, fun m n => m ≤ n), (4, fun m n => n < m), (5, fun m n => n ≤ m)] →
      TruthResult r pd w (r.vector bad (.vicmp h pd c a b)) (fun j => t (intVal u w (x j)) (intVal u w (y j))) (fun _ => 0))

/-- R283 to R287: the VALU group on F32, BF16, F16 and NF, lane by lane: the exact result made into the type once under the
instruction's rounding mode, SAT and FTZ, order and comparison by value, and what stops on an invalid register or
literal. What making into a type does is EncodeRounds. Model choices: log 16, log 17. -/
def Obligations.VectorFloat : Prop :=
  (∀ (r : Reader) (bad : Trap) (h : VHdr) (w : Nat) (f : FFmt) (d a : VOp) (b : VSrc) (x y : Nat → Nat),
    FloatTy r.t.nf h.ty w f → litOk r.t.nf h.ty b = true →
    (∀ j, x j = laneOf r false w j (.op a)) → (∀ j, y j = laneOf r false w j b) →
    /- R284: VADD, VSUB and VMUL. -/
    (d.notBcast = true → ∀ (i : Instr) (op : FVal → FVal → ExactV), (i, op) ∈ [
        (Instr.vadd h d a b, fun m n => exactAdd h.rm m n), (.vsub h d a b, fun m n => exactAdd h.rm m n.negate),
        (.vmul h d a b, fun m n => exactMul m n)] →
      LanesGive r d w (r.vector bad i) (fun j z fl =>
        ∀ v, v = op (f.readFtz r.t.ftz (x j)) (f.readFtz r.t.ftz (y j)) →
          z = (f.encode h.sat r.t.ftz h.rm v.v v.inv).code ∧ fl = (f.encode h.sat r.t.ftz h.rm v.v v.inv).flags)) ∧
    /- R124, R284: VFMA and VFMS, whose addend is C, or the old element of D; the product is not rounded. -/
    (d.notBcast = true → ∀ (o : VOp) (c : Option VOp) (i : Instr) (neg : Bool),
      (i, neg) ∈ [(Instr.vfma h d a o c, false), (.vfms h d a o c, true)] →
      LanesGive r d w (r.vector bad i) (fun j z fl =>
        ∀ k v, k = f.readFtz r.t.ftz (laneOf r false w j (.op (c.getD d))) →
          v = exactFma h.rm (f.readFtz r.t.ftz (x j)) (f.readFtz r.t.ftz (laneOf r false w j (.op o))) (if neg then k.negate else k) →
          z = (f.encode h.sat r.t.ftz h.rm v.v v.inv).code ∧ fl = (f.encode h.sat r.t.ftz h.rm v.v v.inv).flags)) ∧
    /- R285: VMIN and VMAX give the code of an operand that no other is past, or the default NaN. -/
    (d.notBcast = true → ∀ (i : Instr) (past : FVal → FVal → Prop),
      (i, past) ∈ [(Instr.vmin h d a b, fun m n => m.below n), (.vmax h d a b, fun m n => n.below m)] →
      LanesGive r d w (r.vector bad i) (fun j z fl =>
        ∀ m n, m = f.readCode r.t.ftz (x j) → n = f.readCode r.t.ftz (y j) →
          (m.1.isNan = true ∨ n.1.isNan = true → z = f.nanCode.getD 0 ∧
            fl = if m.1.isSignalling = true ∨ n.1.isSignalling = true then 1 else 0) ∧
          (m.1.isNan = false → n.1.isNan = false → fl = 0 ∧
            (z = m.2 ∧ ¬ past n.1 m.1 ∨ z = n.2 ∧ ¬ past m.1 n.1)))) ∧
    /- R285: VABS clears the sign and VNEG turns it; LOG's zero stays +0. -/
    (d.notBcast = true → ∀ (i : Instr) (g : Nat → Nat), (i, g) ∈ [(Instr.vabs h d a, fun c => c % 2 ^ f.mag),
        (.vneg h d a, fun c => if f.kind = .log ∧ c % 2 ^ f.mag = 0 then 0 else c ^^^ 2 ^ f.mag)] →
      LanesGive r d w (r.vector bad i) (fun j z fl => ∀ m, m = f.readCode r.t.ftz (x j) →
        (m.1.isNan = true → z = f.nanCode.getD 0 ∧ fl = if m.1.isSignalling = true then 1 else 0) ∧
        (m.1.isNan = false → z = g m.2 ∧ fl = 0))) ∧
    /- R287: VSEL and VCPY move bits unchanged. -/
    (d.notBcast = true → LaneWrite r d w (r.vector bad (.vsel h d a b)) (fun _ => true)
      (fun j => (if activeAt r.t.guard w j then x j else y j) % 2 ^ f.width) ∧
      LaneResult r d w (r.vector bad (.vcpy h d b)) (fun j => y j % 2 ^ f.width)) ∧
    /- R286: VCMP; INVALID comes of a signalling NaN alone. -/
    (∀ (pd : PReg) (c : BitVec 3) (t : FVal → FVal → Prop), (c, t) ∈ [
        ((0 : BitVec 3), fun m n => ¬ m.less n ∧ ¬ n.less m), (2, fun m n => m.less n), (3, fun m n => ¬ n.less m),
        (4, fun m n => n.less m), (5, fun m n => ¬ m.less n), (7, fun _ _ => True)] →
      TruthResult r pd w (r.vector bad (.vcmp h pd c a b))
        (fun j => (f.readFtz r.t.ftz (x j)).isNan = false ∧ (f.readFtz r.t.ftz (y j)).isNan = false ∧
          t (f.readFtz r.t.ftz (x j)) (f.readFtz r.t.ftz (y j)))
        (fun j => if (f.readFtz r.t.ftz (x j)).isSignalling = true ∨ (f.readFtz r.t.ftz (y j)).isSignalling = true then 1 else 0)) ∧
    (∀ (pd : PReg) (c : BitVec 3) (t : FVal → FVal → Prop), (c, t) ∈ [
        ((1 : BitVec 3), fun m n => m.less n ∨ n.less m), (6, fun _ _ => False)] →
      TruthResult r pd w (r.vector bad (.vcmp h pd c a b))
        (fun j => (f.readFtz r.t.ftz (x j)).isNan = true ∨ (f.readFtz r.t.ftz (y j)).isNan = true ∨
          t (f.readFtz r.t.ftz (x j)) (f.readFtz r.t.ftz (y j)))
        (fun j => if (f.readFtz r.t.ftz (x j)).isSignalling = true ∨ (f.readFtz r.t.ftz (y j)).isSignalling = true then 1 else 0))) ∧
  /- R52, R123, R282: an invalid NF register stops the instruction, naming it, and so does an NF literal wider than
     the format. -/
  (∀ (r : Reader) (bad : Trap) (h : VHdr) (d a : VOp) (b : VSrc) (n : BitVec 2) (i : Instr), h.ty = .nf n →
    i ∈ [Instr.vadd h d a b, .vsub h d a b, .vmul h d a b, .vmin h d a b, .vmax h d a b, .vsel h d a b] →
    (nfFmt (r.t.nf[n.toNat]'n.isLt) = none → r.vector bad i = .error (illegalAt (n.zeroExtend 64))) ∧
    (nfFmt (r.t.nf[n.toNat]'n.isLt) ≠ none → litOk r.t.nf h.ty b = false → r.vector bad i = .error bad))

/-- R290 to R294: VCVT, VPACK, VUNPACK, VSCALE and VDQNT place and convert their elements, and VQNT makes its codes and
scales; a part past the ratio of the widths stops VCVT. Model choices: log 97. -/
def Obligations.VectorConvert : Prop :=
  /- R290: VCVT's source and destination elements, and its active lanes, by the two widths and the part. -/
  (∀ (r : Reader) (bad : Trap) (h : VHdr) (d a : VOp) (p : BitVec 4) (sty : VTy) (ws wd n : Nat) (src : Nat → Nat) (act : Nat → Bool),
    d.notBcast = true → n = 8192 / max ws wd → p.toNat < max ws wd / min ws wd →
    (∀ k, src k = laneOf r false ws (if wd ≤ ws then k - p.toNat * n else p.toNat * n + k) (.op a)) →
    (∀ k, act k = if wd ≤ ws then decide (p.toNat * n ≤ k) && decide (k < (p.toNat + 1) * n) &&
        activeAt r.t.guard (max ws wd) (k - p.toNat * n)
      else activeAt r.t.guard (max ws wd) k) →
    /- R291: integers wrap or extend, or clamp under SAT with OVERFLOW where they do not widen. -/
    (∀ us ud, IntTy sty ws us → IntTy h.ty wd ud → ∀ v : Nat → Int, (∀ k, v k = intVal us ws (src k)) →
      LaneWrite r d wd (r.vector bad (.vcvt h d a p sty)) act
        (fun k => ((if h.sat = true ∧ wd ≤ ws then clampInt ud wd (v k) else v k) % 2 ^ wd).toNat) ∧
      LaneFlags wd (r.vector bad (.vcvt h d a p sty)) act
        (fun k => if h.sat = true ∧ wd ≤ ws ∧ clampInt ud wd (v k) ≠ v k then 4 else 0)) ∧
    /- An integer, or a float, is made into a float type once. -/
    (∀ us g, IntTy sty ws us → FloatTy r.t.nf h.ty wd g → ∀ c : Nat → Coded,
      (∀ k, c k = g.encode h.sat r.t.ftz h.rm
        (.fin (decide (intVal us ws (src k) < 0)) (intVal us ws (src k)).natAbs 0) false) →
      LaneWrite r d wd (r.vector bad (.vcvt h d a p sty)) act (fun k => (c k).code) ∧
      LaneFlags wd (r.vector bad (.vcvt h d a p sty)) act (fun k => (c k).flags)) ∧
    (∀ f g, FloatTy r.t.nf sty ws f → FloatTy r.t.nf h.ty wd g → ∀ c : Nat → Coded,
      (∀ k, c k = g.encode h.sat r.t.ftz h.rm (f.readFtz r.t.ftz (src k)) (f.readFtz r.t.ftz (src k)).isSignalling) →
      LaneWrite r d wd (r.vector bad (.vcvt h d a p sty)) act (fun k => (c k).code) ∧
      LaneFlags wd (r.vector bad (.vcvt h d a p sty)) act (fun k => (c k).flags)) ∧
    /- A float is rounded to an integer and clamped; a NaN gives 0; INVALID and INEXACT as R291 says. -/
    (∀ f ud, FloatTy r.t.nf sty ws f → IntTy h.ty wd ud → ∃ (z : Nat → Nat) (fl : Nat → BitVec 5),
      LaneWrite r d wd (r.vector bad (.vcvt h d a p sty)) act z ∧
      LaneFlags wd (r.vector bad (.vcvt h d a p sty)) act fl ∧
      ∀ k v, v = f.readFtz r.t.ftz (src k) →
        (v.isNan = true → z k = 0 ∧ fl k = 1) ∧
        (∀ s, v = .inf s → (z k : Int) = (if s then intMin ud wd else intMax ud wd) % 2 ^ wd ∧ fl k = 1) ∧
        (v.isFin = true → (z k : Int) = clampInt ud wd (roundInt h.rm v.rat) % 2 ^ wd ∧
          fl k = (if clampInt ud wd (roundInt h.rm v.rat) ≠ roundInt h.rm v.rat then 1 else 0) |||
            (if (roundInt h.rm v.rat : ℚ) ≠ v.rat then 16 else 0)))) ∧
  (∀ (r : Reader) (bad : Trap) (h : VHdr) (d a : VOp) (p : BitVec 4) (sty : VTy) (de se : Elt),
    eltOf r.t.nf h.ty = .ok de → eltOf r.t.nf sty = .ok se → max se.bits de.bits / min se.bits de.bits ≤ p.toNat →
    r.vector bad (.vcvt h d a p sty) = .error bad) ∧
  /- R294: VPACK narrows two rows into one, wrapped or clamped; VUNPACK widens half a row. -/
  (∀ (r : Reader) (bad : Trap) (h : VHdr) (d a b : VOp) (w : Nat) (u : Bool) (n : Nat), d.notBcast = true → IntTy h.ty w u → w ≤ 32 →
    n = 8192 / (2 * w) → ∀ (act : Nat → Bool) (v : Nat → Int), (∀ k, act k = activeAt r.t.guard (2 * w) (k % n)) →
    (∀ k, v k = intVal u (2 * w) (laneOf r false (2 * w) (k % n) (.op (if k < n then a else b)))) →
    LaneWrite r d w (r.vector bad (.vpack h d a b)) act (fun k => ((if h.sat then clampInt u w (v k) else v k) % 2 ^ w).toNat) ∧
    LaneFlags w (r.vector bad (.vpack h d a b)) act (fun k => if h.sat = true ∧ clampInt u w (v k) ≠ v k then 4 else 0)) ∧
  (∀ (r : Reader) (bad : Trap) (h : VHdr) (d a : VOp) (p : Bool) (w : Nat) (u : Bool), d.notBcast = true → IntTy h.ty w u → 16 ≤ w →
    LanesGive r d w (r.vector bad (.vunpack h d a p)) (fun j z fl => fl = 0 ∧
      (z : Int) = intVal u (w / 2) (laneOf r false (w / 2) (bit p * (8192 / w) + j) (.op a)) % 2 ^ w)) ∧
  /- R294: VSCALE multiplies by a power of two, and makes the result once. -/
  (∀ (r : Reader) (bad : Trap) (h : VHdr) (d a : VOp) (b : VSrc) (w : Nat) (f : FFmt), d.notBcast = true →
    FloatTy r.t.nf h.ty w f → litOk r.t.nf h.ty b = true →
    LanesGive r d w (r.vector bad (.vscale h d a b)) (fun j z fl =>
      ∀ v k c, v = f.readFtz r.t.ftz (laneOf r false w j (.op a)) → k = toSigned w (laneOf r false w j b) →
        c = f.encode h.sat r.t.ftz h.rm (v.scale k) v.isSignalling → z = c.code ∧ fl = c.flags)) ∧
  (∀ (v : FVal) (k : Int), (v.scale k).rat = v.rat * 2 ^ k) ∧
  /- R292: VQNT's control word, strips, scale bytes and codes. -/
  (∀ (r : Reader) (bad : Trap) (h : VHdr) (n : BitVec 8) (a : VOp) (xc : XReg) (c es w part : Nat) (f g : FFmt) (m : BitVec 2),
    h.ty = .nf m → FloatTy r.t.nf h.ty w g → n.toNat ≤ 254 → c = (r.t.x xc).toNat → c < 2 ^ 38 →
    (c / 2 ^ 36, es, f) ∈ [(0, 32, FFmt.f32), (1, 16, FFmt.bf16), (2, 16, FFmt.f16)] →
    part = c / 2 ^ 32 % 2 ^ 4 → part < es / w → ∀ (ns : Nat), ns = 8192 / es →
    ∃ (v : VOut) (p q : Dest) (codes scales : RowWrite) (b : Nat → Nat),
      r.vector bad (.vqnt h (.row n) a xc) = .ok v ∧ r.t.dest (.row n) = some p ∧ r.t.dest (.row (n + 1)) = some q ∧
      v.land.writes = [codes, scales] ∧ codes.dest = p ∧ scales.dest = q ∧ v.land.latch = some p ∧ v.land.pred = none ∧
      /- the scale byte of each strip by R63 -/
      (∀ s < ns / 128, ∀ (act : Nat → Prop) (val : Nat → FVal),
        (∀ i, act i ↔ 128 * s ≤ i ∧ i < 128 * (s + 1) ∧ activeAt r.t.guard es i = true) →
        (∀ i, val i = f.readFtz r.t.ftz (laneOf r false es i (.op a))) →
        (b s = 255 ↔ ∃ i, act i ∧ (val i).isNan = true) ∧
        (b s ≠ 255 → (∃ i, act i ∧ (val i).isInf = true) → b s = 254) ∧
        ((∀ i, act i → (val i).isFin = true) → (∀ i, act i → (val i).rat = 0) → b s = 127) ∧
        ((∀ i, act i → (val i).isFin = true) → ∀ i, act i → (val i).rat ≠ 0 → (∀ k, act k → |(val k).rat| ≤ |(val i).rat|) →
          ∀ l e : Int, (2 : ℚ) ^ l ≤ |(val i).rat| → |(val i).rat| < 2 ^ (l + 1) →
            (2 : ℚ) ^ e ≤ g.grid g.maxMag → g.grid g.maxMag < 2 ^ (e + 1) → (b s : Int) = max 0 (min 254 (l - e + 127))) ∧
        /- its byte, and the codes of its active elements -/
        ((∃ i, act i) → ∀ blk, blk = (c % 2 ^ 32 + s) % 960 →
          elemAt scales.mask 8 (blk / 60 * 64 + blk % 60) = 255 ∧ elemAt scales.val 8 (blk / 60 * 64 + blk % 60) = b s ∧
          /- and its line's check over what the line then holds -/
          elemAt scales.mask 32 (16 * (blk / 60) + 15) = 2 ^ 32 - 1 ∧
          ∀ old, r.op (.row (n + 1)) = .row old → elemAt scales.val 32 (16 * (blk / 60) + 15) =
            crc32c ((List.range 60).map (fun i =>
              ((old &&& ~~~scales.mask) ||| (scales.val &&& scales.mask)).extractLsb' (512 * (blk / 60) + 8 * i) 8))) ∧
        (∀ i, act i → elemAt codes.mask w (part * ns + i) = 2 ^ w - 1 ∧
          elemAt codes.val w (part * ns + i) = (g.flushScaled r.t.ftz ((b s : Int) - 127) (g.encode false false h.rm
            (if b s = 255 then .nan false else (val i).scale (127 - (b s : Int))) (val i).isSignalling)).code)) ∧
      (∀ k, (k + 1) * w ≤ 8192 → (∀ i, i < ns → activeAt r.t.guard es i = true → k ≠ part * ns + i) → elemAt codes.mask w k = 0)) ∧
  /- R293: VDQNT reads a code with its block's scale; a scale of 0xFF, or a line whose CRC does not match, gives NaN, and
     the first such block is noted. -/
  (∀ (r : Reader) (bad : Trap) (h : VHdr) (d : VOp) (n : BitVec 8) (xc : XReg) (c wd ws part : Nat) (f g : FFmt) (scale : Row),
    d.notBcast = true → FloatTy r.t.nf h.ty wd f → FloatTy r.t.nf (.nf (BitVec.ofNat 2 (c / 2 ^ 36))) ws g →
    f.std = true → c = (r.t.x xc).toNat → c < 2 ^ 38 → part = c / 2 ^ 32 % 2 ^ 4 → part < wd / ws → r.op (.row (n + 1)) = .row scale →
    ∀ (blk byte : Nat → Nat) (good : Nat → Prop), (∀ j, blk j = (c % 2 ^ 32 + j / 128) % 960) →
      (∀ j, byte j = elemAt scale 8 (blk j / 60 * 64 + blk j % 60)) →
      (∀ j, good j ↔ crc32c ((List.range 60).map (fun i => scale.extractLsb' (512 * (blk j / 60) + 8 * i) 8)) =
        elemAt scale 32 (16 * (blk j / 60) + 15)) →
    (LanesGive r d wd (r.vector bad (.vdqnt h d (.row n) xc)) (fun j z fl =>
      (good j → byte j ≠ 255 → ∀ v o, v = readScaled r.t.ftz
          (g.decode (laneOf r false ws (part * (8192 / wd) + j) (.op (.row n)) % 2 ^ g.width)) ((byte j : Int) - 127) →
        o = f.encode h.sat r.t.ftz h.rm v v.isSignalling → z = o.code ∧ fl = o.flags) ∧
      (¬ good j ∨ byte j = 255 → z = f.nanCode.getD 0 ∧ fl = 0))) ∧
    (∀ v, r.vector bad (.vdqnt h d (.row n) xc) = .ok v →
      ∀ j, (j + 1) * wd ≤ 8192 → activeAt r.t.guard wd j = true → ¬ good j →
        (∀ i < j, activeAt r.t.guard wd i = true → good i) → v.poison = some (blk j)))

/-- R77, R295: the reductions and the movements of elements. VRSUM is the fixed pairwise tree over the present lanes,
VRMAX and VRMIN give a present element that no other is past, and VSHUF, VBCAST, VROT and VSLIDE move bits unchanged.
Model choices: log 41. -/
def Obligations.VectorReduce : Prop :=
  /- VRSUM: each node is made into the type once; the root goes to element 0, and the rest is zero. -/
  (∀ (r : Reader) (bad : Trap) (h : VHdr) (d a : VOp) (w : Nat) (op : Nat × BitVec 5 → Nat × BitVec 5 → Nat × BitVec 5)
      (leaf : Nat → Option (Nat × BitVec 5)) (x : Nat → Nat), d.notBcast = true → w ≠ 4 → (∀ j, x j = laneOf r false w j (.op a)) →
    ((∃ u, IntTy h.ty w u ∧
        (∀ j, leaf j = if (j + 1) * w ≤ 8192 ∧ activeAt r.t.guard w j = true then some (x j, 0) else none) ∧
        (∀ m n, ∃ v, v = intVal u w m.1 + intVal u w n.1 ∧
          op m n = (((if h.sat then clampInt u w v else v) % 2 ^ w).toNat,
            m.2 ||| n.2 ||| (if h.sat = true ∧ clampInt u w v ≠ v then 4 else 0)))) ∨
      (∃ f, FloatTy r.t.nf h.ty w f ∧
        (∀ j, leaf j = if (j + 1) * w ≤ 8192 ∧ activeAt r.t.guard w j = true then
            some (if (f.readCode r.t.ftz (x j)).1.isNan then (f.nanCode.getD 0, if (f.readCode r.t.ftz (x j)).1.isSignalling then 1 else 0)
              else ((f.readCode r.t.ftz (x j)).2, 0))
          else none) ∧
        (∀ m n, ∃ v c, v = exactAdd h.rm (f.decode m.1) (f.decode n.1) ∧ c = f.encode h.sat r.t.ftz h.rm v.v v.inv ∧
          op m n = (c.code, m.2 ||| n.2 ||| c.flags)))) →
    LaneWrite r d w (r.vector bad (.vrsum h d a)) (fun _ => true)
      (fun j => if j = 0 then ((pairTree op leaf 10 0).getD (0, 0)).1 else 0) ∧
    ∀ v, r.vector bad (.vrsum h d a) = .ok v → v.land.flags = ((pairTree op leaf 10 0).getD (0, 0)).2) ∧
  /- An NF register of width 4 stops the reductions. -/
  (∀ (r : Reader) (bad : Trap) (h : VHdr) (d a : VOp) (f : FFmt), FloatTy r.t.nf h.ty 4 f →
    ∀ i ∈ [Instr.vrsum h d a, .vrmax h d a, .vrmin h d a], r.vector bad i = .error bad) ∧
  /- VRMAX and VRMIN. -/
  (∀ (r : Reader) (bad : Trap) (h : VHdr) (d a : VOp) (w : Nat) (i : Instr) (act : Nat → Prop), d.notBcast = true → w ≠ 4 →
    (∀ j, act j ↔ (j + 1) * w ≤ 8192 ∧ activeAt r.t.guard w j = true) →
    (∀ u past, IntTy h.ty w u → (i, past) ∈ [(Instr.vrmax h d a, fun (m n : Int) => n < m), (.vrmin h d a, fun m n => m < n)] →
      ∃ z, LaneWrite r d w (r.vector bad i) (fun _ => true) (fun j => if j = 0 then z else 0) ∧
        (∀ v, r.vector bad i = .ok v → v.land.flags = 0) ∧ ((∀ j, ¬ act j) → z = 0) ∧
        ((∃ j, act j) → (∃ j, act j ∧ z = laneOf r u w j (.op a)) ∧
          ∀ j, act j → ¬ past (intVal u w (laneOf r u w j (.op a))) (intVal u w z))) ∧
    (∀ f past, FloatTy r.t.nf h.ty w f → (i, past) ∈ [(Instr.vrmax h d a, fun (m n : FVal) => n.below m), (.vrmin h d a, fun m n => m.below n)] →
      ∃ z, LaneWrite r d w (r.vector bad i) (fun _ => true) (fun j => if j = 0 then z else 0) ∧
        ∀ (c : Nat → FVal × Nat), (∀ j, c j = f.readCode r.t.ftz (laneOf r false w j (.op a))) →
          ((∀ j, ¬ act j) → z = 0) ∧
          ((∃ j, act j ∧ (c j).1.isNan = true) → z = f.nanCode.getD 0) ∧
          ((∃ j, act j) → (∀ j, act j → (c j).1.isNan = false) →
            (∃ j, act j ∧ z = (c j).2) ∧ ∀ j, act j → ∃ k, act k ∧ z = (c k).2 ∧ ¬ past (c j).1 (c k).1) ∧
          ∀ v, r.vector bad i = .ok v → (v.land.flags = 0 ∨ v.land.flags = 1) ∧
            (v.land.flags = 1 ↔ ∃ j, act j ∧ (c j).1.isSignalling = true))) ∧
  /- The movements; `m` is the width of the bits that move. -/
  (∀ (r : Reader) (bad : Trap) (h : VHdr) (d a : VOp) (w m n : Nat), d.notBcast = true → n = 8192 / w →
    ((∃ u, IntTy h.ty w u ∧ m = w) ∨ ∃ f, FloatTy r.t.nf h.ty w f ∧ m = f.width) →
    (∀ b : VOp, LanesGive r d w (r.vector bad (.vshuf h d a b)) (fun j z fl => fl = 0 ∧
      z = laneOf r false w (laneOf r false w j (.op b) % n) (.op a) % 2 ^ m)) ∧
    (∀ x : XReg, LanesGive r d w (r.vector bad (.vbcast h d a x)) (fun _ z fl => fl = 0 ∧
      z = laneOf r false w ((r.t.x x).toNat % n) (.op a) % 2 ^ m)) ∧
    (∀ (b : VSrc) (k : Int), (∃ x, b = .op (.bcast x) ∧ k = (r.t.x x).toInt) ∨
        (∃ l : BitVec 32, b = .lit l ∧ k = l.toInt) →
      LanesGive r d w (r.vector bad (.vrot h d a b)) (fun j z fl => fl = 0 ∧
        z = laneOf r false w ((j + k) % n).toNat (.op a) % 2 ^ m) ∧
      LanesGive r d w (r.vector bad (.vslide h d a b)) (fun j z fl => fl = 0 ∧
        z = if 0 ≤ j + k ∧ j + k < n then laneOf r false w (j + k).toNat (.op a) % 2 ^ m else 0)))

/-- R78, R79, R296: the special functions' results for special inputs, VRCP and VSQRT rounded as the exact value is, and
the exact results of VEXP2 and VLOG2. The other results of VRSQ, VEXP2, VLOG2 and VTANH lie within R78's bounds by a free
choice. DESIGN CHOICE (log 39). -/
def Obligations.SpecialFunctions : Prop :=
  ∀ (r : Reader) (bad : Trap) (h : VHdr) (d a : VOp) (w : Nat) (f : FFmt), d.notBcast = true → FloatTy r.t.nf h.ty w f →
    /- every function writes its active lanes -/
    (∀ i ∈ [Instr.vrcp h d a, .vrsq h d a, .vsqrt h d a, .vexp2 h d a, .vlog2 h d a, .vtanh h d a],
      /- a NaN gives the default NaN, and INVALID where it signals or the format has none -/
      LanesGive r d w (r.vector bad i) (fun j z fl =>
        ∀ q, f.readFtz r.t.ftz (laneOf r false w j (.op a)) = .nan q →
          z = f.nanCode.getD 0 ∧ fl = if q = true ∨ f.nanCode = none then 1 else 0)) ∧
    /- the table of R79: the value that a special input gives, made into the type, and its flag -/
    (∀ (i : Instr) (x y : FVal) (e : BitVec 5), (i, x, y, e) ∈ [
        (Instr.vrcp h d a, FVal.inf false, FVal.fin false 0 0, 0), (.vrcp h d a, .inf true, .fin true 0 0, 0),
        (.vsqrt h d a, .inf true, .nan false, 1), (.vsqrt h d a, .inf false, .inf false, 0),
        (.vrsq h d a, .inf true, .nan false, 1), (.vrsq h d a, .inf false, .fin false 0 0, 0),
        (.vlog2 h d a, .inf true, .nan false, 1), (.vlog2 h d a, .inf false, .inf false, 0),
        (.vexp2 h d a, .inf true, .fin false 0 0, 0), (.vexp2 h d a, .inf false, .inf false, 0),
        (.vtanh h d a, .inf true, .fin true 1 0, 0), (.vtanh h d a, .inf false, .fin false 1 0, 0)] →
      LanesGive r d w (r.vector bad i) (fun j z fl => f.readFtz r.t.ftz (laneOf r false w j (.op a)) = x →
        ∀ c, c = f.encode h.sat r.t.ftz h.rm y false → z = c.code ∧ fl = c.flags ||| e)) ∧
    (∀ (i : Instr) (y : Bool → FVal) (e : BitVec 5), (i, y, e) ∈ [(Instr.vrcp h d a, fun s => FVal.inf s, 2),
        (.vsqrt h d a, fun s => .fin s 0 0, 0), (.vrsq h d a, fun s => .inf s, 2), (.vlog2 h d a, fun _ => .inf true, 2),
        (.vtanh h d a, fun s => .fin s 0 0, 0)] →
      LanesGive r d w (r.vector bad i) (fun j z fl => ∀ s k, f.readFtz r.t.ftz (laneOf r false w j (.op a)) = .fin s 0 k →
        ∀ c, c = f.encode h.sat r.t.ftz h.rm (y s) false → z = c.code ∧ fl = c.flags ||| e)) ∧
    (∀ i ∈ [Instr.vsqrt h d a, .vrsq h d a, .vlog2 h d a],
      LanesGive r d w (r.vector bad i) (fun j z fl => ∀ m e, f.readFtz r.t.ftz (laneOf r false w j (.op a)) = .fin true m e → m ≠ 0 →
        z = f.nanCode.getD 0 ∧ fl = 1)) ∧
    /- VRCP and VSQRT round the true value once -/
    LanesGive r d w (r.vector bad (.vrcp h d a)) (fun j z fl => ∀ s m e, f.readFtz r.t.ftz (laneOf r false w j (.op a)) = .fin s m e →
      m ≠ 0 → f.Makes h.sat r.t.ftz h.rm s (1 / ((m : ℝ) * 2 ^ e)) z fl) ∧
    LanesGive r d w (r.vector bad (.vsqrt h d a)) (fun j z fl => ∀ m e, f.readFtz r.t.ftz (laneOf r false w j (.op a)) = .fin false m e →
      m ≠ 0 → f.Makes h.sat r.t.ftz h.rm false (Real.sqrt ((m : ℝ) * 2 ^ e)) z fl) ∧
    /- VEXP2 of an integer is that power of two, and VLOG2 of a power of two its exponent -/
    LanesGive r d w (r.vector bad (.vexp2 h d a)) (fun j z fl => ∀ s m e, ∀ n : Int,
      f.readFtz r.t.ftz (laneOf r false w j (.op a)) = .fin s m e → (FVal.fin s m e).rat = n →
      f.Makes h.sat r.t.ftz h.rm false (2 ^ n) z fl) ∧
    LanesGive r d w (r.vector bad (.vlog2 h d a)) (fun j z fl => ∀ m e, ∀ n : Int,
      f.readFtz r.t.ftz (laneOf r false w j (.op a)) = .fin false m e → (FVal.fin false m e).rat = 2 ^ n →
      (n = 0 → z = 0 ∧ fl = 0) ∧ (n ≠ 0 → f.Makes h.sat r.t.ftz h.rm (decide (n < 0)) |(n : ℝ)| z fl))

/-- R75, R76, R297 to R299: the vector accumulator. VACCZ sets it; VACCADD and VACCMUL add the exact sum of each lane's
terms, marking a lane that takes an infinity or a NaN, and fault HEADROOM for the first lane past 64 bits; VNORM shifts
by the least multiple of 8; VACCRD places the values in a row. Model choices: log 41. -/
def Obligations.VectorAccumulator : Prop :=
  ∀ (r : Reader) (bad : Trap) (h : VHdr) (n : BitVec 8) (on : Nat → Bool) (v x : Nat → Int),
    (∀ j, on j = r.t.guard.getLsbD j) →
    (∀ j, v j = toSigned 64 (laneOf r false 32 j (.op (.row n)) + 2 ^ 32 * laneOf r false 32 j (.op (.row (n + 1))))) →
    (∀ j, x j = toSigned 32 (laneOf r false 32 j (.op (.row (n + 2))))) →
    /- VACCZ. -/
    (∀ a : XReg, AccResult r n (r.vector bad (.vaccz h n a)) on (fun _ => some (0, toSigned 32 (r.t.x a).toNat))) ∧
    /- VACCADD and VACCMUL: the terms of lane j are those of its 32 / w elements. -/
    (∀ (w : Nat) (a : VSrc) (o : VOp) (b : VSrc) (i : Instr) (term : Nat → FVal) (val : Nat → FVal),
      ((IntTy h.ty w false ∧ w ≤ 32 ∧ ∀ k, val k = .fin (decide (k % 2 ^ w ≥ 2 ^ (w - 1))) (intVal false w k).natAbs 0) ∨
        ∃ f, FloatTy r.t.nf h.ty w f ∧ ∀ k, val k = f.decode (k % 2 ^ f.width)) →
      (i = .vaccadd h n a ∧ litOk r.t.nf h.ty a = true ∧ (∀ k, term k = val (laneOf r false w k a)) ∨
        i = .vaccmul h n o b ∧ litOk r.t.nf h.ty b = true ∧
          ∀ k, term k = (exactMul (val (laneOf r false w k (.op o))) (val (laneOf r false w k b))).v) →
      ∀ (mine : Nat → List Nat) (marked : Nat → Prop) (q : Nat → ℚ) (past : Nat → Prop),
        (∀ j, mine j = (List.range (32 / w)).map (fun k => 32 / w * j + k)) →
        (∀ j, marked j ↔ x j = -(2 ^ 31) ∨ ∃ k ∈ mine j, (term k).isFin = false) →
        (∀ j, q j = ((mine j).map (fun k => (term k).rat)).sum / 2 ^ x j) →
        (∀ j, past j ↔ j < 256 ∧ on j = true ∧ ¬ marked j ∧ ¬ (-(2 ^ 63) ≤ v j + ⌊q j⌋ ∧ v j + ⌊q j⌋ < 2 ^ 63)) →
        (∀ j, past j → (∀ k < j, ¬ past k) → r.vector bad i = .error (headroom j)) ∧
        ((∀ j, ¬ past j) → ∀ new : Nat → Option (Int × Int),
          (∀ j, marked j → new j = none) → (∀ j, ¬ marked j → new j = some (v j + ⌊q j⌋, x j)) →
          AccResult r n (r.vector bad i) on new ∧
          ∀ y, r.vector bad i = .ok y → (y.land.flags.getLsbD 4 = true ↔
            ∃ j < 256, on j = true ∧ ¬ marked j ∧ (⌊q j⌋ : ℚ) ≠ q j))) ∧
    /- VNORM. -/
    (∀ s : Nat → Nat, (∀ j, 8 ∣ s j ∧ |v j / 2 ^ s j| < 2 ^ 47 ∧ ∀ m, 8 ∣ m → |v j / 2 ^ m| < 2 ^ 47 → s j ≤ m) →
      AccResult r n (r.vector bad (.vnorm h n)) (fun j => on j && decide (x j ≠ -(2 ^ 31)))
        (fun j => if 2 ^ 31 ≤ x j + s j then none else some (v j / 2 ^ s j, x j + s j)) ∧
      ∀ y, r.vector bad (.vnorm h n) = .ok y → (y.land.flags = 16 ∨ y.land.flags = 0) ∧
        (y.land.flags = 16 ↔ ∃ j < 256, on j = true ∧ x j ≠ -(2 ^ 31) ∧ ¬ (2 ^ s j : Int) ∣ v j)) ∧
    /- VACCRD: the accumulator stays; the values go to elements p × 256 on. -/
    (∀ (d : VOp) (p : BitVec 4) (w : Nat), d.notBcast = true →
      (∀ f, FloatTy r.t.nf h.ty w f → 32 / w ≤ p.toNat → r.vector bad (.vaccrd h d n p) = .error bad) ∧
      (p.toNat < 32 / w → ∀ act : Nat → Bool,
        (∀ k, act k = (decide (p.toNat * 256 ≤ k) && decide (k < (p.toNat + 1) * 256) && on (k - p.toNat * 256))) →
        (∀ f, FloatTy r.t.nf h.ty w f → ∀ c : Nat → Coded,
          (∀ k, c k = f.encode h.sat r.t.ftz h.rm (if x (k - p.toNat * 256) = -(2 ^ 31) then .nan false
            else .fin (decide (v (k - p.toNat * 256) < 0)) (v (k - p.toNat * 256)).natAbs (x (k - p.toNat * 256))) false) →
          LaneWrite r d w (r.vector bad (.vaccrd h d n p)) act (fun k => (c k).code) ∧
          LaneFlags w (r.vector bad (.vaccrd h d n p)) act (fun k => (c k).flags)) ∧
        (IntTy h.ty w false → w ≤ 32 → ∀ q : Nat → ℚ, (∀ k, q k = v (k - p.toNat * 256) * 2 ^ x (k - p.toNat * 256)) →
          LaneWrite r d w (r.vector bad (.vaccrd h d n p)) act (fun k => if x (k - p.toNat * 256) = -(2 ^ 31) then 0
            else ((if h.sat then clampInt false w ⌊q k⌋ else ⌊q k⌋) % 2 ^ w).toNat) ∧
          LaneFlags w (r.vector bad (.vaccrd h d n p)) act (fun k => if x (k - p.toNat * 256) = -(2 ^ 31) then 1
            else (if h.sat = true ∧ clampInt false w ⌊q k⌋ ≠ ⌊q k⌋ then 4 else 0) ||| (if (⌊q k⌋ : ℚ) ≠ q k then 16 else 0)))))

/-- R259 to R266: what the vector loads land and the stores write, through a handle without a record: the elements of
the active lanes, at the indices of each form, in PAD or in memory; a prefetch lands nothing. Model choices: log 21,
log 96. -/
def Obligations.VectorMemory : Prop :=
  (∀ (s : State) (c : AnyCore) (k : Bool) (q : QName) (e : Entry) (m : VMem) (o : VOp) (store : Bool) (h : HandleWord) (w n : Nat)
      (act : Nat → Bool) (k0 : Int) (idx : Nat → Int) (place : Nat → Nat) (r : Reader),
    Head s c.toNat k q e → r = s.startReader c.toNat k q e →
    /- the handle and the type -/
    h = e.taken.h m.h → handleOk h = true → hRec h = 0 →
    (∃ u, IntTy m.ty w u) ∨ (∃ f, FloatTy e.taken.nf m.ty w f ∧ f.width ≠ 6) → n = max 1 (w / 8) →
    /- the active lanes, their indices and their places in nibbles, within the bound and aligned -/
    (∀ j, act j = (activeAt e.taken.guard w j && decide ((j + 1) * w ≤ 8192))) →
    k0 = (hCursor h + (match m.off with | .reg x => e.taken.x x | .imm i => i.signExtend 64)).toInt →
    VmemForm r e.instr m o store act k0 idx →
    (∀ j, act j = true → (place j : Int) = 2 * hBase h + idx j * (w / 4 : Nat) ∧
      hBase h ≤ place j / 2 ∧ place j / 2 + n ≤ hBase h + hBound h ∧ (w = 4 ∨ place j / 2 % n = 0)) →
    (hSpace h = 1 → ∀ j, act j = true → place j / 2 + n ≤ 65536 * (s.core c.toNat).rooms.pad ∧
      ∀ x ∈ (s.core c.toNat).stash, place j / 2 + n ≤ x.seg * 4096 ∨ (x.seg + 1) * 4096 ≤ place j / 2) →
    /- R264: a load from PAD. -/
    (q = .lq → store = false → hSpace h = 1 → ∀ p, e.taken.dest o = some p → ∃ t wr,
      exec (.queueEntryStart c k q) s = .next t ∧ Began s t c.toNat k q e (.arrived
        { writes := [wr], latch := if p = .latch then none else some p, pred := none, flags := 0 }) ∧ wr.dest = p ∧
      Loads wr w act (fun j => codeAt w (place j) ((List.range n).map (fun i => s.padByte c.toNat (place j / 2 + i))))) ∧
    /- R264: a load from memory, of the running context, in the ordinary case. -/
    (q = .lq → store = false → hSpace h = 0 → c.toNat = s.cur → k = s.myK → s.me.holdList = [] →
      ∀ (p : Dest) (phys : Nat → Phys), e.taken.dest o = some p → (∀ j, act j = true → Ordinary s (place j / 2) n false (phys j)) →
      ∃ u t wr, Touches s u ∧ exec (.queueEntryStart c k q) s = .next t ∧ Began u t c.toNat k q e (.arrived
        { writes := [wr], latch := if p = .latch then none else some p, pred := none, flags := 0 }) ∧ wr.dest = p ∧
      Loads wr w act (fun j => codeAt w (place j) (s.bytesAt (phys j) n))) ∧
    /- R265: a store reads its source, and its elements wait in ascending lane order. -/
    (q = .sq → store = true → ∃ t, exec (.queueEntryStart c k q) s = .next t ∧
      Began s t c.toNat k q e (.stores (((List.range (8192 / w)).filter act).map (fun j =>
        match decide (w = 4), decide (hSpace h = 1) with
        | true, true => .padNib (place j / 2) (decide (place j % 2 = 1)) (BitVec.ofNat 4 (laneOf r false w j (.op o)))
        | true, false => .memNib (place j / 2) (decide (place j % 2 = 1)) (BitVec.ofNat 4 (laneOf r false w j (.op o)))
        | false, true => .pad (place j / 2) (leBytes n (laneOf r false w j (.op o)))
        | false, false => .mem (place j / 2) (leBytes n (laneOf r false w j (.op o))))))) ) ∧
  /- R265, R268: the waiting elements of a store to PAD are written in order, and it completes. -/
  (∀ (s : State) (c : AnyCore) (k : Bool) (n : Nat) (e : Entry) (l : List ElemStore),
    (s.ctx c.toNat k).sq[n]? = some e → e.phase = .stores l → (∀ x ∈ l, x.globalOf = none) → s.poison = [] →
    (s.core c.toNat).replay = [] → (∀ h ∈ (s.ctx c.toNat k).holdList, h.seq ≠ e.seq) → (s.ctx c.toNat k).sqOrdered e l = true →
    ∃ t, exec (.queueEntryComplete c k .sq n) s = .next t ∧ t.ctx c.toNat k = (s.ctx c.toNat k).finish .sq e ∧
      t.ctx c.toNat (!k) = s.ctx c.toNat (!k) ∧ (∀ m, m ≠ c.toNat → t.core m = s.core m) ∧ SameBytes s t ∧
      ∀ a, t.padByte c.toNat a = padAfter (s.padByte c.toNat) l a) ∧
  /- R264: VPREF lands nothing, and faults nothing. -/
  (∀ (s : State) (c : AnyCore) (k : Bool) (e : Entry) (m : VMem), Head s c.toNat k .lq e → e.instr = .vpref m →
    ∃ t, exec (.queueEntryStart c k .lq) s = .next t ∧ t.ctx c.toNat k = (s.ctx c.toNat k).setEntry .lq
      { e with phase := .arrived { writes := [], latch := none, pred := none, flags := 0 }, moved := s.time })

/-- R68 to R74, R302 to R315: TLEASE, TREL and TZERO as CQ starts them, TMMA of integers, one step of K and a
renormalisation of a plane, the values that TDRAIN gives a cell, and the tiles that TLDT and TSTT move between PAD and
the tile registers. Model choices: log 15, log 42, log 86. -/
def Obligations.ArrayCommands : Prop :=
  (∀ (s : State) (c : AnyCore) (k : Bool) (e : Entry) (q : Quad) (me : BitVec 2), Head s c.toNat k .cq e →
    q = s.quad (quadOf c.toNat) → me = inQuad c.toNat →
    /- R308: TLEASE reserves the plane that it names. -/
    (∀ tok res, e.instr = .tlease tok res → res.toNat ≤ 2 → ∃ t, exec (.queueEntryStart c k .cq) s = .next t ∧
      Began s t c.toNat k .cq e (.started Landing.empty) ∧ (∀ n, n ≠ quadOf c.toNat → t.quad n = s.quad n) ∧
      t.quad (quadOf c.toNat) = if q.win2.isSome then q else if res = 1 then { q with res0 := some me }
        else if res = 2 then { q with res1 := some me } else q) ∧
    /- R308: TREL ends its core's lease, and with U its reservations; of another core's it does nothing. -/
    (∀ tok u, e.instr = .trel tok u → q.arbNext = none → ∃ t, exec (.queueEntryStart c k .cq) s = .next t ∧
      Began s t c.toNat k .cq e (.started Landing.empty) ∧ (∀ n, n ≠ quadOf c.toNat → t.quad n = s.quad n) ∧
      t.quad (quadOf c.toNat) = if q.lease.any (fun l => l.core == me) then
          { q with lease := none, last := some me, res0 := if u ∧ q.res0 = some me then none else q.res0,
                   res1 := if u ∧ q.res1 = some me then none else q.res1 }
        else q) ∧
    /- R302, R313: TZERO makes every cell of its plane zero, with the exponent given and no kind; the command counts
       against the lease (R305). -/
    (∀ tok p x, e.instr = .tzero tok p x → ∃ t, exec (.queueEntryStart c k .cq) s = .next t ∧
      Began s t c.toNat k .cq e (.started Landing.empty) ∧ (∀ n, n ≠ quadOf c.toNat → t.quad n = s.quad n) ∧
      (∀ i : Nat, (((t.quad (quadOf c.toNat)).plane p).load (quadOf c.toNat))[i]?.getD PCell.zero = PCell.zero) ∧
      ((t.quad (quadOf c.toNat)).plane p).exp (quadOf c.toNat) = x.toInt ∧ ((t.quad (quadOf c.toNat)).plane p).fixed = false ∧
      ((t.quad (quadOf c.toNat)).plane p).void = false ∧ (t.quad (quadOf c.toNat)).plane (!p) = q.plane (!p) ∧
      (t.quad (quadOf c.toNat)).lease = q.lease.map (fun l => { l with commands := l.commands + 1 })) ∧
    /- R69, R71, R314, R315: TMMA of two valid integer tiles with all scales 127 adds to cell (i, j) the sum over K of the
       products, while no sum can reach the limit of renormalisation. -/
    (∀ tok p (ka kb : TReg) enc (ta tb : Nat) (m n kk : Nat) (sa sb : Bool) (core : Core) (a b : Nat → Nat → Int), e.instr = .tmma tok p ka kb enc →
      core = s.core c.toNat → 1 ≤ m → m ≤ 128 → 1 ≤ n → n ≤ 128 → 1 ≤ kk → kk ≤ 128 →
      m * kk ≤ 4096 * core.rooms.matrix → n * kk ≤ 4096 * core.rooms.matrix →
      (e.taken.tcfg[ka.toNat]'(by have := ka.isLt; omega)).toNat = ta + 256 * m + 65536 * kk → (ta, sa) ∈ [(1, false), (2, true)] →
      (e.taken.tcfg[kb.toNat]'(by have := kb.isLt; omega)).toNat = tb + 256 * n + 65536 * kk → (tb, sb) ∈ [(1, false), (2, true)] →
      (∀ x ∈ [ka, kb], (core.tileSide x).valid = true ∧ (core.tileSide x).scales = Vector.replicate 128 0x7F ∧ core.tilePending x = none) →
      (∀ i z, a i z = intVal sa 8 (core.tiles.get (ka.toNat * 4096 * core.rooms.matrix + i * kk + z)).toNat) →
      (∀ j z, b j z = intVal sb 8 (core.tiles.get (kb.toNat * 4096 * core.rooms.matrix + j * kk + z)).toNat) →
      (q.plane p).seed = none → (q.plane p).e = 0 → ((q.plane p).fixed = true → (q.plane p).int = true) →
      ∀ old : Nat → PCell, (∀ x, old x = (((q.plane p).load (quadOf c.toNat))[x]?.getD PCell.zero)) →
      (∀ x, (old x).v.toInt.natAbs ≤ 2 ^ 53) →
      ∃ t, exec (.queueEntryStart c k .cq) s = .next t ∧ Began s t c.toNat k .cq e (.started Landing.empty) ∧
        (∀ x < 16384, ((((t.quad (quadOf c.toNat)).plane p).load (quadOf c.toNat))[x]?.getD PCell.zero) =
          if x / 128 < m ∧ x % 128 < n then
            { old x with v := BitVec.ofInt 56 ((old x).v.toInt + ((List.range kk).map (fun z => a (x / 128) z * b (x % 128) z)).sum) }
          else old x) ∧
        ((t.quad (quadOf c.toNat)).plane p).exp (quadOf c.toNat) = 0 ∧ ((t.quad (quadOf c.toNat)).plane p).int = true ∧
        ((t.quad (quadOf c.toNat)).plane p).fixed = true ∧
        ((t.quad (quadOf c.toNat)).plane p).void = ((q.plane p).void || (core.tileSide ka).void || (core.tileSide kb).void) ∧
        (t.quad (quadOf c.toNat)).plane (!p) = q.plane (!p))) ∧
  /- R70, R71: a step of K, where no sum reaches 2^54: a finite product adds its floor at the plane's exponent, and counts
     one loss where bits are lost, up to 65,535; an infinity or a NaN changes the special state alone. -/
  (∀ (w : Working) (ps : List (Nat × FVal)) (x : Nat) (c : PCell) (v : FVal), (ps.map (fun p => p.1)).Nodup →
    (∀ c ∈ w.cells, c.v.toInt.natAbs < 2 ^ 54) →
    (∀ p ∈ ps, p.2.isFin = true → abs (((w.cells[p.1]?.getD PCell.zero).v.toInt : ℚ) + p.2.rat / 2 ^ w.e) < 2 ^ 54) →
    w.cells[x]? = some c → (x, v) ∈ ps →
    (w.step ps).e = w.e ∧ (w.step ps).norms = w.norms ∧ ∃ d, (w.step ps).cells[x]? = some d ∧
      (v.isFin = true → d.sp = c.sp ∧ d.v.toInt = c.v.toInt + ⌊v.rat / 2 ^ w.e⌋ ∧
        d.l.toNat = min 65535 (c.l.toNat + if (⌊v.rat / 2 ^ w.e⌋ : ℚ) = v.rat / 2 ^ w.e then 0 else 1)) ∧
      (v.isFin = false → d.v = c.v ∧ d.l = c.l ∧ d.sp = match v with
        | .inf s => if c.sp = .none ∨ c.sp = (if s then .negInf else .posInf) then (if s then .negInf else .posInf) else .nan
        | _ => .nan)) ∧
  /- R72: a renormalisation takes the floor of V / 256 and adds what is lost to the loss, rounded up. -/
  (∀ c : PCell, c.renorm.sp = c.sp ∧ c.renorm.v.toInt = c.v.toInt / 256 ∧
    (c.renorm.l.toNat : Int) = min 65535 (⌈((c.l.toNat : ℚ) + (c.v.toInt % 256 : Int)) / 256⌉)) ∧
  /- R74, R317: what TDRAIN gives a cell of no special state: made into a float type once, or the floor of its value,
     wrapped or clamped; the captures bound the error and the losses from above. -/
  (∀ (elt : Elt) (sat ftz : Bool) (rm : Rm) (c : PCell) (e : Int) (x : ℚ), c.sp = .none → x = c.v.toInt * 2 ^ e →
    (∀ f, elt.fp = some f → ∀ r, r = f.encode sat ftz rm (.fin (decide (c.v.toInt < 0)) c.v.toInt.natAbs (if c.v = 0 then 0 else e)) false →
      drainPlain elt sat ftz rm c e = (r.code, r.flags)) ∧
    (elt.fp = none → (drainPlain elt sat ftz rm c e).1 =
      ((if sat then clampInt elt.uns elt.bits ⌊x⌋ else ⌊x⌋) % 2 ^ elt.bits).toNat) ∧
    (∀ f code, elt.fp = some f → (f.decode code).isFin = true → (drainCapture elt code c e).isFin = true →
      |x - (f.decode code).rat| + c.l.toNat * 2 ^ e ≤ (drainCapture elt code c e).rat ∧ c.l.toNat ≠ 65535) ∧
    ((drainUp c e).isFin = true → x + c.l.toNat * 2 ^ e ≤ (drainUp c e).rat ∧ c.l.toNat ≠ 65535)) ∧
  (∀ (elt : Elt) (code : Nat) (c : PCell) (e : Int), c.sp ≠ .none →
    drainCapture elt code c e = .inf false ∧ drainUp c e = .inf false) ∧
  /- R309 to R311: TLDT of a plain tensor in PAD, of the tile's own type, takes its elements with every scale 127; TSTT
     stores a tile's elements so. The tile lies within the tensor. -/
  (∀ (s : State) (c : AnyCore) (k : Bool) (e : Entry) (tk : TReg) (h : HReg) (hd : HandleWord) (xo : XReg) (r : Rec)
      (ty m n w : Nat) (nf : BitVec 2) (core : Core) (k0 : Nat) (at_ : Nat → Nat),
    core = s.core c.toNat → hd = e.taken.h h → hSpace hd = 1 → Cached s c.toNat e.taken.nf hd r →
    r.kind = 1 → r.geometry = 0 → r.mapVa = 0 → r.chunkVa = 0 → r.dtype = ty → (ty = 0x18 → r.nf = nf.toNat) →
    (ty, w) ∈ [(1, 8), (2, 8), (0x11, 16), (0x12, 16)] ∨ (ty = 0x18 ∧ w = nfWidth (e.taken.nf[nf.toNat]'nf.isLt) ∧
      (nfFmt (e.taken.nf[nf.toNat]'nf.isLt)).isSome = true) →
    (e.taken.tcfg[tk.toNat]'(by have := tk.isLt; omega)).toNat = ty + 256 * m + 65536 * n →
    1 ≤ m → m ≤ 128 → 1 ≤ n → n ≤ 128 → (m * n * w + 7) / 8 ≤ 4096 * core.rooms.matrix →
    (k0 : Int) = (hCursor hd + e.taken.x xo).toInt → k0 % r.ext 0 + n ≤ r.ext 0 → k0 + (m - 1) * r.ext 0 + n ≤ r.count →
    /- the places of the tile's elements, in nibbles, by R262 -/
    (∀ i, at_ i = ({ h := hd, record := some r, elt := Elt.int w false } : Tensor).coordPlace r (k0 + i / n * r.ext 0 + i % n)) →
    (∀ i < m * n, hBase hd ≤ at_ i / 2 ∧ at_ i / 2 + max 1 (w / 8) ≤ hBase hd + hBound hd ∧ (w = 4 ∨ at_ i / 2 % (w / 8) = 0) ∧
      at_ i / 2 + max 1 (w / 8) ≤ 65536 * core.rooms.pad) → core.stash = [] →
    (∀ tok sat rm, e.instr = .tldt tok nf sat rm tk h xo → Head s c.toNat k .lq e →
      ∃ t bytes side, exec (.queueEntryStart c k .lq) s = .next t ∧
        Began s t c.toNat k .lq e (.arrived { Landing.empty with tile := some (tk.toNat, bytes, side) }) ∧
        side.valid = true ∧ side.nf = nf ∧ (∀ i (hi : i < 128), side.scales[i] = 0x7F) ∧
        side.void = (hEncl hd && decide (r.status % 2 = 1)) ∧ bytes.length = (m * n * w + 7) / 8 ∧
        ∀ i < m * n, codeAt w i (((bytes.drop (i * w / 8)).take (max 1 (w / 8)))) =
          codeAt w (at_ i) ((List.range (max 1 (w / 8))).map (fun b => s.padByte c.toNat (at_ i / 2 + b)))) ∧
    (∀ tok, e.instr = .tstt tok tk h xo → Head s c.toNat k .sq e → (core.tileSide tk).valid = true → core.tilePending tk = none →
      (ty = 0x18 → (core.tileSide tk).nf = nf) →
      ∃ t, exec (.queueEntryStart c k .sq) s = .next t ∧ Began s t c.toNat k .sq e (.stores ((List.range (m * n)).map (fun i =>
        elemStore 1 (w / 4) (at_ i) (codeAt w i ((List.range (max 1 (w / 8))).map (fun b =>
          core.tiles.get (tk.toNat * 4096 * core.rooms.matrix + i * w / 8 + b)))))))))

/-- R85 to R98, R324 to R333: the arithmetic of the enclosure instructions: bounds hold every value of an affine tensor and
are the tightest F32 ones, a relaxed element's remainder covers what rounding loses, alignment keeps each coefficient
within its error, condensation folds the least significant entries into the remainder, minting takes a slot and a run of
ids, ACHK tells what fails, and ATBL loads its rules or none. Model choices: log 41, log 43, log 77, log 99. -/
def Obligations.EnclosureCommands : Prop :=
  /- R90, R325: the bounds of element j, where its parts are finite: c − S rounded down and c + S rounded up, S the sum of
     the magnitudes; a VOID tensor gives NaNs, and an infinite sum infinite bounds. -/
  (∀ (a : Aff) (v : AffVals) (j : Nat) (c : FVal) (rs : List FVal), v.centre.length = a.n → v.rem.length = a.n → j < a.n →
    c = a.fmt.decode (v.centre[j]?.getD 0) →
    rs = (v.rem[j]?.getD zeroV) :: v.gens.map (fun g => a.fmt.decode (g.g[j]?.getD 0)) →
    ((a.r.status % 2 = 1 ∨ v.replaced = true) → (a.bounds v)[j]? = some (0x7FC00000, 0x7FC00000)) ∧
    (a.r.status % 2 ≠ 1 → v.replaced = false →
      ((∃ x ∈ rs, x.isNan = true) → (a.bounds v)[j]? = some (0x7FC00000, 0x7FC00000)) ∧
      ((∀ x ∈ rs, x.isNan = false) → (v.rem[j]?.getD zeroV).sign = false →
        ((∃ x ∈ rs, x.isInf = true) → (a.bounds v)[j]? = some (0xFF800000, 0x7F800000)) ∧
        ((∀ x ∈ rs, x.isFin = true) → c.isFin = true → ∃ lo hi l h, (a.bounds v)[j]? = some (lo, hi) ∧
          l.isFin = true ∧ l.rat = c.rat - (rs.map (fun x => |x.rat|)).sum ∧ lo = encF FFmt.f32 .rd l ∧
          h.isFin = true ∧ h.rat = c.rat + (rs.map (fun x => |x.rat|)).sum ∧ hi = encF FFmt.f32 .ru h)))) ∧
  /- R92, R93, R326: a relaxed element. Bounds that are NaN give VOID; one without a line gives an infinite remainder;
     else a finite remainder covers a × r and the rounding of the centre and of every coefficient. -/
  (∀ (f : FFmt) (rule : Nat → List Byte) (fn : Nat) (l u c r β : FVal) (gs : List FVal) (x : RelaxElem),
    x = relaxElem f rule fn l u c gs r → β = FFmt.f32.decode (fieldAt (rule 0) 4 4) → x.gens.length = gs.length ∧
    ((l.isNan = true ∨ u.isNan = true) → x.void = true ∧ x.centre = 0 ∧ x.rem = .inf false ∧ (∀ g ∈ x.gens, g = 0) ∧ x.e.rat = 0) ∧
    (l.isNan = false → u.isNan = false → x.void = false) ∧
    (∀ (ln : Option Line) (k : Nat), l.isNan = false → u.isNan = false → β.isFin = true →
      /- the case by β, and its line -/
      (¬ β.less u → k = 0) → (β.less u → ¬ l.less β → k = 1) → (β.less u → l.less β → k = 2) →
      relaxLine fn (fieldAt (rule k) 2 1) (FFmt.f32.decode (fieldAt (rule k) 8 4)) β l u = ln →
      (ln = none → x.centre = 0 ∧ x.rem = .inf false ∧ ∀ g ∈ x.gens, g = 0) ∧
      (∀ y, ln = some y → x.e = y.e ∧ (x.rem.isFin = true → y.a.isFin = true → y.b.isFin = true → c.isFin = true → r.isFin = true →
        (∀ g ∈ gs, g.isFin = true) →
        (f.decode x.centre).isFin = true ∧ (∀ g ∈ x.gens, (f.decode g).isFin = true) ∧
        |y.a.rat * c.rat + y.b.rat - (f.decode x.centre).rat| +
          ((gs.zip x.gens).map (fun p => |y.a.rat * p.1.rat - (f.decode p.2).rat|)).sum + |y.a.rat| * r.rat ≤ x.rem.rat)))) ∧
  /- R96, R331: an aligned entry holds X + σ Y within its errors, and exactly what one tensor alone has. -/
  (∀ (f : FFmt) (sg : Sigma) (id : Nat) (d : Bool) (gx gy : List Nat) (y : ℚ), gx.length = gy.length →
    (sg, y) ∈ [(Sigma.add, (1 : ℚ)), (.sub, -1)] →
    (alignEntry f sg (id, d, some gx, none)).1 = { d := d, id := id, g := gx } ∧
    (∀ (j z : Nat), (alignEntry f sg (id, d, none, some gy)).1.g[j]? = some z → (f.decode (gy[j]?.getD 0)).isFin = true →
      (f.kind ≠ .log ∨ gy[j]?.getD 0 % 2 ^ f.mag ≠ 0) → gy[j]?.getD 0 < 2 ^ f.width → (f.decode z).rat = y * (f.decode (gy[j]?.getD 0)).rat) ∧
    (∀ (j z : Nat) (e : FVal), (alignEntry f sg (id, d, some gx, some gy)).1.g[j]? = some z → (alignEntry f sg (id, d, some gx, some gy)).2[j]? = some e →
      (f.decode (gx[j]?.getD 0)).isFin = true → (f.decode (gy[j]?.getD 0)).isFin = true → e.isFin = true →
      (f.decode z).isFin = true ∧ e.rat = |(f.decode (gx[j]?.getD 0)).rat + y * (f.decode (gy[j]?.getD 0)).rat - (f.decode z).rat|)) ∧
  /- R97, R98: condensation leaves `target` entries, in their order; what folds comes before what stays by R98's key, and
     its coefficients go into the remainder, rounded up. -/
  (∀ (f : FFmt) (ls : List Slot) (gs : List Gen) (rem : List FVal) (target : Nat) (o : Condensed),
    o = condenseTo f ls gs rem target → (gs.map (fun g => g.id)).Nodup →
    o.gens.length = min gs.length target ∧ o.gens.Sublist gs ∧ o.rem.length = rem.length ∧
    (∀ g, g ∈ gs ↔ g ∈ o.gens ∨ g ∈ o.folded) ∧ (∀ g ∈ o.folded, g ∉ o.gens) ∧
    (∀ g ∈ o.folded, ∀ h ∈ o.gens, keyLe (condKey f ls g) (condKey f ls h) = true) ∧
    (gs.length ≤ target → o.rem = rem) ∧
    (∀ (j : Nat) (x y : FVal), rem[j]? = some x → x.isFin = true → (∀ g ∈ o.folded, (f.decode (g.g[j]?.getD 0)).isFin = true) → o.rem[j]? = some y →
      y.isFin = true → x.rat + (o.folded.map (fun g => |(f.decode (g.g[j]?.getD 0)).rat|)).sum ≤ y.rat)) ∧
  /- R83, R84, R86, R376, R377: minting n ids takes the next ones and the lowest free slot, in state LIVE with one holder;
     past 2^31 − 1, or with every slot taken, it faults. -/
  (∀ (s : State) (id : Nat) (tk : Task) (l : Launch) (tab n sig birth next used : Nat), s.task? id = some tk → s.launch? tk.launch = some l →
    l.symbols = some tab → tab < 16 → next = s.readNear (symDir tab + 4) 4 → used = s.readNear (symDir tab + 8) 4 →
    (2 ^ 31 ≤ next + n ∨ 65536 ≤ used → (mint (some id) n sig birth).run s = .error (.fault (exhausted next used) false 0)) ∧
    (next + n < 2 ^ 31 → used < 65536 → ∀ i < 65536, s.slotState tab i ≠ 1 → (∀ k < i, s.slotState tab k = 1) →
      ∃ t, (mint (some id) n sig birth).run s = .ok (next, t) ∧ t = { s with mem := t.mem, tasks := t.tasks } ∧
        t.task? id = some { tk with mints := tk.mints + 1 } ∧
        t.readNear (symDir tab + 4) 4 = next + n ∧ t.readNear (symDir tab + 8) 4 = used + 1 ∧ t.slotState tab i = 1 ∧
        (∀ o w v, (o, w, v) ∈ [(0, 4, next), (4, 4, n), (12, 4, 1), (16, 4, sig % 2 ^ 32), (20, 4, birth % 2 ^ 32),
          (24, 8, tk.word.toNat), (32, 4, tk.mints % 2 ^ 32)] → t.readNear (symTable tab + 64 * i + o) w = v) ∧
        ∀ a, ¬ (symTable tab + 64 * i ≤ a ∧ a < symTable tab + 64 * i + 64) → ¬ (symDir tab + 4 ≤ a ∧ a < symDir tab + 12) →
          t.nearByte a = s.nearByte a)) ∧
  /- R85, R377: a holder leaves a range; the last one makes it terminal and its slot free. -/
  (∀ (s : State) (tab i n used : Nat) (cond : Bool), tab < 16 → i < 65536 → n = s.readNear (symTable tab + 64 * i + 12) 4 → 1 ≤ n →
    used = s.readNear (symDir tab + 8) 4 → 1 ≤ used →
    (s.holderDown tab i cond).readNear (symTable tab + 64 * i + 12) 4 = n - 1 ∧
    (n ≠ 1 → (s.holderDown tab i cond).slotState tab i = s.slotState tab i) ∧
    (n = 1 → (s.holderDown tab i cond).slotState tab i = (if cond then 2 else 3) ∧
      (s.holderDown tab i cond).readNear (symDir tab + 8) 4 = used - 1)) ∧
  /- R332: ACHK's 32 bytes: bit 0 VOID, bit 1 every element within its limits, bit 2 an infinite bound; the number of
     elements that fail and the first of them. -/
  (∀ (bs : List (Nat × Nat)) (lo hi : List FVal) (out : List Byte), lo.length = bs.length → hi.length = bs.length → bs.length < 2 ^ 32 →
    (achkResult true bs lo hi).take 16 = leBytes 4 1 ++ leBytes 4 0xFFFFFFFF ++ leBytes 8 (2 ^ 64 - 1) ∧
    (out = achkResult false bs lo hi → ∀ fails : Nat → Prop,
      (∀ j, fails j ↔ ∃ l u p, bs[j]? = some p ∧ lo[j]? = some l ∧ hi[j]? = some u ∧
        ¬ (l.isNan = false ∧ u.isNan = false ∧ (FFmt.f32.decode p.1).isNan = false ∧ (FFmt.f32.decode p.2).isNan = false ∧
          ¬ (FFmt.f32.decode p.1).less l ∧ ¬ u.less (FFmt.f32.decode p.2))) →
      out.length = 32 ∧ leNat (out.take 4) % 2 = 0 ∧
      ((leNat (out.take 4)).testBit 1 = true ↔ ∀ j, ¬ fails j) ∧
      ((leNat (out.take 4)).testBit 2 = true ↔ ∃ p ∈ bs, (FFmt.f32.decode p.1).isInf = true ∨ (FFmt.f32.decode p.2).isInf = true) ∧
      ((∀ j, ¬ fails j) → leNat ((out.drop 4).take 4) = 0 ∧ leNat ((out.drop 8).take 8) = 2 ^ 64 - 1) ∧
      (∀ j, fails j → (∀ k < j, ¬ fails k) → leNat ((out.drop 8).take 8) = j ∧ 1 ≤ leNat ((out.drop 4).take 4)))) ∧
  /- R333, R378: ATBL of a misaligned table halts its task; otherwise it loads all the entries that it has read, or, where
     one breaks the layout, faults ILLEGAL with the first such index and loads none. -/
  (∀ (s : State) (c : AnyCore) (k : Bool) (e : Entry) (tok : Tok) (x : XReg) (first : BitVec 6) (n : BitVec 6) (a : Nat),
    Head s c.toNat k .cq e → e.instr = .atbl tok x first n → a = (e.taken.x x).toNat → (s.ctx c.toNat k).supervisor = false →
    (s.ctx c.toNat k).exited = false → dieOf c.toNat < 4 →
    (a % 128 ≠ 0 → ∃ t, exec (.queueEntryStart c k .cq) s = .next t ∧ (t.ctx c.toNat k).mode = .halted ∧
      (t.ctx c.toNat k).tcause = causeWord 0x03 true ∧ (t.ctx c.toNat k).tval = e.taken.x x ∧ (t.core c.toNat).rules = (s.core c.toNat).rules) ∧
    (a % 128 = 0 → a < 2 ^ 57 → ∀ (es : List (List Byte)) (m u : State), m = s.setEntry c.toNat k .cq { e with moved := s.time } →
      ((List.range (n.toNat + 1)).mapM (fun i => readLong (m.entryView c.toNat k .cq { e with moved := s.time })
        (a + 128 * i) 128)).run m = .ok (es, u) → Touches m u →
      ((∀ i b, es[i]? = some b → (∀ z ∈ b, z = 0) ∨ ruleValid (first.toNat + i) b = true) →
        ∃ t, exec (.queueEntryStart c k .cq) s = .next t ∧ Began u t c.toNat k .cq e (.started Landing.empty) ∧
          (∀ i < 64, (t.core c.toNat).rule i = if first.toNat ≤ i ∧ i < first.toNat + (n.toNat + 1) then es[i - first.toNat]?.getD []
            else (s.core c.toNat).rule i)) ∧
      (∀ i b, es[i]? = some b → ¬ ((∀ z ∈ b, z = 0) ∨ ruleValid (first.toNat + i) b = true) →
        (∀ j d, j < i → es[j]? = some d → (∀ z ∈ d, z = 0) ∨ ruleValid (first.toNat + j) d = true) →
        ∃ t, exec (.queueEntryStart c k .cq) s = .next t ∧ (t.ctx c.toNat k).mode = .halted ∧
          (t.ctx c.toNat k).tcause = causeWord 0x01 true ∧ (t.ctx c.toNat k).tval = w64 (first.toNat + i) ∧
          (t.core c.toNat).rules = (s.core c.toNat).rules)))

/-- R47, R56 to R59: making a value into a format rounds once as R56 says, with the fates of R57 and R58; the grid holds
the values of the codes; and the sums, products and fused products that are made so are exact. Model choices: log 74. -/
def Obligations.EncodeRounds : Prop :=
  (∀ (nf : Vector (BitVec 32) 4) (ty : VTy) (w : Nat) (f : FFmt), FloatTy nf ty w f →
    /- R46, R53, R54: the codes up to the largest finite value are the points of the grid, which rises. -/
    (∀ c ≤ f.maxMag, (f.decode c).isFin = true ∧ (f.decode c).rat = f.grid c ∧
      (f.kind ≠ .log ∨ c ≠ 0 → (f.decode (2 ^ f.mag + c)).isFin = true ∧ (f.decode (2 ^ f.mag + c)).rat = -f.grid c)) ∧
    (∀ c k, c < k → f.grid c < f.grid k) ∧
    (∀ (sat ftz : Bool) (rm : Rm) (inv : Bool),
      /- R56 to R58: a finite value above zero. -/
      (∀ s m e, 0 < m → ∃ fl, (f.encode sat ftz rm (.fin s m e) inv).flags = fl ||| (if inv then 1 else 0) ∧
        f.Makes sat ftz rm s ((m : ℝ) * 2 ^ e) (f.encode sat ftz rm (.fin s m e) inv).code fl) ∧
      /- Zero keeps its sign, but in LOG. -/
      (∀ s e, (f.encode sat ftz rm (.fin s 0 e) inv).code = (if f.kind = .log then 0 else bit s * 2 ^ f.mag) ∧
        (f.encode sat ftz rm (.fin s 0 e) inv).flags = if inv then 1 else 0) ∧
      /- Infinities: kept by a standard format without SAT, else the largest finite value. -/
      (∀ s, (f.encode sat ftz rm (.inf s) inv).code = bit s * 2 ^ f.mag +
          (if sat = true ∨ f.std = false then f.maxMag else (2 ^ f.ebits - 1) * 2 ^ f.mbits) ∧
        (f.encode sat ftz rm (.inf s) inv).flags = if inv then 1 else 0) ∧
      /- A NaN is the default NaN, or, in a format without one, a void +0 with INVALID (R47, R58, R59). -/
      (∀ q, (f.kind ≠ .fin → some (f.encode sat ftz rm (.nan q) inv).code = f.nanCode ∧
          (f.decode (f.encode sat ftz rm (.nan q) inv).code).isNan = true ∧
          (f.encode sat ftz rm (.nan q) inv).flags = (if inv then 1 else 0) ∧ (f.encode sat ftz rm (.nan q) inv).void = false) ∧
        (f.kind = .fin → f.encode sat ftz rm (.nan q) inv = { code := 0, flags := 1, void := true })))) ∧
  /- R47, R56, R284: sums and products of finite values are exact; a zero sum of unlike signs is −0 under RD alone. -/
  (∀ (rm : Rm) (a b z : FVal), a.isFin = true → b.isFin = true → z.isFin = true →
    (exactAdd rm a b).inv = false ∧ (exactAdd rm a b).v.isFin = true ∧ (exactAdd rm a b).v.rat = a.rat + b.rat ∧
    (a.rat + b.rat = 0 → (exactAdd rm a b).v.sign = if a.sign = b.sign then a.sign else decide (rm = .rd)) ∧
    (exactMul a b).inv = false ∧ (exactMul a b).v.isFin = true ∧ (exactMul a b).v.rat = a.rat * b.rat ∧
    (exactMul a b).v.sign = (a.sign != b.sign) ∧
    (exactFma rm a b z).inv = false ∧ (exactFma rm a b z).v.isFin = true ∧ (exactFma rm a b z).v.rat = a.rat * b.rat + z.rat) ∧
  /- R47: infinities, and the operations that are invalid. -/
  (∀ (rm : Rm) (s : Bool) (a : FVal), a.isFin = true →
    exactAdd rm (.inf s) a = { v := .inf s, inv := false } ∧ exactAdd rm a (.inf s) = { v := .inf s, inv := false } ∧
    exactAdd rm (.inf s) (.inf s) = { v := .inf s, inv := false } ∧
    exactAdd rm (.inf s) (.inf (!s)) = { v := .nan false, inv := true } ∧
    (a.rat = 0 → exactMul (.inf s) a = { v := .nan false, inv := true } ∧ exactMul a (.inf s) = { v := .nan false, inv := true }) ∧
    (a.rat ≠ 0 → exactMul (.inf s) a = { v := .inf (s != a.sign), inv := false } ∧
      exactMul a (.inf s) = { v := .inf (a.sign != s), inv := false })) ∧
  (∀ (rm : Rm) (q : Bool) (a : FVal), a.isNan = false →
    exactAdd rm (.nan q) a = { v := .nan false, inv := q } ∧ exactAdd rm a (.nan q) = { v := .nan false, inv := q } ∧
    exactMul (.nan q) a = { v := .nan false, inv := q } ∧ exactMul a (.nan q) = { v := .nan false, inv := q })

/-- Row names, and how CQ and LQ entries start, land and complete. Model choices: log 21. -/
def Obligations.QueueEntries : Prop :=
  /- R140: operand wn of a context names physical row k × H + ((ROTB + n) mod H). -/
  (∀ (s : State) (i : Instr) (n : BitVec 8), 0 < s.here.h →
    (s.take i).dest (.row n) = some (.row ((if s.myK then s.here.h else 0) + (s.me.rotb.toNat + n.toNat) % s.here.h))) ∧
  /- R279, R338: the head entry of CQ that may start is read and computed at once: a vector instruction's writes wait
     to land, and nothing else of the context, of another core or of memory changes. -/
  (∀ (s : State) (c : AnyCore) (k : Bool) (e : Entry) (v : VOut) (x : Context),
    s.startable c.toNat k .cq = some e → e.instr.vhdr?.isSome = true → e.popped = true → s.poison = [] →
    x = (s.ctx c.toNat k).setEntry .cq { e with moved := s.time } → x.settle = x →
    Reader.vector { core := (s.setCtx c.toNat k x).core c.toNat, k := k, t := e.taken, free := s.fresh }
      (illegalOf (encode e.instr)) e.instr = .ok v →
    v.poison = none →
    ∃ t, exec (.queueEntryStart c k .cq) s = .next t ∧
      t.ctx c.toNat k = (s.ctx c.toNat k).setEntry .cq { e with phase := .started v.land, moved := s.time } ∧
      t.ctx c.toNat (!k) = s.ctx c.toNat (!k) ∧ (t.core c.toNat).rows = (s.core c.toNat).rows ∧
      (∀ n, n ≠ c.toNat → t.core n = s.core n) ∧ t.fresh = s.fresh + 1 ∧ SameBytes s t) ∧
  /- R120, R279, R306: a started CQ entry that no phase holds, and that takes no symbol range's holder away, completes
     where no earlier entry that writes one of its places waits, an array command of a WIN2 quad in its core's window:
     its writes, the latch, its predicate and its flags land on the core with new check bits, and it owes its pushes. -/
  (∀ (s : State) (c : AnyCore) (k : Bool) (n : Nat) (e : Entry) (l : Landing),
    (s.ctx c.toNat k).cq[n]? = some e → e.phase = .started l → l.drops = [] →
    (∀ f ∈ (s.ctx c.toNat k).cq, f.seq < e.seq → ∀ m, f.phase = .started m → l.meets m = false) →
    (∀ h ∈ (s.ctx c.toNat k).holdList, h.seq ≠ e.seq) →
    (Instr.arrayPlane? e.instr = none ∨ (s.quad (quadOf c.toNat)).mayAdvance (inQuad c.toNat) = true) →
    ∃ p, exec (.queueEntryComplete c k .cq n) s = .next
      ((({ s with poison := p } : State).setCore c.toNat ((s.core c.toNat).land k l)).setCtx c.toNat k
        ((((s.core c.toNat).land k l).ctx k).finish .cq e))) ∧
  /- R120, R278: what lands on a row: the bits under the mask are the result's, every other bit keeps its value, and
     the latch receives what the row then holds. -/
  (∀ (c : Core) (k : Bool) (p : Nat) (v m : Row) (fl : BitVec 5),
    let t := c.land k { writes := [{ dest := .row p, val := v, mask := m }], latch := some (.row p), pred := none, flags := fl }
    t.row p = (c.row p &&& ~~~m) ||| (v &&& m) ∧ (t.ctx k).latch = t.row p ∧ (∀ q, q ≠ p → t.row q = c.row q) ∧
      (t.ctx k).status = (c.ctx k).status ||| fl.zeroExtend 64 ∧ t.ctx (!k) = c.ctx (!k)) ∧
  /- R340: the oldest row that waits in the load data queue is written, and its load completes. -/
  (∀ (s : State) (c : AnyCore) (k : Bool) (e : Entry) (l : Landing),
    (s.ctx c.toNat k).lq.find? (fun e => match e.phase with | .arrived _ => true | _ => false) = some e → e.phase = .arrived l →
    e.taken.scored = false →
    ∃ p, exec (.loadDataReturn c k) s = .next
      ((({ s with poison := p } : State).setCore c.toNat ((s.core c.toNat).land k l)).setCtx c.toNat k
        ((((s.core c.toNat).land k l).ctx k).finish .lq e)))

/-- WAIT and WAITT complete, time out or hold with their deadline. Model choices: log 29, log 72, log 91. -/
def Obligations.Waits : Prop :=
  /- R355: a WAIT without a memory condition whose enabled conditions make its sense true writes the conditions that
     hold to xd and completes; one whose deadline has come with the sense false faults WAIT_TIMEOUT; else it waits with
     its deadline. WAITT completes once TIME has reached xa, waits with xa as its end until then, and faults
     WAIT_TIMEOUT as it issues where xa lies past its timeout. -/
  (∀ (s : State) (w : WaitArgs) (a : XReg) (n : BitVec 32) (h : Nat),
    w.enM = false →
    h = (if w.enE = true ∧ s.me.evq ≠ [] then 2 else 0) + (if w.enK = true ∧ w.thr.toNat ≤ (s.me.tokens[w.ctr.toNat]'w.ctr.isLt).toNat then 4 else 0) +
      (if w.enT = true ∧ (s.x w.xt).toNat ≤ s.time.toNat then 8 else 0) →
    ((if w.all then h = (if w.enE then 2 else 0) + (if w.enK then 4 else 0) + (if w.enT then 8 else 0) else h ≠ 0) →
      ∃ t, exec (.wait w) s = .next t ∧ WritesX s t w.xd (w64 h) 12) ∧
    (¬ (if w.all then h = (if w.enE then 2 else 0) + (if w.enK then 4 else 0) + (if w.enT then 8 else 0) else h ≠ 0) →
      (waitDeadline w s).toNat ≤ s.time.toNat → exec (.wait w) s = .next (s.fault (waitTimeoutTrap (waitDeadline w s)))) ∧
    (¬ (if w.all then h = (if w.enE then 2 else 0) + (if w.enK then 4 else 0) + (if w.enT then 8 else 0) else h ≠ 0) →
      s.time.toNat < (waitDeadline w s).toNat →
      exec (.wait w) s = .next (s.setMe { s.me with hold := some (.wait w, .wait (waitDeadline w s)) })) ∧
    ((s.x a).toNat ≤ s.time.toNat → GoesTo (.waitt a n) s (s.me.pc + 12)) ∧
    (s.me.hold = none → s.time.toNat < (s.x a).toNat → (s.x a).toNat ≤ s.time.toNat + (if n = 0 then 2 ^ 32 else n.toNat) →
      exec (.waitt a n) s = .next (s.setMe { s.me with hold := some (.waitt a n, .wait (s.x a)) })) ∧
    (∀ due, s.me.hold = some (.waitt a n, due) → s.time.toNat < (s.x a).toNat →
      exec (.waitt a n) s = .next (s.setMe { s.me with hold := some (.waitt a n, .wait (s.x a)) })) ∧
    (s.me.hold = none → s.time.toNat + (if n = 0 then 2 ^ 32 else n.toNat) < (s.x a).toNat →
      exec (.waitt a n) s = .next (s.fault (waitTimeoutTrap (s.time + BitVec.ofNat 64 (if n = 0 then 2 ^ 32 else n.toNat)))))) ∧
  /- R355: a WAIT with a memory condition compares the word or doubleword at an ordinary, aligned address with the low
     bits of xv, and completes, waits or times out as one without; one at an address that is not aligned faults
     MISALIGN. -/
  (∀ (s : State) (w : WaitArgs) (va n x y h : Nat) (p : Phys) (m sense : Prop),
    w.enM = true → va = (s.x w.xm).toNat → n = (if w.wide then 8 else 4) →
    x = leNat (s.me.overlay va (s.bytesAt p n)) → y = (s.x w.xv).toNat % 2 ^ (8 * n) →
    (m ↔ ∃ q, (w.cmp, q) ∈ [(WCmp.eq, x = y), (.ne, x ≠ y), (.lt, toSigned (8 * n) x < toSigned (8 * n) y),
      (.ge, toSigned (8 * n) y ≤ toSigned (8 * n) x), (.ltu, x < y), (.geu, y ≤ x)] ∧ q) →
    (∃ b : Nat, (m → b = 1) ∧ (¬ m → b = 0) ∧ h = b + (if w.enE = true ∧ s.me.evq ≠ [] then 2 else 0) +
      (if w.enK = true ∧ w.thr.toNat ≤ (s.me.tokens[w.ctr.toNat]'w.ctr.isLt).toNat then 4 else 0) +
      (if w.enT = true ∧ (s.x w.xt).toNat ≤ s.time.toNat then 8 else 0)) →
    (sense ↔ if w.all then h = 1 + (if w.enE then 2 else 0) + (if w.enK then 4 else 0) + (if w.enT then 8 else 0) else h ≠ 0) →
    (va % n ≠ 0 → exec (.wait w) s = .next (s.fault (misalign (s.x w.xm)))) ∧
    (va % n = 0 → Ordinary s va n false p → Ready s va n false →
      (sense → ∃ t u, exec (.wait w) s = .next t ∧ Touches s u ∧ WritesX u t w.xd (w64 h) 12) ∧
      (¬ sense → (waitDeadline w s).toNat ≤ s.time.toNat → exec (.wait w) s = .next (s.fault (waitTimeoutTrap (waitDeadline w s)))) ∧
      (¬ sense → s.time.toNat < (waitDeadline w s).toNat →
        exec (.wait w) s = .next (s.setMe { s.me with hold := some (.wait w, .wait (waitDeadline w s)) }))))

/-- The steps that end waits, wake cores, raise alarms and expire step counters. Model choices: log 44. -/
def Obligations.WaitsAndAlarms : Prop :=
  /- R157, R336, R355: the events that end a wait run the held instruction again, on its own core, while no lock of the
     clocks keeps its tasks from issuing (R453). -/
  (∀ (s : State) (c : AnyCore) (i : Instr) (q : QName) (o : Order) (sc : Scope) (a : XReg) (n : BitVec 32) (due : Word) (w : WaitArgs)
    (m : State), m = { s with cur := c.toNat } → m.here.running = true → m.me.mode = .live → m.me.stopping = false →
    s.issueLocked c.toNat = false →
    (m.me.hold = some (i, .route) → routesTo i = some q → (i.namesRow = true → 0 < m.here.h) →
      ((m.me.queue q).filter (fun e => !e.released && !e.isHeld)).length < 32 → m.me.comparing i.guardReg = false →
      m.me.awaits i (m.now m.cur) = false → countsAtRouting m.me i = false →
      exec (.queueRouteAfterRoom c) s = .next { m.routeTo q i with cur := s.cur }) ∧
    (m.me.hold = some (.fence o sc, .wait due) → m.released = true →
      exec (.waitGroupResume c) s = .next { m.retire 4 with cur := s.cur }) ∧
    (m.me.hold = some (.waitt a n, .wait due) → (m.x a).toNat ≤ s.time.toNat →
      exec (.waittEnd c) s = .next { m.retire 12 with cur := s.cur }) ∧
    (m.me.hold = some (.wait w, .wait due) → w.enM = false → w.all = false → w.enE = true → w.enK = false → w.enT = false →
      (m.me.evq ≠ [] → exec (.waitSatisfied c) s = .next { m.retireX 12 w.xd 2 with cur := s.cur }) ∧
      (m.me.evq = [] → due.toNat ≤ s.time.toNat →
        exec (.waitTimeout c) s = .next { m.fault (waitTimeoutTrap due) with cur := s.cur }))) ∧
  /- R180, R182: a yielded context goes on after 256 cycles or on what it waits for, and a core of the control complex
     that HALT has stopped fetches again once something has come for it, and not before. -/
  (∀ (s : State) (c : AnyCore) (d : DieNo) (i : Instr) (u : Word) (woken : Bool),
    ((s.core c.toNat).running = true → (s.core c.toNat).me.mode = .live → (s.core c.toNat).me.stopping = false →
      (s.core c.toNat).me.hold = some (i, .yield u woken) →
      (woken = true ∨ u.toNat ≤ (s.die (dieOf c.toNat)).cycles.toNat) →
      exec (.yieldWake c) s = .next (s.setCtx c.toNat (s.core c.toNat).active { (s.core c.toNat).me with hold := none })) ∧
    ((s.core (1024 + d.toNat)).me.mode = .asleep → (s.core (1024 + d.toNat)).me.hold = some (i, .yield u woken) →
      exec (.haltWake d) s = .next (if woken then s.setCtx (1024 + d.toNat) (s.core (1024 + d.toNat)).active
        { (s.core (1024 + d.toNat)).me with mode := .live, hold := none } else s))) ∧
  /- R186, R187, R346: at the first tick at which TIME has reached it, the alarm becomes none and one record of type
     TIMER with the alarm as its detail joins the event queue; a context whose step counter has reached zero halts
     before its next instruction with TCAUSE 0xBF and that instruction's address in EPC. -/
  (∀ (s : State) (c : AnyCore) (k : Bool) (al : Word),
    ((s.ctx c.toNat k).alarm = some al → (s.ctx c.toNat k).mode ≠ .free → al.toNat ≤ s.time.toNat →
      ∃ t rec, exec (.timerAlarm c k) s = .next t ∧ rec.extractLsb' 0 8 = 2 ∧ rec.extractLsb' 64 64 = al ∧
        (t.ctx c.toNat k).alarm = none ∧ (t.ctx c.toNat k).evq = (s.ctx c.toNat k).evq ++ [rec] ∧
        (t.ctx c.toNat k).reserved = (s.ctx c.toNat k).reserved - 1 ∧ (t.ctx c.toNat k).evqt = (s.ctx c.toNat k).evqt + 1 ∧
        (∀ n, n ≠ c.toNat → t.core n = s.core n) ∧ SameBytes s t) ∧
    ((s.core c.toNat).running = true → (s.core c.toNat).me.mode = .live → (s.core c.toNat).me.stepDue = true →
      (s.core c.toNat).me.hold = none → (s.core c.toNat).me.supervisor = false →
      ∃ t, exec (.sstepExpiry c) s = .next t ∧
        (t.core c.toNat).me = { (s.core c.toNat).me with
          stepDue := false, tcause := 0xBF, tval := 0, epc := (s.core c.toNat).me.pc, mode := .halted } ∧
        (∀ n, n ≠ c.toNat → t.core n = s.core n) ∧ SameBytes s t))

/-- R304, R306: the lease of a quad's array goes to the core whose turn it is, ends with its 64th command or after
4,096 cycles, and a WIN2 window switches when it is over. Model choices: log 65. -/
def Obligations.Leases : Prop :=
  ∀ (s : State) (d : DieNo) (q : BitVec 6) (n : Nat), n = 64 * d.toNat + q.toNat →
    (∀ c rs, rs = (s.quad n).requests.filter (fun r => s.stillAsks (4 * n + r.toNat)) →
      Quad.nextHolder { s.quad n with requests := rs } = some c → (s.quad n).win2 = none → (s.quad n).lease = none →
      (∀ l, (s.quad n).last = some l → s.arrayBusy (4 * n + l.toNat) = false) →
      exec (.leaseGrant d q) s = .next (s.setQuad n { s.quad n with
        lease := some { core := c, commands := 0, cycles := (s.die (dieOf (4 * n))).cycles.toNat },
        requests := rs.filter (fun r => r != c) })) ∧
    (∀ l, (s.quad n).lease = some l → (64 ≤ l.commands ∨ 4096 ≤ (s.die (dieOf (4 * n))).cycles.toNat - l.cycles) →
      ∃ t, exec (.leaseExpire d q) s = .next t ∧ (t.quad n).lease = none ∧ (∀ m, m ≠ n → t.quad m = s.quad m) ∧
        t.cores = s.cores ∧ SameBytes s t) ∧
    (∀ a b w, (s.quad n).win2 = some (a, b, w) → (s.quad n).since + w ≤ (s.die (dieOf (4 * n))).cycles.toNat →
      exec (.win2WindowSwitch d q) s = .next (s.setQuad n { s.quad n with
        window := !(s.quad n).window, since := (s.quad n).since + w }))

/-- R170, R343, R344: CPY, XTBL, XDUC, COLL, SEND and RECV whose handles pass the checks of R138, with room in their
engine's queue and a free slot of the event queue, are accepted: one waiting job with the operands as they stand joins
the jobs, one slot is reserved, the jobs' PERF event counts, and the sequencer goes on. A handle that fails faults
BOUNDS. Model choices: log 28. -/
def Obligations.JobIssue : Prop :=
  ∀ (s : State) (hd hs : HReg) (xa xn xt : XReg) (slot : BitVec 3) (op : CollOp),
    (handleOk (s.h hd) = true → handleOk (s.h hs) = true → s.here.drain = none → s.me.evq.length + s.me.reserved < 64 →
    ∀ i kind, (i, kind) ∈ [
        (Instr.cpy hd hs xn xt, JobKind.cpy (s.h hd) (s.h hs) (s.x xn).toNat),
        (.xtbl slot hs xt, .xtbl slot (s.h hs)),
        (.xduc hd hs xn xa slot xt, .xduc (s.h hd) (s.h hs) (s.x xn).toNat (s.x xa) slot),
        (.coll op hd hs xn xa xt, .coll op (s.h hd) (s.h hs) (s.x xn).toNat (s.x xa).toNat),
        (.send hs xa xn xt, .send (s.h hs) (s.x xa) (s.x (xn + 1) ++ s.x xn)),
        (.recv hd xa xn xt, .recv (s.h hd) (s.x xa) (s.x (xn + 1) ++ s.x xn))] →
      s.queueFull (dieOf s.cur) kind.engine = false →
      ∃ t job, exec i s = .next t ∧ t.jobs = s.jobs ++ [job] ∧ job.kind = kind ∧ job.phase = .waiting ∧ job.id = s.nextId ∧
        job.core = s.cur ∧ job.context = s.myK ∧ job.who = s.me.task ∧ job.tag = (s.x xt).extractLsb' 0 32 ∧
        Retires (({ s with jobs := t.jobs, nextId := s.nextId + 1 } : State).setHere
            { s.here with perf := vecMap (countPerf 0x17 1) s.here.perf }) t
          { s.me with reserved := s.me.reserved + 1, escape := t.me.escape, phaseIneligible := t.me.phaseIneligible,
                      copies := t.me.copies } (s.me.pc + 8)) ∧
    (handleOk (s.h hs) = false →
      exec (.xtbl slot hs xt) s = .next (s.fault (bounds (hs.zeroExtend 64))) ∧
      exec (.send hs xa xn xt) s = .next (s.fault (bounds (hs.zeroExtend 64)))) ∧
    (handleOk (s.h hd) = false →
      exec (.cpy hd hs xn xt) s = .next (s.fault (bounds (hd.zeroExtend 64))) ∧
      exec (.recv hd xa xn xt) s = .next (s.fault (bounds (hd.zeroExtend 64))))

/-- Precise faults of a task save cause, detail and pc, halt it and leave one record; illegal words and failed fetches
fault so. Model choices: log 14, log 20. -/
def Obligations.PreciseFault : Prop :=
  /- R107, R108: a word that decodes to no instruction faults ILLEGAL with words 0 and 1 in the detail, and a fetch
     that fails faults XLATE, PERMISSION or MISALIGN, each with EPC at the instruction; nothing of it has executed. -/
  (∀ (s : State) (c : AnyCore) (w0 w1 : IWord) (r : BitVec 4) (va : Word) (m : State),
    m = { s with cur := c.toNat } → s.fetches c.toNat = true → AtTask m →
    (∃ t, exec (.illegalInstruction c w0 w1) s = .next t ∧
      Faults m { t with cur := c.toNat } { code := 0x01, detail := w1 ++ w0 }) ∧
    (∃ t, exec (.instructionFetchFault c (.xlate r va)) s = .next t ∧
      Faults m { t with cur := c.toNat } { code := 0x05, detail := w64 (r.toNat * 2 ^ 60 + va.toNat % 2 ^ 57), grade := xlateGrade r.toNat }) ∧
    (∃ t, exec (.instructionFetchFault c (.permission va)) s = .next t ∧
      Faults m { t with cur := c.toNat } { code := 0x06, detail := w64 (va.toNat % 2 ^ 57) }) ∧
    (∃ t, exec (.instructionFetchFault c .misalign) s = .next t ∧
      Faults m { t with cur := c.toNat } { code := 0x03, detail := m.me.pc })) ∧
  /- R9, R145, R361, R405: a precise fault of a task writes TCAUSE with its code, TVAL with its detail and EPC with the
     address of the instruction, halts the task and leaves one record; the instruction has no effect. The structure
     counters and the banks that some codes move besides (R398, R210) are left to their rules. -/
  (∀ (s : State) (f : Trap), AtTask s → f.ecc = none → f.code ≠ 0x1B → Faults s (s.fault f) f)

/-- RENQ within the module, RENQ_RESEND, and entries arriving at and leaving an inbox. Model choices: log 71. -/
def Obligations.RemoteEnqueue : Prop :=
  /- R348, R349: RENQ to an inbox of this module, once the context's loads and stores are done and its waybill passes:
     with room the entry enters the inbox and xd receives 0; where the inbox is full the instruction waits 256 cycles,
     after which RENQ_RESEND tries again. -/
  (∀ (s : State) (d a w : XReg) (c : Nat) (e : BitVec 128),
    s.released = true → s.waybillOk (s.waybill w) engInbox = true → wbHops (s.waybill w) = 0 →
    c = wbCore (s.waybill w) → c ≠ s.cur →
    e = BitVec.ofNat 128 ((s.x a).toNat % 2 ^ 57 + s.moduleId.toNat * 2 ^ 64 + s.cur % 2 ^ 10 * 2 ^ 80) →
    (s.me.hold = none → (s.core c).inbox.length < 16 →
      ∃ t y, exec (.renq d a w) s = .next t ∧ t.core c = { s.core c with inbox := (s.core c).inbox ++ [e] } ∧
        Retires (s.setCore c (t.core c)) t y (s.me.pc + 8) ∧ y = { s.me with x := t.me.x, escape := t.me.escape } ∧
        ∀ r, t.x r = if r = d ∧ d ≠ 0 then 0 else s.x r) ∧
    (s.me.hold = none → 16 ≤ (s.core c).inbox.length →
      exec (.renq d a w) s = .next (s.setMe { s.me with
        hold := some (.renq d a w, .wait (w64 ((s.die (dieOf s.cur)).cycles.toNat + 256))) })) ∧
    (∀ (n : CoreNo) (due : Word) (b : Bool), s.cur = n.toNat → s.here.running = true → s.me.mode = .live →
      s.me.stopping = false → s.issueLocked s.cur = false →
      s.me.hold = some (.renq d a w, .wait due) → due ≠ -1 → due.toNat ≤ (s.die (dieOf s.cur)).cycles.toNat →
      (s.core c).inbox.length < 16 →
      ∃ t, exec (.renqResend n b) s = .next t ∧ t.core c = { s.core c with inbox := (s.core c).inbox ++ [e] } ∧
        t.me.hold = none ∧ t.me.pc = s.me.pc + 8)) ∧
  /- R349 to R351, R389: an entry for an inbox of this module joins it where it has room, and the sender is told
     whether it did; an entry for another module or engine is reported as ROUTE_CHECK; the oldest entry leaves the inbox for the
     running context as one INBOX record with the entry's address as its detail. -/
  (∀ (s : State) (g : BitVec 6) (c : CoreNo) (m : BitVec 16) (e : BitVec 128),
    (m = s.moduleId → g = 0 → (s.core c.toNat).inbox.length < 16 →
      exec (.inboxEntryArrive c ⟨m, g⟩ e) s = .next
        { s.setCore c.toNat { s.core c.toNat with inbox := (s.core c.toNat).inbox ++ [e] } with
          outbox := s.outbox ++ [.accepted (e.extractLsb' 64 16) (e.extractLsb' 80 10) true] }) ∧
    (m = s.moduleId → g = 0 → 16 ≤ (s.core c.toNat).inbox.length →
      exec (.inboxEntryArrive c ⟨m, g⟩ e) s = .next
        { s with outbox := s.outbox ++ [.accepted (e.extractLsb' 64 16) (e.extractLsb' 80 10) false] }) ∧
    (m ≠ s.moduleId ∨ g ≠ 0 → exec (.inboxEntryArrive c ⟨m, g⟩ e) s = .next
        { s with outbox := s.outbox ++ [.report (e.extractLsb' 64 16) (.routeCheck 0xE)] }) ∧
    (∀ rest k, (s.core c.toNat).inbox = e :: rest → (s.core c.toNat).running = true → k = (s.core c.toNat).active →
      (s.ctx c.toNat k).evq.length + (s.ctx c.toNat k).reserved < 64 →
      ∃ t rec, exec (.inboxDeliver c) s = .next t ∧ (t.core c.toNat).inbox = rest ∧
        (t.ctx c.toNat k).evq = (s.ctx c.toNat k).evq ++ [rec] ∧ rec.extractLsb' 0 8 = 4 ∧
        rec.extractLsb' 64 64 = (e.extractLsb' 0 57).zeroExtend 64 ∧ t.ctx c.toNat (!k) = s.ctx c.toNat (!k) ∧
        (∀ n, n ≠ c.toNat → t.core n = s.core n) ∧ SameBytes s t))

/-- Jobs start, do their work, end with their record, and go on with a collective result: the bytes that CPY, XDUC, XTBL,
SEND and RECV read and write in PAD through handles without records, and how COLL combines contributions.
Model choices: log 1, log 45, log 46. -/
def Obligations.JobSteps : Prop :=
  (∀ (s : State) (n : Nat) (j : Job), s.job? n = some j →
    (s.jobReady j = true → (∀ i ∈ s.jobs, s.jobReady i = true → i.die = j.die → i.kind.engine = j.kind.engine → i = j) →
      ∃ t, exec (.jobStart n) s = .next t ∧ t = { s with jobs := t.jobs } ∧ t.job? n = some { j with phase := .started, moved := s.time }) ∧
    (∀ hs a w, j.kind = .send hs a w → j.phase = .remote → n < 2 ^ 32 →
      exec (.sendReportArrive n .visible) s = .next (s.endJob j)) ∧
    (∀ op hd hs k g elems, j.kind = .coll op hd hs k g → j.phase = .remote →
      exec (.collResultArrive n (.complete elems)) s = .next (s.setJob { j with
        parts := [(0, elems)], got := (0, 1), phase := .started, moved := s.time })) ∧
    (∀ c k, s.owner j = .here c k → j.silent = false →
      (s.endJob j).ctx c k = ({ s.ctx c k with reserved := (s.ctx c k).reserved - 1 } : Context).pushEvent (j.record 0 0)) ∧
    /- A started job that has done nothing yet, on the PAD of core c. -/
    (∀ c : Nat, j.phase = .started → j.padCore = c → j.pos = 0 → j.got = (0, 0) → j.replaced = false → j.late = none → s.poison = [] →
      /- R345: CPY of `len` bytes from the source's cursor to the destination's; the ranges do not meet. -/
      (∀ hd hs len src dst, j.kind = .cpy hd hs len → src = hBase hs + (hCursor hs).toNat → dst = hBase hd + (hCursor hd).toNat →
        InPad s hs c src len → InPad s hd c dst len → src + len ≤ dst ∨ dst + len ≤ src →
        ∃ t, PadWritten s t c (fun a => if dst ≤ a ∧ a < dst + len then s.padByte c (src + (a - dst)) else s.padByte c a) ∧
          exec (.jobComplete n) s = .next (t.endJob { j with pos := len, got := (len, 0) })) ∧
      /- R345, R382: XDUC runs the nibbles of `len` bytes, the low one of each first, through its table, and writes what it
         emits; the record tells the bytes, the state and how it ended. -/
      (∀ hd hs len init slot out q ending p, j.kind = .xduc hd hs len init slot → init.toNat % 2 ^ 14 < tableStates j.table →
        InPad s hs c (hBase hs) len →
        (out, q, ending) = transduce j.table ((List.range (2 * len)).map (fun i =>
          (s.padByte c (hBase hs + i / 2)).toNat / 16 ^ (i % 2) % 16)) (init.toNat % 2 ^ 14) →
        InPad s hd c (hBase hd) out.length → hBase hs + len ≤ hBase hd ∨ hBase hd + out.length ≤ hBase hs →
        p = (fun a => if hBase hd ≤ a ∧ a < hBase hd + out.length then out[a - hBase hd]?.getD 0 else s.padByte c a) →
        ∃ t i, PadWritten s t c p ∧ exec (.jobComplete n) s = .next (t.endJob i) ∧
          i = { j with pos := i.pos, got := i.got } ∧ i.detail = w64 (out.length % 2 ^ 32 + q * 2 ^ 32 + ending * 2 ^ 62)) ∧
      /- R345, R381: XTBL reads its header and its states, and takes the table. -/
      (∀ slot hs states bs, j.kind = .xtbl slot hs → j.table = [] → hBase hs % 64 = 0 → 1 ≤ states → states ≤ 16384 →
        InPad s hs c (hBase hs) (64 + 64 * states) →
        bs = (List.range (64 + 64 * states)).map (fun i => s.padByte c (hBase hs + i)) →
        leNat (bs.take 4) = states → (∀ b ∈ (bs.drop 4).take 60, b = 0) →
        (∀ i < 16 * states, ∀ w, w = leNat ((bs.drop (64 + 4 * i)).take 4) →
          w < 2 ^ 26 ∧ w / 2 ^ 14 % 4 = 0 ∧ (w / 2 ^ 24 % 4 = 1 ∨ w / 2 ^ 16 % 256 = 0) ∧ w % 2 ^ 14 < states) →
        exec (.jobComplete n) s = .next (s.endJob { j with pos := 1 + states, table := bs })) ∧
      /- R345: SEND hands its bytes to a die of the module, or to the fabric. -/
      (∀ hs addr w bs, j.kind = .send hs addr w → j.table = [] → hBase hs % 64 = 0 → hBound hs % 64 = 0 → addr.toNat % 64 = 0 →
        hBound hs ≤ 2 ^ 24 → s.waybillOk w engMemory = true → InPad s hs c (hBase hs) (hBound hs) →
        bs = (List.range (hBound hs)).map (fun i => s.padByte c (hBase hs + i)) →
        (∀ t, wbHops w = 0 → s.serve (wbCore w / 256) (.write addr bs) = .report .visible t →
          exec (.jobComplete n) s = .next (t.endJob { j with pos := hBound hs / 64, table := bs })) ∧
        (wbHops w ≠ 0 → s.downLink w = none → exec (.jobComplete n) s = .next
          ((s.emit (.packet j.id w addr bs)).setJob { j with pos := hBound hs / 64, table := bs, phase := .remote, moved := s.time }))) ∧
      /- R345: RECV from a die of the module writes the bytes that it is given; from another it asks for them. -/
      (∀ hd addr w, j.kind = .recv hd addr w → hBase hd % 64 = 0 → hBound hd % 64 = 0 → addr.toNat % 64 = 0 →
        hBound hd ≤ 2 ^ 24 → s.waybillOk w engMemory = true →
        (∀ t bs, wbHops w = 0 → s.serve (wbCore w / 256) (.read addr (hBound hd) j.id) = .report (.data bs) t → t.poison = [] →
          bs.length = hBound hd → InPad t hd c (hBase hd) (hBound hd) →
          ∃ u, PadWritten t u c (fun a => if hBase hd ≤ a ∧ a < hBase hd + hBound hd then bs[a - hBase hd]?.getD 0 else t.padByte c a) ∧
            exec (.jobComplete n) s = .next (u.endJob { j with table := bs, pos := hBound hd / 64, got := (1, 0) })) ∧
        (wbHops w ≠ 0 → s.downLink w = none → exec (.jobComplete n) s = .next
          ((s.emit (.fetch j.id w addr (hBound hd))).setJob { j with got := (1, 0), phase := .remote, moved := s.time }))))) ∧
  /- R345, R381: the table of an XTBL that ends stands in its slot. -/
  (∀ (s : State) (j : Job) (slot : BitVec 3) (hs : HandleWord), j.kind = .xtbl slot hs →
    ((s.jobEffect j).die j.die.toNat).slots[slot.toNat]'slot.isLt = j.table) ∧
  /- R345: COLL combines the members' contributions element by element in ascending rank, in whatever order they came. -/
  (∀ (op : CollOp) (e : Elt) (parts perm : List (Nat × List Word)), parts.Perm perm → (parts.map (fun p => p.1)).Nodup →
    combineParts op e perm = combineParts op e parts) ∧
  (∀ (op : CollOp) (e : Elt) (r : Nat) (v : List Word) (rest : List (Nat × List Word)),
    ((r, v) :: rest).Pairwise (fun a b => a.1 < b.1) →
    combineParts op e ((r, v) :: rest) = rest.foldl (fun acc p => (acc.zip p.2).map (fun a => collCombine op e a.1 a.2.toNat))
      (v.map (fun a => a.toNat)))

/-- LRMAP refuses with its code, or takes the new map and starts the drain, which begins and ends; a recall takes a
sector out of the stash. Model choices: log 32, log 33, log 34, log 83, log 85. -/
def Obligations.LodgeMap : Prop :=
  /- R203, R204, R206: LRMAP refuses with the first of its codes that holds, in the order 8, 6, 2, 7, 1, 4, 5, 3, in
     xd and no other effect; the request for the present map completes with 0; another one takes the new map at once,
     starts the drain, and xd receives the drain bound, with two cycles for each dirty sector of a departing way and
     1,024 for each bank saved, in its high half above zeros. One that saves checks xb, then every page of the save area,
     and leaves one copy job that will write it; a save area past 2^57 faults XLATE (log 85). -/
  (∀ (s : State) (d a b : XReg) (reg mat pad : Disp) (req n : Nat) (old new : Rooms) (refused : Nat → Prop),
    req = (s.x a).toNat → old = s.here.rooms →
    new = { reg := req % 2 ^ 8, cache := req / 2 ^ 8 % 2 ^ 8, matrix := req / 2 ^ 16 % 2 ^ 8, spill := req / 2 ^ 24 % 2 ^ 8,
            pad := s.here.goodCount - (req % 2 ^ 8 + req / 2 ^ 8 % 2 ^ 8 + req / 2 ^ 16 % 2 ^ 8 + req / 2 ^ 24 % 2 ^ 8) } →
    n = 65536 * ((if reg = .save ∧ new.reg ≠ old.reg then old.reg else 0) +
      (if mat = .save ∧ new.matrix ≠ old.matrix then old.matrix else 0) + (if pad = .save then old.pad - new.pad else 0)) →
    (refused 8 ↔ s.here.drain ≠ none) →
    (refused 6 ↔ 2 ^ 32 ≤ req ∨ (new.reg ≠ 0 ∧ new.reg ≠ 8 ∧ new.reg ≠ 16) ∨ 32 < new.cache ∨ new.matrix % 2 ≠ 0 ∨
      16 < new.matrix ∨ s.me.splim.toNat < 32768 * new.spill) →
    (refused 2 ↔ new.cache < 12 ∨ new.spill = 0 ∨
      ∃ l, s.ctxLaunch s.cur s.myK = some l ∧ new.spill < l.req.rooms.toNat / 2 ^ 24 % 2 ^ 8) →
    (refused 7 ↔ s.here.goodCount < new.reg + new.cache + new.matrix + new.spill) →
    (refused 1 ↔ new.matrix ≠ old.matrix ∧ (s.holdsArray s.cur = true ∨ s.mtxPending s.cur = true)) →
    (refused 4 ↔ new.pad < old.pad ∧ ((∃ m ∈ s.here.stash, 65536 * new.pad ≤ 4096 * m.seg) ∨
      s.jobNamesPad s.cur (65536 * new.pad) (65536 * old.pad) = true)) →
    (refused 5 ↔ ∃ k, ((s.here.ctx k).mode ≠ .free ∧ ((32768 * min old.spill new.spill : Nat) : Int) <
      ((s.here.ctx k).spovf.toNat : Int) + (s.here.ctx k).splim.toNat - ((s.here.ctx k).rx 62).toNat)) →
    (refused 3 ↔ (new.reg ≠ old.reg ∧ (reg = .none ∨ ((s.here.ctx (!s.myK)).mode ≠ .free ∧ (s.here.ctx (!s.myK)).issued = true))) ∨
      (new.matrix ≠ old.matrix ∧ mat = .none) ∨ (new.pad < old.pad ∧ pad = .none)) →
    (∀ k before, (k, before) ∈ [(8, []), (6, [8]), (2, [8, 6]), (7, [8, 6, 2]), (1, [8, 6, 2, 7]), (4, [8, 6, 2, 7, 1]),
        (5, [8, 6, 2, 7, 1, 4]), (3, [8, 6, 2, 7, 1, 4, 5])] →
      refused k → (∀ j ∈ before, ¬ refused j) →
      ∃ t, exec (.lrmap d a b reg mat pad) s = .next t ∧ WritesX s t d (w64 k) 8) ∧
    ((∀ k ∈ [8, 6, 2, 7, 1, 4, 5, 3], ¬ refused k) →
      (new = old → ∃ t, exec (.lrmap d a b reg mat pad) s = .next t ∧ WritesX s t d 0 8) ∧
      (new ≠ old → 0 < n → (s.x b).toNat % 4096 ≠ 0 → exec (.lrmap d a b reg mat pad) s = .next (s.fault (misalign (s.x b)))) ∧
      (new ≠ old → 0 < n → (s.x b).toNat % 4096 = 0 → 2 ^ 57 < (s.x b).toNat + n →
        exec (.lrmap d a b reg mat pad) s = .next (s.fault (xlate 2 (s.x b).toNat))) ∧
      (new ≠ old →
        (0 < n → (s.x b).toNat % 4096 = 0 ∧ (s.x b).toNat + n ≤ 2 ^ 57 ∧
          ((s.jobs.filter (fun j => j.die.toNat == dieOf s.cur && j.kind.engine == .copy)).length < 256) ∧
          ∀ i < ((s.x b).toNat + n - 1) / 65536 - (s.x b).toNat / 65536 + 1,
            ∃ p, Ordinary s (max (s.x b).toNat (((s.x b).toNat / 65536 + i) * 65536)) 1 true p) →
        ∃ t v dr, exec (.lrmap d a b reg mat pad) s = .next t ∧ (∀ r, t.x r = if r = d ∧ d ≠ 0 then v else s.x r) ∧
          v.toNat % 2 ^ 32 = 0 ∧ v.toNat / 2 ^ 32 = (64 + 512 * banksChanging old new +
            (if new.cache < old.cache then 2 * s.here.dirtyIn (s.here.departing new .cache) else 0) + 1024 * (n / 65536)) % 2 ^ 32 ∧
          t.me.pc = s.me.pc + 8 ∧ t.here.rooms = new ∧ t.here.drain = some dr ∧ dr.old = old ∧ dr.begun = false ∧
          (n = 0 → dr.save = none ∧ t.jobs = s.jobs) ∧
          (0 < n → dr.save = some s.nextId ∧ t.nextId = s.nextId + 1 ∧ ∃ j, t.jobs = s.jobs ++ [j] ∧ j.id = s.nextId ∧
            j.kind = .save (s.x b).toNat [] ∧ j.phase = .waiting ∧ j.core = s.cur ∧ j.context = s.myK ∧ j.reads = [] ∧
            j.writes = [{ padOf := none, lo := (s.x b).toNat, hi := (s.x b).toNat + n }]) ∧
          (∀ c, c ≠ s.cur → t.core c = s.core c) ∧ SameBytes s t))) ∧
  /- R197, R204 to R206: the drain begins once every earlier entry that touches a changing room has completed, and ends
     with the contexts as they were, ROTB kept when H falls (log 83), and the rows kept where REG did not change; a recall
     of an address that the core's stash does not hold changes nothing. -/
  (∀ (s : State) (c : CoreNo) (va : Word) (d : Drain),
    ((s.core c.toNat).drain = some d → s.drainReady c.toNat = true →
      ∃ t, exec (.lrmapDrainBegin c) s = .next t ∧ (t.core c.toNat).drain = some { d with begun := true } ∧
        (t.core c.toNat).rooms = (s.core c.toNat).rooms ∧ (∀ n, n ≠ c.toNat → t.core n = s.core n) ∧ SameBytes s t) ∧
    ((s.core c.toNat).drain = some d → d.begun = true →
      ∃ t, exec (.lrmapDrainEnd c) s = .next t ∧ (t.core c.toNat).drain = none ∧
        (t.core c.toNat).rooms = (s.core c.toNat).rooms ∧
        (t.core c.toNat).c0 = { (s.core c.toNat).c0 with voids := (t.core c.toNat).c0.voids } ∧
        (t.core c.toNat).c1 = { (s.core c.toNat).c1 with voids := (t.core c.toNat).c1.voids } ∧
        (d.old.reg = (s.core c.toNat).rooms.reg → (t.core c.toNat).rows = (s.core c.toNat).rows ∧
          (t.core c.toNat).c0 = (s.core c.toNat).c0 ∧ (t.core c.toNat).c1 = (s.core c.toNat).c1) ∧
        (∀ n, n ≠ c.toNat → t.core n = s.core n) ∧ SameBytes s t) ∧
    ((s.core c.toNat).stashAt va.toNat = none → exec (.stashRecall c va) s = .next s) ∧
    (∀ m, (s.core c.toNat).stashAt va.toNat = some m → m.dirty = 0 →
      (∀ n ∈ (s.core c.toNat).stash, n.seg = m.seg → n = m) →
      ∃ t n, exec (.stashRecall c va) s = .next t ∧ (t.core c.toNat).stashAt va.toNat = some n ∧ n.seg = m.seg ∧ n.va = m.va ∧
        (∀ i < 64, n.filled.getLsbD i = (m.filled.getLsbD i && decide (i ≠ va.toNat % 4096 / 64))) ∧
        (t.core c.toNat).c0 = (s.core c.toNat).c0 ∧ (t.core c.toNat).c1 = (s.core c.toNat).c1 ∧ SameBytes s t))

/-- LRQRY, LFLUSH, LSTASH and LUNSTASH answer as the Lodge stands. Model choices: log 32, log 34. -/
def Obligations.LodgeQueries : Prop :=
  /- R207: LRQRY writes the room's banks in bits 7–0 and its use above them, and changes nothing else. -/
  (∀ (s : State) (d : XReg) (room : Room), s.here.rooms.size room < 256 →
    ∃ t v, exec (.lrqry d room) s = .next t ∧ WritesX s t d v 8 ∧
      v.toNat % 2 ^ 8 = s.here.rooms.size room ∧
      (room = .reg → v.toNat / 2 ^ 8 % 2 ^ 24 = s.here.h % 2 ^ 24 ∧ v.toNat / 2 ^ 32 = 0) ∧
      (room = .pad → v.toNat / 2 ^ 8 % 2 ^ 24 = s.here.stash.length % 2 ^ 24) ∧
      (room = .cache → v.toNat / 2 ^ 8 % 2 ^ 24 = s.here.dirtyIn (List.range 48) % 2 ^ 24 ∧
        v.toNat / 2 ^ 32 = s.here.cache.length % 2 ^ 32) ∧
      (room = .matrix → v.toNat / 2 ^ 8 % 2 ^ 24 = 4096 * s.here.rooms.matrix % 2 ^ 24 ∧
        v.toNat / 2 ^ 32 = if s.holdsArray s.cur then 1 else 0) ∧
      (room = .spill → (v.toNat / 2 ^ 8 % 2 ^ 24 : Int) = s.me.spillUsed % 2 ^ 24 ∧
        (v.toNat / 2 ^ 32 : Int) = (s.here.ctx (!s.myK)).spillUsed % 2 ^ 32)) ∧
  /- R205, R208, R209: LFLUSH with no stash mapping on the core waits for the context's accesses and then only cleans
     lines of the cache room, and with INVAL takes them away, all of them where xb is 0; it faults BOUNDS past 2^57.
     LSTASH and LUNSTASH answer their codes, and on 0 the mapping begins, or ends; a drain that changes PAD holds
     them. -/
  (∀ (s : State) (d a b : XReg) (inval : Bool) (xa xb : Nat) (bad : Prop), xa = (s.x a).toNat → xb = (s.x b).toNat →
    (bad ↔ xa % 4096 ≠ 0 ∨ 65536 * s.here.rooms.pad ≤ xa ∨ xb % 4096 ≠ 0 ∨ 2 ^ 57 ≤ xb) →
    (xa + xb ≤ 2 ^ 57 → s.released = true → s.lodgeHeld true = false → s.here.stash = [] →
      ∃ t cs, exec (.lflush a b inval) s = .next t ∧
        Retires (s.setHere { s.here with cache := cs }) t s.me (s.me.pc + 8) ∧
        (∀ l ∈ cs, ∃ m ∈ s.here.cache, l = m ∨ (inval = false ∧ l = { m with dirty := 0 })) ∧
        (xb = 0 → (∀ l ∈ cs, l.dirty = 0) ∧ (inval = true → cs = []))) ∧
    (2 ^ 57 < xa + xb → exec (.lflush a b inval) s = .next (s.fault (bounds (s.x a)))) ∧
    (s.lodgeHeld false = true → exec (.lstash d a b) s = .next (s.holdOn (.lstash d a b) noDeadline) ∧
      exec (.lunstash d a) s = .next (s.holdOn (.lunstash d a) noDeadline)) ∧
    (s.lodgeHeld false = false →
    (bad → ∃ t, exec (.lstash d a b) s = .next t ∧ WritesX s t d 4 8) ∧
    (¬ bad → (∃ m ∈ s.here.stash, m.seg = xa / 4096) → ∃ t, exec (.lstash d a b) s = .next t ∧ WritesX s t d 1 8) ∧
    (¬ bad → (∀ m ∈ s.here.stash, m.seg ≠ xa / 4096) → (∃ m ∈ s.here.stash, m.va = xb) →
      ∃ t, exec (.lstash d a b) s = .next t ∧ WritesX s t d 2 8) ∧
    (¬ bad → (∀ m ∈ s.here.stash, m.seg ≠ xa / 4096 ∧ m.va ≠ xb) → 64 ≤ s.here.stash.length →
      ∃ t, exec (.lstash d a b) s = .next t ∧ WritesX s t d 3 8) ∧
    (¬ bad → (∀ m ∈ s.here.stash, m.seg ≠ xa / 4096 ∧ m.va ≠ xb) → s.here.stash.length < 64 → s.segmentFree s.cur (xa / 4096) = true →
      ∃ t, exec (.lstash d a b) s = .next t ∧ WritesX (s.setHere { s.here with
        stash := s.here.stash ++ [{ seg := xa / 4096, va := xb, context := s.myK, filled := 0, dirty := 0 }] }) t d 0 8) ∧
    (xa % 4096 ≠ 0 ∨ 65536 * s.here.rooms.pad ≤ xa → ∃ t, exec (.lunstash d a) s = .next t ∧ WritesX s t d 4 8) ∧
    (xa % 4096 = 0 → xa < 65536 * s.here.rooms.pad → (∀ m ∈ s.here.stash, m.seg ≠ xa / 4096) →
      ∃ t, exec (.lunstash d a) s = .next t ∧ WritesX s t d 1 8) ∧
    (xa % 4096 = 0 → xa < 65536 * s.here.rooms.pad → ∀ m ∈ s.here.stash, m.seg = xa / 4096 → m.dirty = 0 →
      (∀ n ∈ s.here.stash, n.seg = xa / 4096 → n = m) → s.segmentFree s.cur (xa / 4096) = true →
      ∃ t, exec (.lunstash d a) s = .next t ∧ t.here.stash = s.here.stash.filter (fun n => n.seg != xa / 4096) ∧
        (∀ r, t.x r = if r = d ∧ d ≠ 0 then 0 else s.x r) ∧ t.me.pc = s.me.pc + 8 ∧ (∀ c, c ≠ s.cur → t.core c = s.core c) ∧
        SameBytes s t)))

/-- RTYPE, JOIN and RMARK answer as the regions and children stand; what a merge makes of one unit. Model choices:
log 51, log 72. -/
def Obligations.RevisionQueries : Prop :=
  /- R273: RTYPE writes the region's merge type, element type and number, or 0xFF0000 outside the regions, and changes
     nothing else. -/
  (∀ (s : State) (d a : XReg),
    (∀ n r, regionAt (s.taskRegions s.me.task) (s.x a).toNat = some (n, r) → n < 2 ^ 8 → r.merge < 2 ^ 8 → r.elem < 2 ^ 8 →
      GivesX (.rtype d a) s d 8 (fun v => v.toNat = r.merge + r.elem * 2 ^ 8 + n * 2 ^ 16)) ∧
    (regionAt (s.taskRegions s.me.task) (s.x a).toNat = none → GivesX (.rtype d a) s d 8 (fun v => v = 0xFF0000))) ∧
  /- R271, R274: JOIN of an ordinal that names no unjoined child answers 1, and waits while a child that is due has
     not ended; RMARK faults MISALIGN where its base or size is no multiple of 64, answers 1 where the range is not in
     one revisioned region, and 0 for a range of no bytes inside one. -/
  (∀ (s : State) (d a b : XReg),
    (s.forkReady = true → s.ctxTask s.cur s.myK = none → ∃ t, exec (.join d a) s = .next t ∧ WritesX s t d 1 8) ∧
    (∀ p, s.me.merge = none → s.forkReady = true → s.ctxTask s.cur s.myK = some p → (∀ u ∈ s.children p.id, u.ordinal ≠ (s.x a).toNat % 256) →
      ∃ t, exec (.join d a) s = .next t ∧ WritesX s t d 1 8) ∧
    (∀ p u v, s.me.merge = none → s.forkReady = true → s.ctxTask s.cur s.myK = some p → u ∈ s.children p.id → u.ordinal = (s.x a).toNat % 256 →
      v ∈ s.children p.id → v.ordinal ≤ u.ordinal → v.hasEnded = false →
      exec (.join d a) s = .next (s.holdOn (.join d a) noDeadline)) ∧
    (∀ p u, s.me.merge = none → s.me.stopping = false → (s.choose 2).1 = 0 → s.forkReady = true →
      s.ctxTask s.cur s.myK = some p → s.children p.id = [u] → s.task? u.id = some u →
      u.ordinal = (s.x a).toNat % 256 → u.phase = .ended false → u.rev = [] → u.anc = [] →
      ∃ t, exec (.join d a) s = .next t ∧
        WritesX { s with tasks := s.tasks.filter (fun v => v.id != u.id), choices := t.choices, tlb := t.tlb } t d 2 8) ∧
    ((s.x a).toNat % 64 ≠ 0 ∨ (s.x b).toNat % 64 ≠ 0 → exec (.rmark d a b) s = .next (s.fault (misalign (s.x a)))) ∧
    ((s.x a).toNat % 64 = 0 → (s.x b).toNat % 64 = 0 → s.inOneRegion (s.x a).toNat (s.x b).toNat = false →
      ∃ t, exec (.rmark d a b) s = .next t ∧ WritesX s t d 1 8) ∧
    (s.me.task.isSome = true → (s.x a).toNat % 65536 = 0 → s.x b = 0 → s.inOneRegion (s.x a).toNat 0 = true →
      s.rangeQuiet (globalRange (s.x a).toNat 0) = true → s.me.holdList = [] → s.here.stash = [] →
      ∃ t, exec (.rmark d a b) s = .next t ∧ WritesX s t d 0 8)) ∧
  /- R36, R271: JOIN of one child that has ended by EXIT merges its revision, frees the child and answers 0 where no
     unit conflicts. -/
  (∀ (s w : State) (d a : XReg) (p u : Task),
    s.me.merge = none → s.me.stopping = false → s.forkReady = true → s.ctxTask s.cur s.myK = some p → s.children p.id = [u] →
    s.task? u.id = some u → u.ordinal = (s.x a).toNat % 256 → u.phase = .ended true →
    (mergeAll s (viewTarget (s.joinView s.cur s.myK)) (s.taskRegions (some p.id)) u.anc u.rev).run s = .ok ([], w) →
    w.cur = s.cur → w.me = s.me → (w.choose 2).1 = 0 →
    ∃ t, exec (.join d a) s = .next t ∧ (∀ r, t.x r = if r = d ∧ d ≠ 0 then 0 else s.x r) ∧ t.me.pc = s.me.pc + 8 ∧
      (∀ v ∈ t.tasks, v.id ≠ u.id) ∧ t.mem = (w.dropTask u.id).mem ∧ t.hostMem = (w.dropTask u.id).hostMem) ∧
  /- R29: a unit that has not changed keeps the target's value; a changed one is kept out (1), conflicts unless the
     target is still the ancestor's (2), replaces it (3), is added (4), compared (5, 6) or combined bit by bit (7, 8). -/
  (∀ (r : Region) (x m c i w : Nat) (u : Bool),
    r.mergeUnit x m x = (m, false) ∧
    (c ≠ x →
      (r.merge = 1 → r.mergeUnit x m c = (m, false)) ∧
      (r.merge = 2 → r.mergeUnit x m c = (if m = x then c else m, decide (m ≠ x))) ∧
      (r.merge = 3 → r.mergeUnit x m c = (c, false)) ∧
      (r.merge = 4 → r.elt = Elt.int w u → r.sat = false → ((r.mergeUnit x m c).1 : Int) =
        (intVal u w m + (intVal u w c - intVal u w x)) % 2 ^ w) ∧
      (r.merge = 5 → r.elt = Elt.int w u → r.mergeUnit x m c = (if intVal u w m < intVal u w c then c else m, false)) ∧
      (r.merge = 6 → r.elt = Elt.int w u → r.mergeUnit x m c = (if intVal u w c < intVal u w m then c else m, false)) ∧
      (r.merge = 7 → x < 2 ^ 512 → (r.mergeUnit x m c).1.testBit i = (m.testBit i || (c.testBit i && !x.testBit i && decide (i < 512)))) ∧
      (r.merge = 8 → x < 2 ^ 512 → (r.mergeUnit x m c).1.testBit i = (m.testBit i && (c.testBit i || (!x.testBit i && decide (i < 512))))))) ∧
  /- R274: RMARK of a range of bytes within one page waits for what touches it; then the bytes of the task's revision
     become the ancestor's, or stay where the page is the ancestor's own, and xd receives 0. -/
  (∀ (s : State) (d a b : XReg) (id lo n : Nat) (p : Task), lo = (s.x a).toNat → n = (s.x b).toNat → lo % 64 = 0 → n % 64 = 0 →
    0 < n → n < 65536 → lo / 65536 = (lo + n - 1) / 65536 → s.inOneRegion lo n = true →
    s.me.task = some id → s.task? id = some p →
    (s.rangeQuiet (globalRange lo n) = false → exec (.rmark d a b) s = .next (s.holdOn (.rmark d a b) noDeadline)) ∧
    (s.rangeQuiet (globalRange lo n) = true → s.me.holdList = [] → s.here.stash = [] →
      (s.samePage p.anc p.rev (lo / 65536) = true → ∃ t, exec (.rmark d a b) s = .next t ∧ WritesX s t d 0 8) ∧
      (∀ w, s.samePage p.anc p.rev (lo / 65536) = false →
        (writeLong { s.myView with ctx := none, core := none } lo (s.imageLong p.anc lo n)).run s = .ok ((), w) →
        ∃ t, exec (.rmark d a b) s = .next t ∧ WritesX w t d 0 8)))

/-- R33, R34, R270: FORK by a task waits for its stores; it is refused with the reason in bits 15–8 of xd and no other
effect at 16 unjoined children, at depth 8, or over the budget; else the child takes the lowest ordinal that no
unjoined child holds, which xd receives, and starts at the target. Model choices: log 52. -/
def Obligations.ForkResults : Prop :=
  ∀ (s : State) (d : XReg) (off : BitVec 32) (p : Task) (l : Launch) (kids : List Task),
    s.ctxTask s.cur s.myK = some p → s.ctxLaunch s.cur s.myK = some l → kids = s.children p.id →
    (s.forkReady = false → exec (.fork d off) s = .next (s.holdOn (.fork d off) noDeadline)) ∧
    (s.forkReady = true → 16 ≤ kids.length → ∃ t, exec (.fork d off) s = .next t ∧ WritesX s t d 0x100 12) ∧
    (s.forkReady = true → kids.length < 16 → 8 ≤ p.depth → ∃ t, exec (.fork d off) s = .next t ∧ WritesX s t d 0x200 12) ∧
    (s.forkReady = true → kids.length < 16 → p.depth < 8 → l.req.budget < 65536 * s.ancestorPages l.id + 65536 →
      ∃ t, exec (.fork d off) s = .next t ∧ WritesX s t d 0x300 12) ∧
    (s.forkReady = true → kids.length < 16 → p.depth < 8 → 65536 * s.ancestorPages l.id + 65536 ≤ l.req.budget →
      s.here.stash = [] → s.fitting l.req.rooms p.die ≠ [] →
      ∃ t k u, exec (.fork d off) s = .next t ∧ 1 ≤ k ∧ k ≤ 16 ∧ (∀ v ∈ kids, v.ordinal ≠ k) ∧
        (∀ j, 1 ≤ j → j < k → ∃ v ∈ kids, v.ordinal = j) ∧
        (∀ r, t.x r = if r = d ∧ d ≠ 0 then w64 k else s.x r) ∧ t.me.pc = s.me.pc + 12 ∧
        u ∈ t.tasks ∧ u.parent = some p.id ∧ u.ordinal = k ∧ u.depth = p.depth + 1 ∧ u.launch = l.id ∧
        u.entry = BitVec.ofInt 64 (s.me.pc.toNat + off.toInt * 4) ∧ u.phase = .ready)

/-- R442 to R444, R453: a doorbell above the old one and within the queue's capacity is taken, a lower one ignored,
and one beyond the capacity stops the queue with cause 2; an entry whose tag has not come in the 2,000 ticks after the
doorbell that announced it, or after a restart, stops it with cause 1, and not before; a restart clears the stop; the
end of the clock lock sets every die's clock to 1.8 GHz. Model choices: log 58, log 67. -/
def Obligations.LaunchQueues : Prop :=
  ∀ (s : State) (d : DieNo) (c : BitVec 3) (v : Word) (q : LaunchQueue) (j : Nat), q = (s.die d.toNat).queue c →
    (s.modState ≠ .reset → q.stopped = false → 4 ≤ j → j ≤ 16 → q.capacity.toNat = 2 ^ j →
      (v.toNat ≤ q.doorbell.toNat → exec (.doorbell d c v) s = .next s) ∧
      (q.doorbell.toNat < v.toNat → v.toNat ≤ q.head.toNat + 2 ^ j →
        ∃ b, exec (.doorbell d c v) s = .next (s.setQueueReg d c
            { q with doorbell := v, bells := (v, s.time) :: q.bells, misread := b }) ∧
          b = (if q.head = q.doorbell then !q.tagOk (s.queueEntry q) else q.misread)) ∧
      (q.doorbell.toNat < v.toNat → q.head.toNat + 2 ^ j < v.toNat →
        ∃ t, exec (.doorbell d c v) s = .next t ∧ t = { s with dies := t.dies } ∧
          (t.die d.toNat).queue c = { q with stopped := true, cause := 2, expected := BitVec.ofNat 32 (q.head.toNat + 1) }) ∧
      (∀ b rest, q.bells.filter (fun b => q.head.toNat < b.1.toNat) = rest ++ [b] → q.head.toNat < q.doorbell.toNat →
        (q.misread = true ∨ q.tagOk (s.queueEntry q) = false) →
        (b.2.toNat + 2000 ≤ s.time.toNat → q.since.toNat + 2000 ≤ s.time.toNat →
          ∃ t, exec (.notifyTimeout d c) s = .next t ∧ t = { s with dies := t.dies } ∧
            (t.die d.toNat).queue c = { q with stopped := true, cause := 1, expected := BitVec.ofNat 32 (q.head.toNat + 1) }) ∧
        ((s.time.toNat < b.2.toNat + 2000 ∨ s.time.toNat < q.since.toNat + 2000) →
          exec (.notifyTimeout d c) s = .next s))) ∧
    (∃ t b, exec (.launchQueueRestart d c) s = .next t ∧ t = { s with dies := t.dies } ∧
      (t.die d.toNat).queue c = { q with stopped := false, cause := 0, expected := 0, since := s.time, misread := b }) ∧
    (s.locking = true → ∃ t, exec .clockLockComplete s = .next t ∧
      t = { s with locking := false, clocksLocked := true, dies := t.dies } ∧ ∀ n < 4, (t.die n).clock = 18)

/-- R12, R17, R25, R443, R444: an entry whose record and tables are read and legal, on an ONLINE module with a task
root and a core whose banks fit, becomes a launch: it waits for the first multiple of its quantum after its acceptance,
with the record's fields and the tables as read, and the head of the queue advances. Model choices: log 56. -/
def Obligations.LaunchAccepted : Prop :=
  ∀ (s t u : State) (d : DieNo) (c : BitVec 3) (q : LaunchQueue) (e b : List Byte) (r : LaunchRec) (tb : Tables),
    q = (s.die d.toNat).queue c → e = s.queueEntry q → s.entryDue q = true → q.tagOk e = true →
    (q.misread = false ∨ s.time.toNat ≤ q.limit) →
    (readLong (dispatchView d.toNat) (fieldAt e 8 8) 128).run s = .ok (b, t) → Touches s t → r = parseLaunch b →
    (readTables d.toNat b).run (t.readTag d c q.consumed) = .ok (some tb, u) → Touches (t.readTag d c q.consumed) u →
    s.modState = .online → r.cls = c.toNat → (∀ x ∈ e.drop 0x10, x = 0) → recordLegal (fieldAt e 8 8) b r = true →
    s.taskRoot.getLsbD 0 = true → (∃ n < 1024, requestBanks r.rooms ≤ (s.core n).goodBanks) →
    superstepsOf tb.levels ≠ 0 → gridSize tb.levels ≠ 0 →
    ∃ w l, exec (.launchEntryConsume d c) s = .next w ∧ w.launches = s.launches ++ [l] ∧ l.id = s.nextId ∧
      w.nextId = s.nextId + 1 ∧ l.die = d ∧ l.cls = c ∧ l.req = r ∧ l.levels = tb.levels ∧ l.regions = tb.regions ∧ l.args = tb.args ∧
      l.phase = .waiting ∧ l.start = s.time ∧ l.completed = 0 ∧ l.faulted = 0 ∧
      l.ts.toNat = ((s.time.toNat + 1 + 2 ^ quantumOf tb.levels - 1) / 2 ^ quantumOf tb.levels * 2 ^ quantumOf tb.levels) % 2 ^ 64 ∧
      ((w.die d.toNat).queue c).head = q.head + 1 ∧ w.tasks = s.tasks ∧
      ∀ n, w.core n = { s.core n with cache := (w.core n).cache, perf := (w.core n).perf }

/-- A superstep starts with the tasks of its grid ready, and joins at its barrier. Model choices: log 51. -/
def Obligations.Supersteps : Prop :=
  /- R16, R18, R23, R25: at its time a waiting launch's superstep starts: where every die has a core whose banks fit,
     the tasks of the grid become ready in ascending index, with the launch's code address and arguments, and the
     launch computes. -/
  (∀ (s : State) (n : Nat) (l : Launch), s.launch? n = some l → l.phase = .waiting → l.ts.toNat ≤ s.time.toNat →
    (∀ d, s.fitting l.req.rooms d ≠ []) →
    ∃ t new, exec (.superstepStart n) s = .next t ∧ t = { s with tasks := t.tasks, launches := t.launches, nextId := t.nextId } ∧
      t.launch? n = some { l with phase := .computing } ∧ t.tasks = s.tasks ++ new ∧ new.length = gridSize l.levels ∧
      t.nextId = s.nextId + gridSize l.levels ∧
      ∀ i u, new[i]? = some u → u.word = w64 i ∧ u.id = s.nextId + i ∧ u.launch = n ∧ u.step = l.step ∧ u.entry = l.req.code ∧
        u.args = l.args ∧ u.phase = .ready ∧ u.parent = none ∧ u.depth = 0) ∧
  /- R25, R32, R44: at the barrier, with every task ended, no revision to fold and no job of a killed task left, the
     tasks of the superstep are gone, and at most translations through their revisions with them; with supersteps left,
     the launch waits for the next multiple of its quantum. -/
  (∀ (s : State) (n : Nat) (l : Launch), s.launch? n = some l → s.barrier l = true →
    (∀ t ∈ s.tasks, t.launch = l.id → t.keeps = false ∧ t.rev = [] ∧ t.anc = [] ∧ s.hasJobs t.id = false) →
    l.step + 1 < superstepsOf l.levels →
    ∃ t, exec (.superstepJoin n) s = .next t ∧
      t = { s with
        tlb := t.tlb, tasks := s.tasks.filter (fun t => t.launch != l.id),
        launches := s.launches.map (fun u => if u.id == l.id then { l with
          step := l.step + 1, steps := l.steps + 1, phase := .waiting,
          ts := w64 (nextMultiple s.time.toNat (quantumOf l.levels)) } else u) } ∧
      ∀ e, e ∈ t.tlb → e ∈ s.tlb) ∧
  /- R25, R43: the barrier asks for every task of the launch to have ended, and for nothing of the jobs that killed ones
     have left. -/
  (∀ (s : State) (l : Launch), s.barrier l = true ↔ l.phase = .computing ∧ ∀ t ∈ s.tasks, t.launch = l.id → t.hasEnded = true)

/-- R18, R20, R21, R144: DISPATCH of a ready task to a context that may take it: the context starts at the task's entry
with its arguments in x40 to x47, its stack in x62, its loop counters, STATUS holding its number and the launch's DET
alone, every other x register, every h register, every predicate but p0, which reads as all ones, and ROTB zero; the
other context and the other cores stay, and no byte of memory changes. Model choices: log 53. -/
def Obligations.DispatchStarts : Prop :=
  ∀ (s : State) (n : Nat) (c : CoreNo) (k : Bool) (t : Task) (l : Launch),
    s.task? n = some t → s.launch? t.launch = some l → t.phase = .ready → s.dispatchable t c.toNat k = true →
    ∃ u, exec (.dispatch n c k) s = .next u ∧ (u.ctx c.toNat k).mode = .live ∧ (u.ctx c.toNat k).task = some n ∧
      (u.ctx c.toNat k).pc = t.entry ∧
      (u.ctx c.toNat k).status = (if k then 0x8000 else 0) ||| (if l.req.det then 0x2000 else 0) ∧
      (∀ i : Fin 8, (u.ctx c.toNat k).rx (BitVec.ofNat 6 (40 + i.val)) = t.args[i]) ∧
      (u.ctx c.toNat k).rx 62 = w64 (l.sliceAt (l.freeSlice.getD 0) + saveBytes l.req.rooms + (l.req.overflow - saveBytes l.req.rooms)) ∧
      (∀ r : XReg, (r.toNat < 40 ∨ 48 ≤ r.toNat) → r ≠ 62 → (u.ctx c.toNat k).rx r = 0) ∧
      (∀ r : HReg, (u.ctx c.toNat k).rh r = 0) ∧
      (∀ r : PReg, r.toNat < 96 → (u.ctx c.toNat k).rp r = if r = 0 then BitVec.allOnes 256 else 0) ∧
      (u.ctx c.toNat k).rotb = 0 ∧
      (u.ctx c.toNat k).loopc = loopCounters l.levels t.step (taskIndex t.word) ∧
      (u.core c.toNat).launch = some l.id ∧ (u.core c.toNat).running = true ∧
      u.ctx c.toNat (!k) = s.ctx c.toNat (!k) ∧ (∀ m, m ≠ c.toNat → u.core m = s.core m) ∧ SameBytes s u

/-- Aging and pre-emption by the dispatcher; contexts freed; the power limit of deterministic tasks. Model choices:
log 49, log 53, log 55, log 70. -/
def Obligations.DispatcherAndEnd : Prop :=
  /- R357 to R359, R361, R363: a task that has waited 65,536 ticks for each class that it has aged by, and one more,
     ages by a class; a core that the dispatcher pre-empts for one that has found no free context for 2^14 ticks stops,
     and is saved whole, at once where everything that it has started is complete. -/
  (∀ (s : State) (n : Nat) (c : CoreNo) (t : Task) (l : Launch), s.task? n = some t → s.launch? t.launch = some l → t.waits = true →
    (l.req.cls + t.age < 7 → t.since.toNat + 65536 * (t.age + 1) ≤ s.time.toNat →
      exec (.taskClassAge n) s = .next (s.setTask { t with age := t.age + 1 })) ∧
    (∀ w m, t.crowded = some w → w.toNat + 16384 ≤ s.time.toNat → s.contextFree l t = false →
      s.bestVictim l t = some c.toNat → (s.ringTake (dieOf c.toNat) 3).isSome = true → s.preempting c.toNat = false →
      m = s.setCore c.toNat (s.core c.toNat).stopBoth →
      (m.savable c.toNat = false → exec (.dispatcherPreempt n c) s = .next m) ∧
      (∀ f u, m.savable c.toNat = true → m.preempting c.toNat = true → m.ringTake (dieOf c.toNat) 3 = some (f, u) →
        exec (.dispatcherPreempt n c) s = .next (u.preemptCore c.toNat f)))) ∧
  /- R20, R37, R41, R358: a context whose task has exited and whose issued work is done is freed, where no child is
     left and the core has no stash mapping: it is as after reset, and the core's other context runs if it holds a
     task. A die that draws more than 900 µJ in a window halts the deterministic tasks that it runs with DET_POWER. -/
  (∀ (s : State) (c : CoreNo) (k : Bool) (d : DieNo) (uj : Nat),
    (s.freeable c.toNat k = true → s.unjoined c.toNat k = [] → (s.core c.toNat).stash = [] →
      ∃ t, exec (.contextFree c k) s = .next t ∧
        t.ctx c.toNat k = { Context.reset with status := if k then 0x8000 else 0 } ∧
        t.ctx c.toNat (!k) = s.ctx c.toNat (!k) ∧
        ((s.core c.toNat).active = k → (t.core c.toNat).running = ((s.ctx c.toNat (!k)).mode != .free)) ∧
        (∀ n, n ≠ c.toNat → t.core n = s.core n) ∧ SameBytes s t) ∧
    (uj ≤ 900 → exec (.detPower d uj) s = .next s) ∧
    (900 < uj → s.detContexts d.toNat = [] → exec (.detPower d uj) s = .next s) ∧
    (∀ n j, 900 < uj → s.detContexts d.toNat = [(n, j)] → (s.ctx n j).supervisor = false → (s.ctx n j).mode = .live →
      ∃ t, exec (.detPower d uj) s = .next t ∧ t.ctx n j = { s.ctx n j with
          tcause := 0x0E, tval := w64 uj, epc := (s.ctx n j).pc, hold := none, mode := .halted } ∧
        t.ctx n (!j) = s.ctx n (!j) ∧ (∀ m, m ≠ n → t.core m = s.core m) ∧ SameBytes s t))

/-- R43, R212, R361, R362, R364: TASKCMD. A busy die ignores it; a command whose context is not in its required state
is refused with result 1; RESUME makes a halted context go on at EPC, or go on exiting, its halted entries with the
registers NF as they now stand; RESTART_PHASE cancels its phase and resumes it after the restart point; KILL frees
the context of a task without children; PREEMPT saves and frees one that has not issued EXIT and that no started entry or merge
holds, and stops one that some do, busy until then; RESTORE releases a held task; CANCEL ends the tasks of the core's launch. Model choices:
log 18, log 49, log 59, log 60, log 84. -/
def Obligations.TaskCommands : Prop :=
  ∀ (s : State) (d : DieNo) (c : CoreNo) (k : Bool) (x : Context) (word : Nat → Bool → Word), x = s.ctx c.toNat k →
    (∀ cmd bad, word cmd bad = w64 ((if bad then 2 ^ 20 else 0) + cmd * 2 ^ 16 + (if k then 2 ^ 10 else 0) + c.toNat)) →
    ((s.die d.toNat).taskcmd.getLsbD 63 = true →
      ∀ i ∈ [Instr.taskcmdResume d c k, .taskcmdRestartPhase d c k, .taskcmdKill d c k, .taskcmdPreempt d c k, .taskcmdRestore d c k,
        .taskcmdCancel d c k], exec i s = .next s) ∧
    ((s.die d.toNat).taskcmd.getLsbD 63 = false →
      (∀ i cmd, (i, cmd) ∈ [(Instr.taskcmdResume d c k, 1), (.taskcmdRestartPhase d c k, 2)] → x.mode ≠ .halted →
        exec i s = .next (s.setTaskcmd d (word cmd true))) ∧
      (∀ i cmd, (i, cmd) ∈ [(Instr.taskcmdKill d c k, 3), (.taskcmdPreempt d c k, 4)] → x.mode = .free →
        exec i s = .next (s.setTaskcmd d (word cmd true))) ∧
      (x.mode = .halted → exec (.taskcmdResume d c k) s = .next ((s.setCtx c.toNat k { x with
        mode := if x.exited then .exiting else .live, pc := x.epc, hold := none, stepDue := false,
        lq := x.lq.map (Entry.again (s.core c.toNat)), cq := x.cq.map (Entry.again (s.core c.toNat)),
        sq := x.sq.map (Entry.again (s.core c.toNat)) }).setTaskcmd d (word 1 false))) ∧
      (x.mode = .halted → x.mayCancel true = true →
        ∃ t, exec (.taskcmdRestartPhase d c k) s = .next t ∧ (t.die d.toNat).taskcmd = word 2 false ∧
          (t.ctx c.toNat k).mode = (if x.exited then .exiting else .live) ∧ (t.ctx c.toNat k).pc = x.restart + 4 ∧
          SameBytes s t) ∧
      (∀ t, x.task = some t.id → s.task? t.id = some t → t.phase = .placed c.toNat k → s.children t.id = [] →
        (s.core c.toNat).stash = [] → x.mode ≠ .free →
        ∃ u, exec (.taskcmdKill d c k) s = .next u ∧ (u.die d.toNat).taskcmd = word 3 false ∧
          u.ctx c.toNat k = { Context.reset with status := if k then 0x8000 else 0 } ∧ u.ctx c.toNat (!k) = s.ctx c.toNat (!k)) ∧
      (x.mode ≠ .free → x.exited = false → x.settled = true → s.mergeDone c.toNat k = true → x.task.isSome = true → (s.ctxTask c.toNat k).isSome = true →
        (s.ctxLaunch c.toNat k).isSome = true → s.heldTask c.toNat k = none →
        ∃ t, exec (.taskcmdPreempt d c k) s = .next t ∧ (t.die d.toNat).taskcmd = word 4 false ∧
          t.ctx c.toNat k = { Context.reset with status := if k then 0x8000 else 0 }) ∧
      (x.mode ≠ .free → x.task.isSome = true → s.heldTask c.toNat k = none →
        (x.exited = true ∨ x.settled = false ∨ s.mergeDone c.toNat k = false) →
        exec (.taskcmdPreempt d c k) s = .next ((s.setCtx c.toNat k
            (if x.exited then x else { x with stopping := true })).setTaskcmd d
          (w64 (2 ^ 63 + 4 * 2 ^ 16 + (if k then 2 ^ 10 else 0) + c.toNat)))) ∧
      (s.heldTask c.toNat k = none → exec (.taskcmdRestore d c k) s = .next (s.setTaskcmd d (word 5 true))) ∧
      (∀ t, s.heldTask c.toNat k = some t → exec (.taskcmdRestore d c k) s = .next ((s.releaseHeld t).setTaskcmd d (word 5 false))) ∧
      (s.coreLaunch c.toNat = none → exec (.taskcmdCancel d c k) s = .next (s.setTaskcmd d (word 6 true))) ∧
      (∀ l, s.coreLaunch c.toNat = some l → (s.cancelLaunch l.id).quietLaunch l.id = false →
        exec (.taskcmdCancel d c k) s = .next ((s.cancelLaunch l.id).setTaskcmd d (word 6 false))))

/-- R228, R229: TXCMD drops every translation that maps a page of its range, or every one whose G bit is clear, and is busy until
TXCMD_COMPLETE; with RESUME, its range is then due, and TXCMD_RESUME makes the jobs parked in it go on. Model choices:
log 25, log 61. -/
def Obligations.TranslationCommands : Prop :=
  ∀ (s : State) (d : DieNo) (resume : Bool) (size : BitVec 2) (page : BitVec 41) (n : Nat), size ≠ 3 →
    n = (if size = 0 then 1 else if size = 1 then 32 else 16384) →
    ((s.die d.toNat).txcmd.getLsbD 63 = true →
      exec (.txcmdDropPage d resume size page) s = .next s ∧ exec (.txcmdDropAll d resume) s = .next s) ∧
    ((s.die d.toNat).txcmd.getLsbD 63 = false →
      (∃ t, exec (.txcmdDropPage d resume size page) s = .next t ∧ t = { s with tlb := t.tlb, dies := t.dies } ∧
        (∀ e, e ∈ t.tlb ↔ e ∈ s.tlb ∧ (page.toNat / n * n + n ≤ e.page ∨
          e.page + levelBytes e.level / 65536 ≤ page.toNat / n * n)) ∧
        (t.die d.toNat).txcmd.getLsbD 63 = true ∧ (t.die d.toNat).txcmd.getLsbD 61 = resume) ∧
      (∃ t, exec (.txcmdDropAll d resume) s = .next t ∧ t = { s with tlb := t.tlb, dies := t.dies } ∧
        (∀ e, e ∈ t.tlb ↔ e ∈ s.tlb ∧ e.leaf.getLsbD 63 = true) ∧
        (t.die d.toNat).txcmd.getLsbD 63 = true ∧ (t.die d.toNat).txcmd.getLsbD 62 = true ∧
        (t.die d.toNat).txcmd.getLsbD 61 = resume)) ∧
    ((s.die d.toNat).txcmd.getLsbD 63 = true →
      ∃ t, exec (.txcmdComplete d) s = .next t ∧ t = { s with dies := t.dies, txResume := t.txResume } ∧
        (∀ i < 64, (t.die d.toNat).txcmd.getLsbD i = ((s.die d.toNat).txcmd.getLsbD i && decide (i ≠ 63))) ∧
        t.txResume = s.txResume ++ (if (s.die d.toNat).txcmd.getLsbD 61 then [txRange (s.die d.toNat).txcmd] else [])) ∧
    (∀ r rest, s.txResume = r :: rest → (∀ c ∈ s.cores, c.2.replay = []) →
      (∀ t ∈ s.tasks, ∀ v, t.phase = .saved v → v.parked = []) →
      ∃ t, exec (.txcmdResume d) s = .next t ∧ t.txResume = rest ∧ SameBytes s t ∧
        t.jobs = s.jobs.map (fun j => match j.phase with
          | .parked va => if r.1 ≤ va ∧ va < r.2 then { j with phase := .started, moved := s.time } else j
          | _ => j))

/-- R150, R151, R397, R442, R446, R452: what the supervisor's register writes write: the root registers' defined bits,
the task root only while no launch is accepted (a rejected one has no loop table), a write of the supervisor root dropping its translations; ARBMODE's
named fields, in force at once where the quad has no lease; DISABLED; the power limit from 1,500 to 3,600 W; the fault
queue's and the launch queues' registers. -/
def Obligations.RegisterWrites : Prop :=
  ∀ (s : State) (v : Word) (d : DieNo) (q : BitVec 6) (c : CoreNo) (b : Bool) (k : BitVec 3) (x : Die), x = s.die d.toNat →
    ((∀ l ∈ s.launches, l.levels = []) → exec (.taskRootWrite v) s = .next { s with taskRoot := v &&& 0x000FFFFFFFFE0001 }) ∧
    ((∃ l ∈ s.launches, l.levels ≠ []) → exec (.taskRootWrite v) s = .next s) ∧
    exec (.supervisorRootWrite v) s = .next { s with
      superRoot := v &&& 0x000FFFFFFFFE0001, tlb := s.tlb.filter (fun t => !t.supervisor) } ∧
    (∃ t, exec (.arbmodeWrite d q v) s = .next t ∧ t = { s with quads := t.quads } ∧
      (t.quad (64 * d.toNat + q.toNat)).arbRead = v &&& 0x1FFF003D ∧
      (∀ n, n ≠ 64 * d.toNat + q.toNat → t.quad n = s.quad n) ∧
      ((s.quad (64 * d.toNat + q.toNat)).lease = none → (s.quad (64 * d.toNat + q.toNat)).res0 = none →
        (s.quad (64 * d.toNat + q.toNat)).res1 = none → (t.quad (64 * d.toNat + q.toNat)).arbmode = v &&& 0x1FFF003D)) ∧
    exec (.coreDisable c b) s = .next (s.setCore c.toNat { s.core c.toNat with disabled := b }) ∧
    (1500 ≤ v.toNat % 2 ^ 16 → v.toNat % 2 ^ 16 ≤ 3600 →
      exec (.powerLimitWrite v) s = .next { s with powerLimit := w64 (v.toNat % 2 ^ 16) }) ∧
    (v.toNat % 2 ^ 16 < 1500 ∨ 3600 < v.toNat % 2 ^ 16 → exec (.powerLimitWrite v) s = .next s) ∧
    (∀ r y, (r, y) ∈ [(SupReg.fqBase, { x with fqBase := v }), (.fqCapacity, { x with fqCapacity := v }),
        (.fqHead, { x with fqHead := v }), (.accessSnapshot, { x with snapshot := v })] →
      exec (.registerWrite d r v) s = .next (s.setDie d.toNat y)) ∧
    (∃ t, exec (.registerWrite d (.lqBase k) v) s = .next t ∧ t = { s with dies := t.dies } ∧
      (t.die d.toNat).queue k = { x.queue k with base := v }) ∧
    (∃ t, exec (.registerWrite d (.lqCapacity k) v) s = .next t ∧ t = { s with dies := t.dies } ∧
      (t.die d.toNat).queue k = { x.queue k with capacity := v }) ∧
    (∃ t, exec (.registerWrite d (.lqMsi k) v) s = .next t ∧ t = { s with dies := t.dies } ∧
      (t.die d.toNat).queue k = { x.queue k with msi := v &&& 0xC0000000000007FF }) ∧
    exec (.registerWrite d .ignored v) s = .next s

/-- Fault records are written at the tail, wait or are dropped; WATCHDOG halts a stuck task. Model choices: log 14,
log 68. -/
def Obligations.FaultRecords : Prop :=
  /- R403 to R405: the oldest record that waits on a die is written at the queue's tail where there is room: its code,
     EPC, detail, time and sequence number stand in its 64 bytes, the tail and the sequence advance, and no other byte
     changes; with no room a halting record waits, and one that does not wait is dropped and counted. -/
  (∀ (s : State) (d : DieNo) (x : Die) (r : FaultRec) (rest : List FaultRec) (j a : Nat), x = s.die d.toNat →
    x.pending = r :: rest → r.launch = none → 6 ≤ j → x.fqCapacity.toNat = 2 ^ j →
    a = x.fqBase.toNat + 64 * (x.fqTail.toNat % 2 ^ j) →
    ((x.fqTail - x.fqHead).toNat < 2 ^ j →
      ∃ t, exec (.faultRecordWrite d) s = .next t ∧ (t.die d.toNat).pending = rest ∧ (t.die d.toNat).fqTail = x.fqTail + 1 ∧
        (t.die d.toNat).nextSeq = x.nextSeq + 1 ∧ t.recordsWritten = s.recordsWritten + 1 ∧
        t.nearByte a = r.code ∧ memRead t.mem (a + 0x18) 8 = leBytes 8 r.epc.toNat ∧
        memRead t.mem (a + 0x20) 8 = leBytes 8 r.detail.toNat ∧ memRead t.mem (a + 0x28) 8 = leBytes 8 r.time.toNat ∧
        memRead t.mem (a + 0x30) 8 = leBytes 8 x.nextSeq.toNat ∧
        (∀ y, y < a ∨ a + 64 ≤ y → t.nearByte y = s.nearByte y) ∧ (∀ y, t.farByte y = s.farByte y) ∧
        (r.status ≠ .service → t.cores = s.cores) ∧ ∀ n, n ≠ 1024 + d.toNat → t.core n = s.core n) ∧
    (2 ^ j ≤ (x.fqTail - x.fqHead).toNat → (∀ p ∈ x.pending, p.keeps = true) → exec (.faultRecordWrite d) s = .next s) ∧
    (2 ^ j ≤ (x.fqTail - x.fqHead).toNat → r.keeps = false →
      exec (.faultRecordWrite d) s = .next (s.setDie d.toNat { x with
        pending := rest, dropped := x.dropped + 1, nextSeq := x.nextSeq + 1 }))) ∧
  /- R409: WATCHDOG on a context one of whose units has made no progress for 2^30 ticks: the unit abandons the oldest
     entry that is stuck, and the live task halts with WATCHDOG and the unit's source in TVAL; with nothing stuck,
     nothing changes. -/
  (∀ (s : State) (c : CoreNo) (k : Bool) (x : Context), x = s.ctx c.toNat k →
    ∀ src q, (src, q) ∈ [(1#8, QName.lq), (2#8, .cq), (3#8, .sq)] →
      ((∀ e ∈ x.queue q, e.working = true → s.time.toNat < e.moved.toNat + 2 ^ 30) →
        exec (.watchdog c k src) s = .next s) ∧
      (∀ e, (x.queue q).find? (fun f => f.working && decide (f.moved.toNat + 2 ^ 30 ≤ s.time.toNat)) = some e → x.supervisor = false → x.mode = .live →
        ∃ t, exec (.watchdog c k src) s = .next t ∧
          t.ctx c.toNat k = { x.setQueue q ((x.queue q).filter (fun f => f.seq != e.seq)) with
            tcause := 0x11A, tval := src.zeroExtend 64, epc := x.pc, hold := none, mode := .halted } ∧
          t.ctx c.toNat (!k) = s.ctx c.toNat (!k) ∧ (t.die (dieOf c.toNat)).watchdogs = (s.die (dieOf c.toNat)).watchdogs + 1 ∧
          (∀ n, n ≠ c.toNat → t.core n = s.core n) ∧ SameBytes s t))

/-- R97 to R99, R330, R345, R352, R389: the condensation engine begins its oldest job and ends it with one record of
type 5 on the context that handed it over; traffic for another module or engine is reported back, and a write of no
bytes to this one is visible at once; a contribution that no COLL waits for is kept for the group; a port's check, once done,
holds the pattern's check value. Model choices: log 26, log 46, log 50, log 71. -/
def Obligations.EngineSteps : Prop :=
  ∀ (s : State) (d : DieNo) (q : BitVec 6) (j : CondJob) (rest : List CondJob) (c : CoreNo) (k vector : Bool)
    (src m : BitVec 16) (g : BitVec 6) (core : BitVec 10) (r : RemoteReq) (va : Word) (group rank : Nat) (elems : List Word),
    ((s.quad (64 * d.toNat + q.toNat)).cond = j :: rest →
      (∀ i t, j.started = false → j.parked = none → s.condEdges (64 * d.toNat + q.toNat) j = true → s.condScore j = true →
        (condVoid (64 * d.toNat + q.toNat) j).run s = .ok (i, t) →
        exec (.acondJobStart d q) s = .next (t.setCond (64 * d.toNat + q.toNat) { i with started := true, moved := t.time }) ∧
          i = { j with void := i.void, live := i.live }) ∧
      (∀ live t, j.started = true → j.parked = none → (condWork (64 * d.toNat + q.toNat) j).run s = .ok (live, t) →
        ∃ u, exec (.acondJobEnd d q) s = .next u ∧
          (∀ i ∈ (u.quad (64 * d.toNat + q.toNat)).cond, i.id ≠ j.id) ∧ u.mem = t.mem ∧
          ∀ n b, t.condOwner j = .here n b → ∃ rec, (u.ctx n b).evq = (t.ctx n b).evq ++ [rec] ∧
            rec.extractLsb' 0 8 = 5 ∧ rec.extractLsb' 16 8 = 0 ∧ rec.extractLsb' 64 64 = w64 live)) ∧
    ((m ≠ s.moduleId ∨ core.toNat / 256 ≠ d.toNat ∨ g ≠ 1) → exec (.remoteWriteArrive src d core ⟨m, g⟩ r) s = .next
      { s with outbox := s.outbox ++ [.report src (.routeCheck 0xE)] }) ∧
    (m = s.moduleId → core.toNat / 256 = d.toNat → exec (.remoteWriteArrive src d core ⟨m, 1⟩ (.write va [])) s = .next
      { s with outbox := s.outbox ++ [.report src .visible] }) ∧
    (∀ bs t, m = s.moduleId → core.toNat / 256 = d.toNat → bs.length ≤ 64 - va.toNat % 64 → bs ≠ [] →
      (writeVa (remoteView d.toNat) va.toNat bs).run s = .ok ((), t) →
      exec (.remoteWriteArrive src d core ⟨m, 1⟩ (.write va bs)) s = .next { t with outbox := t.outbox ++ [.report src .visible] }) ∧
    (m ≠ s.moduleId ∨ g ≠ 2 → exec (.collectivePacketArrive core ⟨src, m, g⟩ group rank elems) s = .next
      { s with outbox := s.outbox ++ [.report src (.routeCheck 0xE)] }) ∧
    (m = s.moduleId → s.wantsPart (core.toNat / 256) group rank = none →
      ∃ t, exec (.collectivePacketArrive core ⟨src, m, 2⟩ group rank elems) s = .next t ∧ t = { s with dies := t.dies } ∧
        (t.die (core.toNat / 256)).early = (s.die (core.toNat / 256)).early ++ [(group, rank, elems)]) ∧
    (∀ i, m = s.moduleId → s.wantsPart (core.toNat / 256) group rank = some i →
      exec (.collectivePacketArrive core ⟨src, m, 2⟩ group rank elems) s = .next (s.setJob { i with
        parts := i.parts ++ [(rank, elems)], phase := if i.parts.length + 1 = i.got.2 then .started else .remote,
        moved := s.time })) ∧
    (∀ n, (s.ctx c.toNat k).kat.find? (fun x => x.vector == vector && !x.done) = some n →
      ∃ t, exec (.katPortDone c k vector) s = .next t ∧ t = { s with cores := t.cores } ∧
        t.ctx c.toNat k = { s.ctx c.toNat k with kat := (s.ctx c.toNat k).kat.map (fun x => if x = n then { n with
          done := true, result := katCheck vector n.pattern.toNat } else x) } ∧
        t.ctx c.toNat (!k) = s.ctx c.toNat (!k) ∧ ∀ i, i ≠ c.toNat → t.core i = s.core i)

/-- Management commands and module states; resets, updates and the lock to time. Model choices: log 11, log 59. -/
def Obligations.ModuleStates : Prop :=
  /- R4, R457, R458: the management commands DRAIN, ONLINE and SERVICE change the module's state only from the states in
     which the spec allows them, and leave their result, ONLINE and SERVICE with the deadline field as it was written; a
     module without accepted launches, which have a loop table, drains at once; at the drain deadline a launch that is not done completes as FAULTED, and the module is DRAINED. -/
  (∀ (s : State) (n : BitVec 48) (word : Nat → Bool → Nat → Word),
    (∀ cmd bad v, word cmd bad v = w64 (cmd * 2 ^ 60 + (if bad then 2 ^ 58 else 0) + v)) →
    (s.modState = .online → (∃ l ∈ s.launches, l.levels ≠ []) → exec (.drain n) s = .next { s with
      modState := .draining, deadline := some (s.time + n.zeroExtend 64), mgmt := word 1 false n.toNat }) ∧
    (s.modState = .online → (∀ l ∈ s.launches, l.levels = []) → exec (.drain n) s = .next { s with
      modState := .drained, deadline := none, mgmt := word 1 false n.toNat }) ∧
    (∀ d, s.modState = .draining → s.deadline = some d → exec (.drain n) s = .next { s with
      deadline := some (if (s.time + n.zeroExtend 64).toNat < d.toNat then s.time + n.zeroExtend 64 else d), mgmt := word 1 false n.toNat }) ∧
    (s.modState ≠ .online → s.modState ≠ .draining → exec (.drain n) s = .next { s with mgmt := word 1 true n.toNat }) ∧
    (s.modState = .drained ∨ s.modState = .service → exec .online s = .next { s with
      modState := .online, mgmt := word 2 false (s.mgmt.toNat % 2 ^ 48) }) ∧
    (s.modState ≠ .drained → s.modState ≠ .service → exec .online s = .next { s with mgmt := word 2 true (s.mgmt.toNat % 2 ^ 48) }) ∧
    (s.modState = .drained → exec .service s = .next { s with
      modState := .service, mgmt := word 3 false (s.mgmt.toNat % 2 ^ 48) }) ∧
    (s.modState ≠ .drained → exec .service s = .next { s with mgmt := word 3 true (s.mgmt.toNat % 2 ^ 48) }) ∧
    (∀ d l, s.deadline = some d → d.toNat ≤ s.time.toNat → s.modState = .draining → s.launches = [l] →
      (∀ t ∈ s.tasks, t.launch ≠ l.id) → l.phase = .computing → s.quietLaunch l.id = false →
      exec .drainDeadline s = .next { s with
        modState := .drained, deadline := none, launches := [{ l with phase := .completing 1 }] })) ∧
  /- R391, R393, R450, R451, R456: a reset keeps the module's rollback counter and the host's memory, and leaves no
     identity, launch, task or job; it boots where the other checks pass and every image that it is to run has its
     signature, its key hash and a security version no lower than the counter; a module that has not booted answers no
     request; an update that passes its three checks advances the counter;
     the first lock after a boot sets TIME and brings the module ONLINE, a later one only steers; without a lock the
     time is 0; holdover loses the bound. -/
  (∀ (s : State) (b : BootObs) (i : FwImage) (req : List Byte) (o : PtpObs),
    (∃ t, exec (.moduleReset b) s = .next t ∧ t.modState = .reset ∧ t.time = 0 ∧ t.launches = [] ∧ t.tasks = [] ∧
      t.jobs = [] ∧ t.tlb = [] ∧ t.taskRoot = 0 ∧ t.superRoot = 0 ∧ t.moduleId = 0 ∧
      t.rollback = s.rollback ∧ t.hostMem = s.hostMem ∧ (t.booted = false → t.mem = [] ∧ t.firmware = s.firmware) ∧
      (t.booted = true ↔ b.othersPass = true ∧ b.images ≠ [] ∧
        ∀ j ∈ b.images, j.signatureOk = true ∧ j.keyHashOk = true ∧ s.rollback ≤ j.securityVersion) ∧
      (t.booted = true → ∀ j, b.images.head? = some j → t.firmware = j.securityVersion)) ∧
    (i.signatureOk = true → i.keyHashOk = true → s.rollback ≤ i.securityVersion →
      exec (.firmwareUpdate i) s = .next { s with rollback := i.securityVersion, firmware := i.securityVersion }) ∧
    (i.signatureOk = false ∨ i.keyHashOk = false ∨ i.securityVersion < s.rollback → exec (.firmwareUpdate i) s = .next s) ∧
    (s.booted = true → ∃ bs, exec (.spdmRequest req) s = .next { s with fresh := s.fresh + 1, outbox := s.outbox ++ [.spdm bs] }) ∧
    (s.booted = false → exec (.spdmRequest req) s = .next s) ∧
    (s.booted = false → exec (.ptpEventMessage o) s = .next s ∧ exec .timeLockTimeout s = .next s) ∧
    (s.booted = true → s.modState = .reset →
      ∃ t, exec (.ptpEventMessage o) s = .next t ∧ t = { s with
          time := o.grand, modState := .online, timeStatus := t.timeStatus, dies := t.dies } ∧
        t.timeStatus.state = 1 ∧ t.timeStatus.offset = o.offset ∧ t.timeStatus.bound = o.bound ∧
        t.timeStatus.generation = s.timeStatus.generation + 2) ∧
    (s.booted = true → s.modState ≠ .reset →
      ∃ t, exec (.ptpEventMessage o) s = .next t ∧ t = { s with timeStatus := t.timeStatus } ∧
        t.timeStatus.state = 1 ∧ t.timeStatus.offset = o.offset ∧ t.timeStatus.bound = o.bound ∧
        -100000000 ≤ t.timeStatus.rate ∧ t.timeStatus.rate ≤ 100000000 ∧ t.timeStatus.last = s.time) ∧
    (s.booted = true → s.modState = .reset → ∃ t, exec .timeLockTimeout s = .next t ∧
      t = { s with time := 0, modState := .online, dies := t.dies }) ∧
    (s.timeStatus.state = 1 → ∃ t, exec .timeHoldover s = .next t ∧ t = { s with timeStatus := t.timeStatus } ∧
      t.timeStatus.state = 2 ∧ t.timeStatus.bound = BitVec.allOnes 64) ∧
    (s.timeStatus.state ≠ 1 → exec .timeHoldover s = .next s))

/-- R397, R402, R452 to R455: the L2's switches of check mode and their count; a sag begins once and is restored; the
clocks of every die step by 100 MHz between 1 and 2 GHz while they are not locked, down where the draw is above the limit in force
and up where it is below 95 % of it; the critical coolant mark drains the module. Model choices: log 67. -/
def Obligations.PowerAndClocks : Prop :=
  ∀ (s : State) (d : DieNo) (x : Die) (draw : Nat), x = s.die d.toNat →
    (x.l2mode = 0 → exec (.l2SwitchToDected d) s = .next (s.setDie d.toNat { x with l2mode := 2 })) ∧
    (x.l2mode ≠ 0 → exec (.l2SwitchToDected d) s = .next s) ∧
    (x.l2mode = 1 → exec (.l2SwitchToSecded d) s = .next (s.setDie d.toNat { x with l2mode := 3 })) ∧
    (x.l2mode ≠ 1 → exec (.l2SwitchToSecded d) s = .next s) ∧
    (x.l2mode = 2 → exec (.l2SwitchComplete d) s = .next (s.setDie d.toNat { x with l2mode := 1, l2switches := x.l2switches + 1 })) ∧
    (x.l2mode = 3 → exec (.l2SwitchComplete d) s = .next (s.setDie d.toNat { x with l2mode := 0, l2switches := x.l2switches + 1 })) ∧
    (x.l2mode = 0 ∨ x.l2mode = 1 → exec (.l2SwitchComplete d) s = .next s) ∧
    (x.sagging = false → exec (.supplySag d) s = .next (s.setDie d.toNat { x with sagging := true, sags := x.sags + 1 })) ∧
    (x.sagging = true → exec (.supplySag d) s = .next s) ∧
    exec (.sagRestore d) s = .next (s.setDie d.toNat { x with sagging := false }) ∧
    (s.clocksLocked = false → s.locking = false →
      (s.powerLimit.toNat < draw →
        ∃ t, exec (.clockStepDown ⟨draw⟩) s = .next t ∧ t = { s with dies := t.dies } ∧
          ∀ n < 4, t.die n = { s.die n with clock := max 10 ((s.die n).clock - 1) }) ∧
      (100 * draw < 95 * s.powerLimit.toNat →
        ∃ t, exec (.clockStepUp ⟨draw⟩) s = .next t ∧ t = { s with dies := t.dies } ∧
          ∀ n < 4, t.die n = { s.die n with clock := min 20 ((s.die n).clock + 1) }) ∧
      ∃ t, exec .coolantWarning s = .next t ∧ t = { s with dies := t.dies } ∧
        ∀ n < 4, t.die n = { s.die n with clock := max 10 ((s.die n).clock - 1) }) ∧
    (draw ≤ s.powerLimit.toNat → exec (.clockStepDown ⟨draw⟩) s = .next s) ∧
    (95 * s.powerLimit.toNat ≤ 100 * draw → exec (.clockStepUp ⟨draw⟩) s = .next s) ∧
    (s.clocksLocked = true ∨ s.locking = true →
      exec (.clockStepDown ⟨draw⟩) s = .next s ∧ exec (.clockStepUp ⟨draw⟩) s = .next s ∧ exec .coolantWarning s = .next s) ∧
    (s.modState = .online → (∃ l ∈ s.launches, l.levels ≠ []) → exec .coolantCritical s = .next { s with
      modState := .draining, deadline := some (s.time + 100000000) }) ∧
    (s.modState = .online → (∀ l ∈ s.launches, l.levels = []) → exec .coolantCritical s = .next { s with modState := .drained, deadline := none })

/-- R216, R385, R398, R400, R440, R441, R449: a link that fails is down and its health bit clears, with no other byte
of memory changed; retraining brings it up; the two flit counters; a host read answers the bytes of near memory, or all
ones where there is no memory, and a host write stores its bytes; a snoop that brings data stores them in far memory;
nothing but the lines that cache rooms hold changes besides, where no segment is stashed. An 8-byte write of the host
to a register arrives as a register write. A module that has not booted answers nothing (R456). Model choices: log 10,
log 32, log 48, log 69, log 71. -/
def Obligations.LinksAndHost : Prop :=
  ∀ (s : State) (l : BitVec 5) (a : Nat) (bs : List Byte) (off : BitVec 22),
    (∃ t, exec (.linkFailure l) s = .next t ∧ t = { s with mem := t.mem, linksDown := t.linksDown } ∧
      (∀ i < 32, t.linksDown.getLsbD i = (s.linksDown.getLsbD i || decide (i = l.toNat))) ∧
      (∀ i < 32, t.health.testBit i = (s.health.testBit i && decide (i ≠ l.toNat))) ∧
      ∀ x, x < Config.gazetteerBase + 0x10 ∨ Config.gazetteerBase + 0x14 ≤ x → t.nearByte x = s.nearByte x) ∧
    (∃ t, exec (.linkRetraining l) s = .next t ∧ t = { s with linksDown := t.linksDown } ∧
      ∀ i < 32, t.linksDown.getLsbD i = (s.linksDown.getLsbD i && decide (i ≠ l.toNat))) ∧
    (∀ i crc n, (i, crc) ∈ [(Instr.flitCrcError ⟨l, false⟩, true), (.flitCrcError ⟨l, true⟩, false), (.flitAckTimeout l, false)] →
      n = (s.die (l.toNat / 8)).links[l.toNat % 8]?.getD (0, 0) →
      ∃ t, exec i s = .next t ∧ t = { s with dies := t.dies } ∧
        (t.die (l.toNat / 8)).links[l.toNat % 8]? = some (if crc then (n.1, satSucc32 n.2) else (satSucc32 n.1, n.2))) ∧
    (∀ r, s.booted = false → exec (.hdmAccess r) s = .next s) ∧
    ((∀ c ∈ s.cores, c.2.stash = []) →
      (s.booted = true → ∀ n, ∃ t, exec (.hdmAccess (.read a n)) s = .next t ∧ t = { s with
          cores := t.cores, outbox := s.outbox ++ [.hdm (if nearRange a n then memRead s.mem a n else List.replicate n 0xFF)] } ∧
        ∀ c, t.core c = { s.core c with cache := (t.core c).cache }) ∧
      (s.booted = true → nearRange a bs.length = true → ∃ t, exec (.hdmAccess (.write a bs)) s = .next t ∧
        t = { s with mem := t.mem, poison := t.poison, cores := t.cores } ∧
        (∀ c, t.core c = { s.core c with cache := (t.core c).cache }) ∧
        ∀ x, t.nearByte x = if a ≤ x ∧ x < a + bs.length then bs[x - a]?.getD 0 else s.nearByte x) ∧
      (nearRange a bs.length = false → exec (.hdmAccess (.write a bs)) s = .next s) ∧
      (∃ t, exec (.cxlCacheSnoop a none) s = .next t ∧ t = { s with cores := t.cores } ∧
        ∀ c, t.core c = { s.core c with cache := (t.core c).cache }) ∧
      (∃ t, exec (.cxlCacheSnoop a (some bs)) s = .next t ∧
        t = { s with hostMem := t.hostMem, poison := t.poison, cores := t.cores } ∧
        (∀ c, t.core c = { s.core c with cache := (t.core c).cache }) ∧
        ∀ x, t.farByte x = if a ≤ x ∧ x < a + bs.length then bs[x - a]?.getD 0 else s.farByte x)) ∧
    (s.booted = true → ∃ t id, exec (.hdmAccess (.barRead 0 8)) s = .next t ∧ t = { s with fresh := t.fresh, outbox := s.outbox ++ [.bar id] } ∧
      leNat id = (s.sysRead 0x000).toNat) ∧
    (∀ r, s.booted = true → bs.length = 8 → barRegister off.toNat = some r →
      exec (.hdmAccess (.barWrite off bs)) s = .next { s with agenda := .reg r (w64 (leNat bs)) :: s.agenda })

/-- R230 to R232, R390, R399, R401: the health table is rewritten whole with the next even generation and TIME; energy
that the module measures adds to its counters, and the counts of cycles of a die whose energy has been attributed begin
again; an epoch ends 2^k ticks after it began, and every die's number of it advances, the counts and flags of spans are
cleared, and no span moves while an accepted deterministic launch runs; a span whose move is done moves no more, and no
translation of a leaf that it has rewritten is cached. That k counts as 16 below 16 and as 30 above 30 is log 87. Model
choices: log 10, log 66, log 70, log 87. -/
def Obligations.Telemetry : Prop :=
  ∀ (s : State) (obs : List EnergyObs) (depth : List Nat) (n : BitVec 36) (m : Moving) (epoch : Nat),
    epoch = 2 ^ max 16 (min 30 (s.readNear Config.migrationBase 4)) →
    (s.modState ≠ .reset → ∃ t, exec .healthTableRewrite s = .next t ∧ t = { s with mem := t.mem } ∧
      t.readNear Config.healthBase 8 = (s.readNear Config.healthBase 8 + 2) % 2 ^ 64 ∧
      t.readNear (Config.healthBase + 8) 8 = s.time.toNat ∧
      t.readNear (Config.healthBase + 0x14) 4 = s.recordsWritten.toNat ∧
      ∀ x, x < Config.healthBase ∨ Config.healthBase + 320 ≤ x → t.nearByte x = s.nearByte x) ∧
    (∃ t, exec (.energyAttribution obs) s = .next t ∧
      t = { s with dies := t.dies, tasks := t.tasks, launches := t.launches, moduleEnergy := t.moduleEnergy,
                   cores := t.cores, quads := t.quads } ∧
      t.moduleEnergy = s.moduleEnergy + w64 ((obs.map (fun o => o.module)).sum) ∧
      (∀ d < 4, (t.die d).energy = (s.die d).energy + w64 (((obs.filter (fun o => o.die.toNat == d)).map (fun o => o.drawn)).sum)) ∧
      (∀ c, t.core c = { s.core c with ran := (t.core c).ran } ∧ ∀ o ∈ obs, dieOf c = o.die.toNat → (t.core c).ran = []) ∧
      ∀ q, t.quad q = { s.quad q with used := (t.quad q).used }) ∧
    (s.time.toNat < s.epochStart.toNat + epoch → exec (.migrationEpochEnd depth) s = .next s) ∧
    (s.epochStart.toNat + epoch ≤ s.time.toNat → (∀ d < 4, (s.die d).snapshot = 0) →
      ((∀ d < 4, (s.die d).spans = []) ∨ s.launches.any (fun l => l.req.det && l.accepted) = true) →
      ∃ t, exec (.migrationEpochEnd depth) s = .next t ∧
        t = { s with dies := t.dies, written := [], epochStart := s.time } ∧
        ∀ d < 4, t.die d = { s.die d with epoch := (s.die d).epoch + 1, spans := [], untracked := [] }) ∧
    (s.moving.find? (fun x => x.span == n.toNat) = some m →
      ∃ t, exec (.spanMoveDone n) s = .next t ∧ (∀ x ∈ t.moving, x.span ≠ n.toNat) ∧
        (∀ e ∈ t.tlb, e ∈ s.tlb) ∧ (∀ c, t.core c = { s.core c with cache := (t.core c).cache }) ∧
        t.replicas = s.replicas ++ (if m.replica then [m] else []) ∧ (m.frames = [] → SameBytes s t) ∧
        ∀ f e, m.frames = [f] → s.walk false (f.page * 65536) = .leaf f.addr f.level e → leafState e = 2 →
          ∀ x ∈ t.tlb, x.addr ≠ f.addr) ∧
    (s.moving.find? (fun x => x.span == n.toNat) = none → exec (.spanMoveDone n) s = .next s)

/-- R110 to R134: decoding the words of a well-formed instruction, whatever follows them, gives that instruction and
leaves what follows: no operand of any instruction is dropped. -/
def Obligations.DecodeEncode : Prop :=
  ∀ (i : Instr) (r : List IWord), i.wf = true → decode (encode i ++ r) = .ok (i, r)

/-- R106, R108: what the decoder accepts is a well-formed instruction of one, two or three words as bits 1–0 of word 0
say, whose words are exactly its encoding, so that no reserved bit is set; what follows the last word is left. A zero
word 0 and the reserved length are refused. Model choices: log 20. -/
def Obligations.EncodeDecode : Prop :=
  (∀ (w : IWord) (ws r : List IWord) (i : Instr), decode (w :: ws) = .ok (i, r) →
    i.wf = true ∧ encode i ++ r = w :: ws ∧ w ≠ 0 ∧
    (w.toNat % 4 = 0 → (encode i).length = 1) ∧ (w.toNat % 4 = 2 → (encode i).length = 2) ∧
    (w.toNat % 4 = 3 → (encode i).length = 3) ∧ w.toNat % 4 ≠ 1) ∧
  (∀ ws, decode (0 :: ws) = .error .zeroWord) ∧
  (∀ (w : IWord) (ws : List IWord), w.toNat % 4 = 1 → decode (w :: ws) = .error .lengthReserved)

/-- Words that the spec writes out in R161, R164, R165, R167, R169, R174, R176, R249, R353 and R355 decode to the
instructions that it says they are. -/
def Obligations.DecodeWords : Prop :=
  decode [0x80310418] = .ok (.srai 4 4 3, []) ∧ decode [0x00551408] = .ok (.addi 20 20 5, []) ∧
  decode [0x08203006, 0xFFFFFFFE] = .ok (.bltu 3 4 (-2), []) ∧ decode [0x00043F58] = .ok (.jal 63 16, []) ∧
  decode [0xFFFE0174] = .ok (.loop 1 (-1), []) ∧ decode [0x00800078] = .ok (.wbase 0 8, []) ∧
  decode [0x01420370] = .ok (.pand 3 4 5, []) ∧ decode [0x14300060] = .ok (.trap 5, []) ∧
  decode [0x00A14460] = .ok (.timer 4 5, []) ∧ decode [0x00050638] = .ok (.ldw 6 20 0, []) ∧
  decode [0x0005054C] = .ok (.stw 5 20 0, []) ∧ decode [0xFF0F8340] = .ok (.ldd 3 62 (-16), []) ∧
  decode [0x0000804E, 0] = .ok (.evpop 8, []) ∧
  decode [0x0A014013, 0x03800203, 0x000186A0] = .ok (.wait {
    all := false, enM := true, enE := true, enK := false, enT := false, scope := .die, wide := false, cmp := .eq,
    xd := 7, xm := 20, xv := 5, thr := 0, ctr := 0, xt := 0, timeout := 100000 }, [])

/-- R107: a step whose schedule names a core that fetches runs the instruction that the words at its pc are, in the
state in which time has moved and that core is the current one; each word's bytes lie at an ordinary address, and the
fetch leaves nothing but what its accesses leave in the caches. Where the values of loads have yet to return to the
context's registers, the instruction's effect on that is noted besides (`State.loadsOut`). Model choices: log 1, log 2,
log 82. -/
def Obligations.StepRunsDecoded : Prop :=
  ∀ (s m : State) (c : Nat) (rest : List Move) (i : Instr) (ws : List IWord),
    s.begin_.agenda = .run c :: rest → m = { s.begin_ with agenda := rest, cur := c } → m.mayFetch c = true →
    m.me.pc.toNat % 4 = 0 → decode ws = .ok (i, []) →
    (∀ j, j < ws.length → ∃ p, Ordinary m (m.me.pc.toNat + 4 * j) 4 false p ∧
      ws[j]? = some (BitVec.ofNat 32 (leNat (m.bytesAt p 4)))) →
    ∃ u, Touches m u ∧ step s = exec i (u.loadsOut i) ∧ (u.me.pendingX = [] → u.loadsOut i = u)

/-- Every step keeps near and host memory in their canonical form: addresses rise, and no byte is listed that reads as
an unlisted one. The form is the model's own; what an unlisted byte reads as is log 7. -/
def Obligations.StepKeepsMemory : Prop :=
  ∀ s t : State, MemOk s → step s = .next t → MemOk t

/-- R136, R146, R393, R457: after reset every context's scalar, handle and system registers are zero, p0 reads as all
ones and the other predicates as zero, no context but the control cores' holds work, TIME is 0, no launch is accepted,
and both memories are in their canonical form with nothing listed. Model choices: log 6, log 7, log 8, log 9. -/
def Obligations.ResetState : Prop :=
  let s := State.reset
  (∀ (c : Nat) (k : Bool), (∀ r, (s.ctx c k).rx r = 0) ∧ (∀ r, (s.ctx c k).rh r = 0) ∧
    (∀ r : PReg, r.toNat < 96 → (s.ctx c k).rp r = if r = 0 then BitVec.allOnes 256 else 0) ∧
    (s.ctx c k).pc = 0 ∧ (s.ctx c k).rotb = 0 ∧ (s.ctx c k).tcause = 0 ∧ (s.ctx c k).tval = 0 ∧ (s.ctx c k).epc = 0 ∧
    (s.ctx c k).spovf = 0 ∧ (s.ctx c k).splim = 0 ∧ (s.ctx c k).lq = [] ∧ (s.ctx c k).cq = [] ∧ (s.ctx c k).sq = [] ∧
    (s.ctx c k).evq = [] ∧ (s.ctx c k).hold = none ∧ (s.ctx c k).mode ≠ .live) ∧
  (∀ c, (s.core c).insns = 0 ∧ (s.core c).tcfg = Vector.replicate 16 0) ∧
  s.time = 0 ∧ s.launches = [] ∧ s.tasks = [] ∧ s.jobs = [] ∧ MemOk s ∧ s.mem = [] ∧ s.hostMem = []
end

