-- ==== Sys2Proof/Laws/Memory.lean ====
section
/-! SUPPORT. Laws of the cell lists that hold memory: every operation keeps the canonical form, a read after a write
gives what was written, and a write leaves every other byte. -/

namespace Sys2Proof.Machine

/-! ## Looking up cells -/

/-- A lookup is the library's search for the first entry with that key. -/
theorem findKey_eq_find? {α : Type} (k : Nat) (l : List (Nat × α)) :
    findKey k l = (l.find? (·.1 == k)).map Prod.snd := by
  induction l with
  | nil => rfl
  | cons e rest below => rw [findKey, below, List.find?_cons]; by_cases here : e.1 = k <;> simp [here, beq_eq_false_iff_ne.2]

theorem findKey_append {α : Type} (k : Nat) (l m : List (Nat × α)) :
    findKey k (l ++ m) = (findKey k l).or (findKey k m) := by
  simp only [findKey_eq_find?, List.find?_append, Option.map_or]

/-- A filter that looks only at the key. -/
theorem findKey_filter {α : Type} (k : Nat) (f : Nat → Bool) (l : List (Nat × α)) :
    findKey k (l.filter (fun c => f c.1)) = if f k then findKey k l else none := by
  have asked : ∀ c : Nat × α, decide (f c.1 = true ∧ (c.1 == k) = true) = (f k && c.1 == k) := by
    intro c; by_cases here : c.1 = k <;> simp [here]
  simp only [findKey_eq_find?, List.find?_filter, asked]
  cases f k <;> simp
theorem findKey_cellsOf_lt (x a : Nat) (bs : List Byte) (h : x < a) : findKey x (cellsOf a bs) = none := by
  induction bs generalizing a with
  | nil => simp [cellsOf, findKey]
  | cons b t ih =>
    simp only [cellsOf]
    split
    · exact ih (a + 1) (by omega)
    · simp [findKey, ih (a + 1) (by omega), Nat.ne_of_gt h]

theorem findKey_cellsOf (x a : Nat) (bs : List Byte) (h : a ≤ x) :
    (findKey x (cellsOf a bs)).getD 0 = bs[x - a]?.getD 0 := by
  induction bs generalizing a with
  | nil => simp [cellsOf, findKey]
  | cons b t ih =>
    by_cases he : x = a
    · subst he
      simp only [cellsOf]
      split
      · rename_i hb; simp [findKey_cellsOf_lt x (x + 1) t (by omega), hb]
      · simp [findKey]
    · have h1 : a + 1 ≤ x := by omega
      have h2 : x - a = x - (a + 1) + 1 := by omega
      simp only [cellsOf]
      split
      · rw [ih (a + 1) h1, h2]; simp
      · simp only [findKey]
        rw [if_neg (fun e => he e.symm), ih (a + 1) h1, h2]; simp

/-! ## Reading after writing -/

/-- A byte after a write: what was written there, or what it was. -/
theorem memGet_memWrite (l : List Host.Cell) (a x : Nat) (bs : List Byte) :
    memGet (memWrite l a bs) x = if a ≤ x ∧ x < a + bs.length then bs[x - a]?.getD 0 else memGet l x := by
  simp only [memGet, memWrite, findKey_append,
    findKey_filter x (fun k => decide (k < a)), findKey_filter x (fun k => decide (a + bs.length ≤ k))]
  by_cases h1 : x < a
  · simp [h1, findKey_cellsOf_lt x a bs h1, show ¬ a + bs.length ≤ x by omega, show ¬ (a ≤ x ∧ x < a + bs.length) by omega]
  · by_cases h2 : a + bs.length ≤ x
    · have h3 := findKey_cellsOf x a bs (by omega)
      have h4 : bs[x - a]? = none := by simp; omega
      have h5 : findKey x (cellsOf a bs) = none ∨ ∃ v, findKey x (cellsOf a bs) = some v := by
        cases findKey x (cellsOf a bs) <;> simp
      have h6 : findKey x (cellsOf a bs) = none := by
        clear h3 h4 h5
        induction bs generalizing a with
        | nil => simp [cellsOf, findKey]
        | cons b t ih =>
          simp only [List.length_cons] at h2
          simp only [cellsOf]
          split
          · exact ih (a + 1) (by omega) (by omega)
          · simp only [findKey]
            rw [if_neg (by omega)]
            exact ih (a + 1) (by omega) (by omega)
      simp [h1, h2, h6, show ¬ x < a + bs.length by omega]
    · have h3 := findKey_cellsOf x a bs (by omega)
      simpa [h1, h2, show a ≤ x by omega, show x < a + bs.length by omega] using h3

/-- A byte after a range is zeroed. -/
theorem memGet_memZero (l : List Host.Cell) (a n x : Nat) :
    memGet (memZero l a n) x = if a ≤ x ∧ x < a + n then 0 else memGet l x := by
  simp only [memGet, memZero, findKey_filter x (fun k => decide (k < a) || decide (a + n ≤ k))]
  by_cases h1 : x < a
  · simp [h1, show ¬ a ≤ x by omega]
  · by_cases h2 : a + n ≤ x
    · simp [h1, h2, show ¬ x < a + n by omega]
    · simp [h1, h2, show a ≤ x by omega, show x < a + n by omega]

/-! ## The canonical form -/

theorem cellsOf_bounds (a : Nat) (bs : List Byte) : ∀ c ∈ cellsOf a bs, a ≤ c.1 ∧ c.1 < a + bs.length ∧ c.2 ≠ 0 := by
  induction bs generalizing a with
  | nil => simp [cellsOf]
  | cons b t ih =>
    intro c hc
    simp only [cellsOf] at hc
    split at hc
    · obtain ⟨p, q, r⟩ := ih (a + 1) c hc; simp only [List.length_cons]; exact ⟨by omega, by omega, r⟩
    · rcases List.mem_cons.mp hc with h | h
      · subst h; simp only [List.length_cons]; exact ⟨by omega, by omega, by assumption⟩
      · obtain ⟨p, q, r⟩ := ih (a + 1) c h; simp only [List.length_cons]; exact ⟨by omega, by omega, r⟩

theorem cellsOf_sorted (a : Nat) (bs : List Byte) : (cellsOf a bs).Pairwise (fun c d => c.1 < d.1) := by
  induction bs generalizing a with
  | nil => simp [cellsOf]
  | cons b t ih =>
    simp only [cellsOf]
    split
    · exact ih (a + 1)
    · refine List.pairwise_cons.mpr ⟨fun c hc => ?_, ih (a + 1)⟩
      have := cellsOf_bounds (a + 1) t c hc
      simp only; omega

theorem memWf_nil : memWf [] := by simp [memWf]

/-- A write keeps the canonical form. -/
theorem memWf_memWrite {l : List Host.Cell} (h : memWf l) (a : Nat) (bs : List Byte) : memWf (memWrite l a bs) := by
  obtain ⟨hs, hz⟩ := h
  refine ⟨?_, ?_⟩
  · simp only [memWrite, List.pairwise_append, List.mem_append, List.mem_filter, decide_eq_true_eq]
    refine ⟨⟨hs.filter _, cellsOf_sorted a bs, ?_⟩, hs.filter _, ?_⟩
    · intro c hc d hd
      have := cellsOf_bounds a bs d hd; omega
    · rintro c (hc | hc) d hd
      · omega
      · have := cellsOf_bounds a bs c hc; omega
  · intro c hc
    simp only [memWrite, List.mem_append, List.mem_filter] at hc
    rcases hc with (hc | hc) | hc
    · exact hz c hc.1
    · exact (cellsOf_bounds a bs c hc).2.2
    · exact hz c hc.1

/-- Zeroing a range keeps the canonical form. -/
theorem memWf_memZero {l : List Host.Cell} (h : memWf l) (a n : Nat) : memWf (memZero l a n) :=
  ⟨h.1.filter _, fun c hc => h.2 c (List.mem_of_mem_filter hc)⟩

/-- Copying a range keeps the canonical form. -/
theorem memWf_memCopy {l : List Host.Cell} (h : memWf l) (src dst n : Nat) : memWf (memCopy l src dst n) := by
  obtain ⟨hs, hz⟩ := h
  have hm : ((l.filter (fun c => decide (src ≤ c.1) && decide (c.1 < src + n))).map
      (fun c => (c.1 - src + dst, c.2))).Pairwise (fun c d => c.1 < d.1) := by
    rw [List.pairwise_map]
    refine (hs.filter _).imp_of_mem ?_
    intro c d hc hd hlt
    simp only [List.mem_filter, Bool.and_eq_true, decide_eq_true_eq] at hc hd
    simp only; omega
  refine ⟨?_, ?_⟩
  · simp only [memCopy, List.pairwise_append, List.mem_append, List.mem_map, List.mem_filter, decide_eq_true_eq,
      Bool.and_eq_true]
    refine ⟨⟨hs.filter _, hm, ?_⟩, hs.filter _, ?_⟩
    · rintro c hc d ⟨e, he, rfl⟩; simp only; omega
    · rintro c (hc | ⟨e, he, rfl⟩) d hd
      · omega
      · simp only; omega
  · intro c hc
    simp only [memCopy, List.mem_append, List.mem_map, List.mem_filter] at hc
    rcases hc with (hc | ⟨e, he, rfl⟩) | hc
    · exact hz c hc.1
    · exact hz e he.1
    · exact hz c hc.1

/-- Reset memory is in canonical form. -/
theorem memOk_reset : MemOk State.reset := ⟨memWf_nil, memWf_nil⟩

end Sys2Proof.Machine
end

