-- ==== Sys2Proof/Laws/State.lean ====
section
/-! SUPPORT. Laws of the state's updates: what each leaves unchanged, field by field, and what a register, a
context or a core reads as after it is written. -/

namespace Sys2Proof.Machine

/-! ## Sparse tables -/

theorem findKey_cons {α : Type} (k : Nat) (e : Nat × α) (rest : List (Nat × α)) :
    findKey k (e :: rest) = if e.1 = k then some e.2 else findKey k rest := rfl

@[simp] theorem findKey_setKey_self {α : Type} (k : Nat) (v : α) (l : List (Nat × α)) : findKey k (setKey k v l) = some v := by
  induction l with
  | nil => exact if_pos rfl
  | cons e rest below =>
    rw [setKey]
    by_cases here : e.1 = k
    · rw [if_pos here, findKey_cons]; exact if_pos rfl
    · rw [if_neg here]
      by_cases low : e.1 < k
      · rw [if_pos low, findKey_cons, if_neg here, below]
      · rw [if_neg low, findKey_cons]; exact if_pos rfl

theorem findKey_setKey_ne {α : Type} {k j : Nat} (h : j ≠ k) (v : α) (l : List (Nat × α)) : findKey j (setKey k v l) = findKey j l := by
  have new : ∀ rest, findKey j ((k, v) :: rest) = findKey j rest := fun rest => if_neg h.symm
  induction l with
  | nil => exact new []
  | cons e rest below =>
    rw [setKey]
    by_cases here : e.1 = k
    · rw [if_pos here, new, findKey_cons, if_neg (fun q => h (q.symm.trans here))]
    · rw [if_neg here]
      by_cases low : e.1 < k
      · rw [if_pos low, findKey_cons, findKey_cons, below]
      · rw [if_neg low, new]

/-! ## Cores -/

@[simp] theorem State.core_setCore_self (s : State) (c : Nat) (v : Core) : (s.setCore c v).core c = v := by
  simp [State.setCore, State.core]
theorem State.core_setCore_ne (s : State) {c e : Nat} (h : e ≠ c) (v : Core) : (s.setCore c v).core e = s.core e := by
  simp [State.setCore, State.core, findKey_setKey_ne h]
@[simp] theorem State.here_setCore (s : State) (v : Core) : (s.setCore s.cur v).here = v := State.core_setCore_self s s.cur v
@[simp] theorem State.here_setHere (s : State) (v : Core) : (s.setHere v).here = v := State.core_setCore_self s s.cur v

/-! Fields of the state that an update of one table leaves. -/

@[simp] theorem State.setCore_mem (s : State) (c : Nat) (v : Core) : (s.setCore c v).mem = s.mem := rfl
@[simp] theorem State.setCore_hostMem (s : State) (c : Nat) (v : Core) : (s.setCore c v).hostMem = s.hostMem := rfl
@[simp] theorem State.setCore_quads (s : State) (c : Nat) (v : Core) : (s.setCore c v).quads = s.quads := rfl
@[simp] theorem State.setCore_dies (s : State) (c : Nat) (v : Core) : (s.setCore c v).dies = s.dies := rfl
@[simp] theorem State.setCore_launches (s : State) (c : Nat) (v : Core) : (s.setCore c v).launches = s.launches := rfl
@[simp] theorem State.setCore_tasks (s : State) (c : Nat) (v : Core) : (s.setCore c v).tasks = s.tasks := rfl
@[simp] theorem State.setCore_jobs (s : State) (c : Nat) (v : Core) : (s.setCore c v).jobs = s.jobs := rfl
@[simp] theorem State.setCore_nextId (s : State) (c : Nat) (v : Core) : (s.setCore c v).nextId = s.nextId := rfl
@[simp] theorem State.setCore_time (s : State) (c : Nat) (v : Core) : (s.setCore c v).time = s.time := rfl
@[simp] theorem State.setCore_timeStatus (s : State) (c : Nat) (v : Core) : (s.setCore c v).timeStatus = s.timeStatus := rfl
@[simp] theorem State.setCore_modState (s : State) (c : Nat) (v : Core) : (s.setCore c v).modState = s.modState := rfl
@[simp] theorem State.setCore_booted (s : State) (c : Nat) (v : Core) : (s.setCore c v).booted = s.booted := rfl
@[simp] theorem State.setCore_served (s : State) (c : Nat) (v : Core) : (s.setCore c v).served = s.served := rfl
@[simp] theorem State.setCore_turns (s : State) (c : Nat) (v : Core) : (s.setCore c v).turns = s.turns := rfl
@[simp] theorem State.setCore_deadline (s : State) (c : Nat) (v : Core) : (s.setCore c v).deadline = s.deadline := rfl
@[simp] theorem State.setCore_mgmt (s : State) (c : Nat) (v : Core) : (s.setCore c v).mgmt = s.mgmt := rfl
@[simp] theorem State.setCore_powerLimit (s : State) (c : Nat) (v : Core) : (s.setCore c v).powerLimit = s.powerLimit := rfl
@[simp] theorem State.setCore_moduleEnergy (s : State) (c : Nat) (v : Core) : (s.setCore c v).moduleEnergy = s.moduleEnergy := rfl
@[simp] theorem State.setCore_taskRoot (s : State) (c : Nat) (v : Core) : (s.setCore c v).taskRoot = s.taskRoot := rfl
@[simp] theorem State.setCore_superRoot (s : State) (c : Nat) (v : Core) : (s.setCore c v).superRoot = s.superRoot := rfl
@[simp] theorem State.setCore_moduleId (s : State) (c : Nat) (v : Core) : (s.setCore c v).moduleId = s.moduleId := rfl
@[simp] theorem State.setCore_txResume (s : State) (c : Nat) (v : Core) : (s.setCore c v).txResume = s.txResume := rfl
@[simp] theorem State.setCore_clocksLocked (s : State) (c : Nat) (v : Core) : (s.setCore c v).clocksLocked = s.clocksLocked := rfl
@[simp] theorem State.setCore_locking (s : State) (c : Nat) (v : Core) : (s.setCore c v).locking = s.locking := rfl
@[simp] theorem State.setCore_linksDown (s : State) (c : Nat) (v : Core) : (s.setCore c v).linksDown = s.linksDown := rfl
@[simp] theorem State.setCore_farGone (s : State) (c : Nat) (v : Core) : (s.setCore c v).farGone = s.farGone := rfl
@[simp] theorem State.setCore_tlb (s : State) (c : Nat) (v : Core) : (s.setCore c v).tlb = s.tlb := rfl
@[simp] theorem State.setCore_poison (s : State) (c : Nat) (v : Core) : (s.setCore c v).poison = s.poison := rfl
@[simp] theorem State.setCore_moving (s : State) (c : Nat) (v : Core) : (s.setCore c v).moving = s.moving := rfl
@[simp] theorem State.setCore_replicas (s : State) (c : Nat) (v : Core) : (s.setCore c v).replicas = s.replicas := rfl
@[simp] theorem State.setCore_written (s : State) (c : Nat) (v : Core) : (s.setCore c v).written = s.written := rfl
@[simp] theorem State.setCore_epochStart (s : State) (c : Nat) (v : Core) : (s.setCore c v).epochStart = s.epochStart := rfl
@[simp] theorem State.setCore_rollback (s : State) (c : Nat) (v : Core) : (s.setCore c v).rollback = s.rollback := rfl
@[simp] theorem State.setCore_firmware (s : State) (c : Nat) (v : Core) : (s.setCore c v).firmware = s.firmware := rfl
@[simp] theorem State.setCore_recordsWritten (s : State) (c : Nat) (v : Core) : (s.setCore c v).recordsWritten = s.recordsWritten := rfl
@[simp] theorem State.setCore_hbmLimit (s : State) (c : Nat) (v : Core) : (s.setCore c v).hbmLimit = s.hbmLimit := rfl
@[simp] theorem State.setCore_outbox (s : State) (c : Nat) (v : Core) : (s.setCore c v).outbox = s.outbox := rfl
@[simp] theorem State.setCore_cur (s : State) (c : Nat) (v : Core) : (s.setCore c v).cur = s.cur := rfl
@[simp] theorem State.setCore_agenda (s : State) (c : Nat) (v : Core) : (s.setCore c v).agenda = s.agenda := rfl
@[simp] theorem State.setCore_pace (s : State) (c : Nat) (v : Core) : (s.setCore c v).pace = s.pace := rfl
@[simp] theorem State.setCore_choices (s : State) (c : Nat) (v : Core) : (s.setCore c v).choices = s.choices := rfl
@[simp] theorem State.setCore_eager (s : State) (c : Nat) (v : Core) : (s.setCore c v).eager = s.eager := rfl
@[simp] theorem State.setCore_fresh (s : State) (c : Nat) (v : Core) : (s.setCore c v).fresh = s.fresh := rfl
@[simp] theorem State.setDie_mem (s : State) (d : Nat) (v : Die) : (s.setDie d v).mem = s.mem := rfl
@[simp] theorem State.setDie_hostMem (s : State) (d : Nat) (v : Die) : (s.setDie d v).hostMem = s.hostMem := rfl
@[simp] theorem State.setDie_cores (s : State) (d : Nat) (v : Die) : (s.setDie d v).cores = s.cores := rfl
@[simp] theorem State.setDie_quads (s : State) (d : Nat) (v : Die) : (s.setDie d v).quads = s.quads := rfl
@[simp] theorem State.setDie_launches (s : State) (d : Nat) (v : Die) : (s.setDie d v).launches = s.launches := rfl
@[simp] theorem State.setDie_tasks (s : State) (d : Nat) (v : Die) : (s.setDie d v).tasks = s.tasks := rfl
@[simp] theorem State.setDie_jobs (s : State) (d : Nat) (v : Die) : (s.setDie d v).jobs = s.jobs := rfl
@[simp] theorem State.setDie_nextId (s : State) (d : Nat) (v : Die) : (s.setDie d v).nextId = s.nextId := rfl
@[simp] theorem State.setDie_time (s : State) (d : Nat) (v : Die) : (s.setDie d v).time = s.time := rfl
@[simp] theorem State.setDie_timeStatus (s : State) (d : Nat) (v : Die) : (s.setDie d v).timeStatus = s.timeStatus := rfl
@[simp] theorem State.setDie_modState (s : State) (d : Nat) (v : Die) : (s.setDie d v).modState = s.modState := rfl
@[simp] theorem State.setDie_booted (s : State) (d : Nat) (v : Die) : (s.setDie d v).booted = s.booted := rfl
@[simp] theorem State.setDie_served (s : State) (d : Nat) (v : Die) : (s.setDie d v).served = s.served := rfl
@[simp] theorem State.setDie_turns (s : State) (d : Nat) (v : Die) : (s.setDie d v).turns = s.turns := rfl
@[simp] theorem State.setDie_deadline (s : State) (d : Nat) (v : Die) : (s.setDie d v).deadline = s.deadline := rfl
@[simp] theorem State.setDie_mgmt (s : State) (d : Nat) (v : Die) : (s.setDie d v).mgmt = s.mgmt := rfl
@[simp] theorem State.setDie_powerLimit (s : State) (d : Nat) (v : Die) : (s.setDie d v).powerLimit = s.powerLimit := rfl
@[simp] theorem State.setDie_moduleEnergy (s : State) (d : Nat) (v : Die) : (s.setDie d v).moduleEnergy = s.moduleEnergy := rfl
@[simp] theorem State.setDie_taskRoot (s : State) (d : Nat) (v : Die) : (s.setDie d v).taskRoot = s.taskRoot := rfl
@[simp] theorem State.setDie_superRoot (s : State) (d : Nat) (v : Die) : (s.setDie d v).superRoot = s.superRoot := rfl
@[simp] theorem State.setDie_moduleId (s : State) (d : Nat) (v : Die) : (s.setDie d v).moduleId = s.moduleId := rfl
@[simp] theorem State.setDie_txResume (s : State) (d : Nat) (v : Die) : (s.setDie d v).txResume = s.txResume := rfl
@[simp] theorem State.setDie_clocksLocked (s : State) (d : Nat) (v : Die) : (s.setDie d v).clocksLocked = s.clocksLocked := rfl
@[simp] theorem State.setDie_locking (s : State) (d : Nat) (v : Die) : (s.setDie d v).locking = s.locking := rfl
@[simp] theorem State.setDie_linksDown (s : State) (d : Nat) (v : Die) : (s.setDie d v).linksDown = s.linksDown := rfl
@[simp] theorem State.setDie_farGone (s : State) (d : Nat) (v : Die) : (s.setDie d v).farGone = s.farGone := rfl
@[simp] theorem State.setDie_tlb (s : State) (d : Nat) (v : Die) : (s.setDie d v).tlb = s.tlb := rfl
@[simp] theorem State.setDie_poison (s : State) (d : Nat) (v : Die) : (s.setDie d v).poison = s.poison := rfl
@[simp] theorem State.setDie_moving (s : State) (d : Nat) (v : Die) : (s.setDie d v).moving = s.moving := rfl
@[simp] theorem State.setDie_replicas (s : State) (d : Nat) (v : Die) : (s.setDie d v).replicas = s.replicas := rfl
@[simp] theorem State.setDie_written (s : State) (d : Nat) (v : Die) : (s.setDie d v).written = s.written := rfl
@[simp] theorem State.setDie_epochStart (s : State) (d : Nat) (v : Die) : (s.setDie d v).epochStart = s.epochStart := rfl
@[simp] theorem State.setDie_rollback (s : State) (d : Nat) (v : Die) : (s.setDie d v).rollback = s.rollback := rfl
@[simp] theorem State.setDie_firmware (s : State) (d : Nat) (v : Die) : (s.setDie d v).firmware = s.firmware := rfl
@[simp] theorem State.setDie_recordsWritten (s : State) (d : Nat) (v : Die) : (s.setDie d v).recordsWritten = s.recordsWritten := rfl
@[simp] theorem State.setDie_hbmLimit (s : State) (d : Nat) (v : Die) : (s.setDie d v).hbmLimit = s.hbmLimit := rfl
@[simp] theorem State.setDie_outbox (s : State) (d : Nat) (v : Die) : (s.setDie d v).outbox = s.outbox := rfl
@[simp] theorem State.setDie_cur (s : State) (d : Nat) (v : Die) : (s.setDie d v).cur = s.cur := rfl
@[simp] theorem State.setDie_agenda (s : State) (d : Nat) (v : Die) : (s.setDie d v).agenda = s.agenda := rfl
@[simp] theorem State.setDie_pace (s : State) (d : Nat) (v : Die) : (s.setDie d v).pace = s.pace := rfl
@[simp] theorem State.setDie_choices (s : State) (d : Nat) (v : Die) : (s.setDie d v).choices = s.choices := rfl
@[simp] theorem State.setDie_eager (s : State) (d : Nat) (v : Die) : (s.setDie d v).eager = s.eager := rfl
@[simp] theorem State.setDie_fresh (s : State) (d : Nat) (v : Die) : (s.setDie d v).fresh = s.fresh := rfl
@[simp] theorem State.setQuad_mem (s : State) (q : Nat) (v : Quad) : (s.setQuad q v).mem = s.mem := rfl
@[simp] theorem State.setQuad_hostMem (s : State) (q : Nat) (v : Quad) : (s.setQuad q v).hostMem = s.hostMem := rfl
@[simp] theorem State.setQuad_cores (s : State) (q : Nat) (v : Quad) : (s.setQuad q v).cores = s.cores := rfl
@[simp] theorem State.setQuad_dies (s : State) (q : Nat) (v : Quad) : (s.setQuad q v).dies = s.dies := rfl
@[simp] theorem State.setQuad_launches (s : State) (q : Nat) (v : Quad) : (s.setQuad q v).launches = s.launches := rfl
@[simp] theorem State.setQuad_tasks (s : State) (q : Nat) (v : Quad) : (s.setQuad q v).tasks = s.tasks := rfl
@[simp] theorem State.setQuad_jobs (s : State) (q : Nat) (v : Quad) : (s.setQuad q v).jobs = s.jobs := rfl
@[simp] theorem State.setQuad_nextId (s : State) (q : Nat) (v : Quad) : (s.setQuad q v).nextId = s.nextId := rfl
@[simp] theorem State.setQuad_time (s : State) (q : Nat) (v : Quad) : (s.setQuad q v).time = s.time := rfl
@[simp] theorem State.setQuad_timeStatus (s : State) (q : Nat) (v : Quad) : (s.setQuad q v).timeStatus = s.timeStatus := rfl
@[simp] theorem State.setQuad_modState (s : State) (q : Nat) (v : Quad) : (s.setQuad q v).modState = s.modState := rfl
@[simp] theorem State.setQuad_booted (s : State) (q : Nat) (v : Quad) : (s.setQuad q v).booted = s.booted := rfl
@[simp] theorem State.setQuad_served (s : State) (q : Nat) (v : Quad) : (s.setQuad q v).served = s.served := rfl
@[simp] theorem State.setQuad_turns (s : State) (q : Nat) (v : Quad) : (s.setQuad q v).turns = s.turns := rfl
@[simp] theorem State.setQuad_deadline (s : State) (q : Nat) (v : Quad) : (s.setQuad q v).deadline = s.deadline := rfl
@[simp] theorem State.setQuad_mgmt (s : State) (q : Nat) (v : Quad) : (s.setQuad q v).mgmt = s.mgmt := rfl
@[simp] theorem State.setQuad_powerLimit (s : State) (q : Nat) (v : Quad) : (s.setQuad q v).powerLimit = s.powerLimit := rfl
@[simp] theorem State.setQuad_moduleEnergy (s : State) (q : Nat) (v : Quad) : (s.setQuad q v).moduleEnergy = s.moduleEnergy := rfl
@[simp] theorem State.setQuad_taskRoot (s : State) (q : Nat) (v : Quad) : (s.setQuad q v).taskRoot = s.taskRoot := rfl
@[simp] theorem State.setQuad_superRoot (s : State) (q : Nat) (v : Quad) : (s.setQuad q v).superRoot = s.superRoot := rfl
@[simp] theorem State.setQuad_moduleId (s : State) (q : Nat) (v : Quad) : (s.setQuad q v).moduleId = s.moduleId := rfl
@[simp] theorem State.setQuad_txResume (s : State) (q : Nat) (v : Quad) : (s.setQuad q v).txResume = s.txResume := rfl
@[simp] theorem State.setQuad_clocksLocked (s : State) (q : Nat) (v : Quad) : (s.setQuad q v).clocksLocked = s.clocksLocked := rfl
@[simp] theorem State.setQuad_locking (s : State) (q : Nat) (v : Quad) : (s.setQuad q v).locking = s.locking := rfl
@[simp] theorem State.setQuad_linksDown (s : State) (q : Nat) (v : Quad) : (s.setQuad q v).linksDown = s.linksDown := rfl
@[simp] theorem State.setQuad_farGone (s : State) (q : Nat) (v : Quad) : (s.setQuad q v).farGone = s.farGone := rfl
@[simp] theorem State.setQuad_tlb (s : State) (q : Nat) (v : Quad) : (s.setQuad q v).tlb = s.tlb := rfl
@[simp] theorem State.setQuad_poison (s : State) (q : Nat) (v : Quad) : (s.setQuad q v).poison = s.poison := rfl
@[simp] theorem State.setQuad_moving (s : State) (q : Nat) (v : Quad) : (s.setQuad q v).moving = s.moving := rfl
@[simp] theorem State.setQuad_replicas (s : State) (q : Nat) (v : Quad) : (s.setQuad q v).replicas = s.replicas := rfl
@[simp] theorem State.setQuad_written (s : State) (q : Nat) (v : Quad) : (s.setQuad q v).written = s.written := rfl
@[simp] theorem State.setQuad_epochStart (s : State) (q : Nat) (v : Quad) : (s.setQuad q v).epochStart = s.epochStart := rfl
@[simp] theorem State.setQuad_rollback (s : State) (q : Nat) (v : Quad) : (s.setQuad q v).rollback = s.rollback := rfl
@[simp] theorem State.setQuad_firmware (s : State) (q : Nat) (v : Quad) : (s.setQuad q v).firmware = s.firmware := rfl
@[simp] theorem State.setQuad_recordsWritten (s : State) (q : Nat) (v : Quad) : (s.setQuad q v).recordsWritten = s.recordsWritten := rfl
@[simp] theorem State.setQuad_hbmLimit (s : State) (q : Nat) (v : Quad) : (s.setQuad q v).hbmLimit = s.hbmLimit := rfl
@[simp] theorem State.setQuad_outbox (s : State) (q : Nat) (v : Quad) : (s.setQuad q v).outbox = s.outbox := rfl
@[simp] theorem State.setQuad_cur (s : State) (q : Nat) (v : Quad) : (s.setQuad q v).cur = s.cur := rfl
@[simp] theorem State.setQuad_agenda (s : State) (q : Nat) (v : Quad) : (s.setQuad q v).agenda = s.agenda := rfl
@[simp] theorem State.setQuad_pace (s : State) (q : Nat) (v : Quad) : (s.setQuad q v).pace = s.pace := rfl
@[simp] theorem State.setQuad_choices (s : State) (q : Nat) (v : Quad) : (s.setQuad q v).choices = s.choices := rfl
@[simp] theorem State.setQuad_eager (s : State) (q : Nat) (v : Quad) : (s.setQuad q v).eager = s.eager := rfl
@[simp] theorem State.setQuad_fresh (s : State) (q : Nat) (v : Quad) : (s.setQuad q v).fresh = s.fresh := rfl
@[simp] theorem State.setTask_mem (s : State) (t : Task) : (s.setTask t).mem = s.mem := rfl
@[simp] theorem State.setTask_hostMem (s : State) (t : Task) : (s.setTask t).hostMem = s.hostMem := rfl
@[simp] theorem State.setTask_cores (s : State) (t : Task) : (s.setTask t).cores = s.cores := rfl
@[simp] theorem State.setTask_quads (s : State) (t : Task) : (s.setTask t).quads = s.quads := rfl
@[simp] theorem State.setTask_dies (s : State) (t : Task) : (s.setTask t).dies = s.dies := rfl
@[simp] theorem State.setTask_launches (s : State) (t : Task) : (s.setTask t).launches = s.launches := rfl
@[simp] theorem State.setTask_jobs (s : State) (t : Task) : (s.setTask t).jobs = s.jobs := rfl
@[simp] theorem State.setTask_nextId (s : State) (t : Task) : (s.setTask t).nextId = s.nextId := rfl
@[simp] theorem State.setTask_time (s : State) (t : Task) : (s.setTask t).time = s.time := rfl
@[simp] theorem State.setTask_timeStatus (s : State) (t : Task) : (s.setTask t).timeStatus = s.timeStatus := rfl
@[simp] theorem State.setTask_modState (s : State) (t : Task) : (s.setTask t).modState = s.modState := rfl
@[simp] theorem State.setTask_booted (s : State) (t : Task) : (s.setTask t).booted = s.booted := rfl
@[simp] theorem State.setTask_served (s : State) (t : Task) : (s.setTask t).served = s.served := rfl
@[simp] theorem State.setTask_turns (s : State) (t : Task) : (s.setTask t).turns = s.turns := rfl
@[simp] theorem State.setTask_deadline (s : State) (t : Task) : (s.setTask t).deadline = s.deadline := rfl
@[simp] theorem State.setTask_mgmt (s : State) (t : Task) : (s.setTask t).mgmt = s.mgmt := rfl
@[simp] theorem State.setTask_powerLimit (s : State) (t : Task) : (s.setTask t).powerLimit = s.powerLimit := rfl
@[simp] theorem State.setTask_moduleEnergy (s : State) (t : Task) : (s.setTask t).moduleEnergy = s.moduleEnergy := rfl
@[simp] theorem State.setTask_taskRoot (s : State) (t : Task) : (s.setTask t).taskRoot = s.taskRoot := rfl
@[simp] theorem State.setTask_superRoot (s : State) (t : Task) : (s.setTask t).superRoot = s.superRoot := rfl
@[simp] theorem State.setTask_moduleId (s : State) (t : Task) : (s.setTask t).moduleId = s.moduleId := rfl
@[simp] theorem State.setTask_txResume (s : State) (t : Task) : (s.setTask t).txResume = s.txResume := rfl
@[simp] theorem State.setTask_clocksLocked (s : State) (t : Task) : (s.setTask t).clocksLocked = s.clocksLocked := rfl
@[simp] theorem State.setTask_locking (s : State) (t : Task) : (s.setTask t).locking = s.locking := rfl
@[simp] theorem State.setTask_linksDown (s : State) (t : Task) : (s.setTask t).linksDown = s.linksDown := rfl
@[simp] theorem State.setTask_farGone (s : State) (t : Task) : (s.setTask t).farGone = s.farGone := rfl
@[simp] theorem State.setTask_tlb (s : State) (t : Task) : (s.setTask t).tlb = s.tlb := rfl
@[simp] theorem State.setTask_poison (s : State) (t : Task) : (s.setTask t).poison = s.poison := rfl
@[simp] theorem State.setTask_moving (s : State) (t : Task) : (s.setTask t).moving = s.moving := rfl
@[simp] theorem State.setTask_replicas (s : State) (t : Task) : (s.setTask t).replicas = s.replicas := rfl
@[simp] theorem State.setTask_written (s : State) (t : Task) : (s.setTask t).written = s.written := rfl
@[simp] theorem State.setTask_epochStart (s : State) (t : Task) : (s.setTask t).epochStart = s.epochStart := rfl
@[simp] theorem State.setTask_rollback (s : State) (t : Task) : (s.setTask t).rollback = s.rollback := rfl
@[simp] theorem State.setTask_firmware (s : State) (t : Task) : (s.setTask t).firmware = s.firmware := rfl
@[simp] theorem State.setTask_recordsWritten (s : State) (t : Task) : (s.setTask t).recordsWritten = s.recordsWritten := rfl
@[simp] theorem State.setTask_hbmLimit (s : State) (t : Task) : (s.setTask t).hbmLimit = s.hbmLimit := rfl
@[simp] theorem State.setTask_outbox (s : State) (t : Task) : (s.setTask t).outbox = s.outbox := rfl
@[simp] theorem State.setTask_cur (s : State) (t : Task) : (s.setTask t).cur = s.cur := rfl
@[simp] theorem State.setTask_agenda (s : State) (t : Task) : (s.setTask t).agenda = s.agenda := rfl
@[simp] theorem State.setTask_pace (s : State) (t : Task) : (s.setTask t).pace = s.pace := rfl
@[simp] theorem State.setTask_choices (s : State) (t : Task) : (s.setTask t).choices = s.choices := rfl
@[simp] theorem State.setTask_eager (s : State) (t : Task) : (s.setTask t).eager = s.eager := rfl
@[simp] theorem State.setTask_fresh (s : State) (t : Task) : (s.setTask t).fresh = s.fresh := rfl
@[simp] theorem State.setLaunch_mem (s : State) (l : Launch) : (s.setLaunch l).mem = s.mem := rfl
@[simp] theorem State.setLaunch_hostMem (s : State) (l : Launch) : (s.setLaunch l).hostMem = s.hostMem := rfl
@[simp] theorem State.setLaunch_cores (s : State) (l : Launch) : (s.setLaunch l).cores = s.cores := rfl
@[simp] theorem State.setLaunch_quads (s : State) (l : Launch) : (s.setLaunch l).quads = s.quads := rfl
@[simp] theorem State.setLaunch_dies (s : State) (l : Launch) : (s.setLaunch l).dies = s.dies := rfl
@[simp] theorem State.setLaunch_tasks (s : State) (l : Launch) : (s.setLaunch l).tasks = s.tasks := rfl
@[simp] theorem State.setLaunch_jobs (s : State) (l : Launch) : (s.setLaunch l).jobs = s.jobs := rfl
@[simp] theorem State.setLaunch_nextId (s : State) (l : Launch) : (s.setLaunch l).nextId = s.nextId := rfl
@[simp] theorem State.setLaunch_time (s : State) (l : Launch) : (s.setLaunch l).time = s.time := rfl
@[simp] theorem State.setLaunch_timeStatus (s : State) (l : Launch) : (s.setLaunch l).timeStatus = s.timeStatus := rfl
@[simp] theorem State.setLaunch_modState (s : State) (l : Launch) : (s.setLaunch l).modState = s.modState := rfl
@[simp] theorem State.setLaunch_booted (s : State) (l : Launch) : (s.setLaunch l).booted = s.booted := rfl
@[simp] theorem State.setLaunch_served (s : State) (l : Launch) : (s.setLaunch l).served = s.served := rfl
@[simp] theorem State.setLaunch_turns (s : State) (l : Launch) : (s.setLaunch l).turns = s.turns := rfl
@[simp] theorem State.setLaunch_deadline (s : State) (l : Launch) : (s.setLaunch l).deadline = s.deadline := rfl
@[simp] theorem State.setLaunch_mgmt (s : State) (l : Launch) : (s.setLaunch l).mgmt = s.mgmt := rfl
@[simp] theorem State.setLaunch_powerLimit (s : State) (l : Launch) : (s.setLaunch l).powerLimit = s.powerLimit := rfl
@[simp] theorem State.setLaunch_moduleEnergy (s : State) (l : Launch) : (s.setLaunch l).moduleEnergy = s.moduleEnergy := rfl
@[simp] theorem State.setLaunch_taskRoot (s : State) (l : Launch) : (s.setLaunch l).taskRoot = s.taskRoot := rfl
@[simp] theorem State.setLaunch_superRoot (s : State) (l : Launch) : (s.setLaunch l).superRoot = s.superRoot := rfl
@[simp] theorem State.setLaunch_moduleId (s : State) (l : Launch) : (s.setLaunch l).moduleId = s.moduleId := rfl
@[simp] theorem State.setLaunch_txResume (s : State) (l : Launch) : (s.setLaunch l).txResume = s.txResume := rfl
@[simp] theorem State.setLaunch_clocksLocked (s : State) (l : Launch) : (s.setLaunch l).clocksLocked = s.clocksLocked := rfl
@[simp] theorem State.setLaunch_locking (s : State) (l : Launch) : (s.setLaunch l).locking = s.locking := rfl
@[simp] theorem State.setLaunch_linksDown (s : State) (l : Launch) : (s.setLaunch l).linksDown = s.linksDown := rfl
@[simp] theorem State.setLaunch_farGone (s : State) (l : Launch) : (s.setLaunch l).farGone = s.farGone := rfl
@[simp] theorem State.setLaunch_tlb (s : State) (l : Launch) : (s.setLaunch l).tlb = s.tlb := rfl
@[simp] theorem State.setLaunch_poison (s : State) (l : Launch) : (s.setLaunch l).poison = s.poison := rfl
@[simp] theorem State.setLaunch_moving (s : State) (l : Launch) : (s.setLaunch l).moving = s.moving := rfl
@[simp] theorem State.setLaunch_replicas (s : State) (l : Launch) : (s.setLaunch l).replicas = s.replicas := rfl
@[simp] theorem State.setLaunch_written (s : State) (l : Launch) : (s.setLaunch l).written = s.written := rfl
@[simp] theorem State.setLaunch_epochStart (s : State) (l : Launch) : (s.setLaunch l).epochStart = s.epochStart := rfl
@[simp] theorem State.setLaunch_rollback (s : State) (l : Launch) : (s.setLaunch l).rollback = s.rollback := rfl
@[simp] theorem State.setLaunch_firmware (s : State) (l : Launch) : (s.setLaunch l).firmware = s.firmware := rfl
@[simp] theorem State.setLaunch_recordsWritten (s : State) (l : Launch) : (s.setLaunch l).recordsWritten = s.recordsWritten := rfl
@[simp] theorem State.setLaunch_hbmLimit (s : State) (l : Launch) : (s.setLaunch l).hbmLimit = s.hbmLimit := rfl
@[simp] theorem State.setLaunch_outbox (s : State) (l : Launch) : (s.setLaunch l).outbox = s.outbox := rfl
@[simp] theorem State.setLaunch_cur (s : State) (l : Launch) : (s.setLaunch l).cur = s.cur := rfl
@[simp] theorem State.setLaunch_agenda (s : State) (l : Launch) : (s.setLaunch l).agenda = s.agenda := rfl
@[simp] theorem State.setLaunch_pace (s : State) (l : Launch) : (s.setLaunch l).pace = s.pace := rfl
@[simp] theorem State.setLaunch_choices (s : State) (l : Launch) : (s.setLaunch l).choices = s.choices := rfl
@[simp] theorem State.setLaunch_eager (s : State) (l : Launch) : (s.setLaunch l).eager = s.eager := rfl
@[simp] theorem State.setLaunch_fresh (s : State) (l : Launch) : (s.setLaunch l).fresh = s.fresh := rfl
@[simp] theorem State.setJob_mem (s : State) (j : Job) : (s.setJob j).mem = s.mem := rfl
@[simp] theorem State.setJob_hostMem (s : State) (j : Job) : (s.setJob j).hostMem = s.hostMem := rfl
@[simp] theorem State.setJob_cores (s : State) (j : Job) : (s.setJob j).cores = s.cores := rfl
@[simp] theorem State.setJob_quads (s : State) (j : Job) : (s.setJob j).quads = s.quads := rfl
@[simp] theorem State.setJob_dies (s : State) (j : Job) : (s.setJob j).dies = s.dies := rfl
@[simp] theorem State.setJob_launches (s : State) (j : Job) : (s.setJob j).launches = s.launches := rfl
@[simp] theorem State.setJob_tasks (s : State) (j : Job) : (s.setJob j).tasks = s.tasks := rfl
@[simp] theorem State.setJob_nextId (s : State) (j : Job) : (s.setJob j).nextId = s.nextId := rfl
@[simp] theorem State.setJob_time (s : State) (j : Job) : (s.setJob j).time = s.time := rfl
@[simp] theorem State.setJob_timeStatus (s : State) (j : Job) : (s.setJob j).timeStatus = s.timeStatus := rfl
@[simp] theorem State.setJob_modState (s : State) (j : Job) : (s.setJob j).modState = s.modState := rfl
@[simp] theorem State.setJob_booted (s : State) (j : Job) : (s.setJob j).booted = s.booted := rfl
@[simp] theorem State.setJob_served (s : State) (j : Job) : (s.setJob j).served = s.served := rfl
@[simp] theorem State.setJob_turns (s : State) (j : Job) : (s.setJob j).turns = s.turns := rfl
@[simp] theorem State.setJob_deadline (s : State) (j : Job) : (s.setJob j).deadline = s.deadline := rfl
@[simp] theorem State.setJob_mgmt (s : State) (j : Job) : (s.setJob j).mgmt = s.mgmt := rfl
@[simp] theorem State.setJob_powerLimit (s : State) (j : Job) : (s.setJob j).powerLimit = s.powerLimit := rfl
@[simp] theorem State.setJob_moduleEnergy (s : State) (j : Job) : (s.setJob j).moduleEnergy = s.moduleEnergy := rfl
@[simp] theorem State.setJob_taskRoot (s : State) (j : Job) : (s.setJob j).taskRoot = s.taskRoot := rfl
@[simp] theorem State.setJob_superRoot (s : State) (j : Job) : (s.setJob j).superRoot = s.superRoot := rfl
@[simp] theorem State.setJob_moduleId (s : State) (j : Job) : (s.setJob j).moduleId = s.moduleId := rfl
@[simp] theorem State.setJob_txResume (s : State) (j : Job) : (s.setJob j).txResume = s.txResume := rfl
@[simp] theorem State.setJob_clocksLocked (s : State) (j : Job) : (s.setJob j).clocksLocked = s.clocksLocked := rfl
@[simp] theorem State.setJob_locking (s : State) (j : Job) : (s.setJob j).locking = s.locking := rfl
@[simp] theorem State.setJob_linksDown (s : State) (j : Job) : (s.setJob j).linksDown = s.linksDown := rfl
@[simp] theorem State.setJob_farGone (s : State) (j : Job) : (s.setJob j).farGone = s.farGone := rfl
@[simp] theorem State.setJob_tlb (s : State) (j : Job) : (s.setJob j).tlb = s.tlb := rfl
@[simp] theorem State.setJob_poison (s : State) (j : Job) : (s.setJob j).poison = s.poison := rfl
@[simp] theorem State.setJob_moving (s : State) (j : Job) : (s.setJob j).moving = s.moving := rfl
@[simp] theorem State.setJob_replicas (s : State) (j : Job) : (s.setJob j).replicas = s.replicas := rfl
@[simp] theorem State.setJob_written (s : State) (j : Job) : (s.setJob j).written = s.written := rfl
@[simp] theorem State.setJob_epochStart (s : State) (j : Job) : (s.setJob j).epochStart = s.epochStart := rfl
@[simp] theorem State.setJob_rollback (s : State) (j : Job) : (s.setJob j).rollback = s.rollback := rfl
@[simp] theorem State.setJob_firmware (s : State) (j : Job) : (s.setJob j).firmware = s.firmware := rfl
@[simp] theorem State.setJob_recordsWritten (s : State) (j : Job) : (s.setJob j).recordsWritten = s.recordsWritten := rfl
@[simp] theorem State.setJob_hbmLimit (s : State) (j : Job) : (s.setJob j).hbmLimit = s.hbmLimit := rfl
@[simp] theorem State.setJob_outbox (s : State) (j : Job) : (s.setJob j).outbox = s.outbox := rfl
@[simp] theorem State.setJob_cur (s : State) (j : Job) : (s.setJob j).cur = s.cur := rfl
@[simp] theorem State.setJob_agenda (s : State) (j : Job) : (s.setJob j).agenda = s.agenda := rfl
@[simp] theorem State.setJob_pace (s : State) (j : Job) : (s.setJob j).pace = s.pace := rfl
@[simp] theorem State.setJob_choices (s : State) (j : Job) : (s.setJob j).choices = s.choices := rfl
@[simp] theorem State.setJob_eager (s : State) (j : Job) : (s.setJob j).eager = s.eager := rfl
@[simp] theorem State.setJob_fresh (s : State) (j : Job) : (s.setJob j).fresh = s.fresh := rfl

/-! ## Contexts of a core -/

@[simp] theorem Core.ctx_setCtx_self (c : Core) (k : Bool) (x : Context) : (c.setCtx k x).ctx k = x := by cases k <;> rfl
@[simp] theorem Core.ctx_setCtx_not (c : Core) (k : Bool) (x : Context) : (c.setCtx k x).ctx (!k) = c.ctx (!k) := by cases k <;> rfl
@[simp] theorem Core.ctx_not_setCtx (c : Core) (k : Bool) (x : Context) : (c.setCtx (!k) x).ctx k = c.ctx k := by cases k <;> rfl

@[simp] theorem Core.setCtx_active (c : Core) (k : Bool) (x : Context) : (c.setCtx k x).active = c.active := by cases k <;> rfl
@[simp] theorem Core.setCtx_running (c : Core) (k : Bool) (x : Context) : (c.setCtx k x).running = c.running := by cases k <;> rfl
@[simp] theorem Core.setCtx_launch (c : Core) (k : Bool) (x : Context) : (c.setCtx k x).launch = c.launch := by cases k <;> rfl
@[simp] theorem Core.setCtx_rooms (c : Core) (k : Bool) (x : Context) : (c.setCtx k x).rooms = c.rooms := by cases k <;> rfl
@[simp] theorem Core.setCtx_banks (c : Core) (k : Bool) (x : Context) : (c.setCtx k x).banks = c.banks := by cases k <;> rfl
@[simp] theorem Core.setCtx_drain (c : Core) (k : Bool) (x : Context) : (c.setCtx k x).drain = c.drain := by cases k <;> rfl
@[simp] theorem Core.setCtx_good (c : Core) (k : Bool) (x : Context) : (c.setCtx k x).good = c.good := by cases k <;> rfl
@[simp] theorem Core.setCtx_leaving (c : Core) (k : Bool) (x : Context) : (c.setCtx k x).leaving = c.leaving := by cases k <;> rfl
@[simp] theorem Core.setCtx_scrubbed (c : Core) (k : Bool) (x : Context) : (c.setCtx k x).scrubbed = c.scrubbed := by cases k <;> rfl
@[simp] theorem Core.setCtx_cache (c : Core) (k : Bool) (x : Context) : (c.setCtx k x).cache = c.cache := by cases k <;> rfl
@[simp] theorem Core.setCtx_rows (c : Core) (k : Bool) (x : Context) : (c.setCtx k x).rows = c.rows := by cases k <;> rfl
@[simp] theorem Core.setCtx_rowSeed (c : Core) (k : Bool) (x : Context) : (c.setCtx k x).rowSeed = c.rowSeed := by cases k <;> rfl
@[simp] theorem Core.setCtx_pad (c : Core) (k : Bool) (x : Context) : (c.setCtx k x).pad = c.pad := by cases k <;> rfl
@[simp] theorem Core.setCtx_tiles (c : Core) (k : Bool) (x : Context) : (c.setCtx k x).tiles = c.tiles := by cases k <;> rfl
@[simp] theorem Core.setCtx_sides (c : Core) (k : Bool) (x : Context) : (c.setCtx k x).sides = c.sides := by cases k <;> rfl
@[simp] theorem Core.setCtx_spill0 (c : Core) (k : Bool) (x : Context) : (c.setCtx k x).spill0 = c.spill0 := by cases k <;> rfl
@[simp] theorem Core.setCtx_spill1 (c : Core) (k : Bool) (x : Context) : (c.setCtx k x).spill1 = c.spill1 := by cases k <;> rfl
@[simp] theorem Core.setCtx_stash (c : Core) (k : Bool) (x : Context) : (c.setCtx k x).stash = c.stash := by cases k <;> rfl
@[simp] theorem Core.setCtx_tcfg (c : Core) (k : Bool) (x : Context) : (c.setCtx k x).tcfg = c.tcfg := by cases k <;> rfl
@[simp] theorem Core.setCtx_nf (c : Core) (k : Bool) (x : Context) : (c.setCtx k x).nf = c.nf := by cases k <;> rfl
@[simp] theorem Core.setCtx_rules (c : Core) (k : Bool) (x : Context) : (c.setCtx k x).rules = c.rules := by cases k <;> rfl
@[simp] theorem Core.setCtx_replay (c : Core) (k : Bool) (x : Context) : (c.setCtx k x).replay = c.replay := by cases k <;> rfl
@[simp] theorem Core.setCtx_inbox (c : Core) (k : Bool) (x : Context) : (c.setCtx k x).inbox = c.inbox := by cases k <;> rfl
@[simp] theorem Core.setCtx_mapOf (c : Core) (k : Bool) (x : Context) : (c.setCtx k x).mapOf = c.mapOf := by cases k <;> rfl
@[simp] theorem Core.setCtx_records (c : Core) (k : Bool) (x : Context) : (c.setCtx k x).records = c.records := by cases k <;> rfl
@[simp] theorem Core.setCtx_insns (c : Core) (k : Bool) (x : Context) : (c.setCtx k x).insns = c.insns := by cases k <;> rfl
@[simp] theorem Core.setCtx_perf (c : Core) (k : Bool) (x : Context) : (c.setCtx k x).perf = c.perf := by cases k <;> rfl
@[simp] theorem Core.setCtx_disabled (c : Core) (k : Bool) (x : Context) : (c.setCtx k x).disabled = c.disabled := by cases k <;> rfl
@[simp] theorem Core.setCtx_ran (c : Core) (k : Bool) (x : Context) : (c.setCtx k x).ran = c.ran := by cases k <;> rfl

/-! ## Counting -/

@[simp] theorem Core.count_c0 (c : Core) (code n : Nat) : (c.count code n).c0 = c.c0 := by unfold Core.count; split <;> rfl
@[simp] theorem Core.count_c1 (c : Core) (code n : Nat) : (c.count code n).c1 = c.c1 := by unfold Core.count; split <;> rfl
@[simp] theorem Core.count_active (c : Core) (code n : Nat) : (c.count code n).active = c.active := by unfold Core.count; split <;> rfl
@[simp] theorem Core.count_running (c : Core) (code n : Nat) : (c.count code n).running = c.running := by unfold Core.count; split <;> rfl
@[simp] theorem Core.count_launch (c : Core) (code n : Nat) : (c.count code n).launch = c.launch := by unfold Core.count; split <;> rfl
@[simp] theorem Core.count_rooms (c : Core) (code n : Nat) : (c.count code n).rooms = c.rooms := by unfold Core.count; split <;> rfl
@[simp] theorem Core.count_banks (c : Core) (code n : Nat) : (c.count code n).banks = c.banks := by unfold Core.count; split <;> rfl
@[simp] theorem Core.count_drain (c : Core) (code n : Nat) : (c.count code n).drain = c.drain := by unfold Core.count; split <;> rfl
@[simp] theorem Core.count_good (c : Core) (code n : Nat) : (c.count code n).good = c.good := by unfold Core.count; split <;> rfl
@[simp] theorem Core.count_leaving (c : Core) (code n : Nat) : (c.count code n).leaving = c.leaving := by unfold Core.count; split <;> rfl
@[simp] theorem Core.count_scrubbed (c : Core) (code n : Nat) : (c.count code n).scrubbed = c.scrubbed := by unfold Core.count; split <;> rfl
@[simp] theorem Core.count_cache (c : Core) (code n : Nat) : (c.count code n).cache = c.cache := by unfold Core.count; split <;> rfl
@[simp] theorem Core.count_rows (c : Core) (code n : Nat) : (c.count code n).rows = c.rows := by unfold Core.count; split <;> rfl
@[simp] theorem Core.count_rowSeed (c : Core) (code n : Nat) : (c.count code n).rowSeed = c.rowSeed := by unfold Core.count; split <;> rfl
@[simp] theorem Core.count_pad (c : Core) (code n : Nat) : (c.count code n).pad = c.pad := by unfold Core.count; split <;> rfl
@[simp] theorem Core.count_tiles (c : Core) (code n : Nat) : (c.count code n).tiles = c.tiles := by unfold Core.count; split <;> rfl
@[simp] theorem Core.count_sides (c : Core) (code n : Nat) : (c.count code n).sides = c.sides := by unfold Core.count; split <;> rfl
@[simp] theorem Core.count_spill0 (c : Core) (code n : Nat) : (c.count code n).spill0 = c.spill0 := by unfold Core.count; split <;> rfl
@[simp] theorem Core.count_spill1 (c : Core) (code n : Nat) : (c.count code n).spill1 = c.spill1 := by unfold Core.count; split <;> rfl
@[simp] theorem Core.count_stash (c : Core) (code n : Nat) : (c.count code n).stash = c.stash := by unfold Core.count; split <;> rfl
@[simp] theorem Core.count_tcfg (c : Core) (code n : Nat) : (c.count code n).tcfg = c.tcfg := by unfold Core.count; split <;> rfl
@[simp] theorem Core.count_nf (c : Core) (code n : Nat) : (c.count code n).nf = c.nf := by unfold Core.count; split <;> rfl
@[simp] theorem Core.count_rules (c : Core) (code n : Nat) : (c.count code n).rules = c.rules := by unfold Core.count; split <;> rfl
@[simp] theorem Core.count_replay (c : Core) (code n : Nat) : (c.count code n).replay = c.replay := by unfold Core.count; split <;> rfl
@[simp] theorem Core.count_inbox (c : Core) (code n : Nat) : (c.count code n).inbox = c.inbox := by unfold Core.count; split <;> rfl
@[simp] theorem Core.count_mapOf (c : Core) (code n : Nat) : (c.count code n).mapOf = c.mapOf := by unfold Core.count; split <;> rfl
@[simp] theorem Core.count_records (c : Core) (code n : Nat) : (c.count code n).records = c.records := by unfold Core.count; split <;> rfl
@[simp] theorem Core.count_insns (c : Core) (code n : Nat) : (c.count code n).insns = c.insns := by unfold Core.count; split <;> rfl
@[simp] theorem Core.count_disabled (c : Core) (code n : Nat) : (c.count code n).disabled = c.disabled := by unfold Core.count; split <;> rfl
@[simp] theorem Core.count_ran (c : Core) (code n : Nat) : (c.count code n).ran = c.ran := by unfold Core.count; split <;> rfl
@[simp] theorem Core.count_ctx (c : Core) (code n : Nat) (k : Bool) : (c.count code n).ctx k = c.ctx k := by cases k <;> simp [Core.ctx]
theorem Core.count_perf (c : Core) {code n : Nat} (h : code ≠ 0) (hn : n ≠ 0) :
    (c.count code n).perf = vecMap (countPerf code n) c.perf := by simp [Core.count, h, hn]

/-! ## Completing -/

@[simp] theorem Core.completeAt_active (c : Core) (pc : Word) : (c.completeAt pc).active = c.active := by simp [Core.completeAt]
@[simp] theorem Core.completeAt_running (c : Core) (pc : Word) : (c.completeAt pc).running = c.running := by simp [Core.completeAt]
@[simp] theorem Core.completeAt_launch (c : Core) (pc : Word) : (c.completeAt pc).launch = c.launch := by simp [Core.completeAt]
@[simp] theorem Core.completeAt_rooms (c : Core) (pc : Word) : (c.completeAt pc).rooms = c.rooms := by simp [Core.completeAt]
@[simp] theorem Core.completeAt_banks (c : Core) (pc : Word) : (c.completeAt pc).banks = c.banks := by simp [Core.completeAt]
@[simp] theorem Core.completeAt_drain (c : Core) (pc : Word) : (c.completeAt pc).drain = c.drain := by simp [Core.completeAt]
@[simp] theorem Core.completeAt_good (c : Core) (pc : Word) : (c.completeAt pc).good = c.good := by simp [Core.completeAt]
@[simp] theorem Core.completeAt_leaving (c : Core) (pc : Word) : (c.completeAt pc).leaving = c.leaving := by simp [Core.completeAt]
@[simp] theorem Core.completeAt_scrubbed (c : Core) (pc : Word) : (c.completeAt pc).scrubbed = c.scrubbed := by simp [Core.completeAt]
@[simp] theorem Core.completeAt_cache (c : Core) (pc : Word) : (c.completeAt pc).cache = c.cache := by simp [Core.completeAt]
@[simp] theorem Core.completeAt_rows (c : Core) (pc : Word) : (c.completeAt pc).rows = c.rows := by simp [Core.completeAt]
@[simp] theorem Core.completeAt_rowSeed (c : Core) (pc : Word) : (c.completeAt pc).rowSeed = c.rowSeed := by simp [Core.completeAt]
@[simp] theorem Core.completeAt_pad (c : Core) (pc : Word) : (c.completeAt pc).pad = c.pad := by simp [Core.completeAt]
@[simp] theorem Core.completeAt_tiles (c : Core) (pc : Word) : (c.completeAt pc).tiles = c.tiles := by simp [Core.completeAt]
@[simp] theorem Core.completeAt_sides (c : Core) (pc : Word) : (c.completeAt pc).sides = c.sides := by simp [Core.completeAt]
@[simp] theorem Core.completeAt_spill0 (c : Core) (pc : Word) : (c.completeAt pc).spill0 = c.spill0 := by simp [Core.completeAt]
@[simp] theorem Core.completeAt_spill1 (c : Core) (pc : Word) : (c.completeAt pc).spill1 = c.spill1 := by simp [Core.completeAt]
@[simp] theorem Core.completeAt_stash (c : Core) (pc : Word) : (c.completeAt pc).stash = c.stash := by simp [Core.completeAt]
@[simp] theorem Core.completeAt_tcfg (c : Core) (pc : Word) : (c.completeAt pc).tcfg = c.tcfg := by simp [Core.completeAt]
@[simp] theorem Core.completeAt_nf (c : Core) (pc : Word) : (c.completeAt pc).nf = c.nf := by simp [Core.completeAt]
@[simp] theorem Core.completeAt_rules (c : Core) (pc : Word) : (c.completeAt pc).rules = c.rules := by simp [Core.completeAt]
@[simp] theorem Core.completeAt_replay (c : Core) (pc : Word) : (c.completeAt pc).replay = c.replay := by simp [Core.completeAt]
@[simp] theorem Core.completeAt_inbox (c : Core) (pc : Word) : (c.completeAt pc).inbox = c.inbox := by simp [Core.completeAt]
@[simp] theorem Core.completeAt_mapOf (c : Core) (pc : Word) : (c.completeAt pc).mapOf = c.mapOf := by simp [Core.completeAt]
@[simp] theorem Core.completeAt_records (c : Core) (pc : Word) : (c.completeAt pc).records = c.records := by simp [Core.completeAt]
@[simp] theorem Core.completeAt_disabled (c : Core) (pc : Word) : (c.completeAt pc).disabled = c.disabled := by simp [Core.completeAt]
@[simp] theorem Core.completeAt_ran (c : Core) (pc : Word) : (c.completeAt pc).ran = c.ran := by simp [Core.completeAt]
@[simp] theorem Core.completeAt_insns (c : Core) (pc : Word) : (c.completeAt pc).insns = c.insns + 1 := rfl
@[simp] theorem Core.completeAt_perf (c : Core) (pc : Word) : (c.completeAt pc).perf = vecMap (countPerf 2 1) c.perf := by
  simp [Core.completeAt, Core.count_perf]
@[simp] theorem Core.completeAt_ctx_not (c : Core) (pc : Word) : (c.completeAt pc).ctx (!c.active) = c.ctx (!c.active) := by
  cases h : c.active <;> simp [Core.completeAt, Core.ctx, Core.setCtx, h]


@[simp] theorem Core.me_setCtx (c : Core) (x : Context) : (c.setCtx c.active x).me = x := by simp [Core.me]
theorem Core.setCtx_restore (c : Core) (k : Bool) (x : Context) : { c.setCtx k x with c0 := c.c0, c1 := c.c1 } = c := by cases k <;> rfl

/-! ## Registers -/

@[simp] theorem Context.wx_mode (c : Context) (r : XReg) (v : Word) : (c.wx r v).mode = c.mode := by unfold Context.wx; split <;> rfl
@[simp] theorem Context.wx_task (c : Context) (r : XReg) (v : Word) : (c.wx r v).task = c.task := by unfold Context.wx; split <;> rfl
@[simp] theorem Context.wx_h (c : Context) (r : XReg) (v : Word) : (c.wx r v).h = c.h := by unfold Context.wx; split <;> rfl
@[simp] theorem Context.wx_p (c : Context) (r : XReg) (v : Word) : (c.wx r v).p = c.p := by unfold Context.wx; split <;> rfl
@[simp] theorem Context.wx_pc (c : Context) (r : XReg) (v : Word) : (c.wx r v).pc = c.pc := by unfold Context.wx; split <;> rfl
@[simp] theorem Context.wx_rotb (c : Context) (r : XReg) (v : Word) : (c.wx r v).rotb = c.rotb := by unfold Context.wx; split <;> rfl
@[simp] theorem Context.wx_loopc (c : Context) (r : XReg) (v : Word) : (c.wx r v).loopc = c.loopc := by unfold Context.wx; split <;> rfl
@[simp] theorem Context.wx_status (c : Context) (r : XReg) (v : Word) : (c.wx r v).status = c.status := by unfold Context.wx; split <;> rfl
@[simp] theorem Context.wx_latmode (c : Context) (r : XReg) (v : Word) : (c.wx r v).latmode = c.latmode := by unfold Context.wx; split <;> rfl
@[simp] theorem Context.wx_tcause (c : Context) (r : XReg) (v : Word) : (c.wx r v).tcause = c.tcause := by unfold Context.wx; split <;> rfl
@[simp] theorem Context.wx_tval (c : Context) (r : XReg) (v : Word) : (c.wx r v).tval = c.tval := by unfold Context.wx; split <;> rfl
@[simp] theorem Context.wx_epc (c : Context) (r : XReg) (v : Word) : (c.wx r v).epc = c.epc := by unfold Context.wx; split <;> rfl
@[simp] theorem Context.wx_spovf (c : Context) (r : XReg) (v : Word) : (c.wx r v).spovf = c.spovf := by unfold Context.wx; split <;> rfl
@[simp] theorem Context.wx_splim (c : Context) (r : XReg) (v : Word) : (c.wx r v).splim = c.splim := by unfold Context.wx; split <;> rfl
@[simp] theorem Context.wx_ofile (c : Context) (r : XReg) (v : Word) : (c.wx r v).ofile = c.ofile := by unfold Context.wx; split <;> rfl
@[simp] theorem Context.wx_latch (c : Context) (r : XReg) (v : Word) : (c.wx r v).latch = c.latch := by unfold Context.wx; split <;> rfl
@[simp] theorem Context.wx_alarm (c : Context) (r : XReg) (v : Word) : (c.wx r v).alarm = c.alarm := by unfold Context.wx; split <;> rfl
@[simp] theorem Context.wx_steps (c : Context) (r : XReg) (v : Word) : (c.wx r v).steps = c.steps := by unfold Context.wx; split <;> rfl
@[simp] theorem Context.wx_stepDue (c : Context) (r : XReg) (v : Word) : (c.wx r v).stepDue = c.stepDue := by unfold Context.wx; split <;> rfl
@[simp] theorem Context.wx_issued (c : Context) (r : XReg) (v : Word) : (c.wx r v).issued = c.issued := by unfold Context.wx; split <;> rfl
@[simp] theorem Context.wx_restart (c : Context) (r : XReg) (v : Word) : (c.wx r v).restart = c.restart := by unfold Context.wx; split <;> rfl
@[simp] theorem Context.wx_escape (c : Context) (r : XReg) (v : Word) : (c.wx r v).escape = c.escape := by unfold Context.wx; split <;> rfl
@[simp] theorem Context.wx_phaseCancelled (c : Context) (r : XReg) (v : Word) : (c.wx r v).phaseCancelled = c.phaseCancelled := by unfold Context.wx; split <;> rfl
@[simp] theorem Context.wx_phaseIneligible (c : Context) (r : XReg) (v : Word) : (c.wx r v).phaseIneligible = c.phaseIneligible := by unfold Context.wx; split <;> rfl
@[simp] theorem Context.wx_snap (c : Context) (r : XReg) (v : Word) : (c.wx r v).snap = c.snap := by unfold Context.wx; split <;> rfl
@[simp] theorem Context.wx_phaseNo (c : Context) (r : XReg) (v : Word) : (c.wx r v).phaseNo = c.phaseNo := by unfold Context.wx; split <;> rfl
@[simp] theorem Context.wx_copies (c : Context) (r : XReg) (v : Word) : (c.wx r v).copies = c.copies := by unfold Context.wx; split <;> rfl
@[simp] theorem Context.wx_evq (c : Context) (r : XReg) (v : Word) : (c.wx r v).evq = c.evq := by unfold Context.wx; split <;> rfl
@[simp] theorem Context.wx_evqh (c : Context) (r : XReg) (v : Word) : (c.wx r v).evqh = c.evqh := by unfold Context.wx; split <;> rfl
@[simp] theorem Context.wx_evqt (c : Context) (r : XReg) (v : Word) : (c.wx r v).evqt = c.evqt := by unfold Context.wx; split <;> rfl
@[simp] theorem Context.wx_reserved (c : Context) (r : XReg) (v : Word) : (c.wx r v).reserved = c.reserved := by unfold Context.wx; split <;> rfl
@[simp] theorem Context.wx_lq (c : Context) (r : XReg) (v : Word) : (c.wx r v).lq = c.lq := by unfold Context.wx; split <;> rfl
@[simp] theorem Context.wx_cq (c : Context) (r : XReg) (v : Word) : (c.wx r v).cq = c.cq := by unfold Context.wx; split <;> rfl
@[simp] theorem Context.wx_sq (c : Context) (r : XReg) (v : Word) : (c.wx r v).sq = c.sq := by unfold Context.wx; split <;> rfl
@[simp] theorem Context.wx_tokens (c : Context) (r : XReg) (v : Word) : (c.wx r v).tokens = c.tokens := by unfold Context.wx; split <;> rfl
@[simp] theorem Context.wx_holdList (c : Context) (r : XReg) (v : Word) : (c.wx r v).holdList = c.holdList := by unfold Context.wx; split <;> rfl
@[simp] theorem Context.wx_holdCount (c : Context) (r : XReg) (v : Word) : (c.wx r v).holdCount = c.holdCount := by unfold Context.wx; split <;> rfl
@[simp] theorem Context.wx_hold (c : Context) (r : XReg) (v : Word) : (c.wx r v).hold = c.hold := by unfold Context.wx; split <;> rfl
@[simp] theorem Context.wx_kat (c : Context) (r : XReg) (v : Word) : (c.wx r v).kat = c.kat := by unfold Context.wx; split <;> rfl
@[simp] theorem Context.wx_seq (c : Context) (r : XReg) (v : Word) : (c.wx r v).seq = c.seq := by unfold Context.wx; split <;> rfl
@[simp] theorem Context.wx_pendingX (c : Context) (r : XReg) (v : Word) : (c.wx r v).pendingX = c.pendingX := by unfold Context.wx; split <;> rfl
@[simp] theorem Context.wx_stopping (c : Context) (r : XReg) (v : Word) : (c.wx r v).stopping = c.stopping := by unfold Context.wx; split <;> rfl
@[simp] theorem Context.wx_exited (c : Context) (r : XReg) (v : Word) : (c.wx r v).exited = c.exited := by unfold Context.wx; split <;> rfl
@[simp] theorem Context.wx_voids (c : Context) (r : XReg) (v : Word) : (c.wx r v).voids = c.voids := by unfold Context.wx; split <;> rfl
@[simp] theorem Context.wx_merge (c : Context) (r : XReg) (v : Word) : (c.wx r v).merge = c.merge := by unfold Context.wx; split <;> rfl
@[simp] theorem Context.wh_mode (c : Context) (r : HReg) (v : HandleWord) : (c.wh r v).mode = c.mode := by unfold Context.wh; split <;> rfl
@[simp] theorem Context.wh_task (c : Context) (r : HReg) (v : HandleWord) : (c.wh r v).task = c.task := by unfold Context.wh; split <;> rfl
@[simp] theorem Context.wh_x (c : Context) (r : HReg) (v : HandleWord) : (c.wh r v).x = c.x := by unfold Context.wh; split <;> rfl
@[simp] theorem Context.wh_p (c : Context) (r : HReg) (v : HandleWord) : (c.wh r v).p = c.p := by unfold Context.wh; split <;> rfl
@[simp] theorem Context.wh_pc (c : Context) (r : HReg) (v : HandleWord) : (c.wh r v).pc = c.pc := by unfold Context.wh; split <;> rfl
@[simp] theorem Context.wh_rotb (c : Context) (r : HReg) (v : HandleWord) : (c.wh r v).rotb = c.rotb := by unfold Context.wh; split <;> rfl
@[simp] theorem Context.wh_loopc (c : Context) (r : HReg) (v : HandleWord) : (c.wh r v).loopc = c.loopc := by unfold Context.wh; split <;> rfl
@[simp] theorem Context.wh_status (c : Context) (r : HReg) (v : HandleWord) : (c.wh r v).status = c.status := by unfold Context.wh; split <;> rfl
@[simp] theorem Context.wh_latmode (c : Context) (r : HReg) (v : HandleWord) : (c.wh r v).latmode = c.latmode := by unfold Context.wh; split <;> rfl
@[simp] theorem Context.wh_tcause (c : Context) (r : HReg) (v : HandleWord) : (c.wh r v).tcause = c.tcause := by unfold Context.wh; split <;> rfl
@[simp] theorem Context.wh_tval (c : Context) (r : HReg) (v : HandleWord) : (c.wh r v).tval = c.tval := by unfold Context.wh; split <;> rfl
@[simp] theorem Context.wh_epc (c : Context) (r : HReg) (v : HandleWord) : (c.wh r v).epc = c.epc := by unfold Context.wh; split <;> rfl
@[simp] theorem Context.wh_spovf (c : Context) (r : HReg) (v : HandleWord) : (c.wh r v).spovf = c.spovf := by unfold Context.wh; split <;> rfl
@[simp] theorem Context.wh_splim (c : Context) (r : HReg) (v : HandleWord) : (c.wh r v).splim = c.splim := by unfold Context.wh; split <;> rfl
@[simp] theorem Context.wh_ofile (c : Context) (r : HReg) (v : HandleWord) : (c.wh r v).ofile = c.ofile := by unfold Context.wh; split <;> rfl
@[simp] theorem Context.wh_latch (c : Context) (r : HReg) (v : HandleWord) : (c.wh r v).latch = c.latch := by unfold Context.wh; split <;> rfl
@[simp] theorem Context.wh_alarm (c : Context) (r : HReg) (v : HandleWord) : (c.wh r v).alarm = c.alarm := by unfold Context.wh; split <;> rfl
@[simp] theorem Context.wh_steps (c : Context) (r : HReg) (v : HandleWord) : (c.wh r v).steps = c.steps := by unfold Context.wh; split <;> rfl
@[simp] theorem Context.wh_stepDue (c : Context) (r : HReg) (v : HandleWord) : (c.wh r v).stepDue = c.stepDue := by unfold Context.wh; split <;> rfl
@[simp] theorem Context.wh_issued (c : Context) (r : HReg) (v : HandleWord) : (c.wh r v).issued = c.issued := by unfold Context.wh; split <;> rfl
@[simp] theorem Context.wh_restart (c : Context) (r : HReg) (v : HandleWord) : (c.wh r v).restart = c.restart := by unfold Context.wh; split <;> rfl
@[simp] theorem Context.wh_escape (c : Context) (r : HReg) (v : HandleWord) : (c.wh r v).escape = c.escape := by unfold Context.wh; split <;> rfl
@[simp] theorem Context.wh_phaseCancelled (c : Context) (r : HReg) (v : HandleWord) : (c.wh r v).phaseCancelled = c.phaseCancelled := by unfold Context.wh; split <;> rfl
@[simp] theorem Context.wh_phaseIneligible (c : Context) (r : HReg) (v : HandleWord) : (c.wh r v).phaseIneligible = c.phaseIneligible := by unfold Context.wh; split <;> rfl
@[simp] theorem Context.wh_snap (c : Context) (r : HReg) (v : HandleWord) : (c.wh r v).snap = c.snap := by unfold Context.wh; split <;> rfl
@[simp] theorem Context.wh_phaseNo (c : Context) (r : HReg) (v : HandleWord) : (c.wh r v).phaseNo = c.phaseNo := by unfold Context.wh; split <;> rfl
@[simp] theorem Context.wh_copies (c : Context) (r : HReg) (v : HandleWord) : (c.wh r v).copies = c.copies := by unfold Context.wh; split <;> rfl
@[simp] theorem Context.wh_evq (c : Context) (r : HReg) (v : HandleWord) : (c.wh r v).evq = c.evq := by unfold Context.wh; split <;> rfl
@[simp] theorem Context.wh_evqh (c : Context) (r : HReg) (v : HandleWord) : (c.wh r v).evqh = c.evqh := by unfold Context.wh; split <;> rfl
@[simp] theorem Context.wh_evqt (c : Context) (r : HReg) (v : HandleWord) : (c.wh r v).evqt = c.evqt := by unfold Context.wh; split <;> rfl
@[simp] theorem Context.wh_reserved (c : Context) (r : HReg) (v : HandleWord) : (c.wh r v).reserved = c.reserved := by unfold Context.wh; split <;> rfl
@[simp] theorem Context.wh_lq (c : Context) (r : HReg) (v : HandleWord) : (c.wh r v).lq = c.lq := by unfold Context.wh; split <;> rfl
@[simp] theorem Context.wh_cq (c : Context) (r : HReg) (v : HandleWord) : (c.wh r v).cq = c.cq := by unfold Context.wh; split <;> rfl
@[simp] theorem Context.wh_sq (c : Context) (r : HReg) (v : HandleWord) : (c.wh r v).sq = c.sq := by unfold Context.wh; split <;> rfl
@[simp] theorem Context.wh_tokens (c : Context) (r : HReg) (v : HandleWord) : (c.wh r v).tokens = c.tokens := by unfold Context.wh; split <;> rfl
@[simp] theorem Context.wh_holdList (c : Context) (r : HReg) (v : HandleWord) : (c.wh r v).holdList = c.holdList := by unfold Context.wh; split <;> rfl
@[simp] theorem Context.wh_holdCount (c : Context) (r : HReg) (v : HandleWord) : (c.wh r v).holdCount = c.holdCount := by unfold Context.wh; split <;> rfl
@[simp] theorem Context.wh_hold (c : Context) (r : HReg) (v : HandleWord) : (c.wh r v).hold = c.hold := by unfold Context.wh; split <;> rfl
@[simp] theorem Context.wh_kat (c : Context) (r : HReg) (v : HandleWord) : (c.wh r v).kat = c.kat := by unfold Context.wh; split <;> rfl
@[simp] theorem Context.wh_seq (c : Context) (r : HReg) (v : HandleWord) : (c.wh r v).seq = c.seq := by unfold Context.wh; split <;> rfl
@[simp] theorem Context.wh_pendingX (c : Context) (r : HReg) (v : HandleWord) : (c.wh r v).pendingX = c.pendingX := by unfold Context.wh; split <;> rfl
@[simp] theorem Context.wh_stopping (c : Context) (r : HReg) (v : HandleWord) : (c.wh r v).stopping = c.stopping := by unfold Context.wh; split <;> rfl
@[simp] theorem Context.wh_exited (c : Context) (r : HReg) (v : HandleWord) : (c.wh r v).exited = c.exited := by unfold Context.wh; split <;> rfl
@[simp] theorem Context.wh_voids (c : Context) (r : HReg) (v : HandleWord) : (c.wh r v).voids = c.voids := by unfold Context.wh; split <;> rfl
@[simp] theorem Context.wh_merge (c : Context) (r : HReg) (v : HandleWord) : (c.wh r v).merge = c.merge := by unfold Context.wh; split <;> rfl
@[simp] theorem Context.wp_mode (c : Context) (r : PReg) (v : PredWord) : (c.wp r v).mode = c.mode := by unfold Context.wp; split <;> rfl
@[simp] theorem Context.wp_task (c : Context) (r : PReg) (v : PredWord) : (c.wp r v).task = c.task := by unfold Context.wp; split <;> rfl
@[simp] theorem Context.wp_x (c : Context) (r : PReg) (v : PredWord) : (c.wp r v).x = c.x := by unfold Context.wp; split <;> rfl
@[simp] theorem Context.wp_h (c : Context) (r : PReg) (v : PredWord) : (c.wp r v).h = c.h := by unfold Context.wp; split <;> rfl
@[simp] theorem Context.wp_pc (c : Context) (r : PReg) (v : PredWord) : (c.wp r v).pc = c.pc := by unfold Context.wp; split <;> rfl
@[simp] theorem Context.wp_rotb (c : Context) (r : PReg) (v : PredWord) : (c.wp r v).rotb = c.rotb := by unfold Context.wp; split <;> rfl
@[simp] theorem Context.wp_loopc (c : Context) (r : PReg) (v : PredWord) : (c.wp r v).loopc = c.loopc := by unfold Context.wp; split <;> rfl
@[simp] theorem Context.wp_status (c : Context) (r : PReg) (v : PredWord) : (c.wp r v).status = c.status := by unfold Context.wp; split <;> rfl
@[simp] theorem Context.wp_latmode (c : Context) (r : PReg) (v : PredWord) : (c.wp r v).latmode = c.latmode := by unfold Context.wp; split <;> rfl
@[simp] theorem Context.wp_tcause (c : Context) (r : PReg) (v : PredWord) : (c.wp r v).tcause = c.tcause := by unfold Context.wp; split <;> rfl
@[simp] theorem Context.wp_tval (c : Context) (r : PReg) (v : PredWord) : (c.wp r v).tval = c.tval := by unfold Context.wp; split <;> rfl
@[simp] theorem Context.wp_epc (c : Context) (r : PReg) (v : PredWord) : (c.wp r v).epc = c.epc := by unfold Context.wp; split <;> rfl
@[simp] theorem Context.wp_spovf (c : Context) (r : PReg) (v : PredWord) : (c.wp r v).spovf = c.spovf := by unfold Context.wp; split <;> rfl
@[simp] theorem Context.wp_splim (c : Context) (r : PReg) (v : PredWord) : (c.wp r v).splim = c.splim := by unfold Context.wp; split <;> rfl
@[simp] theorem Context.wp_ofile (c : Context) (r : PReg) (v : PredWord) : (c.wp r v).ofile = c.ofile := by unfold Context.wp; split <;> rfl
@[simp] theorem Context.wp_latch (c : Context) (r : PReg) (v : PredWord) : (c.wp r v).latch = c.latch := by unfold Context.wp; split <;> rfl
@[simp] theorem Context.wp_alarm (c : Context) (r : PReg) (v : PredWord) : (c.wp r v).alarm = c.alarm := by unfold Context.wp; split <;> rfl
@[simp] theorem Context.wp_steps (c : Context) (r : PReg) (v : PredWord) : (c.wp r v).steps = c.steps := by unfold Context.wp; split <;> rfl
@[simp] theorem Context.wp_stepDue (c : Context) (r : PReg) (v : PredWord) : (c.wp r v).stepDue = c.stepDue := by unfold Context.wp; split <;> rfl
@[simp] theorem Context.wp_issued (c : Context) (r : PReg) (v : PredWord) : (c.wp r v).issued = c.issued := by unfold Context.wp; split <;> rfl
@[simp] theorem Context.wp_restart (c : Context) (r : PReg) (v : PredWord) : (c.wp r v).restart = c.restart := by unfold Context.wp; split <;> rfl
@[simp] theorem Context.wp_escape (c : Context) (r : PReg) (v : PredWord) : (c.wp r v).escape = c.escape := by unfold Context.wp; split <;> rfl
@[simp] theorem Context.wp_phaseCancelled (c : Context) (r : PReg) (v : PredWord) : (c.wp r v).phaseCancelled = c.phaseCancelled := by unfold Context.wp; split <;> rfl
@[simp] theorem Context.wp_phaseIneligible (c : Context) (r : PReg) (v : PredWord) : (c.wp r v).phaseIneligible = c.phaseIneligible := by unfold Context.wp; split <;> rfl
@[simp] theorem Context.wp_snap (c : Context) (r : PReg) (v : PredWord) : (c.wp r v).snap = c.snap := by unfold Context.wp; split <;> rfl
@[simp] theorem Context.wp_phaseNo (c : Context) (r : PReg) (v : PredWord) : (c.wp r v).phaseNo = c.phaseNo := by unfold Context.wp; split <;> rfl
@[simp] theorem Context.wp_copies (c : Context) (r : PReg) (v : PredWord) : (c.wp r v).copies = c.copies := by unfold Context.wp; split <;> rfl
@[simp] theorem Context.wp_evq (c : Context) (r : PReg) (v : PredWord) : (c.wp r v).evq = c.evq := by unfold Context.wp; split <;> rfl
@[simp] theorem Context.wp_evqh (c : Context) (r : PReg) (v : PredWord) : (c.wp r v).evqh = c.evqh := by unfold Context.wp; split <;> rfl
@[simp] theorem Context.wp_evqt (c : Context) (r : PReg) (v : PredWord) : (c.wp r v).evqt = c.evqt := by unfold Context.wp; split <;> rfl
@[simp] theorem Context.wp_reserved (c : Context) (r : PReg) (v : PredWord) : (c.wp r v).reserved = c.reserved := by unfold Context.wp; split <;> rfl
@[simp] theorem Context.wp_lq (c : Context) (r : PReg) (v : PredWord) : (c.wp r v).lq = c.lq := by unfold Context.wp; split <;> rfl
@[simp] theorem Context.wp_cq (c : Context) (r : PReg) (v : PredWord) : (c.wp r v).cq = c.cq := by unfold Context.wp; split <;> rfl
@[simp] theorem Context.wp_sq (c : Context) (r : PReg) (v : PredWord) : (c.wp r v).sq = c.sq := by unfold Context.wp; split <;> rfl
@[simp] theorem Context.wp_tokens (c : Context) (r : PReg) (v : PredWord) : (c.wp r v).tokens = c.tokens := by unfold Context.wp; split <;> rfl
@[simp] theorem Context.wp_holdList (c : Context) (r : PReg) (v : PredWord) : (c.wp r v).holdList = c.holdList := by unfold Context.wp; split <;> rfl
@[simp] theorem Context.wp_holdCount (c : Context) (r : PReg) (v : PredWord) : (c.wp r v).holdCount = c.holdCount := by unfold Context.wp; split <;> rfl
@[simp] theorem Context.wp_hold (c : Context) (r : PReg) (v : PredWord) : (c.wp r v).hold = c.hold := by unfold Context.wp; split <;> rfl
@[simp] theorem Context.wp_kat (c : Context) (r : PReg) (v : PredWord) : (c.wp r v).kat = c.kat := by unfold Context.wp; split <;> rfl
@[simp] theorem Context.wp_seq (c : Context) (r : PReg) (v : PredWord) : (c.wp r v).seq = c.seq := by unfold Context.wp; split <;> rfl
@[simp] theorem Context.wp_pendingX (c : Context) (r : PReg) (v : PredWord) : (c.wp r v).pendingX = c.pendingX := by unfold Context.wp; split <;> rfl
@[simp] theorem Context.wp_stopping (c : Context) (r : PReg) (v : PredWord) : (c.wp r v).stopping = c.stopping := by unfold Context.wp; split <;> rfl
@[simp] theorem Context.wp_exited (c : Context) (r : PReg) (v : PredWord) : (c.wp r v).exited = c.exited := by unfold Context.wp; split <;> rfl
@[simp] theorem Context.wp_voids (c : Context) (r : PReg) (v : PredWord) : (c.wp r v).voids = c.voids := by unfold Context.wp; split <;> rfl
@[simp] theorem Context.wp_merge (c : Context) (r : PReg) (v : PredWord) : (c.wp r v).merge = c.merge := by unfold Context.wp; split <;> rfl

/-- Reading a scalar register after a write: x0 discards what is written to it (R137). -/
theorem Context.rx_wx (c : Context) (d r : XReg) (v : Word) : (c.wx d v).rx r = if r = d ∧ d ≠ 0 then v else c.rx r := by
  by_cases hd : d = 0#6
  · subst hd; simp [Context.wx]
  · by_cases h0 : r = 0#6
    · subst h0; simp [Context.rx, Ne.symm hd]
    · by_cases hr : r = d
      · subst hr; simp [Context.wx, Context.rx, hd]
      · have hn : d.toNat ≠ r.toNat := fun h => hr (BitVec.eq_of_toNat_eq h.symm)
        simp [Context.wx, Context.rx, hd, hr, h0, hn]

/-- Reading a handle register after a write: h0 discards what is written to it (R138). -/
theorem Context.rh_wh (c : Context) (d r : HReg) (v : HandleWord) : (c.wh d v).rh r = if r = d ∧ d ≠ 0 then v else c.rh r := by
  by_cases hd : d = 0#5
  · subst hd; simp [Context.wh]
  · by_cases h0 : r = 0#5
    · subst h0; simp [Context.rh, Ne.symm hd]
    · by_cases hr : r = d
      · subst hr; simp [Context.wh, Context.rh, hd]
      · have hn : d.toNat ≠ r.toNat := fun h => hr (BitVec.eq_of_toNat_eq h.symm)
        simp [Context.wh, Context.rh, hd, hr, h0, hn]

/-- Reading a predicate register after a write: p0 discards what is written to it (R139). -/
theorem Context.rp_wp (c : Context) (d r : PReg) (v : PredWord) (h96 : r.toNat < 96) : (c.wp d v).rp r = if r = d ∧ d ≠ 0 then v else c.rp r := by
  by_cases hd : d = 0#7
  · subst hd; simp [Context.wp]
  · by_cases h0 : r = 0#7
    · subst h0; simp [Context.rp, Ne.symm hd]
    · by_cases hr : r = d
      · subst hr; simp [Context.wp, Context.rp, hd, h96]
      · have hn : d.toNat ≠ r.toNat := fun h => hr (BitVec.eq_of_toNat_eq h.symm)
        simp [Context.wp, Context.rp, hd, hr, h0, hn]

end Sys2Proof.Machine
end

