-- ==== Sys2Proof/Laws/Access.lean ====
section
/-! SUPPORT. The law of an ordinary access: what a translation, a read and a write of an ordinary address answer, and
what they leave in the caches. -/

namespace Sys2Proof.Machine

/-! ## What touching leaves as it was -/

theorem Touches.refl (s : State) : Touches s s := ⟨rfl, fun _ => rfl⟩
theorem Touches.trans {s t u : State} (h : Touches s t) (g : Touches t u) : Touches s u := by
  refine ⟨?_, fun c => ?_⟩
  · rw [g.rest, h.rest]
  · rw [g.cores c, h.cores c]

theorem Touches.cur {s t : State} (h : Touches s t) : t.cur = s.cur := by rw [h.rest]
theorem Touches.mem {s t : State} (h : Touches s t) : t.mem = s.mem := by rw [h.rest]
theorem Touches.hostMem {s t : State} (h : Touches s t) : t.hostMem = s.hostMem := by rw [h.rest]
theorem Touches.poison {s t : State} (h : Touches s t) : t.poison = s.poison := by rw [h.rest]
theorem Touches.jobs {s t : State} (h : Touches s t) : t.jobs = s.jobs := by rw [h.rest]
theorem Touches.here {s t : State} (h : Touches s t) : t.here = { s.here with cache := t.here.cache, perf := t.here.perf } := by
  have := h.cores s.cur; simpa only [State.here, h.cur] using this
theorem Touches.ctx {s t : State} (h : Touches s t) (c : Nat) (k : Bool) : t.ctx c k = s.ctx c k := by
  simp only [State.ctx]; rw [h.cores c]; rfl
theorem Touches.me {s t : State} (h : Touches s t) : t.me = s.me := by
  simp only [State.me]; rw [h.here]; rfl
theorem Touches.myK {s t : State} (h : Touches s t) : t.myK = s.myK := by
  simp only [State.myK]; rw [h.here]
theorem Touches.revisioned {s t : State} (h : Touches s t) (k : Option Nat) (va : Nat) : t.revisioned k va = s.revisioned k va := by
  rw [h.rest]; rfl
theorem Touches.bytesAt {s t : State} (h : Touches s t) (p : Phys) (n : Nat) : t.bytesAt p n = s.bytesAt p n := by
  rw [h.rest]; rfl
theorem Touches.poisonAt {s t : State} (h : Touches s t) (f : Bool) (a n : Nat) : t.poisonAt f a n = s.poisonAt f a n := by
  rw [h.rest]; rfl

theorem State.walkFrom_touched (s : State) (l : List TlbEntry) (ch w : List Nat) (cs : List (Nat × Core)) (sup : Bool)
    (va : Nat) (ls : List Nat) (tbl : Nat) :
    ({ s with tlb := l, choices := ch, written := w, cores := cs } : State).walkFrom sup va tbl ls = s.walkFrom sup va tbl ls := by
  induction ls generalizing tbl with
  | nil => rfl
  | cons lvl rest ih => simp only [State.walkFrom, ih]; rfl

theorem Touches.walk {s t : State} (h : Touches s t) (sup : Bool) (va : Nat) : t.walk sup va = s.walk sup va := by
  rw [h.rest]; simp only [State.walk, State.walkFrom_touched]

/-- A change of one core's cache room and PERF registers. -/
theorem touches_setCore (s : State) (c : Nat) {v : Core} (h : v = { s.core c with cache := v.cache, perf := v.perf }) :
    Touches s (s.setCore c v) := by
  refine ⟨rfl, fun e => ?_⟩
  by_cases he : e = c
  · subst he; rw [State.core_setCore_self]; exact h
  · rw [State.core_setCore_ne s he]

theorem Core.count_only (c : Core) (code n : Nat) : c.count code n = { c with perf := (c.count code n).perf } := by
  unfold Core.count; split <;> rfl
theorem touches_count (s : State) (c code n : Nat) : Touches s (s.count c code n) := by
  apply touches_setCore; rw [Core.count_only]

theorem touches_tlb (s : State) (l : List TlbEntry) : Touches s { s with tlb := l } := ⟨rfl, fun _ => rfl⟩
theorem touches_choices (s : State) (l : List Nat) : Touches s { s with choices := l } := ⟨rfl, fun _ => rfl⟩
theorem touches_written (s : State) (l : List Nat) : Touches s { s with written := l } := ⟨rfl, fun _ => rfl⟩
theorem touches_choose (s : State) (n : Nat) : Touches s (s.choose n).2 := by
  unfold State.choose; split
  · exact .refl s
  · exact touches_choices s _
theorem touches_noteWrite (s : State) (va : Nat) : Touches s (s.noteWrite va) := by
  exact touches_written s _

/-! ## The walk of a page -/

theorem leNat_lt (bs : List Byte) : leNat bs < 2 ^ (8 * bs.length) := by
  induction bs with
  | nil => simp [leNat]
  | cons b t ih =>
    have hb := b.isLt
    simp only [leNat, List.length_cons, Nat.mul_add, Nat.pow_add]
    omega

theorem State.readNear_lt (s : State) (a n : Nat) : s.readNear a n < 2 ^ (8 * n) := by
  have h := leNat_lt (memRead s.mem a n)
  simpa [State.readNear, memRead] using h

/-- What a walk that finds a leaf met at the first level it tried. -/
theorem State.walkFrom_found (s : State) (sup : Bool) (va tbl l : Nat) (r : List Nat) (a lvl e : Nat) :
    s.walkFrom sup va tbl (l :: r) = .leaf a lvl e ↔
      nearAddr (tbl + 8 * vaIndex va l) = true ∧
      leafValid (s.readNear (tbl + 8 * vaIndex va l) 8) = true ∧
      malformed sup (s.moves (tbl + 8 * vaIndex va l)) (s.readNear (tbl + 8 * vaIndex va l) 8) l = false ∧
      (if leafSize (s.readNear (tbl + 8 * vaIndex va l) 8) = 3
       then s.walkFrom sup va (bitsOf (s.readNear (tbl + 8 * vaIndex va l) 8) 51 8 * 256) r = .leaf a lvl e
       else tbl + 8 * vaIndex va l = a ∧ l = lvl ∧ s.readNear (tbl + 8 * vaIndex va l) 8 = e) := by
  rw [State.walkFrom]
  dsimp only
  generalize tbl + 8 * vaIndex va l = at_
  generalize s.readNear at_ 8 = leaf
  cases nearAddr at_ with
  | false => simp
  | true =>
    cases leafValid leaf with
    | false =>
      by_cases held : (leafState leaf = 1 ∧ leafSize leaf = 3 - l) ∧ 2 ≤ l <;> simp [held]
    | true =>
      cases malformed sup (s.moves at_) leaf l with
      | true => simp
      | false => by_cases link : leafSize leaf = 3 <;> simp [link]

theorem State.walkFrom_lt {s : State} {sup : Bool} {va tbl : Nat} {ls : List Nat} {a lvl e : Nat}
    (h : s.walkFrom sup va tbl ls = .leaf a lvl e) : e < 2 ^ 64 := by
  induction ls generalizing tbl with
  | nil => cases h
  | cons l r walks =>
    have f := ((s.walkFrom_found ..).1 h).2.2.2
    by_cases hs : leafSize (s.readNear (tbl + 8 * vaIndex va l) 8) = 3
    · rw [if_pos hs] at f; exact walks f
    · rw [if_neg hs] at f; exact f.2.2 ▸ s.readNear_lt _ 8

theorem State.walk_lt {s : State} {sup : Bool} {va a lvl e : Nat} (h : s.walk sup va = .leaf a lvl e) : e < 2 ^ 64 := by
  simp only [State.walk] at h
  by_cases hr : (if sup then s.superRoot else s.taskRoot).toNat % 2 = 0
  · rw [if_pos hr] at h; exact absurd h (by simp)
  · rw [if_neg hr] at h; exact State.walkFrom_lt h

/-- A leaf is found at one of the levels tried, never at level 0. -/
theorem State.walkFrom_level {s : State} {sup : Bool} {va : Nat} {ls : List Nat} {tbl a lvl e : Nat}
    (h : s.walkFrom sup va tbl ls = .leaf a lvl e) : lvl ∈ ls ∧ lvl ≠ 0 := by
  induction ls generalizing tbl with
  | nil => cases h
  | cons l r walks =>
    obtain ⟨-, -, well, f⟩ := (s.walkFrom_found ..).1 h
    by_cases hs : leafSize (s.readNear (tbl + 8 * vaIndex va l) 8) = 3
    · rw [if_pos hs] at f
      exact ⟨.tail _ (walks f).1, (walks f).2⟩
    · rw [if_neg hs] at f
      obtain ⟨-, rfl, -⟩ := f
      refine ⟨.head _, fun root => ?_⟩
      subst root
      rw [malformed, if_neg hs] at well; cases well

/-- Two addresses with the same table indices down to the level of the leaf have one walk. -/
theorem State.walkFrom_same {s : State} {sup : Bool} {va vb : Nat} {ls : List Nat} {tbl a lvl e : Nat}
    (down : ls.Pairwise (· < ·)) (same : ∀ l ∈ ls, l ≤ lvl → vaIndex vb l = vaIndex va l)
    (h : s.walkFrom sup va tbl ls = .leaf a lvl e) : s.walkFrom sup vb tbl ls = .leaf a lvl e := by
  induction ls generalizing tbl with
  | nil => cases h
  | cons l r walks =>
    have above : l ≤ lvl := (List.mem_cons.1 (State.walkFrom_level h).1).elim (fun q => q ▸ Nat.le_refl _)
      (fun q => Nat.le_of_lt (List.rel_of_pairwise_cons down q))
    obtain ⟨near, valid, well, f⟩ := (s.walkFrom_found ..).1 h
    refine (s.walkFrom_found ..).2 ?_
    rw [same l (.head _) above]
    refine ⟨near, valid, well, ?_⟩
    by_cases hs : leafSize (s.readNear (tbl + 8 * vaIndex va l) 8) = 3
    · rw [if_pos hs] at f ⊢
      exact walks down.of_cons (fun k hk => same k (.tail _ hk)) f
    · rw [if_neg hs] at f ⊢; exact f

theorem State.walk_level {s : State} {sup : Bool} {va a lvl e : Nat} (h : s.walk sup va = .leaf a lvl e) :
    lvl = 1 ∨ lvl = 2 ∨ lvl = 3 := by
  simp only [State.walk] at h
  by_cases hr : (if sup then s.superRoot else s.taskRoot).toNat % 2 = 0
  · rw [if_pos hr] at h; exact absurd h (by simp)
  · rw [if_neg hr] at h
    have := State.walkFrom_level h
    simp at this; omega

/-- Addresses that one leaf maps have one walk. -/
theorem State.walk_span {s : State} {sup : Bool} {va vb a lvl e : Nat} (h : s.walk sup va = .leaf a lvl e)
    (hp : vb / levelBytes lvl = va / levelBytes lvl) : s.walk sup vb = .leaf a lvl e := by
  have hl := State.walk_level h
  simp only [State.walk] at h ⊢
  by_cases hr : (if sup then s.superRoot else s.taskRoot).toNat % 2 = 0
  · rw [if_pos hr] at h; exact absurd h (by simp)
  · rw [if_neg hr] at h ⊢
    refine State.walkFrom_same (by decide) (fun l hm hle => ?_) h
    simp only [List.mem_cons, List.not_mem_nil, or_false] at hm
    rcases hl with rfl | rfl | rfl <;> rcases hm with rfl | rfl | rfl | rfl <;> simp only [levelBytes, vaIndex, bitsOf] at hp hle ⊢ <;> omega

/-! ## The translation caches stay in agreement -/

/-- A cached translation that some walk gives. -/
def TlbEntry.ofWalk (s : State) (u : TlbEntry) : Prop :=
  ∃ va a lvl e, s.walk u.supervisor va = .leaf a lvl e ∧ u.page = va / levelBytes lvl * (levelBytes lvl / 65536) ∧
    u.level = lvl ∧ u.leaf = w64 e

/-- A cached translation that a walk gives agrees with the walk of every address that it maps. -/
theorem TlbEntry.ofWalk.agrees {s : State} {u : TlbEntry} (h : u.ofWalk s) {sup : Bool} {va a lvl e : Nat}
    (hm : u.maps sup va = true) (hw : s.walk sup va = .leaf a lvl e) : u.leaf = w64 e ∧ u.level = lvl := by
  obtain ⟨vb, a', lvl', e', hb, hp, hl, he⟩ := h
  simp only [TlbEntry.maps, Bool.and_eq_true, beq_iff_eq, decide_eq_true_eq] at hm
  obtain ⟨⟨⟨h1, -⟩, h2⟩, h3⟩ := hm
  have hspan : va / levelBytes lvl' = vb / levelBytes lvl' := by
    rw [hp, hl] at h3; rw [hp] at h2
    rcases State.walk_level hb with rfl | rfl | rfl <;> simp only [levelBytes] at * <;> omega
  rw [h1] at hb
  have := State.walk_span hb hspan
  rw [hw] at this
  simp only [Walk.leaf.injEq] at this
  exact ⟨by rw [he, this.2.2], by rw [hl, this.2.1]⟩

theorem TlbEntry.ofWalk.touched {s t : State} {u : TlbEntry} (h : u.ofWalk s) (g : Touches s t) : u.ofWalk t := by
  obtain ⟨va, a, lvl, e, h1, h2, h3, h4⟩ := h
  exact ⟨va, a, lvl, e, by rw [g.walk]; exact h1, h2, h3, h4⟩

/-- Every cached translation was cached before or comes of a walk. -/
def TlbGrows (s t : State) : Prop := ∀ u ∈ t.tlb, u ∈ s.tlb ∨ u.ofWalk s
theorem TlbGrows.trans {s t u : State} (h : TlbGrows s t) (g : TlbGrows t u) (k : Touches s t) : TlbGrows s u := by
  refine fun x hx => (g x hx).elim (h x) (fun walked => .inr ?_)
  obtain ⟨va, at_, lvl, leaf, found, rest⟩ := walked
  rw [k.walk] at found
  exact ⟨va, at_, lvl, leaf, found, rest⟩
theorem TlbGrows.of_eq {s t : State} (h : t.tlb = s.tlb) : TlbGrows s t := fun _ hu => .inl (h ▸ hu)

/-- An access: the caches alone differ, and no translation that disagrees with the tables has joined them. -/
def Passes (s t : State) : Prop := Touches s t ∧ TlbGrows s t
theorem Passes.refl (s : State) : Passes s s := ⟨.refl s, .of_eq rfl⟩
theorem Passes.trans {s t u : State} (h : Passes s t) (g : Passes t u) : Passes s u := ⟨h.1.trans g.1, h.2.trans g.2 h.1⟩
theorem Passes.of_eq {s t : State} (h : Touches s t) (g : t.tlb = s.tlb) : Passes s t := ⟨h, .of_eq g⟩

/-- Ordinary addresses stay ordinary over an access. -/
theorem Ordinary.passes {s t : State} {va n : Nat} {w : Bool} {p : Phys} (h : Ordinary s va n w p) (g : Passes s t) :
    Ordinary t va n w p := by
  obtain ⟨g1, g2⟩ := g
  obtain ⟨h1, ⟨a, lvl, e, hw, hp, h0, hwr, hf, hc⟩, h3, h4, h5, h6, h7, h8, h9, h10⟩ := h
  refine ⟨h1, ⟨a, lvl, e, by rw [g1.me, g1.walk]; exact hw, hp, h0, hwr, ?_, ?_⟩, ?_, h4, ?_, ?_, ?_, ?_, ?_, ?_⟩
  · rw [g1.rest]; exact hf
  · intro u hu hm
    rw [g1.me] at hm
    rcases g2 u hu with h | h
    · exact hc u h hm
    · exact h.agrees hm hw
  · rw [g1.me, g1.revisioned]; exact h3
  · rw [g1.poisonAt]; exact h5
  · rw [g1.here, g1.myK]; exact h6
  · rw [g1.here]; exact h7
  · intro c m hm; rw [g1.cores c] at hm; exact h8 c m hm
  · rw [g1.here, g1.myK]; exact h9
  · rw [g1.poison, g1.cur]; exact h10

theorem tlbPut_mem {s : State} {t u : TlbEntry} (h : u ∈ (s.tlbPut t).tlb) : u = t ∨ u ∈ s.tlb := by
  simp only [State.tlbPut, List.mem_cons] at h
  rcases h with h | h
  · exact .inl h
  · right
    have kept : ∀ {old : List TlbEntry} {gone : TlbEntry → Bool}, u ∈ (old.reverse.eraseP gone).reverse → u ∈ old := fun hu =>
      List.mem_reverse.1 (List.mem_of_mem_eraseP (List.mem_reverse.1 hu))
    have either : ∀ {full : Prop} [Decidable full] (a b : List TlbEntry), u ∈ (if full then a else b) → u ∈ a ∨ u ∈ b := by
      intro full _ a b hu
      by_cases q : full
      · rw [if_pos q] at hu; exact .inl hu
      · rw [if_neg q] at hu; exact .inr hu
    exact List.mem_of_mem_filter ((either _ _ h).elim kept id)

theorem passes_tlbPut (s : State) {t : TlbEntry} (h : t.ofWalk s) : Passes s (s.tlbPut t) :=
  ⟨touches_tlb s _, fun _ hu => (tlbPut_mem hu).elim (fun e => .inr (e ▸ h)) .inl⟩

theorem passes_prefetch (s : State) (st : TlbAt) (sup down : Bool) (t : TlbEntry) : Passes s (s.prefetch st sup down t) := by
  unfold State.prefetch
  extract_lets next
  split
  · exact .refl s
  · cases hw : s.walk sup (next * 65536) with
    | leaf a lvl e =>
      dsimp only
      split
      · exact .refl s
      · exact passes_tlbPut s ⟨next * 65536, a, lvl, e, hw, rfl, rfl, rfl⟩
    | allocate => exact .refl s
    | bad => exact .refl s
    | absent => exact .refl s

theorem ofWalk_tlbLeaf {s : State} {sup : Bool} {va a lvl e : Nat} (h : s.walk sup va = .leaf a lvl e) (st : TlbAt) :
    ({ tlbLeaf sup va a lvl e with place := st } : TlbEntry).ofWalk s := ⟨va, a, lvl, e, h, rfl, rfl, rfl⟩

theorem passes_tlbHold {s : State} {sup : Bool} {va a lvl e : Nat} (h : s.walk sup va = .leaf a lvl e) (v : View) (st : TlbAt)
    (missed : Bool) : Passes s (s.tlbHold v st (tlbLeaf sup va a lvl e) missed) := by
  unfold State.tlbHold
  have h1 := passes_tlbPut s (ofWalk_tlbLeaf h st)
  dsimp only
  split
  · exact h1.trans (passes_tlbPut _ ((ofWalk_tlbLeaf h _).touched h1.1))
  · exact h1

theorem passes_tlbFill {s : State} {sup : Bool} {va a lvl e : Nat} (h : s.walk sup va = .leaf a lvl e) (v : View) (st : TlbAt)
    (missed : Bool) : Passes s (s.tlbFill v st (tlbLeaf sup va a lvl e) missed) := by
  unfold State.tlbFill
  have h1 := passes_tlbHold h v st missed
  generalize s.tlbHold v st (tlbLeaf sup va a lvl e) missed = u at h1 ⊢
  generalize s.tlb.filter (fun u => u.place == st) = l
  dsimp only
  have h4 : Passes s (match l with
      | [] => u.prefetch st (tlbLeaf sup va a lvl e).supervisor false (tlbLeaf sup va a lvl e)
      | m :: _ => if m.page = (tlbLeaf sup va a lvl e).page then u
        else u.prefetch st (tlbLeaf sup va a lvl e).supervisor (decide ((tlbLeaf sup va a lvl e).page < m.page)) (tlbLeaf sup va a lvl e)) := by
    cases l with
    | nil => exact h1.trans (passes_prefetch ..)
    | cons m r =>
      dsimp only
      split
      · exact h1
      · exact h1.trans (passes_prefetch ..)
  cases st <;> first | exact h1 | exact h4

/-- Using a translation that the tables give. -/
theorem passes_tlbUse {s : State} {sup : Bool} {va a lvl e : Nat} (h : s.walk sup va = .leaf a lvl e) (v : View) :
    Passes s (s.tlbUse v (tlbLeaf sup va a lvl e)) := by
  unfold State.tlbUse
  cases v.stream with
  | none => exact .refl s
  | some st =>
    dsimp only
    have hc : ∀ o : Option (Nat × Nat), Touches s (match o with | some (c, n) => s.count c n 1 | none => s) := fun o => match o with
      | none => .refl s
      | some (c, n) => touches_count s c n 1
    exact ⟨⟨rfl, fun c => (hc _).cores c⟩, fun u hu => (passes_tlbFill h v st _).2 u hu⟩

/-! ## Translating an ordinary address -/

/-- An operation that answers passes its answer and its state to what follows. -/
theorem run_then {ε α : Type} {step : StateT State (Except ε) α} {s t : State} {got : α} (h : step.run s = .ok (got, t))
    {β : Type} (next : α → StateT State (Except ε) β) : (step >>= next).run s = (next got).run t := by
  rw [StateT.run_bind, h]; rfl
theorem X.bind_ok {α β : Type} {x : X α} {next : α → X β} {s t : State} {got : α} (h : x.run s = .ok (got, t)) :
    (x >>= next).run s = (next got).run t := run_then h next
theorem X.get_bind {β : Type} (f : State → X β) (s : State) : ((get : X State) >>= f).run s = (f s).run s := rfl
theorem X.modify_bind {β : Type} (g : State → State) (f : Unit → X β) (s : State) :
    ((modify g : X Unit) >>= f).run s = (f ()).run (g s) := rfl

/-- What a view's caches hold of an address lies in them, and maps it. -/
theorem tlbLook_mem {s : State} {v : View} {sup : Bool} {va : Nat} {t : TlbEntry} (h : s.tlbLook v sup va = some t) :
    t ∈ s.tlb ∧ t.maps sup va = true := by
  have one : ∀ st u, s.tlbIn st sup va = some u → u ∈ s.tlb ∧ u.maps sup va = true := by
    intro st u hu
    unfold State.tlbIn at hu
    have hp := List.find?_some hu
    simp only [Bool.and_eq_true] at hp
    exact ⟨List.mem_of_find?_eq_some hu, hp.2⟩
  unfold State.tlbLook at h
  cases hs : v.stream with
  | none => rw [hs] at h; exact absurd h (by simp)
  | some st =>
    simp only [hs, Option.or_eq_some_iff, Option.bind_eq_some_iff] at h
    exact h.elim (one _ _) (fun second => second.2.elim (fun ⟨_, _, own⟩ => one _ _ own) (fun third => one _ _ third.2))

/-- A table walk of an ordinary address answers its leaf, and caches it. -/
theorem tableWalk_ordinary {s : State} {v : View} {sup : Bool} {va a lvl e : Nat} (hw : s.walk sup va = .leaf a lvl e)
    (hc : ∀ t ∈ s.tlb, t.maps sup va = true → t.leaf = w64 e ∧ t.level = lvl) :
    (tableWalk v sup va).run s = .ok ((a, lvl, e), s.tlbUse v (tlbLeaf sup va a lvl e)) := by
  unfold tableWalk
  rw [X.get_bind]
  cases hfind : s.tlbLook v sup va with
  | none => simp only [hw]; rfl
  | some t =>
    have hm := tlbLook_mem hfind
    have := hc t hm.1 hm.2
    simp only [hw, this.1, this.2, tlbLeaf, decide_true, Bool.and_self, if_true]; rfl

/-- The translation of an ordinary address answers its place, and is an access. -/
theorem translate_ordinary {s : State} {va n : Nat} {w : Bool} {p : Phys} (h : Ordinary s va n w p) (v : View)
    (hs : v.sup = s.me.supervisor) (ht : v.task = s.me.task) :
    ∃ t, (translate v va w).run s = .ok (p, t) ∧ Passes s t := by
  obtain ⟨a, lvl, e, hw, rfl, h0, hwr, hf, hc⟩ := h.leaf
  have hb := h.below
  have hlive := h.live
  rw [← hs] at hw hc
  have hl := tableWalk_ordinary (v := v) hw hc
  have hp := passes_tlbUse hw v
  generalize s.tlbUse v (tlbLeaf v.sup va a lvl e) = t at hl hp
  have h1 : ¬ leafState e = 2 := by rw [h0]; decide
  have h2 : ¬ (leafFar e && t.farGone.contains (leafFrame e + va % levelBytes lvl / 65536)) = true := by
    cases hfar : leafFar e with
    | true => rw [hp.1.rest, hf hfar]; simp
    | false => simp
  have key : ∃ u, (throughTable v va w).run s = .ok (physOf va lvl e, u) ∧ Passes s u := by
    unfold throughTable
    rw [X.bind_ok hl]
    dsimp only
    rw [if_neg h1, X.get_bind, if_neg h2]
    have h5 : ¬ leafState e = 3 := by rw [h0]; decide
    cases w with
    | false => exact ⟨t, by simp only [Bool.false_eq_true, if_false, h5]; rfl, hp⟩
    | true =>
      have h3 : ¬ (!leafW e) = true := by simp [(hwr rfl).1]
      have h4 : ¬ leafCow e = true := by simp [(hwr rfl).2]
      rw [if_pos rfl, if_neg h3, if_neg h4, if_neg h5]
      cases v.sup with
      | true => exact ⟨t, rfl, hp⟩
      | false => exact ⟨t.noteWrite va, rfl, hp.trans (.of_eq (touches_noteWrite t va) rfl)⟩
  unfold translate
  dsimp only
  rw [if_neg (by omega : ¬ 2 ^ 57 ≤ va), X.get_bind]
  cases htask : v.task.bind s.task? with
  | none => exact key
  | some t => simp only [ht, hlive]; exact key

/-- An address that may be written may be read. -/
theorem Ordinary.read {s : State} {va n : Nat} {w : Bool} {p : Phys} (h : Ordinary s va n w p) : Ordinary s va n false p := by
  have ⟨at_, lvl, leaf, found, place, plain, _, reached, agree⟩ := h.leaf
  exact { h with leaf := ⟨at_, lvl, leaf, found, place, plain, nofun, reached, agree⟩ }

/-! ## The stash segments and the cache rooms -/

/-- No filled sector is there to be recalled. -/
theorem State.recallAt_none {s : State} (h : ∀ c, ∀ m ∈ (s.core c).stash, m.filled = 0) (sv : Option (Nat × Nat)) (p : Phys) (n : Nat) :
    s.recallAt sv p n = s := by
  have still : ∀ {α : Type} (l : List α) (f : State → α → State), (∀ v ∈ l, f s v = s) → l.foldl f s = s := by
    intro α l f fixed
    exact List.foldlRecOn (motive := fun u => u = s) l f rfl (fun u hu v hv => by rw [hu, fixed v hv])
  refine still _ _ (fun e _ => still _ _ (fun m hm => ?_))
  rw [if_pos (by rw [h e.1 m hm]; rfl)]

theorem touches_cacheOthers (s : State) (c : Option Nat) (p : Phys) (n : Nat) (w : Bool) : Touches s (s.cacheOthers c p n w) := by
  refine ⟨rfl, fun k => ?_⟩
  simp only [State.cacheOthers, State.core]
  split
  · rfl
  generalize s.cores = l
  induction l with
  | nil => rfl
  | cons e t ih =>
    obtain ⟨j, v⟩ := e
    by_cases hj : j = k
    · subst hj
      by_cases hc : (some j == c || v.cache.isEmpty) = true
      · simp only [List.map_cons, hc, if_true, findKey, Option.getD_some]
      · simp only [List.map_cons, hc, Bool.false_eq_true, if_false, findKey, if_true, Option.getD_some]
    · by_cases hc : (some j == c || v.cache.isEmpty) = true
      · simp only [List.map_cons, hc, if_true, findKey, hj, if_false]; exact ih
      · simp only [List.map_cons, hc, Bool.false_eq_true, if_false, findKey, hj]; exact ih

theorem passes_choose (s : State) (n : Nat) : Passes s (s.choose n).2 :=
  .of_eq (touches_choose s n) (by unfold State.choose; split <;> rfl)

theorem passes_cacheTouch (s : State) (c : Nat) (p : Phys) (n : Nat) (w : Bool) : Passes s (s.cacheTouch c p n w) := by
  unfold State.cacheTouch
  extract_lets core ways line b note here used free chosen bank
  refine ⟨⟨rfl, fun k => ?_⟩, fun u hu => .inl hu⟩
  have hk : ∀ x : Core, x = { core with cache := x.cache, perf := x.perf } → ({ s with cores := setKey c x s.cores } : State).core k =
      { s.core k with cache := (({ s with cores := setKey c x s.cores } : State).core k).cache,
                      perf := (({ s with cores := setKey c x s.cores } : State).core k).perf } :=
    fun x hx => (touches_setCore s c hx).cores k
  by_cases h1 : ways.isEmpty = true
  · simp only [h1, if_true]; rfl
  · by_cases h2 : core.cache.any here = true
    · simp only [h1, h2, Bool.false_eq_true, if_true, if_false]; exact hk _ rfl
    · simp only [h1, h2, Bool.false_eq_true, if_false]; exact hk _ (by rw [Core.count_only])

theorem passes_cached (s : State) (v : View) (p : Phys) (n : Nat) (w : Bool) : Passes s (s.cached v p n w) := by
  unfold State.cached
  extract_lets t
  have h1 : Passes s t := .of_eq (touches_cacheOthers s v.core p n w) rfl
  cases v.core with
  | none => exact h1
  | some c => exact h1.trans (passes_cacheTouch t c p n w)

/-- Where no sector of the Lodge of a view's core is uncorrectable, an access changes no check bits and meets none. -/
theorem cacheChecks_clean {s t : State} {v : View} (hv : v.core = none ∨ v.core = some t.cur)
    (h : t.poison.any (fun q => q.lodgeOf == some t.cur) = false) (p : Phys) (n : Nat) (w : Bool) :
    s.cacheChecks t v p n w = t ∧ t.cachePoison v p n = none := by
  have other : ∀ q ∈ t.poison, (q.lodgeOf == some t.cur) = false := fun q hq => by
    simpa using (List.any_eq_false.1 h) q hq
  rcases hv with hc | hc
  · simp [State.cacheChecks, State.cachePoison, hc]
  constructor
  · unfold State.cacheChecks
    split
    · rfl
    · rw [hc, Option.bind_some]
      cases (t.core t.cur).lineAt p with
      | none => rfl
      | some l =>
        have same : ∀ f : Poison → Bool, t.poison.filter (fun q => !(q.lodgeOf == some t.cur && f q)) = t.poison := fun f =>
          List.filter_eq_self.2 (fun q hq => by rw [other q hq]; rfl)
        simp only [Option.map_some, same (fun q => _)]
        cases w with
        | false => rfl
        | true =>
          have keep : t.poison.map (fun q => if (q.lodgeOf == some t.cur) = true then
              clearBad q (64 * l.lodgeSector 0 + p.addr % 128) n else q) = t.poison :=
            (List.map_congr_left (fun q hq => by rw [other q hq]; rfl)).trans (List.map_id _)
          have left : t.poison.filter (fun q => q.lodgeOf != some t.cur || q.bad != 0) = t.poison :=
            List.filter_eq_self.2 (fun q hq => by simp [bne, other q hq])
          simp only [if_true, keep, left]
  · have none_there : ∀ a m, t.poisonLodge t.cur a m = none := fun a m =>
      List.find?_eq_none.2 (fun q hq => by rw [other q hq]; simp)
    unfold State.cachePoison
    split
    · rfl
    · rw [hc, Option.bind_some]
      cases (t.core t.cur).lineAt p with
      | none => rfl
      | some l => simp [none_there]

/-! ## Reads and writes -/

/-- The views in which the running context itself reads and writes. -/
structure View.isMine (v : View) (s : State) : Prop where
  sup : v.sup = s.me.supervisor
  task : v.task = s.me.task
  ctx : v.ctx = none ∨ v.ctx = some (s.cur, s.myK)
  core : v.core = none ∨ v.core = some s.cur
  spill : v.spill = none

theorem State.myView_isMine (s : State) (b : Bool) : ({ s.myView with inPhase := b } : View).isMine s :=
  ⟨rfl, rfl, .inr rfl, .inr rfl, rfl⟩

/-- An ordinary address is served by memory. -/
theorem Ordinary.spillOf {s t : State} {va n : Nat} {w : Bool} {p : Phys} (h : Ordinary s va n w p) {v : View} (hv : v.isMine s)
    (g : Touches s t) : t.spillOf v va = none := by
  have h6 : (s.core s.cur).inSpill s.myK va = false := h.direct
  rcases hv.ctx with hc | hc
  · simp [State.spillOf, hc]
  · simp only [State.spillOf, hc, Option.bind_some, View.roomed, hv.spill]
    rw [g.cores s.cur]
    have : ({ s.core s.cur with cache := (t.core s.cur).cache, perf := (t.core s.cur).perf } : Core).inSpill s.myK va = false := h6
    rw [this]; rfl
theorem Ordinary.servedBy {s t : State} {va n : Nat} {w : Bool} {p : Phys} (h : Ordinary s va n w p) {v : View} (hv : v.isMine s)
    (g : Touches s t) : t.servedBy v va = none := by
  have h7 : (s.core s.cur).stashAt va = none := h.unstashed
  rcases hv.core with hc | hc
  · simp [State.servedBy, hc]
  · simp only [State.servedBy, hc, Option.bind_some]
    rw [g.cores s.cur]
    have : ({ s.core s.cur with cache := (t.core s.cur).cache, perf := (t.core s.cur).perf } : Core).stashAt va = none := h7
    rw [this]; rfl
theorem Ordinary.unparkedFor {s : State} {va n : Nat} {w : Bool} {p : Phys} (h : Ordinary s va n w p) {v : View} (hv : v.isMine s) :
    s.parkedOn v va = false := by
  rcases hv.ctx with hc | hc
  · simp [State.parkedOn, hc]
  · simp only [State.parkedOn, hc]; exact h.unparked

/-- The bytes that the context sees at an ordinary address: those of memory under its held stores. -/
theorem readVa_ordinary {s : State} {va n : Nat} {p : Phys} (h : Ordinary s va n false p) {v : View} (hv : v.isMine s) :
    ∃ t, (readVa v va n).run s = .ok (s.seen v va (s.bytesAt p n), t) ∧ Passes s t := by
  obtain ⟨t, hl, hp⟩ := translate_ordinary h v hv.sup hv.task
  have hq := hp.trans (passes_cached t v p n false)
  have hk := cacheChecks_clean (s := t) (t := t.cached v p n false) (v := v) (by rw [hq.1.cur]; exact hv.core)
    (by rw [hq.1.poison, hq.1.cur]; exact h.clean) p n false
  refine ⟨t.cached v p n false, ?_, hq⟩
  have h0 := h.unparkedFor hv
  have h1 := h.spillOf hv hp.1
  have h2 := h.servedBy hv hp.1
  have h3 : t.recallAt none p n = t := State.recallAt_none (fun c m hm => by rw [hp.1.cores c] at hm; exact h.unfilled c m hm) none p n
  have h4 := h.ram
  have h5 : t.poisonAt p.far p.addr n = none := by rw [hp.1.poisonAt]; exact h.sound
  unfold readVa
  rw [X.get_bind]
  show StateT.run (if s.parkedOn v va = true then _ else _) s = _
  rw [h0, if_neg (by decide)]
  dsimp only
  refine (X.bind_ok hl).trans ?_
  rw [X.get_bind]
  simp only [h1, h4, h2, h3, h5, hk.1, hk.2, Bool.false_eq_true, if_false]
  have h6 : t.seen v va (t.bytesAt p n) = s.seen v va (s.bytesAt p n) := by
    simp only [State.seen, hp.1.bytesAt]
    rcases hv.ctx with hc | hc <;> simp only [hc]
    rw [hp.1.ctx]
  rw [← h6]; rfl

/-- A write at an ordinary address stores the bytes, and sets the context's escape bit at TASK level (R411). -/
theorem writeVa_ordinary {s : State} {va n : Nat} {p : Phys} (h : Ordinary s va n true p) {v : View} (hv : v.isMine s) (bs : List Byte) :
    ∃ t, (writeVa v va bs).run s = .ok ((), (t.storeAt p bs).escapeOn v va) ∧ Passes s t := by
  obtain ⟨t, hl, hp⟩ := translate_ordinary h v hv.sup hv.task
  have hq := hp.trans (passes_cached t v p bs.length true)
  have hk := cacheChecks_clean (s := t) (t := t.cached v p bs.length true) (v := v) (by rw [hq.1.cur]; exact hv.core)
    (by rw [hq.1.poison, hq.1.cur]; exact h.clean) p bs.length true
  refine ⟨t.cached v p bs.length true, ?_, hq⟩
  have h1 := h.spillOf hv hp.1
  have h2 := h.servedBy hv hp.1
  have h3 : t.recallAt none p bs.length = t :=
    State.recallAt_none (fun c m hm => by rw [hp.1.cores c] at hm; exact h.unfilled c m hm) none p bs.length
  have h4 := h.ram
  unfold writeVa
  refine (X.bind_ok hl).trans ?_
  rw [X.get_bind]
  simp only [h1, h4, h2, h3, hk.1, Bool.false_eq_true, if_false]
  rfl

/-! ## The bytes of a store -/

/-- A byte after a store: what was stored there, or what it was. -/
theorem State.byteAt_storeAt (s : State) (p : Phys) (bs : List Byte) (far : Bool) (x : Nat) :
    (s.storeAt p bs).byteAt far x =
      if far = p.far ∧ p.addr ≤ x ∧ x < p.addr + bs.length then bs[x - p.addr]?.getD 0 else s.byteAt far x := by
  have hr : ∀ a n, (s.rewrite none p.far a n).mem = s.mem ∧ (s.rewrite none p.far a n).hostMem = s.hostMem := by
    intro a n; unfold State.rewrite; split <;> exact ⟨rfl, rfl⟩
  unfold State.storeAt State.byteAt State.nearByte State.farByte
  cases hf : p.far <;> cases far <;>
    simp [(hf ▸ hr p.addr bs.length).1, (hf ▸ hr p.addr bs.length).2, memGet_memWrite]

end Sys2Proof.Machine
end

