-- ==== Sys2Proof/Laws/Encode.lean ====
section
/-! SUPPORT. What the decoder reads from each layout of words: one law per layout, which a proof about an
instruction's encoding cites. -/

namespace Sys2Proof

/-! ## Fields of a concatenation -/

theorem toNat_app {m n : Nat} (x : BitVec m) (y : BitVec n) : (x ++ y).toNat = x.toNat * 2 ^ n + y.toNat := by
  rw [BitVec.toNat_append, ← Nat.shiftLeft_add_eq_or_of_lt y.isLt, Nat.shiftLeft_eq]

theorem fld_eq {n : Nat} (w : IWord) (lo : Nat) (v : BitVec n) (h : w.toNat / 2 ^ lo % 2 ^ n = v.toNat) :
    fld w lo n = v := by
  apply BitVec.eq_of_toNat_eq
  simpa [fld, BitVec.extractLsb'_toNat, Nat.shiftRight_eq_div_pow] using h

theorem getLsbD_eq (w : IWord) (i : Nat) (b : Bool) (h : w.toNat / 2 ^ i % 2 = b.toNat) : w.getLsbD i = b := by
  rw [BitVec.getLsbD, Nat.testBit_eq_decide_div_mod_eq, h]; cases b <;> rfl

/-! ## The toNat of each layout -/

theorem wSA_toNat (f b a d m : BitVec 6) : (wSA f b a d m).toNat =
    (((f.toNat * 64 + b.toNat) * 64 + a.toNat) * 64 + d.toNat) * 256 + m.toNat * 4 := by
  have : (wSA f b a d m).toNat = BitVec.toNat (w := 6 + 6 + 6 + 6 + 6 + 2) (f ++ b ++ a ++ d ++ m ++ 0#2) := rfl
  rw [this]; simp only [toNat_app]; simp; omega

theorem wSI_toNat (i : BitVec 12) (a d m : BitVec 6) : (wSI i a d m).toNat =
    ((i.toNat * 64 + a.toNat) * 64 + d.toNat) * 256 + m.toNat * 4 := by
  have : (wSI i a d m).toNat = BitVec.toNat (w := 12 + 6 + 6 + 6 + 2) (i ++ a ++ d ++ m ++ 0#2) := rfl
  rw [this]; simp only [toNat_app]; simp; omega

theorem wSB_toNat (i : BitVec 15) (a : XReg) (c : BitVec 3) (m : BitVec 6) : (wSB i a c m).toNat =
    ((i.toNat * 64 + a.toNat) * 8 + c.toNat) * 256 + m.toNat * 4 := by
  have : (wSB i a c m).toNat = BitVec.toNat (w := 15 + 6 + 3 + 6 + 2) (i ++ a ++ c ++ m ++ 0#2) := rfl
  rw [this]; simp only [toNat_app]; simp; omega

theorem wSJ_toNat (i : BitVec 18) (d m : BitVec 6) : (wSJ i d m).toNat =
    (i.toNat * 64 + d.toNat) * 256 + m.toNat * 4 := by
  have : (wSJ i d m).toNat = BitVec.toNat (w := 18 + 6 + 6 + 2) (i ++ d ++ m ++ 0#2) := rfl
  rw [this]; simp only [toNat_app]; simp; omega

theorem wSH_toNat (i : BitVec 6) (s f : BitVec 3) (a d : BitVec 6) : (wSH i s f a d).toNat =
    ((((i.toNat * 8 + s.toNat) * 8 + f.toNat) * 64 + a.toNat) * 64 + d.toNat) * 256 + 0x6C := by
  have : (wSH i s f a d).toNat = BitVec.toNat (w := 6 + 3 + 3 + 6 + 6 + 6 + 2) (i ++ s ++ f ++ a ++ d ++ 0x1B#6 ++ 0#2) := rfl
  rw [this]; simp only [toNat_app]; simp; omega

theorem wSP_toNat (f : BitVec 3) (b a d : BitVec 7) : (wSP f b a d).toNat =
    (((f.toNat * 128 + b.toNat) * 128 + a.toNat) * 128 + d.toNat) * 256 + 0x70 := by
  have : (wSP f b a d).toNat = BitVec.toNat (w := 3 + 7 + 7 + 7 + 6 + 2) (f ++ b ++ a ++ d ++ 0x1C#6 ++ 0#2) := rfl
  rw [this]; simp only [toNat_app]; simp; omega

theorem wS_toNat (hi : BitVec 7) (f : BitVec 6) (lo : BitVec 7) (m : BitVec 6) (l : BitVec 2) : (wS hi f lo m l).toNat =
    ((hi.toNat * 64 + f.toNat) * 128 + lo.toNat) * 4096 + m.toNat * 4 + l.toNat := by
  have : (wS hi f lo m l).toNat = BitVec.toNat (w := 7 + 6 + 7 + 4 + 6 + 2) (hi ++ f ++ lo ++ 0#4 ++ m ++ l) := rfl
  rw [this]; simp only [toNat_app]; simp; omega

theorem wT_toNat (f : BitVec 6) (t : Tok) (m : BitVec 6) (l : BitVec 2) : (wT f t m l).toNat =
    f.toNat * 524288 + t.code.toNat * 256 + m.toNat * 4 + l.toNat := by
  have : (wT f t m l).toNat = BitVec.toNat (w := 7 + 6 + 7 + 4 + 6 + 2) (0#7 ++ f ++ 0#7 ++ t.code ++ m ++ l) := rfl
  rw [this]; simp only [toNat_app]; simp; omega

theorem wE_toNat (ty : VTy) (s : Bool) (f : BitVec 6) (g : PReg) (t : Tok) (m : BitVec 6) (l : BitVec 2) :
    (wE ty s f g t m l).toNat =
    ((((((ty.isUnsigned.toNat * 2 + s.toNat) * 4 + ty.nfIndex.toNat) * 8 + ty.code.toNat) * 64 + f.toNat) * 128 + g.toNat)
      * 16 + t.code.toNat) * 256 + m.toNat * 4 + l.toNat := by
  have : (wE ty s f g t m l).toNat = BitVec.toNat (w := 1 + 1 + 2 + 3 + 6 + 7 + 4 + 6 + 2) (BitVec.ofBool ty.isUnsigned
    ++ BitVec.ofBool s ++ ty.nfIndex ++ ty.code ++ f ++ g ++ t.code ++ m ++ l) := rfl
  rw [this]; simp only [toNat_app]; simp; omega

theorem wV_toNat (r : Rm) (b a d : BitVec 10) : (wV r b a d).toNat =
    ((r.code.toNat * 1024 + b.toNat) * 1024 + a.toNat) * 1024 + d.toNat := by
  have : (wV r b a d).toNat = BitVec.toNat (w := 2 + 10 + 10 + 10) (r.code ++ b ++ a ++ d) := rfl
  rw [this]; simp only [toNat_app]; simp

theorem wJob_toNat (o : BitVec 4) (t b a : XReg) (hb ha : HReg) : (wJob o t b a hb ha).toNat =
    ((((o.toNat * 64 + t.toNat) * 64 + b.toNat) * 64 + a.toNat) * 32 + hb.toNat) * 32 + ha.toNat := by
  have : (wJob o t b a hb ha).toNat = BitVec.toNat (w := 4 + 6 + 6 + 6 + 5 + 5) (o ++ t ++ b ++ a ++ hb ++ ha) := rfl
  rw [this]; simp only [toNat_app]; simp

theorem wEnc_toNat (bl : BitVec 1) (f : BitVec 4) (x : XReg) (hc hb ha hd : HReg) : (wEnc bl f x hc hb ha hd).toNat =
    (((((bl.toNat * 16 + f.toNat) * 64 + x.toNat) * 32 + hc.toNat) * 32 + hb.toNat) * 32 + ha.toNat) * 32 + hd.toNat := by
  have : (wEnc bl f x hc hb ha hd).toNat = BitVec.toNat (w := 1 + 1 + 4 + 6 + 5 + 5 + 5 + 5) (0#1 ++ bl ++ f ++ x ++ hc ++ hb
    ++ ha ++ hd) := rfl
  rw [this]; simp only [toNat_app]; simp

/-! ## Reading back the coded fields -/

@[simp] theorem Rm.ofCode_code (r : Rm) : Rm.ofCode r.code = r := by cases r <;> rfl
@[simp] theorem VTy.ofCode_code (t : VTy) : VTy.ofCode t.code t.isUnsigned t.nfIndex = t := by cases t <;> rfl
@[simp] theorem Tok.ofCode_code (t : Tok) : Tok.ofCode t.code = t := by
  obtain ⟨a, b, c, d⟩ := t; cases a <;> cases b <;> cases c <;> cases d <;> rfl
@[simp] theorem Order.ofCode_code (o : Order) : Order.ofCode o.code = o := by cases o <;> rfl
theorem Order.ofFence_fenceCode {o : Order} (h : o ≠ .rlx) : Order.ofFence o.fenceCode = o := by
  cases o <;> first | rfl | exact absurd rfl h
@[simp] theorem Scope.ofCode_code (s : Scope) : Scope.ofCode s.code = s := by cases s <;> rfl
@[simp] theorem HField.ofCode_code (f : HField) : HField.ofCode f.code = f := by cases f <;> rfl
@[simp] theorem Room.ofCode_code (r : Room) : Room.ofCode r.code = r := by cases r <;> rfl
@[simp] theorem Disp.ofCode_code (d : Disp) : Disp.ofCode d.code = d := by cases d <;> rfl
@[simp] theorem WCmp.ofCode_code (c : WCmp) : WCmp.ofCode c.code = c := by cases c <;> rfl
@[simp] theorem DrainMode.ofCode_code (m : DrainMode) : DrainMode.ofCode m.code = m := by cases m <;> rfl
@[simp] theorem Sigma.ofCode_code (g : Sigma) : Sigma.ofCode g.code = g := by cases g <;> rfl
@[simp] theorem CollOp.ofCode_code (o : CollOp) : CollOp.ofCode o.code = o := by cases o <;> rfl

theorem xl_eq {m n : Nat} (w : BitVec m) (lo : Nat) (v : BitVec n) (h : w.toNat / 2 ^ lo % 2 ^ n = v.toNat) :
    w.extractLsb' lo n = v := by
  apply BitVec.eq_of_toNat_eq
  simpa [BitVec.extractLsb'_toNat, Nat.shiftRight_eq_div_pow] using h

@[simp] theorem VOp.ofCode_code (v : VOp) : VOp.ofCode v.code = v := by
  cases v with
  | row n =>
    have ht : (VOp.code (.row n)).toNat = n.toNat := by
      have : (VOp.code (.row n)).toNat = BitVec.toNat (w := 2 + 8) (0#2 ++ n) := rfl
      rw [this, toNat_app]; simp
    have h1 : (VOp.code (.row n)).extractLsb' 8 2 = 0#2 := xl_eq _ _ _ (by rw [ht]; simp; omega)
    have h2 : (VOp.code (.row n)).extractLsb' 0 8 = n := xl_eq _ _ _ (by rw [ht]; omega)
    unfold VOp.ofCode; rw [h1, h2]; rfl
  | ofile n =>
    have ht : (VOp.code (.ofile n)).toNat = 256 + n.toNat := by
      have : (VOp.code (.ofile n)).toNat = BitVec.toNat (w := 2 + 5 + 3) (1#2 ++ 0#5 ++ n) := rfl
      rw [this]; simp only [toNat_app]; simp
    have h1 : (VOp.code (.ofile n)).extractLsb' 8 2 = 1#2 := xl_eq _ _ _ (by rw [ht]; simp; omega)
    have h2 : (VOp.code (.ofile n)).extractLsb' 0 3 = n := xl_eq _ _ _ (by rw [ht]; omega)
    unfold VOp.ofCode; rw [h1, h2]; rfl
  | latch => rfl
  | bcast n =>
    have ht : (VOp.code (.bcast n)).toNat = 768 + n.toNat := by
      have : (VOp.code (.bcast n)).toNat = BitVec.toNat (w := 2 + 2 + 6) (3#2 ++ 0#2 ++ n) := rfl
      rw [this]; simp only [toNat_app]; simp
    have h1 : (VOp.code (.bcast n)).extractLsb' 8 2 = 3#2 := xl_eq _ _ _ (by rw [ht]; simp; omega)
    have h2 : (VOp.code (.bcast n)).extractLsb' 0 6 = n := xl_eq _ _ _ (by rw [ht]; omega)
    unfold VOp.ofCode; rw [h1, h2]; rfl

/-! ## The candidate of a 32-bit layout -/

theorem cand32_sa (f b a d : BitVec 6) : cand32 (wSA f b a d 0x01) = saInstr f.toNat d a b := by
  have h1 : fld (wSA f b a d 0x01) 2 6 = 0x01 := fld_eq _ _ _ (by rw [wSA_toNat]; simp; omega)
  have h2 : fld (wSA f b a d 0x01) 26 6 = f := fld_eq _ _ _ (by rw [wSA_toNat]; omega)
  have h3 : fld (wSA f b a d 0x01) 20 6 = b := fld_eq _ _ _ (by rw [wSA_toNat]; omega)
  have h4 : fld (wSA f b a d 0x01) 14 6 = a := fld_eq _ _ _ (by rw [wSA_toNat]; omega)
  have h5 : fld (wSA f b a d 0x01) 8 6 = d := fld_eq _ _ _ (by rw [wSA_toNat]; omega)
  unfold cand32; rw [h1, h2, h3, h4, h5]; rfl

theorem cand32_sx (n op a d : BitVec 6) : cand32 (wSA n op a d 0x18) = sxInstr op.toNat d a n := by
  have h1 : fld (wSA n op a d 0x18) 2 6 = 0x18 := fld_eq _ _ _ (by rw [wSA_toNat]; simp; omega)
  have h2 : fld (wSA n op a d 0x18) 26 6 = n := fld_eq _ _ _ (by rw [wSA_toNat]; omega)
  have h3 : fld (wSA n op a d 0x18) 20 6 = op := fld_eq _ _ _ (by rw [wSA_toNat]; omega)
  have h4 : fld (wSA n op a d 0x18) 14 6 = a := fld_eq _ _ _ (by rw [wSA_toNat]; omega)
  have h5 : fld (wSA n op a d 0x18) 8 6 = d := fld_eq _ _ _ (by rw [wSA_toNat]; omega)
  unfold cand32; rw [h1, h2, h3, h4, h5]; rfl

theorem cand32_si (i : BitVec 12) (a d m : BitVec 6)
    (h : m ≠ 0x01 ∧ m ≠ 0x15 ∧ m ≠ 0x16 ∧ m ≠ 0x18 ∧ m ≠ 0x1B ∧ m ≠ 0x1C ∧ m ≠ 0x1D) :
    cand32 (wSI i a d m) = siInstr m.toNat d a i := by
  have h1 : fld (wSI i a d m) 2 6 = m := fld_eq _ _ _ (by rw [wSI_toNat]; omega)
  have h2 : fld (wSI i a d m) 8 6 = d := fld_eq _ _ _ (by rw [wSI_toNat]; omega)
  have h3 : fld (wSI i a d m) 14 6 = a := fld_eq _ _ _ (by rw [wSI_toNat]; omega)
  have h4 : fld (wSI i a d m) 20 12 = i := fld_eq _ _ _ (by rw [wSI_toNat]; omega)
  obtain ⟨n1, n2, n3, n4, n5, n6, n7⟩ := h
  unfold cand32; rw [h1, h2, h3, h4]
  split <;> first
    | rfl
    | (rename_i hm; exact absurd (BitVec.eq_of_toNat_eq (x := m) (y := 0x01) hm) n1)
    | (rename_i hm; exact absurd (BitVec.eq_of_toNat_eq (x := m) (y := 0x15) hm) n2)
    | (rename_i hm; exact absurd (BitVec.eq_of_toNat_eq (x := m) (y := 0x16) hm) n3)
    | (rename_i hm; exact absurd (BitVec.eq_of_toNat_eq (x := m) (y := 0x18) hm) n4)
    | (rename_i hm; exact absurd (BitVec.eq_of_toNat_eq (x := m) (y := 0x1B) hm) n5)
    | (rename_i hm; exact absurd (BitVec.eq_of_toNat_eq (x := m) (y := 0x1C) hm) n6)
    | (rename_i hm; exact absurd (BitVec.eq_of_toNat_eq (x := m) (y := 0x1D) hm) n7)

theorem cand32_bz (o : BitVec 15) (a : XReg) (c : BitVec 3) : cand32 (wSB o a c 0x15) = bzInstr c.toNat a o := by
  have h1 : fld (wSB o a c 0x15) 2 6 = 0x15 := fld_eq _ _ _ (by rw [wSB_toNat]; simp; omega)
  have h2 : fld (wSB o a c 0x15) 8 3 = c := fld_eq _ _ _ (by rw [wSB_toNat]; omega)
  have h3 : fld (wSB o a c 0x15) 11 6 = a := fld_eq _ _ _ (by rw [wSB_toNat]; omega)
  have h4 : fld (wSB o a c 0x15) 17 15 = o := fld_eq _ _ _ (by rw [wSB_toNat]; omega)
  unfold cand32; rw [h1, h2, h3, h4]; rfl

theorem cand32_loop (o : BitVec 15) (k : BitVec 3) : cand32 (wSB o 0 k 0x1D) = some (.loop k o) := by
  have h1 : fld (wSB o 0 k 0x1D) 2 6 = 0x1D := fld_eq _ _ _ (by rw [wSB_toNat]; simp; omega)
  have h2 : fld (wSB o 0 k 0x1D) 8 3 = k := fld_eq _ _ _ (by rw [wSB_toNat]; omega)
  have h4 : fld (wSB o 0 k 0x1D) 17 15 = o := fld_eq _ _ _ (by rw [wSB_toNat]; omega)
  unfold cand32; rw [h1, h2, h4]; rfl

theorem cand32_jal (o : BitVec 18) (d : XReg) : cand32 (wSJ o d 0x16) = some (.jal d o) := by
  have h1 : fld (wSJ o d 0x16) 2 6 = 0x16 := fld_eq _ _ _ (by rw [wSJ_toNat]; simp; omega)
  have h2 : fld (wSJ o d 0x16) 8 6 = d := fld_eq _ _ _ (by rw [wSJ_toNat]; omega)
  have h3 : fld (wSJ o d 0x16) 14 18 = o := fld_eq _ _ _ (by rw [wSJ_toNat]; omega)
  unfold cand32; rw [h1, h2, h3]; rfl

theorem cand32_sh (i : BitVec 6) (s f : BitVec 3) (a d : BitVec 6) : cand32 (wSH i s f a d) = shInstr f.toNat d a s i := by
  have h1 : fld (wSH i s f a d) 2 6 = 0x1B := fld_eq _ _ _ (by rw [wSH_toNat]; simp; omega)
  have h2 : fld (wSH i s f a d) 8 6 = d := fld_eq _ _ _ (by rw [wSH_toNat]; omega)
  have h3 : fld (wSH i s f a d) 14 6 = a := fld_eq _ _ _ (by rw [wSH_toNat]; omega)
  have h4 : fld (wSH i s f a d) 20 3 = f := fld_eq _ _ _ (by rw [wSH_toNat]; omega)
  have h5 : fld (wSH i s f a d) 23 3 = s := fld_eq _ _ _ (by rw [wSH_toNat]; omega)
  have h6 : fld (wSH i s f a d) 26 6 = i := fld_eq _ _ _ (by rw [wSH_toNat]; omega)
  unfold cand32; rw [h1, h2, h3, h4, h5, h6]; rfl

theorem cand32_sp (f : BitVec 3) (b a d : BitVec 7) : cand32 (wSP f b a d) = spInstr f.toNat d a b := by
  have h1 : fld (wSP f b a d) 2 6 = 0x1C := fld_eq _ _ _ (by rw [wSP_toNat]; simp; omega)
  have h2 : fld (wSP f b a d) 8 7 = d := fld_eq _ _ _ (by rw [wSP_toNat]; omega)
  have h3 : fld (wSP f b a d) 15 7 = a := fld_eq _ _ _ (by rw [wSP_toNat]; omega)
  have h4 : fld (wSP f b a d) 22 7 = b := fld_eq _ _ _ (by rw [wSP_toNat]; omega)
  have h5 : fld (wSP f b a d) 29 3 = f := fld_eq _ _ _ (by rw [wSP_toNat]; omega)
  unfold cand32; rw [h1, h2, h3, h4, h5]; rfl

/-! ## The fields of word 0 of the longer forms -/

theorem wS_fields (hi : BitVec 7) (f : BitVec 6) (lo : BitVec 7) (m : BitVec 6) (l : BitVec 2) :
    fld (wS hi f lo m l) 2 6 = m ∧ fld (wS hi f lo m l) 19 6 = f ∧ fld (wS hi f lo m l) 12 7 = lo ∧
      fld (wS hi f lo m l) 25 7 = hi ∧ fld (wS hi f lo m l) 0 2 = l := by
  refine ⟨?_, ?_, ?_, ?_, ?_⟩ <;> apply fld_eq <;> rw [wS_toNat] <;> omega

theorem wT_fields (f : BitVec 6) (t : Tok) (m : BitVec 6) (l : BitVec 2) :
    fld (wT f t m l) 2 6 = m ∧ fld (wT f t m l) 19 6 = f ∧ tokOf (wT f t m l) = t ∧ fld (wT f t m l) 0 2 = l := by
  have h : fld (wT f t m l) 8 4 = t.code := by apply fld_eq; rw [wT_toNat]; omega
  refine ⟨?_, ?_, by unfold tokOf; rw [h, Tok.ofCode_code], ?_⟩ <;> apply fld_eq <;> rw [wT_toNat] <;> omega

theorem wE_fields (ty : VTy) (s : Bool) (f : BitVec 6) (g : PReg) (t : Tok) (m : BitVec 6) (l : BitVec 2) :
    fld (wE ty s f g t m l) 2 6 = m ∧ fld (wE ty s f g t m l) 19 6 = f ∧ fld (wE ty s f g t m l) 12 7 = g ∧
      tokOf (wE ty s f g t m l) = t ∧ tyOf (wE ty s f g t m l) = ty ∧ (wE ty s f g t m l).getLsbD 30 = s ∧
      fld (wE ty s f g t m l) 0 2 = l := by
  have hu := ty.isUnsigned.toNat_le
  have hs := s.toNat_le
  have h1 : fld (wE ty s f g t m l) 8 4 = t.code := by apply fld_eq; rw [wE_toNat]; omega
  have h2 : fld (wE ty s f g t m l) 25 3 = ty.code := by apply fld_eq; rw [wE_toNat]; omega
  have h3 : fld (wE ty s f g t m l) 28 2 = ty.nfIndex := by apply fld_eq; rw [wE_toNat]; omega
  have h4 : (wE ty s f g t m l).getLsbD 31 = ty.isUnsigned := by apply getLsbD_eq; rw [wE_toNat]; omega
  refine ⟨?_, ?_, ?_, by unfold tokOf; rw [h1, Tok.ofCode_code], by unfold tyOf; rw [h2, h3, h4, VTy.ofCode_code], ?_, ?_⟩
  · apply fld_eq; rw [wE_toNat]; omega
  · apply fld_eq; rw [wE_toNat]; omega
  · apply fld_eq; rw [wE_toNat]; omega
  · apply getLsbD_eq; rw [wE_toNat]; omega
  · apply fld_eq; rw [wE_toNat]; omega

theorem wV_fields (r : Rm) (b a d : BitVec 10) :
    fld (wV r b a d) 30 2 = r.code ∧ fld (wV r b a d) 0 10 = d ∧ fld (wV r b a d) 10 10 = a ∧ fld (wV r b a d) 20 10 = b := by
  refine ⟨?_, ?_, ?_, ?_⟩ <;> apply fld_eq <;> rw [wV_toNat] <;> omega

/-- The parts of a standard vector instruction are those it was encoded from. -/
theorem vparts_enc (h : VHdr) (m f : BitVec 6) (l : BitVec 2) (d a b : BitVec 10) (w : Option IWord) :
    vparts (wE h.ty h.sat f h.guard h.tok m l) (wV h.rm b a d) w = { h := h, d := d, a := a, b := b, w2 := w } := by
  obtain ⟨_, _, h3, h4, h5, h6, _⟩ := wE_fields h.ty h.sat f h.guard h.tok m l
  obtain ⟨g1, g2, g3, g4⟩ := wV_fields h.rm b a d
  unfold vparts; rw [h3, h4, h5, h6, g1, g2, g3, g4, Rm.ofCode_code]

/-! ## From the candidate to the decoder -/

theorem accept_ok {c : Option Instr} {i : Instr} {ws : List IWord} (hc : c = some i) (hw : i.wf = true) (he : encode i = ws) :
    accept c ws = .ok i := by
  subst hc; simp [accept, hw, he]

theorem decode_one {i : Instr} {w : IWord} (r : List IWord) (h0 : w ≠ 0) (hl : fld w 0 2 = 0) (hc : cand32 w = some i)
    (hw : i.wf = true) (he : encode i = [w]) : decode (encode i ++ r) = .ok (i, r) := by
  have hn : lengthOf w = 1 := by unfold lengthOf; rw [hl]; rfl
  rw [he]; simp only [List.cons_append, List.nil_append, decode, if_neg h0, hn, accept_ok hc hw he]; rfl

theorem decode_two {i : Instr} {w v : IWord} (r : List IWord) (hl : fld w 0 2 = 2) (hc : candWide w v none = some i)
    (hw : i.wf = true) (he : encode i = [w, v]) : decode (encode i ++ r) = .ok (i, r) := by
  have hn : lengthOf w = 2 := by unfold lengthOf; rw [hl]; rfl
  have h0 : w ≠ 0 := by rintro rfl; simp [fld] at hl
  rw [he]; simp only [List.cons_append, List.nil_append, decode, if_neg h0, hn, accept_ok hc hw he]; rfl

theorem decode_three {i : Instr} {w v l : IWord} (r : List IWord) (hl : fld w 0 2 = 3)
    (hc : candWide w v (some l) = some i) (hw : i.wf = true) (he : encode i = [w, v, l]) :
    decode (encode i ++ r) = .ok (i, r) := by
  have hn : lengthOf w = 3 := by unfold lengthOf; rw [hl]; rfl
  have h0 : w ≠ 0 := by rintro rfl; simp [fld] at hl
  rw [he]; simp only [List.cons_append, List.nil_append, decode, if_neg h0, hn, accept_ok hc hw he]; rfl

/-! ## No encoding is the zero word, and every length field says the length -/

theorem wSA_ne {f b a d m : BitVec 6} (h : m ≠ 0) : wSA f b a d m ≠ 0 := by
  intro e
  have h2 : fld (wSA f b a d m) 2 6 = m := fld_eq _ _ _ (by rw [wSA_toNat]; omega)
  rw [e] at h2; exact h (by rw [← h2]; rfl)
theorem wSI_ne {i : BitVec 12} {a d m : BitVec 6} (h : m ≠ 0) : wSI i a d m ≠ 0 := by
  intro e
  have h2 : fld (wSI i a d m) 2 6 = m := fld_eq _ _ _ (by rw [wSI_toNat]; omega)
  rw [e] at h2; exact h (by rw [← h2]; rfl)
theorem wSA_len (f b a d m : BitVec 6) : fld (wSA f b a d m) 0 2 = 0 := fld_eq _ _ _ (by rw [wSA_toNat]; simp; omega)
theorem wSI_len (i : BitVec 12) (a d m : BitVec 6) : fld (wSI i a d m) 0 2 = 0 := fld_eq _ _ _ (by rw [wSI_toNat]; simp; omega)
theorem wSB_len (i : BitVec 15) (a : XReg) (c : BitVec 3) (m : BitVec 6) : fld (wSB i a c m) 0 2 = 0 :=
  fld_eq _ _ _ (by rw [wSB_toNat]; simp; omega)
theorem wSJ_len (i : BitVec 18) (d m : BitVec 6) : fld (wSJ i d m) 0 2 = 0 := fld_eq _ _ _ (by rw [wSJ_toNat]; simp; omega)
theorem wSH_len (i : BitVec 6) (s f : BitVec 3) (a d : BitVec 6) : fld (wSH i s f a d) 0 2 = 0 :=
  fld_eq _ _ _ (by rw [wSH_toNat]; simp; omega)
theorem wSP_len (f : BitVec 3) (b a d : BitVec 7) : fld (wSP f b a d) 0 2 = 0 := fld_eq _ _ _ (by rw [wSP_toNat]; simp; omega)

/-! ## One law per layout: the round trip of an instruction so encoded -/

theorem round_sa {i : Instr} {f b a d : BitVec 6} (r : List IWord) (he : encode i = [wSA f b a d 0x01])
    (hc : saInstr f.toNat d a b = some i) (hw : i.wf = true) : decode (encode i ++ r) = .ok (i, r) :=
  decode_one r (wSA_ne (by decide)) (wSA_len ..) ((cand32_sa f b a d).trans hc) hw he

theorem round_sx {i : Instr} {n op a d : BitVec 6} (r : List IWord) (he : encode i = [wSA n op a d 0x18])
    (hc : sxInstr op.toNat d a n = some i) (hw : i.wf = true) : decode (encode i ++ r) = .ok (i, r) :=
  decode_one r (wSA_ne (by decide)) (wSA_len ..) ((cand32_sx n op a d).trans hc) hw he

theorem round_si {i : Instr} {k : BitVec 12} {a d m : BitVec 6} (r : List IWord) (he : encode i = [wSI k a d m])
    (hm : m ≠ 0 ∧ m ≠ 0x01 ∧ m ≠ 0x15 ∧ m ≠ 0x16 ∧ m ≠ 0x18 ∧ m ≠ 0x1B ∧ m ≠ 0x1C ∧ m ≠ 0x1D)
    (hc : siInstr m.toNat d a k = some i) (hw : i.wf = true) : decode (encode i ++ r) = .ok (i, r) :=
  decode_one r (wSI_ne hm.1) (wSI_len ..) ((cand32_si k a d m hm.2).trans hc) hw he

theorem round_sh {i : Instr} {o : BitVec 6} {s f : BitVec 3} {a d : BitVec 6} (r : List IWord)
    (he : encode i = [wSH o s f a d]) (hc : shInstr f.toNat d a s o = some i) (hw : i.wf = true) :
    decode (encode i ++ r) = .ok (i, r) :=
  decode_one r (by intro e; have := congrArg BitVec.toNat e; rw [wSH_toNat] at this; simp at this)
    (wSH_len ..) ((cand32_sh o s f a d).trans hc) hw he

theorem round_sp {i : Instr} {f : BitVec 3} {b a d : BitVec 7} (r : List IWord)
    (he : encode i = [wSP f b a d]) (hc : spInstr f.toNat d a b = some i) (hw : i.wf = true) :
    decode (encode i ++ r) = .ok (i, r) :=
  decode_one r (by intro e; have := congrArg BitVec.toNat e; rw [wSP_toNat] at this; simp at this)
    (wSP_len ..) ((cand32_sp f b a d).trans hc) hw he

/-- The candidate of a standard vector instruction, by its major. -/
theorem candWide_vec (h : VHdr) (m f : BitVec 6) (l : BitVec 2) (d a b : BitVec 10) (w : Option IWord)
    (hm : m = 0x08 ∨ m = 0x09 ∨ m = 0x0A ∨ m = 0x0B ∨ m = 0x0C ∨ m = 0x0E) :
    candWide (wE h.ty h.sat f h.guard h.tok m l) (wV h.rm b a d) w =
      (let v : VParts := { h := h, d := d, a := a, b := b, w2 := w }
       match m.toNat with
       | 0x08 => valuInstr f.toNat v | 0x09 => vintInstr f.toNat v | 0x0A => vcvtInstr f.toNat v
       | 0x0B => vredInstr f.toNat v | 0x0C => vsfuInstr f.toNat v | _ => vaccInstr f.toNat v) := by
  obtain ⟨h1, h2, _⟩ := wE_fields h.ty h.sat f h.guard h.tok m l
  unfold candWide; rw [h1, h2, vparts_enc]
  rcases hm with rfl | rfl | rfl | rfl | rfl | rfl <;> rfl

end Sys2Proof
end

