-- ==== Sys2Proof/Laws/Retire.lean ====
section
/-! SUPPORT. What it says of a state that an instruction completes: one law for every instruction of the sequencer
that ends by completing. -/

namespace Sys2Proof.Machine

@[simp] theorem State.me_setMe (s : State) (y : Context) : (s.setMe y).me = y := by
  simp [State.setMe, State.me, State.setHere, State.here, Core.me]
@[simp] theorem State.cur_setMe (s : State) (y : Context) : (s.setMe y).cur = s.cur := rfl
@[simp] theorem State.setMe_setMe_me (s : State) (x y : Context) : ((s.setMe x).setMe y).me = y := by simp

theorem Core.ctx_active_not (c d : Core) (h : d.active = c.active) : d.ctx (!d.active) = d.ctx (!c.active) := by rw [h]

/-- The current core after its running context `y` completes an instruction. -/
theorem State.here_completeAt (s : State) (y : Context) (pc : Word) :
    ((s.setMe y).completeAt pc).here = (s.here.setCtx s.here.active y).completeAt pc := by
  simp [State.completeAt, State.setMe, State.setHere, State.here]

@[simp] theorem State.completeAt_cur (s : State) (pc : Word) : (s.completeAt pc).cur = s.cur := rfl

theorem Core.me_completeAt (c : Core) (y : Context) (pc : Word) :
    ((c.setCtx c.active y).completeAt pc).me = y.passed pc := by
  cases h : c.active <;> simp [Core.completeAt, Core.count, Core.me, Core.setCtx, Core.ctx, h, Context.passed]

theorem setKey_setKey {α : Type} (k : Nat) (v w : α) (l : List (Nat × α)) : setKey k w (setKey k v l) = setKey k w l := by
  have top : ∀ rest, setKey k w ((k, v) :: rest) = (k, w) :: rest := fun rest => if_pos rfl
  induction l with
  | nil => exact top []
  | cons e rest below =>
    rw [setKey.eq_def k v, setKey.eq_def k w (e :: rest)]
    by_cases here : e.1 = k
    · simp only [if_pos here, top]
    · by_cases low : e.1 < k
      · simp only [if_neg here, if_pos low, setKey, below]
      · simp only [if_neg here, if_neg low, top]

/-- Two writes of one core. -/
theorem State.setCore_setCore (s : State) (c : Nat) (v w : Core) : (s.setCore c v).setCore c w = s.setCore c w := by
  simp [State.setCore, setKey_setKey]

/-- A completed instruction changes nothing but the current core. -/
theorem State.onlyHere_setHere (s : State) (v : Core) : OnlyHere s (s.setHere v) :=
  ⟨rfl, fun _ h => State.core_setCore_ne s h v⟩

theorem State.completeAt_setMe (s : State) (y : Context) (pc : Word) :
    (s.setMe y).completeAt pc = s.setHere ((s.here.setCtx s.here.active y).completeAt pc) := by
  simp [State.completeAt, State.setMe, State.setHere, State.here, State.setCore_setCore]

/-- The running context becomes `y` and completes an instruction: the law of every sequencer instruction that ends
so. -/
theorem retires_completeAt (s : State) (y : Context) (pc : Word) : Retires s ((s.setMe y).completeAt pc) y pc := by
  have hh := State.here_completeAt s y pc
  have hf : OnlyHere s ((s.setMe y).completeAt pc) := by rw [State.completeAt_setMe]; exact State.onlyHere_setHere _ _
  refine ⟨?_, ?_, ?_, ⟨hf, ?_, ?_⟩, ?_⟩
  · rw [State.me, hh, Core.me_completeAt]
  · rw [hh]; simp
  · rw [hh]; simp
  · rw [hh]
    have ha := Core.completeAt_ctx_not (s.here.setCtx s.here.active y) pc
    simp only [Core.setCtx_active, Core.ctx_setCtx_not] at ha
    exact ha
  · rw [hh]; simp
  · rw [State.completeAt_setMe]; exact ⟨fun _ => rfl, fun _ => rfl⟩

/-- An instruction that completes with no other effect. -/
theorem State.setMe_me (s : State) : OnlyHere s (s.setMe s.me) := State.onlyHere_setHere _ _

theorem Core.setCtx_ctx (c : Core) (k : Bool) : c.setCtx k (c.ctx k) = c := by cases k <;> rfl
theorem Core.setCtx_me (c : Core) : c.setCtx c.active c.me = c := c.setCtx_ctx c.active

theorem State.completeAt_self (s : State) (pc : Word) : s.completeAt pc = s.setHere (s.here.completeAt pc) := rfl

/-- The law for an instruction that only goes on. -/
theorem retires_goesOn (s : State) (pc : Word) : Retires s (s.completeAt pc) s.me pc := by
  have h : (s.setMe s.me).completeAt pc = s.completeAt pc := by
    rw [State.completeAt_setMe, State.completeAt_self, State.me, Core.setCtx_me]
  exact h ▸ retires_completeAt s s.me pc

/-- A result for a scalar register. -/
theorem writesX_retireX (s : State) (d : XReg) (v : Word) (n : Nat) : WritesX s (s.retireX n d v) d v n := by
  have hr : s.retireX n d v = (s.setMe (s.me.wx d v)).completeAt (s.me.pc + w64 n) := by
    simp [State.retireX, State.retire, State.setX]
  have h := retires_completeAt s (s.me.wx d v) (s.me.pc + w64 n)
  rw [← hr] at h
  have hx : (s.retireX n d v).me.x = (s.me.wx d v).x := by rw [h.context]; simp [Context.passed, Context.stepCount]; split <;> rfl
  refine ⟨fun r => ?_, ?_⟩
  · have : (s.retireX n d v).x r = (s.me.wx d v).rx r := by
      simp only [State.x, Context.rx, hx]
    rw [this, Context.rx_wx]; rfl
  · have he : ({ s.me with x := (s.retireX n d v).me.x } : Context) = s.me.wx d v := by
      rw [hx]; unfold Context.wx; split <;> rfl
    rw [he]; exact h

/-- A result for a handle register. -/
theorem writesH_setH (s : State) (d : HReg) (v : HandleWord) : WritesH s ((s.setH d v).retire 4) d v := by
  have hr : (s.setH d v).retire 4 = (s.setMe (s.me.wh d v)).completeAt (s.me.pc + 4) := by
    simp [State.retire, State.setH, w64]
  have h := retires_completeAt s (s.me.wh d v) (s.me.pc + 4)
  rw [← hr] at h
  have hx : ((s.setH d v).retire 4).me.h = (s.me.wh d v).h := by rw [h.context]; simp [Context.passed, Context.stepCount]; split <;> rfl
  refine ⟨fun r => ?_, ?_⟩
  · have : ((s.setH d v).retire 4).h r = (s.me.wh d v).rh r := by
      simp only [State.h, Context.rh, hx]
    rw [this, Context.rh_wh]; rfl
  · have he : ({ s.me with h := ((s.setH d v).retire 4).me.h } : Context) = s.me.wh d v := by
      rw [hx]; unfold Context.wh; split <;> rfl
    rw [he]; exact h

/-- A result for a predicate register. -/
theorem writesP_setP (s : State) (d : PReg) (v : PredWord) : WritesP s ((s.setP d v).retire 4) d v := by
  have hr : (s.setP d v).retire 4 = (s.setMe (s.me.wp d v)).completeAt (s.me.pc + 4) := by
    simp [State.retire, State.setP, w64]
  have h := retires_completeAt s (s.me.wp d v) (s.me.pc + 4)
  rw [← hr] at h
  have hx : ((s.setP d v).retire 4).me.p = (s.me.wp d v).p := by rw [h.context]; simp [Context.passed, Context.stepCount]; split <;> rfl
  refine ⟨fun r h96 => ?_, ?_⟩
  · have : ((s.setP d v).retire 4).p r = (s.me.wp d v).rp r := by
      simp only [State.p, Context.rp, hx]
    rw [this, Context.rp_wp _ _ _ _ h96]; rfl
  · have he : ({ s.me with p := ((s.setP d v).retire 4).me.p } : Context) = s.me.wp d v := by
      rw [hx]; unfold Context.wp; split <;> rfl
    rw [he]; exact h

end Sys2Proof.Machine
end

