-- ==== Sys2Proof/Laws/Seq.lean ====
section
/-! SUPPORT. Laws of the sequencer's own accesses: how a meaning that may fault or wait is run, and what an ordinary load
and an ordinary store come to. -/

namespace Sys2Proof.Machine

theorem M.bind_ok {α β : Type} {x : M α} {next : α → M β} {s t : State} {got : α} (h : x.run s = .ok (got, t)) :
    (x >>= next).run s = (next got).run t := run_then h next
/-- An operation that ends otherwise ends what follows too. -/
theorem M.bind_error {α β : Type} {x : M α} {next : α → M β} {s : State} {end_ : Exc} (h : x.run s = .error end_) :
    (x >>= next).run s = .error end_ := by
  rw [StateT.run_bind, h]; rfl
theorem M.get_bind {β : Type} (f : State → M β) (s : State) : ((get : M State) >>= f).run s = (f s).run s := rfl
theorem M.must_true (t : Trap) (s : State) : (M.must true t).run s = .ok ((), s) := rfl
theorem M.waitFor_true (s : State) : (M.waitFor true).run s = .ok ((), s) := rfl
theorem seqX_ok {α : Type} {m : X α} {s t : State} {a : α} (h : m.run s = .ok (a, t)) : (seqX m).run s = .ok (a, t) := by
  show (match m.run s with | .ok r => _ | .error (.fault t _ _) => _ | .error (.poison u) => _ | .error .wait => _ | .error (.stop f) => _) = _
  rw [h]
theorem attempt_ok {i : Instr} {h : Hold} {m : M Unit} {s t : State} (hm : m.run s = .ok ((), t)) : attempt i h m s = .next t := by
  simp [attempt, hm]

theorem seqCheck_ok {s : State} {a : XReg} {va : Word} {n : Nat} (h1 : va.toNat % n = 0)
    (h2 : a = 62 → s.me.inWindow va.toNat = true) (h3 : va.toNat < 2 ^ 57) : (seqCheck a va n).run s = .ok ((), s) := by
  have e : (!(a.toNat == 62 && !s.me.inWindow va.toNat)) = true := by
    by_cases ha : a = 62
    · simp [h2 ha]
    · have : a.toNat ≠ 62 := fun h => ha (BitVec.eq_of_toNat_eq h)
      simp [this]
  unfold seqCheck
  rw [M.bind_ok (got := ()) (t := s) (by rw [h1]; rfl)]
  rw [M.get_bind]
  dsimp only
  rw [e, M.bind_ok (M.must_true _ _), decide_eq_true h3]; rfl

theorem seqOrder_ok {s : State} {va n : Nat} {w : Bool} (h : Ready s va n w) : (seqOrder va n w).run s = .ok ((), s) := by
  obtain ⟨h1, h2⟩ := h
  show StateT.run (M.waitFor _ >>= fun _ => M.waitFor _) s = _
  rw [h1, h2]; rfl

/-! ## Loads -/

theorem seqLoad_ok {s : State} {a : XReg} {va : Word} {n : Nat} {p : Phys} (h1 : va.toNat % n = 0)
    (h2 : a = 62 → s.me.inWindow va.toNat = true) (h3 : Ordinary s va.toNat n false p) (h4 : Ready s va.toNat n false) :
    ∃ t, (seqLoad a va n).run s = .ok (leNat (s.me.overlay va.toNat (s.bytesAt p n)), t) ∧ Passes s t := by
  obtain ⟨t, hl, hk⟩ := readVa_ordinary h3 (s.myView_isMine false)
  refine ⟨t, ?_, hk⟩
  unfold seqLoad
  rw [M.bind_ok (seqCheck_ok h1 h2 h3.below), M.bind_ok (seqOrder_ok h4)]
  rw [M.get_bind]
  exact M.bind_ok (seqX_ok hl)

theorem State.setMe_setMe (s : State) (x y : Context) : (s.setMe x).setMe y = s.setMe y := by
  simp [State.setMe, State.setHere, State.here, State.setCore_setCore]
  cases (s.core s.cur).active <;> rfl

/-- What a load leaves when it completes in a state whose caches alone differ. -/
theorem loadsX_retireX {s m : State} (h : Touches s m) (d : XReg) (b : Bool) (v : Word) :
    LoadsX s (((m.awaitLoad d b).setX d v).retire 4) d v := by
  have key : ∀ (m : State) (l : List PendingLoad), Touches s m →
      LoadsX s (((m.setMe { m.me with pendingX := l }).setX d v).retire 4) d v := by
    intro m l h
    have hr : ((m.setMe { m.me with pendingX := l }).setX d v).retire 4 =
        (m.setMe (({ m.me with pendingX := l } : Context).wx d v)).completeAt (m.me.pc + 4) := by
      simp [State.retire, State.setX, State.setMe_setMe, w64]
    have g := retires_completeAt m (({ m.me with pendingX := l } : Context).wx d v) (m.me.pc + 4)
    rw [← hr, h.me] at g
    rw [h.me] at hr
    rw [h.me]
    generalize ((m.setMe { s.me with pendingX := l }).setX d v).retire 4 = t at g hr
    have hx : t.me.x = (s.me.wx d v).x := by
      rw [g.context]; simp only [Context.passed, Context.stepCount, Context.wx]
      split <;> split <;> rfl
    have hp : t.me.pendingX = l := by
      rw [g.context]; simp only [Context.passed, Context.stepCount, Context.wx]
      split <;> split <;> rfl
    refine ⟨m, h, fun r => ?_, ?_⟩
    · have : t.x r = (s.me.wx d v).rx r := by simp only [State.x, Context.rx, hx]
      rw [this, Context.rx_wx]; rfl
    · rw [hx, hp]
      have he : ({ s.me with x := (s.me.wx d v).x, pendingX := l } : Context) = ({ s.me with pendingX := l } : Context).wx d v := by
        unfold Context.wx; split <;> rfl
      rw [he]; exact g
  unfold State.awaitLoad
  dsimp only
  split
  · exact key _ _ (h.trans (touches_choose m 1024))
  · split
    · have := key m m.me.pendingX h
      have hs : m.setMe { m.me with pendingX := m.me.pendingX } = m.setMe m.me := rfl
      rw [hs] at this
      have hq : ((m.setMe m.me).setX d v) = m.setX d v := by simp [State.setX, State.setMe_setMe]
      rw [hq] at this; exact this
    · exact key _ _ h

theorem scalarLoad_ok {s : State} {i : Instr} {d a : XReg} {imm : BitVec 12} {n : Nat} {sg : Bool} {p : Phys} {va : Word}
    (hv : va = s.x a + imm.signExtend 64) (h1 : va.toNat % n = 0)
    (h2 : a = 62 → s.me.inWindow va.toNat = true) (h3 : Ordinary s va.toNat n false p) (h4 : Ready s va.toNat n false) :
    ∃ t, s.scalarLoad i d a imm n sg = .next t ∧ LoadsX s t d
      (if sg then BitVec.ofInt 64 (toSigned (8 * n) (leNat (s.me.overlay va.toNat (s.bytesAt p n))))
       else w64 (leNat (s.me.overlay va.toNat (s.bytesAt p n)))) := by
  subst hv
  obtain ⟨m, hl, hk⟩ := seqLoad_ok h1 h2 h3 h4
  exact ⟨_, attempt_ok (M.bind_ok hl), loadsX_retireX hk.1 d _ _⟩

/-! ## Stores -/

/-- One store of an ordinary address, performed at once. -/
theorem performAll_one {s : State} {va n seq : Nat} {p : Phys} {bs : List Byte} (h : Ordinary s va n true p) {v : View} (hv : v.isMine s) :
    ∃ t, performAll v seq false [.mem va bs] s = .all ((t.storeAt p bs).escapeOn v va) ∧ Passes s t := by
  obtain ⟨t, hl, hk⟩ := writeVa_ordinary h hv bs
  refine ⟨t, ?_, hk⟩
  have hp := h.unparkedFor hv
  have hs : (storeElem v seq false (.mem va bs)).run s = (writeVa v va bs).run s := by
    show StateT.run (if (some va).any (s.parkedOn v) = true then _ else _) s = _
    simp only [Option.any_some, hp]
    rfl
  simp only [performAll, ElemStore.globalOf, hp, hs, hl]
  rfl

/-- A scalar store outside a phase stores its bytes and completes. -/
theorem scalarStore_ok {s : State} {i : Instr} {r a : XReg} {imm : BitVec 12} {n : Nat} {p : Phys} {va : Word}
    (hv : va = s.x a + imm.signExtend 64) (h1 : va.toNat % n = 0)
    (h2 : a = 62 → s.me.inWindow va.toNat = true) (h3 : Ordinary s va.toNat n true p) (h4 : Ready s va.toNat n true)
    (h5 : s.me.phase = false) :
    ∃ m, Passes s m ∧ s.scalarStore i r a imm n = .next (State.retire 4
      ((m.storeAt p (leBytes n (s.x r).toNat)).escapeOn { s.myView with inPhase := false } va.toNat)) := by
  subst hv
  obtain ⟨m, hl, hk⟩ := performAll_one (seq := s.me.seq) (bs := leBytes n (s.x r).toNat) h3 (s.myView_isMine false)
  refine ⟨m, hk, attempt_ok ?_⟩
  rw [M.bind_ok (seqCheck_ok h1 h2 h3.below), M.bind_ok (seqOrder_ok h4)]
  refine (M.bind_ok (got := ()) (t := (m.storeAt p (leBytes n (s.x r).toNat)).escapeOn { s.myView with inPhase := false } (s.x a + imm.signExtend 64).toNat) ?_).trans rfl
  unfold seqStore
  rw [M.get_bind]
  simp only [h5, Bool.false_and, Bool.not_false, Bool.true_or, hl]
  rfl

end Sys2Proof.Machine
end

