-- ==== Sys2Proof/Tests/Slice0.lean ====
section
/-! SUPPORT. Tests of the model on fixed values, each value from the specification or worked out by hand from it, and for every
statement states that meet its hypotheses. -/

open Sys2Proof Sys2Proof.Machine

set_option Elab.async false

/-! ## What well-formedness refuses (R108, checks 4 to 7) -/

def tHdr (ty : VTy) : VHdr := { ty := ty, sat := false, rm := .rne, guard := 0, tok := ⟨false, false, false, false⟩ }
def tSat (ty : VTy) : VHdr := { tHdr ty with sat := true }
def tRu (ty : VTy) : VHdr := { tHdr ty with rm := .ru }
def tOff : Tok := ⟨false, false, false, false⟩
def tLeft : Tok := ⟨false, true, false, false⟩
def tRight : Tok := ⟨true, false, false, false⟩
def tMem (h : HReg) (g : PReg) (t : Tok) : VMem := { ty := .f32, guard := g, tok := t, h := h, off := .imm 0 }
def tDrain (mode : DrainMode) (rm : Rm) (pack : Bool) (hd hr hv : HReg) : DrainArgs :=
  { tok := tOff, sat := false, rm := rm, mode := mode, pack := pack, plane := false, hd := hd, hr := hr, hv := hv,
    xo := 0, mi := 0, nj := 0 }
def tWait (m e k t : Bool) (xm : XReg) (thr : BitVec 4) (xt : XReg) : WaitArgs :=
  { all := false, enM := m, enE := e, enK := k, enT := t, scope := .core, wide := false, cmp := .eq,
    xd := 7, xm := xm, xv := 0, thr := thr, ctr := 0, xt := xt, timeout := 1 }

/-- One ill-formed term for each check on a scalar or system instruction. -/
theorem test_refused_scalar :
    (Instr.fence .rlx .core).wf = false ∧ (Instr.srr 1 0x00A).wf = false ∧ (Instr.srw 0x013 1).wf = false ∧
    (Instr.pand 96 0 0).wf = false ∧ (Instr.por 0 96 0).wf = false ∧ (Instr.pxor 0 0 96).wf = false ∧
    (Instr.pnot 96 0).wf = false ∧ (Instr.pfirstn 0 96 0).wf = false ∧ (Instr.pcnt 1 96).wf = false ∧ (Instr.pfirst 1 127).wf = false ∧
    (Instr.atfmax ⟨0, 1, 2, true, .rlx, .core⟩).wf = false ∧ (Instr.atfadd ⟨0, 1, 2, true, .rlx, .core⟩).wf = false ∧
    (Instr.wait (tWait false false false false 0 0 0)).wf = false ∧ (Instr.wait (tWait false true false false 1 0 0)).wf = false ∧
    (Instr.wait (tWait false true false false 0 1 0)).wf = false ∧ (Instr.wait (tWait false true false false 0 0 1)).wf = false ∧
    (Instr.wait (tWait true true true true 1 1 1)).wf = true := by decide

/-- One ill-formed term for each check on a vector instruction. -/
theorem test_refused_vector :
    (Instr.vadd { tHdr .f32 with guard := 96 } (.row 0) (.row 0) (.op .latch)).wf = false ∧
    (Instr.vadd (tHdr .i32) (.row 0) (.row 0) (.op .latch)).wf = false ∧
    (Instr.vadd (tHdr .f32) (.bcast 1) (.row 0) (.op .latch)).wf = false ∧
    (Instr.vadd (tHdr .bf16) (.row 0) (.row 0) (.lit 0x10000)).wf = false ∧
    (Instr.vadd (tHdr (.nf 1)) (.row 0) (.row 0) (.lit 0x100)).wf = false ∧
    (Instr.vmin (tSat .f32) (.row 0) (.row 0) (.op .latch)).wf = false ∧
    (Instr.vcmp (tHdr .f32) 96 0 (.row 0) (.op .latch)).wf = false ∧
    (Instr.vsel (tRu .i8) (.row 0) (.row 0) (.op .latch)).wf = false ∧
    (Instr.viadd (tRu .i32) (.row 0) (.row 0) (.op .latch)).wf = false ∧
    (Instr.vimulh (tSat .i32) (.row 0) (.row 0) (.op .latch)).wf = false ∧
    (Instr.vand (tHdr .n32) (.row 0) (.row 0) (.op .latch)).wf = false ∧
    (Instr.vicmp (tHdr .i32) 1 6 (.row 0) (.op .latch)).wf = false ∧
    (Instr.vcvt (tHdr .bf16) (.row 0) (.row 0) 2 .f32).wf = false ∧
    (Instr.vqnt (tHdr (.nf 0)) (.row 255) (.row 0) 0).wf = false ∧ (Instr.vqnt (tHdr .f32) (.row 0) (.row 0) 0).wf = false ∧
    (Instr.vdqnt (tHdr .f32) (.row 0) .latch 0).wf = false ∧
    (Instr.vpack (tHdr .i64) (.row 0) (.row 0) (.row 0)).wf = false ∧ (Instr.vunpack (tHdr .i8) (.row 0) (.row 0) false).wf = false ∧
    (Instr.vrsum (tRu .i32) (.row 0) (.row 0)).wf = false ∧ (Instr.vrsum (tSat .f32) (.row 0) (.row 0)).wf = false ∧
    (Instr.vrmax (tRu .f32) (.row 0) (.row 0)).wf = false ∧
    (Instr.vshuf (tHdr .i8) (.row 0) (.row 0) (.row 0)).wf = false ∧ (Instr.vbcast (tHdr .n32) (.row 0) (.row 0) 0).wf = false ∧
    (Instr.vrot (tHdr .i32) (.row 0) (.row 0) (.op .latch)).wf = false ∧
    (Instr.vrcp (tHdr .i32) (.row 0) (.row 0)).wf = false ∧
    (Instr.vaccmul (tHdr .f32) 2 (.row 0) (.op .latch)).wf = false ∧ (Instr.vaccadd (tHdr .i64) 0 (.op .latch)).wf = false ∧
    (Instr.vnorm (tHdr .f16) 0).wf = false ∧ (Instr.vaccrd (tHdr .f32) (.row 0) 0 1).wf = false ∧
    (Instr.vaccrd (tHdr (.nf 0)) (.row 0) 0 8).wf = false ∧ (Instr.vaccz (tHdr .f32) 1 0).wf = false := by decide

/-- One ill-formed term for each check on a memory, array, enclosure, job or Lodge instruction, and on an event. -/
theorem test_refused_others :
    (Instr.vld (tMem 0 0 tOff) (.row 0)).wf = false ∧ (Instr.vld (tMem 1 96 tOff) (.row 0)).wf = false ∧
    (Instr.vld (tMem 1 0 tLeft) (.row 0)).wf = false ∧ (Instr.vld (tMem 1 0 tOff) (.bcast 1)).wf = false ∧
    (Instr.vst (tMem 1 0 tRight) (.row 0)).wf = false ∧ (Instr.vst (tMem 0 0 tOff) (.row 0)).wf = false ∧
    (Instr.vgather (tMem 1 0 tOff) (.row 0) (.bcast 1) false).wf = false ∧ (Instr.vgather (tMem 1 0 tOff) (.row 0) (.row 1) true).wf = false ∧
    (Instr.vscatter (tMem 1 0 tOff) (.row 0) (.bcast 1) false).wf = false ∧ (Instr.vpref (tMem 1 0 tLeft)).wf = false ∧
    (Instr.tlease tOff 3).wf = false ∧ (Instr.tldt tLeft 0 false .rne 0 1 0).wf = false ∧ (Instr.tldt tOff 0 false .rne 0 0 0).wf = false ∧
    (Instr.tstt tRight 0 1 0).wf = false ∧
    (Instr.tdrain (tDrain .plain .rne false 0 0 0)).wf = false ∧ (Instr.tdrain (tDrain .plain .rne false 1 1 0)).wf = false ∧
    (Instr.tdrain (tDrain .encl .rne false 1 1 0)).wf = false ∧ (Instr.tdrain (tDrain .radd .rne false 1 0 1)).wf = false ∧
    (Instr.tdrain (tDrain .encl .rne true 1 1 1)).wf = false ∧
    (Instr.abound tOff 1 0 1).wf = false ∧ (Instr.arelax tOff 1 1 1 0 0).wf = false ∧ (Instr.arelaxBilinear tOff 0 1 1).wf = false ∧
    (Instr.asym tOff 0).wf = false ∧ (Instr.aret tOff 0).wf = false ∧ (Instr.acond tOff 0 1).wf = false ∧
    (Instr.aalign tOff .add 1 1 0).wf = false ∧ (Instr.achk tOff 1 1 1 0).wf = false ∧ (Instr.atbl tOff 0 60 4).wf = false ∧
    (Instr.cpy 0 1 0 0).wf = false ∧ (Instr.xtbl 0 0 0).wf = false ∧ (Instr.xduc 1 0 0 0 0 0).wf = false ∧
    (Instr.coll .sum 0 1 0 0 0).wf = false ∧ (Instr.send 1 0 1 0).wf = false ∧ (Instr.recv 0 0 2 0).wf = false ∧
    (Instr.renq 0 0 3).wf = false ∧ (Instr.evpop 9).wf = false ∧ (Instr.evpeek 1).wf = false ∧
    (Instr.lrmap 1 2 3 .none .none .none).wf = false ∧ Instr.online.wf = false := by decide

/-! ## Words that the specification writes out -/

/-- Scalar and system words: the worked encodings of 04_encoding.md, 05_registers.md and 06_scalar.md. -/
theorem test_decode_scalar :
    decode [0x00000060] = .ok (.nop, []) ∧ decode [0x00718504] = .ok (.add 5 6 7, []) ∧
    decode [0xFC0FBE08] = .ok (.addi 62 62 0xFC0, []) ∧ decode [0xFFFA4954] = .ok (.bnez 9 0x7FFD, []) ∧
    decode [0x48700060] = .ok (.fence .rel .die, []) ∧ decode [0x0000C00F, 0, 0xFFFFFFFE] = .ok (.li 12 0xFFFFFFFE, []) ∧
    decode [0x01000764] = .ok (.srr 7 0x010, []) ∧ decode [0x02214068] = .ok (.srw 0x022 5, []) ∧
    decode [0x01224068] = .ok (.srw 0x012 9, []) ∧ decode [0x0802446C] = .ok (.hld 4 9 2, []) ∧
    decode [0x01C1C36C] = .ok (.hset 3 .cursor 7, []) ∧ decode [0x00100060] = .ok (.halt, []) ∧ decode [0x00200060] = .ok (.exit, []) ∧
    decode [0x00400060] = .ok (.eret, []) ∧ decode [0x14500060] = .ok (.brk 5, []) ∧ decode [0x00600060] = .ok (.yield, []) ∧
    decode [0x00800060] = .ok (.rfence, []) ∧ decode [0x00900060] = .ok (.tfence, []) ∧ decode [0x00B00060] = .ok (.pswap, []) ∧
    decode [0x04D00060] = .ok (.latm true, []) :=
  ⟨rfl, rfl, rfl, rfl, rfl, rfl, rfl, rfl, rfl, rfl, rfl, rfl, rfl, rfl, rfl, rfl, rfl, rfl, rfl, rfl⟩

/-- Engine words: the worked encodings of 04_encoding.md and of the files of the vector, memory and array families. -/
theorem test_decode_engines :
    decode [0x00183922, 0xF074080A] = .ok (.vfma
      { ty := .f32, sat := false, rm := .ru, guard := 3, tok := ⟨true, false, false, true⟩ } (.row 10) (.ofile 2) (.bcast 7) none, []) ∧
    decode [0x02000023, 0x00001004, 0x00003F00] = .ok (.vadd (tHdr .bf16) (.row 4) (.row 4) (.lit 0x3F00), []) ∧
    decode [0x00480022, 0x00400D05] = .ok (.vcmp (tHdr .f32) 5 2 (.row 3) (.op (.row 4)), []) ∧
    decode [0x4C000027, 0x00001C07, 0x000003E8] = .ok (.viadd (tSat .i16) (.row 7) (.row 7) (.lit 1000), []) ∧
    decode [0x0200002A, 0x04001406] = .ok (.vcvt (tHdr .bf16) (.row 6) (.row 5) 1 .f32, []) ∧
    decode [0x0000402E, 0xC0000801] = .ok (.vrsum { tRu .f32 with guard := 4 } (.row 1) (.row 2), []) ∧
    decode [0x0020003A, 0x000C1C20] = .ok (.vaccz (tHdr .f32) 32 7, []) ∧
    decode [0x0008003A, 0x00002020] = .ok (.vaccadd (tHdr .f32) 32 (.op (.row 8)), []) ∧
    decode [0x0018003A, 0x00008009] = .ok (.vaccrd (tHdr .f32) (.row 9) 32 0, []) ∧
    decode [0x3608602A, 0x3090A014] = .ok (.vqnt { tHdr (.nf 3) with guard := 6 } (.row 20) (.row 40) 9, []) ∧
    decode [0x00000836, 0x00050C04] = .ok (.vld { tMem 3 0 tRight with off := .reg 5 } (.row 4), []) ∧
    decode [0x00200037, 0x00009902, 0x00000009] = .ok (.vgather (tMem 6 0 tOff) (.ofile 2) (.row 9) false, []) ∧
    decode [0x00180042, 0xFFF00000] = .ok (.tzero tOff false 0xFFF0, []) ∧
    decode [0x00200042, 0x00001100] = .ok (.tmma tOff false 0 1 true, []) ∧
    decode [0x00280042, 0x00001201] = .ok (.tmmaa tOff true 0 2, []) ∧
    decode [0x00100042, 0xC0000032] = .ok (.tldt tOff 0 false .ru 2 3 0, []) ∧
    decode [0x00300043, 0x000200A4, 0x00060001] = .ok (.tdrain { tDrain .encl .rne false 4 5 6 with mi := 1, nj := 0 }, []) :=
  ⟨rfl, rfl, rfl, rfl, rfl, rfl, rfl, rfl, rfl, rfl, rfl, rfl, rfl, rfl, rfl, rfl, rfl⟩

/-- Enclosure, job, Lodge, revision and atomic words. -/
theorem test_decode_others :
    decode [0x00080046, 0x08039884] = .ok (.arelax tOff 4 4 6 7 2, []) ∧
    decode [0x00280046, 0x080020E9] = .ok (.aalign tOff .sub 9 7 8, []) ∧
    decode [0x00200046, 0x00C000E0] = .ok (.acond tOff 7 12, []) ∧
    decode [0x00380047, 0x00500000, 0x00000300] = .ok (.atbl tOff 5 0 3, []) ∧
    decode [0x00100046, 0x00000001] = .ok (.asym tOff 1, []) ∧ decode [0x00000046, 0x00001885] = .ok (.abound tOff 5 4 6, []) ∧
    decode [0x0000004A, 0x028024C4] = .ok (.cpy 4 6 9 10, []) ∧ decode [0x0030004A, 0x0000C185] = .ok (.renq 5 6 12, []) ∧
    decode [0x0C005052, 0x00001000] = .ok (.lrmap 5 6 0 .none .none .dead, []) ∧
    decode [0x0C005052, 0x00000400] = .ok (.lrmap 5 6 0 .none .dead .none, []) ∧
    decode [0x00088052, 0x00000002] = .ok (.lrqry 8 .cache, []) ∧ decode [0x14189052, 0x0000000B] = .ok (.lstash 9 10 11, []) ∧
    decode [0x00009057, 0, 0x00000010] = .ok (.fork 9 16, []) ∧ decode [0x12089056, 0] = .ok (.join 9 9, []) ∧
    decode [0x2E50000A, 0x0020000B] = .ok (.atfmax ⟨0, 23, 11, false, .rlx, .die⟩, []) ∧
    decode [0x2848600A, 0x01330807] = .ok (.cas ⟨6, 20, 7, true, .ar, .module⟩ 8, []) :=
  ⟨rfl, rfl, rfl, rfl, rfl, rfl, rfl, rfl, rfl, rfl, rfl, rfl, rfl, rfl, rfl, rfl⟩

/-- The words that fail decode: R108 and the table of worked encodings. -/
theorem test_decode_refused :
    decode [0x00000000] = .error .zeroWord ∧ decode [0x00000061] = .error .lengthReserved ∧
    decode [0x00000024] = .error .noInstruction ∧ decode [0x9C000004] = .error .noInstruction ∧
    decode [0x00000160] = .error .reservedBits ∧ decode [0x00183923, 0xF074080A, 0x00000400] = .error .reservedBits ∧
    decode [0x001E0922, 0xF074080A] = .error .badOperand :=
  ⟨rfl, rfl, rfl, rfl, rfl, rfl, rfl⟩
/-! ## One step of a small state -/

/-- Core 0 runs its context 0, and one page of memory, from address 0, is mapped to frame 0x100. -/
def tS : State := State.reset.wakeFirst.mapPage 0
/-- The same with a REG room of 8 banks, so that H is 256. -/
def tRows : State := tS.setHere { tS.here with rooms := { tS.here.rooms with reg := 8, cache := 40 } }
/-- Registers written one after another. -/
def tX (s : State) (l : List (XReg × Word)) : State := l.foldl (fun s p => s.setX p.1 p.2) s
/-- A change of the running context. -/
def tMe (s : State) (f : Context → Context) : State := s.setMe (f s.me)
/-- What holds of the state after an instruction that answers a next state. -/
def tThen (i : Instr) (s : State) (f : State → Bool) : Bool := match exec i s with | .next t => f t | _ => false
/-- xd after an instruction on x1 and x2. -/
def tSa (i : XReg → XReg → XReg → Instr) (a b v : Word) : Bool := tThen (i 3 1 2) (tX tS [(1, a), (2, b)]) (fun t => t.x 3 == v)

/-- R158, by hand. -/
theorem test_sa_arith :
    tSa .add (-1) 2 1 = true ∧ tSa .sub 1 2 (-1) = true ∧ tSa .mul (-3) 5 (-15) = true ∧ tSa .wmuls (-1) 5 (-1) = true ∧
    tSa .wmulu (-1) 5 4 = true ∧ tSa .wmulm (-1) 5 (-1) = true ∧ tSa .addw 0x7FFFFFFF 1 0xFFFFFFFF80000000 = true ∧
    tSa .subw 0x100000000 1 (-1) = true ∧ tSa .min (-1) 1 (-1) = true ∧ tSa .max (-1) 1 1 = true ∧ tSa .minu (-1) 1 1 = true ∧
    tSa .maxu (-1) 1 (-1) = true ∧ tSa .slt (-1) 1 1 = true ∧ tSa .sltu (-1) 1 0 = true ∧ tSa .seq 4 4 1 = true ∧
    tSa .sne 4 4 0 = true := by decide +kernel
theorem test_sa_bits :
    tSa .and 0xC 0xA 8 = true ∧ tSa .or 0xC 0xA 0xE = true ∧ tSa .xor 0xC 0xA 6 = true ∧ tSa .andn 0xC 0xA 4 = true ∧
    tSa .orn 0 1 (-2) = true ∧ tSa .xnor 0xC 0xA (-7) = true ∧ tSa .sll 1 67 8 = true ∧ tSa .srl (-8) 66 0x3FFFFFFFFFFFFFFE = true ∧
    tSa .sra (-8) 66 (-2) = true ∧ tSa .rol 0x8000000000000001 1 3 = true ∧ tSa .ror 3 1 0x8000000000000001 = true := by decide +kernel
/-- R159's table, and a quotient that is truncated toward zero. -/
theorem test_division :
    tSa .div 7 0 (-1) = true ∧ tSa .div (BitVec.intMin 64) (-1) (BitVec.intMin 64) = true ∧ tSa .div (-7) 2 (-3) = true ∧
    tSa .divu (-1) 0 (-1) = true ∧ tSa .divu (-1) 2 0x7FFFFFFFFFFFFFFF = true ∧ tSa .rem 7 0 7 = true ∧
    tSa .rem (BitVec.intMin 64) (-1) 0 = true ∧ tSa .rem (-7) 2 (-1) = true ∧ tSa .remu 7 0 7 = true ∧ tSa .remu (-1) 10 5 = true := by
  decide +kernel
theorem test_bit_counts :
    tSa (fun d a _ => .clz d a) 0 0 64 = true ∧ tSa (fun d a _ => .clz d a) 1 0 63 = true ∧ tSa (fun d a _ => .ctz d a) 0 0 64 = true ∧
    tSa (fun d a _ => .ctz d a) 8 0 3 = true ∧ tSa (fun d a _ => .popc d a) 0xFF0 0 8 = true ∧
    tSa (fun d a _ => .brev d a) 1 0 0x8000000000000000 = true ∧
    tSa (fun d a _ => .bytr d a) 0x0102030405060708 0 0x0807060504030201 = true := by decide +kernel
/-- The example after R160. -/
theorem test_fields :
    tSa .bext 0xFF0 0x10804 (-1) = true ∧ tSa .bext 0xFF0 0x804 0xFF = true ∧ tSa .fnsb 0xB4 2 5 = true ∧
    tSa .fnsb 0xB4 4 64 = true ∧ tThen (.bins 3 1 2) (tX tS [(1, 0xFF), (2, 0x3F04), (3, -1)]) (fun t => t.x 3 == 0xFFF) = true := by
  decide +kernel
theorem test_immediates :
    tThen (.addi 3 1 0xFFF) tS (fun t => t.x 3 == -1) = true ∧ tThen (.andi 3 1 0x800) (tX tS [(1, -1)]) (fun t => t.x 3 == -2048) = true ∧
    tThen (.ori 3 1 0x800) tS (fun t => t.x 3 == -2048) = true ∧ tThen (.xori 3 1 0xFFF) tS (fun t => t.x 3 == -1) = true ∧
    tThen (.slli 3 1 63) (tX tS [(1, 3)]) (fun t => t.x 3 == BitVec.intMin 64) = true ∧
    tThen (.srli 3 1 63) (tX tS [(1, -1)]) (fun t => t.x 3 == 1) = true ∧ tThen (.srai 3 1 63) (tX tS [(1, -1)]) (fun t => t.x 3 == -1) = true ∧
    tThen (.rori 3 1 1) (tX tS [(1, 1)]) (fun t => t.x 3 == BitVec.intMin 64) = true ∧
    tThen (.slti 3 1 0xFFF) tS (fun t => t.x 3 == 0) = true ∧ tThen (.sltiu 3 1 0xFFF) tS (fun t => t.x 3 == 1) = true ∧
    tThen (.li 3 0xFFFFFFFE) tS (fun t => t.x 3 == -2 && t.me.pc == 12) = true ∧
    tThen (.lih 3 5) (tX tS [(3, -1)]) (fun t => t.x 3 == 0x5FFFFFFFF) = true := by decide +kernel
/-- R137: x0 discards the write, and the pc goes on. -/
theorem test_x0 : tThen (.add 0 1 2) (tX tS [(1, 5)]) (fun t => t.x 0 == 0 && t.me.pc == 4) = true := by decide +kernel

/-- R163 to R165: taken and not taken, at the edge of the address space. -/
theorem test_branches :
    tThen (.beqz 1 0x7FFF) tS (fun t => t.me.pc == -4) = true ∧ tThen (.bnez 1 0x7FFF) tS (fun t => t.me.pc == 4) = true ∧
    tThen (.bltz 1 2) (tX tS [(1, -1)]) (fun t => t.me.pc == 8) = true ∧ tThen (.bgez 1 2) tS (fun t => t.me.pc == 8) = true ∧
    tThen (.bgtz 1 2) tS (fun t => t.me.pc == 4) = true ∧ tThen (.blez 1 2) tS (fun t => t.me.pc == 8) = true ∧
    tThen (.bltu 1 2 0xFFFFFFFE) (tX tS [(1, 1), (2, -1)]) (fun t => t.me.pc == -8) = true ∧
    tThen (.blt 1 2 0xFFFFFFFE) (tX tS [(1, 1), (2, -1)]) (fun t => t.me.pc == 8) = true ∧
    tThen (.bge 1 2 4) (tX tS [(1, 1), (2, -1)]) (fun t => t.me.pc == 16) = true ∧
    tThen (.bgeu 1 2 4) (tX tS [(1, 1), (2, -1)]) (fun t => t.me.pc == 8) = true ∧
    tThen (.beq 1 2 4) tS (fun t => t.me.pc == 16) = true ∧ tThen (.bne 1 2 4) tS (fun t => t.me.pc == 8) = true := by decide +kernel
theorem test_jumps :
    tThen (.jal 63 16) tS (fun t => t.me.pc == 64 && t.x 63 == 4) = true ∧
    tThen (.jalr 5 5 0xFFF) (tX tS [(5, 101)]) (fun t => t.me.pc == 100 && t.x 5 == 4) = true := by decide +kernel
/-- R169: xa + imm is read as signed, and H = 0 leaves ROTB 0. -/
theorem test_wbase :
    tThen (.wbase 1 0) (tX tRows [(1, -1)]) (fun t => t.me.rotb == 255) = true ∧
    tThen (.wbase 0 8) tRows (fun t => t.me.rotb == 8) = true ∧ tThen (.wbase 0 8) tS (fun t => t.me.rotb == 0) = true := by decide +kernel
/-- R167: a level that is not TEMPORAL makes LOOP ILLEGAL. -/
theorem test_loop_illegal : tThen (.loop 1 0x7FFF) tS (fun t => t.me.tcause == 1 && t.me.mode == .halted && t.me.pc == 0) = true := by
  decide +kernel

/-- R249, R250: little-endian bytes, sign and zero extension. -/
def tStored : State := match exec (.std 5 0 16) (tX tS [(5, 0x8877665544332211)]) with | .next t => t | _ => tS
theorem test_loads :
    tThen (.ldb 3 0 23) tStored (fun t => t.x 3 == 0xFFFFFFFFFFFFFF88) = true ∧ tThen (.ldbu 3 0 23) tStored (fun t => t.x 3 == 0x88) = true ∧
    tThen (.ldh 3 0 22) tStored (fun t => t.x 3 == 0xFFFFFFFFFFFF8877) = true ∧ tThen (.ldhu 3 0 16) tStored (fun t => t.x 3 == 0x2211) = true ∧
    tThen (.ldw 3 0 20) tStored (fun t => t.x 3 == 0xFFFFFFFF88776655) = true ∧ tThen (.ldwu 3 0 20) tStored (fun t => t.x 3 == 0x88776655) = true ∧
    tThen (.ldd 3 0 16) tStored (fun t => t.x 3 == 0x8877665544332211) = true := by decide +kernel
theorem test_stores :
    tStored.nearByte 0x1000010 = 0x11 ∧ tStored.nearByte 0x1000017 = 0x88 ∧ tStored.nearByte 0x1000018 = 0 ∧
    tThen (.stb 5 0 1) tStored (fun t => t.nearByte 0x1000001 == 0x11 && t.nearByte 0x1000002 == 0) = true ∧
    tThen (.sth 5 0 2) tStored (fun t => t.nearByte 0x1000003 == 0x22 && t.nearByte 0x1000004 == 0) = true ∧
    tThen (.stw 5 0 4) tStored (fun t => t.nearByte 0x1000007 == 0x44 && t.nearByte 0x1000008 == 0) = true := by decide +kernel
/-- R250: a misaligned address faults with the address in TVAL; R234: an address with no translation is XLATE. -/
theorem test_access_faults :
    tThen (.ldw 3 0 2) tS (fun t => t.me.tcause == 3 && t.me.tval == 2 && t.me.mode == .halted) = true ∧
    tThen (.ldd 3 1 0) (tX tS [(1, 0x10000)]) (fun t => t.me.tcause == 5 && t.me.tval == 0x10000) = true := by decide +kernel

/-- R253 to R255: xd receives the old value sign-extended; CAS stores only where its comparison holds. -/
def tAmo : AmoArgs := { xd := 3, xa := 0, xb := 2, wide := false, order := .rlx, scope := .die }
def tOld (old : Word) : State := match exec (.stw 1 0 0) (tX tS [(1, old), (2, 5)]) with | .next t => t | _ => tS
def tAt (i : Instr) (old new : Word) : Bool :=
  tThen i (tOld old) (fun t => t.x 3 == old && leNat (memRead t.mem 0x1000000 4) == new.toNat % 2 ^ 32)
theorem test_atomics :
    tAt (.atadd tAmo) (-1) 4 = true ∧ tAt (.atswap tAmo) (-1) 5 = true ∧ tAt (.atand tAmo) 6 4 = true ∧ tAt (.ator tAmo) 2 7 = true ∧
    tAt (.atxor tAmo) 6 3 = true ∧ tAt (.atmin tAmo) (-1) (-1) = true ∧ tAt (.atmax tAmo) (-1) 5 = true ∧ tAt (.atminu tAmo) (-1) 5 = true ∧
    tAt (.atmaxu tAmo) (-1) (-1) = true ∧ tAt (.cas tAmo 0) 1 1 = true ∧ tAt (.cas tAmo 0) 0 5 = true := by decide +kernel
/-- Test 8 of 08_memory_model.md: the larger of 2.0 and 8.0; and 1.0 + 1.0 = 2.0. -/
theorem test_float_atomics :
    tThen (.atfmax tAmo) (tX (tOld 0x40000000) [(2, 0x41000000)]) (fun t => leNat (memRead t.mem 0x1000000 4) == 0x41000000) = true ∧
    tThen (.atfadd tAmo) (tX (tOld 0x3F800000) [(2, 0x3F800000)]) (fun t => leNat (memRead t.mem 0x1000000 4) == 0x40000000) = true := by
  decide +kernel

/-! ## Handles, predicates, system registers -/

theorem test_handles :
    tThen (.hset 3 .cursor 7) (tX tS [(7, -1)]) (fun t => t.h 3 == 0xFFFFFFFFFFFFFFFF00000000000000000000000000000000) = true ∧
    tThen (.hget 7 3 .attr) (tS.setH 3 0x1F0000000000000000000000000000) (fun t => t.x 7 == 0x1F) = true ∧
    tThen (.hmov 4 3) (tS.setH 3 9) (fun t => t.h 4 == 9) = true ∧ tThen (.hset 0 .base 7) (tX tS [(7, 1)]) (fun t => t.h 0 == 0) = true ∧
    tThen (.hadv 3 7) (tX (tS.setH 3 0x100000000000000000000000000000000) [(7, -1)]) (fun t => t.h 3 == 0) = true := by decide +kernel
/-- R171: bits 7–0 of the handle lie at the lowest address. -/
theorem test_handle_memory :
    tThen (.hst 3 0 1) (tS.setH 3 0x1122) (fun t => t.nearByte 0x1000020 == 0x22 && t.nearByte 0x1000021 == 0x11) = true ∧
    tThen (.hld 4 0 1) (tS.writeNear 0x1000020 2 0x1122) (fun t => t.h 4 == 0x1122) = true ∧
    tThen (.hld 4 1 0) (tX tS [(1, 16)]) (fun t => t.me.tcause == 3) = true := by decide +kernel
/-- The example after R174: p4 has bits 0, 3, 9 and 200 set, and x6 = 2. -/
def tPred : State := (tX tS [(6, 2)]).setP 4 (1 + 2 ^ 3 + 2 ^ 9 + BitVec.ofNat 256 (2 ^ 200))
theorem test_predicates :
    tThen (.pfirstn 7 4 6) tPred (fun t => t.p 7 == 9) = true ∧ tThen (.pcnt 1 4) tPred (fun t => t.x 1 == 4) = true ∧
    tThen (.pfirst 1 4) tPred (fun t => t.x 1 == 0) = true ∧ tThen (.pfirst 1 5) tPred (fun t => t.x 1 == 256) = true ∧
    tThen (.pand 7 4 0) tPred (fun t => t.p 7 == t.p 4) = true ∧ tThen (.por 7 4 0) tPred (fun t => t.p 7 == BitVec.allOnes 256) = true ∧
    tThen (.pxor 7 4 4) tPred (fun t => t.p 7 == 0) = true ∧ tThen (.pandn 7 0 4) tPred (fun t => t.p 7 == ~~~(t.p 4)) = true ∧
    tThen (.pnot 0 4) tPred (fun t => t.p 0 == BitVec.allOnes 256) = true := by decide +kernel
/-- R144, R145: context 1 reads its number; an SW register is PRIVILEGE at TASK level. -/
theorem test_system_registers :
    tThen (.srr 7 0x010) tS (fun t => t.x 7 == 0) = true ∧ tThen (.srr 7 0x002) tS (fun t => t.x 7 == 0) = true ∧
    tThen (.srw 0x012 7) (tX tRows [(7, 300)]) (fun t => t.me.rotb == 44) = true ∧
    tThen (.srw 0x102 7) tS (fun t => t.me.tcause == 2 && t.me.mode == .halted) = true ∧
    tThen (.srw 0x022 7) (tX tS [(7, 0x00620323)]) (fun t => t.here.nf[2] == 0x00620323) = true := by decide +kernel

/-! ## The system group, exceptions and waits -/

/-- The control-complex core of die 0, awake. -/
def tSup : State := { State.reset.setCtx 1024 false { State.reset.ctx 1024 false with mode := .live, pc := 0x4000 } with cur := 1024 }
theorem test_exceptions :
    tThen (.trap 5) tS (fun t => t.me.tcause == 0x45 && t.me.epc == 4 && t.me.mode == .halted) = true ∧
    tThen (.brk 5) tS (fun t => t.me.tcause == 0x85 && t.me.epc == 4) = true ∧
    tThen (.trap 5) tSup (fun t => t.me.tcause == 0x45 && t.me.epc == 0x4004 && t.me.pc == 0x1000 && t.me.mode == .live) = true ∧
    tThen .eret (tMe tSup fun x => { x with epc := 0x5000 }) (fun t => t.me.pc == 0x5000) = true ∧
    tThen .eret tS (fun t => t.me.tcause == 2) = true ∧ tThen .halt tS (fun t => t.me.tcause == 2) = true ∧
    tThen .halt tSup (fun t => t.me.mode == .asleep && t.me.pc == 0x4004) = true := by decide +kernel
theorem test_system_group :
    tThen .nop tS (fun t => t.me.pc == 4 && t.here.insns == 1) = true ∧ tThen .exit tS (fun t => t.me.mode == .exiting) = true ∧
    tThen .yield tS (fun t => t.me.hold.isSome) = true ∧ tThen (.fence .sc .system) tS (fun t => t.me.pc == 4) = true ∧
    tThen .rfence (tS.setHere { tS.here with records := [(0, [])] }) (fun t => t.here.records == []) = true ∧
    tThen .tfence tS (fun t => t.me.pc == 4) = true ∧ tThen (.sstep 1) (tX tS [(1, 0x100000002)]) (fun t => t.me.steps == 2) = true ∧
    tThen (.latm true) tS (fun t => t.me.latmode == 1) = true ∧
    tThen (.timer 3 1) (tX tS [(1, 9)]) (fun t => t.me.alarm == some 9 && t.x 3 == 0) = true ∧
    tThen .pswap tS (fun t => t.me.phase && t.me.restart == 0 && tThen .pswap t (fun u => !u.me.phase && u.me.pc == 8)) = true := by
  decide +kernel
theorem test_waits :
    tThen (.wait (tWait false true false false 0 0 0)) (tMe tS fun x => { x with evq := [5] }) (fun t => t.x 7 == 2 && t.me.pc == 12) = true ∧
    tThen (.wait (tWait false true false false 0 0 0)) tS (fun t => t.me.hold.isSome && t.me.pc == 0) = true ∧
    tThen (.waitt 1 5) tS (fun t => t.me.pc == 12) = true ∧
    tThen (.evpop 8) (tMe tS fun x => { x with evq := [0x50000000000000006] }) (fun t => t.x 8 == 6 && t.x 9 == 5 && t.me.evq == []) = true ∧
    tThen (.evpeek 8) (tMe tS fun x => { x with evq := [7] }) (fun t => t.x 8 == 7 && t.me.evq == [7]) = true := by decide +kernel

/-! ## Vector lanes -/

/-- A reader whose w1 holds a value in every row position named, under the guard p0. -/
def tReader (rows : List (Nat × Row)) : Reader :=
  { core := { tRows.here with rows := rows }, k := false, t := tRows.take .nop, free := 0 }
def tLane (rows : List (Nat × Row)) (i : Instr) (w j v : Nat) : Bool :=
  match (tReader rows).vector (illegalOf []) i with
  | .ok o => o.land.writes.all (fun r => elemAt r.mask w j == 2 ^ w - 1 && elemAt r.val w j == v) && !o.land.writes.isEmpty
  | .error _ => false
/-- The example after R289: 32,000 + 1000 saturates, and −5 becomes 995; then wrapping and signed cases by hand. -/
theorem test_lanes_int :
    tLane [(7, 0xFFFB7D00)] (.viadd (tSat .i16) (.row 7) (.row 7) (.lit 1000)) 16 0 32767 = true ∧
    tLane [(7, 0xFFFB7D00)] (.viadd (tSat .i16) (.row 7) (.row 7) (.lit 1000)) 16 1 995 = true ∧
    tLane [(1, 1)] (.visub (tHdr .i64) (.row 2) (.row 3) (.op (.row 1))) 64 0 (2 ^ 64 - 1) = true ∧
    tLane [(1, 2 ^ 63)] (.vsra (tHdr .i64) (.row 2) (.row 1) (.lit 65)) 64 0 (3 * 2 ^ 62) = true ∧
    tLane [(1, 2 ^ 63), (3, 2)] (.vimulh (tHdr .i64) (.row 2) (.row 1) (.op (.row 3))) 64 0 (2 ^ 64 - 1) = true ∧
    tLane [(1, 0x10)] (.vclz (tHdr .i64) (.row 2) (.row 1)) 64 0 59 = true := by decide +kernel
/-- 1.0 + 0.5 in BF16, and 1.5 × 2.0 in F32. -/
theorem test_lanes_bf16 :
    tLane [(4, 0x3F80)] (.vadd (tHdr .bf16) (.row 4) (.row 4) (.lit 0x3F00)) 16 0 0x3FC0 = true := by decide +kernel
theorem test_lanes_f32 :
    tLane [(1, 0x3FC00000), (2, 0x40000000)] (.vmul (tHdr .f32) (.row 3) (.row 1) (.op (.row 2))) 32 0 0x40400000 = true := by
  decide +kernel

/-! ## The Lodge, revisions, jobs -/

theorem test_lodge :
    tThen (.lrqry 8 .reg) tRows (fun t => t.x 8 == 0x10008) = true ∧
    tThen (.lstash 9 10 11) (tX tS [(10, 1)]) (fun t => t.x 9 == 4) = true ∧ tThen (.lunstash 9 10) tS (fun t => t.x 9 == 4) = true ∧
    tThen (.lflush 10 11 false) (tX tS [(10, BitVec.allOnes 57 |>.zeroExtend 64), (11, 2)]) (fun t => t.me.tcause == 4) = true := by
  decide +kernel
theorem test_revisions :
    tThen (.rtype 3 1) tS (fun t => t.x 3 == 0xFF0000) = true ∧ tThen (.join 9 9) tS (fun t => t.x 9 == 1) = true ∧
    tThen (.rmark 3 1 2) (tX tS [(1, 1)]) (fun t => t.me.tcause == 3) = true := by decide +kernel

/-! ## Reset, decode and step -/

/-- R107: the word at the pc runs: ADDI x62, x62, −64. -/
theorem test_step_runs :
    (match step (State.reset.withFetchWord 32 0xFC0FBE08) with | .next t => t.x 62 == -64 && t.me.pc == 4 | _ => false) = true := by
  decide +kernel
theorem test_table_word : decodeTableWord 32 0x00718504 = some (.add 5 6 7) := by decide +kernel
/-! ## States that meet the hypotheses of the statements: the sequencer -/

theorem core_stash {s : State} (h : s.cores.all (fun e => e.2.stash.isEmpty) = true) (c : Nat) : (s.core c).stash = [] := by
  have : ∀ l : List (Nat × Core), l.all (fun e => e.2.stash.isEmpty) = true → ((findKey c l).getD Core.reset).stash = [] := by
    intro l
    induction l with
    | nil => intro _; rfl
    | cons e t ih =>
      intro hl
      simp only [List.all_cons, Bool.and_eq_true] at hl
      unfold findKey
      split
      · simpa using hl.1
      · exact ih hl.2
  exact this s.cores h

/-- An ordinary address, from facts that evaluate. -/
theorem ordinary_of {s : State} {va n : Nat} (w : Bool) (a lvl e : Nat) (p : Phys)
    (h : va < 2 ^ 57 ∧ s.walk s.me.supervisor va = .leaf a lvl e ∧ p = physOf va lvl e ∧ leafState e = 0 ∧ leafW e = true ∧
      leafCow e = false ∧ leafFar e = false ∧ s.tlb = [] ∧ s.revisioned s.me.task va = false ∧ isWindow p = false ∧
      s.poisonAt p.far p.addr n = none ∧ s.here.inSpill s.myK va = false ∧
      s.cores.all (fun e => e.2.stash.isEmpty) = true ∧ s.here.parkedPage s.myK va = false ∧ s.poison = []) : Ordinary s va n w p := by
  obtain ⟨h1, h2, h3, h4, h5, h6, h7, h8, h9, h10, h11, h12, h13, h14, h15⟩ := h
  exact ⟨h1, ⟨a, lvl, e, h2, h3, h4, fun _ => ⟨h5, h6⟩, by simp [h7], by simp [h8]⟩, h9, h10, h11, h12,
    by simp [Core.stashAt, State.here, core_stash h13 s.cur], fun c => by simp [core_stash h13 c], h14, by simp [h15]⟩

/-- The leaf of the one mapped page. -/
abbrev tLeaf : Nat := 0x100 * 65536 + 0x103
abbrev tPhys (a : Nat) : Phys := { far := false, addr := 0x1000000 + a, home := 0 }
/-- x62 names a byte of the spill window that the SPILL room does not hold. -/
def tWin : State := tMe tS fun x => { x with spovf := 0, splim := 64 }
/-- A phase is open. -/
def tPhase : State := match exec .pswap tS with | .next t => t | _ => tS
/-- An entry of an instruction as it is routed. -/
def tEntry (s : State) (i : Instr) : Entry := { seq := s.me.seq, instr := i, pc := 0, taken := s.take i }
def tVadd : Instr := .vadd (tHdr .f32) (.row 1) (.row 2) (.op (.row 3))
def tVcmp : Instr := .vcmp (tHdr .f32) 5 0 (.row 2) (.op (.row 3))
def tVld : Instr := .vld (tMem 3 0 tOff) .latch
def tVst : Instr := .vst (tMem 3 0 tOff) .latch
/-- A load of the context is due. -/
def tBusy : State := tMe tS fun x => { x with lq := [tEntry tS tVld] }

theorem witness_Shift : 63 = ((tX tS [(2, -1)]).x 2).toNat % 64 := by decide +kernel
theorem witness_Division :
    tS.x 2 = 0 ∧ (tX tS [(1, BitVec.intMin 64)]).x 1 = BitVec.intMin 64 ∧ (tX tS [(2, -1)]).x 2 = BitVec.allOnes 64 ∧
    (tX tS [(2, 1)]).x 2 ≠ 0 := by decide +kernel
theorem witness_Field :
    63 = ((tX tS [(2, 0x7F3F)]).x 2).toNat % 64 ∧
    1 = min (min (((tX tS [(2, 0x7F3F)]).x 2).toNat / 2 ^ 8 % 2 ^ 7) 64) (64 - 63) := by decide +kernel
theorem witness_Branch : ∃ goes : Bool → Word,
    ∀ taken, goes taken = if taken then BitVec.ofInt 64 (tS.me.pc.toNat + (5 : BitVec 15).toInt * 4) else tS.me.pc + 4 :=
  ⟨_, fun _ => rfl⟩
theorem witness_BranchCompare : ∃ goes : Bool → Word,
    ∀ taken, goes taken = if taken then BitVec.ofInt 64 (tS.me.pc.toNat + (5 : BitVec 32).toInt * 4) else tS.me.pc + 8 :=
  ⟨_, fun _ => rfl⟩
theorem witness_Encodings (a : XReg) (d p : PReg) :
    (0, Instr.beqz a 0) ∈ [(0, Instr.beqz a 0)] ∧ (5, Instr.bgeu a a 0) ∈ [(5, Instr.bgeu a a 0)] ∧
    (4, d.toNat, p.toNat, 0, Instr.pnot d p) ∈ [(4, d.toNat, p.toNat, 0, Instr.pnot d p)] := by simp
theorem witness_Wbase : tS.here.h = 0 ∧ 0 < tRows.here.h ∧ tRows.here.h < 2 ^ 64 := by decide +kernel

/-- A launch of two tasks with a TEMPORAL level 1, and a task of it on core 0. -/
def tReq : LaunchRec :=
  { code := 0x4000, det := false, scored := false, cls := 0, estimate := 0, rooms := 0x00002008, overflow := 0x80000, ovfBase := 0x100000,
    seed := 0, target := 0x2000, budget := 0, tag := 1 }
def tLevels : List Level := [{ kind := 2, extent := 2, stride := 0, q := 0 }, { kind := 3, extent := 3, stride := 2, q := 0 }]
def tLaunch : Launch :=
  { id := 1, die := 0, cls := 0, req := tReq, levels := tLevels, regions := [], args := Vector.replicate 8 7, phase := .computing, step := 0,
    start := 0, ts := 0, steps := 0, completed := 0, faulted := 0, conflicts := 0, firstCode := 0, firstTask := 0, energy := 0,
    eligible := [], slices := [], symbols := none, turn := 0, sticky := [] }
def tTask : Task := Task.make 2 1 0 0 0x4000 (Vector.replicate 8 7) 0
/-- Core 0 runs the task in context 0. -/
def tOn (s : State) : State :=
  { tMe s (fun x => { x with task := some 2 }) with launches := [tLaunch], tasks := [{ tTask with phase := .placed 0 false }], nextId := 3 }
theorem witness_Loop : tS.temporal 1 = none ∧ (tOn tRows).temporal 1 = some { kind := 3, extent := 3, stride := 2, q := 0 } := by
  decide +kernel

theorem witness_Load :
    16 = (tS.x 0 + (16 : BitVec 12).signExtend 64).toNat ∧ 16 % 8 = 0 ∧ Ordinary tS 16 8 false (tPhys 16) ∧ Ready tS 16 8 false :=
  ⟨by decide +kernel, by decide, ordinary_of false 0xA31000 3 tLeaf _ (by decide +kernel), by constructor <;> decide +kernel⟩
theorem witness_Load_window :
    16 = (tWin.x 62 + (16 : BitVec 12).signExtend 64).toNat ∧ tWin.me.inWindow 16 = true ∧
    Ordinary tWin 16 8 false (tPhys 16) ∧ Ready tWin 16 8 false :=
  ⟨by decide +kernel, by decide +kernel, ordinary_of false 0xA31000 3 tLeaf _ (by decide +kernel), by constructor <;> decide +kernel⟩
theorem witness_Store : tS.me.phase = false ∧ Ordinary tS 16 8 true (tPhys 16) ∧ Ready tS 16 8 true :=
  ⟨by decide +kernel, ordinary_of true 0xA31000 3 tLeaf _ (by decide +kernel), by constructor <;> decide +kernel⟩
theorem witness_PhaseHolds :
    tPhase.me.phase = true ∧ tPhase.me.holdCount < 32 ∧ Ordinary tPhase 16 8 true (tPhys 16) ∧ Ready tPhase 16 8 true :=
  ⟨by decide +kernel, by decide +kernel, ordinary_of true 0xA31000 3 tLeaf _ (by decide +kernel), by constructor <;> decide +kernel⟩
theorem witness_AccessFaults :
    ((tX tS [(1, 3)]).x 1).toNat % 2 ≠ 0 ∧ (tWin.x 62 + 64).toNat % 8 = 0 ∧ tWin.me.inWindow 64 = false ∧
    2 ^ 57 ≤ ((tX tS [(1, 0x200000000000000)]).x 1).toNat ∧ ((tX tS [(1, 16)]).x 1).toNat % 32 ≠ 0 ∧
    2 ^ 48 ≤ ((tX tS [(1, 0x1000000000000)]).x 1).toNat ∧ ((tX tS [(1, 32)]).x 1).toNat % 64 ≠ 0 := by decide +kernel
theorem witness_HandleLoad :
    0 = (tS.x 0 + BitVec.ofInt 64 ((0 : BitVec 6).toInt * 32)).toNat ∧
    ∀ j ∈ [0, 8, 16, 24], Ordinary tS (0 + j) 8 false { tPhys 0 with addr := (tPhys 0).addr + j } ∧ Ready tS (0 + j) 8 false := by
  refine ⟨by decide +kernel, fun j hj => ?_⟩
  fin_cases hj <;> exact ⟨ordinary_of false 0xA31000 3 tLeaf _ (by decide +kernel), by constructor <;> decide +kernel⟩

theorem readNear_frame {s : State} {m h : List Host.Cell} {p n a : Nat}
    (hm : ∀ x, x < p ∨ p + n ≤ x → memGet m x = memGet s.mem x) (ha : a + 8 ≤ p) :
    ({ s with mem := m, hostMem := h } : State).readNear a 8 = s.readNear a 8 := by
  have : memRead m a 8 = memRead s.mem a 8 :=
    List.map_congr_left fun i hi => hm _ (.inl (by have := List.mem_range.mp hi; omega))
  show leNat (memRead m a 8) = leNat (memRead s.mem a 8)
  rw [this]
theorem walk_step {u : State} {sup : Bool} {va tbl lvl e : Nat} (rest : List Nat) (a : Nat) (ha : tbl + 8 * vaIndex va lvl = a)
    (hn : nearAddr a = true) (he : u.readNear a 8 = e) (hv : leafValid e = true) (hm : malformed sup (u.moves a) e lvl = false) :
    u.walkFrom sup va tbl (lvl :: rest) =
      if leafSize e = 3 then u.walkFrom sup va (bitsOf e 51 8 * 256) rest else .leaf a lvl e := by
  subst he ha
  simp [State.walkFrom, hn, hv, hm]
/-- The walk of the mapped page reads four entries. -/
theorem walk_page0 {u : State} (hr : u.taskRoot = 0xA00001) (hv : ∀ a, u.moves a = false) (h0 : u.readNear 0xA00000 8 = 0xA20019)
    (h1 : u.readNear 0xA20000 8 = 0xA30019) (h2 : u.readNear 0xA30000 8 = 0xA31019) (h3 : u.readNear 0xA31000 8 = tLeaf) :
    u.walk false 0 = .leaf 0xA31000 3 tLeaf := by
  have s3 : u.walkFrom false 0 0xA31000 [3] = .leaf 0xA31000 3 tLeaf :=
    (walk_step [] 0xA31000 (by decide) (by decide) h3 (by decide) (by rw [hv]; decide)).trans (if_neg (by decide))
  have s2 : u.walkFrom false 0 0xA30000 [2, 3] = .leaf 0xA31000 3 tLeaf :=
    (walk_step [3] 0xA30000 (by decide) (by decide) h2 (by decide) (by rw [hv]; decide)).trans ((if_pos (by decide)).trans s3)
  have s1 : u.walkFrom false 0 0xA20000 [1, 2, 3] = .leaf 0xA31000 3 tLeaf :=
    (walk_step [2, 3] 0xA20000 (by decide) (by decide) h1 (by decide) (by rw [hv]; decide)).trans ((if_pos (by decide)).trans s2)
  have s0 : u.walkFrom false 0 0xA00000 [0, 1, 2, 3] = .leaf 0xA31000 3 tLeaf :=
    (walk_step [1, 2, 3] 0xA00000 (by decide) (by decide) h0 (by decide) (by rw [hv]; decide)).trans ((if_pos (by decide)).trans s1)
  have hn : (0xA00001 : Word).toNat % 2 ≠ 0 := by decide
  unfold State.walk
  simp only [Bool.false_eq_true, if_false, hr]
  rw [if_neg hn]; exact s0
theorem walk_frame {m h : List Host.Cell} (hm : ∀ x, x < 0x1000000 ∨ 0x1000000 + 32 ≤ x → memGet m x = memGet tS.mem x) :
    ({ tS with mem := m, hostMem := h } : State).walk false 0 = tS.walk false 0 := by
  have e0 : tS.readNear 0xA00000 8 = 0xA20019 := by decide +kernel
  have e1 : tS.readNear 0xA20000 8 = 0xA30019 := by decide +kernel
  have e2 : tS.readNear 0xA30000 8 = 0xA31019 := by decide +kernel
  have e3 : tS.readNear 0xA31000 8 = tLeaf := by decide +kernel
  have hr : tS.taskRoot = 0xA00001 := by decide +kernel
  have hv : ∀ a, tS.moves a = false := by
    have h : tS.moving ++ tS.replicas = [] := by decide +kernel
    intro a; unfold State.moves; rw [h]; rfl
  rw [walk_page0 hr hv e0 e1 e2 e3]
  generalize tS = s at *
  exact walk_page0 hr hv ((readNear_frame hm (by decide)).trans e0) ((readNear_frame hm (by decide)).trans e1)
    ((readNear_frame hm (by decide)).trans e2) ((readNear_frame hm (by decide)).trans e3)
theorem witness_HandleStore :
    tS.me.phase = false ∧
    (∀ j ∈ [0, 8, 16, 24], Ordinary tS (0 + j) 8 true { tPhys 0 with addr := (tPhys 0).addr + j }) ∧ Ready tS 0 32 true ∧
    ∀ m h, (∀ x, x < (tPhys 0).addr ∨ (tPhys 0).addr + 32 ≤ x → memGet m x = memGet tS.mem x) →
      ({ tS with mem := m, hostMem := h } : State).walk tS.me.supervisor 0 = tS.walk tS.me.supervisor 0 := by
  refine ⟨by decide +kernel, fun j hj => ?_, by constructor <;> decide +kernel, fun m h hm => ?_⟩
  · fin_cases hj <;> exact ordinary_of true 0xA31000 3 tLeaf _ (by decide +kernel)
  · have : tS.me.supervisor = false := by decide +kernel
    rw [this]; exact walk_frame hm
/-- A phase that holds the store of an entry of SQ and one of the sequencer's own. -/
def tHolding : State := tMe tPhase fun x => { x with
  sq := [{ tEntry tS tVst with phase := .held }], holdList := [{ seq := 0, stores := [.mem 16 [1]] }, { seq := 1, stores := [.mem 24 [2]] }], seq := 2 }
theorem witness_PhaseSwitch :
    tS.me.phase = false ∧ tHolding.me.phase = true ∧ tHolding.here.noneParked tHolding.myK = true ∧
    (tEntry tS tVst).seq = 0 ∧ (∃ h ∈ tHolding.me.holdList, ∀ e ∈ tHolding.me.cq ++ tHolding.me.sq, e.seq ≠ h.seq) ∧
    ∃ e ∈ tHolding.me.queue .sq, e.phase = .held := by decide +kernel

/-- A record of one dimension of 16 F32 elements at address 64, and a paged one, in the record cache. -/
def tRecBytes (kind rank dtype : Byte) (ext str : Nat) : List Byte :=
  [kind, 0, rank, dtype, 0, 0, 0, 0] ++ leBytes 4 ext ++ leBytes 20 0 ++ leBytes 8 str ++ leBytes 152 0
def tRec (kind rank dtype : Byte) (ext str : Nat) : State :=
  (tX tS [(1, 64)]).setHere { (tX tS [(1, 64)]).here with records := [(64, tRecBytes kind rank dtype ext str)] }
theorem witness_RecordHandle :
    let s := tRec 1 1 0x10 16 4
    let r := parseRec 64 (tRecBytes 1 1 0x10 16 4)
    (s.x 1).toNat < 2 ^ 48 ∧ (s.x 1).toNat % 64 = 0 ∧ Ready s (s.x 1).toNat 192 false ∧
    findKey (s.x 1).toNat s.here.records = some (tRecBytes 1 1 0x10 16 4) ∧ (s.choose 2).1 = 0 ∧ r.kind = 1 ∧ r.poison ≤ 2 ∧
    r.tailOk = true ∧ 60 = ((List.range r.rank).map (fun i => (r.ext i - 1) * r.str i)).sum ∧ r.rank ≤ 6 ∧
    dtypeNibbles s.here.nf r.dtype r.nf = some 8 ∧
    (64 : Int) = (if (List.range r.rank).any (fun i => r.ext i == 0) then 0
      else if 8 = 1 then (60 + 2) / 2 else 60 + 8 / 2 : Nat) ∧ (64 : Int) ≤ 2 ^ 57 :=
  ⟨by decide +kernel, by decide +kernel, by constructor <;> decide +kernel, by decide +kernel, by decide +kernel, by decide +kernel,
    by decide +kernel, by decide +kernel, by decide +kernel, by decide +kernel, by decide +kernel, by decide +kernel, by decide⟩
/-- Sixteen 4-bit elements, whose stride counts nibbles: 15 and one more, in 8 bytes (R172). -/
def tNibbles : State :=
  let s := tRec 1 1 0x18 16 1
  s.setHere { s.here with nf := s.here.nf.set 0 0x00420323 }
theorem witness_RecordHandle_nibbles :
    let r := parseRec 64 (tRecBytes 1 1 0x18 16 1)
    findKey (tNibbles.x 1).toNat tNibbles.here.records = some (tRecBytes 1 1 0x18 16 1) ∧ r.kind = 1 ∧ r.tailOk = true ∧ r.rank ≤ 6 ∧
    15 = ((List.range r.rank).map (fun i => (r.ext i - 1) * r.str i)).sum ∧ dtypeNibbles tNibbles.here.nf r.dtype r.nf = some 1 ∧
    (8 : Int) = ((15 + 2) / 2 : Nat) := by decide +kernel
theorem witness_RecordHandle_paged :
    let s := tRec 3 1 0x10 16 4
    let r := parseRec 64 (tRecBytes 3 1 0x10 16 4)
    findKey (s.x 1).toNat s.here.records = some (tRecBytes 3 1 0x10 16 4) ∧ r.kind = 3 ∧ r.poison ≤ 2 ∧ r.tailOk = true ∧
    (2 ^ 57 : Int) - hBase (s.h 1) ≤ 2 ^ 57 ∧ (2 ^ 57 : Int) - hBase ((s.setH 1 (BitVec.ofNat 256 (2 ^ 60))).h 1) < 0 := by decide +kernel
/-- The record's span of 64 bytes is the bound that HREC leaves, and the record's address the handle's REC (R172). -/
theorem test_hrec :
    tThen (.hrec 2 1) (tRec 1 1 0x10 16 4) (fun t => hBound (t.h 2) == 64 && hRec (t.h 2) == 64) = true ∧
    tThen (.hrec 2 1) tNibbles (fun t => hBound (t.h 2) == 8) = true := by decide +kernel

theorem witness_Predicate : tS.me.comparing 4 = false ∧ tS.me.comparing 5 = false := by decide +kernel
theorem witness_SystemWrite :
    sysSw 0x102 = true ∧ tS.me.supervisor = false ∧ 0 < tRows.here.h ∧ tRows.here.h < 2 ^ 64 ∧ tSup.me.supervisor = true := by
  decide +kernel
/-- Each clause at a register of its range: read-only ones, the loop counters, ROTB without rows, the spill registers,
the NF, TCFG and PERF registers, and ARBMODE on a core of a quad and on one of the control complex. -/
theorem witness_SystemWriteCompletes :
    (∀ n ∈ [0x000, 0x009, 0x070, 0x012, 0x020, 0x03F, 0x080], sysSw n = false) ∧ tSup.me.supervisor = true ∧
    (0x009 : BitVec 12).toNat < 0x00A ∧ (0x01F : BitVec 12).toNat = 0x18 + (7 : Fin 8).val ∧ tS.here.h = 0 ∧
    (0x023 : BitVec 12).toNat = 0x20 + (3 : Fin 4).val ∧ (0x03F : BitVec 12).toNat = 0x30 + (15 : Fin 16).val ∧
    (0x087 : BitVec 12).toNat = 0x80 + (7 : Fin 8).val ∧ isControl tSup.cur = true ∧
    ({ tSup with cur := 0 } : State).me.supervisor = false ∧ isControl tS.cur = false := by decide +kernel
/-- The PERF register holds what SRW wrote, and the spill limit its low 32 bits. -/
theorem test_srw_perf :
    tThen (.srw 0x087 7) (tX tS [(7, 0x0200000000000005)]) (fun t => t.here.perf[7] == 0x0200000000000005) = true ∧
    tThen (.srw 0x019 7) (tX tS [(7, -1)]) (fun t => t.me.loopc[1] == 0xFFFFFFFF) = true := by decide +kernel
theorem witness_Fences :
    tS.me.lq.all Entry.landed = true ∧ tHolding.me.sq.all Entry.done = true ∧ tS.here.noneParked tS.myK = true ∧
    (tS.me.lq ++ tS.me.cq ++ tS.me.sq).all (fun e => !e.recordDue) = true ∧
    (tS.me.lq ++ tS.me.cq ++ tS.me.sq).all (fun e => !e.isMtx || e.landed) = true ∧
    (tBusy.me.lq.all Entry.landed && tBusy.me.sq.all Entry.done && tBusy.here.noneParked tBusy.myK) = false := by decide +kernel
theorem witness_Timer :
    tS.x 1 = 0 ∧ (tX tS [(1, 9)]).x 1 ≠ 0 ∧ tS.me.alarm = none ∧ tS.me.evq.length + tS.me.reserved < 64 ∧
    (tMe tS fun x => { x with alarm := some 5, reserved := 1 }).me.alarm.isSome = true := by decide +kernel
theorem witness_Latency :
    tPhase.me.phase = true ∧ tS.me.phase = false ∧ tS.me.lq = [] ∧ tS.me.cq = [] ∧ tS.me.sq = [] ∧ tS.here.noneParked tS.myK = true ∧
    (∀ j ∈ tS.jobs, tS.mine tS.cur tS.myK j = true → j.orphan = true) ∧ (∀ j ∈ tS.conds, tS.mineCond tS.cur tS.myK j = false) := by
  decide +kernel
theorem witness_Halt : tSup.me.supervisor = true ∧ tS.me.supervisor = false ∧ tS.me.phase = false := by decide +kernel
theorem witness_AtTask : AtTask tS := ⟨by decide +kernel, by decide +kernel, by decide +kernel⟩
theorem witness_PreciseFault : AtTask tS ∧ (misalign 3).ecc = none ∧ (misalign 3).code ≠ 0x1B := ⟨witness_AtTask, by decide⟩
theorem witness_Handler : tSup.me.supervisor = true ∧ (misalign 3).code ≠ 0x1B := by decide +kernel
theorem witness_Atomic :
    0 = (tS.x tAmo.xa).toNat ∧ 4 = (if tAmo.wide then 8 else 4) ∧ Ordinary tS 0 4 true (tPhys 0) ∧ Ready tS 0 4 true ∧ tS.released = true :=
  ⟨by decide +kernel, by decide, ordinary_of true 0xA31000 3 tLeaf _ (by decide +kernel), by constructor <;> decide +kernel, by decide +kernel⟩

/-! ## The same: the queues and the vector unit -/

theorem witness_Routing :
    (∀ p ∈ [(tVadd, QName.cq), (tVld, .lq), (tVst, .sq)], routesTo p.1 = some p.2 ∧
      ((tRows.me.queue p.2).filter (fun e => !e.released && !e.isHeld)).length < 32 ∧ tRows.me.comparing p.1.guardReg = false ∧
      tRows.me.awaits p.1 (tRows.now tRows.cur) = false) ∧
    0 < tRows.here.h ∧ tVadd.namesRow = true ∧ countsAtRouting tPhase.me tVst = true ∧ tPhase.me.holdCount < 32 := by decide +kernel
/-- A context whose CQ is full, one with a compare of p5 still to come, and a phase that has counted 32 stores. -/
def tFull : State := tMe tRows fun x => { x with cq := List.replicate 32 (tEntry tRows tVadd) }
def tComparing : State := tMe tRows fun x => { x with cq := [tEntry tRows tVcmp] }
def tCounted : State := tMe tPhase fun x => { x with holdCount := 32 }
/-- A load of x1 has yet to return, which a VADD of x1 waits for. -/
def tPending : State := tMe tRows fun x => { x with pendingX := [{ reg := 1, due := 64, since := 0 }] }
def tBcast : Instr := .vadd (tHdr .f32) (.row 1) (.bcast 1) (.op .latch)
theorem witness_RoutingHolds :
    tVadd.namesRow = true ∧ tS.here.h = 0 ∧ 0 < tFull.here.h ∧ 32 ≤ ((tFull.me.queue .cq).filter (fun e => !e.released && !e.isHeld)).length ∧
    tPending.me.awaits tBcast (tPending.now tPending.cur) = true ∧ 0 < tPending.here.h ∧
    tComparing.me.comparing (Instr.vadd { tHdr .f32 with guard := 5 } .latch .latch (.op .latch)).guardReg = true ∧
    tVst.namesRow = false ∧ ((tCounted.me.queue .sq).filter (fun e => !e.released && !e.isHeld)).length < 32 ∧
    tCounted.me.comparing tVst.guardReg = false ∧ tCounted.me.awaits tVst (tCounted.now tCounted.cur) = false ∧ countsAtRouting tCounted.me tVst = true ∧ 32 ≤ tCounted.me.holdCount := by decide +kernel
theorem witness_RowNames : 0 < tRows.here.h := by decide +kernel

/-- An entry of CQ at its head, ready to start. -/
def tHead (i : Instr) : Entry := { tEntry tRows i with popped := true }
def tQueued (i : Instr) : State := tMe tRows fun x => { x with cq := [tHead i], seq := 1 }
theorem witness_EntryStarts :
    (tQueued tVadd).startable (0 : AnyCore).toNat false .cq = some (tHead tVadd) ∧ tVadd.vhdr?.isSome = true ∧ (tHead tVadd).popped = true ∧
    (tQueued tVadd).poison = [] ∧
    (let x := ((tQueued tVadd).ctx (0 : AnyCore).toNat false).setEntry .cq { tHead tVadd with moved := (tQueued tVadd).time }
     x.settle = x) := by decide +kernel
/-- What that entry computes: a VCPY of zeros, which evaluates whole. -/
def tVcpy : Instr := .vcpy (tHdr .i32) (.row 1) (.op (.row 2))
theorem witness_EntryStarts_result :
    let x := ((tQueued tVcpy).ctx (0 : AnyCore).toNat false).setEntry .cq { tHead tVcpy with moved := (tQueued tVcpy).time }
    ∃ v, Reader.vector { core := ((tQueued tVcpy).setCtx 0 false x).core 0, k := false, t := (tHead tVcpy).taken, free := (tQueued tVcpy).fresh }
      (illegalOf (encode tVcpy)) tVcpy = .ok v ∧ v.poison = none := by
  refine ⟨_, rfl, ?_⟩
  decide +kernel
def tLand : Landing := { writes := [{ dest := .row 1, val := 5, mask := BitVec.allOnes 8192 }], latch := some (.row 1), pred := none, flags := 0 }
def tStarted : State := tMe tRows fun x => { x with cq := [{ tHead tVadd with phase := .started tLand }] }
theorem witness_EntryCompletes :
    (tStarted.ctx (0 : AnyCore).toNat false).cq[0]? = some { tHead tVadd with phase := .started tLand } ∧
    tLand.drops = [] ∧ (tStarted.ctx (0 : AnyCore).toNat false).holdList = [] ∧ Instr.arrayPlane? tVadd = none ∧
    (tStarted.quad (quadOf (0 : AnyCore).toNat)).mayAdvance (inQuad (0 : AnyCore).toNat) = true ∧
    ∀ f ∈ (tStarted.ctx (0 : AnyCore).toNat false).cq, f.seq < (tHead tVadd).seq → ∀ m, f.phase = .started m → tLand.meets m = false := by
  refine ⟨by decide +kernel, rfl, by decide +kernel, by decide +kernel, by decide +kernel, fun f hf hl => ?_⟩
  have : (tStarted.ctx (0 : AnyCore).toNat false).cq.all (fun f => decide (¬ f.seq < (tHead tVadd).seq)) = true := by decide +kernel
  exact absurd hl (by simpa using List.all_eq_true.mp this f hf)
def tArrived : State := tMe tRows fun x => { x with lq := [{ tEntry tRows tVld with phase := .arrived tLand }] }
theorem witness_LoadDataReturns :
    (tArrived.ctx (0 : AnyCore).toNat false).lq.find? (fun e => match e.phase with | .arrived _ => true | _ => false) =
      some { tEntry tRows tVld with phase := .arrived tLand } ∧ (tEntry tRows tVld).taken.scored = false := by decide +kernel

/-! ## The same: waits, events, alarms, leases, fetch -/

def tEv : State := tMe tS fun x => { x with evq := [5] }
/-- A WAIT on the event queue whose deadline is TIME 0, and one that has yet to come. -/
def tTimed (d : Word) : State := tMe tS fun x => { x with hold := some (.wait (tWait false true false false 0 0 0), .wait d) }
theorem witness_Waits :
    (tWait false true false false 0 0 0).enM = false ∧ tEv.me.evq ≠ [] ∧ tS.me.evq = [] ∧
    (waitDeadline (tWait false true false false 0 0 0) (tTimed 0)).toNat ≤ (tTimed 0).time.toNat ∧
    (tTimed 9).time.toNat < (waitDeadline (tWait false true false false 0 0 0) (tTimed 9)).toNat ∧
    (tS.x 1).toNat ≤ tS.time.toNat ∧ tS.me.hold = none ∧ tS.time.toNat < ((tX tS [(1, 5)]).x 1).toNat ∧
    ((tX tS [(1, 5)]).x 1).toNat ≤ tS.time.toNat + 5 := by decide +kernel
theorem witness_Waits_sense :
    2 = (if true = true ∧ tEv.me.evq ≠ [] then 2 else 0) + (if false = true ∧ (0 : BitVec 4).toNat ≤ 0 then 4 else 0) +
      (if false = true ∧ (tEv.x 0).toNat ≤ tEv.time.toNat then 8 else 0) := by decide +kernel
theorem witness_EventPops : (8 : XReg).toNat % 2 = 0 ∧ tEv.me.evq ≠ [] ∧ tS.me.evq = [] := by decide +kernel

/-- Core 0 waits, on the given instruction. -/
def tHeld (s : State) (i : Instr) (h : Hold) : State := tMe s fun x => { x with hold := some (i, h) }
theorem witness_WaitsEnd :
    let m (s : State) : State := { s with cur := (0 : AnyCore).toNat }
    (m (tHeld tRows tVadd .route)).here.running = true ∧ (m (tHeld tRows tVadd .route)).me.mode = .live ∧
    (m (tHeld tRows tVadd .route)).me.stopping = false ∧ (tHeld tRows tVadd .route).issueLocked (0 : AnyCore).toNat = false ∧
    (m (tHeld tRows tVadd .route)).me.awaits tVadd ((m (tHeld tRows tVadd .route)).now (0 : AnyCore).toNat) = false ∧
    (m (tHeld tRows tVadd .route)).me.hold = some (tVadd, .route) ∧ routesTo tVadd = some .cq ∧ 0 < (m (tHeld tRows tVadd .route)).here.h ∧
    (((m (tHeld tRows tVadd .route)).me.queue .cq).filter (fun e => !e.released && !e.isHeld)).length < 32 ∧
    (m (tHeld tRows tVadd .route)).me.comparing tVadd.guardReg = false ∧ countsAtRouting (m (tHeld tRows tVadd .route)).me tVadd = false ∧
    (m (tHeld tS (.fence .sc .die) (.wait 5))).me.hold = some (.fence .sc .die, .wait 5) ∧ (m (tHeld tS (.fence .sc .die) (.wait 5))).released = true ∧
    (m (tHeld tS (.waitt 1 5) (.wait 5))).me.hold = some (.waitt 1 5, .wait 5) ∧ (tS.x 1).toNat ≤ tS.time.toNat ∧
    (m (tHeld tEv (.wait (tWait false true false false 0 0 0)) (.wait 0))).me.evq ≠ [] ∧
    (m (tTimed 0)).me.evq = [] ∧ (0 : Word).toNat ≤ (tTimed 0).time.toNat := by decide +kernel
theorem witness_Wakes :
    let s := tHeld tS .yield (.yield 0 false)
    (s.core (0 : AnyCore).toNat).running = true ∧ (s.core (0 : AnyCore).toNat).me.mode = .live ∧
    (s.core (0 : AnyCore).toNat).me.hold = some (.yield, .yield 0 false) ∧ (0 : Word).toNat ≤ (s.die (dieOf (0 : AnyCore).toNat)).cycles.toNat ∧
    (s.core (0 : AnyCore).toNat).me.stopping = false ∧
    (let u (woken : Bool) : State := { State.reset with cur := 1027 }.setMe { (State.reset.core 1027).me with
       mode := .asleep, hold := some (.halt, .yield (-1) woken) }
     ((u true).core (1024 + (3 : DieNo).toNat)).me.mode = .asleep ∧
     ((u true).core (1024 + (3 : DieNo).toNat)).me.hold = some (.halt, .yield (-1) true) ∧
     ((u false).core (1024 + (3 : DieNo).toNat)).me.hold = some (.halt, .yield (-1) false)) := by decide +kernel
theorem witness_Alarms :
    let s := tMe tS fun x => { x with alarm := some 0, reserved := 1 }
    let u := tMe tS fun x => { x with stepDue := true }
    (s.ctx (0 : AnyCore).toNat false).alarm = some 0 ∧ (s.ctx (0 : AnyCore).toNat false).mode ≠ .free ∧ (0 : Word).toNat ≤ s.time.toNat ∧
    (u.core (0 : AnyCore).toNat).running = true ∧ (u.core (0 : AnyCore).toNat).me.mode = .live ∧ (u.core (0 : AnyCore).toNat).me.stepDue = true ∧
    (u.core (0 : AnyCore).toNat).me.hold = none ∧ (u.core (0 : AnyCore).toNat).me.supervisor = false := by decide +kernel
/-- Quad 0 with a request of core 1; with a lease of 64 commands; and in WIN2 with its window over. -/
def tQuad (f : Quad → Quad) : State := tS.setQuad 0 (f (tS.quad 0))
theorem witness_Leases :
    let a := (tQuad fun q => { q with requests := [1] }).setCore 1
      { tRows.here with c0 := { tRows.me with cq := [tHead (.tzero tOff false 0)] } }
    let b := tQuad fun q => { q with lease := some { core := 1, commands := 64, cycles := 0 } }
    let c := tQuad fun q => { q with arbmode := 0x02000011 }
    0 = 64 * (0 : DieNo).toNat + (0 : BitVec 6).toNat ∧ [1] = (a.quad 0).requests.filter (fun r => a.stillAsks (4 * 0 + r.toNat)) ∧
    Quad.nextHolder { a.quad 0 with requests := [1] } = some 1 ∧ (a.quad 0).win2 = none ∧ (a.quad 0).lease = none ∧
    (a.quad 0).last = none ∧ (b.quad 0).lease = some { core := 1, commands := 64, cycles := 0 } ∧
    (c.quad 0).win2 = some (0, 1, 512) := by decide +kernel
theorem witness_Leases_window :
    let c := (tQuad fun q => { q with arbmode := 0x02000011 }).setDie 0 { tS.die 0 with cycles := 512 }
    (c.quad 0).win2 = some (0, 1, 512) ∧ (c.quad 0).since + 512 ≤ (c.die (dieOf (4 * 0))).cycles.toNat := by decide +kernel
theorem witness_FetchFaults :
    tS.fetches (0 : AnyCore).toNat = true ∧ AtTask { tS with cur := (0 : AnyCore).toNat } :=
  ⟨by decide +kernel, by decide +kernel, by decide +kernel, by decide +kernel⟩
/-! ## The same: jobs, the inbox, the Lodge, revisions -/

theorem witness_JobIssue :
    handleOk (tS.h 1) = true ∧ handleOk (tS.h 2) = true ∧ tS.here.drain = none ∧ tS.me.evq.length + tS.me.reserved < 64 ∧
    (∀ e ∈ [Engine.copy, .transducer, .collective], tS.queueFull (dieOf tS.cur) e = false) ∧
    handleOk ((tS.setH 2 0x3000000000000000000000000000).h 2) = true ∧ handleOk ((tS.setH 2 (BitVec.allOnes 256)).h 2) = false := by
  decide +kernel

/-- x7 and x6 hold the waybill of core 5 of this module, with engine INBOX (R386). -/
def tWay : State := tX tS [(1, 0x1234), (7, 0x0005000000000000)]
def tInbox (n : Nat) : State := tWay.setCore 5 { tWay.core 5 with inbox := List.replicate n 9 }
theorem witness_RemoteEnqueue :
    tWay.released = true ∧ tWay.waybillOk (tWay.waybill 6) engInbox = true ∧ wbHops (tWay.waybill 6) = 0 ∧ 5 = wbCore (tWay.waybill 6) ∧
    5 ≠ tWay.cur ∧ tWay.me.hold = none ∧ (tWay.core 5).inbox.length < 16 ∧ 16 ≤ ((tInbox 16).core 5).inbox.length ∧
    (tInbox 16).me.hold = none := by decide +kernel
theorem witness_RemoteEnqueue_resend :
    let s := tHeld tWay (.renq 3 1 6) (.wait 0)
    s.cur = (0 : CoreNo).toNat ∧ s.here.running = true ∧ s.me.mode = .live ∧ s.me.stopping = false ∧ s.issueLocked s.cur = false ∧ s.me.hold = some (.renq 3 1 6, .wait 0) ∧
    (0 : Word) ≠ -1 ∧ (0 : Word).toNat ≤ (s.die (dieOf s.cur)).cycles.toNat ∧ (s.core 5).inbox.length < 16 ∧ s.released = true ∧
    s.waybillOk (s.waybill 6) engInbox = true ∧ wbHops (s.waybill 6) = 0 ∧ 5 = wbCore (s.waybill 6) ∧ 5 ≠ s.cur := by decide +kernel
theorem witness_Inbox :
    (0 : BitVec 16) = tS.moduleId ∧ (1 : BitVec 16) ≠ tS.moduleId ∧ (tS.core (5 : CoreNo).toNat).inbox.length < 16 ∧
    16 ≤ ((tInbox 16).core (5 : CoreNo).toNat).inbox.length := by decide +kernel
theorem witness_Inbox_deliver :
    let s := tS.setCore 0 { tS.core 0 with inbox := [7, 8] }
    (s.core (0 : CoreNo).toNat).inbox = 7 :: [8] ∧ (s.core (0 : CoreNo).toNat).running = true ∧ false = (s.core (0 : CoreNo).toNat).active ∧
    (s.ctx (0 : CoreNo).toNat false).evq.length + (s.ctx (0 : CoreNo).toNat false).reserved < 64 := by decide +kernel

/-- A job of core 0, as CPY of no elements makes it, with another kind or phase. -/
def tJobs : State := match exec (.cpy 1 2 0 3) tS with | .next t => t | _ => tS
def tJob : Job := tJobs.jobs.headD
  { id := 0, kind := .cpy 0 0 0, die := 0, core := 0, context := false, who := none, launch := none, tag := 0, words := 0,
    nf := nfPresets, seq := 0, scored := false, reads := [], writes := [], phase := .waiting, pos := 0, got := (0, 0),
    replaced := false, seen := [], chunkSeen := false, table := [], parts := [], late := none, phaseNo := none, orphan := false, reissued := false, moved := 0 }
def tWith (j : Job) : State := { tJobs with jobs := [j] }
theorem witness_JobSteps_start :
    tJobs.job? tJob.id = some tJob ∧ tJobs.jobReady tJob = true ∧ (∀ i ∈ tJobs.jobs, i = tJob) := by decide +kernel
theorem witness_JobSteps :
    let a := { tJob with phase := .started }
    let b := { tJob with kind := .send 0 0 0, phase := .remote }
    let c := { tJob with kind := .coll .sum 0 0 1 0, phase := .remote }
    (tWith a).job? tJob.id = some a ∧ a.kind = .cpy 0 0 0 ∧ a.replaced = false ∧ hRec (0 : HandleWord) = 0 ∧
    (tWith b).job? tJob.id = some b ∧ tJob.id < 2 ^ 32 ∧ (tWith c).job? tJob.id = some c ∧ tJob.silent = false := by decide +kernel
def ownerHere (o : Owner) : Option (Nat × Bool) := match o with | .here c k => some (c, k) | _ => none
theorem owner_of {o : Owner} {c : Nat} {k : Bool} (h : ownerHere o = some (c, k)) : o = .here c k := by
  cases o <;> simp_all [ownerHere]
theorem witness_JobSteps_owner : tJobs.owner tJob = .here 0 false := owner_of (by decide +kernel)

/-- LRMAP from a map with 8 REG banks: a request for the present map, for one CACHE bank more, and one that is refused. -/
def tLodge (a : Word) : State := tX tRows [(1, a)]
def tDrainOf (begun : Bool) : Drain :=
  { old := { reg := 16, cache := 32, matrix := 0, spill := 0, pad := 0 }, seqs := (0, 0), begun := begun, reg := .none, mat := .none, pad := .none,
    save := none }
def tDrained (begun : Bool) : State := tRows.setHere { tRows.here with drain := some (tDrainOf begun) }
theorem witness_LodgeMap :
    let s := tRows.setHere { tRows.here with
      rooms := { reg := 8, cache := 12, matrix := 0, spill := 1, pad := 27 }, c0 := { tRows.here.c0 with splim := 0x8000 } }
    let a := tX s [(1, 0x01000C08), (62, 0x8000)]
    let b := tX s [(1, 0x01000D08), (62, 0x8000)]
    (tDrained false).here.drain.isSome = true ∧ a.lrmapCode (a.x 1).toNat .none .none .none = 0 ∧ a.here.roomsOf (a.x 1).toNat = a.here.rooms ∧
    (tLodge 0x0809).lrmapCode ((tLodge 0x0809).x 1).toNat .none .none .none ≠ 0 ∧
    b.lrmapCode (b.x 1).toNat .none .none .dead = 0 ∧ b.here.roomsOf (b.x 1).toNat ≠ b.here.rooms ∧
    saveSize b.here.rooms (b.here.roomsOf (b.x 1).toNat) .none .none .dead = 0 := by decide +kernel
theorem witness_LodgeQuery : ∀ r ∈ [Room.reg, .cache, .pad, .matrix, .spill], tRows.here.rooms.size r < 256 := by decide +kernel
/-- A PAD room of one bank, with a stash mapping of segment 0 at address 0x3000. -/
def tPad : State := tS.setHere { tS.here with rooms := { tS.here.rooms with pad := 1 } }
def tMap : Stash := { seg := 0, va := 0x3000, context := false, filled := 0, dirty := 0 }
def tStash (n : Nat) : State :=
  tPad.setHere { tPad.here with stash := tMap :: (List.range n).map (fun i => { tMap with seg := i + 100, va := 0x100000 + 4096 * i }) }
theorem witness_LodgeStash :
    let bad (s : State) (xa xb : Nat) : Bool := xa % 4096 != 0 || decide (65536 * s.here.rooms.pad ≤ xa) || xb % 4096 != 0 || decide (2 ^ 57 ≤ xb)
    tPad.lodgeHeld true = false ∧ tPad.lodgeHeld false = false ∧ ((tX tPad [(1, 0x200000000000000)]).x 1).toNat + (tPad.x 2).toNat ≤ 2 ^ 57 ∧
    ((tDrained true).setHere { (tDrained true).here with rooms := { (tDrained true).here.rooms with pad := 1 } }).lodgeHeld false = true ∧
    bad tPad 1 0 = true ∧ bad tPad 0xF000 0x1000 = false ∧ bad tPad 0x10000 0 = true ∧ tPad.released = true ∧ tPad.here.stash = [] ∧
    2 ^ 57 < ((tX tPad [(1, 0x200000000000001)]).x 1).toNat ∧ (∃ m ∈ (tStash 0).here.stash, m.seg = 0) ∧
    (∀ m ∈ (tStash 0).here.stash, m.seg ≠ 1) ∧ (∃ m ∈ (tStash 0).here.stash, m.va = 0x3000) ∧
    (∀ m ∈ (tStash 63).here.stash, m.seg ≠ 1 ∧ m.va ≠ 0x5000) ∧ 64 ≤ (tStash 63).here.stash.length ∧
    (tStash 62).here.stash.length < 64 ∧ (tStash 0).segmentFree (tStash 0).cur 1 = true ∧ (tStash 0).segmentFree (tStash 0).cur 0 = true ∧
    (∀ m ∈ tPad.here.stash, m.seg ≠ 0) ∧ tMap.dirty = 0 ∧ (∀ n ∈ (tStash 0).here.stash, n.seg = 0 → n = tMap) := by decide +kernel
theorem witness_LodgeDrain :
    ((tDrained false).core (0 : CoreNo).toNat).drain = some (tDrainOf false) ∧ (tDrained false).drainReady (0 : CoreNo).toNat = true ∧
    ((tDrained true).core (0 : CoreNo).toNat).drain = some (tDrainOf true) ∧ (tDrainOf true).begun = true ∧
    (tS.core (0 : CoreNo).toNat).stashAt (0x3000 : Word).toNat = none ∧
    ((tStash 0).core (0 : CoreNo).toNat).stashAt (0x3040 : Word).toNat = some tMap := by decide +kernel

/-- A launch with one revisioned region of a page, from address 0. -/
def tRegion : Region := { base := 0, size := 0x20000, merge := 1, elem := 2, sat := false }
def tRev : State := { tOn tS with launches := [{ tLaunch with regions := [tRegion], req := { tReq with budget := 0x100000 } }] }
theorem witness_RegionType :
    regionAt (tRev.taskRegions tRev.me.task) (tRev.x 1).toNat = some (0, tRegion) ∧
    regionAt (tS.taskRegions tS.me.task) (tS.x 1).toNat = none := by decide +kernel
def tChild (i : Nat) (ph : TaskPhase) : Task := { tTask with id := 10 + i, parent := some 2, ordinal := i, phase := ph }
def tKids (l : List Task) : State := { tRev with tasks := tRev.tasks ++ l }
theorem witness_Join :
    let u := tChild 1 (.ended false)
    tRev.me.merge = none ∧ tRev.me.stopping = false ∧ (tRev.choose 2).1 = 0 ∧ (tKids [u]).me.merge = none ∧ (tKids [u]).me.stopping = false ∧
    ((tKids [u]).choose 2).1 = 0 ∧ tS.forkReady = true ∧ tS.ctxTask tS.cur tS.myK = none ∧ tRev.forkReady = true ∧
    tRev.ctxTask tRev.cur tRev.myK = some { tTask with phase := .placed 0 false } ∧ tRev.children 2 = [] ∧
    (tX (tKids [tChild 1 .ready]) [(1, 1)]).forkReady = true ∧ (tKids [tChild 1 .ready]).children 2 = [tChild 1 .ready] ∧
    (tChild 1 .ready).hasEnded = false ∧ u.ordinal = ((tX tS [(1, 1)]).x 1).toNat % 256 ∧
    (tKids [u]).forkReady = true ∧ (tKids [u]).children 2 = [u] ∧ (tKids [u]).task? u.id = some u ∧ u.rev = [] ∧ u.anc = [] := by decide +kernel
theorem witness_Mark :
    (tRev.x 1).toNat % 65536 = 0 ∧ tRev.x 2 = 0 ∧ tRev.inOneRegion (tRev.x 1).toNat 0 = true ∧ tS.inOneRegion (tS.x 1).toNat 0 = false ∧
    tRev.me.task.isSome = true ∧ tRev.rangeQuiet (globalRange (tRev.x 1).toNat 0) = true ∧ tRev.me.holdList = [] ∧ tRev.here.stash = [] ∧
    ((tX tS [(1, 1)]).x 1).toNat % 64 ≠ 0 := by decide +kernel
/-- A store of the context is due, so that FORK waits. -/
def tStoring : State := tMe tRev fun x => { x with sq := [tEntry tS tVst], seq := 1 }
theorem witness_Fork :
    let p : Task := { tTask with phase := .placed 0 false }
    let full := tKids ((List.range 16).map (fun i => tChild (i + 1) .ready))
    let deep := { tRev with tasks := [{ p with depth := 8 }] }
    let poor := { tRev with launches := [{ tLaunch with req := { tReq with budget := 65535 } }] }
    tRev.ctxTask tRev.cur tRev.myK = some p ∧ (tRev.ctxLaunch tRev.cur tRev.myK).isSome = true ∧
    tStoring.forkReady = false ∧ full.forkReady = true ∧ 16 ≤ (full.children 2).length ∧
    deep.forkReady = true ∧ deep.ctxTask deep.cur deep.myK = some { p with depth := 8 } ∧ (deep.children 2).length < 16 ∧
    poor.forkReady = true ∧ 65535 < 65536 * poor.ancestorPages 1 + 65536 ∧ (poor.ctxLaunch poor.cur poor.myK).isSome = true ∧
    tRev.forkReady = true ∧ p.depth < 8 ∧ 65536 * tRev.ancestorPages 1 + 65536 ≤ 0x100000 ∧ tRev.here.stash = [] := by decide +kernel
theorem witness_Fork_fits : tRev.fitting tReq.rooms none ≠ [] := by
  have h : (0 : Nat) ∈ tRev.fitting tReq.rooms none :=
    List.mem_filter.mpr ⟨List.mem_range.mpr (by decide), by decide +kernel⟩
  exact List.ne_nil_of_mem h
/-! ## The same: launches, tasks and the dispatcher -/

/-- What a computation that succeeds answers. -/
def okOr {ε α : Type} (x : Except ε α) (d : α) : α := match x with | .ok a => a | .error _ => d
def isOk {ε α : Type} (x : Except ε α) : Bool := match x with | .ok _ => true | .error _ => false
theorem ok_of {ε α : Type} {x : Except ε α} (h : isOk x = true) (d : α) : x = .ok (okOr x d) := by
  cases x with
  | ok a => rfl
  | error e => simp [isOk] at h

/-- An ONLINE module with launch queue 0 of die 0 set. -/
def tQueue (f : LaunchQueue → LaunchQueue) : State :=
  { tS with modState := .online }.setQueueReg 0 0 (f { LaunchQueue.reset with base := 0x1000000, capacity := 16 })
def tQ (s : State) : LaunchQueue := (s.die (0 : DieNo).toNat).queue 0
theorem witness_LaunchQueues :
    let late := { tQueue (fun q => { q with doorbell := 1, bells := [(1, 0)], misread := true }) with time := 2000 }
    (tQueue id).modState ≠ .reset ∧ (tQ (tQueue id)).stopped = false ∧ (tQ (tQueue id)).capacity.toNat = 2 ^ 4 ∧
    (0 : Word).toNat ≤ (tQ (tQueue id)).doorbell.toNat ∧ (tQ (tQueue id)).doorbell.toNat < (16 : Word).toNat ∧
    (16 : Word).toNat ≤ (tQ (tQueue id)).head.toNat + 2 ^ 4 ∧ (tQ (tQueue id)).head.toNat + 2 ^ 4 < (17 : Word).toNat ∧
    (tQ late).head.toNat < (tQ late).doorbell.toNat ∧ (tQ late).tagOk (late.queueEntry (tQ late)) = false ∧
    (tQ late).bells.filter (fun b => (tQ late).head.toNat < b.1.toNat) = [] ++ [(1, 0)] ∧ (tQ late).misread = true ∧
    (0 : Word).toNat + 2000 ≤ late.time.toNat ∧ (tQ late).since.toNat + 2000 ≤ late.time.toNat ∧
    ({ late with time := 1999 } : State).time.toNat < (0 : Word).toNat + 2000 ∧ (tQ (tQueue id)).head = (tQ (tQueue id)).doorbell ∧
    (tQ late).head ≠ (tQ late).doorbell ∧ ({ tS with locking := true } : State).locking = true := by decide +kernel

/-- An entry of that queue, a launch record at address 0x400, and its loop table, one level of 2 tasks, at 0x800 (R11, R14, R442). -/
def tPut (s : State) (l : List (Nat × Nat × Nat)) : State := l.foldl (fun s p => s.writeNear (0x1000000 + p.1) p.2.1 p.2.2) s
def tEntered : State := tPut (tQueue fun q => { q with doorbell := 1 })
  [(0, 8, 1), (8, 8, 0x400), (0x400, 8, 0x4000), (0x408, 8, 0x800), (0x418, 1, 1), (0x420, 4, 0x01000C00), (0x424, 4, 0x80000),
   (0x428, 8, 0x100000), (0x438, 8, 0x2000), (0x440, 8, 0x900), (0x450, 4, 1), (0x800, 4, 2), (0x804, 1, 2)]
def tRead : List Byte × State := okOr ((readLong (dispatchView 0) 0x400 128).run tEntered) ([], tS)
def tTables : Option Tables × State := okOr ((readTables 0 tRead.1).run (tRead.2.readTag 0 0 (tQ tEntered).consumed)) (none, tS)
theorem witness_LaunchAccepted :
    tEntered.entryDue (tQ tEntered) = true ∧ (tQ tEntered).tagOk (tEntered.queueEntry (tQ tEntered)) = true ∧
    fieldAt (tEntered.queueEntry (tQ tEntered)) 8 8 = 0x400 ∧ (tQ tEntered).misread = false ∧
    tEntered.modState = .online ∧ (parseLaunch tRead.1).cls = (0 : BitVec 3).toNat ∧
    (∀ x ∈ (tEntered.queueEntry (tQ tEntered)).drop 0x10, x = 0) ∧ recordLegal 0x400 tRead.1 (parseLaunch tRead.1) = true ∧
    tEntered.taskRoot.getLsbD 0 = true ∧ requestBanks (parseLaunch tRead.1).rooms ≤ (tEntered.core 0).goodBanks ∧
    (tTables.1.map (fun t => (superstepsOf t.levels, gridSize t.levels))) = some (1, 2) := by decide +kernel
theorem witness_LaunchAccepted_read :
    (readLong (dispatchView 0) 0x400 128).run tEntered = .ok tRead ∧
    (readTables 0 tRead.1).run (tRead.2.readTag 0 0 (tQ tEntered).consumed) = .ok tTables :=
  ⟨ok_of (by decide +kernel) _, ok_of (by decide +kernel) _⟩

/-- Reads that fill no line of a cache room leave the translations alone. -/
theorem touches_of {s t : State} (h : t = { s with tlb := t.tlb, choices := t.choices, written := t.written }) : Touches s t :=
  ⟨h.trans (by rw [h]), fun c => by rw [h]; rfl⟩
theorem witness_LaunchAccepted_touches :
    Touches tEntered tRead.2 ∧ Touches (tRead.2.readTag 0 0 (tQ tEntered).consumed) tTables.2 :=
  ⟨touches_of (by decide +kernel), touches_of (by decide +kernel)⟩

def tWaiting : State := { tS with launches := [{ tLaunch with phase := .waiting }], nextId := 2 }
theorem fits_of {s : State} {req : BitVec 32} {d : Option (BitVec 2)} (n : Nat)
    (h : n < 1024 ∧ (onDie d n && decide (requestBanks req ≤ (s.core n).goodBanks)) = true) : s.fitting req d ≠ [] := by
  apply List.ne_nil_of_mem (a := n)
  exact List.mem_filter.mpr ⟨List.mem_range.mpr h.1, h.2⟩
theorem witness_SuperstepStarts :
    tWaiting.launch? 1 = some { tLaunch with phase := .waiting } ∧ (0 : Word).toNat ≤ tWaiting.time.toNat ∧
    ∀ d, tWaiting.fitting tReq.rooms d ≠ [] := by
  refine ⟨by decide +kernel, by decide +kernel, fun d => ?_⟩
  cases d with
  | none => exact fits_of 0 (by decide +kernel)
  | some v =>
    have h : ∀ v : BitVec 2, 256 * v.toNat < 1024 ∧
        (onDie (some v) (256 * v.toNat) && decide (requestBanks tReq.rooms ≤ (tWaiting.core (256 * v.toNat)).goodBanks)) = true := by
      decide +kernel
    exact fits_of _ (h v)
/-- A launch of two supersteps whose tasks have ended. -/
def tSteps : Launch := { tLaunch with levels := { kind := 0, extent := 2, stride := 0, q := 3 } :: tLevels }
def tEnded : State := { tS with launches := [tSteps], tasks := [{ tTask with phase := .ended false }] }
theorem witness_SuperstepJoins :
    tEnded.launch? 1 = some tSteps ∧ tEnded.barrier tSteps = true ∧ tSteps.step + 1 < superstepsOf tSteps.levels ∧
    ∀ t ∈ tEnded.tasks, t.launch = tSteps.id → t.keeps = false ∧ t.rev = [] ∧ t.anc = [] := by decide +kernel

/-- A ready task, and a free core 0. -/
def tReady : State := { State.reset with modState := .online, launches := [tLaunch], tasks := [tTask], nextId := 3 }
theorem witness_Dispatch :
    tReady.task? 2 = some tTask ∧ tReady.launch? 1 = some tLaunch ∧ tTask.phase = .ready ∧
    tReady.dispatchable tTask (0 : CoreNo).toNat false = true := by decide +kernel
theorem witness_Aging :
    tTask.waits = true ∧ tReq.cls + tTask.age < 7 ∧ tTask.since.toNat + 65536 * (tTask.age + 1) ≤ (65536 : Word).toNat := by decide +kernel
/-- Core 5 runs a task of class 0, and a task of a launch of class 2, which only core 5 may take, has waited 16,384 ticks. -/
def tUrgent : Task := { tTask with id := 4, launch := 3, eligible := [5], crowded := some 0 }
def tUrgentLaunch : Launch := { tLaunch with id := 3, req := { tReq with cls := 2 } }
def tVictim : State := tPut { (State.reset.setCore 5 { Core.reset with
    running := true, launch := some 1, c0 := { Context.reset with mode := .live, task := some 2 } }) with
      modState := .online, time := 16384, launches := [tLaunch, tUrgentLaunch],
      tasks := [{ tTask with phase := .placed 5 false, slice := some 0 }, tUrgent], nextId := 5 } []
def tRing : State := { tVictim with mem := (((tVictim.writeNear (Config.ringBase 0 3) 8 0x500000).writeNear (Config.ringBase 0 3 + 8) 8 16).writeNear
  (Config.ringBase 0 3 + 24) 8 1).mem }
theorem tRing_launch : tRing.launch? 3 = some tUrgentLaunch := by decide +kernel
/-- Only core 5 is eligible. -/
theorem tRing_allows {m : Nat} (h : m ≠ 5) : tRing.allows tUrgentLaunch tUrgent m = false := by
  unfold State.allows
  have : (tUrgent.eligible.isEmpty || tUrgent.eligible.contains m) = false := by simp [tUrgent, h]
  simp only [show tUrgentLaunch.req.det = false from rfl, Bool.false_eq_true, if_false, this, Bool.and_false]
theorem witness_Preempt :
    tRing.task? 4 = some tUrgent ∧ tRing.launch? 3 = some tUrgentLaunch ∧ tUrgent.waits = true ∧ tUrgent.crowded = some 0 ∧
    (0 : Word).toNat + 16384 ≤ tRing.time.toNat ∧ (tRing.ringTake (dieOf (5 : CoreNo).toNat) 3).isSome = true ∧
    tRing.preempting (5 : CoreNo).toNat = false ∧
    (tRing.setCore 5 (tRing.core 5).stopBoth).savable (5 : CoreNo).toNat = true ∧
    (tRing.setCore 5 (tRing.core 5).stopBoth).preempting (5 : CoreNo).toNat = true ∧
    ((tRing.setCore 5 (tRing.core 5).stopBoth).ringTake (dieOf (5 : CoreNo).toNat) 3).isSome = true := by decide +kernel
/-- The same core with a vector instruction under way is not saved at once. -/
def tRingBusy : State := tRing.setCtx 5 false { tRing.ctx 5 false with cq := [{ tHead tVadd with phase := .started tLand }] }
theorem witness_Preempt_busy :
    (tRingBusy.setCore 5 (tRingBusy.core 5).stopBoth).savable (5 : CoreNo).toNat = false ∧ tRingBusy.preempting (5 : CoreNo).toNat = false ∧
    (tRingBusy.ringTake (dieOf (5 : CoreNo).toNat) 3).isSome = true := by decide +kernel
theorem witness_Preempt_victim : tRing.bestVictim tUrgentLaunch tUrgent = some 5 := by
  have h : (List.range 1024).filter (tRing.victim tUrgentLaunch tUrgent) = [5] := by
    rw [List.filter_congr (q := fun m => m == 5) fun m _ => ?_]
    · decide +kernel
    · by_cases h5 : m = 5
      · subst h5; decide +kernel
      · simp [State.victim, tRing_allows h5, h5]
  have hc : tRing.coreClass 5 = some 0 := by decide +kernel
  simp only [State.bestVictim, h, List.map_cons, List.map_nil, hc]
  rfl
theorem witness_Preempt_full : tRing.contextFree tUrgentLaunch tUrgent = false := by decide +kernel
def tExiting : State := tMe (tOn tS) fun x => { x with mode := .exiting, exited := true }
theorem witness_ContextFree :
    tExiting.freeable (0 : CoreNo).toNat false = true ∧ tExiting.unjoined (0 : CoreNo).toNat false = [] ∧
    (tExiting.core (0 : CoreNo).toNat).stash = [] := by decide +kernel
def tDet : State := { tOn tS with launches := [{ tLaunch with req := { tReq with det := true } }] }
theorem witness_DetPower :
    tS.detContexts (0 : DieNo).toNat = [] ∧ tDet.detContexts (0 : DieNo).toNat = [(0, false)] ∧ (tDet.ctx 0 false).supervisor = false ∧
    (tDet.ctx 0 false).mode = .live := by decide +kernel

/-! ## The same: the supervisor, records, engines, the module -/

def tHalted : State := tMe tPhase fun x => { x with mode := .halted }
def tTaskcmd (v : Word) : State := tS.setDie 0 { tS.die 0 with taskcmd := v }
def tSaved : Saved :=
  { ctx := Context.reset, halted := false, rows := [], spill := Store.empty, parked := [], fromCore := 0, context := false, held := true }
def tSavedTask : Task := { tTask with phase := .saved tSaved }
theorem witness_TaskCommands :
    ((tTaskcmd (BitVec.intMin 64)).die (0 : DieNo).toNat).taskcmd.getLsbD 63 = true ∧ (tS.die (0 : DieNo).toNat).taskcmd.getLsbD 63 = false ∧
    (tS.ctx (0 : CoreNo).toNat false).mode ≠ .halted ∧ (tS.ctx (1 : CoreNo).toNat false).mode = .free ∧
    (tHalted.ctx (0 : CoreNo).toNat false).mode = .halted ∧ (tHalted.ctx (0 : CoreNo).toNat false).mayCancel true = true ∧
    ((tOn tS).ctx (0 : CoreNo).toNat false).task = some 2 ∧ (tOn tS).task? 2 = some { tTask with phase := .placed 0 false } ∧
    (tOn tS).children 2 = [] ∧ ((tOn tS).core (0 : CoreNo).toNat).stash = [] ∧ ((tOn tS).ctx (0 : CoreNo).toNat false).mode ≠ .free ∧
    ((tOn tS).ctx (0 : CoreNo).toNat false).exited = false ∧ ((tOn tS).ctx (0 : CoreNo).toNat false).settled = true ∧
    ((tOn tS).ctxTask (0 : CoreNo).toNat false).isSome = true ∧ ((tOn tS).ctxLaunch (0 : CoreNo).toNat false).isSome = true ∧
    (tOn tS).mergeDone (0 : CoreNo).toNat false = true ∧ tExiting.heldTask (0 : CoreNo).toNat false = none ∧
    (tExiting.ctx (0 : CoreNo).toNat false).mode ≠ .free ∧ (tExiting.ctx (0 : CoreNo).toNat false).exited = true ∧ (tExiting.ctx (0 : CoreNo).toNat false).task.isSome = true ∧
    (tOn tS).heldTask (0 : CoreNo).toNat false = none ∧ ((tOn tStarted).ctx (0 : CoreNo).toNat false).settled = false ∧
    ({ tS with tasks := [tSavedTask] } : State).heldTask (0 : CoreNo).toNat false = some tSavedTask ∧
    tS.coreLaunch (0 : CoreNo).toNat = none ∧ (tOn tS).coreLaunch (0 : CoreNo).toNat = some tLaunch ∧
    ({ tOn tJobs with jobs := [{ tJob with launch := some 1 }] } : State).coreLaunch 0 = some tLaunch ∧
    (({ tOn tJobs with jobs := [{ tJob with launch := some 1 }] } : State).cancelLaunch 1).quietLaunch 1 = false := by decide +kernel
def tTx (v : Word) : State := tS.setDie 0 { tS.die 0 with txcmd := v }
theorem witness_Translations :
    16384 = (if (2 : BitVec 2) = 0 then 1 else if (2 : BitVec 2) = 1 then 32 else 16384) ∧ (2 : BitVec 2) ≠ 3 ∧
    ((tTx (BitVec.intMin 64)).die (0 : DieNo).toNat).txcmd.getLsbD 63 = true ∧ (tS.die (0 : DieNo).toNat).txcmd.getLsbD 63 = false ∧
    ({ tS with txResume := [(0, 65536)] } : State).txResume = (0, 65536) :: [] ∧ (∀ c ∈ tS.cores, c.2.replay = []) ∧ tS.tasks = [] := by
  decide +kernel
theorem witness_Registers :
    (∀ l ∈ tS.launches, l.levels = []) ∧ (∃ l ∈ (tOn tS).launches, l.levels ≠ []) ∧ (tS.quad (64 * (0 : DieNo).toNat + (0 : BitVec 6).toNat)).lease = none ∧
    (tS.quad 0).res0 = none ∧ (tS.quad 0).res1 = none ∧ 1500 ≤ (1500 : Word).toNat % 2 ^ 16 ∧ (3600 : Word).toNat % 2 ^ 16 ≤ 3600 ∧
    3600 < (3601 : Word).toNat % 2 ^ 16 := by decide +kernel
/-- One record of a trap waits on die 0, whose queue has room for 64, or is full; and one that only logs. -/
def tTrapped : State := match exec (.trap 5) tS with | .next t => t | _ => tS
def tRecord : FaultRec := ((tTrapped.die 0).pending).headD
  { code := 0, grade := .none, status := .logged, source := 0 }
def tFq (tail : Word) (l : List FaultRec) : State :=
  tTrapped.setDie 0 { tTrapped.die 0 with fqBase := 0x2000000, fqCapacity := 64, fqTail := tail, pending := l }
theorem witness_FaultRecords :
    (tTrapped.die (0 : DieNo).toNat).pending = [tRecord] ∧ tRecord.launch = none ∧
    (((tFq 63 [tRecord]).die 0).fqTail - ((tFq 63 [tRecord]).die 0).fqHead).toNat < 2 ^ 6 ∧
    ((tFq 63 [tRecord]).die 0).fqCapacity.toNat = 2 ^ 6 ∧ 2 ^ 6 ≤ (((tFq 64 [tRecord]).die 0).fqTail - ((tFq 64 [tRecord]).die 0).fqHead).toNat ∧
    (∀ p ∈ ((tFq 64 [tRecord]).die 0).pending, p.keeps = true) ∧ ({ tRecord with status := .logged } : FaultRec).keeps = false := by
  decide +kernel
theorem witness_Watchdog :
    (∀ e ∈ (tStarted.ctx (0 : CoreNo).toNat false).queue .cq, e.working = true → tStarted.time.toNat < e.moved.toNat + 2 ^ 30) ∧
    ((tStarted.ctx (0 : CoreNo).toNat false).queue .cq).find?
      (fun f => f.working && decide (f.moved.toNat + 2 ^ 30 ≤ ({ tStarted with time := 0x40000000 } : State).time.toNat)) =
        some { tHead tVadd with phase := .started tLand } ∧
    (tStarted.ctx (0 : CoreNo).toNat false).supervisor = false ∧ (tStarted.ctx (0 : CoreNo).toNat false).mode = .live := by decide +kernel

/-- An affine record at address 0x400, of 16 F32 elements and no generators, and a condensation job over it (R99, R330). -/
def tCondJob (started : Bool) : CondJob :=
  { id := 9, core := 0, context := false, who := none, launch := none, handle := BitVec.ofNat 256 (0x400 * 2 ^ 64 + 2 ^ 116),
    xs := 4, ranges := [], started := started, seq := 0, scored := false, void := false, live := 0, parked := none, moved := 0 }
def tAffine (started : Bool) : State :=
  let s := tPut tS [(0x400, 1, 2), (0x402, 1, 1), (0x403, 1, 0x10), (0x408, 4, 16), (0x420, 8, 4), (0x480, 8, 0x1000), (0x488, 8, 0x2000),
    (0x490, 8, 0x3000), (0x498, 8, 64), (0x4A4, 4, 8)]
  s.setQuad 0 { s.quad 0 with cond := [tCondJob started] }
theorem witness_Condensation :
    ((tAffine false).quad (64 * (0 : DieNo).toNat + (0 : BitVec 6).toNat)).cond = [tCondJob false] ∧ (tCondJob false).started = false ∧
    (tCondJob false).parked = none ∧ (tAffine false).condEdges (64 * (0 : DieNo).toNat + (0 : BitVec 6).toNat) (tCondJob false) = true ∧
    (tAffine false).condScore (tCondJob false) = true ∧ ((tAffine true).quad 0).cond = [tCondJob true] ∧ (tCondJob true).started = true ∧
    (tCondJob true).parked = none := by decide +kernel
def tBeginRun : CondJob × State := okOr ((condVoid 0 (tCondJob false)).run (tAffine false)) (tCondJob false, tS)
def tWorkRun : Nat × State := okOr ((condWork 0 (tCondJob true)).run (tAffine true)) (0, tS)
theorem witness_Condensation_run :
    (condVoid 0 (tCondJob false)).run (tAffine false) = .ok tBeginRun ∧ (condWork 0 (tCondJob true)).run (tAffine true) = .ok tWorkRun ∧
    tWorkRun.2.condOwner (tCondJob true) = .here 0 false :=
  ⟨ok_of (by decide +kernel) _, ok_of (by decide +kernel) _, owner_of (by decide +kernel)⟩
theorem witness_Remote :
    (2 : BitVec 6) ≠ 1 ∧ (1 : BitVec 16) ≠ tS.moduleId ∧ (0 : BitVec 16) = tS.moduleId ∧ (0 : BitVec 10).toNat / 256 = (0 : DieNo).toNat ∧
    ([5, 6] : List Byte).length ≤ 64 - (0x40 : Word).toNat % 64 := by decide +kernel
theorem witness_Remote_write : ∃ t, (writeVa (remoteView (0 : DieNo).toNat) (0x40 : Word).toNat [5, 6]).run tS = .ok ((), t) :=
  ⟨_, ok_of (by decide +kernel) ((), tS)⟩
theorem witness_Collective :
    tS.wantsPart ((0 : BitVec 10).toNat / 256) 0 1 = none ∧
    (tWith { tJob with kind := .coll .sum 0 0 1 0, phase := .remote }).wantsPart ((0 : BitVec 10).toNat / 256) 0 1 =
      some { tJob with kind := .coll .sum 0 0 1 0, phase := .remote } := by decide +kernel
theorem witness_Kat :
    let x : KatCheck := { vector := true, pattern := 3, done := false, result := 0 }
    ((tMe tS fun c => { c with kat := [x] }).ctx (0 : CoreNo).toNat false).kat.find? (fun x => x.vector == true && !x.done) = some x := by
  decide +kernel

def tModule (m : ModState) (d : Option Word) (l : List Launch) : State := { tS with modState := m, deadline := d, launches := l }
theorem witness_Modules :
    (∃ l ∈ (tModule .online none [tLaunch]).launches, l.levels ≠ []) ∧ (∀ l ∈ (tModule .online none []).launches, l.levels = []) ∧ (tModule .draining (some 5) []).deadline = some 5 ∧
    (tModule .drained none []).modState ≠ .online ∧ (tModule .drained none []).modState ≠ .draining ∧
    (0 : Word).toNat ≤ (tModule .draining (some 0) [tLaunch]).time.toNat ∧ (tModule .draining (some 0) [tLaunch]).launches = [tLaunch] ∧
    (∀ t ∈ (tModule .draining (some 0) [tLaunch]).tasks, t.launch ≠ tLaunch.id) ∧ tLaunch.phase = .computing ∧
    ({ tModule .draining (some 0) [tLaunch] with jobs := [{ tJob with launch := some 1 }] } : State).quietLaunch 1 = false := by decide +kernel
theorem witness_ModuleWords (w : Nat → Bool → Nat → Word) (h : w = fun cmd bad v => w64 (cmd * 2 ^ 60 + (if bad then 2 ^ 58 else 0) + v)) :
    ∀ cmd bad v, w cmd bad v = w64 (cmd * 2 ^ 60 + (if bad then 2 ^ 58 else 0) + v) := by subst h; intros; rfl
theorem witness_Time :
    (let i : FwImage := { signatureOk := true, keyHashOk := true, securityVersion := 3 }
     BootObs.passes { othersPass := true, images := [i] } State.reset.rollback = true ∧ BootObs.passes { othersPass := true, images := [] } 0 = false ∧
     BootObs.passes { othersPass := true, images := [i] } 4 = false) ∧ State.reset.booted = false ∧ ({ State.reset with booted := true } : State).modState = .reset ∧
    ({ tModule .online none [] with booted := true } : State).modState ≠ .reset ∧
    ({ TimeStatus.reset with state := 1 } : TimeStatus).state = 1 ∧ State.reset.timeStatus.state ≠ 1 ∧ State.reset.rollback ≤ 3 := by
  decide +kernel
theorem witness_Power_draw :
    State.reset.powerLimit.toNat < 3601 ∧ 100 * 3419 < 95 * State.reset.powerLimit.toNat ∧ 3600 ≤ State.reset.powerLimit.toNat ∧
    95 * State.reset.powerLimit.toNat ≤ 100 * 3420 := by decide +kernel
theorem witness_Power :
    (State.reset.die (0 : DieNo).toNat).l2mode = 0 ∧ (State.reset.die (0 : DieNo).toNat).sagging = false ∧ State.reset.clocksLocked = false ∧
    State.reset.locking = false ∧ ({ State.reset.die 0 with l2mode := 3 } : Die).l2mode = 3 := by decide +kernel
theorem witness_Links :
    ({ State.reset with booted := true } : State).booted = true ∧ (0, 0) = (State.reset.die ((9 : BitVec 5).toNat / 8)).links[(9 : BitVec 5).toNat % 8]?.getD (0, 0) ∧
    (∀ c ∈ State.reset.cores, c.2.stash = []) ∧ nearRange 0x1000000 64 = true ∧ nearRange 0x30000000000 64 = false ∧
    ([0, 0, 0, 0, 0, 0, 0, 0] : List Byte).length = 8 ∧ barRegister (0x100000 : BitVec 22).toNat = some Config.mgmtAt := by decide +kernel
theorem witness_Telemetry :
    (tModule .online none []).modState ≠ .reset ∧ (∀ d < 4, (State.reset.die d).snapshot = 0) ∧ (∀ d < 4, (State.reset.die d).spans = []) ∧
    65536 = 2 ^ max 16 (min 30 (State.reset.readNear Config.migrationBase 4)) ∧
    State.reset.time.toNat < State.reset.epochStart.toNat + 65536 ∧
    ({ State.reset with time := 65536 } : State).epochStart.toNat + 65536 ≤ ({ State.reset with time := 65536 } : State).time.toNat ∧
    (tModule .online none [{ tLaunch with req := { tReq with det := true } }]).launches.any (fun l => l.req.det && l.accepted) = true ∧
    ({ State.reset with moving := [{ span := 3, die := 1, replica := false, frames := [] }] } : State).moving.find?
      (fun x => x.span == (3 : BitVec 36).toNat) = some { span := 3, die := 1, replica := false, frames := [] } ∧
    State.reset.moving.find? (fun x => x.span == (3 : BitVec 36).toNat) = none := by decide +kernel

/-! ## The same: encoding and the step -/

theorem witness_DecodeEncode : (Instr.add 5 6 7).wf = true ∧ tVadd.wf = true := by decide
theorem witness_EncodeDecode :
    decode [0x00718504, 9] = .ok (.add 5 6 7, [9]) ∧ (0x00718504 : IWord).toNat % 4 = 0 ∧ (0x0000804E : IWord).toNat % 4 = 2 ∧
    (0x0000C00F : IWord).toNat % 4 = 3 ∧ (0x00000061 : IWord).toNat % 4 = 1 := ⟨rfl, by decide, by decide, by decide, by decide⟩
/-- ADD x5, x6, x7 stands at the pc of core 0, whose turn it is. -/
def tTurn : State := { tPut tS [(0, 4, 0x00718504)] with agenda := [.run 0] }
def tBegun : State := { tTurn.begin_ with agenda := [], cur := 0 }
theorem witness_Step :
    tTurn.begin_.agenda = .run 0 :: [] ∧ tBegun.mayFetch 0 = true ∧ tBegun.me.pc.toNat % 4 = 0 ∧ decode [0x00718504] = .ok (.add 5 6 7, []) ∧
    Ordinary tBegun (tBegun.me.pc.toNat + 4 * 0) 4 false (tPhys 0) ∧
    ([0x00718504] : List IWord)[0]? = some (BitVec.ofNat 32 (leNat (tBegun.bytesAt (tPhys 0) 4))) :=
  ⟨by decide +kernel, by decide +kernel, by decide +kernel, rfl, ordinary_of false 0xA31000 3 tLeaf _ (by decide +kernel), by decide +kernel⟩

/-! ## The same: what the vector instructions compute -/

/-- A reader whose NF register 0 holds no format (R52). -/
def tNoFormat : Reader := { tReader [] with t := { (tReader []).t with nf := (tReader []).t.nf.set 0 0 } }
theorem witness_VectorInteger : ∃ x y : Nat → Nat,
    IntTy (tHdr .n8).ty 8 true ∧ IntTy (tSat .i64).ty 64 false ∧ (VOp.row 1).notBcast = true ∧
    (∀ j, x j = laneOf (tReader []) true 8 j (.op (.bcast 1))) ∧ ∀ j, y j = laneOf (tReader []) true 8 j (.lit 5) :=
  ⟨_, _, by simp [IntTy, tHdr], by simp [IntTy, tHdr, tSat], rfl, fun _ => rfl, fun _ => rfl⟩
theorem witness_FloatTy :
    FloatTy (tReader []).t.nf (tHdr .f16).ty 16 .f16 ∧ (∃ f, FloatTy (tReader []).t.nf (tHdr (.nf 0)).ty 8 f) ∧
    ∃ f, FloatTy (tReader []).t.nf (tHdr (.nf 3)).ty 4 f :=
  ⟨by simp [FloatTy, tHdr], ⟨_, .inr ⟨0, rfl, rfl, by decide⟩⟩, ⟨_, .inr ⟨3, rfl, rfl, by decide⟩⟩⟩
theorem witness_VectorFloat : (∃ x y : Nat → Nat,
    (∀ j, x j = laneOf (tReader []) false 4 j (.op (.row 1))) ∧ ∀ j, y j = laneOf (tReader []) false 4 j (.lit 0xF)) ∧
    litOk (tReader []).t.nf (tHdr (.nf 3)).ty (.lit 0xF) = true ∧ litOk (tReader []).t.nf (tHdr (.nf 3)).ty (.lit 0x10) = false ∧
    nfFmt ((tReader []).t.nf[3]) ≠ none ∧ (tHdr (.nf 0)).ty = .nf 0 ∧ nfFmt (tNoFormat.t.nf[0]) = none :=
  ⟨⟨_, _, fun _ => rfl, fun _ => rfl⟩, by decide +kernel, by decide +kernel, by decide +kernel, rfl, by decide +kernel⟩

/-- VCVT of F32 into half 1 of a BF16 row, and of I8 into I32; the first part past a ratio of widths. -/
theorem witness_VectorConvert : ∃ (src : Nat → Nat) (act : Nat → Bool),
    256 = 8192 / max 32 16 ∧ (1 : BitVec 4).toNat < max 32 16 / min 32 16 ∧
    (∀ k, src k = laneOf (tReader []) false 32 (if 16 ≤ 32 then k - (1 : BitVec 4).toNat * 256 else (1 : BitVec 4).toNat * 256 + k) (.op (.row 1))) ∧
    (∀ k, act k = if 16 ≤ 32 then decide ((1 : BitVec 4).toNat * 256 ≤ k) && decide (k < ((1 : BitVec 4).toNat + 1) * 256) &&
        activeAt (tReader []).t.guard (max 32 16) (k - (1 : BitVec 4).toNat * 256)
      else activeAt (tReader []).t.guard (max 32 16) k) ∧
    (∃ c : Nat → Coded, ∀ k, c k = FFmt.bf16.encode false (tReader []).t.ftz .rne (FFmt.f32.readFtz (tReader []).t.ftz (src k))
      (FFmt.f32.readFtz (tReader []).t.ftz (src k)).isSignalling) ∧
    (∃ v : Nat → Int, ∀ k, v k = intVal false 32 (src k)) ∧
    (∃ de se, eltOf (tReader []).t.nf .bf16 = .ok de ∧ eltOf (tReader []).t.nf .f32 = .ok se ∧
      max se.bits de.bits / min se.bits de.bits ≤ (2 : BitVec 4).toNat) ∧
    (∃ (on : Nat → Bool) (v : Nat → Int), (∀ k, on k = activeAt (tReader []).t.guard (2 * 32) (k % 128)) ∧
      ∀ k, v k = intVal true (2 * 32) (laneOf (tReader []) false (2 * 32) (k % 128) (.op (if k < 128 then .row 1 else .row 2)))) :=
  ⟨_, _, by decide, by decide, fun _ => rfl, fun _ => rfl, ⟨_, fun _ => rfl⟩, ⟨_, fun _ => rfl⟩, ⟨_, _, rfl, rfl, by decide⟩,
    ⟨_, _, fun _ => rfl, fun _ => rfl⟩⟩
/-- VQNT from F32 into half 1 of an NF row of width 8, with its scales from block 0x100 on; VDQNT from NF register 3, whose
width is 4, into F16 (R292, R293). -/
def tQnt (c : Word) : Reader := { tReader [] with t := (tX tRows [(5, c)]).take (.vqnt (tHdr (.nf 0)) (.row 20) (.row 40) 5) }
theorem witness_VectorConvert_scales : ∃ scale : Row,
    (20 : BitVec 8).toNat ≤ 254 ∧ ((tQnt 0x100000100).t.x 5).toNat < 2 ^ 38 ∧
    (((tQnt 0x100000100).t.x 5).toNat / 2 ^ 36, 32, FFmt.f32) ∈ [(0, 32, FFmt.f32), (1, 16, FFmt.bf16), (2, 16, FFmt.f16)] ∧
    1 = ((tQnt 0x100000100).t.x 5).toNat / 2 ^ 32 % 2 ^ 4 ∧ 1 < 32 / 8 ∧
    (∃ f, FloatTy (tQnt 0x100000100).t.nf (tHdr (.nf 0)).ty 8 f) ∧
    ((tQnt 0x3300000100).t.x 5).toNat < 2 ^ 38 ∧ 3 = ((tQnt 0x3300000100).t.x 5).toNat / 2 ^ 32 % 2 ^ 4 ∧ 3 < 16 / 4 ∧
    (∃ f, FloatTy (tQnt 0x3300000100).t.nf (.nf (BitVec.ofNat 2 (((tQnt 0x3300000100).t.x 5).toNat / 2 ^ 36))) 4 f) ∧
    FFmt.f16.std = true ∧ (tQnt 0x3300000100).op (.row (20 + 1)) = .row scale := by
  refine ⟨_, by decide, by decide +kernel, ?_, by decide +kernel, by decide, ⟨_, .inr ⟨0, rfl, rfl, by decide⟩⟩, by decide +kernel,
    by decide +kernel, by decide, ⟨_, .inr ⟨3, ?_, rfl, by decide⟩⟩, by decide, rfl⟩
  · have h : ((tQnt 0x100000100).t.x 5).toNat / 2 ^ 36 = 0 := by decide +kernel
    rw [h]; exact List.mem_cons_self
  · have h : ((tQnt 0x3300000100).t.x 5).toNat / 2 ^ 36 = 3 := by decide +kernel
    rw [h]; rfl

theorem witness_VectorReduce_int : ∃ (leaf : Nat → Option (Nat × BitVec 5)) (op : Nat × BitVec 5 → Nat × BitVec 5 → Nat × BitVec 5) (x : Nat → Nat),
    IntTy (tSat .i16).ty 16 false ∧ (16 : Nat) ≠ 4 ∧ (∀ j, x j = laneOf (tReader []) false 16 j (.op (.row 1))) ∧
    (∀ j, leaf j = if (j + 1) * 16 ≤ 8192 ∧ activeAt (tReader []).t.guard 16 j = true then some (x j, 0) else none) ∧
    ∀ m n, ∃ v, v = intVal false 16 m.1 + intVal false 16 n.1 ∧ op m n =
      (((if (tSat .i16).sat then clampInt false 16 v else v) % 2 ^ 16).toNat,
        m.2 ||| n.2 ||| (if (tSat .i16).sat = true ∧ clampInt false 16 v ≠ v then 4 else 0)) :=
  ⟨_, fun m n => _, _, by simp [IntTy, tSat, tHdr], by decide, fun _ => rfl, fun _ => rfl, fun m n => ⟨_, rfl, rfl⟩⟩
theorem witness_VectorReduce_float : ∃ (leaf : Nat → Option (Nat × BitVec 5)) (op : Nat × BitVec 5 → Nat × BitVec 5 → Nat × BitVec 5) (x : Nat → Nat)
      (act : Nat → Prop) (c : Nat → FVal × Nat),
    FloatTy (tReader []).t.nf (tHdr .bf16).ty 16 .bf16 ∧ (∀ j, x j = laneOf (tReader []) false 16 j (.op (.row 1))) ∧
    (∀ j, leaf j = if (j + 1) * 16 ≤ 8192 ∧ activeAt (tReader []).t.guard 16 j = true then
        some (if (FFmt.bf16.readCode (tReader []).t.ftz (x j)).1.isNan then (FFmt.bf16.nanCode.getD 0,
            if (FFmt.bf16.readCode (tReader []).t.ftz (x j)).1.isSignalling then 1 else 0)
          else ((FFmt.bf16.readCode (tReader []).t.ftz (x j)).2, 0))
      else none) ∧
    (∀ m n, ∃ v o, v = exactAdd .rne (FFmt.bf16.decode m.1) (FFmt.bf16.decode n.1) ∧
      o = FFmt.bf16.encode false (tReader []).t.ftz .rne v.v v.inv ∧ op m n = (o.code, m.2 ||| n.2 ||| o.flags)) ∧
    (∀ j, act j ↔ (j + 1) * 16 ≤ 8192 ∧ activeAt (tReader []).t.guard 16 j = true) ∧
    ∀ j, c j = FFmt.bf16.readCode (tReader []).t.ftz (laneOf (tReader []) false 16 j (.op (.row 1))) :=
  ⟨_, fun m n => _, _, _, _, by simp [FloatTy, tHdr], fun _ => rfl, fun _ => rfl, fun m n => ⟨_, _, rfl, rfl, rfl⟩,
    fun _ => Iff.rfl, fun _ => rfl⟩
theorem witness_VectorReduce_moves :
    (∃ f, FloatTy (tReader []).t.nf (tHdr (.nf 2)).ty 8 f ∧ 6 = f.width) ∧ 512 = 8192 / 16 ∧
    ((tX tRows [(1, -3)]).take (.vrot (tHdr .i16) (.row 2) (.row 1) (.op (.bcast 1)))).x 1 = -3 :=
  ⟨⟨_, .inr ⟨2, rfl, rfl, by decide⟩, by decide⟩, by decide, by decide +kernel⟩
/-- Special inputs: −∞, a NaN, −0 and −2 in BF16; 3 and 8 for VEXP2 and VLOG2. -/
theorem witness_SpecialFunctions :
    FFmt.bf16.readFtz false 0xFF80 = .inf true ∧ FFmt.bf16.readFtz false 0x7F81 = .nan true ∧
    FFmt.bf16.readFtz false 0x8000 = .fin true 0 (-133) ∧ FFmt.bf16.readFtz false 0xC000 = .fin true 128 (-6) ∧
    FFmt.bf16.readFtz false 0x4040 = .fin false 192 (-6) ∧ (FVal.fin false 192 (-6)).rat = ((3 : Int) : ℚ) ∧
    FFmt.bf16.readFtz false 0x4100 = .fin false 128 (-4) ∧ (FVal.fin false 128 (-4)).rat = 2 ^ (3 : Int) :=
  ⟨by decide +kernel, by decide +kernel, by decide +kernel, by decide +kernel, by decide +kernel, by norm_num [FVal.rat], by decide +kernel,
    by norm_num [FVal.rat]⟩

/-- w1, w2, w3 as an accumulator: lane 0 holds 2^63 − 1, every lane X = 0. -/
def tAcc : Reader := tReader [(1, 0xFFFFFFFF), (2, 0x7FFFFFFF)]
theorem witness_VectorAccumulator : ∃ (v x : Nat → Int) (mine : Nat → List Nat) (term val : Nat → FVal) (q : Nat → ℚ) (marked past : Nat → Prop),
    (∀ j, v j = toSigned 64 (laneOf tAcc false 32 j (.op (.row 1)) + 2 ^ 32 * laneOf tAcc false 32 j (.op (.row (1 + 1))))) ∧
    (∀ j, x j = toSigned 32 (laneOf tAcc false 32 j (.op (.row (1 + 2))))) ∧
    IntTy (tHdr .i32).ty 32 false ∧ (∀ k, val k = .fin (decide (k % 2 ^ 32 ≥ 2 ^ 31)) (intVal false 32 k).natAbs 0) ∧
    (∀ k, term k = val (laneOf tAcc false 32 k (.lit 1))) ∧ litOk tAcc.t.nf (tHdr .i32).ty (.lit 1) = true ∧
    (∀ j, mine j = (List.range (32 / 32)).map (fun k => 32 / 32 * j + k)) ∧
    (∀ j, marked j ↔ x j = -(2 ^ 31) ∨ ∃ k ∈ mine j, (term k).isFin = false) ∧
    (∀ j, q j = ((mine j).map (fun k => (term k).rat)).sum / 2 ^ x j) ∧
    (∀ j, past j ↔ j < 256 ∧ tAcc.t.guard.getLsbD j = true ∧ ¬ marked j ∧ ¬ (-(2 ^ 63) ≤ v j + ⌊q j⌋ ∧ v j + ⌊q j⌋ < 2 ^ 63)) ∧ past 0 := by
  refine ⟨_, _, _, _, _, _, _, _, fun _ => rfl, fun _ => rfl, by simp [IntTy, tHdr], fun _ => rfl, fun _ => rfl, rfl, fun _ => rfl,
    fun _ => Iff.rfl, fun _ => rfl, fun _ => Iff.rfl, ?_⟩
  have hx : toSigned 32 (laneOf tAcc false 32 0 (.op (.row 3#8))) = 0 := by decide +kernel
  have hv : toSigned 64 (laneOf tAcc false 32 0 (.op (.row 1#8)) + 4294967296 * laneOf tAcc false 32 0 (.op (.row 2#8))) = 2 ^ 63 - 1 := by
    decide +kernel
  have hl : laneOf tAcc false 32 0 (.lit 1#32) = 1 := by decide +kernel
  have hi : intVal false 32 1 = 1 := by decide +kernel
  have hr : List.range (32 / 32) = [0] := rfl
  refine ⟨by decide, by decide +kernel, ?_, ?_⟩
  · simp [hx, hr, FVal.isFin]
  · simp [hx, hv, hr, hl, hi, FVal.rat]
/-- The least multiple of 8 that brings a lane below 2^47 in magnitude. -/
theorem witness_VectorAccumulator_norm (v : Nat → Int) (h : ∀ j, |v j| < 2 ^ 63) :
    ∃ s : Nat → Nat, ∀ j, 8 ∣ s j ∧ |v j / 2 ^ s j| < 2 ^ 47 ∧ ∀ m, 8 ∣ m → |v j / 2 ^ m| < 2 ^ 47 → s j ≤ m := by
  have key : ∀ j, ∃ n, |v j / 2 ^ (8 * n)| < 2 ^ 47 := fun j => ⟨8, by
    have := h j
    rw [abs_lt] at this
    have : v j / 2 ^ (8 * 8) = 0 ∨ v j / 2 ^ (8 * 8) = -1 := by omega
    rcases this with h | h <;> rw [h] <;> decide⟩
  refine ⟨fun j => 8 * Nat.find (key j), fun j => ⟨Nat.dvd_mul_right .., Nat.find_spec (key j), ?_⟩⟩
  rintro m ⟨n, rfl⟩ hm
  exact Nat.mul_le_mul_left _ (Nat.find_min' (key j) hm)

/-! ## The same: rows, tiles and enclosures at the head of a queue -/

/-- A handle: base, record, space and bound. -/
def tHandle (base record space bound : Nat) : HandleWord :=
  BitVec.ofNat 256 (base + 2 ^ 64 * record + 2 ^ 112 * space + 2 ^ 192 * bound)
/-- Core 0 with a PAD room of four banks that holds bytes 1 to 8 at 0x100, and memory that holds them there; h3 names them
in the PAD and h4 in memory, x5 is 2, and p2 has its lowest bit alone set. -/
def tData : State :=
  let s := tRows.setHere { tRows.here with rooms := { tRows.here.rooms with pad := 4, matrix := 2 } }
  (((((s.setP 2 1).setX 5 2).setH 3 (tHandle 0x100 0 1 0x200)).setH 4 (tHandle 0x100 0 0 0x200)).writePad 0 0x100
    [1, 2, 3, 4, 5, 6, 7, 8]).writeNear 0x1000100 8 0x0807060504030201
/-- An instruction at the head of a queue of core 0, and its entry. -/
def tFirst (s : State) (i : Instr) : Entry := { tEntry s i with popped := true }
def tEng (s : State) (q : QName) (i : Instr) : State := tMe s fun x => { x.setQueue q [tFirst s i] with seq := 1 }
theorem head_of {s : State} {c : Nat} {k : Bool} {q : QName} {e : Entry}
    (h : (s.startable c k q == some e) = true ∧ s.arrayGate c e.instr = .ready ∧ s.arrayRoom c e.instr = true ∧ e.popped = true ∧
      e.progress = {} ∧ s.poison = [] ∧ (s.core c).drain = none ∧
      ((s.ctx c k).setEntry q { e with moved := s.time }).settle = (s.ctx c k).setEntry q { e with moved := s.time }) :
    Head s c k q e :=
  ⟨eq_of_beq h.1, h.2.1, h.2.2.1, h.2.2.2.1, h.2.2.2.2.1, h.2.2.2.2.2.1, h.2.2.2.2.2.2.1, h.2.2.2.2.2.2.2⟩
def tRowOf (h : HReg) : VMem := { ty := .n8, guard := 2, tok := tOff, h := h, off := .imm 1 }
abbrev tGather : Instr := .vgather (tRowOf 3) (.row 1) (.row 2) false
abbrev tScatter : Instr := .vscatter (tRowOf 3) (.row 1) (.row 2) false
/-- A gather from the PAD in LQ, and a scatter to it in SQ: lanes 0 to 3 of 8 bits are active, at index 1 + element. -/
theorem witness_VectorMemory :
    Head (tEng tData .lq tGather) (0 : AnyCore).toNat false .lq (tFirst tData tGather) ∧
    Head (tEng tData .sq tScatter) (0 : AnyCore).toNat false .sq (tFirst tData tScatter) ∧
    handleOk (tData.h 3) = true ∧ hRec (tData.h 3) = 0 ∧ hSpace (tData.h 3) = 1 ∧ hSpace (tData.h 4) = 0 ∧ IntTy (tRowOf 3).ty 8 true ∧
    1 = (hCursor (tData.h 3) + (BitVec.signExtend 64 (1 : BitVec 6))).toInt ∧
    ((tFirst tData tGather).taken.dest (.row 1)).isSome = true ∧ (tData.core 0).stash = [] ∧
    (∀ j < 4, hBase (tData.h 3) ≤ 0x101 + j ∧ 0x101 + j + 1 ≤ hBase (tData.h 3) + hBound (tData.h 3) ∧
      0x101 + j + 1 ≤ 65536 * (tData.core 0).rooms.pad) := by
  refine ⟨head_of (by decide +kernel), head_of (by decide +kernel), by decide +kernel, by decide +kernel, by decide +kernel,
    by decide +kernel, by simp [IntTy, tRowOf], by decide +kernel, by decide +kernel, by decide +kernel, by decide +kernel⟩
theorem witness_VectorMemory_place (r : Reader) (act : Nat → Bool) : ∃ (idx : Nat → Int) (place : Nat → Nat),
    VmemForm r (.vld (tRowOf 3) (.row 1)) (tRowOf 3) (.row 1) false act 1 idx ∧
    ∀ j, (place j : Int) = 2 * (0x100 : Nat) + idx j * (8 / 4 : Nat) :=
  ⟨fun j => 1 + j, fun j => 2 * 0x100 + (1 + j) * 2, .inl ⟨rfl, fun _ => rfl⟩, fun j => by push_cast; ring⟩
abbrev tNear : Instr := .vld (tRowOf 4) (.row 1)
theorem witness_VectorMemory_near :
    Head (tEng tData .lq tNear) (0 : AnyCore).toNat false .lq (tFirst tData tNear) ∧ (0 : AnyCore).toNat = (tEng tData .lq tNear).cur ∧
    (tEng tData .lq tNear).me.holdList = [] ∧
    ∀ j ∈ [0, 1, 2, 3], Ordinary (tEng tData .lq tNear) (2 * (0x101 + j) / 2) 1 false (tPhys (0x101 + j)) := by
  refine ⟨head_of (by decide +kernel), by decide +kernel, by decide +kernel, fun j hj => ?_⟩
  fin_cases hj <;> exact ordinary_of false 0xA31000 3 tLeaf _ (by decide +kernel)
/-- A row of PAD stores that wait, the last of them of a nibble. -/
def tStores : List ElemStore := [.pad 0x100 [9], .pad 0x101 [8], .padNib 0x102 true 7]
def tScattering : State := tMe tData fun x => { x with sq := [{ tFirst tData tScatter with phase := .stores tStores }], seq := 1 }
theorem witness_VectorMemory_completes :
    (tScattering.ctx (0 : AnyCore).toNat false).sq[0]? = some { tFirst tData tScatter with phase := .stores tStores } ∧
    (∀ x ∈ tStores, x.globalOf = none) ∧ tScattering.poison = [] ∧ (tScattering.core (0 : AnyCore).toNat).replay = [] ∧
    (tScattering.ctx (0 : AnyCore).toNat false).holdList = [] ∧
    (tScattering.ctx (0 : AnyCore).toNat false).sqOrdered { tFirst tData tScatter with phase := .stores tStores } tStores = true := by
  decide +kernel
theorem witness_Prefetch :
    Head (tEng tData .lq (.vpref (tRowOf 4))) (0 : AnyCore).toNat false .lq (tFirst tData (.vpref (tRowOf 4))) :=
  head_of (by decide +kernel)

def tRec2 : List Byte :=
  [1, 0, 2, 1, 0, 0, 0, 0] ++ leBytes 4 4 ++ leBytes 4 2 ++ leBytes 16 0 ++ leBytes 8 1 ++ leBytes 8 4 ++ leBytes 144 0
/-- Core 0 holds the lease of quad 0; t1 and t2 are tiles of 2 by 2 INT8 elements, t3 is to be one; h5 names a tensor of
2 by 4 INT8 elements in the PAD, by a record in the record cache, and x6 is 1. -/
def tArr : State :=
  let s := (tData.setX 6 1).setH 5 (tHandle 0x100 0x400 1 0x10)
  let side : TileSide := { TileSide.reset with valid := true }
  let c := s.here
  let s := s.setHere { c with
    tcfg := ((c.tcfg.set 1 0x20201).set 2 0x20201).set 3 0x20201, sides := (c.sides.set 1 side).set 2 side,
    tiles := (c.tiles.write (1 * 4096 * 2) [1, 2, 3, 255]).write (2 * 4096 * 2) [5, 6, 7, 8], records := [(0x400, tRec2)] }
  let q := s.quad 0
  s.setQuad 0 { q with
    lease := some { core := 0, commands := 3, cycles := 0 },
    plane0 := { q.plane0 with cells := [(1, { v := 7, l := 0, sp := .none })], seed := none } }
abbrev tTmma : Instr := .tmma tOff false 1 2 true
abbrev tTldt : Instr := .tldt tOff 0 false .rne 3 5 6
abbrev tTstt : Instr := .tstt tOff 1 5 6
theorem witness_ArrayCommands :
    (∀ i ∈ [Instr.tlease tOff 1, .trel tOff true, .tzero tOff false 0xFFF0, tTmma],
      Head (tEng tArr .cq i) (0 : AnyCore).toNat false .cq (tFirst tArr i)) ∧
    ((tEng tArr .cq tTmma).quad (quadOf (0 : AnyCore).toNat)).arbNext = none := by
  refine ⟨fun i hi => ?_, by decide +kernel⟩
  fin_cases hi <;> exact head_of (by decide +kernel)
theorem tPlane : ((tEng tArr .cq tTmma).quad 0).plane0 =
    { (tArr.quad 0).plane0 with cells := [(1, { v := 7, l := 0, sp := .none })], seed := none } := by decide +kernel
theorem tPlane_small (x : Nat) : (((((tEng tArr .cq tTmma).quad 0).plane0.load 0)[x]?.getD PCell.zero).v.toInt.natAbs ≤ 2 ^ 53) := by
  rw [tPlane]
  simp only [Plane.load, List.foldl_cons, List.foldl_nil, Array.getElem?_setIfInBounds, Array.getElem?_replicate]
  split <;> split <;> simp [PCell.zero]
theorem witness_ArrayCommands_tmma : ∃ (core : Core) (a b : Nat → Nat → Int) (q : Quad) (old : Nat → PCell),
    core = (tEng tArr .cq tTmma).core (0 : AnyCore).toNat ∧ 2 * 2 ≤ 4096 * core.rooms.matrix ∧
    ((tFirst tArr tTmma).taken.tcfg[(1 : TReg).toNat]'(by decide)).toNat = 1 + 256 * 2 + 65536 * 2 ∧
    ((tFirst tArr tTmma).taken.tcfg[(2 : TReg).toNat]'(by decide)).toNat = 1 + 256 * 2 + 65536 * 2 ∧
    (∀ x ∈ [(1 : TReg), 2], (core.tileSide x).valid = true ∧ (core.tileSide x).scales = Vector.replicate 128 0x7F ∧ core.tilePending x = none) ∧
    (∀ i z, a i z = intVal false 8 (core.tiles.get ((1 : TReg).toNat * 4096 * core.rooms.matrix + i * 2 + z)).toNat) ∧
    (∀ j z, b j z = intVal false 8 (core.tiles.get ((2 : TReg).toNat * 4096 * core.rooms.matrix + j * 2 + z)).toNat) ∧
    q = (tEng tArr .cq tTmma).quad (quadOf (0 : AnyCore).toNat) ∧ (q.plane false).seed = none ∧ (q.plane false).e = 0 ∧
    ((q.plane false).fixed = true → (q.plane false).int = true) ∧
    (∀ x, old x = ((q.plane false).load (quadOf (0 : AnyCore).toNat))[x]?.getD PCell.zero) ∧ ∀ x, (old x).v.toInt.natAbs ≤ 2 ^ 53 :=
  ⟨_, _, _, _, _, rfl, by decide +kernel, by decide +kernel, by decide +kernel, by decide +kernel, fun _ _ => rfl, fun _ _ => rfl, rfl,
    by decide +kernel, by decide +kernel, by decide +kernel, fun _ => rfl, tPlane_small⟩
theorem witness_ArrayCommands_step :
    let w : Working := { cells := #[PCell.zero, { v := 5, l := 0xFFFF, sp := .posInf }], e := 2, norms := 0 }
    let ps : List (Nat × FVal) := [(0, .fin false 7 0), (1, .inf true)]
    (ps.map (fun p => p.1)).Nodup ∧ (∀ c ∈ w.cells.toList, c.v.toInt.natAbs < 2 ^ 54) ∧ w.cells[1]? = some { v := 5, l := 0xFFFF, sp := .posInf } ∧
      (1, FVal.inf true) ∈ ps ∧ (0, FVal.fin false 7 0) ∈ ps ∧ (FVal.fin false 7 0).isFin = true := by decide +kernel
theorem witness_ArrayCommands_drain :
    let c : PCell := { v := 5, l := 3, sp := .none }
    c.sp = .none ∧ (Elt.int 8 false).fp = none ∧ (drainUp c 2).isFin = true ∧
    (∃ e : Elt, e.fp = some .bf16 ∧ (FFmt.bf16.decode 0x3F80).isFin = true ∧ (drainCapture e 0x3F80 c 0).isFin = true) ∧
    ({ c with sp := .nan } : PCell).sp ≠ .none :=
  ⟨rfl, rfl, by decide +kernel, ⟨Elt.float 16 .bf16, rfl, by decide +kernel, by decide +kernel⟩, by decide⟩
theorem witness_Tiles : ∃ r core,
    Head (tEng tArr .lq tTldt) (0 : AnyCore).toNat false .lq (tFirst tArr tTldt) ∧
    Head (tEng tArr .sq tTstt) (0 : AnyCore).toNat false .sq (tFirst tArr tTstt) ∧
    Cached (tEng tArr .sq tTstt) (0 : AnyCore).toNat (tFirst tArr tTstt).taken.nf (tArr.h 5) r ∧ core = tArr.core (0 : AnyCore).toNat ∧
    hSpace (tArr.h 5) = 1 ∧ r.kind = 1 ∧ r.geometry = 0 ∧ r.mapVa = 0 ∧ r.chunkVa = 0 ∧ r.dtype = 1 ∧
    ((tFirst tArr tTldt).taken.tcfg[(3 : TReg).toNat]'(by decide)).toNat = 1 + 256 * 2 + 65536 * 2 ∧
    (1 : Int) = (hCursor (tArr.h 5) + (tFirst tArr tTldt).taken.x 6).toInt ∧ 1 % r.ext 0 + 2 ≤ r.ext 0 ∧ 1 + (2 - 1) * r.ext 0 + 2 ≤ r.count ∧
    (∀ i < 2 * 2, ∀ p, p = ({ h := tArr.h 5, record := some r, elt := Elt.int 8 false } : Tensor).coordPlace r (1 + i / 2 * r.ext 0 + i % 2) →
      hBase (tArr.h 5) ≤ p / 2 ∧ p / 2 + 1 ≤ hBase (tArr.h 5) + hBound (tArr.h 5) ∧ p / 2 % 1 = 0 ∧ p / 2 + 1 ≤ 65536 * core.rooms.pad) ∧
    core.stash = [] ∧ (core.tileSide 1).valid = true ∧ core.tilePending 1 = none := by
  refine ⟨parseRec 0x400 tRec2, _, head_of (by decide +kernel), head_of (by decide +kernel),
    ⟨by decide +kernel, by decide +kernel, ⟨tRec2, by decide +kernel, by decide +kernel⟩, by decide +kernel, by decide +kernel⟩, rfl, by decide +kernel, by decide +kernel,
    by decide +kernel, by decide +kernel, by decide +kernel, by decide +kernel, by decide +kernel, by decide +kernel, by decide +kernel,
    by decide +kernel, ?_, by decide +kernel, by decide +kernel, by decide +kernel⟩
  rintro i hi p rfl
  have h : ∀ i < 4, (fun p => hBase (tArr.h 5) ≤ p / 2 ∧ p / 2 + 1 ≤ hBase (tArr.h 5) + hBound (tArr.h 5) ∧ p / 2 % 1 = 0 ∧
      p / 2 + 1 ≤ 65536 * (tArr.core (0 : AnyCore).toNat).rooms.pad)
    (({ h := tArr.h 5, record := some (parseRec 0x400 tRec2), elt := Elt.int 8 false } : Tensor).coordPlace (parseRec 0x400 tRec2)
      (1 + i / 2 * (parseRec 0x400 tRec2).ext 0 + i % 2)) := by decide +kernel
  exact h i hi

/-- An affine tensor of one F32 element, 1 ± (0.5 + remainder). -/
def tAff : Aff := { t := { h := 0, record := none, elt := Elt.float 32 .f32 }, r := parseRec 0 [], n := 1, fmt := .f32, list := [(false, 7)] }
def tVals (rem : FVal) (replaced : Bool) : AffVals :=
  { centre := [0x3F800000], gens := [{ d := false, id := 7, g := [0x3F000000] }], rem := [rem], void := false, replaced := replaced, met := {} }
theorem witness_Bounds :
    (tVals zeroV false).centre.length = tAff.n ∧ (tVals zeroV false).rem.length = tAff.n ∧ tAff.r.status % 2 ≠ 1 ∧
    (∀ x ∈ zeroV :: (tVals zeroV false).gens.map (fun g => tAff.fmt.decode (g.g[0]?.getD 0)), x.isFin = true ∧ x.isNan = false) ∧
    (tAff.fmt.decode ((tVals zeroV false).centre[0]?.getD 0)).isFin = true ∧ zeroV.sign = false ∧ (FVal.inf false).isInf = true ∧
    (FVal.nan false).isNan = true ∧ (tVals zeroV true).replaced = true := by decide +kernel
/-- RELU from −1 to 2 with a slope of 0; the same from an infinity, whose line there is none of. -/
def tRules : Nat → List Byte := fun _ => List.replicate 128 0
def tRelax (u : FVal) : RelaxElem := relaxElem .f32 tRules 0 (.fin true 1 0) u (.fin false 1 (-1)) [.fin false 3 (-1)] zeroV
def tLine (u : FVal) : Option Line :=
  relaxLine 0 (fieldAt (tRules 2) 2 1) (FFmt.f32.decode (fieldAt (tRules 2) 8 4)) (FFmt.f32.decode (fieldAt (tRules 0) 4 4)) (.fin true 1 0) u
theorem witness_Relax :
    (FFmt.f32.decode (fieldAt (tRules 0) 4 4)).isFin = true ∧ (FVal.fin true 1 0).isNan = false ∧
    (tLine (.fin false 2 0)).any (fun y => y.a.isFin && y.b.isFin) = true ∧ (tRelax (.fin false 2 0)).rem.isFin = true ∧
    tLine (.inf false) = none ∧ (FVal.nan true).isNan = true := by decide +kernel
/-- β = 0 lies between −1 and 2. -/
theorem witness_Relax_case :
    (FVal.fin true 1 0).less (.fin false 0 0) ∧ (FVal.fin false 0 0).less (.fin false 2 0) ∧ ¬ (FVal.fin false 0 0).less (.fin true 1 0) := by
  refine ⟨.inr (.inr ⟨rfl, rfl, ?_⟩), .inr (.inr ⟨rfl, rfl, ?_⟩), ?_⟩
  · norm_num [FVal.rat]
  · norm_num [FVal.rat]
  · rintro (⟨h, -⟩ | ⟨h, -⟩ | ⟨-, -, h⟩)
    · simp at h
    · simp at h
    · norm_num [FVal.rat] at h
theorem witness_Align :
    (alignEntry .f32 .sub (7, false, none, some [0x3F800000])).1.g[0]? = some 0xBF800000 ∧ (FFmt.f32.decode 0x3F800000).isFin = true ∧
    FFmt.f32.kind ≠ .log ∧ (0x3F800000 : Nat) < 2 ^ FFmt.f32.width ∧ [0x3F800000].length = [0x3F000000].length ∧
    (alignEntry .f32 .add (7, false, some [0x3F800000], some [0x3F000000])).1.g[0]? = some 0x3FC00000 ∧
    (alignEntry .f32 .add (7, false, some [0x3F800000], some [0x3F000000])).2.all FVal.isFin = true := by decide +kernel
def tGens : List Gen := [{ d := false, id := 3, g := [0x3F800000] }, { d := false, id := 5, g := [0x3F000000] }]
theorem witness_Condense :
    (tGens.map (fun g => g.id)).Nodup ∧ tGens.length ≤ 2 ∧ (condenseTo .f32 [] tGens [zeroV] 1).folded = [{ d := false, id := 5, g := [0x3F000000] }] ∧
    ([zeroV] : List FVal)[0]? = some zeroV ∧ zeroV.isFin = true ∧ (condenseTo .f32 [] tGens [zeroV] 1).rem.all FVal.isFin = true ∧
    (FFmt.f32.decode 0x3F000000).isFin = true := by decide +kernel
/-- A launch with symbol table 0, one range live in slot 0, and the next id 9; and one whose ids have run out. -/
def tSymbols (next used : Nat) : State :=
  { ((((tOn tS).writeNear (symDir 0 + 4) 4 next).writeNear (symDir 0 + 8) 4 used).writeNear (symTable 0 + 8) 1 1).writeNear (symTable 0 + 12) 4 2 with
    launches := [{ tLaunch with symbols := some 0 }] }
theorem witness_Mint :
    (tSymbols 9 1).task? 2 = some { tTask with phase := .placed 0 false } ∧ (tSymbols 9 1).launch? 1 = some { tLaunch with symbols := some 0 } ∧
    9 = (tSymbols 9 1).readNear (symDir 0 + 4) 4 ∧ 1 = (tSymbols 9 1).readNear (symDir 0 + 8) 4 ∧ 9 + 4 < 2 ^ 31 ∧
    (tSymbols 9 1).slotState 0 1 ≠ 1 ∧ (∀ k < 1, (tSymbols 9 1).slotState 0 k = 1) ∧
    (tSymbols 0x7FFFFFFF 1).readNear (symDir 0 + 4) 4 = 0x7FFFFFFF ∧ 2 ^ 31 ≤ 0x7FFFFFFF + 1 ∧
    (tSymbols 9 65536).readNear (symDir 0 + 8) 4 = 65536 := by decide +kernel
theorem witness_Holders :
    2 = (tSymbols 9 1).readNear (symTable 0 + 64 * 0 + 12) 4 ∧ 1 = (tSymbols 9 1).readNear (symDir 0 + 8) 4 ∧
    ((tSymbols 9 1).holderDown 0 0 false).readNear (symTable 0 + 64 * 0 + 12) 4 = 1 := by decide +kernel
/-- Two elements, of which the second passes its limit. -/
theorem witness_Achk :
    let bs := [(0x3F800000, 0x3F800000), (0x40000000, 0x7F800000)]
    [zeroV, zeroV].length = bs.length ∧ bs.length < 2 ^ 32 ∧
    achkResult false bs [zeroV, zeroV] [.fin false 4 0, .fin false 4 0] = leBytes 4 4 ++ leBytes 4 1 ++ leBytes 8 1 ++
      (achkResult false bs [zeroV, zeroV] [.fin false 4 0, .fin false 4 0]).drop 16 := by decide +kernel
/-- ATBL of two entries: from a misaligned address, of zeros, and of an entry that breaks the layout. -/
abbrev tAtbl : Instr := .atbl tOff 7 2 1
def tTbl (a : Nat) : State := (tS.setX 7 (w64 a)).writeNear 0x1000280 1 9
def tTblEntry (a : Nat) : Entry := { tFirst (tTbl a) tAtbl with moved := tS.time }
def tTblAt (a : Nat) : State := (tEng (tTbl a) .cq tAtbl).setEntry 0 false .cq (tTblEntry a)
def tTblRead (a : Nat) : X (List (List Byte)) :=
  (List.range 2).mapM (fun i => readLong ((tTblAt a).entryView 0 false .cq (tTblEntry a)) (a + 128 * i) 128)
def tTblRun (a : Nat) : List (List Byte) × State := okOr ((tTblRead a).run (tTblAt a)) ([], tS)
theorem witness_Atbl :
    (∀ a ∈ [64, 0x200], Head (tEng (tTbl a) .cq tAtbl) (0 : AnyCore).toNat false .cq (tFirst (tTbl a) tAtbl)) ∧
    ((tEng (tTbl 64) .cq tAtbl).ctx (0 : AnyCore).toNat false).supervisor = false ∧
    ((tEng (tTbl 64) .cq tAtbl).ctx (0 : AnyCore).toNat false).exited = false ∧ dieOf (0 : AnyCore).toNat < 4 := by
  refine ⟨fun a ha => ?_, by decide +kernel, by decide +kernel, by decide +kernel⟩
  fin_cases ha <;> exact head_of (by decide +kernel)
theorem witness_Atbl_entries :
    (tEng (tTbl 0x200) .cq tAtbl).time = tS.time ∧ (tTblRead 0x200).run (tTblAt 0x200) = .ok (tTblRun 0x200) ∧
    Touches (tTblAt 0x200) (tTblRun 0x200).2 ∧ (tTblRun 0x200).1[0]? = some (List.replicate 128 0) ∧
    (tTblRun 0x200).1[1]? = some (9 :: List.replicate 127 0) ∧ ruleValid ((2 : BitVec 6).toNat + 1) (9 :: List.replicate 127 0) = false ∧
    (tTblRun 0x400).1 = [List.replicate 128 0, List.replicate 128 0] :=
  ⟨by decide +kernel, ok_of (by decide +kernel) _, touches_of (by decide +kernel), by decide +kernel, by decide +kernel, by decide +kernel,
    by decide +kernel⟩
theorem witness_EncodeRounds :
    (0 : Nat) < 3 ∧ (FVal.fin true 0 0).isFin = true ∧ (FVal.inf false).isNan = false ∧ FFmt.f32.kind ≠ .fin ∧
    (∃ f, FloatTy (tReader []).t.nf (.nf 3) 4 f ∧ f.kind = .fin) :=
  ⟨by decide, rfl, rfl, by decide, ⟨_, .inr ⟨3, rfl, rfl, by decide⟩, rfl⟩⟩

/-! ## The same: jobs, the end of a task, waits, the Lodge, revisions and steps, further clauses -/

/-- The table of one state, whose every entry emits A; a started job on a PAD that holds it at 0x400 and bytes 1 to 8 at
0x100, with link 0 up. -/
def tTable : List Byte := leBytes 4 1 ++ leBytes 60 0 ++ (List.range 16).flatMap (fun _ => leBytes 4 0x01410000)
def tWorker (kind : JobKind) : Job :=
  { tJob with phase := .started, kind := kind, table := match kind with | .xduc .. => tTable | _ => [] }
def tWork (kind : JobKind) : State :=
  let s := tJobs.setHere { tJobs.here with rooms := { tJobs.here.rooms with pad := 4 } }
  { ((s.writePad 0 0x100 [1, 2, 3, 4, 5, 6, 7, 8]).writePad 0 0x400 tTable).writeNear (Config.gazetteerBase + 0x10) 4 1 with
    jobs := [tWorker kind] }
def tSrc : HandleWord := tHandle 0x100 0 1 0x40
def tDst : HandleWord := tHandle 0x200 0 1 0x40
def tTab : HandleWord := tHandle 0x400 0 1 0x80
/-- A waybill to core 5 of this module, of so many hops through port 0. -/
def tWayOf (n : Nat) : BitVec 128 := BitVec.ofNat 128 (2 ^ 122 * engMemory + 2 ^ 112 * 5 + n)
theorem pad_of {s : State} {h : HandleWord} {c lo n : Nat}
    (hd : handleOk h = true ∧ hRec h = 0 ∧ hSpace h = 1 ∧ (hBase h ≤ lo ∧ lo + n ≤ hBase h + hBound h) ∧
      lo + n ≤ 65536 * (s.core c).rooms.pad ∧ (s.core c).stash = []) : InPad s h c lo n :=
  ⟨hd.1, hd.2.1, hd.2.2.1, hd.2.2.2.1, hd.2.2.2.2.1, hd.2.2.2.2.2⟩
theorem witness_JobSteps_pad :
    let k := JobKind.cpy tDst tSrc 8
    (tWork k).job? tJob.id = some (tWorker k) ∧ (tWorker k).phase = .started ∧ (tWorker k).padCore = 0 ∧ (tWorker k).pos = 0 ∧
    (tWorker k).got = (0, 0) ∧ (tWorker k).replaced = false ∧ (tWorker k).late = none ∧ (tWork k).poison = [] ∧
    0x100 = hBase tSrc + (hCursor tSrc).toNat ∧ 0x200 = hBase tDst + (hCursor tDst).toNat ∧ 0x100 + 8 ≤ 0x200 ∧
    InPad (tWork k) tSrc 0 0x100 8 ∧ InPad (tWork k) tDst 0 0x200 8 := by
  refine ⟨by decide +kernel, rfl, by decide +kernel, by decide +kernel, by decide +kernel, by decide +kernel, by decide +kernel,
    by decide +kernel, by decide +kernel, by decide +kernel, by decide, pad_of (by decide +kernel), pad_of (by decide +kernel)⟩
/-- Three bytes are six nibbles, which emit six bytes. -/
theorem witness_JobSteps_xduc :
    let k := JobKind.xduc tDst tSrc 3 0 2
    (tWork k).job? tJob.id = some (tWorker k) ∧ (0 : Word).toNat % 2 ^ 14 < tableStates (tWorker k).table ∧ InPad (tWork k) tSrc 0 (hBase tSrc) 3 ∧
    transduce (tWorker k).table ((List.range (2 * 3)).map (fun i => ((tWork k).padByte 0 (hBase tSrc + i / 2)).toNat / 16 ^ (i % 2) % 16)) 0 =
      (List.replicate 6 65, 0, 0) ∧ InPad (tWork k) tDst 0 (hBase tDst) 6 ∧ hBase tSrc + 3 ≤ hBase tDst := by
  refine ⟨by decide +kernel, by decide +kernel, pad_of (by decide +kernel), by decide +kernel, pad_of (by decide +kernel), by decide +kernel⟩
theorem witness_JobSteps_xtbl :
    let k := JobKind.xtbl 2 tTab
    (tWork k).job? tJob.id = some (tWorker k) ∧ (tWorker k).table = [] ∧ hBase tTab % 64 = 0 ∧ InPad (tWork k) tTab 0 (hBase tTab) (64 + 64 * 1) ∧
    (List.range (64 + 64 * 1)).map (fun i => (tWork k).padByte 0 (hBase tTab + i)) = tTable ∧ leNat (tTable.take 4) = 1 ∧
    (∀ b ∈ (tTable.drop 4).take 60, b = 0) ∧
    ∀ i < 16 * 1, (fun w => w < 2 ^ 26 ∧ w / 2 ^ 14 % 4 = 0 ∧ (w / 2 ^ 24 % 4 = 1 ∨ w / 2 ^ 16 % 256 = 0) ∧ w % 2 ^ 14 < 1)
      (leNat ((tTable.drop (64 + 4 * i)).take 4)) := by
  refine ⟨by decide +kernel, by decide +kernel, by decide +kernel, pad_of (by decide +kernel), by decide +kernel, by decide +kernel,
    by decide +kernel, by decide +kernel⟩
/-- SEND and RECV of 64 bytes, to this module and through port 0. -/
def tSends (n : Nat) : JobKind := .send tSrc 0x40 (tWayOf n)
def tRecvs (n : Nat) : JobKind := .recv tDst 0x40 (tWayOf n)
def tServed (o : Served) : Option (RemoteReport × State) := match o with | .report r t => some (r, t) | _ => none
theorem served_of {o : Served} (h : (tServed o).isSome = true) (d : RemoteReport × State) :
    o = .report ((tServed o).getD d).1 ((tServed o).getD d).2 := by
  cases o with
  | report r t => rfl
  | wait => simp [tServed] at h
  | stop f => simp [tServed] at h
theorem witness_JobSteps_remote :
    (∀ n ∈ [0, 1], (tWork (tSends n)).job? tJob.id = some (tWorker (tSends n)) ∧ (tWork (tSends n)).waybillOk (tWayOf n) engMemory = true ∧
      (tWork (tRecvs n)).job? tJob.id = some (tWorker (tRecvs n)) ∧ (tWork (tRecvs n)).waybillOk (tWayOf n) engMemory = true) ∧
    hBase tSrc % 64 = 0 ∧ hBound tSrc % 64 = 0 ∧ (0x40 : Word).toNat % 64 = 0 ∧ hBound tSrc ≤ 2 ^ 24 ∧ hBase tDst % 64 = 0 ∧
    wbHops (tWayOf 0) = 0 ∧ wbHops (tWayOf 1) ≠ 0 ∧ (tWork (tSends 1)).downLink (tWayOf 1) = none ∧ (tWorker (tSends 0)).table = [] := by
  decide +kernel
theorem witness_JobSteps_here :
    (∃ t, (tWork (tSends 0)).serve 0 (.write 0x40 ((List.range 64).map (fun i => (tWork (tSends 0)).padByte 0 (0x100 + i)))) = .report .visible t) ∧
    ∃ t, (tWork (tRecvs 0)).serve 0 (.read 0x40 64 tJob.id) = .report (.data (List.replicate 64 0)) t ∧ t.poison = [] ∧
      InPad t tDst 0 (hBase tDst) (hBound tDst) := by
  have a : (((tServed ((tWork (tSends 0)).serve 0 (.write 0x40 ((List.range 64).map (fun i => (tWork (tSends 0)).padByte 0 (0x100 + i)))))).getD
      (.visible, tS)).1 = .visible) := by decide +kernel
  have b : (((tServed ((tWork (tRecvs 0)).serve 0 (.read 0x40 64 tJob.id))).getD (.visible, tS)).1 = .data (List.replicate 64 0)) := by
    decide +kernel
  refine ⟨⟨_, (served_of (by decide +kernel) (.visible, tS)).trans (by rw [a])⟩,
    ⟨_, (served_of (by decide +kernel) (.visible, tS)).trans (by rw [b]), by decide +kernel, pad_of (by decide +kernel)⟩⟩
theorem witness_JobSteps_coll :
    ([(0, [1]), (2, [3])] : List (Nat × List Word)).Perm [(2, [3]), (0, [1])] ∧
    (([(0, [1]), (2, [3])] : List (Nat × List Word)).map (fun p => p.1)).Nodup ∧
    ((0, [1]) :: [(2, [3])] : List (Nat × List Word)).Pairwise (fun a b => a.1 < b.1) :=
  ⟨List.Perm.swap .., by decide, by decide⟩

/-- The end of a task in an open phase, with a store parked and without. -/
def tStuck : State := tPhase.setHere { tPhase.here with replay := [{ context := false, seq := 0, stores := [.mem 16 [1]] }] }
theorem witness_Exit_phase :
    tPhase.me.supervisor = false ∧ tPhase.me.phase = true ∧ tPhase.here.noneParked tPhase.myK = true ∧
    tStuck.me.supervisor = false ∧ tStuck.me.phase = true ∧ tStuck.here.noneParked tStuck.myK = false := by decide +kernel

/-- A WAIT for the word at address 0 to equal x0's, whose sense is true; for that at 16 to, whose sense is not; and one at
an address that is not aligned. -/
def tWaitAt : WaitArgs := tWait true false false false 1 0 0
theorem witness_Waits_memory : ∃ m sense : Prop,
    tWaitAt.enM = true ∧ 0 = (tS.x tWaitAt.xm).toNat ∧ 4 = (if tWaitAt.wide then 8 else 4) ∧
    0 = leNat (tS.me.overlay 0 (tS.bytesAt (tPhys 0) 4)) ∧ 0 = (tS.x tWaitAt.xv).toNat % 2 ^ (8 * 4) ∧
    (m ↔ ∃ q, (tWaitAt.cmp, q) ∈ [(WCmp.eq, 0 = 0), (.ne, 0 ≠ 0), (.lt, toSigned (8 * 4) 0 < toSigned (8 * 4) 0),
      (.ge, toSigned (8 * 4) 0 ≤ toSigned (8 * 4) 0), (.ltu, 0 < 0), (.geu, 0 ≤ 0)] ∧ q) ∧ m ∧
    (∃ b : Nat, (m → b = 1) ∧ (¬ m → b = 0) ∧ 1 = b + (if tWaitAt.enE = true ∧ tS.me.evq ≠ [] then 2 else 0) +
      (if tWaitAt.enK = true ∧ tWaitAt.thr.toNat ≤ (tS.me.tokens[tWaitAt.ctr.toNat]'tWaitAt.ctr.isLt).toNat then 4 else 0) +
      (if tWaitAt.enT = true ∧ (tS.x tWaitAt.xt).toNat ≤ tS.time.toNat then 8 else 0)) ∧
    (sense ↔ if tWaitAt.all then 1 = 1 + (if tWaitAt.enE then 2 else 0) + (if tWaitAt.enK then 4 else 0) + (if tWaitAt.enT then 8 else 0)
      else 1 ≠ 0) ∧ sense ∧
    0 % 4 = 0 ∧ Ordinary tS 0 4 false (tPhys 0) ∧ Ready tS 0 4 false ∧ (((tX tS [(1, 2)]).x tWaitAt.xm).toNat % 4 ≠ 0) := by
  have hm : ∃ q, (tWaitAt.cmp, q) ∈ [(WCmp.eq, 0 = 0), (.ne, 0 ≠ 0), (.lt, toSigned (8 * 4) 0 < toSigned (8 * 4) 0),
      (.ge, toSigned (8 * 4) 0 ≤ toSigned (8 * 4) 0), (.ltu, 0 < 0), (.geu, 0 ≤ 0)] ∧ q := ⟨_, List.mem_cons_self, rfl⟩
  refine ⟨_, _, by decide +kernel, by decide +kernel, by decide +kernel, by decide +kernel, by decide +kernel, Iff.rfl, hm,
    ⟨1, fun _ => rfl, fun h => absurd hm h, by decide +kernel⟩, Iff.rfl, by decide, by decide,
    ordinary_of false 0xA31000 3 tLeaf _ (by decide +kernel), by constructor <;> decide +kernel, by decide +kernel⟩
/-- The stored word at 16 is not 0: the WAIT's deadline is TIME + 1, or, held before, TIME itself. -/
def tOther : State := tX (tPut tS [(16, 4, 0x44332211)]) [(1, 16)]
def tLate : State := tHeld tOther (.wait tWaitAt) (.wait 0)
theorem witness_Waits_memory_not :
    16 = (tOther.x tWaitAt.xm).toNat ∧ 0x44332211 = leNat (tOther.me.overlay 16 (tOther.bytesAt (tPhys 16) 4)) ∧
    Ordinary tOther 16 4 false (tPhys 16) ∧ Ready tOther 16 4 false ∧
    tOther.time.toNat < (waitDeadline tWaitAt tOther).toNat ∧ Ordinary tLate 16 4 false (tPhys 16) ∧
    (waitDeadline tWaitAt tLate).toNat ≤ tLate.time.toNat :=
  ⟨by decide +kernel, by decide +kernel, ordinary_of false 0xA31000 3 tLeaf _ (by decide +kernel), by constructor <;> decide +kernel,
    by decide +kernel, ordinary_of false 0xA31000 3 tLeaf _ (by decide +kernel), by decide +kernel⟩
/-- A WAITT whose end lies past its timeout of 5, and one that waits. -/
theorem witness_Waitt :
    tS.me.hold = none ∧ tS.time.toNat + 5 < ((tX tS [(1, 9)]).x 1).toNat ∧
    (tHeld (tX tS [(1, 9)]) (.waitt 1 5) (.wait 9)).me.hold = some (.waitt 1 5, .wait 9) ∧
    (tHeld (tX tS [(1, 9)]) (.waitt 1 5) (.wait 9)).time.toNat < ((tHeld (tX tS [(1, 9)]) (.waitt 1 5) (.wait 9)).x 1).toNat := by decide +kernel

/-- Requests from a map of REG 8, CACHE 12, SPILL 1 and PAD 27: the room of each code of R203, from the last to the first. -/
def tMapped (a : Word) : State :=
  tX (tRows.setHere { tRows.here with
    rooms := { reg := 8, cache := 12, matrix := 0, spill := 1, pad := 27 }, c0 := { tRows.here.c0 with spovf := 0x100000, splim := 0x8000 } }) [(1, a), (62, 0x108000)]
def tNew (s : State) (req : Nat) : Rooms :=
  { reg := req % 2 ^ 8, cache := req / 2 ^ 8 % 2 ^ 8, matrix := req / 2 ^ 16 % 2 ^ 8, spill := req / 2 ^ 24 % 2 ^ 8,
    pad := s.here.goodCount - (req % 2 ^ 8 + req / 2 ^ 8 % 2 ^ 8 + req / 2 ^ 16 % 2 ^ 8 + req / 2 ^ 24 % 2 ^ 8) }
/-- The clauses of R203, by code. -/
def tRefused (s : State) (reg mat pad : Disp) (k : Nat) : Bool :=
  let req := (s.x 1).toNat
  let old := s.here.rooms
  let new := tNew s req
  match k with
  | 8 => decide (s.here.drain ≠ none)
  | 6 => decide (2 ^ 32 ≤ req ∨ (new.reg ≠ 0 ∧ new.reg ≠ 8 ∧ new.reg ≠ 16) ∨ 32 < new.cache ∨ new.matrix % 2 ≠ 0 ∨ 16 < new.matrix ∨
      s.me.splim.toNat < 32768 * new.spill)
  | 2 => decide (new.cache < 12 ∨ new.spill = 0 ∨
      (s.ctxLaunch s.cur s.myK).any (fun l => decide (new.spill < l.req.rooms.toNat / 2 ^ 24 % 2 ^ 8)) = true)
  | 7 => decide (s.here.goodCount < new.reg + new.cache + new.matrix + new.spill)
  | 1 => decide (new.matrix ≠ old.matrix ∧ (s.holdsArray s.cur = true ∨ s.mtxPending s.cur = true))
  | 4 => decide (new.pad < old.pad ∧ ((∃ m ∈ s.here.stash, 65536 * new.pad ≤ 4096 * m.seg) ∨
      s.jobNamesPad s.cur (65536 * new.pad) (65536 * old.pad) = true))
  | 5 => decide (∃ j, ((s.here.ctx j).mode ≠ .free ∧ ((32768 * min old.spill new.spill : Nat) : Int) <
      ((s.here.ctx j).spovf.toNat : Int) + (s.here.ctx j).splim.toNat - ((s.here.ctx j).rx 62).toNat))
  | 3 => decide ((new.reg ≠ old.reg ∧ (reg = .none ∨ ((s.here.ctx (!s.myK)).mode ≠ .free ∧ (s.here.ctx (!s.myK)).issued = true))) ∨
      (new.matrix ≠ old.matrix ∧ mat = .none) ∨ (new.pad < old.pad ∧ pad = .none))
  | _ => false
/-- A code that holds before any that comes before it, in the order 8, 6, 2, 7, 1, 4, 5, 3. -/
theorem witness_LodgeMap_refused :
    tRefused (tDrained false) .none .none .none 8 = true ∧
    (tRefused (tMapped 0x01000C07) .none .none .none 6 = true ∧ tRefused (tMapped 0x01000C07) .none .none .none 8 = false) ∧
    (tRefused (tMapped 0x01000B08) .none .none .none 2 = true ∧ ∀ j ∈ [8, 6], tRefused (tMapped 0x01000B08) .none .none .none j = false) ∧
    (tRefused (tMapped 0x01002010) .none .none .none 7 = true ∧ ∀ j ∈ [8, 6, 2], tRefused (tMapped 0x01002010) .none .none .none j = false) ∧
    (tRefused (tMapped 0x01000D08) .none .none .none 3 = true ∧
      ∀ j ∈ [8, 6, 2, 7, 1, 4, 5], tRefused (tMapped 0x01000D08) .none .none .none j = false) ∧
    ∀ k ∈ [8, 6, 2, 7, 1, 4, 5, 3], tRefused (tMapped 0x01000D08) .none .none .save k = false := by decide +kernel
/-- The last of those saves one bank of PAD at address 0, whose page is ordinary. -/
theorem witness_LodgeMap_saves :
    let s := tMapped 0x01000D08
    tNew s (s.x 1).toNat ≠ s.here.rooms ∧ 65536 = 65536 * (s.here.rooms.pad - (tNew s (s.x 1).toNat).pad) ∧ (s.x 2).toNat % 4096 = 0 ∧
    (s.x 2).toNat + 65536 ≤ 2 ^ 57 ∧ (s.jobs.filter (fun j => j.die.toNat == dieOf s.cur && j.kind.engine == .copy)).length < 256 ∧
    ((s.x 2).toNat + 65536 - 1) / 65536 - (s.x 2).toNat / 65536 + 1 = 1 ∧ ((tX s [(2, 8)]).x 2).toNat % 4096 ≠ 0 ∧
    2 ^ 57 < ((tX s [(2, 0x200000000000000)]).x 2).toNat + 65536 := by decide +kernel
theorem witness_LodgeMap_page : Ordinary (tMapped 0x01000D08) (max 0 ((0 / 65536 + 0) * 65536)) 1 true (tPhys 0) :=
  ordinary_of true 0xA31000 3 tLeaf _ (by decide +kernel)

/-- The child of ordinal 1 has ended by EXIT, with nothing written. -/
def tGone : State := tX (tKids [tChild 1 (.ended true)]) [(1, 1)]
def tMergeRun : List (Nat × Conflicts) × State :=
  okOr ((mergeAll tGone (viewTarget (tGone.joinView tGone.cur tGone.myK)) (tGone.taskRegions (some 2)) [] []).run tGone) ([], tS)
theorem witness_Join_merges :
    (mergeAll tGone (viewTarget (tGone.joinView tGone.cur tGone.myK)) (tGone.taskRegions (some 2)) [] []).run tGone = .ok tMergeRun ∧
    tMergeRun.1.length = 0 ∧ tMergeRun.2.cur = tGone.cur ∧ tMergeRun.2.me = tGone.me ∧ (tMergeRun.2.choose 2).1 = 0 ∧ tGone.me.merge = none ∧
    tGone.me.stopping = false ∧ tGone.forkReady = true ∧ tGone.ctxTask tGone.cur tGone.myK = some { tTask with phase := .placed 0 false } ∧
    tGone.children 2 = [tChild 1 (.ended true)] ∧ tGone.task? 11 = some (tChild 1 (.ended true)) ∧
    (tChild 1 (.ended true)).ordinal = (tGone.x 1).toNat % 256 :=
  ⟨ok_of (by decide +kernel) _, by decide +kernel, by decide +kernel, by decide +kernel, by decide +kernel, by decide +kernel, by decide +kernel,
    by decide +kernel, by decide +kernel, by decide +kernel, by decide +kernel, by decide +kernel⟩
/-- 64 bytes of the task's region, in a page that the task has, and has not, made its own. -/
def tMark (own : Bool) : State :=
  let p : Task := { tTask with phase := .placed 0 false, rev := if own then [{ page := 0, leaf := w64 (0x101 * 65536 + 0x103) }] else [] }
  { tX tRev [(2, 64)] with tasks := [p] }
def tMarkWrite : X Unit := writeLong { (tMark true).myView with ctx := none, core := none } 0 ((tMark true).imageLong [] 0 64)
def tMarkRun : Unit × State := okOr (tMarkWrite.run (tMark true)) ((), tS)
theorem witness_Mark_bytes :
    (∀ own, 0 = ((tMark own).x 1).toNat ∧ 64 = ((tMark own).x 2).toNat ∧ (tMark own).inOneRegion 0 64 = true ∧ (tMark own).me.task = some 2 ∧
      (tMark own).rangeQuiet (globalRange 0 64) = true ∧ (tMark own).me.holdList = [] ∧ (tMark own).here.stash = []) ∧
    (0 : Nat) / 65536 = (0 + 64 - 1) / 65536 ∧ (tMark false).samePage [] [] 0 = true ∧
    (tMark true).samePage [] [{ page := 0, leaf := w64 (0x101 * 65536 + 0x103) }] 0 = false ∧
    tMarkWrite.run (tMark true) = .ok tMarkRun ∧
    (tMe (tMark false) fun x => { x with sq := [{ tEntry tS tVst with phase := .stores [.mem 0 [1]] }], seq := 1 }).rangeQuiet (globalRange 0 64) = false :=
  ⟨by decide +kernel, by decide, by decide +kernel, by decide +kernel, ok_of (by decide +kernel) _, by decide +kernel⟩

theorem witness_SuperstepJoins_jobs : ∀ t ∈ tEnded.tasks, tEnded.hasJobs t.id = false := by decide +kernel
theorem witness_StepKeepsMemory : MemOk tTurn ∧ (match step tTurn with | .next _ => true | _ => false) = true :=
  ⟨⟨by decide +kernel, by decide +kernel⟩, by decide +kernel⟩
end

section
/-! PROOF. What the dispatcher does to a waiting task and to the core that it pre-empts, how a context is freed, and what the
power limit does to the one deterministic task of a die. -/

namespace Sys2Proof.Machine

/-! ## What the books of tasks, launches and dies leave -/

/-- The cores and both memories are as they were: only the books about them may differ. -/
structure SameStores (s t : State) : Prop where
  cores : t.cores = s.cores
  mem : t.mem = s.mem
  hostMem : t.hostMem = s.hostMem

theorem SameStores.refl (s : State) : SameStores s s := ⟨rfl, rfl, rfl⟩

theorem SameStores.trans {s t u : State} (h : SameStores s t) (g : SameStores t u) : SameStores s u :=
  ⟨g.cores.trans h.cores, g.mem.trans h.mem, g.hostMem.trans h.hostMem⟩

theorem SameStores.core {s t : State} (h : SameStores s t) (c : Nat) : t.core c = s.core c := by
  rw [State.core, h.cores, State.core]

theorem SameStores.ctx {s t : State} (h : SameStores s t) (c : Nat) (k : Bool) : t.ctx c k = s.ctx c k := by
  rw [State.ctx, h.core, State.ctx]

theorem SameStores.sameBytes {s t : State} (h : SameStores s t) : SameBytes s t :=
  ⟨fun a => by rw [State.nearByte, h.mem, State.nearByte], fun a => by rw [State.farByte, h.hostMem, State.farByte]⟩

theorem sameBytes_setCore (s : State) (c : Nat) (v : Core) : SameBytes s (s.setCore c v) := ⟨fun _ => rfl, fun _ => rfl⟩

theorem SameBytes.trans {s t u : State} (h : SameBytes s t) (g : SameBytes t u) : SameBytes s u :=
  ⟨fun a => (g.1 a).trans (h.1 a), fun a => (g.2 a).trans (h.2 a)⟩

theorem sameStores_setTask (s : State) (t : Task) : SameStores s (s.setTask t) := ⟨rfl, rfl, rfl⟩
theorem sameStores_setLaunch (s : State) (l : Launch) : SameStores s (s.setLaunch l) := ⟨rfl, rfl, rfl⟩
theorem sameStores_setDie (s : State) (d : Nat) (v : Die) : SameStores s (s.setDie d v) := ⟨rfl, rfl, rfl⟩
theorem sameStores_setQuad (s : State) (q : Nat) (v : Quad) : SameStores s (s.setQuad q v) := ⟨rfl, rfl, rfl⟩

theorem sameStores_raise (s : State) (d : Nat) (r : FaultRec) : SameStores s (s.raise d r) := sameStores_setDie s d _

theorem sameStores_settleEnergy (s : State) (c : Nat) (t : Task) : SameStores s (s.settleEnergy c t) := by
  unfold State.settleEnergy
  split
  · split
    · exact sameStores_setTask s _
    · exact (sameStores_setDie s _ _).trans (sameStores_setTask _ _)
  · exact .refl s

theorem sameStores_freeSlice (s : State) (id : Nat) : SameStores s (s.freeSlice id) := by
  unfold State.freeSlice
  split
  · exact .refl s
  · split
    · exact (sameStores_setLaunch s _).trans (sameStores_setTask _ _)
    · exact .refl s

/-- That a task is complete is noted in the books alone (R41, R358). -/
theorem sameStores_taskDone (s : State) (c : Nat) (k : Bool) : SameStores s (s.taskDone c k) := by
  unfold State.taskDone
  split
  · exact .refl s
  · dsimp only
    refine .trans ?_ (sameStores_freeSlice _ _)
    split
    case' h_1 => refine .trans ?_ (sameStores_settleEnergy _ _ _)
    all_goals
      split
      · split
        · exact sameStores_setTask s _
        · exact (sameStores_setTask s _).trans (sameStores_setLaunch _ _)
      · exact sameStores_setTask s _

/-! ## Freeing a context (R20, R41) -/

/-- A core whose context `k` is freed: the other one runs if it holds a task. -/
def Core.freed (c : Core) (k : Bool) : Core :=
  let core := c.setCtx k (if k then Context.reset1 else Context.reset)
  (if core.active == k then
    { core with active := if (core.ctx (!k)).mode == .free then k else !k, running := (core.ctx (!k)).mode != .free }
  else core).shed

@[simp] theorem Core.shed_ctx (c : Core) (k : Bool) : c.shed.ctx k = c.ctx k := by
  unfold Core.shed; split <;> rfl
@[simp] theorem Core.shed_running (c : Core) : c.shed.running = c.running := by
  unfold Core.shed; split <;> rfl

theorem Core.freed_ctx (c : Core) (k j : Bool) :
    (c.freed k).ctx j = (c.setCtx k (if k then Context.reset1 else Context.reset)).ctx j := by
  unfold Core.freed
  rw [Core.shed_ctx]
  by_cases runs : ((c.setCtx k (if k then Context.reset1 else Context.reset)).active == k) = true
  · rw [if_pos runs]; rfl
  · rw [if_neg runs]

theorem Core.freed_running (c : Core) {k : Bool} (h : c.active = k) :
    (c.freed k).running = ((c.ctx (!k)).mode != .free) := by
  simp [Core.freed, h]

/-- Freeing a context changes its core, and else the books of its die and its quad alone. -/
theorem sameStores_freeContext (s : State) (c : Nat) (k : Bool) :
    SameStores (s.setCore c ((s.core c).freed k)) (s.freeContext c k) := by
  unfold State.freeContext
  dsimp only
  split
  · exact iteInduction (motive := SameStores _) (fun _ => (sameStores_setDie _ _ _).trans (sameStores_setQuad _ _ _))
      (fun _ => sameStores_setDie _ _ _)
  · exact sameStores_setDie _ _ _

theorem Context.reset_numbered (k : Bool) :
    (if k then Context.reset1 else Context.reset) = { Context.reset with status := if k then 0x8000 else 0 } := by
  cases k <;> rfl

/-- With no stash mapping on the core there is none to remove. -/
theorem State.dropStash_nil {s : State} {c : Nat} (h : (s.core c).stash = []) (k : Bool) : s.dropStash c k = s := by
  rw [State.dropStash, h]; rfl

/-- Where no child is left the implicit joins are done, and nothing has changed. -/
theorem State.implicitJoins_nil {s : State} {c : Nat} {k : Bool} (h : s.unjoined c k = []) :
    s.implicitJoins c k = .ok (true, s) := by
  unfold State.implicitJoins
  split
  · rfl
  · rw [h]; rfl

/-- CONTEXT_FREE of a context with no child left, on a core with no stash mapping. -/
theorem exec_contextFree_childless {s : State} {c : CoreNo} {k : Bool} (free : s.freeable c.toNat k = true)
    (childless : s.unjoined c.toNat k = []) (unstashed : (s.core c.toNat).stash = []) :
    exec (.contextFree c k) s = .next ((s.taskDone c.toNat k).freeContext c.toNat k) := by
  change execContextFree c k s = _
  simp only [execContextFree, free, State.dropStash_nil unstashed, State.implicitJoins_nil childless, Bool.not_true,
    Bool.false_eq_true, if_false]

/-- R20, R37, R41: the freed context is as after reset, and the core's other context runs if it holds a task. -/
theorem contextFree_frees {s : State} {c : CoreNo} {k : Bool} (free : s.freeable c.toNat k = true)
    (childless : s.unjoined c.toNat k = []) (unstashed : (s.core c.toNat).stash = []) :
    ∃ t, exec (.contextFree c k) s = .next t ∧
      t.ctx c.toNat k = { Context.reset with status := if k then 0x8000 else 0 } ∧
      t.ctx c.toNat (!k) = s.ctx c.toNat (!k) ∧
      ((s.core c.toNat).active = k → (t.core c.toNat).running = ((s.ctx c.toNat (!k)).mode != .free)) ∧
      (∀ n, n ≠ c.toNat → t.core n = s.core n) ∧ SameBytes s t := by
  have done := sameStores_taskDone s c.toNat k
  have freed := sameStores_freeContext (s.taskDone c.toNat k) c.toNat k
  rw [done.core] at freed
  have here : ((s.taskDone c.toNat k).freeContext c.toNat k).core c.toNat = (s.core c.toNat).freed k := by
    rw [freed.core, State.core_setCore_self]
  refine ⟨_, exec_contextFree_childless free childless unstashed, ?_, ?_, fun active => ?_, fun n other => ?_, ?_⟩
  · rw [State.ctx, here, Core.freed_ctx, Core.ctx_setCtx_self, Context.reset_numbered]
  · rw [State.ctx, here, Core.freed_ctx, Core.ctx_setCtx_not, State.ctx]
  · rw [here, Core.freed_running _ active, State.ctx]
  · rw [freed.core, State.core_setCore_ne _ other, done.core]
  · exact done.sameBytes.trans ((sameBytes_setCore _ _ _).trans freed.sameBytes)

/-! ## Aging and pre-emption (R357, R359, R361, R363) -/

/-- R357: a waiting task whose time has come ages by a class. -/
theorem taskClassAge_ages {s : State} {n : Nat} {t : Task} {l : Launch} (task : s.task? n = some t)
    (launch : s.launch? t.launch = some l) (waits : t.waits = true) (below : l.req.cls + t.age < 7)
    (due : t.since.toNat + 65536 * (t.age + 1) ≤ s.time.toNat) :
    exec (.taskClassAge n) s = .next (s.setTask { t with age := t.age + 1 }) := by
  change execTaskClassAge n s = _
  simp only [execTaskClassAge, task, launch, State.when, waits, below, due, decide_true, Bool.and_self, if_true]

/-- R359: what lets the dispatcher pre-empt a core for a task that has found no free context for 2^14 ticks. -/
theorem State.mayPreempt_of {s : State} {l : Launch} {t : Task} {c : Nat} {w : Word} (waits : t.waits = true)
    (crowded : t.crowded = some w) (due : w.toNat + 16384 ≤ s.time.toNat) (full : s.contextFree l t = false)
    (best : s.bestVictim l t = some c) (buffer : (s.ringTake (dieOf c) 3).isSome = true) : s.mayPreempt l t c = true := by
  simp [State.mayPreempt, waits, crowded, due, full, best, buffer]

/-- R361: the contexts of the core stop, and it is saved if it may be. -/
theorem exec_dispatcherPreempt_stops {s : State} {n : Nat} {c : CoreNo} {t : Task} {l : Launch} (task : s.task? n = some t)
    (launch : s.launch? t.launch = some l) (idle : s.preempting c.toNat = false) (may : s.mayPreempt l t c.toNat = true) :
    exec (.dispatcherPreempt n c) s = .next ((s.setCore c.toNat (s.core c.toNat).stopBoth).takeCore c.toNat) := by
  change execDispatcherPreempt n c s = _
  simp only [execDispatcherPreempt, idle, task, launch, may, Option.bind_some, Option.map_some, State.when, Bool.false_eq_true,
    if_false, if_true]

theorem State.takeCore_busy {s : State} {c : Nat} (h : s.savable c = false) : s.takeCore c = s := by
  simp only [State.takeCore, h, Bool.and_false, Bool.false_eq_true, if_false]

/-- R363: a core that has stopped is saved whole where nothing that it has started is incomplete. -/
theorem State.takeCore_saves {s u : State} {c f : Nat} (savable : s.savable c = true) (stopped : s.preempting c = true)
    (buffer : s.ringTake (dieOf c) 3 = some (f, u)) : s.takeCore c = u.preemptCore c f := by
  simp only [State.takeCore, savable, stopped, buffer, Bool.and_self, if_true]

/-! ## DET_POWER (R358, R406) -/

/-- An exception that no error counter, TLB miss or bank goes with halts a live task and raises its record (R145, R405). -/
theorem State.takeTrap_live {s : State} {c : Nat} {k : Bool} {t : Trap} (noEcc : t.ecc = none) (noMiss : t.miss = none)
    (noBank : t.code ≠ 0x1B) (user : (s.ctx c k).supervisor = false) (live : (s.ctx c k).mode = .live)
    (status : RecStatus) (engine : Bool) (src : BitVec 8) (epc : Word) :
    s.takeTrap c k status engine src epc t =
      (s.setCtx c k { s.ctx c k with
        tcause := causeWord t.code engine, tval := t.detail, epc := epc, hold := none, mode := .halted }).raise (dieOf c)
          (s.ctxRec c k status engine src epc t) := by
  have plain : ((s.eccOf t).missOf t).bankLeaves c t = s := by
    simp only [State.eccOf, State.missOf, State.bankLeaves, noEcc, noMiss, noBank, if_false]
  have awake : (CtxMode.live == CtxMode.halted) = false := rfl
  simp only [State.takeTrap, State.takeTrapOn, plain, user, live, awake, Bool.false_eq_true, if_false]

theorem exec_detPower_within {d : DieNo} {uj : Nat} (h : uj ≤ 900) (s : State) : exec (.detPower d uj) s = .next s :=
  if_pos h

theorem exec_detPower_idle {s : State} {d : DieNo} {uj : Nat} (drawn : 900 < uj) (idle : s.detContexts d.toNat = []) :
    exec (.detPower d uj) s = .next s := by
  change execDetPower d uj s = _
  rw [execDetPower, if_neg (Nat.not_le.2 drawn), idle, List.foldl_nil]

theorem causeWord_detPower : causeWord 0x0E false = 0x0E := by decide

/-- R358, R406: the one deterministic task that a die runs halts with DET_POWER. -/
theorem detPower_halts {s : State} {d : DieNo} {uj n : Nat} {j : Bool} (drawn : 900 < uj) (one : s.detContexts d.toNat = [(n, j)])
    (user : (s.ctx n j).supervisor = false) (live : (s.ctx n j).mode = .live) :
    ∃ t, exec (.detPower d uj) s = .next t ∧ t.ctx n j = { s.ctx n j with
        tcause := 0x0E, tval := w64 uj, epc := (s.ctx n j).pc, hold := none, mode := .halted } ∧
      t.ctx n (!j) = s.ctx n (!j) ∧ (∀ m, m ≠ n → t.core m = s.core m) ∧ SameBytes s t := by
  have ran : exec (.detPower d uj) s =
      .next (s.takeTrap n j .halted false srcDispatcher (s.ctx n j).pc (detPowerTrap uj)) := by
    change execDetPower d uj s = _
    rw [execDetPower, if_neg (Nat.not_le.2 drawn), one, List.foldl_cons, List.foldl_nil]
  have cause : causeWord (detPowerTrap uj).code false = 0x0E := causeWord_detPower
  rw [State.takeTrap_live (t := detPowerTrap uj) rfl rfl (show (0x0E : BitVec 8) ≠ 0x1B by decide) user live, cause] at ran
  refine ⟨_, ran, ?_, ?_, fun m other => ?_, ?_⟩
  · rw [(sameStores_raise _ _ _).ctx, State.setCtx, State.ctx, State.core_setCore_self, Core.ctx_setCtx_self]; rfl
  · rw [(sameStores_raise _ _ _).ctx, State.setCtx, State.ctx, State.core_setCore_self, Core.ctx_setCtx_not, State.ctx]
  · rw [(sameStores_raise _ _ _).core, State.setCtx, State.core_setCore_ne _ other]
  · exact (sameBytes_setCore _ _ _).trans (sameStores_raise _ _ _).sameBytes

/-! ## The statement -/

/-- Settles O45: aging and pre-emption by the equations of their events, the freed context through what its freeing leaves of
the core, and DET_POWER through the exception that a live task takes. -/
theorem dispatcherAndEnd : Obligations.DispatcherAndEnd := by
  refine ⟨fun s n c t l task launch waits => ⟨taskClassAge_ages task launch waits, ?preempt⟩, fun s c k d uj =>
    ⟨contextFree_frees, (exec_detPower_within · s), exec_detPower_idle, fun n j => detPower_halts⟩⟩
  case preempt =>
    intro w m crowded due full best buffer idle stopped
    have ran := exec_dispatcherPreempt_stops task launch idle (State.mayPreempt_of waits crowded due full best buffer)
    rw [← stopped] at ran
    refine ⟨fun busy => ?_, fun f u savable asked frame => ?_⟩
    · rw [ran, State.takeCore_busy busy]
    · rw [ran, State.takeCore_saves savable asked frame]

end Sys2Proof.Machine
end

section
/-! PROOF. What the start and the join of a superstep do: which tasks become ready, and which are no more. A join takes tasks
away by their number, so that it leaves another launch's task alone only where that has no number of its own tasks. -/

namespace Sys2Proof.Machine

/-! ## The launch of a number -/

theorem State.launch?_id {s : State} {n : Nat} {l : Launch} (h : s.launch? n = some l) : l.id = n := by
  simpa using List.find?_some h

/-- A launch that is there reads back as it was set. -/
theorem State.launch?_setLaunch {s : State} {n : Nat} {l m : Launch} (h : s.launch? n = some l) (own : m.id = n) :
    (s.setLaunch m).launch? n = some m := by
  have asked : ((fun u : Launch => u.id == n) ∘ fun u => if u.id == m.id then m else u) = fun u => u.id == n := by
    funext u
    by_cases here : u.id = n <;> simp [here, own]
  rw [State.launch?, State.setLaunch, List.find?_map, asked, show s.launches.find? (fun u => u.id == n) = some l from h,
    Option.map_some, own, State.launch?_id h, beq_self_eq_true, if_pos rfl]

/-! ## The start (R16, R18, R23, R25) -/

theorem State.fitting_of_cores {s t : State} (h : t.cores = s.cores) : t.fitting = s.fitting := by
  unfold State.fitting State.core; rw [h]
theorem State.eligible_of_cores {s t : State} (h : t.cores = s.cores) : t.eligible = s.eligible := by
  unfold State.eligible State.core; rw [State.fitting_of_cores h, h]

/-- A grid point's task takes its number from the state, and else depends on the cores and the time alone. -/
theorem State.gridTask_of {s t : State} (cores : t.cores = s.cores) (time : t.time = s.time) (l : Launch) (i : Nat) :
    t.gridTask l i = { s.gridTask l i with id := t.nextId } := by
  unfold State.gridTask State.detPlace; rw [State.fitting_of_cores cores, time]; rfl

/-- A task that some core fits becomes ready, and is not refused. -/
theorem State.makeReady_fits {s : State} {l : Launch} {t : Task} (fits : s.fitting l.req.rooms t.die ≠ []) :
    s.makeReady l t = { s with tasks := s.tasks ++ [{ t with eligible := s.eligible l.req.rooms t.die }] } := by
  have some : (s.fitting l.req.rooms t.die).isEmpty = false := List.isEmpty_eq_false_iff.2 fits
  simp only [State.makeReady, some, Bool.false_eq_true, if_false]

/-- The `i`-th task of a grid, with its number, as the start makes it ready. -/
def State.readyTask (s : State) (l : Launch) (number i : Nat) : Task :=
  { s.gridTask l i with id := number, eligible := s.eligible l.req.rooms (s.gridTask l i).die }

theorem State.makeReady_gridTask {s u : State} {l : Launch} (cores : u.cores = s.cores) (time : u.time = s.time)
    (fits : ∀ d, s.fitting l.req.rooms d ≠ []) (i : Nat) :
    ({ u with nextId := u.nextId + 1 } : State).makeReady l (u.gridTask l i) =
      { u with nextId := u.nextId + 1, tasks := u.tasks ++ [s.readyTask l u.nextId i] } := by
  have next : ({ u with nextId := u.nextId + 1 } : State).cores = s.cores := cores
  rw [State.makeReady_fits (by rw [State.fitting_of_cores next]; exact fits _), State.eligible_of_cores next,
    State.gridTask_of cores time]
  rfl

/-- Where every die has a core that fits, the tasks become ready in ascending index. -/
theorem State.startTasks_ready {s : State} {l : Launch} (fits : ∀ d, s.fitting l.req.rooms d ≠ []) :
    s.startTasks l = { s with
      nextId := s.nextId + gridSize l.levels,
      tasks := s.tasks ++ (List.range (gridSize l.levels)).map (fun i => s.readyTask l (s.nextId + i) i) } := by
  unfold State.startTasks
  induction gridSize l.levels with
  | zero => simp
  | succ n ready =>
    rw [List.range_succ, List.foldl_append, ready, List.map_append, ← List.append_assoc, List.foldl_cons, List.foldl_nil]
    refine (State.makeReady_gridTask (s := s) ?_ ?_ fits n).trans ?_
    all_goals rfl

/-- R16, R18, R23, R25: the first clause of O43. -/
theorem superstepStart_readies {s : State} {n : Nat} {l : Launch} (launch : s.launch? n = some l) (waits : l.phase = .waiting)
    (due : l.ts.toNat ≤ s.time.toNat) (fits : ∀ d, s.fitting l.req.rooms d ≠ []) :
    ∃ t new, exec (.superstepStart n) s = .next t ∧ t = { s with tasks := t.tasks, launches := t.launches, nextId := t.nextId } ∧
      t.launch? n = some { l with phase := .computing } ∧ t.tasks = s.tasks ++ new ∧ new.length = gridSize l.levels ∧
      t.nextId = s.nextId + gridSize l.levels ∧
      ∀ i u, new[i]? = some u → u.word = w64 i ∧ u.id = s.nextId + i ∧ u.launch = n ∧ u.step = l.step ∧ u.entry = l.req.code ∧
        u.args = l.args ∧ u.phase = .ready ∧ u.parent = none ∧ u.depth = 0 := by
  have ran : exec (.superstepStart n) s = .next ((s.setLaunch { l with phase := .computing }).startTasks l) := by
    change execSuperstepStart n s = _
    simp only [execSuperstepStart, launch, State.when, waits, due, beq_self_eq_true, decide_true, Bool.and_self, if_true]
  rw [State.startTasks_ready (s := s.setLaunch { l with phase := .computing })
    (by rw [State.fitting_of_cores (State.setLaunch_cores s _)]; exact fits)] at ran
  have number := State.launch?_id launch
  refine ⟨_, _, ran, rfl, State.launch?_setLaunch launch number, rfl, ?_, rfl, fun i u at_ => ?_⟩
  · rw [List.length_map, List.length_range]
  · rw [List.getElem?_map, Option.map_eq_some_iff] at at_
    obtain ⟨j, found, rfl⟩ := at_
    obtain ⟨-, rfl⟩ := List.getElem?_eq_some_iff.1 found
    rw [List.getElem_range]
    exact ⟨rfl, rfl, number, rfl, rfl, rfl, rfl, rfl, rfl⟩

/-! ## The end of a superstep's tasks (R32, R43) -/

/-- The tasks with some numbers are gone, and at most translations with them. -/
structure Forgets (s t : State) (gone : List Nat) : Prop where
  rest : t = { s with tlb := t.tlb, tasks := s.tasks.filter (fun u => !gone.contains u.id) }
  tlb : ∀ e ∈ t.tlb, e ∈ s.tlb

theorem Forgets.refl (s : State) : Forgets s s [] :=
  ⟨by simp only [List.contains_nil, Bool.not_false, List.filter_true], fun _ => id⟩

theorem Forgets.trans {s t u : State} {a b : List Nat} (h : Forgets s t a) (g : Forgets t u b) : Forgets s u (a ++ b) := by
  refine ⟨?_, fun e he => h.tlb e (g.tlb e he)⟩
  rw [g.rest, h.rest]
  simp only [List.filter_filter, List.contains_append, Bool.not_or, Bool.and_comm]

/-- What a change of the tasks with one number leaves when they are taken away. -/
theorem filter_map_other {number : Nat} {f : Task → Task} (same : ∀ u, (f u).id = u.id) (other : ∀ u, u.id ≠ number → f u = u)
    (l : List Task) : (l.map f).filter (fun u => u.id != number) = l.filter (fun u => u.id != number) := by
  induction l with
  | nil => rfl
  | cons u rest below =>
    by_cases own : u.id = number
    · simp [same, own, below]
    · simp [other u own, own, below]

theorem State.task?_some {s : State} {number : Nat} {t : Task} (h : s.task? number = some t) : t ∈ s.tasks ∧ t.id = number :=
  ⟨List.mem_of_find?_eq_some h, by simpa using List.find?_some h⟩

/-- A revision map with no leaf is discarded with its translations alone. -/
theorem State.dropRev_bare {s : State} {number : Nat} (bare : ∀ t ∈ s.tasks, t.id = number → t.rev = []) :
    s.dropRev number = { s with tlb := (s.dropRev number).tlb } ∧ ∀ e ∈ (s.dropRev number).tlb, e ∈ s.tlb := by
  unfold State.dropRev
  split
  · exact ⟨rfl, fun _ => id⟩
  next t found =>
    obtain ⟨here, own⟩ := State.task?_some found
    have kept : s.tasks.map (fun (u : Task) => if u.id == number then { u with rev := [] } else u) = s.tasks := by
      refine (List.map_congr_left fun u there => ?_).trans (List.map_id _)
      split
      next same => rw [← bare u there (by simpa using same)]; rfl
      · rfl
    rw [bare t here own]
    exact ⟨congrArg (fun l => ({ s.tlbDropMap number with tasks := l } : State)) kept, fun e => List.mem_of_mem_filter⟩

/-- A retained ancestor with no leaf is freed by a change of the tasks with its number alone. -/
theorem State.dropAnc_bare {s : State} {number : Nat} (bare : ∀ t ∈ s.tasks, t.id = number → t.anc = []) :
    ∃ f : Task → Task, (∀ u, (f u).id = u.id) ∧ (∀ u, u.id ≠ number → f u = u) ∧
      s.dropAnc number = { s with tasks := s.tasks.map f } := by
  unfold State.dropAnc
  split
  · exact ⟨id, fun _ => rfl, fun _ _ => rfl, by rw [List.map_id]⟩
  next t found =>
    obtain ⟨here, own⟩ := State.task?_some found
    refine ⟨fun u => if u.id == number then { u with anc := [], reserved := [] } else u, fun u => ?_, fun u other => ?_, ?_⟩
    · dsimp only; split <;> rfl
    · exact if_neg (by simpa using other)
    · rw [bare t here own]; rfl

/-- A task with no revision and no ancestor goes with at most translations. -/
theorem forgets_dropTask {s : State} {number : Nat} (bare : ∀ t ∈ s.tasks, t.id = number → t.rev = [] ∧ t.anc = []) :
    Forgets s (s.dropTask number) [number] := by
  obtain ⟨rest, tlb⟩ := State.dropRev_bare fun t here own => (bare t here own).1
  have tasks : (s.dropRev number).tasks = s.tasks := by rw [rest]
  obtain ⟨f, same, other, freed⟩ := State.dropAnc_bare (s := s.dropRev number) (number := number)
    (by rw [tasks]; exact fun t here own => (bare t here own).2)
  have gone : ∀ u : Task, (!([number] : List Nat).contains u.id) = (u.id != number) := fun u => by
    simp [bne, beq_eq_decide]
  refine ⟨?_, ?_⟩
  · simp only [State.dropTask, freed, filter_map_other same other, tasks, gone]
    rw [rest]
  · simpa only [State.dropTask, freed] using tlb

/-- The same of the tasks with any of some numbers. -/
theorem forgets_dropTasks {numbers : List Nat} {s : State}
    (bare : ∀ t ∈ s.tasks, t.id ∈ numbers → t.rev = [] ∧ t.anc = []) : Forgets s (numbers.foldl State.dropTask s) numbers := by
  induction numbers generalizing s with
  | nil => exact .refl s
  | cons number rest below =>
    have first := forgets_dropTask (s := s) (number := number) fun t here own => bare t here (own ▸ List.mem_cons_self)
    refine first.trans (below fun t here among => bare t ?_ (List.mem_cons_of_mem _ among))
    rw [first.rest] at here
    exact List.mem_of_mem_filter here

/-! ## The join (R25, R32, R44) -/

/-- R25, R43: the third clause of O43. -/
theorem barrier_iff (s : State) (l : Launch) :
    s.barrier l = true ↔ l.phase = .computing ∧ ∀ t ∈ s.tasks, t.launch = l.id → t.hasEnded = true := by
  simp [State.barrier, State.tasksOf, imp_iff_not_or]

/-- Where no task keeps a revision for the join there is none to fold. -/
theorem foldAll_none {s : State} {l : Launch} (none : ∀ t ∈ s.tasks, t.launch = l.id → t.keeps = false) :
    (foldAll l).run s = .ok ((), s) := by
  have folded : s.folded l.id = [] := by
    have kept : (s.tasksOf l.id).filter (fun t => t.depth == 0 && t.keeps) = [] := by
      refine List.filter_eq_nil_iff.2 fun t among => ?_
      obtain ⟨here, own⟩ := List.mem_filter.1 among
      simp [none t here (by simpa using own)]
    rw [State.folded, kept]; rfl
  rw [foldAll, X.get_bind, folded]; rfl

/-- A launch that waits for its next superstep does not complete. -/
theorem State.thenComplete_waiting {s : State} {n : Nat} {l : Launch} (launch : s.launch? n = some l) (waits : l.phase = .waiting) :
    s.thenComplete n = .next s := by
  have no : s.completeLaunch n = .no := by
    simp only [State.completeLaunch, launch, waits, ite_self]
  rw [State.thenComplete, no]; rfl

/-- With supersteps left the launch waits for the next multiple of its quantum. -/
theorem Launch.advance_waits {l : Launch} (left : l.step + 1 < superstepsOf l.levels) (now : Word) :
    l.advance now = { l with
      step := l.step + 1, steps := l.steps + 1, phase := .waiting, ts := w64 (nextMultiple now.toNat (quantumOf l.levels)) } :=
  if_pos left

/-- The numbers of a launch's tasks. -/
def State.numbersOf (s : State) (n : Nat) : List Nat := (s.tasksOf n).map (fun t => t.id)

theorem State.mem_numbersOf {s : State} {n number : Nat} : number ∈ s.numbersOf n ↔ ∃ t ∈ s.tasks, t.launch = n ∧ t.id = number := by
  simp [State.numbersOf, State.tasksOf, and_assoc]

/-- The tasks of a superstep whose jobs have all ended are taken away by their numbers. -/
theorem State.endTasks_all {s : State} {l : Launch} (quiet : ∀ t ∈ s.tasks, t.launch = l.id → s.hasJobs t.id = false) :
    s.endTasks l = (s.numbersOf l.id).foldl State.dropTask s := by
  have all : (s.tasksOf l.id).filter (fun t => !s.hasJobs t.id) = s.tasksOf l.id := by
    refine List.filter_eq_self.2 fun t among => ?_
    obtain ⟨here, own⟩ := List.mem_filter.1 among
    simp [quiet t here (by simpa using own)]
  rw [State.endTasks, all, State.numbersOf, List.foldl_map]

/-- R25, R32: at the barrier, with nothing to fold and no job left, no task is left whose number one of the superstep's tasks
has, whatever its launch. -/
theorem superstepJoin_leaves {s : State} {n : Nat} {l : Launch} (launch : s.launch? n = some l) (barrier : s.barrier l = true)
    (ended : ∀ t ∈ s.tasks, t.launch = l.id → t.keeps = false ∧ s.hasJobs t.id = false)
    (bare : ∀ t ∈ s.tasks, t.id ∈ s.numbersOf l.id → t.rev = [] ∧ t.anc = []) (left : l.step + 1 < superstepsOf l.levels) :
    ∃ u, Forgets s u (s.numbersOf l.id) ∧ exec (.superstepJoin n) s = .next (u.setLaunch { l with
      step := l.step + 1, steps := l.steps + 1, phase := .waiting,
      ts := w64 (nextMultiple s.time.toNat (quantumOf l.levels)) }) := by
  have number := State.launch?_id launch
  have gone := forgets_dropTasks bare
  rw [← State.endTasks_all fun t here own => (ended t here own).2] at gone
  have there : (s.endTasks l).launch? l.id = some l := by rw [gone.rest, number]; exact launch
  have time : (s.endTasks l).time = s.time := by rw [gone.rest]
  refine ⟨_, gone, ?_⟩
  change execSuperstepJoin n s = _
  simp only [execSuperstepJoin, launch, barrier, if_true, State.joinStep, foldAll_none fun t here own => (ended t here own).1,
    there, time, Launch.advance_waits left]
  exact State.thenComplete_waiting (State.launch?_setLaunch there rfl) rfl

/-- R25, R32, R44: the second clause of O43, where no task of another launch has the number of one of the superstep's tasks. -/
theorem superstepJoin_ends {s : State} {n : Nat} {l : Launch} (launch : s.launch? n = some l) (barrier : s.barrier l = true)
    (ended : ∀ t ∈ s.tasks, t.launch = l.id → t.keeps = false ∧ t.rev = [] ∧ t.anc = [] ∧ s.hasJobs t.id = false)
    (left : l.step + 1 < superstepsOf l.levels) (apart : ∀ t ∈ s.tasks, t.id ∈ s.numbersOf l.id → t.launch = l.id) :
    ∃ t, exec (.superstepJoin n) s = .next t ∧
      t = { s with
        tlb := t.tlb, tasks := s.tasks.filter (fun t => t.launch != l.id),
        launches := s.launches.map (fun u => if u.id == l.id then { l with
          step := l.step + 1, steps := l.steps + 1, phase := .waiting,
          ts := w64 (nextMultiple s.time.toNat (quantumOf l.levels)) } else u) } ∧
      ∀ e, e ∈ t.tlb → e ∈ s.tlb := by
  have quiet : ∀ t ∈ s.tasks, t.launch = l.id → t.keeps = false ∧ s.hasJobs t.id = false := fun t here own => by
    obtain ⟨kept, -, -, jobs⟩ := ended t here own; exact ⟨kept, jobs⟩
  have bare : ∀ t ∈ s.tasks, t.id ∈ s.numbersOf l.id → t.rev = [] ∧ t.anc = [] := fun t here among => by
    obtain ⟨-, rev, anc, -⟩ := ended t here (apart t here among); exact ⟨rev, anc⟩
  obtain ⟨u, gone, ran⟩ := superstepJoin_leaves launch barrier quiet bare left
  have others : s.tasks.filter (fun t => !(s.numbersOf l.id).contains t.id) = s.tasks.filter (fun t => t.launch != l.id) := by
    refine List.filter_congr fun t here => ?_
    have own : t.id ∈ s.numbersOf l.id ↔ t.launch = l.id := ⟨apart t here, fun own => State.mem_numbersOf.2 ⟨t, here, own, rfl⟩⟩
    simp [own, bne, beq_eq_decide]
  refine ⟨_, ran, ?_, gone.tlb⟩
  rw [← others, State.setLaunch, gone.rest]

/-! ## Two launches whose tasks have one number -/

/-- A launch of two supersteps, in its first. -/
def joiningLaunch : Launch :=
  { Launch.make 1 0 0 (parseLaunch []) 0 with phase := .computing, levels := [{ kind := 0, extent := 2, stride := 0, q := 0 }] }

/-- Its task, which has ended with nothing to fold. -/
def endedTask : Task := { Task.make 2 1 0 0 0 (Vector.replicate 8 0) 0 with phase := .ended false }

/-- A ready task of launch 3, with the same number. -/
def strangerTask : Task := Task.make 2 3 0 0 0 (Vector.replicate 8 0) 0

def sharedNumber : State := { State.reset with launches := [joiningLaunch], tasks := [endedTask, strangerTask] }

/-- Refutes O43: the second clause does not ask that the launches' tasks have numbers of their own. Where a task of another
launch has the number of one of the superstep's, the join takes it away (`superstepJoin_leaves`), and the clause keeps it.
`superstepStart_readies`, `barrier_iff` and `superstepJoin_ends` are its first and third clauses, and its second with that premise. -/
theorem not_supersteps : ¬ Obligations.Supersteps := by
  rintro ⟨-, joins, -⟩
  have launch : sharedNumber.launch? 1 = some joiningLaunch := by decide +kernel
  have barrier : sharedNumber.barrier joiningLaunch = true := by decide +kernel
  have left : joiningLaunch.step + 1 < superstepsOf joiningLaunch.levels := by decide
  obtain ⟨t, claimed, rest, -⟩ := joins sharedNumber 1 joiningLaunch launch barrier (by decide +kernel) left
  obtain ⟨u, gone, ran⟩ := superstepJoin_leaves launch barrier (by decide +kernel) (by decide +kernel) left
  have kept : t.tasks = [strangerTask] :=
    (congrArg State.tasks rest).trans
      (show sharedNumber.tasks.filter (fun t => t.launch != joiningLaunch.id) = _ by decide +kernel)
  have lost : u.tasks = [] :=
    (congrArg State.tasks gone.rest).trans
      (show sharedNumber.tasks.filter (fun t => !(sharedNumber.numbersOf joiningLaunch.id).contains t.id) = _ by decide +kernel)
  obtain rfl := Host.Outcome.next.inj (claimed.symm.trans ran)
  exact absurd (kept.symm.trans lost) (List.cons_ne_nil _ _)

end Sys2Proof.Machine
end

section
/-! PROOF. What a sequencer instruction gives when it completes, and the counts of a word's bits: the laws that the scalar
and the predicate instructions share. -/

namespace Sys2Proof.Machine

/-! ## An instruction that completes with a result (R137, R139, R281) -/

theorem givesX_of_exec {i : Instr} {s : State} {d : XReg} {n : Nat} {v : Word} {P : Word → Prop}
    (ran : exec i s = .next (s.retireX n d v)) (result : P v) : GivesX i s d n P :=
  ⟨_, v, ran, result, writesX_retireX s d v n⟩

theorem givesP_of_exec {i : Instr} {s : State} {d : PReg} {v : PredWord} {P : PredWord → Prop}
    (ran : exec i s = .next ((s.setP d v).retire 4)) (result : P v) : GivesP i s d P :=
  ⟨_, v, ran, result, writesP_setP s d v⟩

/-- Nothing holds an instruction whose predicate registers no routed compare has yet to write. -/
theorem State.unlessPending_settled {s : State} {ps : List PReg} (settled : ∀ p ∈ ps, s.me.comparing p = false) (i : Instr)
    (t : State) : s.unlessPending i ps t = .next t :=
  if_neg (by simpa using settled)

/-! ## Counts of bits -/

theorem popCount_succ (j x : Nat) : popCount (j + 1) x = popCount j x + (x.testBit j).toNat := by
  cases set : x.testBit j <;> simp [popCount, List.range_succ, set]

theorem popCount_mono {i j : Nat} (h : i ≤ j) (x : Nat) : popCount i x ≤ popCount j x := by
  induction j, h using Nat.le_induction with
  | base => exact le_rfl
  | succ j _ below => rw [popCount_succ]; omega

theorem popCount_le (w x : Nat) : popCount w x ≤ w := by
  simpa [popCount] using List.length_filter_le (fun i => x.testBit i) (List.range w)

/-- Either every bit is clear, or the count ends at the lowest set bit. -/
theorem trailingZeros_cases (w x : Nat) :
    (trailingZeros w x = w ∧ ∀ i < w, x.testBit i = false) ∨
      (trailingZeros w x < w ∧ x.testBit (trailingZeros w x) = true ∧ ∀ i < trailingZeros w x, x.testBit i = false) := by
  unfold trailingZeros
  cases found : (List.range w).find? (fun i => x.testBit i) with
  | none => exact .inl ⟨rfl, by simpa using found⟩
  | some r =>
    obtain ⟨set, inside, clear⟩ := List.find?_range_eq_some.1 found
    exact .inr ⟨List.mem_range.1 inside, set, by simpa using clear⟩

/-- The element of rank `k` among those below `w` that pass a test has `k` of them below it. -/
theorem getElem?_filter_range {p : Nat → Bool} {w k r : Nat} (h : ((List.range w).filter p)[k]? = some r) :
    r < w ∧ p r = true ∧ ((List.range r).filter p).length = k := by
  induction w with
  | zero => simp at h
  | succ w below =>
    rw [List.range_succ, List.filter_append, List.getElem?_append] at h
    split at h
    · obtain ⟨low, rest⟩ := below h
      exact ⟨by omega, rest⟩
    next past =>
      cases top : p w with
      | false => simp [top] at h
      | true =>
        obtain ⟨last, rfl⟩ : k - ((List.range w).filter p).length = 0 ∧ w = r := by
          simpa [top, List.getElem?_singleton] using h
        exact ⟨by omega, top, by omega⟩

/-- Either too few bits are set, or the bit found has the rank (R160). -/
theorem rankBit_cases (w x k : Nat) :
    (rankBit w x k = w ∧ popCount w x ≤ k) ∨
      (rankBit w x k < w ∧ x.testBit (rankBit w x k) = true ∧ popCount (rankBit w x k) x = k) := by
  unfold rankBit
  cases found : ((List.range w).filter (fun i => x.testBit i))[k]? with
  | none => exact .inl ⟨rfl, List.getElem?_eq_none_iff.1 found⟩
  | some r => exact .inr (getElem?_filter_range found)

theorem w64_toNat {n : Nat} (h : n < 2 ^ 64) : (w64 n).toNat = n := Nat.mod_eq_of_lt h

end Sys2Proof.Machine
end

section
/-! PROOF. Quotients and remainders, the bit of a rank, and fields of bits (R159, R160). -/

namespace Sys2Proof.Machine

/-! ## Quotients and remainders (R159) -/

theorem divS_eq_sdiv (x : Word) {y : Word} (h : y ≠ 0) : divS x y = x.sdiv y := by
  rw [divS, if_neg h, ← BitVec.toInt_inj, BitVec.toInt_ofInt, BitVec.toInt_sdiv]

theorem remS_toInt (x : Word) {y : Word} (h : y ≠ 0) : (remS x y).toInt = x.toInt.tmod y.toInt := by
  rw [remS, if_neg h, ← BitVec.toInt_srem, BitVec.ofInt_toInt]

theorem toInt_eq_zero {n : Nat} (x : BitVec n) : x.toInt = 0 ↔ x = 0 := by
  rw [← BitVec.toInt_zero (w := n), BitVec.toInt_inj]; rfl

theorem natAbs_tmod_lt (a : Int) {b : Int} (h : b ≠ 0) : (a.tmod b).natAbs < b.natAbs := by
  rw [Int.natAbs_tmod]; exact Nat.mod_lt _ (Int.natAbs_pos.2 h)

/-- A remainder is zero or has the dividend's sign. -/
theorem tmod_sign (a b : Int) : a.tmod b = 0 ∨ (a.tmod b < 0 ↔ a < 0) := by
  by_cases divides : b ∣ a
  · exact .inl (Int.tmod_eq_zero_of_dvd divides)
  · refine .inr ?_
    rw [← Int.sign_eq_neg_one_iff_neg, Int.sign_tmod, if_neg divides, Int.sign_eq_neg_one_iff_neg]

theorem divS_overflow : divS (BitVec.intMin 64) (BitVec.allOnes 64) = BitVec.intMin 64 := by decide

/-- A quotient that 64 bits hold, with the remainder that goes with it. -/
theorem divS_quotient {x y : Word} (nonzero : y ≠ 0) (fits : ¬ (x = BitVec.intMin 64 ∧ y = BitVec.allOnes 64)) :
    ∃ m : Int, x.toInt = (divS x y).toInt * y.toInt + m ∧ m.natAbs < y.toInt.natAbs ∧ (m = 0 ∨ (m < 0 ↔ x.toInt < 0)) := by
  have quotient : (divS x y).toInt = x.toInt.tdiv y.toInt := by
    rw [divS_eq_sdiv x nonzero]
    exact BitVec.toInt_sdiv_of_ne_or_ne x y (by rw [BitVec.neg_one_eq_allOnes]; tauto)
  refine ⟨x.toInt.tmod y.toInt, ?_, natAbs_tmod_lt _ (mt (toInt_eq_zero y).1 nonzero), tmod_sign _ _⟩
  rw [quotient, Int.tdiv_mul_add_tmod]

theorem remS_overflow : remS (BitVec.intMin 64) (BitVec.allOnes 64) = 0 := by decide

theorem remS_remainder (x : Word) {y : Word} (nonzero : y ≠ 0) :
    ∃ q : Int, x.toInt = q * y.toInt + (remS x y).toInt ∧ (remS x y).toInt.natAbs < y.toInt.natAbs ∧
      ((remS x y).toInt = 0 ∨ ((remS x y).toInt < 0 ↔ x.toInt < 0)) := by
  rw [remS_toInt x nonzero]
  exact ⟨x.toInt.tdiv y.toInt, (Int.tdiv_mul_add_tmod _ _).symm, natAbs_tmod_lt _ (mt (toInt_eq_zero y).1 nonzero), tmod_sign _ _⟩

theorem divU_toNat (x : Word) {y : Word} (h : y ≠ 0) : (divU x y).toNat = x.toNat / y.toNat := by
  rw [divU, if_neg h, w64_toNat (by have := Nat.div_le_self x.toNat y.toNat; omega)]

theorem remU_toNat (x : Word) {y : Word} (h : y ≠ 0) : (remU x y).toNat = x.toNat % y.toNat := by
  rw [remU, if_neg h, w64_toNat (by have := Nat.mod_le x.toNat y.toNat; omega)]

/-! ## The bit of a rank and fields (R160) -/

/-- FNSB finds the bit of a rank, or gives 64 where too few are set. -/
theorem fnsb_rank (x y : Word) : (fnsb x y).toNat ≤ 64 ∧
    ((fnsb x y).toNat < 64 → x.getLsbD (fnsb x y).toNat = true ∧ popCount (fnsb x y).toNat x.toNat = y.toNat) ∧
    ((fnsb x y).toNat = 64 → popCount 64 x.toNat ≤ y.toNat) := by
  have either := rankBit_cases 64 x.toNat y.toNat
  have bound : rankBit 64 x.toNat y.toNat ≤ 64 := by omega
  rw [fnsb, w64_toNat (by omega)]
  rcases either with ⟨absent, few⟩ | ⟨below, found⟩
  · exact ⟨bound, fun less => absurd absent less.ne, fun _ => few⟩
  · exact ⟨bound, fun _ => found, fun absent => absurd absent below.ne⟩

theorem fieldPos_eq (c : Word) : fieldPos c = c.toNat % 64 := by
  simp [fieldPos, bitsOf]

theorem fieldLen_eq (c : Word) : fieldLen c = min (min (c.toNat / 2 ^ 8 % 2 ^ 7) 64) (64 - fieldPos c) := by
  simp [fieldLen, bitsOf, Nat.shiftRight_eq_div_pow]

/-- A number of `l` bits less 2^l is the number with ones above it. -/
theorem getLsbD_ofInt_sub {f l i : Nat} (below : f < 2 ^ l) (inside : i < 64) :
    (BitVec.ofInt 64 ((f : Int) - 2 ^ l)).getLsbD i = (f.testBit i || decide (l ≤ i)) := by
  have negative : (f : Int) - 2 ^ l = Int.negSucc (2 ^ l - (f + 1)) := by
    rw [Int.negSucc_eq, Nat.cast_sub (by omega)]; push_cast; ring
  rw [negative, BitVec.ofInt_negSucc_eq_not_ofNat, BitVec.getLsbD_not, BitVec.getLsbD_ofNat, Nat.testBit_two_pow_sub_succ below]
  simp only [inside, decide_true, Bool.true_and, Bool.not_and, Bool.not_not, ← Nat.not_lt, decide_not, Bool.or_comm]

/-- BEXT: the field, and above it zeros or copies of its highest bit. -/
theorem getLsbD_bext (x c : Word) {i : Nat} (inside : i < 64) : (bext x c).getLsbD i =
    if i < fieldLen c then x.getLsbD (fieldPos c + i)
    else (c.getLsbD 16 && decide (0 < fieldLen c) && x.getLsbD (fieldPos c + fieldLen c - 1)) := by
  have field : ∀ j, (x.toNat / 2 ^ fieldPos c % 2 ^ fieldLen c).testBit j =
      (decide (j < fieldLen c) && x.getLsbD (fieldPos c + j)) := fun j => by
    rw [Nat.testBit_mod_two_pow, Nat.testBit_div_two_pow, BitVec.testBit_toNat, Nat.add_comm]
  have sign : (c.getLsbD 16 && fieldLen c != 0 && (x.toNat / 2 ^ fieldPos c % 2 ^ fieldLen c).testBit (fieldLen c - 1)) =
      (c.getLsbD 16 && decide (0 < fieldLen c) && x.getLsbD (fieldPos c + fieldLen c - 1)) := by
    rw [field]
    by_cases nonempty : 0 < fieldLen c
    · simp [nonempty, bne_iff_ne.2 nonempty.ne', Nat.add_sub_assoc nonempty]
    · simp [Nat.eq_zero_of_not_pos nonempty]
  simp only [bext, sign]
  split
  next signed =>
    rw [getLsbD_ofInt_sub (Nat.mod_lt _ (Nat.two_pow_pos _)) inside, field, signed]
    by_cases low : i < fieldLen c
    · simp [low]
    · simp [low, Nat.not_lt.1 low]
  next plain =>
    rw [w64, BitVec.getLsbD_ofNat, field, Bool.eq_false_of_not_eq_true plain]
    by_cases low : i < fieldLen c <;> simp [low, inside]

/-- BINS: the field's place takes the low bits of xa, and the other bits of xd stay. -/
theorem getLsbD_bins (old x c : Word) {i : Nat} (inside : i < 64) : (bins old x c).getLsbD i =
    if fieldPos c ≤ i ∧ i < fieldPos c + fieldLen c then x.getLsbD (i - fieldPos c) else old.getLsbD i := by
  have mask : (w64 ((2 ^ fieldLen c - 1) * 2 ^ fieldPos c)).getLsbD i =
      decide (fieldPos c ≤ i ∧ i < fieldPos c + fieldLen c) := by
    rw [w64, BitVec.getLsbD_ofNat, Nat.testBit_mul_two_pow, Nat.testBit_two_pow_sub_one]
    simp only [inside, decide_true, Bool.true_and, ← Bool.decide_and]
    exact decide_eq_decide.2 (by omega)
  simp only [bins, BitVec.getLsbD_or, BitVec.getLsbD_and, BitVec.getLsbD_not, BitVec.getLsbD_shiftLeft, mask, inside]
  by_cases within : fieldPos c ≤ i ∧ i < fieldPos c + fieldLen c
  · simp [within, Nat.not_lt.2 within.1]
  · simp [within]

/-! ## The statement -/

/-- Settles O2: each result is the model's arithmetic on the words read, of which the laws above say what R159 and R160 ask. -/
theorem divisionAndFields : Obligations.DivisionAndFields := by
  refine ⟨fun s d a b => ⟨?div, ?rem, ?divu, ?remu⟩, fun s d a b => ?fnsb, fun s d a b pos l atPos long => ?fields⟩
  case div =>
    refine givesX_of_exec (v := divS (s.x a) (s.x b)) rfl ⟨fun zero => if_pos zero, fun least minusOne => ?_, divS_quotient⟩
    rw [least, minusOne, divS_overflow]
  case rem =>
    refine givesX_of_exec (v := remS (s.x a) (s.x b)) rfl ⟨fun zero => if_pos zero, fun least minusOne => ?_, remS_remainder (s.x a)⟩
    rw [least, minusOne, remS_overflow]
  case divu =>
    refine givesX_of_exec (v := divU (s.x a) (s.x b)) rfl ⟨fun zero => if_pos zero, fun nonzero => ?_⟩
    exact ⟨_, by rw [divU_toNat _ nonzero, Nat.mul_comm, Nat.div_add_mod], Nat.mod_lt _ (BitVec.toNat_pos_of_ne_zero nonzero)⟩
  case remu =>
    refine givesX_of_exec (v := remU (s.x a) (s.x b)) rfl ⟨fun zero => if_pos zero, fun nonzero => ?_⟩
    rw [remU_toNat _ nonzero]
    exact ⟨_, (Nat.div_add_mod' _ _).symm, Nat.mod_lt _ (BitVec.toNat_pos_of_ne_zero nonzero)⟩
  case fnsb => exact givesX_of_exec (v := fnsb (s.x a) (s.x b)) rfl (fnsb_rank (s.x a) (s.x b))
  case fields =>
    obtain rfl : l = fieldLen (s.x b) := by rw [long, fieldLen_eq, fieldPos_eq, atPos]
    obtain rfl : pos = fieldPos (s.x b) := by rw [atPos, fieldPos_eq]
    exact ⟨givesX_of_exec rfl fun i inside => getLsbD_bext (s.x a) (s.x b) inside,
      givesX_of_exec rfl fun i inside => getLsbD_bins (s.x d) (s.x a) (s.x b) inside⟩

end Sys2Proof.Machine
end

section
/-! PROOF. Where branches and jumps go, and their words (R163 to R165). -/

namespace Sys2Proof.Machine

/-! ## Targets (R110) -/

/-- The sum modulo 2^64 of an address and an offset in words (R110, R163). -/
theorem pc_add_wordOffset {n : Nat} (pc : Word) (off : BitVec n) :
    pc + wordOffset off = BitVec.ofInt 64 (pc.toNat + off.toInt * 4) := by
  have scaled : wordOffset off = sext off * 4#64 := BitVec.shiftLeft_eq_mul_twoPow _ 2
  rw [BitVec.ofInt_add, BitVec.ofInt_mul, BitVec.ofInt_natCast, BitVec.ofNat_toNat, BitVec.setWidth_eq, scaled]
  rfl

theorem add_sext {n : Nat} (x : Word) (k : BitVec n) : x + sext k = BitVec.ofInt 64 (x.toNat + k.toInt) := by
  rw [BitVec.ofInt_add, BitVec.ofInt_natCast, BitVec.ofNat_toNat, BitVec.setWidth_eq]
  rfl

/-- Where a branch of `n` bytes goes (R163, R164). -/
theorem goesTo_branch {i : Instr} {s : State} {n w : Nat} {off : BitVec w} {taken cond : Bool} {goes : Bool → Word}
    (target : ∀ b, goes b = if b then BitVec.ofInt 64 (s.me.pc.toNat + off.toInt * 4) else s.me.pc + w64 n)
    (ran : exec i s = .next (s.branch n cond (wordOffset off))) (means : cond = taken) : GoesTo i s (goes taken) := by
  subst means
  have there : s.me.pc + (if cond then wordOffset off else w64 n) = goes cond := by
    rw [target, ← pc_add_wordOffset]; cases cond <;> rfl
  exact ⟨_, ran, there ▸ retires_goesOn s _⟩

/-! ## Conditions -/

theorem not_slt (x y : Word) : (!x.slt y) = decide (y.toInt ≤ x.toInt) :=
  BitVec.sle_eq_not_slt.symm.trans BitVec.sle_eq_decide

theorem not_ult (x y : Word) : (!x.ult y) = decide (y.toNat ≤ x.toNat) :=
  (BitVec.ule_eq_not_ult y x).symm.trans BitVec.ule_eq_decide

/-! ## Jumps (R165) -/

/-- A write of xd whose instruction goes on elsewhere: the write of `writesX_retireX` over that distance. -/
theorem setX_completeAt (s : State) (d : XReg) (v pc : Word) :
    (∀ r, ((s.setX d v).completeAt pc).x r = if r = d ∧ d ≠ 0 then v else s.x r) ∧
      Retires s ((s.setX d v).completeAt pc) { s.me with x := ((s.setX d v).completeAt pc).me.x } pc := by
  have distance : s.me.pc + w64 (pc - s.me.pc).toNat = pc := by
    rw [w64, BitVec.ofNat_toNat, BitVec.setWidth_eq, BitVec.add_comm, BitVec.sub_add_cancel]
  have same : s.retireX (pc - s.me.pc).toNat d v = (s.setX d v).completeAt pc := by
    rw [State.retireX, State.retire, State.setX, State.me_setMe, Context.wx_pc, distance]
  have written := writesX_retireX s d v (pc - s.me.pc).toNat
  rwa [same, WritesX, distance] at written

/-! ## Words (R109, R117) -/

theorem wSB_words (off : BitVec 15) (a : XReg) (c : BitVec 3) :
    [wSB off a c 0x15].map BitVec.toNat = [off.toNat * 2 ^ 17 + a.toNat * 2 ^ 11 + c.toNat * 2 ^ 8 + 0x54] :=
  congrArg (fun n => [n]) ((wSB_toNat ..).trans (by simp; omega))

theorem encB_words (fn : BitVec 6) (a b : XReg) (off : BitVec 32) :
    (encB fn a b off).map BitVec.toNat = [b.toNat * 2 ^ 25 + fn.toNat * 2 ^ 19 + a.toNat * 2 ^ 12 + 0x06, off.toNat] :=
  congrArg (fun n => [n, off.toNat]) ((wS_toNat ..).trans (by rw [toNat_app, toNat_app]; simp; omega))

theorem wSJ_words (off : BitVec 18) (d : XReg) :
    [wSJ off d 0x16].map BitVec.toNat = [off.toNat * 2 ^ 14 + d.toNat * 2 ^ 8 + 0x58] :=
  congrArg (fun n => [n]) ((wSJ_toNat ..).trans (by simp; omega))

theorem wSI_words (k : BitVec 12) (a d : XReg) :
    [wSI k a d 0x17].map BitVec.toNat = [k.toNat * 2 ^ 20 + a.toNat * 2 ^ 14 + d.toNat * 2 ^ 8 + 0x5C] :=
  congrArg (fun n => [n]) ((wSI_toNat ..).trans (by simp; omega))

/-! ## The statement -/

/-- Settles O3: a branch goes where its condition says and a jump writes xd first; the words are those of the layouts. -/
theorem branchesAndJumps : Obligations.BranchesAndJumps := by
  refine ⟨fun s a off goes target => ?onZero, fun a off n i listed => ?onZeroWords, fun s a b off goes target => ?compare,
    fun a b off n i listed => ?compareWords, fun s d a off k => ?jumps, fun d a off k => ⟨wSJ_words off d, wSI_words k a d⟩⟩
  case onZero =>
    have branch {i cond taken} := goesTo_branch (i := i) (n := 4) (cond := cond) (taken := taken) target
    refine ⟨branch rfl ?_, branch rfl ?_, branch rfl BitVec.slt_eq_decide, branch rfl (not_slt _ 0),
      branch rfl BitVec.slt_eq_decide, branch rfl (not_slt 0 _)⟩
    · simp [toInt_eq_zero, beq_eq_decide]
    · simp [toInt_eq_zero, bne, beq_eq_decide]
  case onZeroWords =>
    simp only [List.mem_cons, List.not_mem_nil, Prod.mk.injEq, or_false] at listed
    rcases listed with ⟨rfl, rfl⟩ | ⟨rfl, rfl⟩ | ⟨rfl, rfl⟩ | ⟨rfl, rfl⟩ | ⟨rfl, rfl⟩ | ⟨rfl, rfl⟩ <;> exact wSB_words off a _
  case compare =>
    have branch {i cond taken} := goesTo_branch (i := i) (n := 8) (cond := cond) (taken := taken) target
    refine ⟨branch rfl ?_, branch rfl ?_, branch rfl BitVec.slt_eq_decide, branch rfl (not_slt _ _),
      branch rfl BitVec.ult_eq_decide, branch rfl (not_ult _ _)⟩
    · exact beq_eq_decide ..
    · simp [bne, beq_eq_decide]
  case compareWords =>
    simp only [List.mem_cons, List.not_mem_nil, Prod.mk.injEq, or_false] at listed
    rcases listed with ⟨rfl, rfl⟩ | ⟨rfl, rfl⟩ | ⟨rfl, rfl⟩ | ⟨rfl, rfl⟩ | ⟨rfl, rfl⟩ | ⟨rfl, rfl⟩ <;> exact encB_words _ a b off
  case jumps =>
    rw [← pc_add_wordOffset, ← add_sext]
    exact ⟨⟨_, rfl, setX_completeAt s d _ _⟩, ⟨_, rfl, setX_completeAt s d _ _⟩⟩

end Sys2Proof.Machine
end

section
/-! PROOF. The predicate group: bits, counts and words (R174). -/

namespace Sys2Proof.Machine

/-! ## The lowest set bits of PFIRSTN -/

theorem lowestBits_dvd (x n i k : Nat) : 2 ^ i ∣ lowestBits x n i k := by
  induction k generalizing n i with
  | zero => exact dvd_zero _
  | succ k below =>
    have above : ∀ m, 2 ^ i ∣ lowestBits x m (i + 1) k := fun m => (pow_dvd_pow 2 i.le_succ).trans (below m (i + 1))
    rw [lowestBits]
    split_ifs
    · exact dvd_zero _
    · exact dvd_add dvd_rfl (above _)
    · exact above _

/-- A power of two below a number's set bits. -/
theorem testBit_two_pow_add {i y : Nat} (above : 2 ^ (i + 1) ∣ y) (j : Nat) :
    (2 ^ i + y).testBit j = (decide (i = j) || y.testBit j) := by
  obtain ⟨q, rfl⟩ := above
  rw [Nat.add_comm, Nat.two_pow_add_eq_or_of_lt (Nat.pow_lt_pow_right one_lt_two i.lt_succ_self), Nat.testBit_or,
    Nat.testBit_two_pow, Bool.or_comm]

/-- From bit `i` up, the set bits that have fewer than `n` set bits below them. -/
theorem testBit_lowestBits (x n i k j : Nat) : (lowestBits x n i k).testBit j = true ↔
    (i ≤ j ∧ j < i + k) ∧ x.testBit j = true ∧ popCount j x < popCount i x + n := by
  induction k generalizing n i with
  | zero => simp only [lowestBits, Nat.zero_testBit, Bool.false_eq_true, false_iff]; omega
  | succ k below =>
    have counted := popCount_succ i x
    have range : i ≠ j → ((i + 1 ≤ j ∧ j < i + 1 + k) ↔ (i ≤ j ∧ j < i + (k + 1))) := by omega
    rw [lowestBits]
    split_ifs with spent set
    · have past : i ≤ j → popCount i x ≤ popCount j x := fun up => popCount_mono up x
      simp only [Nat.zero_testBit, Bool.false_eq_true, false_iff]
      omega
    · rw [testBit_two_pow_add (lowestBits_dvd ..), Bool.or_eq_true, decide_eq_true_eq, below, counted, set]
      by_cases here : i = j
      · subst here; simp [set, Nat.pos_of_ne_zero spent]
      · have left : popCount i x + true.toNat + (n - 1) = popCount i x + n := by rw [Bool.toNat_true]; omega
        simp only [here, false_or, range here, left]
    · rw [below, counted, Bool.eq_false_of_not_eq_true set]
      by_cases here : i = j
      · subst here; simp [set]
      · rw [range here]; rfl

/-- PFIRSTN keeps the set bits that have fewer than `n` set bits below them. -/
theorem getLsbD_lowestBits (p : PredWord) (n : Nat) {i : Nat} (inside : i < 256) :
    (BitVec.ofNat 256 (lowestBits p.toNat n 0 256)).getLsbD i = (p.getLsbD i && decide (popCount i p.toNat < n)) := by
  have low : popCount 0 p.toNat = 0 := rfl
  rw [BitVec.getLsbD_ofNat, Bool.eq_iff_iff]
  simp only [Bool.and_eq_true, decide_eq_true_eq, testBit_lowestBits, BitVec.testBit_toNat, low, Nat.zero_add,
    inside, Nat.zero_le, true_and]

/-! ## The first bit of PFIRST -/

theorem trailingZeros_first (p : PredWord) : (w64 (trailingZeros 256 p.toNat)).toNat ≤ 256 ∧
    (∀ i < (w64 (trailingZeros 256 p.toNat)).toNat, p.getLsbD i = false) ∧
    ((w64 (trailingZeros 256 p.toNat)).toNat < 256 → p.getLsbD (w64 (trailingZeros 256 p.toNat)).toNat = true) := by
  rcases trailingZeros_cases 256 p.toNat with ⟨absent, clear⟩ | ⟨below, set, clear⟩
  · rw [absent]; exact ⟨le_rfl, clear, fun less => absurd less (lt_irrefl 256)⟩
  · rw [w64_toNat (below.trans (by decide))]
    exact ⟨below.le, clear, fun _ => set⟩

/-! ## Words (R115) -/

theorem wSP_words (n : Nat) (small : n < 8) (b a d : BitVec 7) : [wSP (BitVec.ofNat 3 n) b a d].map BitVec.toNat =
    [n * 2 ^ 29 + b.toNat * 2 ^ 22 + a.toNat * 2 ^ 15 + d.toNat * 2 ^ 8 + 0x70] :=
  congrArg (fun n => [n]) ((wSP_toNat ..).trans (by rw [BitVec.toNat_ofNat, Nat.mod_eq_of_lt small]; omega))

theorem toNat_zero_app (x : XReg) : (0#1 ++ x).toNat = x.toNat := by rw [toNat_app]; simp

/-! ## The statement -/

/-- Settles O10: with no compare due each form completes at once, with the bits or the count that R174 gives. -/
theorem predicateResults : Obligations.PredicateResults := by
  refine ⟨fun s d a b x dueA dueB => ?results, fun d a b x n u v w i listed => ?words⟩
  case results =>
    have one : ∀ p ∈ [a], s.me.comparing p = false := by simpa using dueA
    have two : ∀ p ∈ [a, b], s.me.comparing p = false := by simpa using ⟨dueA, dueB⟩
    refine ⟨givesP_of_exec (State.unlessPending_settled two _ _) fun i _ => BitVec.getLsbD_and,
      givesP_of_exec (State.unlessPending_settled two _ _) fun i _ => BitVec.getLsbD_or,
      givesP_of_exec (State.unlessPending_settled two _ _) fun i _ => BitVec.getLsbD_xor,
      givesP_of_exec (State.unlessPending_settled two _ _) fun i inside => ?andNot,
      givesP_of_exec (State.unlessPending_settled one _ _) fun i inside => ?not,
      givesP_of_exec (State.unlessPending_settled one _ _) fun i inside => getLsbD_lowestBits (s.p a) (s.x x).toNat inside,
      givesX_of_exec (State.unlessPending_settled one _ _) ?count,
      givesX_of_exec (State.unlessPending_settled one _ _) (trailingZeros_first (s.p a))⟩
    case andNot => simp [inside]
    case not => simp [inside]
    case count => exact w64_toNat (by have := popCount_le 256 (s.p a).toNat; omega)
  case words =>
    simp only [List.mem_cons, List.not_mem_nil, Prod.mk.injEq, or_false] at listed
    rcases listed with ⟨rfl, rfl, rfl, rfl, rfl⟩ | ⟨rfl, rfl, rfl, rfl, rfl⟩ | ⟨rfl, rfl, rfl, rfl, rfl⟩ | ⟨rfl, rfl, rfl, rfl, rfl⟩ |
      ⟨rfl, rfl, rfl, rfl, rfl⟩ | ⟨rfl, rfl, rfl, rfl, rfl⟩ | ⟨rfl, rfl, rfl, rfl, rfl⟩ | ⟨rfl, rfl, rfl, rfl, rfl⟩
    · exact wSP_words 0 (by decide) b a d
    · exact wSP_words 1 (by decide) b a d
    · exact wSP_words 2 (by decide) b a d
    · exact wSP_words 3 (by decide) b a d
    · exact wSP_words 4 (by decide) 0 a d
    · rw [← toNat_zero_app x]; exact wSP_words 5 (by decide) (0#1 ++ x) a d
    · rw [← toNat_zero_app x]; exact wSP_words 6 (by decide) 0 a (0#1 ++ x)
    · rw [← toNat_zero_app x]; exact wSP_words 7 (by decide) 0 a (0#1 ++ x)

end Sys2Proof.Machine
end

section
/-! PROOF. Scalar loads of an ordinary address (R249 to R251): how many bytes a load sees under the held stores of its
context, and what their extension is worth. -/

namespace Sys2Proof.Machine

/-! ## The signed value of a number's low bits (R50) -/

theorem toSigned_eq_toInt {w : Nat} (wide : 0 < w) (n : Nat) : toSigned w n = (BitVec.ofNat w n).toInt := by
  obtain ⟨k, rfl⟩ := Nat.exists_eq_succ_of_ne_zero wide.ne'
  have half : n % 2 ^ (k + 1) < 2 ^ k ↔ 2 * (n % 2 ^ (k + 1)) < 2 ^ (k + 1) := by rw [Nat.pow_succ]; omega
  rw [toSigned, BitVec.toInt_eq_toNat_cond, BitVec.toNat_ofNat, Nat.succ_sub_one]
  exact if_congr half rfl (by push_cast; rfl)

/-- Sign extension to 64 bits keeps the value. -/
theorem toInt_ofInt_toSigned {w : Nat} (wide : 0 < w) (fits : w ≤ 64) (n : Nat) :
    (BitVec.ofInt 64 (toSigned w n)).toInt = toSigned w n := by
  rw [toSigned_eq_toInt wide]
  exact BitVec.toInt_signExtend_of_le fits

theorem ofInt_toSigned_whole (n : Nat) : BitVec.ofInt 64 (toSigned 64 n) = w64 n := by
  rw [toSigned_eq_toInt (by decide), BitVec.ofInt_toInt, w64]

/-! ## The bytes that a load sees (R211, R251) -/

theorem State.length_bytesAt (s : State) (p : Phys) (n : Nat) : (s.bytesAt p n).length = n := by
  unfold State.bytesAt memRead
  split <;> rw [List.length_map, List.length_range]

/-- A held store changes bytes in their places. Only a scale block is put in as a whole, and 64 bytes must be there
for it. -/
theorem length_overlayStore (va : Nat) {bs : List Byte} (short : bs.length < 64) (e : ElemStore) :
    (overlayStore va bs e).length = bs.length := by
  cases e with
  | pad | padNib => rfl
  | mem | memNib => rw [overlayStore, List.length_map, List.length_zipIdx]
  | scale a l =>
    have outside : ¬ (va ≤ a && a + 64 ≤ va + bs.length) = true := by
      rw [Bool.and_eq_true, decide_eq_true_iff, decide_eq_true_iff]; omega
    rw [overlayStore, if_neg outside, List.length_map, List.length_zipIdx]

theorem Context.length_overlay (x : Context) (va : Nat) {bs : List Byte} (short : bs.length < 64) :
    (x.overlay va bs).length = bs.length := by
  refine List.foldlRecOn (motive := fun seen : List Byte => seen.length = bs.length) x.holdList _ rfl (fun seen same h _ => ?_)
  refine List.foldlRecOn (motive := fun seen : List Byte => seen.length = bs.length) h.stores _ same (fun seen same e _ => ?_)
  rw [length_overlayStore va (same ▸ short), same]

/-- The number that a load of at most 8 bytes sees fits a register. -/
theorem State.seen_lt (s : State) (va : Nat) (p : Phys) {n : Nat} (small : n ≤ 8) :
    leNat (s.me.overlay va (s.bytesAt p n)) < 2 ^ 64 := by
  have count := s.length_bytesAt p n
  have bound := leNat_lt (s.me.overlay va (s.bytesAt p n))
  rw [s.me.length_overlay va (by omega), count] at bound
  exact bound.trans_le (Nat.pow_le_pow_right (by decide) (by omega))

/-! ## One load -/

/-- A load of 8 bytes fills the register, whichever way it extends. -/
theorem State.scalarLoad_whole (s : State) (i : Instr) (d a : XReg) (imm : BitVec 12) :
    s.scalarLoad i d a imm 8 false = s.scalarLoad i d a imm 8 true := by
  simp [State.scalarLoad, ofInt_toSigned_whole]

/-- The scalar loads are one operation at four sizes. -/
theorem exec_scalarLoad {s : State} {d a : XReg} {imm : BitVec 12} {i : Instr} {n : Nat} {signed : Bool}
    (listed : (i, n, signed) ∈ [(Instr.ldb d a imm, 1, true), (.ldbu d a imm, 1, false), (.ldh d a imm, 2, true),
      (.ldhu d a imm, 2, false), (.ldw d a imm, 4, true), (.ldwu d a imm, 4, false), (.ldd d a imm, 8, true)]) :
    exec i s = s.scalarLoad i d a imm n signed ∧ 0 < n ∧ n ≤ 8 := by
  simp only [List.mem_cons, List.not_mem_nil, Prod.mk.injEq, or_false] at listed
  rcases listed with ⟨rfl, rfl, rfl⟩ | ⟨rfl, rfl, rfl⟩ | ⟨rfl, rfl, rfl⟩ | ⟨rfl, rfl, rfl⟩ | ⟨rfl, rfl, rfl⟩ | ⟨rfl, rfl, rfl⟩ |
    ⟨rfl, rfl, rfl⟩
  exacts [⟨rfl, by decide⟩, ⟨rfl, by decide⟩, ⟨rfl, by decide⟩, ⟨rfl, by decide⟩, ⟨rfl, by decide⟩, ⟨rfl, by decide⟩,
    ⟨s.scalarLoad_whole .., by decide⟩]

/-! ## The statement -/

/-- Settles O5: the load answers the bytes of `scalarLoad_ok`. They fit the register (`State.seen_lt`), so that either
extension keeps their value. -/
theorem loadResults : Obligations.LoadResults := by
  intro s d a imm va p address window i n signed listed aligned ordinary ready
  obtain ⟨runs, nonempty, small⟩ := exec_scalarLoad (s := s) listed
  subst address
  obtain ⟨t, ran, loads⟩ := scalarLoad_ok (i := i) (d := d) (sg := signed) rfl aligned window ordinary ready
  refine ⟨t, _, runs.trans ran, loads, ?_⟩
  cases signed with
  | false => exact w64_toNat (s.seen_lt _ p small)
  | true => exact toInt_ofInt_toSigned (by omega) (by omega) _

end Sys2Proof.Machine
end

section
/-! PROOF. Scalar stores of an ordinary address (R249 to R251): outside a phase the bytes reach memory, inside one the
phase holds them (R211). -/

namespace Sys2Proof.Machine

/-! ## The bytes of a number (R3) -/

theorem length_leBytes (n v : Nat) : (leBytes n v).length = n := by
  induction n generalizing v with
  | zero => rfl
  | succ n fewer => rw [leBytes, List.length_cons, fewer]

theorem getElem?_leBytes {n i : Nat} (inside : i < n) (v : Nat) :
    (leBytes n v)[i]? = some (BitVec.ofNat 8 (v / 2 ^ (8 * i))) := by
  induction n generalizing v i with
  | zero => omega
  | succ n fewer =>
    cases i with
    | zero => simp [leBytes]
    | succ i =>
      rw [leBytes, List.getElem?_cons_succ, fewer (by omega), Nat.div_div_eq_div_mul, Nat.mul_succ, Nat.add_comm, Nat.pow_add]

theorem getD_leBytes_word {n i : Nat} (inside : i < n) (x : Word) :
    (leBytes n x.toNat)[i]?.getD 0 = x.extractLsb' (8 * i) 8 := by
  rw [getElem?_leBytes inside, Option.getD_some, ← Nat.shiftRight_eq_div_pow]
  rfl

/-! ## What a store outside a phase leaves -/

theorem Touches.byteAt {s t : State} (h : Touches s t) (far : Bool) (x : Nat) : t.byteAt far x = s.byteAt far x := by
  rw [h.rest]; rfl

/-- A store into memory changes memory and the poison of what it rewrites (R265). -/
theorem State.storeAt_only (s : State) (p : Phys) (bs : List Byte) : s.storeAt p bs =
    { s with mem := (s.storeAt p bs).mem, hostMem := (s.storeAt p bs).hostMem, poison := (s.storeAt p bs).poison } := by
  have poison : ∀ a n, s.rewrite none p.far a n = { s with poison := (s.rewrite none p.far a n).poison } := by
    intro a n; unfold State.rewrite; split <;> rfl
  unfold State.storeAt
  dsimp only
  rw [poison]
  split <;> rfl

/-- A write in the running context's view may set its escape bit (R411). -/
theorem State.escapeOn_me {s : State} {v : View} (own : v.ctx = some (s.cur, s.myK)) (va : Nat) :
    s.escapeOn v va = s.setMe { s.me with escape := s.me.escape || !(s.revisioned v.task va || v.sup) } := by
  unfold State.escapeOn
  rw [own]
  rfl

@[simp] theorem Context.passed_escape (x : Context) (pc : Word) : (x.passed pc).escape = x.escape := by
  unfold Context.passed Context.stepCount; split <;> rfl
@[simp] theorem Context.passed_holdList (x : Context) (pc : Word) : (x.passed pc).holdList = x.holdList := by
  unfold Context.passed Context.stepCount; split <;> rfl

/-- What the completion of a store outside a phase leaves. -/
theorem retires_storeAt {s m : State} (h : Touches s m) {v : View} (own : v.ctx = some (s.cur, s.myK)) (p : Phys) (bs : List Byte)
    (va : Nat) {t : State} (done : t = ((m.storeAt p bs).escapeOn v va).retire 4) :
    (∀ far x, t.byteAt far x = (m.storeAt p bs).byteAt far x) ∧
      Retires { m with mem := t.mem, hostMem := t.hostMem, poison := t.poison } t { s.me with escape := t.me.escape } (s.me.pc + 4) := by
  have only := m.storeAt_only p bs
  generalize m.storeAt p bs = u at only done
  have cur : u.cur = s.cur := by rw [only, ← h.cur]
  have myK : u.myK = s.myK := by rw [only, ← h.myK]; rfl
  have me : u.me = s.me := by rw [only, ← h.me]; rfl
  rw [State.escapeOn_me (by rw [cur, myK]; exact own), State.retire, State.me_setMe, me] at done
  have g := retires_completeAt u { s.me with escape := s.me.escape || !(u.revisioned v.task va || v.sup) } (s.me.pc + w64 4)
  rw [← done] at g
  have escape : t.me.escape = (s.me.escape || !(u.revisioned v.task va || v.sup)) := by rw [g.context, Context.passed_escape]
  obtain ⟨mem, hostMem, poison⟩ : t.mem = u.mem ∧ t.hostMem = u.hostMem ∧ t.poison = u.poison := by rw [done]; exact ⟨rfl, rfl, rfl⟩
  refine ⟨fun far x => ?_, ?_⟩
  · unfold State.byteAt State.nearByte State.farByte
    rw [mem, hostMem]
  · rw [escape, mem, hostMem, poison, ← only]
    exact g

/-! ## What a store in a phase leaves (R211) -/

theorem Context.holdElem_only (x : Context) (seq : Nat) (e : ElemStore) :
    x.holdElem seq e = { x with holdList := (x.holdElem seq e).holdList } := by
  unfold Context.holdElem
  cases x.holdList.getLast? with
  | none => rfl
  | some h => dsimp only; split <;> rfl

/-- The store that joins a hold list is its last element store, of its youngest store instruction. -/
theorem Context.holdElem_last (x : Context) (seq : Nat) (e : ElemStore) :
    (x.holdElem seq e).holdList.flatMap (fun h => h.stores) = x.holdList.flatMap (fun h => h.stores) ++ [e] ∧
      ((x.holdElem seq e).holdList.getLast?).map (fun h => h.seq) = some seq := by
  unfold Context.holdElem
  cases last : x.holdList.getLast? with
  | none =>
    rw [List.getLast?_eq_none_iff.1 last]
    exact ⟨rfl, rfl⟩
  | some h =>
    obtain ⟨older, parts⟩ := List.getLast?_eq_some_iff.1 last
    by_cases same : h.seq = seq <;> simp [parts, same]

/-- A context after a scalar store that its phase holds and counts. -/
def Context.heldStore (x : Context) (e : ElemStore) : Context :=
  { x.holdElem x.seq e with holdCount := x.holdCount + 1, seq := x.seq + 1 }

theorem Context.heldStore_only (x : Context) (e : ElemStore) : x.heldStore e =
    { x with holdList := (x.holdElem x.seq e).holdList, holdCount := x.holdCount + 1, seq := x.seq + 1 } := by
  rw [Context.heldStore, Context.holdElem_only]

/-- A phase holds the store of an ordinary address: neither the spill room nor the PAD serves it. -/
theorem holdsElem_ordinary {s : State} {va n : Nat} {p : Phys} (h : Ordinary s va n true p) {v : View} (mine : v.isMine s)
    (bs : List Byte) : s.holdsElem v (.mem va bs) = true := by
  rw [State.holdsElem, ElemStore.globalOf]
  dsimp only
  rw [h.spillOf mine (.refl s), Option.isNone_none]

theorem State.setMe_eq_setCtx (s : State) (x : Context) : s.setMe x = s.setCtx s.cur s.myK x := rfl

/-- In a phase the store of an ordinary address is translated and held. -/
theorem performAll_held {s : State} {va n seq : Nat} {p : Phys} {bs : List Byte} (h : Ordinary s va n true p) {v : View}
    (mine : v.isMine s) (own : v.ctx = some (s.cur, s.myK)) :
    ∃ m, performAll v seq true [.mem va bs] s = .all (m.setMe (s.me.holdElem seq (.mem va bs))) ∧ Passes s m := by
  obtain ⟨m, translated, passes⟩ := translate_ordinary h v mine.sup mine.task
  refine ⟨m, ?_, passes⟩
  have held : m.setCtx s.cur s.myK ((m.ctx s.cur s.myK).holdElem seq (.mem va bs)) = m.setMe (s.me.holdElem seq (.mem va bs)) := by
    rw [State.setMe_eq_setCtx, passes.1.cur, passes.1.myK, passes.1.ctx]; rfl
  have stored : (storeElem v seq true (.mem va bs)).run s = .ok ((), m.setMe (s.me.holdElem seq (.mem va bs))) := by
    unfold storeElem
    rw [X.get_bind, holdsElem_ordinary h mine]
    refine (X.bind_ok translated).trans ?_
    rw [← held, own]
    rfl
  simp only [performAll, ElemStore.globalOf, h.unparkedFor mine, stored]
  rfl

/-- The store instruction of an ordinary address in a phase that is not full. -/
theorem seqStore_held {s : State} {va n : Nat} {p : Phys} (h : Ordinary s va n true p) (phase : s.me.phase = true)
    (space : s.me.holdCount < 32) (i : Instr) (bs : List Byte) :
    ∃ m, (seqStore i [.mem va bs]).run s = .ok ((), m.setMe (s.me.heldStore (.mem va bs))) ∧ Passes s m := by
  have mine := s.myView_isMine true
  obtain ⟨m, performed, passes⟩ := performAll_held (seq := s.me.seq) (bs := bs) h mine rfl
  refine ⟨m, ?_, passes⟩
  have holds := holdsElem_ordinary h mine bs
  have issued : (m.setMe (s.me.holdElem s.me.seq (.mem va bs))).setMe
      { s.me.holdElem s.me.seq (.mem va bs) with holdCount := s.me.holdCount + bit true, seq := s.me.seq + 1 } =
      m.setMe (s.me.heldStore (.mem va bs)) := State.setMe_setMe ..
  unfold seqStore
  rw [M.get_bind]
  simp only [phase, List.any_cons, holds, Bool.true_or, Bool.true_and, space, performed, State.me_setMe, issued]
  rfl

/-- A scalar store in a phase that is not full is held and completes. -/
theorem scalarStore_held {s : State} {i : Instr} {r a : XReg} {imm : BitVec 12} {n : Nat} {p : Phys} {va : Word}
    (address : va = s.x a + imm.signExtend 64) (aligned : va.toNat % n = 0)
    (window : a = 62 → s.me.inWindow va.toNat = true) (ordinary : Ordinary s va.toNat n true p) (ready : Ready s va.toNat n true)
    (phase : s.me.phase = true) (space : s.me.holdCount < 32) :
    ∃ m, Passes s m ∧ s.scalarStore i r a imm n =
      .next ((m.setMe (s.me.heldStore (.mem va.toNat (leBytes n (s.x r).toNat)))).retire 4) := by
  subst address
  obtain ⟨m, stored, passes⟩ := seqStore_held ordinary phase space i (leBytes n (s.x r).toNat)
  refine ⟨m, passes, attempt_ok ?_⟩
  rw [M.bind_ok (seqCheck_ok aligned window ordinary.below), M.bind_ok (seqOrder_ok ready)]
  exact (M.bind_ok stored).trans rfl

/-- What the completion of a held store leaves. -/
theorem retires_heldStore (s m : State) (e : ElemStore) {t : State} (done : t = (m.setMe (s.me.heldStore e)).retire 4) :
    t.me.holdList = (s.me.holdElem s.me.seq e).holdList ∧
      Retires m t { s.me with holdList := t.me.holdList, holdCount := s.me.holdCount + 1, seq := s.me.seq + 1 } (s.me.pc + 4) := by
  rw [Context.heldStore_only, State.retire, State.me_setMe] at done
  have g := retires_completeAt m
    { s.me with holdList := (s.me.holdElem s.me.seq e).holdList, holdCount := s.me.holdCount + 1, seq := s.me.seq + 1 } (s.me.pc + w64 4)
  rw [← done] at g
  have holdList : t.me.holdList = (s.me.holdElem s.me.seq e).holdList := by rw [g.context, Context.passed_holdList]
  exact ⟨holdList, by rw [holdList]; exact g⟩

/-! ## The statement -/

/-- The scalar stores are one operation at four sizes. -/
theorem exec_scalarStore {s : State} {r a : XReg} {imm : BitVec 12} {i : Instr} {n : Nat}
    (listed : (i, n) ∈ [(Instr.stb r a imm, 1), (.sth r a imm, 2), (.stw r a imm, 4), (.std r a imm, 8)]) :
    exec i s = s.scalarStore i r a imm n := by
  simp only [List.mem_cons, List.not_mem_nil, Prod.mk.injEq, or_false] at listed
  rcases listed with ⟨rfl, rfl⟩ | ⟨rfl, rfl⟩ | ⟨rfl, rfl⟩ | ⟨rfl, rfl⟩ <;> rfl

/-- Settles O6: outside a phase the store completes over the bytes that it stores (`retires_storeAt`), in a phase over the
store that joins the hold list (`retires_heldStore`). -/
theorem storeResults : Obligations.StoreResults := by
  refine ⟨fun s r a imm va p address window outside i n listed aligned ordinary ready => ?memory,
    fun s r a imm va p address window phase space i n listed aligned ordinary ready => ?held⟩
  case memory =>
    subst address
    obtain ⟨m, passes, ran⟩ := scalarStore_ok (i := i) (r := r) rfl aligned window ordinary ready outside
    obtain ⟨same, retires⟩ := retires_storeAt passes.1 (v := { s.myView with inPhase := false }) rfl p (leBytes n (s.x r).toNat)
      (s.x a + imm.signExtend 64).toNat rfl
    refine ⟨_, m, (exec_scalarStore listed).trans ran, passes.1, fun far x => ?_, retires⟩
    rw [same, State.byteAt_storeAt, length_leBytes]
    by_cases there : far = p.far ∧ p.addr ≤ x ∧ x < p.addr + n
    · rw [if_pos there, if_pos there, getD_leBytes_word (by omega)]
    · rw [if_neg there, if_neg there, passes.1.byteAt]
  case held =>
    subst address
    obtain ⟨m, passes, ran⟩ := scalarStore_held (i := i) (r := r) rfl aligned window ordinary ready phase space
    obtain ⟨holdList, retires⟩ := retires_heldStore s m
      (.mem (s.x a + imm.signExtend 64).toNat (leBytes n (s.x r).toNat)) rfl
    obtain ⟨joined, youngest⟩ := s.me.holdElem_last s.me.seq (.mem (s.x a + imm.signExtend 64).toNat (leBytes n (s.x r).toNat))
    refine ⟨_, m, (exec_scalarStore listed).trans ran, passes.1, ?_, ?_, retires⟩
    · rw [holdList, joined]
    · rw [holdList, youngest]

end Sys2Proof.Machine
end

section
/-! PROOF. What a context, a core and the module are after an entry of a queue changes and after a landing: the laws of
QUEUE_ENTRY_START, QUEUE_ENTRY_COMPLETE and LOAD_DATA_RETURN (R120, R278, R279, R340). -/

namespace Sys2Proof.Machine

/-! ## Contexts of the module -/

@[simp] theorem State.core_setCtx_self (s : State) (c : Nat) (k : Bool) (x : Context) :
    (s.setCtx c k x).core c = (s.core c).setCtx k x := State.core_setCore_self s c _

theorem State.core_setCtx_ne (s : State) {c n : Nat} (other : n ≠ c) (k : Bool) (x : Context) :
    (s.setCtx c k x).core n = s.core n := State.core_setCore_ne s other _

@[simp] theorem State.ctx_setCtx_self (s : State) (c : Nat) (k : Bool) (x : Context) : (s.setCtx c k x).ctx c k = x := by
  rw [State.ctx, State.core_setCtx_self, Core.ctx_setCtx_self]

@[simp] theorem State.ctx_setCtx_not (s : State) (c : Nat) (k : Bool) (x : Context) :
    (s.setCtx c k x).ctx c (!k) = s.ctx c (!k) := by
  rw [State.ctx, State.core_setCtx_self, Core.ctx_setCtx_not, State.ctx]

theorem Core.setCtx_setCtx (c : Core) (k : Bool) (x y : Context) : (c.setCtx k x).setCtx k y = c.setCtx k y := by
  cases k <;> rfl

theorem State.setCtx_setCtx (s : State) (c : Nat) (k : Bool) (x y : Context) :
    (s.setCtx c k x).setCtx c k y = s.setCtx c k y := by
  rw [State.setCtx, State.core_setCtx_self, Core.setCtx_setCtx, State.setCtx, State.setCore_setCore, State.setCtx]

/-! ## Entries -/

@[simp] theorem Context.queue_setQueue (x : Context) (q : QName) (l : List Entry) : (x.setQueue q l).queue q = l := by
  cases q <;> rfl

theorem Context.setQueue_setQueue (x : Context) (q : QName) (l m : List Entry) :
    (x.setQueue q l).setQueue q m = x.setQueue q m := by
  cases q <;> rfl

/-- Of two new selves of one entry the later stays. -/
theorem Context.setEntry_setEntry (x : Context) (q : QName) {e f : Entry} (same : f.seq = e.seq) :
    (x.setEntry q e).setEntry q f = x.setEntry q f := by
  have twice : ∀ g : Entry, (if (if g.seq == e.seq then e else g).seq == f.seq then f else if g.seq == e.seq then e else g) =
      if g.seq == f.seq then f else g := by
    intro g
    by_cases mine : g.seq = e.seq
    · simp [mine, same]
    · simp [mine]
  rw [Context.setEntry, Context.setEntry, Context.queue_setQueue, Context.setQueue_setQueue, List.map_map, Context.setEntry]
  exact congrArg (x.setQueue q) (List.map_congr_left fun g _ => twice g)

/-! ## A place that is written (R59, R120) -/

@[simp] theorem Core.row_setCtx (c : Core) (k : Bool) (x : Context) (p : Nat) : (c.setCtx k x).row p = c.row p := by
  simp only [Core.row, Core.setCtx_rows, Core.setCtx_rowSeed]

/-- A write of a row leaves every field of a context but its void elements. -/
theorem Core.ctx_putPlace_row (c : Core) (k : Bool) (p : Nat) (r void : Row) :
    (c.putPlace k (.row p) r void).ctx k = (c.ctx k).setVoid (.row p) void := by
  rw [Core.putPlace, Core.ctx_setCtx_self]; rfl

/-- A write of the latch leaves every other field of a context but its void elements. -/
theorem Core.ctx_putPlace_latch (c : Core) (k : Bool) (r void : Row) :
    (c.putPlace k .latch r void).ctx k = { c.ctx k with latch := r }.setVoid .latch void := by
  rw [Core.putPlace, Core.ctx_setCtx_self, Core.setPlace, Core.ctx_setCtx_self]

theorem Core.ctx_putPlace_not (c : Core) (k : Bool) (d : Dest) (r void : Row) :
    (c.putPlace k d r void).ctx (!k) = c.ctx (!k) := by
  rw [Core.putPlace, Core.ctx_setCtx_not]
  cases d with
  | row p => rfl
  | ofile i | latch => exact Core.ctx_setCtx_not c k _

theorem Core.row_putPlace_row (c : Core) (k : Bool) (p q : Nat) (r void : Row) :
    (c.putPlace k (.row p) r void).row q = if q = p then r else c.row q := by
  rw [Core.putPlace, Core.row_setCtx, Core.setPlace, Core.row]
  by_cases here : q = p
  · rw [if_pos here, here, findKey_setKey_self]
  · rw [if_neg here, findKey_setKey_ne here, Core.row]

theorem Core.row_putPlace_latch (c : Core) (k : Bool) (r void : Row) (q : Nat) :
    (c.putPlace k .latch r void).row q = c.row q := by
  rw [Core.putPlace, Core.row_setCtx, Core.setPlace, Core.row_setCtx]

theorem Core.holdList_putPlace (c : Core) (k : Bool) (d : Dest) (r void : Row) :
    ((c.putPlace k d r void).ctx k).holdList = (c.ctx k).holdList := by
  cases d with
  | row p => rw [Core.ctx_putPlace_row]; rfl
  | ofile i => rw [Core.putPlace, Core.ctx_setCtx_self, Core.setPlace, Core.ctx_setCtx_self]; rfl
  | latch => rw [Core.ctx_putPlace_latch]; rfl

/-! ## A landing (R120, R279) -/

/-- A landing leaves what the phase of its context holds. -/
theorem Core.holdList_land (c : Core) (k : Bool) (l : Landing) : ((c.land k l).ctx k).holdList = (c.ctx k).holdList := by
  have writes : ∀ (ws : List RowWrite) (d : Core),
      ((ws.foldl (fun d w => d.landOne k w) d).ctx k).holdList = (d.ctx k).holdList := by
    intro ws
    induction ws with
    | nil => exact fun _ => rfl
    | cons w ws rest => exact fun d => (rest _).trans (d.holdList_putPlace k _ _ _)
  have tile : ∀ d : Core, ((d.landTile l.tile).ctx k).holdList = (d.ctx k).holdList := by
    intro d
    unfold Core.landTile
    split <;> rfl
  have pred : ∀ x : Context, ((x.landPred l.pred).addFlags l.flags).holdList = x.holdList := by
    intro x
    unfold Context.landPred
    split
    · exact x.wp_holdList _ _
    · rfl
  rw [Core.land, Core.ctx_setCtx_self, pred, tile]
  split
  · rw [Core.holdList_putPlace, writes]
  · exact writes _ _

/-- R120, R278: the result of a vector instruction lands on a row, and the latch receives what the row then holds. -/
theorem Core.land_row (c : Core) (k : Bool) (p : Nat) (v m : Row) (fl : BitVec 5) :
    let t := c.land k { writes := [{ dest := .row p, val := v, mask := m }], latch := some (.row p), pred := none, flags := fl }
    t.row p = (c.row p &&& ~~~m) ||| (v &&& m) ∧ (t.ctx k).latch = t.row p ∧ (∀ q, q ≠ p → t.row q = c.row q) ∧
      (t.ctx k).status = (c.ctx k).status ||| fl.zeroExtend 64 ∧ t.ctx (!k) = c.ctx (!k) := by
  intro t
  obtain ⟨d, written⟩ : ∃ d, d = c.landOne k { dest := .row p, val := v, mask := m } := ⟨_, rfl⟩
  obtain ⟨e, latched⟩ : ∃ e, e = d.putPlace k .latch (d.row p) ((d.ctx k).voidOf (.row p)) := ⟨_, rfl⟩
  have lands : t = e.setCtx k ((e.ctx k).addFlags fl) := by rw [latched, written]; rfl
  have rows : ∀ q, t.row q = d.row q := fun q => by rw [lands, Core.row_setCtx, latched, Core.row_putPlace_latch]
  have ctx : t.ctx k = (e.ctx k).addFlags fl := by rw [lands, Core.ctx_setCtx_self]
  refine ⟨?_, ?_, fun q other => ?_, ?_, ?_⟩
  · rw [rows, written, Core.landOne, Core.row_putPlace_row, if_pos rfl, Core.place]
  · rw [rows, ctx, latched, Core.ctx_putPlace_latch]; rfl
  · rw [rows, written, Core.landOne, Core.row_putPlace_row, if_neg other]
  · rw [ctx, latched, Core.ctx_putPlace_latch, written, Core.landOne, Core.ctx_putPlace_row]; rfl
  · rw [lands, Core.ctx_setCtx_not, latched, Core.ctx_putPlace_not, written, Core.landOne, Core.ctx_putPlace_not]

/-! ## Check bits (R191) -/

/-- Nothing differs but the record of uncorrectable sectors. -/
def OnlyPoison (s t : State) : Prop := ∃ p, t = { s with poison := p }

theorem OnlyPoison.refl (s : State) : OnlyPoison s s := ⟨s.poison, rfl⟩

theorem OnlyPoison.trans {s t u : State} (h : OnlyPoison s t) (g : OnlyPoison t u) : OnlyPoison s u := by
  obtain ⟨p, rfl⟩ := h
  obtain ⟨r, rfl⟩ := g
  exact ⟨r, rfl⟩

theorem onlyPoison_rewriteRow (s : State) (c phys : Nat) (mask : Row) : OnlyPoison s (s.rewriteRow c phys mask) := by
  unfold State.rewriteRow
  split
  · exact .refl s
  · exact ⟨_, rfl⟩

theorem onlyPoison_rewriteRoom (s : State) (c : Nat) (r : Room) (off n : Nat) : OnlyPoison s (s.rewriteRoom c r off n) := by
  unfold State.rewriteRoom
  split
  · exact .refl s
  · exact ⟨_, rfl⟩

theorem onlyPoison_foldl {α : Type} {f : State → α → State} (each : ∀ t a, OnlyPoison t (f t a)) (l : List α) (s : State) :
    OnlyPoison s (l.foldl f s) := by
  induction l generalizing s with
  | nil => exact .refl s
  | cons a l rest => exact (each s a).trans (rest _)

/-- What a landing does to the module: its core has landed it, and what it wrote carries new check bits. -/
theorem State.landOn_eq (s : State) (c : Nat) (k : Bool) (l : Landing) :
    ∃ p, s.landOn c k l = ({ s with poison := p } : State).setCore c ((s.core c).land k l) := by
  have checks : ∃ u, s.landOn c k l = u.setCore c ((u.core c).land k l) ∧ OnlyPoison s u := by
    refine ⟨_, rfl, ?_⟩
    have rows : ∀ (t : State) (w : RowWrite),
        OnlyPoison t (match w.dest with | .row p => t.rewriteRow c p w.mask | .ofile _ | .latch => t) := by
      intro t w
      cases w.dest with
      | row p => exact onlyPoison_rewriteRow t c p w.mask
      | ofile i | latch => exact .refl t
    split
    · exact (onlyPoison_foldl rows _ _).trans (onlyPoison_rewriteRoom _ _ _ _ _)
    · exact onlyPoison_foldl rows _ _
  obtain ⟨u, lands, p, rfl⟩ := checks
  exact ⟨p, lands⟩

end Sys2Proof.Machine
end

section
/-! PROOF. How an entry of CQ starts, how one completes, and how a load's row returns (R279, R338, R340). -/

namespace Sys2Proof.Machine

/-! ## What a vector instruction is (R118, R125) -/

/-- A vector instruction starts as one: every form that starts otherwise has no vector header. -/
theorem startOf_vector {b : Starting} (vector : b.e.instr.vhdr?.isSome = true) : startOf b = startVector b := by
  unfold startOf
  generalize b.e.instr = i at vector ⊢
  cases i <;> simp only [Instr.vhdr?, Option.isSome_none, Bool.false_eq_true] at vector <;> rfl

/-- A vector instruction drives no plane of the array, and the array's gate stands open to it. -/
theorem array_vector {i : Instr} (vector : i.vhdr?.isSome = true) :
    Instr.arrayPlane? i = none ∧ ∀ (s : State) (c : Nat), s.arrayGate c i = .ready := by
  cases i <;> simp only [Instr.vhdr?, Option.isSome_none, Bool.false_eq_true] at vector <;> exact ⟨rfl, fun _ _ => rfl⟩

/-! ## Its start (R279, R338) -/

/-- With no uncorrectable sector anywhere a start is the computation alone. -/
theorem startVector_ok {b : Starting} {s : State} {v : VOut} (sound : s.poison = [])
    (computed : (s.readerFor b).vector (illegalOf (encode b.e.instr)) b.e.instr = .ok v) (whole : v.poison = none) :
    (startVector b).run s = .ok (.land v.land, s) := by
  have clean : s.rowErrors b.c b.e = [] := by rw [State.rowErrors, sound]; rfl
  unfold startVector
  rw [X.get_bind]
  simp only [clean, List.foldl_nil, computed, whole]
  rfl

/-- The module after an entry of CQ has started: the entry alone has moved, and one free value's number is used. -/
def State.cqStarted (s : State) (c : Nat) (k : Bool) (e : Entry) (l : Landing) : State :=
  { s.setCtx c k ((s.ctx c k).setEntry .cq { e with phase := .started l, moved := s.time }) with fresh := s.fresh + 1 }

/-- A vector instruction whose pops are done is computed at once, and its writes wait to land. -/
theorem State.startEntry_vector {s : State} {c : Nat} {k : Bool} {e : Entry} {v : VOut} {x : Context}
    (vector : e.instr.vhdr?.isSome = true) (popped : e.popped = true) (sound : s.poison = [])
    (moved : x = (s.ctx c k).setEntry .cq { e with moved := s.time }) (settled : x.settle = x)
    (computed : Reader.vector { core := (s.setCtx c k x).core c, k := k, t := e.taken, free := s.fresh }
      (illegalOf (encode e.instr)) e.instr = .ok v)
    (whole : v.poison = none) : s.startEntry c k .cq e = .go (s.cqStarted c k e v.land) := by
  have self : ({ e with popped := true, moved := s.time } : Entry) = { e with moved := s.time } := by rw [← popped]
  have safe : (s.setCtx c k x).operandErr c e = none := if_pos (by rw [vector, Bool.or_true])
  have begun : ∀ cancel, (startOf ⟨c, k, { e with moved := s.time }, .cq, cancel⟩).run (s.setCtx c k x) =
      .ok (.land v.land, s.setCtx c k x) := fun cancel =>
    startOf_vector (b := ⟨c, k, { e with moved := s.time }, .cq, cancel⟩) vector ▸ startVector_ok sound computed whole
  have replaced : (s.setCtx c k x).setEntry c k .cq { e with popped := true, phase := .started v.land, moved := s.time } =
      s.setCtx c k ((s.ctx c k).setEntry .cq { e with phase := .started v.land, moved := s.time }) := by
    rw [State.setEntry, State.ctx_setCtx_self, State.setCtx_setCtx, moved, Context.setEntry_setEntry, popped]
    rfl
  simp only [State.startEntry, popped, if_true, List.foldl_nil, self, ← moved, settled, safe, begun]
  exact congrArg (fun u : State => Tried.go { u with fresh := u.fresh + 1 }) replaced

/-- R279, R338: the head of CQ, a vector instruction that may start, starts. -/
theorem exec_queueEntryStart_vector {s u : State} {c : AnyCore} {k : Bool} {e : Entry}
    (head : s.startable c.toNat k .cq = some e) (vector : e.instr.vhdr?.isSome = true)
    (starts : s.startEntry c.toNat k .cq e = .go u) : exec (.queueEntryStart c k .cq) s = .next u := by
  obtain ⟨plane, gate⟩ := array_vector vector
  have room : s.arrayRoom c.toNat e.instr = true := by rw [State.arrayRoom, plane]; rfl
  change (s.tryStart c.toNat k .cq).outcome s = _
  simp only [State.tryStart, head, gate, room, if_true, starts]
  rfl

/-- A start leaves the rows, every other context and core, and memory. -/
theorem State.cqStarted_leaves (s : State) (c : Nat) (k : Bool) (e : Entry) (l : Landing) :
    (s.cqStarted c k e l).ctx c k = (s.ctx c k).setEntry .cq { e with phase := .started l, moved := s.time } ∧
      (s.cqStarted c k e l).ctx c (!k) = s.ctx c (!k) ∧ ((s.cqStarted c k e l).core c).rows = (s.core c).rows ∧
      (∀ n, n ≠ c → (s.cqStarted c k e l).core n = s.core n) ∧ (s.cqStarted c k e l).fresh = s.fresh + 1 ∧
      SameBytes s (s.cqStarted c k e l) :=
  ⟨s.ctx_setCtx_self c k _, s.ctx_setCtx_not c k _, (congrArg Core.rows (s.core_setCtx_self c k _)).trans (Core.setCtx_rows _ _ _),
    fun _ other => s.core_setCtx_ne other k _, rfl, fun _ => rfl, fun _ => rfl⟩

/-! ## A landing and what follows (R120, R279, R340) -/

/-- The module after a landing, once the landing's entry owes its pushes. -/
theorem State.landOn_finish (s : State) (c : Nat) (k : Bool) (l : Landing) (q : QName) (e : Entry) :
    ∃ p, (s.landOn c k l).setCtx c k (((s.landOn c k l).ctx c k).finish q e) =
      (({ s with poison := p } : State).setCore c ((s.core c).land k l)).setCtx c k
        ((((s.core c).land k l).ctx k).finish q e) := by
  obtain ⟨p, lands⟩ := s.landOn_eq c k l
  exact ⟨p, by rw [lands, State.ctx, State.core_setCore_self]⟩

theorem State.ctx_landOn (s : State) (c : Nat) (k : Bool) (l : Landing) : (s.landOn c k l).ctx c k = ((s.core c).land k l).ctx k := by
  obtain ⟨p, lands⟩ := s.landOn_eq c k l
  rw [lands, State.ctx, State.core_setCore_self]

/-- The writes of a CQ entry may land where no earlier entry that waits to land writes a place of them. -/
theorem Context.cqLandable_of {x : Context} {e : Entry} {l : Landing}
    (clear : ∀ f ∈ x.cq, f.seq < e.seq → ∀ m, f.phase = .started m → l.meets m = false) : x.cqLandable e l = true := by
  refine List.all_eq_true.mpr fun f mem => ?_
  by_cases later : e.seq ≤ f.seq
  · rw [decide_eq_true later, Bool.true_or]
  · rw [Bool.or_eq_true]
    refine .inr ?_
    split
    next m waits => rw [clear f mem (Nat.lt_of_not_le later) m waits]; rfl
    next => rfl

/-- R279: a CQ entry that may land completes, unless its phase holds it. -/
theorem State.completeCq_lands {s : State} {c : Nat} {k : Bool} {e : Entry} {l : Landing} (started : e.phase = .started l)
    (keeps : l.drops = []) (landable : (s.ctx c k).cqLandable e l = true)
    (advances : (Instr.arrayPlane? e.instr).isNone = true ∨ (s.quad (quadOf c)).mayAdvance (inQuad c) = true)
    (free : (s.ctx c k).holds e.seq = false) :
    s.completeCq c k e = .go ((s.landOn c k l).setCtx c k (((s.landOn c k l).ctx c k).finish .cq e)) := by
  have unheld : ((s.landOn c k l).ctx c k).holds e.seq = false := by
    rw [Context.holds, State.ctx_landOn, Core.holdList_land]; exact free
  have drops : (s.landOn c k l).dropHolders l.drops = s.landOn c k l := by rw [keeps]; rfl
  simp only [State.completeCq, started, landable, (Bool.or_eq_true _ _).mpr advances, Bool.and_self, if_true, drops, unheld,
    Bool.false_eq_true, if_false]

theorem exec_queueEntryComplete_cq {s u : State} {c : AnyCore} {k : Bool} {n : Nat} {e : Entry}
    (present : (s.ctx c.toNat k).cq[n]? = some e) (completes : s.completeCq c.toNat k e = .go u) :
    exec (.queueEntryComplete c k .cq n) s = .next u := by
  change (s.tryComplete c.toNat k .cq n).outcome s = _
  simp only [State.tryComplete, Context.queue, present, completes]
  rfl

/-- R340: outside a scored region the oldest row of the load data queue is written, and its load completes. -/
theorem State.loadReturn_oldest {s : State} {c : Nat} {k : Bool} {e : Entry} {l : Landing}
    (oldest : (s.ctx c k).lq.find? (fun e => match e.phase with | .arrived _ => true | _ => false) = some e)
    (arrived : e.phase = .arrived l) (unscored : e.taken.scored = false) :
    s.loadReturn c k = .go ((s.landOn c k l).setCtx c k (((s.landOn c k l).ctx c k).finish .lq e)) := by
  unfold State.loadReturn
  dsimp only
  -- the hypothesis writes the search's predicate out again, so it meets the model's up to unfolding alone
  erw [oldest]
  simp only [arrived, unscored, Bool.false_and, Bool.false_eq_true, if_false]

theorem exec_loadDataReturn {s u : State} {c : AnyCore} {k : Bool} (returns : s.loadReturn c.toNat k = .go u) :
    exec (.loadDataReturn c k) s = .next u := by
  change (s.loadReturn c.toNat k).outcome s = _
  rw [returns]
  rfl

/-! ## The statement -/

/-- R140: what operand wn names. -/
theorem State.take_row (s : State) (i : Instr) (n : BitVec 8) : (s.take i).dest (.row n) =
    some (.row ((if s.myK then s.here.h else 0) + (s.me.rotb.toNat + n.toNat) % s.here.h)) := by
  change some (Dest.row (physRow s.myK s.here.h s.me.rotb.toNat n)) = _
  rw [physRow]
  cases s.myK <;> simp [bit]

/-- Settles O29: a start through the equation of `startEntry` for a vector instruction, a completion and a load's return
through what a landing leaves (`State.landOn_finish`), and the row itself through `Core.land_row`. -/
theorem queueEntries : Obligations.QueueEntries := by
  refine ⟨fun s i n _ => s.take_row i n, ?starts, ?completes, Core.land_row, ?returns⟩
  case starts =>
    intro s c k e v x head vector popped sound moved settled computed whole
    exact ⟨_, exec_queueEntryStart_vector head vector
      (State.startEntry_vector vector popped sound moved settled computed whole), s.cqStarted_leaves c.toNat k e v.land⟩
  case completes =>
    intro s c k n e l present started keeps clear unheld advances
    have free : (s.ctx c.toNat k).holds e.seq = false := by
      rw [Context.holds, List.any_eq_false]
      exact fun h mem => by simpa using unheld h mem
    obtain ⟨p, lands⟩ := s.landOn_finish c.toNat k l .cq e
    exact ⟨p, lands ▸ exec_queueEntryComplete_cq present (State.completeCq_lands started keeps (Context.cqLandable_of clear)
      (advances.imp_left Option.isNone_iff_eq_none.mpr) free)⟩
  case returns =>
    intro s c k e l oldest arrived unscored
    obtain ⟨p, lands⟩ := s.landOn_finish c.toNat k l .lq e
    exact ⟨p, lands ▸ exec_loadDataReturn (State.loadReturn_oldest oldest arrived unscored)⟩

end Sys2Proof.Machine
end

section
/-! PROOF. The integer that an array cell drains into (R74, R317): the floor of its value, wrapped or clamped, in every
type of R370; and a type wider than those, where the cut of `floorDy` at 2^200 shows. -/

namespace Sys2Proof.Machine

/-! ## The integer below a dyadic number -/

/-- A negative shift divides, and rounds down. -/
theorem floorDy_negSucc (m : Int) (k : Nat) : (floorDy m (Int.negSucc k)).1 = m / 2 ^ (k + 1) := by
  by_cases zero : m = 0
  · simp [floorDy, zero]
  by_cases short : lg m.natAbs + 1 < k + 1
  · have below : m.natAbs < 2 ^ (k + 1) :=
      Nat.lt_log2_self.trans_le (Nat.pow_le_pow_right (by decide) (by rw [lg] at short; omega))
    have bounds : -(2 ^ (k + 1) : Int) < m ∧ m < 2 ^ (k + 1) := by
      have : (m.natAbs : Int) < 2 ^ (k + 1) := by exact_mod_cast below
      omega
    by_cases neg : m < 0
    · have quotient : m / 2 ^ (k + 1) = -1 := by
        rw [Int.ediv_eq_iff_of_pos (by positivity)]; omega
      simp [floorDy, zero, short, neg, quotient]
    · simp [floorDy, zero, short, neg, Int.ediv_eq_zero_of_lt (Int.not_lt.mp neg) bounds.2]
  · simp [floorDy, zero, short]

/-- Where it is not cut, `floorDy` is the floor. -/
theorem floorDy_eq_floor {m s : Int} (uncut : (lg m.natAbs : Int) + s ≤ 200) : (floorDy m s).1 = ⌊(m : ℚ) * 2 ^ s⌋ := by
  cases s with
  | ofNat k =>
    have short : ¬ 200 < lg m.natAbs + k := by have := uncut; simp only [Int.ofNat_eq_natCast] at this; omega
    have whole : (m : ℚ) * 2 ^ (Int.ofNat k) = ((m * 2 ^ k : Int) : ℚ) := by push_cast; rfl
    rw [whole, Int.floor_intCast, floorDy]
    by_cases zero : m = 0
    · simp [zero]
    · simp [zero, short]
  | negSucc k =>
    rw [floorDy_negSucc, zpow_negSucc, ← div_eq_mul_inv]
    exact_mod_cast (Rat.floor_intCast_div_natCast m (2 ^ (k + 1))).symm

/-- Past 2^200 a magnitude is cut to 2^200. -/
theorem floorDy_cut {m : Int} {k : Nat} (nonzero : m ≠ 0) (far : 200 < lg m.natAbs + k) :
    (floorDy m k).1 = if m < 0 then -(2 ^ 200) else 2 ^ 200 := by
  change (floorDy m (Int.ofNat k)).1 = _
  rw [floorDy, if_neg nonzero, if_pos far]

/-! ## Wrapping and clamping (R50) -/

theorem intMin_le_intMax (u : Bool) (w : Nat) : intMin u w ≤ intMax u w := by
  have wide : (1 : Int) ≤ 2 ^ w := one_le_pow₀ (by decide)
  have half : (1 : Int) ≤ 2 ^ (w - 1) := one_le_pow₀ (by decide)
  cases u
  · change -(2 ^ (w - 1) : Int) ≤ 2 ^ (w - 1) - 1; omega
  · change (0 : Int) ≤ 2 ^ w - 1; omega

/-- What `satInt` writes. -/
theorem satInt_fst (sat u : Bool) (w : Nat) (v : Int) :
    (satInt sat u w v).1 = ((if sat then clampInt u w v else v) % 2 ^ w).toNat := by
  have order := intMin_le_intMax u w
  cases sat
  · rfl
  · simp only [satInt, clampInt, Bool.not_true, Bool.false_eq_true, if_false, if_true]
    split
    next low => rw [min_eq_right (low.le.trans order), max_eq_left low.le, wrapInt]
    next high =>
      split
      next above => rw [min_eq_left above.le, max_eq_right order, wrapInt]
      next inside => rw [min_eq_right (not_lt.mp inside), max_eq_right (not_lt.mp high), wrapInt]

/-- The range of an integer type of at most 64 bits lies within 2^64 of zero. -/
theorem intRange_lt {w : Nat} (narrow : w ≤ 64) (u : Bool) : -(2 ^ 64) < intMin u w ∧ intMax u w < 2 ^ 64 := by
  have wide : (2 : Int) ^ w ≤ 2 ^ 64 := pow_le_pow_right₀ (by decide) narrow
  have half : (2 : Int) ^ (w - 1) ≤ 2 ^ 63 := pow_le_pow_right₀ (by decide) (by omega)
  cases u
  · change -(2 ^ 64 : Int) < -(2 ^ (w - 1)) ∧ (2 : Int) ^ (w - 1) - 1 < 2 ^ 64; omega
  · change -(2 ^ 64 : Int) < 0 ∧ (2 : Int) ^ w - 1 < 2 ^ 64; omega

/-- Of a multiple of 2^64 that is not zero, a type of at most 64 bits keeps nothing but the sign. -/
theorem satInt_multiple {w j : Nat} (narrow : w ≤ 64) (long : 64 ≤ j) {n : Int} (nonzero : n ≠ 0) (sat u : Bool) :
    (satInt sat u w (n * 2 ^ j)).1 =
      if sat then wrapInt w (if n < 0 then intMin u w else intMax u w) else 0 := by
  obtain ⟨low, high⟩ := intRange_lt narrow u
  have order := intMin_le_intMax u w
  have large : (2 : Int) ^ 64 ≤ 2 ^ j := pow_le_pow_right₀ (by decide) long
  cases sat
  · exact congrArg Int.toNat (Int.emod_eq_zero_of_dvd (Dvd.dvd.mul_left (pow_dvd_pow 2 (narrow.trans long)) n))
  by_cases neg : n < 0
  · have below : n * 2 ^ j < intMin u w := by nlinarith
    simp only [satInt, Bool.not_true, Bool.false_eq_true, if_false, if_true, below, neg]
  · have above : intMax u w < n * 2 ^ j := by
      have : 1 ≤ n := by omega
      nlinarith
    simp only [satInt, Bool.not_true, Bool.false_eq_true, if_false, if_true, above, neg, not_lt.mpr (order.trans above.le)]

/-! ## The drain of a cell into an integer type (R74, R317) -/

theorem drainPlain_int (sat ftz : Bool) (rm : Rm) {elt : Elt} {c : PCell} (e : Int) (int : elt.fp = none)
    (plain : c.sp = .none) :
    (drainPlain elt sat ftz rm c e).1 = (satInt sat elt.uns elt.bits (floorDy c.v.toInt e).1).1 := by
  simp [drainPlain, int, plain]

theorem PCell.natAbs_v_lt (c : PCell) : c.v.toInt.natAbs < 2 ^ 56 := by
  have := c.v.toInt_lt
  have := c.v.le_toInt
  omega

/-- R74: in a type of at most 64 bits, which every integer type of R370 is, a cell drains into the floor of its value,
wrapped or clamped. -/
theorem drainPlain_int_floor (sat ftz : Bool) (rm : Rm) {elt : Elt} {c : PCell} (e : Int) (int : elt.fp = none)
    (plain : c.sp = .none) (narrow : elt.bits ≤ 64) :
    (drainPlain elt sat ftz rm c e).1 =
      ((if sat then clampInt elt.uns elt.bits ⌊(c.v.toInt : ℚ) * 2 ^ e⌋ else ⌊(c.v.toInt : ℚ) * 2 ^ e⌋) % 2 ^ elt.bits).toNat := by
  rw [drainPlain_int sat ftz rm e int plain, ← satInt_fst]
  by_cases uncut : (lg c.v.toInt.natAbs : Int) + e ≤ 200
  · rw [floorDy_eq_floor uncut]
  by_cases zero : c.v.toInt = 0
  · cases e <;> simp [floorDy, zero]
  have short : lg c.v.toInt.natAbs < 56 := (Nat.log2_lt (Int.natAbs_ne_zero.mpr zero)).mpr c.natAbs_v_lt
  obtain ⟨k, rfl⟩ := Int.eq_ofNat_of_zero_le (show 0 ≤ e by omega)
  have cut : (floorDy c.v.toInt k).1 = (if c.v.toInt < 0 then -1 else 1) * 2 ^ 200 := by
    rw [floorDy_cut zero (by omega)]
    split <;> rfl
  have whole : (c.v.toInt : ℚ) * 2 ^ (k : Int) = ((c.v.toInt * 2 ^ k : Int) : ℚ) := by push_cast; rfl
  rw [cut, whole, Int.floor_intCast, satInt_multiple narrow (by omega) zero,
    satInt_multiple narrow (by decide) (by split <;> decide)]
  by_cases neg : c.v.toInt < 0 <;> simp [neg]

/-! ## A type wider than those of R370 -/

/-- A cell of value 1. -/
def oneCell : PCell := { v := 1, l := 0, sp := .none }

/-- Refutes O26: the clause of TDRAIN's integer column speaks of every element format, of any width. Of 2^201 in 256 bits
the floor is 2^201, and what TDRAIN would give is 2^200, at which `floorDy` cuts. No dtype of R370 is so wide; for those of
at most 64 bits the clause holds (`drainPlain_int_floor`). -/
theorem not_arrayCommands : ¬ Obligations.ArrayCommands := by
  rintro ⟨-, -, -, drains, -, -⟩
  obtain ⟨-, integer, -, -⟩ := drains (Elt.int 256 false) false false .rne oneCell 201 _ rfl rfl
  have given : (drainPlain (Elt.int 256 false) false false .rne oneCell 201).1 = 2 ^ 200 := by decide +kernel
  have one : oneCell.v.toInt = 1 := by decide
  have floor : ⌊(oneCell.v.toInt : ℚ) * 2 ^ (201 : Int)⌋ = 2 ^ 201 := by
    rw [one, show ((1 : Int) : ℚ) * 2 ^ (201 : Int) = ((2 ^ 201 : Int) : ℚ) by norm_num, Int.floor_intCast]
  have claimed := integer rfl
  rw [given, floor] at claimed
  exact absurd claimed (by decide)

end Sys2Proof.Machine
end

section
/-! PROOF. DISPATCH of a ready task (R18, R20, R21, R357): what taking a task and setting a room map leave, and what the
context of a task is at its start. -/

namespace Sys2Proof.Machine

/-! ## The tasks and launches that the dispatcher's books leave -/

/-- A task that no one has passed over reads back as it was. -/
theorem State.task?_markPassed {s : State} {us : List Task} {n : Nat} {t : Task} (task : s.task? n = some t)
    (kept : ∀ u ∈ us, u.id ≠ n) : (s.markPassed us).task? n = some t := by
  have own : t.id = n := (State.task?_some task).2
  have asked : ∀ u : Task, (if us.any (fun v => v.id == u.id) && u.passed.isNone then
      { u with passed := some s.time } else u).id = u.id := fun u => by split <;> rfl
  have unmarked : us.any (fun v => v.id == t.id) = false := by simpa [own] using kept
  rw [State.task?, State.markPassed, List.find?_map,
    show ((fun u : Task => u.id == n) ∘ _) = fun u => u.id == n from funext fun u => congrArg (· == n) (asked u),
    show s.tasks.find? (fun u => u.id == n) = some t from task]
  simp only [Option.map_some, unmarked, Bool.false_and, Bool.false_eq_true, if_false]

theorem State.rivals_id {s : State} {t u : Task} {c : Nat} {k : Bool} (rival : u ∈ s.rivals t c k) : u.id ≠ t.id := by
  have ahead := (List.mem_filter.1 rival).2
  simp only [State.ahead, Bool.and_eq_true, bne_iff_ne] at ahead
  exact ahead.2.1

theorem sameStores_takeTask (s : State) (l : Launch) (t : Task) (c : Nat) (k : Bool) : SameStores s (s.takeTask l t c k) :=
  ⟨rfl, rfl, rfl⟩

/-- The launch after one of its tasks has been dispatched. -/
def Launch.turned (l : Launch) (turn : Nat) : Launch := { l with turn := turn }

theorem State.launch?_takeTask {s : State} {l : Launch} {t : Task} (launch : s.launch? t.launch = some l) (c : Nat) (k : Bool) :
    (s.takeTask l t c k).launch? t.launch = some (l.turned (s.turns + 1)) :=
  have own : l.id = t.launch := State.launch?_id launch
  State.launch?_setLaunch (s := s) launch own

theorem State.task?_takeTask {s : State} {l : Launch} {n : Nat} {t : Task} (task : s.task? n = some t) (c : Nat) (k : Bool) :
    (s.takeTask l t c k).task? n = some t :=
  State.task?_markPassed task fun _ rival => (State.task?_some task).2 ▸ State.rivals_id rival

/-! ## The room map that a task needs (R20, R193) -/

/-- Setting a room map changes its core, and else the books of the core's quad and Lodge alone. -/
theorem sameStores_setMap (s : State) (c : Nat) (l : Launch) :
    SameStores (s.setCore c ((s.core c).setMap l.id ((s.core c).roomsOf l.req.rooms.toNat))) (s.setMap c l) := by
  unfold State.setMap
  dsimp only
  split <;> exact ⟨rfl, rfl, rfl⟩

@[simp] theorem Core.setMap_ctx (c : Core) (launch : Nat) (r : Rooms) (k : Bool) : (c.setMap launch r).ctx k = c.ctx k := rfl

/-- `t` is `s` with core `c` ready for a launch: its contexts stay, and so does all that is not of that core. -/
structure Readied (s t : State) (c launch : Nat) : Prop where
  launch : (t.core c).launch = some launch
  contexts : ∀ k, t.ctx c k = s.ctx c k
  others : ∀ n, n ≠ c → t.core n = s.core n
  bytes : SameBytes s t

/-- Where no saved core state comes back, a core is made ready by its room map. -/
theorem State.readyCore_readied (s : State) (l : Launch) {t : Task} (unsaved : t.save? = none) (c : Nat) (k : Bool) :
    Readied s (s.readyCore l t c k) c l.id := by
  unfold State.readyCore
  split
  case isTrue same => exact ⟨eq_of_beq same, fun _ => rfl, fun _ _ => rfl, fun _ => rfl, fun _ => rfl⟩
  case isFalse =>
    have mapped := sameStores_setMap s c l
    rw [unsaved]
    refine ⟨?_, fun j => ?_, fun n other => ?_, (sameBytes_setCore s c _).trans mapped.sameBytes⟩
    · rw [mapped.core, State.core_setCore_self]; rfl
    · rw [mapped.ctx, State.ctx, State.core_setCore_self, Core.setMap_ctx, State.ctx]
    · rw [mapped.core, State.core_setCore_ne s other]

/-! ## A task's start (R21, R26, R144) -/

theorem Core.occupy_ctx (c : Core) (k j : Bool) (x : Context) : (c.occupy k x).ctx j = (c.setCtx k x).ctx j := by
  unfold Core.occupy; dsimp only; split <;> rfl
theorem Core.occupy_running (c : Core) (k : Bool) (x : Context) : (c.occupy k x).running = true := by
  unfold Core.occupy; dsimp only; split
  · assumption
  · rfl
theorem Core.occupy_launch (c : Core) (k : Bool) (x : Context) : (c.occupy k x).launch = c.launch := by
  unfold Core.occupy; dsimp only; split <;> exact Core.setCtx_launch c k x

/-- A starting task changes its core, and else the books of tasks, launches and free values alone. -/
theorem sameStores_startTask (s : State) (l : Launch) (t : Task) (c : Nat) (k : Bool) :
    SameStores (s.setCore c ((s.core c).occupy k (Context.start k l t (l.freeSlice.getD 0) s.fresh))) (s.startTask l t c k) :=
  ⟨rfl, rfl, rfl⟩

/-- A context whose registers and state are those of a task at its start on context `k`, with a slice of its launch's spill
windows (R21, R136, R144). -/
structure Context.Starts (c : Context) (k : Bool) (l : Launch) (t : Task) (slice : Nat) : Prop where
  mode : c.mode = .live
  task : c.task = some t.id
  pc : c.pc = t.entry
  status : c.status = (if k then 0x8000 else 0) ||| (if l.req.det then 0x2000 else 0)
  loopc : c.loopc = loopCounters l.levels t.step (taskIndex t.word)
  x : c.x = Vector.ofFn (fun i => if h : 40 ≤ i.val ∧ i.val < 48 then t.args[i.val - 40]'(by omega)
    else if i.val = 62 then w64 (l.sliceAt slice + saveBytes l.req.rooms + (l.req.overflow - saveBytes l.req.rooms)) else 0)
  h : c.h = Context.reset.h
  p : c.p = Context.reset.p
  rotb : c.rotb = 0

theorem Context.Starts.pushEvent {x : Context} {k : Bool} {l : Launch} {t : Task} {slice : Nat} (h : x.Starts k l t slice)
    (r : BitVec 128) : (x.pushEvent r).Starts k l t slice := by
  obtain ⟨mode, task, pc, status, loopc, regs, handles, preds, rotb⟩ := h
  unfold Context.pushEvent Context.wake
  split <;> exact ⟨mode, task, pc, status, loopc, regs, handles, preds, rotb⟩

/-- R21, R26, R144: a task's context at its start. -/
theorem Context.start_starts (k : Bool) (l : Launch) (t : Task) (slice free : Nat) :
    (Context.start k l t slice free).Starts k l t slice := by
  unfold Context.start
  rw [Context.reset_numbered]
  dsimp only
  split
  case' isTrue => apply Starts.pushEvent
  all_goals
    refine ⟨rfl, rfl, rfl, rfl, rfl, ?_, rfl, rfl, rfl⟩
    dsimp only

namespace Context.Starts
variable {c : Context} {k : Bool} {l : Launch} {t : Task} {slice : Nat}

theorem rx_argument (h : c.Starts k l t slice) (i : Fin 8) : c.rx (BitVec.ofNat 6 (40 + i.val)) = t.args[i] := by
  have number : (BitVec.ofNat 6 (40 + i.val)).toNat = 40 + i.val := by rw [BitVec.toNat_ofNat]; omega
  have nonzero : BitVec.ofNat 6 (40 + i.val) ≠ 0 := fun zero => by
    rw [zero, show (0 : XReg).toNat = 0 from rfl] at number
    omega
  have window : 40 + i.val < 48 := by omega
  rw [Context.rx, if_neg nonzero]
  simp [h.x, number, window]

theorem rx_stack (h : c.Starts k l t slice) :
    c.rx 62 = w64 (l.sliceAt slice + saveBytes l.req.rooms + (l.req.overflow - saveBytes l.req.rooms)) := by
  rw [Context.rx, if_neg (by decide)]
  simp [h.x]

theorem rx_other (h : c.Starts k l t slice) {r : XReg} (outside : r.toNat < 40 ∨ 48 ≤ r.toNat) (not62 : r ≠ 62) :
    c.rx r = 0 := by
  have number : r.toNat ≠ 62 := fun same => not62 (BitVec.eq_of_toNat_eq same)
  have window : ¬ (40 ≤ r.toNat ∧ r.toNat < 48) := by omega
  rw [Context.rx]
  simp [h.x, number, window]

theorem rh (h : c.Starts k l t slice) (r : HReg) : c.rh r = 0 := by
  have zero : c.h[r.toNat]'r.isLt = 0 := by simp [h.h, Context.reset]
  rw [Context.rh, zero, ite_self]

theorem rp (h : c.Starts k l t slice) (r : PReg) : c.rp r = if r = 0 then BitVec.allOnes 256 else 0 := by
  have zero : r ≠ 0 → c.p[r.toNat]?.getD 0 = 0 := fun nonzero => by
    have number : r.toNat ≠ 0 := fun same => nonzero (BitVec.eq_of_toNat_eq same)
    simp only [h.p, Context.reset, Vector.getElem?_set_ne _ number.symm, Vector.getElem?_replicate]
    split <;> rfl
  rw [Context.rp]
  split
  · rfl
  · exact zero ‹_›

end Context.Starts

/-- `u` is `m` after a task of launch `l` has started on context `k` of core `c`. -/
structure Started (m u : State) (c : Nat) (k : Bool) (l : Launch) (t : Task) : Prop where
  context : (u.ctx c k).Starts k l t (l.freeSlice.getD 0)
  launch : (u.core c).launch = (m.core c).launch
  running : (u.core c).running = true
  standby : u.ctx c (!k) = m.ctx c (!k)
  others : ∀ n, n ≠ c → u.core n = m.core n
  bytes : SameBytes m u

theorem State.startTask_started (m : State) (l : Launch) (t : Task) (c : Nat) (k : Bool) :
    Started m (m.startTask l t c k) c k l t := by
  have books := sameStores_startTask m l t c k
  have core : (m.startTask l t c k).core c =
      (m.core c).occupy k (Context.start k l t (l.freeSlice.getD 0) m.fresh) := by rw [books.core, State.core_setCore_self]
  refine ⟨?_, ?_, ?_, ?_, fun n other => ?_, (sameBytes_setCore m c _).trans books.sameBytes⟩
  · rw [State.ctx, core, Core.occupy_ctx, Core.ctx_setCtx_self]
    exact Context.start_starts k l t _ _
  · rw [core, Core.occupy_launch]
  · rw [core, Core.occupy_running]
  · rw [State.ctx, core, Core.occupy_ctx, Core.ctx_setCtx_not, State.ctx]
  · rw [books.core, State.core_setCore_ne m other]

/-! ## The statement -/

/-- R20, R21, R357: a ready task that the dispatcher may place starts on a core that is made ready for its launch. -/
theorem exec_dispatch_ready {s : State} {n : Nat} {c : CoreNo} {k : Bool} {t : Task} {l : Launch} (task : s.task? n = some t)
    (launch : s.launch? t.launch = some l) (ready : t.phase = .ready) (may : s.dispatchable t c.toNat k = true) :
    exec (.dispatch n c k) s = .next (((s.takeTask l t c.toNat k).readyCore (l.turned (s.turns + 1)) t c.toNat k).startTask
      (l.turned (s.turns + 1)) t c.toNat k) := by
  change execDispatch n c k s = _
  simp only [execDispatch, task, may, launch, State.task?_takeTask task, State.launch?_takeTask launch, ready, Bool.not_true,
    Bool.false_eq_true, if_false]

/-- Settles O44: the core as making it ready leaves it, and on it the context as a start makes it. -/
theorem dispatchStarts : Obligations.DispatchStarts := by
  intro s n c k t l task launch ready may
  have own : t.id = n := (State.task?_some task).2
  have unsaved : t.save? = none := by rw [Task.save?, ready]
  have taken := sameStores_takeTask s l t c.toNat k
  have readied := (s.takeTask l t c.toNat k).readyCore_readied (l.turned (s.turns + 1)) unsaved c.toNat k
  obtain ⟨context, map, running, standby, others, bytes⟩ := State.startTask_started
    ((s.takeTask l t c.toNat k).readyCore (l.turned (s.turns + 1)) t c.toNat k) (l.turned (s.turns + 1)) t c.toNat k
  refine ⟨_, exec_dispatch_ready task launch ready may, context.mode, own ▸ context.task, context.pc, context.status,
    context.rx_argument, context.rx_stack, fun _ => context.rx_other, context.rh, fun r _ => context.rp r, context.rotb,
    context.loopc, map.trans readied.launch, running, ?_, fun m other => ?_, taken.sameBytes.trans (readied.bytes.trans bytes)⟩
  · rw [standby, readied.contexts, taken.ctx]
  · rw [others m other, readied.others m other, taken.core]

end Sys2Proof.Machine
end

section
/-! PROOF. The condensation engine, what comes from another module, and the known-answer ports (R97 to R99, R330, R345, R352,
R389). -/

namespace Sys2Proof.Machine

/-! ## A record that an engine leaves (R344, R346) -/

@[simp] theorem Context.wake_evq (x : Context) : x.wake.evq = x.evq := by unfold Context.wake; split <;> rfl

theorem Context.pushEvent_evq (x : Context) (r : BitVec 128) : (x.pushEvent r).evq = x.evq ++ [r] := by
  rw [Context.pushEvent, Context.wake_evq]

/-- The fields of an event record (R346). -/
theorem eventRecord_fields (type source status code : BitVec 8) (tag : BitVec 32) (detail : Word) :
    (eventRecord type source status code tag detail).extractLsb' 0 8 = type ∧
      (eventRecord type source status code tag detail).extractLsb' 16 8 = status ∧
      (eventRecord type source status code tag detail).extractLsb' 64 64 = detail := by
  have whole : (eventRecord type source status code tag detail).toNat = ((((detail.toNat * 2 ^ 32 + tag.toNat) * 2 ^ 8 + code.toNat) *
      2 ^ 8 + status.toNat) * 2 ^ 8 + source.toNat) * 2 ^ 8 + type.toNat := by
    simp only [eventRecord, toNat_app]
  refine ⟨xl_eq _ _ _ ?_, xl_eq _ _ _ ?_, xl_eq _ _ _ ?_⟩ <;> rw [whole] <;> omega

/-- A record that is delivered leaves memory and the quads. -/
theorem State.deliver_mem (s : State) (o : Owner) (r : BitVec 128) : (s.deliver o r).mem = s.mem := by cases o <;> rfl
theorem State.quad_deliver (s : State) (o : Owner) (r : BitVec 128) (n : Nat) : (s.deliver o r).quad n = s.quad n := by
  cases o <;> rfl

theorem State.ctx_deliver_here (s : State) (c : Nat) (k : Bool) (r : BitVec 128) : (s.deliver (.here c k) r).ctx c k =
    ({ s.ctx c k with reserved := (s.ctx c k).reserved - 1 } : Context).pushEvent r := s.ctx_setCtx_self c k _

/-! ## The condensation engine (R97 to R99, R330) -/

theorem State.quad_setQuad_self (s : State) (n : Nat) (q : Quad) : (s.setQuad n q).quad n = q := by
  rw [State.quad, State.setQuad, findKey_setKey_self, Option.getD_some]

/-- What comes first in a computation that ends well has ended well. -/
theorem X.bind_inv {α β : Type} {x : X α} {next : α → X β} {s t : State} {got : β} (h : (x >>= next).run s = .ok (got, t)) :
    ∃ a u, x.run s = .ok (a, u) ∧ (next a).run u = .ok (got, t) := by
  rw [StateT.run_bind] at h
  cases first : x.run s with
  | error e => rw [first] at h; exact nomatch h
  | ok p => rw [first] at h; exact ⟨p.1, p.2, rfl, h⟩

/-- The first act of a job changes what it found of the tensor, and nothing else of the job. -/
theorem condVoid_job {n : Nat} {j i : CondJob} {s t : State} (run : (condVoid n j).run s = .ok (i, t)) :
    i = { j with void := i.void, live := i.live } := by
  obtain ⟨record, u, -, goes⟩ := X.bind_inv run
  cases record with
  | none => exact nomatch goes
  | some r =>
    by_cases above : j.target < r.live
    · simp only [if_pos above] at goes
      obtain ⟨-, u, -, ends⟩ := X.bind_inv goes
      cases ends
      rfl
    · simp only [if_neg above] at goes
      cases goes
      rfl

theorem exec_acondJobStart_begins {s t : State} {d : DieNo} {q : BitVec 6} {j i : CondJob} {rest : List CondJob}
    (oldest : (s.quad (64 * d.toNat + q.toNat)).cond = j :: rest) (waits : j.started = false) (unparked : j.parked = none)
    (edges : s.condEdges (64 * d.toNat + q.toNat) j = true) (score : s.condScore j = true)
    (run : (condVoid (64 * d.toNat + q.toNat) j).run s = .ok (i, t)) :
    exec (.acondJobStart d q) s = .next (t.setCond (64 * d.toNat + q.toNat) { i with started := true, moved := t.time }) := by
  change execAcondJobStart d q s = _
  simp only [execAcondJobStart, quadNo, oldest, waits, unparked, edges, score, run, Option.isSome_none, Bool.not_true,
    Bool.or_self, Bool.false_eq_true, if_false]

theorem exec_acondJobEnd_ends {s t : State} {d : DieNo} {q : BitVec 6} {j : CondJob} {rest : List CondJob} {live : Nat}
    (oldest : (s.quad (64 * d.toNat + q.toNat)).cond = j :: rest) (started : j.started = true) (unparked : j.parked = none)
    (run : (condWork (64 * d.toNat + q.toNat) j).run s = .ok (live, t)) :
    exec (.acondJobEnd d q) s = .next (t.condEnd (64 * d.toNat + q.toNat) j 0 0 live) := by
  change execAcondJobEnd d q s = _
  simp only [execAcondJobEnd, quadNo, oldest, started, unparked, run, Option.isSome_none, Bool.not_true, Bool.or_self,
    Bool.false_eq_true, if_false]

/-- R330: a job that ends leaves its engine, and one record of type 5 with the live count goes to the context that handed it
over. -/
theorem State.condEnd_leaves (t : State) (n : Nat) (j : CondJob) (live : Nat) :
    (∀ i ∈ ((t.condEnd n j 0 0 live).quad n).cond, i.id ≠ j.id) ∧ (t.condEnd n j 0 0 live).mem = t.mem ∧
      ∀ c k, t.condOwner j = .here c k → ∃ rec, ((t.condEnd n j 0 0 live).ctx c k).evq = (t.ctx c k).evq ++ [rec] ∧
        rec.extractLsb' 0 8 = 5 ∧ rec.extractLsb' 16 8 = 0 ∧ rec.extractLsb' 64 64 = w64 live := by
  unfold State.condEnd
  refine ⟨fun i left => ?_, State.deliver_mem _ _ _, fun c k owner => ⟨_, ?_,
    eventRecord_fields 5 4 0 0 (j.xs.extractLsb' 32 32) (w64 live)⟩⟩
  · rw [State.quad_deliver, State.quad_setQuad_self] at left
    simpa using (List.mem_filter.1 left).2
  · rw [owner, State.ctx_deliver_here, Context.pushEvent_evq]
    rfl

/-! ## What comes from another module (R345, R389) -/

theorem exec_remoteWriteArrive_astray {s : State} {src : BitVec 16} {d : DieNo} {core : BitVec 10} {m : BitVec 16}
    {g : BitVec 6} (astray : m ≠ s.moduleId ∨ core.toNat / 256 ≠ d.toNat ∨ g ≠ 1) (r : RemoteReq) :
    exec (.remoteWriteArrive src d core ⟨m, g⟩ r) s = .next { s with outbox := s.outbox ++ [.report src (.routeCheck 0xE)] } := by
  have engine : g.toNat ≠ engMemory ↔ g ≠ 1 := not_congr ⟨fun same => BitVec.eq_of_toNat_eq same, fun same => same ▸ rfl⟩
  change execRemoteWriteArrive src d core ⟨m, g⟩ r s = _
  rw [execRemoteWriteArrive, if_pos]
  · rfl
  · simpa [engine, or_assoc] using astray

theorem exec_remoteWriteArrive_serves {s t : State} {src : BitVec 16} {d : DieNo} {core : BitVec 10} {r : RemoteReq}
    {report : RemoteReport} (die : core.toNat / 256 = d.toNat) (served : s.serve d.toNat r = .report report t) :
    exec (.remoteWriteArrive src d core ⟨s.moduleId, 1⟩ r) s = .next { t with outbox := t.outbox ++ [.report src report] } := by
  change execRemoteWriteArrive src d core ⟨s.moduleId, 1⟩ r s = _
  rw [execRemoteWriteArrive, if_neg (by simp [die, engMemory]), served]
  rfl

/-- A write that does not leave its line of 64 bytes is one piece. -/
theorem pieces_within {a n : Nat} (nonempty : n ≠ 0) (within : n ≤ 64 - a % 64) : pieces a n = [(a, n)] := by
  obtain ⟨m, rfl⟩ := Nat.exists_eq_succ_of_ne_zero nonempty
  simp [pieces, piecesFrom, Nat.min_eq_left within]

theorem serve_write_one {s t : State} {die : Nat} {va : Word} {bs : List Byte} (nonempty : bs ≠ [])
    (within : bs.length ≤ 64 - va.toNat % 64) (run : (writeVa (remoteView die) va.toNat bs).run s = .ok ((), t)) :
    s.serve die (.write va bs) = .report .visible t := by
  simp [State.serve, pieces_within (List.length_eq_zero_iff.not.2 nonempty) within, serveWrite, run]

theorem exec_collectivePacketArrive_astray {s : State} {core : BitVec 10} {src m : BitVec 16} {g : BitVec 6}
    (astray : m ≠ s.moduleId ∨ g ≠ 2) (group rank : Nat) (elems : List Word) :
    exec (.collectivePacketArrive core ⟨src, m, g⟩ group rank elems) s =
      .next { s with outbox := s.outbox ++ [.report src (.routeCheck 0xE)] } := by
  have engine : g.toNat ≠ engCollective ↔ g ≠ 2 := not_congr ⟨fun same => BitVec.eq_of_toNat_eq same, fun same => same ▸ rfl⟩
  change execCollectivePacketArrive core ⟨src, m, g⟩ group rank elems s = _
  rw [execCollectivePacketArrive, if_pos]
  · rfl
  · simpa [engine] using astray

section
variable {s : State} {core : BitVec 10} {src : BitVec 16} {group rank : Nat} (elems : List Word)

theorem exec_collectivePacketArrive_early (unwanted : s.wantsPart (core.toNat / 256) group rank = none) :
    exec (.collectivePacketArrive core ⟨src, s.moduleId, 2⟩ group rank elems) s = .next (s.setDie (core.toNat / 256)
      { s.die (core.toNat / 256) with early := (s.die (core.toNat / 256)).early ++ [(group, rank, elems)] }) := by
  change execCollectivePacketArrive core ⟨src, s.moduleId, 2⟩ group rank elems s = _
  rw [execCollectivePacketArrive, if_neg (by simp [engCollective])]
  simp only [unwanted]

theorem exec_collectivePacketArrive_wanted {i : Job} (wanted : s.wantsPart (core.toNat / 256) group rank = some i) :
    exec (.collectivePacketArrive core ⟨src, s.moduleId, 2⟩ group rank elems) s = .next (s.setJob { i with
      parts := i.parts ++ [(rank, elems)], phase := if i.parts.length + 1 = i.got.2 then .started else .remote, moved := s.time }) := by
  change execCollectivePacketArrive core ⟨src, s.moduleId, 2⟩ group rank elems s = _
  rw [execCollectivePacketArrive, if_neg (by simp [engCollective])]
  simp only [wanted, List.length_append, List.length_singleton]
end

theorem State.die_setDie_self (s : State) {d : Nat} (die : d < 4) (v : Die) : (s.setDie d v).die d = v := by
  rw [State.die, State.setDie]
  simp [die]

/-! ## Known-answer ports (R352) -/

theorem Context.katDone_oldest {x : Context} {vector : Bool} {n : KatCheck}
    (oldest : x.kat.find? (fun y => y.vector == vector && !y.done) = some n) :
    x.katDone vector = { x with kat := x.kat.map (fun y => if y = n then { n with
      done := true, result := katCheck vector n.pattern.toNat } else y) } := by
  simp only [Context.katDone, oldest, beq_iff_eq]

/-! ## The statement -/

/-- Settles O50: the engine's jobs through the equations of their two events and what the end of a job leaves, the traffic of
other modules and the port each through the equation of its event. -/
theorem engineSteps : Obligations.EngineSteps := by
  intro s d q j rest c k vector src m g core r va group rank elems
  refine ⟨fun oldest => ⟨?starts, ?ends⟩, (exec_remoteWriteArrive_astray · r), ?empty, ?write,
    (exec_collectivePacketArrive_astray · group rank elems), ?early, ?wanted, ?port⟩
  case starts =>
    exact fun i t waits unparked edges score run =>
      ⟨exec_acondJobStart_begins oldest waits unparked edges score run, condVoid_job run⟩
  case ends =>
    exact fun live t started unparked run =>
      ⟨_, exec_acondJobEnd_ends oldest started unparked run, t.condEnd_leaves _ j live⟩
  case empty =>
    rintro rfl die
    exact exec_remoteWriteArrive_serves die rfl
  case write =>
    rintro bs t rfl die within nonempty run
    exact exec_remoteWriteArrive_serves die (serve_write_one nonempty within run)
  case early =>
    rintro rfl unwanted
    exact ⟨_, exec_collectivePacketArrive_early elems unwanted, rfl, by rw [State.die_setDie_self _ (by omega)]⟩
  case wanted =>
    rintro i rfl wanted
    exact exec_collectivePacketArrive_wanted elems wanted
  case port =>
    intro n oldest
    exact ⟨_, rfl, rfl, by rw [State.ctx_setCtx_self, Context.katDone_oldest oldest], State.ctx_setCtx_not _ _ _ _,
      fun i other => State.core_setCtx_ne _ other _ _⟩

end Sys2Proof.Machine
end

section
/-! PROOF. Elements of handles without a record in the PAD, as the engines read and write them: the bytes that a write leaves,
and one element read or written (R138, R196, R259, R262, R265). -/

namespace Sys2Proof.Machine

/-! ## Bytes of a store -/

/-- Bytes written from an address over what is there. -/
def putBytes (f : Nat → Byte) (a : Nat) (bs : List Byte) (x : Nat) : Byte :=
  if a ≤ x ∧ x < a + bs.length then bs[x - a]?.getD 0 else f x

theorem putBytes_nil (f : Nat → Byte) (a : Nat) : putBytes f a [] = f :=
  funext fun _ => if_neg (by simp)

theorem putBytes_outside {f : Nat → Byte} {a x : Nat} {bs : List Byte} (outside : x < a ∨ a + bs.length ≤ x) :
    putBytes f a bs x = f x := if_neg (by omega)

/-- Bytes written behind others that were written before. -/
theorem putBytes_append (f : Nat → Byte) (a : Nat) (bs cs : List Byte) :
    putBytes (putBytes f a bs) (a + bs.length) cs = putBytes f a (bs ++ cs) := by
  funext x
  unfold putBytes
  rw [List.length_append]
  by_cases first : a ≤ x ∧ x < a + bs.length
  · rw [if_neg (by omega), if_pos first, if_pos (by omega), List.getElem?_append_left (by omega)]
  by_cases second : a + bs.length ≤ x ∧ x < a + bs.length + cs.length
  · rw [if_pos second, if_pos (by omega), List.getElem?_append_right (by omega), Nat.sub_sub]
  · rw [if_neg second, if_neg first, if_neg (by omega)]

theorem findKey_cellsAll (a x : Nat) (bs : List Byte) : findKey x (cellsAll a bs) = if a ≤ x then bs[x - a]? else none := by
  induction bs generalizing a with
  | nil => simp [cellsAll, findKey]
  | cons b bs rest =>
    rw [cellsAll, findKey, rest]
    by_cases here : a = x
    · simp [here]
    by_cases behind : a ≤ x
    · rw [if_neg here, if_pos (by omega), if_pos behind, show x - a = x - (a + 1) + 1 by omega, List.getElem?_cons_succ]
    · rw [if_neg here, if_neg (by omega), if_neg behind]

/-- A byte of a store after a write. -/
theorem Store.get_write (st : Store) (a : Nat) (bs : List Byte) : (st.write a bs).get = putBytes st.get a bs := by
  funext x
  unfold putBytes
  simp only [Store.get, Store.write, findKey_append, findKey_filter x (fun k => decide (k < a)),
    findKey_filter x (fun k => decide (a + bs.length ≤ k)), findKey_cellsAll, decide_eq_true_eq]
  by_cases below : x < a
  · simp [show ¬ a ≤ x by omega, show ¬ a + bs.length ≤ x by omega, below]
  by_cases inside : x < a + bs.length
  · have there : x - a < bs.length := by omega
    simp [below, inside, show a ≤ x by omega, show ¬ a + bs.length ≤ x by omega, there]
  · have none : bs[x - a]? = none := List.getElem?_eq_none (by omega)
    simp [below, inside, show a ≤ x by omega, show a + bs.length ≤ x by omega, none]

theorem Store.length_read (st : Store) (a n : Nat) : (st.read a n).length = n := by simp [Store.read]

theorem Store.read_add (st : Store) (a m n : Nat) : st.read a (m + n) = st.read a m ++ st.read (a + m) n := by
  simp [Store.read, List.range_add, Function.comp_def, Nat.add_assoc]

/-- The bytes of the number that some bytes make are those bytes (R3). -/
theorem leBytes_leNat {bs : List Byte} {n : Nat} (long : bs.length = n) : leBytes n (leNat bs) = bs := by
  subst long
  induction bs with
  | nil => rfl
  | cons b bs rest =>
    have low : BitVec.ofNat 8 (b.toNat + 256 * leNat bs) = b :=
      BitVec.eq_of_toNat_eq (by rw [BitVec.toNat_ofNat]; omega)
    rw [List.length_cons, leBytes, leNat, low, show (b.toNat + 256 * leNat bs) / 256 = leNat bs by omega, rest]

/-! ## Writes of the PAD -/

theorem State.writePad_sound {s : State} (sound : s.poison = []) (c a : Nat) (bs : List Byte) :
    s.writePad c a bs = s.setCore c { s.core c with pad := (s.core c).pad.write a bs } := by
  simp [State.writePad, State.rewrite, sound]

namespace PadWritten
variable {s t : State} {c : Nat} {f : Nat → Byte}

theorem refl (s : State) (c : Nat) : PadWritten s s c (s.padByte c) := ⟨rfl, fun _ _ => rfl, rfl, fun _ => rfl⟩

theorem poison (h : PadWritten s t c f) : t.poison = s.poison := by rw [h.rest]

/-- One more write (R265). -/
theorem writePad (h : PadWritten s t c f) (sound : s.poison = []) (a : Nat) (bs : List Byte) :
    PadWritten s (t.writePad c a bs) c (putBytes f a bs) := by
  have core : (t.writePad c a bs).core c = { t.core c with pad := (t.core c).pad.write a bs } := by
    rw [State.writePad_sound (h.poison.trans sound), State.core_setCore_self]
  refine ⟨?_, fun n other => ?_, ?_, fun x => ?_⟩
  · rw [State.writePad_sound (h.poison.trans sound), State.setCore]
    rw [h.rest]
  · rw [State.writePad_sound (h.poison.trans sound), State.core_setCore_ne t other, h.others n other]
  · rw [core, h.core]
  · rw [State.padByte, core, Store.get_write]
    exact congrArg (fun g => putBytes g a bs x) (funext h.bytes)

theorem inPad (h : PadWritten s t c f) {x : HandleWord} {lo n : Nat} (inside : InPad s x c lo n) : InPad t x c lo n :=
  { inside with room := by rw [h.core]; exact inside.room, unstashed := by rw [h.core]; exact inside.unstashed }

/-- What no write has reached reads as before. -/
theorem read (h : PadWritten s t c f) {a n : Nat} (kept : ∀ i < n, f (a + i) = s.padByte c (a + i)) :
    (t.core c).pad.read a n = (s.core c).pad.read a n :=
  List.map_congr_left fun i inside => (h.bytes (a + i)).trans (kept i (List.mem_range.1 inside))

end PadWritten

theorem InPad.sub {s : State} {x : HandleWord} {c lo n a m : Nat} (h : InPad s x c lo n) (above : lo ≤ a)
    (below : a + m ≤ lo + n) : InPad s x c a m :=
  { h with bound := ⟨h.bound.1.trans above, below.trans h.bound.2⟩, room := below.trans h.room }

theorem InPad.below {s : State} {x : HandleWord} {c lo n : Nat} (h : InPad s x c lo n) : lo + n ≤ 2 ^ 57 := by
  have ok := h.ok
  simp only [handleOk, Bool.and_eq_true, decide_eq_true_eq] at ok
  exact h.bound.2.trans ok.2

/-! ## One element -/

/-- Element `k` of a tensor without a record lies at the bytes from `a` to `a + n` of the PAD of core `c`. -/
structure PadElem (s : State) (c : Nat) (t : Tensor) (k : Int) (a n : Nat) : Prop where
  bare : t.record = none
  bits : t.elt.bits = 8 * n
  some : 0 < n
  place : (hBase t.h : Int) + k * n = a
  inside : InPad s t.h c a n
  aligned : a % n = 0

namespace PadElem
variable {s : State} {c : Nat} {t : Tensor} {k : Int} {a n : Nat}

theorem written {u : State} {f : Nat → Byte} (h : PadElem s c t k a n) (w : PadWritten s u c f) : PadElem u c t k a n :=
  { h with inside := w.inPad h.inside }

theorem nibbles (h : PadElem s c t k a n) : t.nibbles = 2 * n := by rw [Tensor.nibbles, h.bits]; omega

theorem span (h : PadElem s c t k a n) : spanOf t.nibbles (2 * a) = (a, n) := by
  have := h.some
  rw [spanOf, h.nibbles, Nat.mul_div_cancel_left a (by decide), Nat.mul_div_cancel_left n (by decide), Nat.max_eq_right this]

theorem elem (h : PadElem s c t k a n) (v : View) (store : Bool) : (t.elem v store k).run s = .ok (.some (.place (2 * a)), s) := by
  have below := h.inside.below
  have twice : 2 * (hBase t.h : Int) + k * (2 * n : Nat) = 2 * a := by
    rw [← h.place]; push_cast; ring
  have place : ((2 * (hBase t.h : Int) + k * t.nibbles) % 2 ^ 65).toNat = 2 * a := by
    rw [h.nibbles, twice]; omega
  rw [Tensor.elem, h.bare]
  dsimp only
  rw [place]
  rfl

theorem check (h : PadElem s c t k a n) : (t.check (s.core c) [.place (2 * a)]).run s = .ok ((), s) := by
  have bound : t.inBound (2 * a) = true := by
    simp [Tensor.inBound, h.span, h.bare, h.inside.bound]
  have aligned : t.aligned (2 * a) = true := by
    have := h.some
    simp [Tensor.aligned, h.bits, h.aligned]
  have room : t.inPad (s.core c) (2 * a) = true := by
    simp [Tensor.inPad, h.span, padOk, h.inside.room, h.inside.unstashed]
  simp [Tensor.check, bound, aligned, room]
  rfl

/-- R196: the element's bytes are those of the PAD. -/
theorem readElem (h : PadElem s c t k a n) (sound : s.poison = []) {v : View} (core : v.core = .some c) :
    (readElem v (hSpace t.h) t.nibbles (2 * a)).run s = .ok (leNat ((s.core c).pad.read a n), s) := by
  have whole : pickNibble t.nibbles (2 * a) = leNat := funext fun bs => by
    have := h.some
    rw [pickNibble, if_neg (by rw [h.nibbles]; omega)]
  have checked : (lodgeCheck c ((s.core c).lodgeByte .pad a) n a v.die).run s = .ok ((), s) := by
    simp only [lodgeCheck, X.get_bind, State.poisonLodge, sound]
    rfl
  rw [Machine.readElem, h.span, h.inside.space]
  dsimp only
  rw [if_pos rfl, core, Option.getD_some, X.get_bind, X.bind_ok checked, whole]
  rfl

/-- An element read by a job. -/
theorem readJob (h : PadElem s c t k a n) (sound : s.poison = []) {j : Job} (core : j.padCore = c) :
    (readJob (j.access t.h) t none k j).run s = .ok ((leNat ((s.core c).pad.read a n), j), s) := by
  have here : (j.access t.h).v.core = .some c := by
    simp [Job.access, Job.view, h.inside.space, core]
  have got : ((j.access t.h).read (hSpace t.h) t.nibbles (2 * a) j.progress.seen).run s =
      .ok ((.some (leNat ((s.core c).pad.read a n)), j.progress.seen), s) := by
    have read : Machine.readElem (j.access t.h).v (hSpace t.h) t.nibbles (2 * a) s = _ := h.readElem sound here
    simp only [StateT.run, Access.read, read]
  have gathered : ((j.access t.h).element (hSpace t.h) t.nibbles none j.progress 0 (.place (2 * a))).run s =
      .ok ({ j.progress with got := [(0, leNat ((s.core c).pad.read a n))] }, s) := by
    rw [Access.element]
    dsimp only [Option.bind_none]
    rw [X.bind_ok got]
    rfl
  rw [Machine.readJob, X.bind_ok (h.elem _ false)]
  dsimp only [Option.getD_some]
  rw [X.get_bind, core, X.bind_ok h.check, X.bind_ok gathered]
  rfl

theorem writePlace (h : PadElem s c t k a n) {j : Job} (core : j.padCore = c) (v : View) :
    (writePlace v t k j).run s = .ok (.some (2 * a), s) := by
  rw [Machine.writePlace, X.bind_ok (h.elem v true)]
  dsimp only
  rw [X.get_bind, core, X.bind_ok h.check]
  rfl

/-- R265: an element written by a job. -/
theorem putElem (h : PadElem s c t k a n) {v : View} (core : v.core = .some c) (code : Nat) :
    (putElem v (hSpace t.h) t.nibbles (2 * a) code).run s = .ok ((), s.writePad c a (leBytes n code)) := by
  have store : elemStore (hSpace t.h) t.nibbles (2 * a) code = .pad a (leBytes n code) := by
    have wide : (t.nibbles == 1) = false := by have := h.some; rw [h.nibbles, beq_eq_false_iff_ne]; omega
    rw [elemStore, h.span, wide, h.inside.space]
    rfl
  rw [Machine.putElem, store, performStore, core]
  rfl

end PadElem

end Sys2Proof.Machine
end

section
/-! PROOF. How jobs start, run and end (R342 to R346): the events' equations, and the bytes that CPY, XTBL, SEND and RECV read
and write in the PAD. -/

namespace Sys2Proof.Machine

/-! ## A job and its events -/

theorem State.job?_some {s : State} {n : Nat} {j : Job} (h : s.job? n = some j) : j ∈ s.jobs ∧ j.id = n :=
  ⟨List.mem_of_find?_eq_some h, by simpa using List.find?_some h⟩

/-- A job that is there reads back as it was set. -/
theorem State.job?_setJob {s : State} {n : Nat} {j i : Job} (h : s.job? n = some j) (own : i.id = n) :
    (s.setJob i).job? n = some i := by
  have asked : ((fun u : Job => u.id == n) ∘ fun u => if u.id == i.id then i else u) = fun u => u.id == n := by
    funext u
    by_cases here : u.id = n <;> simp [here, own]
  rw [State.job?, State.setJob, List.find?_map, asked, show s.jobs.find? (fun u => u.id == n) = some j from h, Option.map_some,
    own, (State.job?_some h).2, beq_self_eq_true, if_pos rfl]

/-- R344: the one job that an engine of a die may take is the next that it starts. -/
theorem State.nextJob_only {s : State} {j : Job} (listed : j ∈ s.jobs) (ready : s.jobReady j = true)
    (only : ∀ i ∈ s.jobs, s.jobReady i = true → i.die = j.die → i.kind.engine = j.kind.engine → i = j) :
    s.nextJob j.die j.kind.engine = some j := by
  have asks : ∀ i : Job, (i.die == j.die && i.kind.engine == j.kind.engine && s.jobReady i) = true ↔
      i.die = j.die ∧ i.kind.engine = j.kind.engine ∧ s.jobReady i = true := fun i => by
    rw [Bool.and_eq_true, Bool.and_eq_true, beq_iff_eq, beq_iff_eq, and_assoc]
  unfold State.nextJob
  cases found : s.jobs.find? (fun i => i.die == j.die && i.kind.engine == j.kind.engine && s.jobReady i) with
  | none => exact absurd ((asks j).2 ⟨rfl, rfl, ready⟩) (List.find?_eq_none.1 found j listed)
  | some i =>
    obtain ⟨die, engine, takes⟩ := (asks i).1 (List.find?_some
      (p := fun i => i.die == j.die && i.kind.engine == j.kind.engine && s.jobReady i) found)
    rw [only i (List.mem_of_find?_eq_some found) takes die engine]

theorem exec_jobStart_next {s : State} {n : Nat} {j : Job} (job : s.job? n = some j)
    (next : s.nextJob j.die j.kind.engine = some j) :
    exec (.jobStart n) s = .next (s.setJob { j with phase := .started, moved := s.time }) := by
  change execJobStart n s = _
  simp only [execJobStart, job, next, Option.map_some, (State.job?_some job).2, beq_self_eq_true, State.when, if_true]

theorem exec_jobComplete_started {s : State} {n : Nat} {j : Job} (job : s.job? n = some j) (started : j.phase = .started) :
    exec (.jobComplete n) s = State.settleRun j (s.runJob j) := by
  change execJobComplete n s = _
  simp only [execJobComplete, job, started, beq_self_eq_true, if_true]

theorem exec_sendReportArrive_visible {s : State} {n : Nat} {j : Job} {hs : HandleWord} {a : Word} {w : BitVec 128}
    (job : s.job? n = some j) (kind : j.kind = .send hs a w) (remote : j.phase = .remote) (number : n < 2 ^ 32) :
    exec (.sendReportArrive n .visible) s = .next (s.endJob j) := by
  change execSendReportArrive n .visible s = _
  simp only [execSendReportArrive, if_neg (show ¬ renqReport ≤ n from Nat.not_le.2 number), job, kind, remote]
  rfl

theorem exec_collResultArrive_complete {s : State} {n : Nat} {j : Job} {op : CollOp} {hd hs : HandleWord} {k g : Nat}
    (elems : List Word) (job : s.job? n = some j) (kind : j.kind = .coll op hd hs k g) (remote : j.phase = .remote) :
    exec (.collResultArrive n (.complete elems)) s = .next (s.setJob { j with
      parts := [(0, elems)], got := (0, 1), phase := .started, moved := s.time }) := by
  change execCollResultArrive n (.complete elems) s = _
  simp only [execCollResultArrive, job, kind, remote]

/-! ## The end of a job (R43, R344, R346) -/

theorem cores_release (s : State) (f : Nat) : (s.release f).cores = s.cores := by
  unfold State.release State.releaseTo
  dsimp only
  split <;> rfl

theorem cores_setCount (s : State) (page f n : Nat) : (s.setCount page f n).cores = s.cores := by
  unfold State.setCount
  dsimp only
  split
  · split <;> rfl
  · rfl

theorem cores_dropCount (s : State) (launch : Nat) (l : RevLeaf) : (s.dropCount launch l).cores = s.cores := by
  unfold State.dropCount
  dsimp only
  split
  · split
    · rfl
    · split <;> rfl
  · split
    · rw [cores_release, cores_setCount]
    · exact cores_setCount s _ _ _

theorem cores_dropMap (s : State) (t : Task) (ls : List RevLeaf) : (s.dropMap t ls).cores = s.cores :=
  List.foldlRecOn (motive := fun u : State => u.cores = s.cores) ls _ rfl fun u same l _ => by
    split
    · rw [cores_dropCount, same]
    · exact same

theorem cores_dropRev (s : State) (id : Nat) : (s.dropRev id).cores = s.cores := by
  unfold State.dropRev
  split
  · rfl
  · exact cores_dropMap _ _ _

theorem cores_dropAnc (s : State) (id : Nat) : (s.dropAnc id).cores = s.cores := by
  unfold State.dropAnc
  split
  · rfl
  · exact cores_dropMap _ _ _

/-- What ends with a killed task's last job is its revision and the task, no core's state. -/
theorem cores_reap (s : State) (who : Option Nat) : (s.reap who).cores = s.cores := by
  unfold State.reap
  split
  · rfl
  · split
    · rfl
    · split
      · exact (cores_dropAnc _ _).trans (cores_dropRev _ _)
      · exact (cores_dropAnc _ _).trans (cores_dropRev _ _)

theorem cores_jobEffect (s : State) (j : Job) : (s.jobEffect j).cores = s.cores := by
  unfold State.jobEffect
  split <;> rfl

theorem ctx_of_cores {s t : State} (h : t.cores = s.cores) (c : Nat) (k : Bool) : t.ctx c k = s.ctx c k := by
  rw [State.ctx, State.core, h, State.ctx, State.core]

/-- R344, R346: the record of a job that ends joins the event queue of the context that issued it, and gives back its slot. -/
theorem State.endJob_ctx {s : State} {j : Job} {c : Nat} {k : Bool} (owner : s.owner j = .here c k) (loud : j.silent = false) :
    (s.endJob j).ctx c k = ({ s.ctx c k with reserved := (s.ctx c k).reserved - 1 } : Context).pushEvent (j.record 0 0) := by
  have before : ((s.jobEffect j).removeJob j).ctx c k = s.ctx c k := ctx_of_cores (cores_jobEffect s j) c k
  unfold State.endJob
  dsimp only
  rw [loud, owner, if_neg Bool.false_ne_true, ctx_of_cores (cores_reap _ _), State.deliver]
  dsimp only
  rw [State.ctx_setCtx_self, before]

/-- R345, R381: the table of an XTBL stands in its slot. -/
theorem State.slot_jobEffect {s : State} {j : Job} {slot : BitVec 3} {hs : HandleWord} (kind : j.kind = .xtbl slot hs) :
    ((s.jobEffect j).die j.die.toNat).slots[slot.toNat]'slot.isLt = j.table := by
  have effect : (s.jobEffect j).die j.die.toNat = { s.die j.die.toNat with
      slots := (s.die j.die.toNat).slots.set slot.toNat j.table slot.isLt } := by
    unfold State.jobEffect
    rw [kind]
    simp [State.die, State.setDie, j.die.isLt]
  simp only [effect, Vector.getElem_set_self]

/-! ## A run of steps -/

theorem runN_more {f : Job → X (Job × Bool)} {j i : Job} {s t : State} (one : (f j).run s = .ok ((i, false), t)) (n : Nat) :
    runN f (n + 1) j s = runN f n i t := by rw [runN, one]

theorem runN_last {f : Job → X (Job × Bool)} {j i : Job} {s t : State} (one : (f j).run s = .ok ((i, true), t)) (n : Nat) :
    runN f (n + 1) j s = .done i t := by rw [runN, one]

/-- A run whose every step takes the `i`-th self of a job to the next, and keeps what is so of the state. -/
theorem runN_done {f : Job → X (Job × Bool)} {n : Nat} {J : Nat → Job} {P : Nat → State → Prop}
    (step : ∀ i < n, ∀ s, P i s → ∃ t, (f (J i)).run s = .ok ((J (i + 1), false), t) ∧ P (i + 1) t)
    {s : State} (first : P 0 s) :
    ∃ t, runN f n (J 0) s = .done (J n) t ∧ P n t := by
  induction n generalizing J P s with
  | zero => exact ⟨s, rfl, first⟩
  | succ n rest =>
    obtain ⟨t, one, kept⟩ := step 0 (Nat.succ_pos n) s first
    obtain ⟨u, done, last⟩ := rest (J := fun i => J (i + 1)) (P := fun i => P (i + 1))
      (fun i less => step (i + 1) (Nat.succ_lt_succ less)) kept
    exact ⟨u, (runN_more one n).trans done, last⟩

theorem finishVoid_sound {h : HandleWord} {j : Job} (whole : j.replaced = false) (s : State) : finishVoid h j s = .done j s := by
  rw [finishVoid, voidAfter, whole]
  rfl

/-- A started job that has done nothing yet, on the PAD of core `c`, with no uncorrectable sector anywhere. -/
structure FreshJob (s : State) (n : Nat) (j : Job) (c : Nat) : Prop where
  job : s.job? n = some j
  started : j.phase = .started
  core : j.padCore = c
  pos : j.pos = 0
  got : j.got = (0, 0)
  whole : j.replaced = false
  punctual : j.late = none
  sound : s.poison = []

theorem FreshJob.unmoved {s : State} {n c : Nat} {j : Job} (h : FreshJob s n j c) : { j with pos := 0, got := (0, 0) } = j :=
  congrArg₂ (fun p g => ({ j with pos := p, got := g } : Job)) h.pos.symm h.got.symm

theorem FreshJob.exec {s t : State} {n c : Nat} {j i : Job} (h : FreshJob s n j c) (run : s.runJob j = .done i t) :
    exec (.jobComplete n) s = .next (t.endJob i) := by
  rw [exec_jobComplete_started h.job h.started, run]; rfl

theorem FreshJob.exec_away {s t : State} {n c : Nat} {j i : Job} (h : FreshJob s n j c) (run : s.runJob j = .away i t) :
    Machine.exec (.jobComplete n) s = .next (t.setJob { i with phase := .remote, moved := t.time }) := by
  rw [exec_jobComplete_started h.job h.started, run]; rfl

/-! ## CPY (R345) -/

/-- An index from the cursor that does not reach 2^63. -/
theorem fromCursor_eq {h : HandleWord} {i : Nat} (small : (hCursor h).toNat + i < 2 ^ 63) :
    fromCursor h i = ((hCursor h).toNat + i : Nat) := by
  have sum : (hCursor h + w64 i).toNat = (hCursor h).toNat + i := by
    rw [BitVec.toNat_add, w64_toNat (by omega)]; omega
  rw [fromCursor, BitVec.toInt_eq_toNat_of_lt (by omega), sum]

theorem jobRecord_bare {h : HandleWord} (bare : hRec h = 0) (j : Job) (s : State) : (jobRecord j h).run s = .ok (none, s) := by
  have none : (recordFor { j.view h with core := none } h j.nf).run s = .ok (none, s) := by rw [recordFor, if_pos bare]; rfl
  rw [jobRecord, X.bind_ok none]
  rfl

/-- A handle without its record as CPY takes it: as a run of bytes. -/
def byteRun (h : HandleWord) : Tensor := { h := h, record := none, elt := Elt.int 8 true }

theorem copyEnds_bare {hd hs : HandleWord} (source : hRec hs = 0) (destination : hRec hd = 0) (j : Job) (s : State) :
    (copyEnds j hd hs).run s = .ok ((byteRun hs, byteRun hd, none), s) := by
  rw [copyEnds, X.bind_ok (jobRecord_bare source j s), X.bind_ok (jobRecord_bare destination j s)]
  rfl

/-- Byte `i` from a cursor. -/
theorem padElem_byteRun {s : State} {h : HandleWord} {c lo n i : Nat} (inside : InPad s h c lo n)
    (cursor : lo = hBase h + (hCursor h).toNat) (less : i < n) : PadElem s c (byteRun h) (fromCursor h i) (lo + i) 1 where
  bare := rfl
  bits := rfl
  some := Nat.one_pos
  place := by
    have := inside.below
    rw [fromCursor_eq (by omega), cursor, byteRun]
    push_cast
    ring
  inside := inside.sub (by omega) (by omega)
  aligned := Nat.mod_one _

/-- A CPY after its first `i` bytes. -/
def Job.copied (j : Job) (i : Nat) : Job := { j with pos := i, got := (i, 0) }

theorem copyOne_ok {s t : State} {src dst : Tensor} {j : Job} {code nib : Nat}
    (read : (readJob (j.access src.h) src none (fromCursor src.h j.pos) j).run s = .ok ((code, j), s))
    (place : (writePlace (j.view dst.h) dst (fromCursor dst.h j.pos) j).run s = .ok (some nib, s))
    (put : (putElem (j.view dst.h) (hSpace dst.h) dst.nibbles nib code).run s = .ok ((), t)) :
    (copyOne src dst none j).run s = .ok (({ j with pos := j.pos + 1, got := (j.got.1 + 1, 0) }, false), t) := by
  rw [copyOne, X.bind_ok read]
  dsimp only
  rw [X.bind_ok place]
  dsimp only
  rw [X.bind_ok put]
  rfl

/-- R345: one byte of a CPY whose ranges do not meet. -/
theorem copyOne_byte {s t : State} {j : Job} {c src dst len i : Nat} {hd hs : HandleWord} (core : j.padCore = c)
    (sound : s.poison = []) (source : InPad s hs c src len) (destination : InPad s hd c dst len)
    (reads : src = hBase hs + (hCursor hs).toNat) (writes : dst = hBase hd + (hCursor hd).toNat)
    (apart : src + len ≤ dst ∨ dst + len ≤ src) (less : i < len)
    (before : PadWritten s t c (putBytes (s.padByte c) dst ((s.core c).pad.read src i))) :
    ∃ u, (copyOne (byteRun hs) (byteRun hd) none (j.copied i)).run t = .ok ((j.copied (i + 1), false), u) ∧
      PadWritten s u c (putBytes (s.padByte c) dst ((s.core c).pad.read src (i + 1))) := by
  have reading := (padElem_byteRun source reads less).written before
  have writing := (padElem_byteRun destination writes less).written before
  have clean : t.poison = [] := before.poison.trans sound
  have byte : (t.core c).pad.read (src + i) 1 = (s.core c).pad.read (src + i) 1 := before.read fun m one =>
    putBytes_outside (by rw [Store.length_read]; omega)
  have view : ((j.copied i).view hd).core = some c := by simp [Job.view, destination.space, ← core]; rfl
  refine ⟨t.writePad c (dst + i) ((s.core c).pad.read (src + i) 1), ?_, ?_⟩
  · have read := reading.readJob clean (j := j.copied i) core
    have put := writing.putElem view (leNat ((s.core c).pad.read (src + i) 1))
    rw [leBytes_leNat (Store.length_read _ _ _)] at put
    rw [byte] at read
    exact copyOne_ok (j := j.copied i) read (writing.writePlace core _) put
  · have after := before.writePad sound (dst + ((s.core c).pad.read src i).length) ((s.core c).pad.read (src + i) 1)
    rw [putBytes_append, ← Store.read_add, Store.length_read] at after
    exact after

/-- R345: CPY. -/
theorem runCopy_bytes {s : State} {n : Nat} {j : Job} {c src dst len : Nat} {hd hs : HandleWord} (fresh : FreshJob s n j c)
    (source : InPad s hs c src len) (destination : InPad s hd c dst len)
    (reads : src = hBase hs + (hCursor hs).toNat) (writes : dst = hBase hd + (hCursor hd).toNat)
    (apart : src + len ≤ dst ∨ dst + len ≤ src) :
    ∃ t, runCopy hd hs len j s = .done (j.copied len) t ∧
      PadWritten s t c (putBytes (s.padByte c) dst ((s.core c).pad.read src len)) := by
  have start : j.copied 0 = j := fresh.unmoved
  obtain ⟨t, run, written⟩ := runN_done (f := copyOne (byteRun hs) (byteRun hd) none) (J := j.copied)
    (P := fun i t => PadWritten s t c (putBytes (s.padByte c) dst ((s.core c).pad.read src i)))
    (fun i less t => copyOne_byte fresh.core fresh.sound source destination reads writes apart less)
    (putBytes_nil (s.padByte c) dst ▸ PadWritten.refl s c)
  refine ⟨t, ?_, written⟩
  rw [runCopy, copyEnds_bare source.bare destination.bare]
  dsimp only
  rw [start] at run
  rw [fresh.pos, Nat.sub_zero, run, Ran.andThen]
  exact finishVoid_sound (j := j.copied len) fresh.whole t

end Sys2Proof.Machine
end

section
/-! PROOF. XTBL, SEND and RECV, which read and write lines of 64 bytes of the PAD (R345, R381). -/

namespace Sys2Proof.Machine

/-! ## Lines read -/

/-- Line `i` from BASE. -/
theorem padElem_line {s : State} {h : HandleWord} {c n i : Nat} (inside : InPad s h c (hBase h) n) (aligned : hBase h % 64 = 0)
    (less : 64 * (i + 1) ≤ n) : PadElem s c (bare h 512) i (hBase h + 64 * i) 64 where
  bare := rfl
  bits := rfl
  some := by decide
  place := by rw [bare]; push_cast; ring
  inside := inside.sub (by omega) (by omega)
  aligned := by omega

/-- A job that has read the first `i` lines from an address into its table. -/
def Job.lined (j : Job) (st : Store) (a i : Nat) : Job := { j with pos := i, table := st.read a (64 * i) }

theorem lineStep_ok {s : State} {j : Job} {hs : HandleWord} {v : Nat}
    (read : (readJob (j.access hs) (bare hs 512) none j.pos j).run s = .ok ((v, j), s)) :
    (lineStep hs j).run s = .ok (({ j with pos := j.pos + 1, table := j.table ++ leBytes 64 v }, false), s) := by
  have bytes : (readLine hs j).run s = .ok ((leBytes 64 v, { j with pos := j.pos + 1 }), s) := by
    rw [readLine, X.bind_ok read]
    rfl
  rw [lineStep, X.bind_ok bytes]
  rfl

theorem lineStep_line {s : State} {j : Job} {c i : Nat} {hs : HandleWord} (core : j.padCore = c) (sound : s.poison = [])
    (line : PadElem s c (bare hs 512) i (hBase hs + 64 * i) 64) :
    (lineStep hs (j.lined (s.core c).pad (hBase hs) i)).run s =
      .ok ((j.lined (s.core c).pad (hBase hs) (i + 1), false), s) := by
  have read := lineStep_ok (j := j.lined (s.core c).pad (hBase hs) i) (hs := hs) (line.readJob sound core)
  rw [leBytes_leNat (Store.length_read _ _ _)] at read
  rw [read, Job.lined, Job.lined, Nat.mul_add, Store.read_add]

/-- A run of lines from line `p` on. -/
theorem runN_lines {s : State} {j : Job} {c p m n : Nat} {hs : HandleWord} (core : j.padCore = c) (sound : s.poison = [])
    (inside : InPad s hs c (hBase hs) n) (aligned : hBase hs % 64 = 0) (fits : 64 * (p + m) ≤ n) :
    runN (lineStep hs) m (j.lined (s.core c).pad (hBase hs) p) s = .done (j.lined (s.core c).pad (hBase hs) (p + m)) s := by
  obtain ⟨t, run, rfl⟩ := runN_done (f := lineStep hs) (n := m) (s := s)
    (J := fun i => j.lined (s.core c).pad (hBase hs) (p + i)) (P := fun _ t => t = s)
    (by rintro i less t rfl; exact ⟨_, lineStep_line core sound (padElem_line inside aligned (by omega)), rfl⟩) rfl
  exact run

theorem FreshJob.lined_zero {s : State} {n c : Nat} {j : Job} (h : FreshJob s n j c) (blank : j.table = [])
    (st : Store) (a : Nat) : j.lined st a 0 = j :=
  congrArg₂ (fun p t => ({ j with pos := p, table := t } : Job)) h.pos.symm blank.symm

/-! ## XTBL (R345, R381) -/

theorem leNat_zeros {bs : List Byte} (zeros : ∀ b ∈ bs, b = 0) : leNat bs = 0 := by
  induction bs with
  | nil => rfl
  | cons b bs rest =>
    rw [leNat, rest fun x tail => zeros x (List.mem_cons_of_mem _ tail), zeros b List.mem_cons_self]
    rfl

/-- A field of the first bytes that some bytes begin with. -/
theorem fieldAt_append {bs : List Byte} (cs : List Byte) {off n : Nat} (within : off + n ≤ bs.length) :
    fieldAt (bs ++ cs) off n = fieldAt bs off n := by
  rw [fieldAt, fieldAt, List.drop_append_of_le_length (by omega), List.take_append_of_le_length (by rw [List.length_drop]; omega)]

/-- R381: the layout of an entry, in its fields. -/
theorem entryOk_of {states w : Nat} (reserved : w < 2 ^ 26) (zero : w / 2 ^ 14 % 4 = 0)
    (emits : w / 2 ^ 24 % 4 = 1 ∨ w / 2 ^ 16 % 256 = 0) (next : w % 2 ^ 14 < states) : entryOk states w = true := by
  have high : w / 2 ^ 26 = 0 := Nat.div_eq_of_lt reserved
  simp only [entryOk, bitsOf, Nat.shiftRight_eq_div_pow, Bool.and_eq_true, Bool.or_eq_true, beq_iff_eq, decide_eq_true_eq]
  exact ⟨⟨⟨by rw [high, Nat.zero_mod], zero⟩, emits⟩, by rwa [Nat.pow_zero, Nat.div_one]⟩

theorem badEntry_none {t : List Byte}
    (ok : ∀ i < 16 * tableStates t, entryOk (tableStates t) (fieldAt t (64 + 4 * i) 4) = true) :
    badEntry t = none := by
  rw [badEntry, List.find?_eq_none.2 fun i listed => ?_, Option.map_none]
  rw [ok i (List.mem_range.1 listed)]
  decide

/-- R345, R381: XTBL reads its header and its states, and takes them as its table. -/
theorem runXtbl_table {s : State} {n c states : Nat} {j : Job} {hs : HandleWord} (fresh : FreshJob s n j c) (blank : j.table = [])
    (aligned : hBase hs % 64 = 0) (some : 1 ≤ states) (few : states ≤ 16384)
    (inside : InPad s hs c (hBase hs) (64 + 64 * states))
    (count : fieldAt ((s.core c).pad.read (hBase hs) (64 + 64 * states)) 0 4 = states)
    (reserved : fieldAt ((s.core c).pad.read (hBase hs) (64 + 64 * states)) 4 60 = 0)
    (entries : ∀ i < 16 * states,
      entryOk states (fieldAt ((s.core c).pad.read (hBase hs) (64 + 64 * states)) (64 + 4 * i) 4) = true) :
    runXtbl hs j s = .done { j with pos := 1 + states, table := (s.core c).pad.read (hBase hs) (64 + 64 * states) } s := by
  have all : 64 * (1 + states) = 64 + 64 * states := by omega
  have header := runN_lines (j := j) (p := 0) (m := 1) fresh.core fresh.sound inside aligned (by omega)
  have rest := runN_lines (j := j) (p := 1) (m := states) fresh.core fresh.sound inside aligned (by omega)
  rw [fresh.lined_zero blank] at header
  have first : ∀ off m, off + m ≤ 64 → fieldAt (j.lined (s.core c).pad (hBase hs) (0 + 1)).table off m =
      fieldAt ((s.core c).pad.read (hBase hs) (64 + 64 * states)) off m := fun off m within => by
    rw [Store.read_add, fieldAt_append _ (by rwa [Store.length_read])]; rfl
  have whole : (j.lined (s.core c).pad (hBase hs) (1 + states)).table = (s.core c).pad.read (hBase hs) (64 + 64 * states) := by
    rw [Job.lined, all]
  have last : badEntry (j.lined (s.core c).pad (hBase hs) (1 + states)).table = none := by
    rw [whole]
    refine badEntry_none ?_
    rwa [tableStates, count]
  rw [runXtbl, if_neg (by omega), fresh.pos, header, Ran.andThen]
  dsimp only
  rw [tableStates, first 0 4 (by omega), first 4 60 (by omega), count, reserved, if_neg (by simp; omega),
    if_neg (Nat.not_lt.2 (Nat.add_le_add_iff_left.1 inside.bound.2)),
    show 1 + states - (j.lined (s.core c).pad (hBase hs) (0 + 1)).pos = states from Nat.add_sub_cancel_left 1 states,
    rest, Ran.andThen, last, finishVoid_sound (j := j.lined (s.core c).pad (hBase hs) (1 + states)) fresh.whole,
    Job.lined, all]

/-! ## SEND (R345, R389) -/

theorem transferOk_iff {h : HandleWord} {addr : Word} : transferOk h addr = true ↔
    hBase h % 64 = 0 ∧ hBound h % 64 = 0 ∧ addr.toNat % 64 = 0 ∧ hBound h ≤ 2 ^ 24 := by
  simp only [transferOk, Bool.and_eq_true, beq_iff_eq, decide_eq_true_eq, and_assoc]

section
variable {s : State} {n c : Nat} {j : Job} {hs : HandleWord} {addr : Word} {w : BitVec 128} (fresh : FreshJob s n j c)
  (blank : j.table = []) (fits : transferOk hs addr = true) (way : s.waybillOk w engMemory = true)
  (inside : InPad s hs c (hBase hs) (hBound hs))
include fresh blank fits inside

/-- The lines of a SEND's source make its bytes. -/
theorem runN_source : runN (lineStep hs) (hBound hs / 64) j s =
    .done { j with pos := hBound hs / 64, table := (s.core c).pad.read (hBase hs) (hBound hs) } s := by
  obtain ⟨base, bound, -, -⟩ := transferOk_iff.1 fits
  have all : 64 * (hBound hs / 64) = hBound hs := Nat.mul_div_cancel' (Nat.dvd_of_mod_eq_zero bound)
  have lines := runN_lines (j := j) (p := 0) (m := hBound hs / 64) fresh.core fresh.sound inside base (by omega)
  rwa [fresh.lined_zero blank, Nat.zero_add, Job.lined, all] at lines

include way

theorem runSend_here (here : wbHops w = 0) : runSend hs addr w j s =
    serveHere w (.write addr ((s.core c).pad.read (hBase hs) (hBound hs)))
      { j with pos := hBound hs / 64, table := (s.core c).pad.read (hBase hs) (hBound hs) } s := by
  rw [runSend, fits, way, fresh.pos, Nat.sub_zero, runN_source fresh blank fits inside]
  dsimp only [Ran.andThen]
  rw [finishVoid_sound (by exact fresh.whole)]
  exact if_pos here

theorem runSend_away (far : wbHops w ≠ 0) (up : s.downLink w = none) : runSend hs addr w j s =
    .away { j with pos := hBound hs / 64, table := (s.core c).pad.read (hBase hs) (hBound hs) }
      (s.emit (.packet j.id w addr ((s.core c).pad.read (hBase hs) (hBound hs)))) := by
  rw [runSend, fits, way, fresh.pos, Nat.sub_zero, runN_source fresh blank fits inside]
  dsimp only [Ran.andThen]
  rw [finishVoid_sound (by exact fresh.whole)]
  dsimp only
  rw [if_neg far, up]
  rfl

end

theorem serveHere_visible {s t : State} {j : Job} {w : BitVec 128} {q : RemoteReq}
    (served : s.serve (wbCore w / 256) q = .report .visible t) : serveHere w q j s = .done j t := by
  rw [serveHere, served]
  rfl

/-! ## RECV (R345, R389) -/

theorem fillOne_ok {s t : State} {hd : HandleWord} {bs : List Byte} {j : Job} {nib : Nat}
    (place : (writePlace (j.view hd) (bare hd 512) j.pos j).run s = .ok (some nib, s))
    (put : (putElem (j.view hd) (hSpace hd) 128 nib (leNat ((bs.drop (64 * j.pos)).take 64))).run s = .ok ((), t)) :
    (fillOne hd bs j).run s = .ok (({ j with pos := j.pos + 1 }, false), t) := by
  rw [fillOne, X.bind_ok place]
  dsimp only
  rw [X.bind_ok put]
  rfl

/-- A job that has come to line `i`. -/
def Job.filled (j : Job) (i : Nat) : Job := { j with pos := i }

/-- One line of a RECV. -/
theorem fillOne_line {s t : State} {hd : HandleWord} {bs : List Byte} {j : Job} {c i : Nat} (core : j.padCore = c)
    (sound : s.poison = []) (aligned : hBase hd % 64 = 0) (inside : InPad s hd c (hBase hd) bs.length) 
    (less : 64 * (i + 1) ≤ bs.length) (before : PadWritten s t c (putBytes (s.padByte c) (hBase hd) (bs.take (64 * i)))) :
    ∃ u, (fillOne hd bs (j.filled i)).run t = .ok ((j.filled (i + 1), false), u) ∧
      PadWritten s u c (putBytes (s.padByte c) (hBase hd) (bs.take (64 * (i + 1)))) := by
  have line := (padElem_line inside aligned less).written before
  have view : ((j.filled i).view hd).core = some c := by simp [Job.view, inside.space, ← core]; rfl
  have long : (bs.take (64 * i)).length = 64 * i := List.length_take_of_le (by omega)
  have put := line.putElem view (leNat ((bs.drop (64 * i)).take 64))
  rw [line.nibbles, leBytes_leNat (by rw [List.length_take, List.length_drop]; omega)] at put
  refine ⟨_, fillOne_ok (j := j.filled i) (line.writePlace core _) put, ?_⟩
  have after := before.writePad sound (hBase hd + (bs.take (64 * i)).length) ((bs.drop (64 * i)).take 64)
  rw [putBytes_append, ← List.take_add, long] at after
  exact after

/-- R345: the bytes that a RECV has received stand in the PAD. -/
theorem runFill_bytes {s : State} {hd : HandleWord} {j : Job} {c : Nat} (core : j.padCore = c) (sound : s.poison = [])
    (aligned : hBase hd % 64 = 0) (inside : InPad s hd c (hBase hd) j.table.length) (lines : j.table.length % 64 = 0)
    (start : j.pos = 0) (punctual : j.late = none) :
    ∃ t, runFill hd j s = .done (j.filled (j.table.length / 64)) t ∧
      PadWritten s t c (putBytes (s.padByte c) (hBase hd) j.table) := by
  have all : 64 * (j.table.length / 64) = j.table.length := Nat.mul_div_cancel' (Nat.dvd_of_mod_eq_zero lines)
  have zero : j.filled 0 = j := congrArg (fun p => ({ j with pos := p } : Job)) start.symm
  obtain ⟨t, run, written⟩ := runN_done (f := fillOne hd j.table) (n := j.table.length / 64) (J := j.filled)
    (P := fun i t => PadWritten s t c (putBytes (s.padByte c) (hBase hd) (j.table.take (64 * i))))
    (fun i less t => fillOne_line core sound aligned inside (by omega))
    (putBytes_nil (s.padByte c) (hBase hd) ▸ PadWritten.refl s c)
  rw [all, List.take_length] at written
  refine ⟨t, ?_, written⟩
  rw [zero] at run
  rw [runFill, start, Nat.sub_zero, run, Ran.andThen, Job.ended, show (j.filled (j.table.length / 64)).late = none from punctual]

theorem serveHere_data {s t : State} {j : Job} {hd : HandleWord} {addr : Word} {w v : BitVec 128} {q : RemoteReq} {bs : List Byte}
    (kind : j.kind = .recv hd addr v) (served : s.serve (wbCore w / 256) q = .report (.data bs) t) :
    serveHere w q j s = .away { j with table := bs, pos := 0 } t := by
  simp only [serveHere, served, applyReport, kind]

/-- R345: RECV from a die of the module. -/
theorem runRecv_here {s t : State} {n c : Nat} {j : Job} {hd : HandleWord} {addr : Word} {w : BitVec 128} {bs : List Byte}
    (fresh : FreshJob s n j c) (kind : j.kind = .recv hd addr w) (fits : transferOk hd addr = true)
    (way : s.waybillOk w engMemory = true) (here : wbHops w = 0)
    (served : s.serve (wbCore w / 256) (.read addr (hBound hd) j.id) = .report (.data bs) t) (sound : t.poison = [])
    (long : bs.length = hBound hd) (inside : InPad t hd c (hBase hd) (hBound hd)) :
    ∃ u, runRecv hd addr w j s = .done { j with table := bs, pos := hBound hd / 64, got := (1, 0) } u ∧
      PadWritten t u c (putBytes (t.padByte c) (hBase hd) bs) := by
  obtain ⟨base, bound, -, -⟩ := transferOk_iff.1 fits
  obtain ⟨u, run, written⟩ := runFill_bytes (s := t) (hd := hd) (j := { j with table := bs, pos := 0, got := (1, 0) })
    fresh.core sound base (long ▸ inside) (long ▸ bound) rfl fresh.punctual
  refine ⟨u, ?_, written⟩
  rw [runRecv, fits, way, fresh.got, if_pos here, serveHere_data kind served]
  rw [Job.filled, long] at run
  exact run

theorem runRecv_away {s : State} {n c : Nat} {j : Job} {hd : HandleWord} {addr : Word} {w : BitVec 128}
    (fresh : FreshJob s n j c) (fits : transferOk hd addr = true) (way : s.waybillOk w engMemory = true) (far : wbHops w ≠ 0)
    (up : s.downLink w = none) :
    runRecv hd addr w j s = .away { j with got := (1, 0) } (s.emit (.fetch j.id w addr (hBound hd))) := by
  rw [runRecv, fits, way, fresh.got, if_neg far, up]
  rfl

end Sys2Proof.Machine
end

section
/-! PROOF. XDUC (R345, R382): a transduction that emits as it reads is the transduction of all its nibbles. -/

namespace Sys2Proof.Machine

/-! ## One nibble at a time -/

/-- What follows the first nibble. -/
theorem transduce_cons (t : List Byte) (v : Nat) (rest : List Nat) (q : Nat) : transduce t (v :: rest) q =
    if (transduce t [v] q).2.2 = 0 then
      ((transduce t [v] q).1 ++ (transduce t rest (transduce t [v] q).2.1).1, (transduce t rest (transduce t [v] q).2.1).2)
    else transduce t [v] q := by
  obtain ⟨kind, named⟩ : ∃ kind, bitsOf (tableEntry t q v) 25 24 = kind := ⟨_, rfl⟩
  simp only [transduce, named]
  rcases kind with _ | _ | _ | _ | kind <;> simp

/-- The state and the end that one nibble gives fit their fields. -/
theorem transduce_one_lt (t : List Byte) (v q : Nat) : (transduce t [v] q).2.1 < 2 ^ 14 ∧ (transduce t [v] q).2.2 < 4 := by
  have state : bitsOf (tableEntry t q v) 13 0 < 2 ^ 14 := Nat.mod_lt _ (by decide)
  simp only [transduce]
  split <;> exact ⟨state, Nat.lt_of_sub_eq_succ rfl⟩

/-! ## Bytes emitted -/

/-- Byte `i` from BASE. -/
theorem padElem_byte {s : State} {h : HandleWord} {c n i : Nat} (inside : InPad s h c (hBase h) n) (less : i < n) :
    PadElem s c (bare h 8) i (hBase h + i) 1 where
  bare := rfl
  bits := rfl
  some := Nat.one_pos
  place := by rw [bare]; push_cast; ring
  inside := inside.sub (by omega) (by omega)
  aligned := Nat.mod_one _

theorem emitBytes_written {s : State} {hd : HandleWord} {j : Job} {c : Nat} (core : j.padCore = c) (sound : s.poison = [])
    (bs : List Byte) {t : State} {out : List Byte} (before : PadWritten s t c (putBytes (s.padByte c) (hBase hd) out))
    (inside : InPad s hd c (hBase hd) (out ++ bs).length) :
    ∃ u, (emitBytes hd j bs out.length).run t = .ok ((), u) ∧
      PadWritten s u c (putBytes (s.padByte c) (hBase hd) (out ++ bs)) := by
  induction bs generalizing t out with
  | nil => exact ⟨t, rfl, by rwa [List.append_nil]⟩
  | cons b bs rest =>
    rw [List.append_cons] at inside
    have elem := (padElem_byte (i := out.length) inside (by simp)).written before
    have view : (j.view hd).core = some c := by simp [Job.view, inside.space, core]
    have put := elem.putElem view b.toNat
    have byte : leBytes 1 b.toNat = [b] := by simp [leBytes]
    have after := before.writePad sound (hBase hd + out.length) [b]
    rw [putBytes_append] at after
    obtain ⟨u, run, written⟩ := rest after (by simpa using inside)
    refine ⟨u, ?_, by simpa using written⟩
    rw [elem.nibbles, byte] at put
    rw [emitBytes, X.bind_ok (elem.writePlace core _)]
    dsimp only
    rw [List.length_append, List.length_singleton] at run
    exact (X.bind_ok put).trans run

/-! ## A run of nibbles -/

theorem xducOne_ok {t u : State} {hd hs : HandleWord} {j : Job} {b : Nat} {bs : List Byte} {q e : Nat}
    (even : j.pos % 2 = 0 → (readJob (j.access hs) (bare hs 8) none (j.pos / 2 : Nat) j).run t = .ok ((b, j), t))
    (odd : j.pos % 2 ≠ 0 → bitsOf j.got.2 23 16 = b)
    (one : transduce j.table [if j.pos % 2 = 0 then b % 16 else b / 16] (j.got.2 % 2 ^ 14) = (bs, q, e))
    (emits : (emitBytes hd j bs j.got.1).run t = .ok ((), u)) :
    (xducOne hd hs j).run t =
      .ok (({ j with pos := j.pos + 1, got := (j.got.1 + bs.length, q + e * 2 ^ 14 + b * 2 ^ 16) }, e != 0), u) := by
  rw [xducOne]
  by_cases parity : j.pos % 2 = 0
  case' pos => rw [if_pos parity, X.bind_ok (even parity)]
  case' neg => rw [if_neg parity, odd parity, pure_bind]
  all_goals
    dsimp only
    rw [one]
    dsimp only
    rw [X.bind_ok emits]
    rfl

/-- Nibble `i` from an address of the PAD, the low one of each byte first. -/
def State.nibble (s : State) (c a i : Nat) : Nat := (s.padByte c (a + i / 2)).toNat / 16 ^ (i % 2) % 16

theorem State.nibble_eq (s : State) (c a i : Nat) : s.nibble c a i =
    if i % 2 = 0 then (s.padByte c (a + i / 2)).toNat % 16 else (s.padByte c (a + i / 2)).toNat / 16 := by
  have small := (s.padByte c (a + i / 2)).isLt
  rw [State.nibble]
  rcases Nat.mod_two_eq_zero_or_one i with even | odd
  · rw [even, if_pos rfl, Nat.pow_zero, Nat.div_one]
  · rw [odd, if_neg Nat.one_ne_zero, Nat.pow_one]; omega

/-- The fields in which XDUC keeps the state, how it ended and the byte under way. -/
theorem xducFields {q e b : Nat} (state : q < 2 ^ 14) (ending : e < 4) (byte : b < 256) :
    (q + e * 2 ^ 14 + b * 2 ^ 16) % 2 ^ 14 = q ∧ (q + e * 2 ^ 14 + b * 2 ^ 16) / 2 ^ 14 % 4 = e ∧
      bitsOf (q + e * 2 ^ 14 + b * 2 ^ 16) 23 16 = b := by
  refine ⟨by omega, by omega, ?_⟩
  rw [bitsOf, Nat.shiftRight_eq_div_pow]
  omega

/-- A job of XDUC that has come to nibble `i`, with so many bytes emitted. -/
def Job.transduced (j : Job) (i emitted v : Nat) : Job := { j with pos := i, got := (emitted, v) }

section
variable {s : State} {j : Job} {c len : Nat} {hd hs : HandleWord} (core : j.padCore = c) (sound : s.poison = [])
  (source : InPad s hs c (hBase hs) len)
include core sound source

/-- R345, R382: one nibble, whose emission does not reach the source. -/
theorem xducOne_nibble {t : State} {i v : Nat} {out : List Byte} (less : i < 2 * len)
    (before : PadWritten s t c (putBytes (s.padByte c) (hBase hd) out))
    (kept : i % 2 = 1 → bitsOf v 23 16 = (s.padByte c (hBase hs + i / 2)).toNat)
    (inside : InPad s hd c (hBase hd) (out ++ (transduce j.table [s.nibble c (hBase hs) i] (v % 2 ^ 14)).1).length)
    (apart : hBase hs + len ≤ hBase hd ∨ hBase hd + out.length ≤ hBase hs) :
    ∃ u w, (xducOne hd hs (j.transduced i out.length v)).run t = .ok ((j.transduced (i + 1)
        (out ++ (transduce j.table [s.nibble c (hBase hs) i] (v % 2 ^ 14)).1).length w,
          (transduce j.table [s.nibble c (hBase hs) i] (v % 2 ^ 14)).2.2 != 0), u) ∧
      PadWritten s u c 
        (putBytes (s.padByte c) (hBase hd) (out ++ (transduce j.table [s.nibble c (hBase hs) i] (v % 2 ^ 14)).1)) ∧
      w % 2 ^ 14 = (transduce j.table [s.nibble c (hBase hs) i] (v % 2 ^ 14)).2.1 ∧
      w / 2 ^ 14 % 4 = (transduce j.table [s.nibble c (hBase hs) i] (v % 2 ^ 14)).2.2 ∧
      ((i + 1) % 2 = 1 → bitsOf w 23 16 = (s.padByte c (hBase hs + (i + 1) / 2)).toNat) := by
  have even : i % 2 = 0 → (readJob ((j.transduced i out.length v).access hs) (bare hs 8) none (i / 2 : Nat)
      (j.transduced i out.length v)).run t =
        .ok (((s.padByte c (hBase hs + i / 2)).toNat, j.transduced i out.length v), t) := fun _ => by
    have elem := (padElem_byte (i := i / 2) source (by omega)).written before
    have same : (t.core c).pad.read (hBase hs + i / 2) 1 = (s.core c).pad.read (hBase hs + i / 2) 1 :=
      before.read fun m one => putBytes_outside (by omega)
    have read := elem.readJob (before.poison.trans sound) (j := j.transduced i out.length v) core
    rw [same] at read
    exact read
  obtain ⟨bounded, ends⟩ := transduce_one_lt j.table (s.nibble c (hBase hs) i) (v % 2 ^ 14)
  have one : transduce j.table [if i % 2 = 0 then (s.padByte c (hBase hs + i / 2)).toNat % 16 else
      (s.padByte c (hBase hs + i / 2)).toNat / 16] (v % 2 ^ 14) = transduce j.table [s.nibble c (hBase hs) i] (v % 2 ^ 14) := by
    rw [State.nibble_eq]
  obtain ⟨u, emits, written⟩ := emitBytes_written (j := j.transduced i out.length v) core sound _ before inside
  obtain ⟨state, ending, underway⟩ := xducFields bounded ends (s.padByte c (hBase hs + i / 2)).isLt
  refine ⟨u, _, ?_, written, state, ending, fun odd => ?_⟩
  · have step := xducOne_ok (j := j.transduced i out.length v) even (fun odd => kept (Nat.mod_two_ne_zero.1 odd)) one emits
    rw [List.length_append]
    exact step
  · rw [underway, show (i + 1) / 2 = i / 2 by omega]

/-- R345, R382: a run of nibbles gives the transduction of all of them. -/
theorem runN_nibbles {m i v : Nat} {t : State} {out : List Byte} (all : i + m ≤ 2 * len)
    (before : PadWritten s t c (putBytes (s.padByte c) (hBase hd) out))
    (kept : i % 2 = 1 → bitsOf v 23 16 = (s.padByte c (hBase hs + i / 2)).toNat) (goes : v / 2 ^ 14 % 4 = 0)
    {r : List Byte × Nat × Nat} (result : r = transduce j.table ((List.range' i m).map (s.nibble c (hBase hs))) (v % 2 ^ 14))
    (inside : InPad s hd c (hBase hd) (out ++ r.1).length)
    (apart : hBase hs + len ≤ hBase hd ∨ hBase hd + (out ++ r.1).length ≤ hBase hs) :
    ∃ u k w, runN (xducOne hd hs) m (j.transduced i out.length v) t = .done (j.transduced k (out ++ r.1).length w) u ∧
      PadWritten s u c (putBytes (s.padByte c) (hBase hd) (out ++ r.1)) ∧ w % 2 ^ 14 = r.2.1 ∧ w / 2 ^ 14 % 4 = r.2.2 := by
  induction m generalizing i v t out r with
  | zero =>
    subst result
    exact ⟨t, i, v, by rw [List.range'_zero, List.map_nil, transduce, List.append_nil]; rfl,
      by rw [List.range'_zero, List.map_nil, transduce, List.append_nil]; exact before, rfl, goes⟩
  | succ m rest =>
    obtain ⟨o, single⟩ : ∃ o, o = transduce j.table [s.nibble c (hBase hs) i] (v % 2 ^ 14) := ⟨_, rfl⟩
    rw [List.range'_succ, List.map_cons, transduce_cons, ← single] at result
    have fits : (out ++ o.1).length ≤ (out ++ r.1).length := by
      rw [result, List.length_append, List.length_append]
      split <;> simp
    obtain ⟨u, w, step, after, state, ending, underway⟩ := xducOne_nibble core sound source (by omega) before kept
      (single ▸ inside.sub le_rfl (by omega)) (by rw [List.length_append] at apart; omega)
    rw [← single] at step after state ending
    by_cases more : o.2.2 = 0
    · rw [if_pos more, ← state] at result
      obtain ⟨tail, behind⟩ : ∃ tail, tail =
          transduce j.table ((List.range' (i + 1) m).map (s.nibble c (hBase hs))) (w % 2 ^ 14) := ⟨_, rfl⟩
      rw [← behind] at result
      subst result
      rw [← List.append_assoc] at inside apart ⊢
      obtain ⟨x, k, z, run, written⟩ := rest (by omega) after underway (ending.trans more) behind inside apart
      rw [more] at step
      exact ⟨x, k, z, (runN_more step m).trans run, written⟩
    · rw [if_neg more] at result
      subst result
      rw [bne_iff_ne.2 more] at step
      exact ⟨u, i + 1, w, runN_last step m, after, state, ending⟩

end

/-- R345, R382: XDUC. -/
theorem runXduc_bytes {s : State} {n c len : Nat} {j : Job} {hd hs : HandleWord} (fresh : FreshJob s n j c) {init : Word}
    (known : init.toNat % 2 ^ 14 < tableStates j.table) (source : InPad s hs c (hBase hs) len) {r : List Byte × Nat × Nat}
    (result : r = transduce j.table ((List.range (2 * len)).map (s.nibble c (hBase hs))) (init.toNat % 2 ^ 14))
    (inside : InPad s hd c (hBase hd) r.1.length) (apart : hBase hs + len ≤ hBase hd ∨ hBase hd + r.1.length ≤ hBase hs) :
    ∃ t k w, runXduc hd hs len init j s = .done (j.transduced k r.1.length w) t ∧
      PadWritten s t c (putBytes (s.padByte c) (hBase hd) r.1) ∧ w % 2 ^ 14 = r.2.1 ∧ w / 2 ^ 14 % 4 = r.2.2 := by
  have state : bitsOf init.toNat 13 0 = init.toNat % 2 ^ 14 := by rw [bitsOf, Nat.shiftRight_zero]
  have some : j.table.isEmpty = false := List.isEmpty_eq_false_iff.2 fun blank => by
    rw [blank] at known
    exact Nat.not_lt_zero _ known
  have goes : init.toNat % 2 ^ 14 / 2 ^ 14 % 4 = 0 := by omega
  rw [List.range_eq_range', ← Nat.mod_mod] at result
  obtain ⟨t, k, w, run, written⟩ := runN_nibbles fresh.core fresh.sound source (hd := hd) (out := []) (i := 0) (by omega)
    (putBytes_nil (s.padByte c) (hBase hd) ▸ PadWritten.refl s c) (fun odd => nomatch odd) goes result inside apart
  refine ⟨t, k, w, ?_, written⟩
  rw [runXduc, state, some, if_neg (by simpa using known), fresh.pos, if_pos rfl]
  dsimp only
  rw [if_pos goes, Nat.sub_zero]
  exact (congrArg (fun r : Ran => r.andThen (finishVoid hs)) run).trans (finishVoid_sound (by exact fresh.whole) t)

/-- R345: the detail of an XDUC's record. -/
theorem Job.detail_transduced {j : Job} {hd hs : HandleWord} {len k emitted w : Nat} {init : Word} {slot : BitVec 3}
    (kind : j.kind = .xduc hd hs len init slot) : (j.transduced k emitted w).detail =
      w64 (emitted % 2 ^ 32 + w % 2 ^ 14 * 2 ^ 32 + w / 2 ^ 14 % 4 * 2 ^ 62) := by
  have same : (j.transduced k emitted w).kind = .xduc hd hs len init slot := kind
  rw [Job.detail, same]
  rfl

/-! ## COLL (R345) -/

/-- The order of contributions by rank. -/
theorem sortBy_eq_insertionSort {α : Type} (le : α → α → Bool) (l : List α) :
    sortBy le l = l.insertionSort (fun a b => le a b) := by
  have one : insertBy le = List.orderedInsert (fun a b => le a b = true) := by
    funext v l
    rw [List.orderedInsert_eq_take_drop, insertBy]
    simp
  rw [sortBy, one, List.insertionSort]

/-- The relation by which contributions are sorted. -/
abbrev rankLe (a b : Nat × List Word) : Prop := decide (a.1 ≤ b.1) = true

theorem rankLe_iff {a b : Nat × List Word} : rankLe a b ↔ a.1 ≤ b.1 := decide_eq_true_iff

/-- Contributions sort by rank into one list, in whatever order they came, where no two have one rank. -/
theorem sortBy_rank_perm {parts perm : List (Nat × List Word)} (same : parts.Perm perm)
    (distinct : (parts.map (fun p => p.1)).Nodup) :
    sortBy (fun a b : Nat × List Word => a.1 ≤ b.1) perm = sortBy (fun a b => a.1 ≤ b.1) parts := by
  have total : Std.Total rankLe := ⟨fun a b => by simpa only [rankLe_iff] using Nat.le_total a.1 b.1⟩
  have trans : IsTrans _ rankLe := ⟨fun a b c ab bc => rankLe_iff.2 ((rankLe_iff.1 ab).trans (rankLe_iff.1 bc))⟩
  rw [sortBy_eq_insertionSort, sortBy_eq_insertionSort]
  have sorted (l : List (Nat × List Word)) : (l.insertionSort rankLe).Pairwise rankLe := List.pairwise_insertionSort rankLe l
  have alike : (perm.insertionSort rankLe).Perm (parts.insertionSort rankLe) :=
    (List.perm_insertionSort _ _).trans (same.symm.trans (List.perm_insertionSort _ _).symm)
  refine alike.eq_of_pairwise (fun a b mem mem' ab ba => ?_) (sorted perm) (sorted parts)
  have rank : a.1 = b.1 := Nat.le_antisymm (rankLe_iff.1 ab) (rankLe_iff.1 ba)
  exact List.inj_on_of_nodup_map distinct (same.mem_iff.2 ((List.mem_insertionSort _).1 mem))
    ((List.mem_insertionSort _).1 mem') rank

theorem sortBy_rank_sorted {parts : List (Nat × List Word)} (sorted : parts.Pairwise (fun a b => a.1 < b.1)) :
    sortBy (fun a b : Nat × List Word => a.1 ≤ b.1) parts = parts := by
  rw [sortBy_eq_insertionSort]
  exact List.Pairwise.insertionSort_eq (sorted.imp fun less => decide_eq_true (Nat.le_of_lt less))

theorem combineParts_perm (op : CollOp) (e : Elt) {parts perm : List (Nat × List Word)} (same : parts.Perm perm)
    (distinct : (parts.map (fun p => p.1)).Nodup) : combineParts op e perm = combineParts op e parts := by
  rw [combineParts, sortBy_rank_perm same distinct, combineParts]

theorem combineParts_sorted (op : CollOp) (e : Elt) {r : Nat} {v : List Word} {rest : List (Nat × List Word)}
    (sorted : ((r, v) :: rest).Pairwise (fun a b => a.1 < b.1)) :
    combineParts op e ((r, v) :: rest) = rest.foldl (fun acc p => (acc.zip p.2).map (fun a => collCombine op e a.1 a.2.toNat))
      (v.map (fun a => a.toNat)) := by
  rw [combineParts, sortBy_rank_sorted sorted]
  dsimp only
  congr 1
  funext acc p
  rw [List.zipWith_map_right, List.zip, List.map_zipWith]

end Sys2Proof.Machine
end

section
/-! PROOF. O36: the completion of a started job of each kind, and the statement. -/

namespace Sys2Proof.Machine

/-- Bytes that the PAD holds at another place, written: each byte stands as far from where it was. -/
theorem putBytes_read (s : State) (c src dst len : Nat) : putBytes (s.padByte c) dst ((s.core c).pad.read src len) =
    fun a => if dst ≤ a ∧ a < dst + len then s.padByte c (src + (a - dst)) else s.padByte c a := by
  funext a
  rw [putBytes, Store.length_read]
  by_cases inside : dst ≤ a ∧ a < dst + len
  · rw [if_pos inside, if_pos inside, Store.read, List.getElem?_map, List.getElem?_range (by omega)]
    rfl
  · rw [if_neg inside, if_neg inside]

/-! ## What each kind of job runs -/

section
variable {j : Job} {hd hs : HandleWord} {n : Nat} {addr init : Word} {slot : BitVec 3} {w : BitVec 128} (s : State)

theorem State.runJob_cpy (kind : j.kind = .cpy hd hs n) : s.runJob j = runCopy hd hs n j s := by
  rw [State.runJob, kind]

theorem State.runJob_xduc (kind : j.kind = .xduc hd hs n init slot) : s.runJob j = runXduc hd hs n init j s := by
  rw [State.runJob, kind]

theorem State.runJob_xtbl (kind : j.kind = .xtbl slot hs) : s.runJob j = runXtbl hs j s := by
  rw [State.runJob, kind]

theorem State.runJob_send (kind : j.kind = .send hs addr w) : s.runJob j = runSend hs addr w j s := by
  rw [State.runJob, kind]

theorem State.runJob_recv (kind : j.kind = .recv hd addr w) : s.runJob j = runRecv hd addr w j s := by
  rw [State.runJob, kind]

end

/-! ## Completions -/

namespace FreshJob
variable {s : State} {n c : Nat} {j : Job} (fresh : FreshJob s n j c)
include fresh

/-- R345: CPY of `len` bytes between ranges that do not meet. -/
theorem complete_cpy {hd hs : HandleWord} {len src dst : Nat} (kind : j.kind = .cpy hd hs len)
    (reads : src = hBase hs + (hCursor hs).toNat) (writes : dst = hBase hd + (hCursor hd).toNat)
    (source : InPad s hs c src len) (destination : InPad s hd c dst len) (apart : src + len ≤ dst ∨ dst + len ≤ src) :
    ∃ t, PadWritten s t c (fun a => if dst ≤ a ∧ a < dst + len then s.padByte c (src + (a - dst)) else s.padByte c a) ∧
      Machine.exec (.jobComplete n) s = .next (t.endJob { j with pos := len, got := (len, 0) }) := by
  obtain ⟨t, run, written⟩ := runCopy_bytes fresh source destination reads writes apart
  rw [putBytes_read] at written
  exact ⟨t, written, fresh.exec ((State.runJob_cpy s kind).trans run)⟩

/-- R345, R382: XDUC of `len` bytes. -/
theorem complete_xduc {hd hs : HandleWord} {len q ending : Nat} {init : Word} {slot : BitVec 3} {out : List Byte}
    (kind : j.kind = .xduc hd hs len init slot) (known : init.toNat % 2 ^ 14 < tableStates j.table)
    (source : InPad s hs c (hBase hs) len)
    (result : (out, q, ending) = transduce j.table ((List.range (2 * len)).map (s.nibble c (hBase hs))) (init.toNat % 2 ^ 14))
    (inside : InPad s hd c (hBase hd) out.length) (apart : hBase hs + len ≤ hBase hd ∨ hBase hd + out.length ≤ hBase hs) :
    ∃ t i, PadWritten s t c (putBytes (s.padByte c) (hBase hd) out) ∧ Machine.exec (.jobComplete n) s = .next (t.endJob i) ∧
      i = { j with pos := i.pos, got := i.got } ∧ i.detail = w64 (out.length % 2 ^ 32 + q * 2 ^ 32 + ending * 2 ^ 62) := by
  obtain ⟨t, k, w, run, written, state, ended⟩ := runXduc_bytes fresh known source result inside apart
  refine ⟨t, j.transduced k out.length w, written, fresh.exec ((State.runJob_xduc s kind).trans run), rfl, ?_⟩
  rw [Job.detail_transduced kind, state, ended]

/-- R345, R381: XTBL of a well-formed table. -/
theorem complete_xtbl {slot : BitVec 3} {hs : HandleWord} {states : Nat} {bs : List Byte} (kind : j.kind = .xtbl slot hs)
    (blank : j.table = []) (aligned : hBase hs % 64 = 0) (some : 1 ≤ states) (few : states ≤ 16384)
    (inside : InPad s hs c (hBase hs) (64 + 64 * states)) (bytes : bs = (s.core c).pad.read (hBase hs) (64 + 64 * states))
    (count : leNat (bs.take 4) = states) (zeros : ∀ b ∈ (bs.drop 4).take 60, b = 0)
    (entries : ∀ i < 16 * states, ∀ w, w = leNat ((bs.drop (64 + 4 * i)).take 4) →
      w < 2 ^ 26 ∧ w / 2 ^ 14 % 4 = 0 ∧ (w / 2 ^ 24 % 4 = 1 ∨ w / 2 ^ 16 % 256 = 0) ∧ w % 2 ^ 14 < states) :
    Machine.exec (.jobComplete n) s = .next (s.endJob { j with pos := 1 + states, table := bs }) := by
  subst bytes
  have run := runXtbl_table fresh blank aligned some few inside count (leNat_zeros zeros) fun i less => by
    obtain ⟨reserved, zero, emits, next⟩ := entries i less _ rfl
    exact entryOk_of reserved zero emits next
  exact fresh.exec ((State.runJob_xtbl s kind).trans run)

section
variable {h : HandleWord} {addr : Word} {w : BitVec 128} (fits : transferOk h addr = true) (way : s.waybillOk w engMemory = true)
include fits way

/-- R345: SEND to a die of the module. -/
theorem complete_send_here {t : State} (kind : j.kind = .send h addr w) (blank : j.table = [])
    (inside : InPad s h c (hBase h) (hBound h)) (here : wbHops w = 0)
    (served : s.serve (wbCore w / 256) (.write addr ((s.core c).pad.read (hBase h) (hBound h))) = .report .visible t) :
    Machine.exec (.jobComplete n) s = .next (t.endJob { j with
      pos := hBound h / 64, table := (s.core c).pad.read (hBase h) (hBound h) }) := by
  have run := runSend_here fresh blank fits way inside here
  rw [serveHere_visible served] at run
  exact fresh.exec ((State.runJob_send s kind).trans run)

/-- R345: SEND to another module. -/
theorem complete_send_away (kind : j.kind = .send h addr w) (blank : j.table = [])
    (inside : InPad s h c (hBase h) (hBound h)) (far : wbHops w ≠ 0) (up : s.downLink w = none) :
    Machine.exec (.jobComplete n) s = .next ((s.emit (.packet j.id w addr ((s.core c).pad.read (hBase h) (hBound h)))).setJob
      { j with pos := hBound h / 64, table := (s.core c).pad.read (hBase h) (hBound h), phase := .remote, moved := s.time }) :=
  fresh.exec_away ((State.runJob_send s kind).trans (runSend_away fresh blank fits way inside far up))

/-- R345: RECV from a die of the module. -/
theorem complete_recv_here {t : State} {bs : List Byte} (kind : j.kind = .recv h addr w) (here : wbHops w = 0)
    (served : s.serve (wbCore w / 256) (.read addr (hBound h) j.id) = .report (.data bs) t) (sound : t.poison = [])
    (long : bs.length = hBound h) (inside : InPad t h c (hBase h) (hBound h)) :
    ∃ u, PadWritten t u c (putBytes (t.padByte c) (hBase h) bs) ∧
      Machine.exec (.jobComplete n) s = .next (u.endJob { j with table := bs, pos := hBound h / 64, got := (1, 0) }) := by
  obtain ⟨u, run, written⟩ := runRecv_here fresh kind fits way here served sound long inside
  exact ⟨u, written, fresh.exec ((State.runJob_recv s kind).trans run)⟩

/-- R345: RECV from another module. -/
theorem complete_recv_away (kind : j.kind = .recv h addr w) (far : wbHops w ≠ 0) (up : s.downLink w = none) :
    Machine.exec (.jobComplete n) s = .next ((s.emit (.fetch j.id w addr (hBound h))).setJob
      { j with got := (1, 0), phase := .remote, moved := s.time }) :=
  fresh.exec_away ((State.runJob_recv s kind).trans (runRecv_away fresh fits way far up))

end

end FreshJob

/-- R344: a job that is ready, and the only one that its engine may take, starts. -/
theorem exec_jobStart_only {s : State} {n : Nat} {j : Job} (job : s.job? n = some j) (ready : s.jobReady j = true)
    (only : ∀ i ∈ s.jobs, s.jobReady i = true → i.die = j.die → i.kind.engine = j.kind.engine → i = j) :
    ∃ t, exec (.jobStart n) s = .next t ∧ t = { s with jobs := t.jobs } ∧
      t.job? n = some { j with phase := .started, moved := s.time } := by
  obtain ⟨listed, own⟩ := State.job?_some job
  exact ⟨_, exec_jobStart_next job (State.nextJob_only listed ready only), rfl, State.job?_setJob job own⟩

/-- Settles O36: each kind of job runs by an induction over the bytes, nibbles or lines that it moves, whose invariant is
the bytes of the PAD so far; contributions sort by rank into one list. -/
theorem jobSteps : Obligations.JobSteps := by
  unfold Obligations.JobSteps
  refine ⟨fun s n j job => ⟨exec_jobStart_only job, fun hs a w kind remote number =>
      exec_sendReportArrive_visible job kind remote number, fun op hd hs k g elems kind remote =>
      exec_collResultArrive_complete elems job kind remote, fun c k => State.endJob_ctx, ?work⟩,
    fun s j slot hs => State.slot_jobEffect, fun op e parts perm => combineParts_perm op e,
    fun op e r v rest => combineParts_sorted op e⟩
  intro c started core pos got whole punctual sound
  have fresh : FreshJob s n j c := ⟨job, started, core, pos, got, whole, punctual, sound⟩
  refine ⟨fun hd hs len src dst => fresh.complete_cpy, ?xduc, fun slot hs states bs => fresh.complete_xtbl, ?send, ?recv⟩
  case xduc =>
    rintro hd hs len init slot out q ending p kind known source result inside apart rfl
    exact fresh.complete_xduc kind known source result inside apart
  case send =>
    rintro hs addr w bs kind blank base bound address few way inside rfl
    have fits : transferOk hs addr = true := transferOk_iff.2 ⟨base, bound, address, few⟩
    exact ⟨fun t here served => fresh.complete_send_here fits way kind blank inside here served,
      fun far up => fresh.complete_send_away fits way kind blank inside far up⟩
  case recv =>
    intro hd addr w kind base bound address few way
    have fits : transferOk hd addr = true := transferOk_iff.2 ⟨base, bound, address, few⟩
    refine ⟨fun t bs here served clean long inside => ?_, fun far up => fresh.complete_recv_away fits way kind far up⟩
    obtain ⟨u, written, ends⟩ := fresh.complete_recv_here fits way kind here served clean long inside
    exact ⟨u, by rw [← long]; exact written, ends⟩

end Sys2Proof.Machine
end

section
/-! PROOF. FAULT_RECORD_WRITE and WATCHDOG (R403 to R405, R409): which record of a die comes next, what the writing of one
leaves, and the halt of a task one of whose units is stuck. -/

namespace Sys2Proof.Machine

/-! ## The bytes of a record (R403) -/

theorem FaultRec.length_bytes (r : FaultRec) (d : Nat) (grade : Grade) (escalated : Bool) (seq : Word) :
    (r.bytes d grade escalated seq).length = 64 := by
  simp only [FaultRec.bytes, List.length_append, List.length_cons, List.length_nil, length_leBytes]

/-- What is read within bytes that were written is their part. -/
theorem memRead_memWrite (l : List Host.Cell) (a : Nat) {bs : List Byte} {i n : Nat} (inside : i + n ≤ bs.length) :
    memRead (memWrite l a bs) (a + i) n = (bs.drop i).take n := by
  refine List.ext_getElem (by simp [memRead]; omega) fun m less _ => ?_
  have small : m < n := by simpa [memRead] using less
  have there : i + m < bs.length := by omega
  simp only [memRead, List.getElem_map, List.getElem_range, List.getElem_take, List.getElem_drop, memGet_memWrite]
  rw [if_pos (by omega), show a + i + m - a = i + m by omega, List.getElem?_eq_getElem there, Option.getD_some]

/-! ## Which record comes next (R405) -/

/-- A queue of a legal capacity has room where fewer records stand between its head and its tail (R397). -/
theorem Die.fqRoom_iff {x : Die} {j : Nat} (least : 6 ≤ j) (capacity : x.fqCapacity.toNat = 2 ^ j) :
    x.fqRoom = true ↔ (x.fqTail - x.fqHead).toNat < 2 ^ j := by
  have enough : 64 ≤ 2 ^ j := Nat.pow_le_pow_right (n := 2) (by decide) least
  have legal : legalFq (2 ^ j) = true := by simp [legalFq, Nat.log2_two_pow, enough]
  have used : x.fqTail.toNat + 2 ^ 64 - x.fqHead.toNat = 2 ^ 64 - x.fqHead.toNat + x.fqTail.toNat := by
    have := x.fqHead.isLt; omega
  rw [Die.fqRoom, capacity, legal, Bool.true_and, decide_eq_true_iff, BitVec.toNat_sub, used]

theorem Die.nextRecord_room {x : Die} {r : FaultRec} {rest : List FaultRec} (first : x.pending = r :: rest)
    (room : x.fqRoom = true) : x.nextRecord = some (0, r) := by
  simp only [Die.nextRecord, first, room, if_true]

/-- With no room, records that all wait stay. -/
theorem Die.nextRecord_waits {x : Die} (full : x.fqRoom = false) (waits : ∀ p ∈ x.pending, p.keeps = true) :
    x.nextRecord = none := by
  cases pending : x.pending with
  | nil => simp only [Die.nextRecord, pending]
  | cons r rest =>
    have stay : (x.pending.zipIdx.find? fun p => !p.1.keeps) = none :=
      List.find?_eq_none.2 fun p listed => by rw [waits p.1 (List.fst_mem_of_mem_zipIdx listed)]; decide
    rw [pending] at stay
    simp only [Die.nextRecord, pending, full, Bool.false_eq_true, if_false, stay, Option.map_none]

/-- With no room, the oldest record comes next where it does not wait. -/
theorem Die.nextRecord_drops {x : Die} {r : FaultRec} {rest : List FaultRec} (first : x.pending = r :: rest)
    (full : x.fqRoom = false) (logged : r.keeps = false) : x.nextRecord = some (0, r) := by
  have found : ((r :: rest).zipIdx.find? fun p => !p.1.keeps) = some (r, 0) := by
    rw [List.zipIdx_cons, List.find?_cons_of_pos (by simp [logged])]
  simp only [Die.nextRecord, first, full, Bool.false_eq_true, if_false, found, Option.map_some]

theorem removeAt_zero {α : Type} (r : α) (rest : List α) : removeAt 0 (r :: rest) = rest := rfl

theorem State.setDie_setDie (s : State) (d : Nat) (v w : Die) : (s.setDie d v).setDie d w = s.setDie d w := by
  simp only [State.setDie, Vector.setIfInBounds_setIfInBounds]

section
variable {s : State} {d : DieNo} {r : FaultRec} {rest : List FaultRec}

theorem exec_faultRecordWrite_none (stays : (s.die d.toNat).nextRecord = none) : exec (.faultRecordWrite d) s = .next s := by
  change execFaultRecordWrite d s = _
  simp only [execFaultRecordWrite, stays]

theorem exec_faultRecordWrite_room (first : (s.die d.toNat).pending = r :: rest) (unbound : r.launch = none)
    (room : (s.die d.toNat).fqRoom = true) : exec (.faultRecordWrite d) s =
      .next ((s.setDie d.toNat { s.die d.toNat with pending := rest }).writeRecord d.toNat r) := by
  have still : ({ s.die d.toNat with pending := rest } : Die).fqRoom = true := room
  change execFaultRecordWrite d s = _
  simp only [execFaultRecordWrite, Die.nextRecord_room first room, first, removeAt_zero, State.die_setDie_self s d.isLt, still,
    if_true, unbound, Option.toList_none, State.completeAll]

theorem exec_faultRecordWrite_drops (first : (s.die d.toNat).pending = r :: rest) (unbound : r.launch = none)
    (full : (s.die d.toNat).fqRoom = false) (logged : r.keeps = false) : exec (.faultRecordWrite d) s =
      .next (s.setDie d.toNat { s.die d.toNat with
        pending := rest, dropped := (s.die d.toNat).dropped + 1, nextSeq := (s.die d.toNat).nextSeq + 1 }) := by
  have still : ({ s.die d.toNat with pending := rest } : Die).fqRoom = false := full
  change execFaultRecordWrite d s = _
  simp only [execFaultRecordWrite, Die.nextRecord_drops first full logged, first, removeAt_zero, State.die_setDie_self s d.isLt,
    still, Bool.false_eq_true, if_false, State.setDie_setDie, unbound, Option.toList_none, State.completeAll]

end

/-! ## What the writing of a record leaves (R403, R405) -/

/-- A service record may wake the die's core of the control complex (R180), and no other core. -/
theorem State.wakeControl_core_ne (s : State) (d : Nat) (r : FaultRec) {n : Nat} (other : n ≠ 1024 + d) :
    (s.wakeControl d r).core n = s.core n := by
  unfold State.wakeControl
  split
  · exact State.core_setCore_ne s other _
  · rfl

theorem State.wakeControl_cores {s : State} {d : Nat} {r : FaultRec} (plain : r.status ≠ .service) :
    (s.wakeControl d r).cores = s.cores := by
  rw [State.wakeControl, if_neg (by simpa using plain)]

theorem State.wakeControl_only (s : State) (d : Nat) (r : FaultRec) :
    s.wakeControl d r = { s with cores := (s.wakeControl d r).cores } := by
  unfold State.wakeControl
  split <;> rfl

theorem State.wakeControl_cores_congr {s t : State} (d : Nat) (r : FaultRec) (same : t.cores = s.cores) :
    (t.wakeControl d r).cores = (s.wakeControl d r).cores := by
  unfold State.wakeControl
  split
  · simp only [State.setCore, State.core, same]
  · exact same

/-- That a record has told of stacks over their limit is noted for the stacks alone (R412). -/
theorem State.hbmTold_only (l : List Nat) (s : State) : ∃ told,
    l.foldl (fun (s : State) n => { s with hbmLimit := s.hbmLimit.setIfInBounds n true }) s = { s with hbmLimit := told } := by
  induction l generalizing s with
  | nil => exact ⟨s.hbmLimit, rfl⟩
  | cons n l rest => exact rest _

/-- `t` is `s` after a record `r` has been written on die `d` at address `a`: its 64 bytes stand there with the queue's sequence
number, the tail and the sequence advance, and a service record may wake the die's control core. -/
structure RecordWritten (s t : State) (d : Nat) (r : FaultRec) (a : Nat) : Prop where
  mem : ∃ grade escalated, t.mem = memWrite s.mem a (r.bytes d grade escalated (s.die d).nextSeq)
  hostMem : t.hostMem = s.hostMem
  dies : t.dies = (s.setDie d { s.die d with fqTail := (s.die d).fqTail + 1, nextSeq := (s.die d).nextSeq + 1 }).dies
  cores : t.cores = (s.wakeControl d r).cores
  counted : t.recordsWritten = s.recordsWritten + 1

/-- A store into near memory changes its bytes, and the poison of what it rewrites (R265). -/
theorem State.storeAt_near (s : State) (addr home : Nat) (bs : List Byte) : ∃ poison,
    s.storeAt { far := false, addr := addr, home := home } bs = { s with mem := memWrite s.mem addr bs, poison := poison } := by
  unfold State.storeAt State.rewrite
  split <;> exact ⟨_, rfl⟩

theorem State.writeRecord_written {s : State} {r : FaultRec} (d : Nat) (unbound : r.launch = none) :
    RecordWritten s (s.writeRecord d r) d r
      ((s.die d).fqBase.toNat + 64 * ((s.die d).fqTail.toNat % (s.die d).fqCapacity.toNat)) := by
  have unnoted : ∀ u : State, u.noteFirst r = u := fun u => by rw [State.noteFirst, unbound]; rfl
  rw [State.writeRecord]
  obtain ⟨grade, escalated⟩ := s.finalGrade d r
  obtain ⟨told, hbm⟩ := State.hbmTold_only (s.hbmOver r) s
  obtain ⟨poison, stored⟩ := State.storeAt_near { s with hbmLimit := told }
    ((s.die d).fqBase.toNat + 64 * ((s.die d).fqTail.toNat % (s.die d).fqCapacity.toNat)) d
    (r.bytes d grade escalated (s.die d).nextSeq)
  dsimp only
  rw [hbm, stored, unnoted, State.wakeControl_only]
  split <;> exact ⟨⟨grade, escalated, rfl⟩, rfl, rfl, State.wakeControl_cores_congr d r rfl, rfl⟩

namespace RecordWritten
variable {s t : State} {d a : Nat} {r : FaultRec} (w : RecordWritten s t d r a)
include w

theorem die (legal : d < 4) : t.die d =
    { s.die d with fqTail := (s.die d).fqTail + 1, nextSeq := (s.die d).nextSeq + 1 } := by
  rw [State.die, w.dies]
  exact State.die_setDie_self s legal _

theorem core_ne {n : Nat} (other : n ≠ 1024 + d) : t.core n = s.core n := by
  rw [State.core, w.cores]
  exact s.wakeControl_core_ne d r other

theorem nearByte_outside {y : Nat} (outside : y < a ∨ a + 64 ≤ y) : t.nearByte y = s.nearByte y := by
  obtain ⟨grade, escalated, mem⟩ := w.mem
  rw [State.nearByte, mem, memGet_memWrite, r.length_bytes, if_neg (by omega), State.nearByte]

theorem farByte (y : Nat) : t.farByte y = s.farByte y := by rw [State.farByte, w.hostMem, State.farByte]

/-- The fields of the record at their offsets (R403). -/
theorem fields : t.nearByte a = r.code ∧ memRead t.mem (a + 0x18) 8 = leBytes 8 r.epc.toNat ∧
    memRead t.mem (a + 0x20) 8 = leBytes 8 r.detail.toNat ∧ memRead t.mem (a + 0x28) 8 = leBytes 8 r.time.toNat ∧
    memRead t.mem (a + 0x30) 8 = leBytes 8 (s.die d).nextSeq.toNat := by
  obtain ⟨grade, escalated, mem⟩ := w.mem
  have long := r.length_bytes d grade escalated (s.die d).nextSeq
  have field : ∀ i, i + 8 ≤ 64 → memRead t.mem (a + i) 8 =
      ((r.bytes d grade escalated (s.die d).nextSeq).drop i).take 8 := fun i inside => by
    rw [mem, memRead_memWrite s.mem a (by omega)]
  refine ⟨?_, field _ (by decide), field _ (by decide), field _ (by decide), field _ (by decide)⟩
  rw [State.nearByte, mem, memGet_memWrite, if_pos (by omega), Nat.sub_self]
  rfl

end RecordWritten

/-- R403, R405: the oldest record of a die is written where there is room. -/
theorem faultRecordWrite_writes {s : State} {d : DieNo} {r : FaultRec} {rest : List FaultRec}
    (first : (s.die d.toNat).pending = r :: rest) (unbound : r.launch = none) (room : (s.die d.toNat).fqRoom = true) :
    ∃ t, exec (.faultRecordWrite d) s = .next t ∧
      RecordWritten (s.setDie d.toNat { s.die d.toNat with pending := rest }) t d.toNat r
        ((s.die d.toNat).fqBase.toNat + 64 * ((s.die d.toNat).fqTail.toNat % (s.die d.toNat).fqCapacity.toNat)) := by
  have written := State.writeRecord_written (s := s.setDie d.toNat { s.die d.toNat with pending := rest }) d.toNat unbound
  rw [State.die_setDie_self s d.isLt] at written
  exact ⟨_, exec_faultRecordWrite_room first unbound room, written⟩

/-! ## WATCHDOG (R409) -/

section
variable {s : State} {c : CoreNo} {k : Bool} {src : BitVec 8} {q : QName} (unit : sourceQueue src = some q)
include unit

theorem exec_watchdog_idle (idle : s.stuckEntry c.toNat k q = none) : exec (.watchdog c k src) s = .next s := by
  change execWatchdog c k src s = _
  simp only [execWatchdog, unit, idle]

theorem exec_watchdog_stuck {e : Entry} (stuck : s.stuckEntry c.toNat k q = some e) : exec (.watchdog c k src) s =
    .next (((s.countDog (dieOf c.toNat)).setCtx c.toNat k ((s.ctx c.toNat k).setQueue q
      (((s.ctx c.toNat k).queue q).filter (fun f => f.seq != e.seq)))).takeTrap c.toNat k .halted true src
        (s.ctx c.toNat k).pc (watchdogTrap src)) := by
  change execWatchdog c k src s = _
  simp only [execWatchdog, unit, stuck]

end

theorem State.stuckEntry_none {s : State} {c : Nat} {k : Bool} {q : QName}
    (moving : ∀ e ∈ (s.ctx c k).queue q, e.working = true → s.time.toNat < e.moved.toNat + 2 ^ 30) :
    s.stuckEntry c k q = none := by
  refine List.find?_eq_none.2 fun e listed stuck => ?_
  rw [Bool.and_eq_true, State.stale, decide_eq_true_iff] at stuck
  have := moving e listed stuck.1
  omega

@[simp] theorem Context.setQueue_supervisor (x : Context) (q : QName) (l : List Entry) :
    (x.setQueue q l).supervisor = x.supervisor := by cases q <;> rfl
@[simp] theorem Context.setQueue_mode (x : Context) (q : QName) (l : List Entry) : (x.setQueue q l).mode = x.mode := by
  cases q <;> rfl

/-- A compute core lies on a die of the module (R146). -/
theorem dieOf_coreNo (c : CoreNo) : dieOf c.toNat < 4 := by
  have := c.isLt
  rw [dieOf, if_pos this]
  omega

theorem State.watchdogs_raise {s : State} {d : Nat} (legal : d < 4) (r : FaultRec) :
    ((s.raise d r).die d).watchdogs = (s.die d).watchdogs := by
  rw [State.raise, State.die_setDie_self s legal]

theorem State.watchdogs_countDog {s : State} {d : Nat} (legal : d < 4) :
    ((s.countDog d).die d).watchdogs = (s.die d).watchdogs + 1 := by
  rw [State.countDog, State.die_setDie_self s legal]

theorem causeWord_watchdog : causeWord 0x1A true = 0x11A := by decide

/-- The stuck entry is abandoned, and the live task halts. -/
theorem watchdog_halts {s : State} {c : CoreNo} {k : Bool} {src : BitVec 8} {q : QName} {e : Entry}
    (unit : sourceQueue src = some q) (stuck : s.stuckEntry c.toNat k q = some e)
    (user : (s.ctx c.toNat k).supervisor = false) (live : (s.ctx c.toNat k).mode = .live) :
    ∃ t, exec (.watchdog c k src) s = .next t ∧
      t.ctx c.toNat k = { (s.ctx c.toNat k).setQueue q (((s.ctx c.toNat k).queue q).filter (fun f => f.seq != e.seq)) with
        tcause := 0x11A, tval := src.zeroExtend 64, epc := (s.ctx c.toNat k).pc, hold := none, mode := .halted } ∧
      t.ctx c.toNat (!k) = s.ctx c.toNat (!k) ∧ (t.die (dieOf c.toNat)).watchdogs = (s.die (dieOf c.toNat)).watchdogs + 1 ∧
      (∀ n, n ≠ c.toNat → t.core n = s.core n) ∧ SameBytes s t := by
  have counted : SameStores s (s.countDog (dieOf c.toNat)) := sameStores_setDie s _ _
  have cause : causeWord (watchdogTrap src).code true = 0x11A := causeWord_watchdog
  have ran := exec_watchdog_stuck unit stuck
  rw [State.takeTrap_live (t := watchdogTrap src) rfl rfl (show (0x1A : BitVec 8) ≠ 0x1B by decide)
    (by rw [State.ctx_setCtx_self, Context.setQueue_supervisor, user])
    (by rw [State.ctx_setCtx_self, Context.setQueue_mode, live]), cause, State.ctx_setCtx_self, State.setCtx_setCtx] at ran
  refine ⟨_, ran, ?_, ?_, ?_, fun n other => ?_, ?_⟩
  · rw [(sameStores_raise _ _ _).ctx, State.ctx_setCtx_self, watchdogTrap]
  · rw [(sameStores_raise _ _ _).ctx, State.ctx_setCtx_not, counted.ctx]
  · rw [State.watchdogs_raise (dieOf_coreNo c)]
    exact State.watchdogs_countDog (dieOf_coreNo c)
  · rw [(sameStores_raise _ _ _).core, State.core_setCtx_ne _ other, counted.core]
  · exact (counted.sameBytes.trans (sameBytes_setCore _ _ _)).trans (sameStores_raise _ _ _).sameBytes

/-! ## The statement -/

/-- The sources of the queues' units (R403). -/
theorem sourceQueue_of_mem {src : BitVec 8} {q : QName} (listed : (src, q) ∈ [(1#8, QName.lq), (2#8, .cq), (3#8, .sq)]) :
    sourceQueue src = some q := by
  simp only [List.mem_cons, Prod.mk.injEq, List.not_mem_nil, or_false] at listed
  obtain ⟨rfl, rfl⟩ | ⟨rfl, rfl⟩ | ⟨rfl, rfl⟩ := listed <;> rfl

/-- Settles O49: the record that comes next is written through what the writing leaves, or waits, or is dropped, and WATCHDOG
through the exception that a live task takes. -/
theorem faultRecords : Obligations.FaultRecords := by
  refine ⟨fun s d x r rest j a own first unbound least capacity tail => ?records, fun s c k x own src q listed => ?watchdog⟩
  case records =>
    have roomy := Die.fqRoom_iff least capacity
    have full : 2 ^ j ≤ (x.fqTail - x.fqHead).toNat → x.fqRoom = false := fun crowded =>
      Bool.eq_false_iff.2 fun room => Nat.not_lt.2 crowded (roomy.1 room)
    rw [← capacity] at tail
    subst own tail
    refine ⟨fun under => ?written, fun crowded waits => exec_faultRecordWrite_none (Die.nextRecord_waits (full crowded) waits),
      fun crowded logged => exec_faultRecordWrite_drops first unbound (full crowded) logged⟩
    obtain ⟨t, ran, w⟩ := faultRecordWrite_writes first unbound (roomy.2 under)
    have after := w.die d.isLt
    obtain ⟨code, epc, detail, time, seq⟩ := w.fields
    rw [State.die_setDie_self s d.isLt] at after seq
    exact ⟨t, ran, by rw [after], by rw [after], by rw [after], w.counted, code, epc, detail, time, seq,
      fun y => w.nearByte_outside, w.farByte, fun plain => w.cores.trans (State.wakeControl_cores plain), fun n => w.core_ne⟩
  case watchdog =>
    subst own
    have unit := sourceQueue_of_mem listed
    exact ⟨fun moving => exec_watchdog_idle unit (State.stuckEntry_none moving), fun e => watchdog_halts unit⟩

end Sys2Proof.Machine
end

section
/-! PROOF. How the entry at the head of a launch queue becomes a waiting launch (R12, R17, R25, R443): what the reading of its
record and tables and the splitting of its regions' leaves keep, and what its acceptance adds. -/

namespace Sys2Proof.Machine

/-! ## What reading a launch and splitting its leaves keep -/

/-- The books of launches, tasks and launch queues, TIME and the module's state are as they were, and of the cores only cache
rooms and PERF registers differ. -/
structure KeepsLaunches (s t : State) : Prop where
  launches : t.launches = s.launches
  tasks : t.tasks = s.tasks
  nextId : t.nextId = s.nextId
  time : t.time = s.time
  modState : t.modState = s.modState
  queues : ∀ d, (t.die d).queues = (s.die d).queues
  core : ∀ n, t.core n = { s.core n with cache := (t.core n).cache, perf := (t.core n).perf }

theorem KeepsLaunches.refl (s : State) : KeepsLaunches s s := ⟨rfl, rfl, rfl, rfl, rfl, fun _ => rfl, fun _ => rfl⟩

theorem KeepsLaunches.trans {s t u : State} (h : KeepsLaunches s t) (g : KeepsLaunches t u) : KeepsLaunches s u :=
  ⟨g.launches.trans h.launches, g.tasks.trans h.tasks, g.nextId.trans h.nextId, g.time.trans h.time, g.modState.trans h.modState,
    fun d => (g.queues d).trans (h.queues d), fun n => by rw [g.core, h.core]⟩

/-- A fold of updates that each keep the launches keeps them. -/
theorem KeepsLaunches.foldl {α : Type} {f : State → α → State} (each : ∀ s a, KeepsLaunches s (f s a)) (l : List α) (s : State) :
    KeepsLaunches s (l.foldl f s) :=
  List.foldlRecOn (motive := KeepsLaunches s) l f (.refl s) fun t kept a _ => kept.trans (each t a)

theorem KeepsLaunches.queue {s t : State} (h : KeepsLaunches s t) (d : Nat) (c : BitVec 3) :
    (t.die d).queue c = (s.die d).queue c := by
  simp only [Die.queue, h.queues]

theorem KeepsLaunches.goodBanks {s t : State} (h : KeepsLaunches s t) (n : Nat) : (t.core n).goodBanks = (s.core n).goodBanks := by
  rw [h.core]; rfl

/-- Accesses through the caches keep the launches. -/
theorem Touches.keepsLaunches {s t : State} (h : Touches s t) : KeepsLaunches s t := by
  refine ⟨?_, ?_, ?_, ?_, ?_, fun d => ?_, h.cores⟩
  all_goals rw [h.rest]
  rfl

theorem keepsLaunches_mem (s : State) (m : List Host.Cell) : KeepsLaunches s { s with mem := m } :=
  ⟨rfl, rfl, rfl, rfl, rfl, fun _ => rfl, fun _ => rfl⟩

theorem keepsLaunches_writeNear (s : State) (a n v : Nat) : KeepsLaunches s (s.writeNear a n v) := keepsLaunches_mem s _

theorem keepsLaunches_tlbDropLeaf (s : State) (a : Nat) : KeepsLaunches s (s.tlbDropLeaf a) := (touches_tlb s _).keepsLaunches

/-- A core whose frames' lines are dropped keeps all but its cache room. -/
theorem State.core_dropLines (s : State) (a n c : Nat) :
    (s.dropLines a n).core c = { s.core c with cache := ((s.dropLines a n).core c).cache } := by
  simp only [State.core, State.dropLines, findKey_eq_find?, List.find?_map, Function.comp_def]
  cases s.cores.find? (·.1 == c) <;> rfl

theorem keepsLaunches_dropLines (s : State) (a n : Nat) : KeepsLaunches s (s.dropLines a n) :=
  ⟨rfl, rfl, rfl, rfl, rfl, fun _ => rfl, fun c => by rw [State.core_dropLines]⟩

/-- A die set to one with its own launch queues leaves every die's; a die that does not exist is not set. -/
theorem State.queues_setDie (s : State) {d : Nat} {v : Die} (same : v.queues = (s.die d).queues) (e : Nat) :
    ((s.setDie d v).die e).queues = (s.die e).queues := by
  rw [State.die, State.setDie, Vector.getElem?_setIfInBounds]
  split
  case isTrue here =>
    subst here
    split
    case isTrue => exact same
    case isFalse out => rw [State.die, Vector.getElem?_eq_none (by omega)]
  case isFalse => rfl

theorem keepsLaunches_setDie (s : State) {d : Nat} {v : Die} (same : v.queues = (s.die d).queues) : KeepsLaunches s (s.setDie d v) :=
  ⟨rfl, rfl, rfl, rfl, rfl, State.queues_setDie s same, fun _ => rfl⟩

/-- A frame goes back into its ring in memory, or to the frames that its die holds. -/
theorem keepsLaunches_release (s : State) (f : Nat) : KeepsLaunches s (s.release f) := by
  unfold State.release State.releaseTo
  dsimp only
  split
  · exact keepsLaunches_setDie s rfl
  · exact keepsLaunches_mem s _

theorem keepsLaunches_leavesBack (s : State) (fs : List MovedLeaf) : KeepsLaunches s (s.leavesBack fs) :=
  .foldl (fun s _ => (((keepsLaunches_writeNear s _ _ _).trans (keepsLaunches_tlbDropLeaf _ _)).trans
    (keepsLaunches_dropLines _ _ _)).trans (keepsLaunches_release _ _)) fs s

theorem keepsLaunches_dropReplica (s : State) (span : Nat) : KeepsLaunches s (s.dropReplica span) :=
  (keepsLaunches_leavesBack s _).trans ⟨rfl, rfl, rfl, rfl, rfl, fun _ => rfl, fun _ => rfl⟩

theorem keepsLaunches_abandonMove (s : State) (span : Nat) : KeepsLaunches s (s.abandonMove span) :=
  (keepsLaunches_leavesBack s _).trans ⟨rfl, rfl, rfl, rfl, rfl, fun _ => rfl, fun _ => rfl⟩

theorem keepsLaunches_ringTake {s t : State} {d k f : Nat} (taken : s.ringTake d k = some (f, t)) : KeepsLaunches s t := by
  unfold State.ringTake at taken
  dsimp only at taken
  split at taken
  · cases taken
  · obtain ⟨-, rfl⟩ := Prod.mk.inj (Option.some.inj taken)
    exact keepsLaunches_writeNear s _ _ _

/-- A leaf that is split takes a frame of the ring and is rewritten in memory (R223). -/
theorem keepsLaunches_splitLeaf {s t : State} {d a lvl e : Nat} (done : s.splitLeaf d a lvl e = some t) : KeepsLaunches s t := by
  unfold State.splitLeaf at done
  split at done
  · cases done
  next taken =>
    cases done
    exact (((keepsLaunches_ringTake taken).trans (keepsLaunches_mem _ _)).trans (keepsLaunches_writeNear _ _ _ _)).trans
      (keepsLaunches_tlbDropLeaf _ _)

theorem keepsLaunches_splitLeaf_getD (s : State) (d a lvl e : Nat) : KeepsLaunches s ((s.splitLeaf d a lvl e).getD s) := by
  cases done : s.splitLeaf d a lvl e with
  | none => exact .refl s
  | some t => exact keepsLaunches_splitLeaf done

theorem keepsLaunches_splitOnce (s : State) (d va level : Nat) : KeepsLaunches s (s.splitOnce d va level) := by
  unfold State.splitOnce
  split
  case h_3 => exact .refl s
  all_goals
    split
    · exact keepsLaunches_splitLeaf_getD s _ _ _ _
    · exact .refl s

theorem keepsLaunches_splitAt (s : State) (d va : Nat) : KeepsLaunches s (s.splitAt d va) := by
  unfold State.splitAt
  split
  · exact (keepsLaunches_splitOnce s _ _ _).trans (.foldl (fun t i => keepsLaunches_splitOnce t _ _ _) _ _)
  · exact keepsLaunches_splitOnce s _ _ _

/-- The split of a launch's leaves is of memory, of translations and of cache rooms (R223). -/
theorem keepsLaunches_splitRegions (s : State) (d : Nat) (rs : List Region) : KeepsLaunches s (s.splitRegions d rs) :=
  .foldl (fun s n => ((keepsLaunches_abandonMove s n).trans (keepsLaunches_dropReplica _ n)).trans (keepsLaunches_splitAt _ _ _)) _ s

/-! ## The queue's head -/

theorem State.queue_setQueueReg (s : State) (d : DieNo) (c : BitVec 3) (q : LaunchQueue) :
    ((s.setQueueReg d c q).die d.toNat).queue c = q := by
  rw [State.setQueueReg, State.die_setDie_self s d.isLt, Die.queue]
  exact Vector.getElem_set_self c.isLt

/-- Reading the next entry's tag does not move the head. -/
theorem State.head_readTag (s : State) (d : DieNo) (c : BitVec 3) (q : LaunchQueue) :
    (((s.readTag d c q).die d.toNat).queue c).head = q.head := by
  rw [State.readTag, State.queue_setQueueReg]

@[simp] theorem State.core_readTag (s : State) (d : DieNo) (c : BitVec 3) (q : LaunchQueue) (n : Nat) :
    (s.readTag d c q).core n = s.core n := rfl

/-! ## The launch that is accepted (R12, R17, R25) -/

/-- A launch as it waits for its first superstep, with what its tables say. -/
def Launch.accepting (l : Launch) (s : State) (t : Tables) : Launch :=
  { l with
    args := t.args, levels := t.levels, regions := t.regions, turn := s.turns,
    ts := w64 (nextMultiple (s.time.toNat + 1) (quantumOf t.levels)),
    eligible := if l.req.det then s.eligible l.req.rooms none else [] }

/-- A launch of a grid that is not empty joins the launches once its leaves are split; a deterministic one may begin to lock
the clocks (R453). -/
theorem State.accept_adds {s : State} {l : Launch} {t : Tables} (steps : superstepsOf t.levels ≠ 0) (grid : gridSize t.levels ≠ 0) :
    ∃ v, KeepsLaunches s v ∧ s.accept l t = .next (v.addLaunch (l.accepting s t)) := by
  have nonempty : ¬ (superstepsOf t.levels = 0 || gridSize t.levels = 0) := by simp [steps, grid]
  have kept := keepsLaunches_splitRegions s l.die.toNat t.regions
  by_cases locks : (l.req.det && !(s.splitRegions l.die.toNat t.regions).clocksLocked) = true
  · exact ⟨{ s.splitRegions l.die.toNat t.regions with locking := true },
      kept.trans ⟨rfl, rfl, rfl, rfl, rfl, fun _ => rfl, fun _ => rfl⟩, (if_neg nonempty).trans (congrArg _ (if_pos locks))⟩
  · exact ⟨s.splitRegions l.die.toNat t.regions, kept, (if_neg nonempty).trans (congrArg _ (if_neg locks))⟩

/-- A core whose good banks cover a request is among those that fit it (R13). -/
theorem State.fitting_ne_nil {s : State} {req : BitVec 32} (fits : ∃ n < 1024, requestBanks req ≤ (s.core n).goodBanks) :
    s.fitting req none ≠ [] := by
  obtain ⟨n, less, covers⟩ := fits
  refine List.ne_nil_of_mem (a := n) (List.mem_filter.2 ⟨List.mem_range.2 less, ?_⟩)
  rw [onDie, Bool.true_and]
  exact decide_eq_true covers

/-- A legal record with legal tables is accepted where some core fits. -/
theorem State.judge_accepts {s u before : State} {l : Launch} {va : Nat} {b e : List Byte} {tb : Tables}
    (online : s.modState = .online) (cls : l.req.cls = l.cls.toNat) (reserved : ∀ x ∈ e.drop 0x10, x = 0)
    (legal : recordLegal va b l.req = true) (tables : (readTables l.die.toNat b).run s = .ok (some tb, u))
    (fits : u.fitting l.req.rooms none ≠ []) : s.judge before l va b e = u.accept l tb := by
  have zero : (e.drop 0x10).all (fun x => x == 0) = true := List.all_eq_true.2 fun x there => beq_iff_eq.2 (reserved x there)
  have cores : (u.fitting l.req.rooms none).isEmpty = false := List.isEmpty_eq_false_iff.2 fits
  simp only [State.judge, online, cls, zero, legal, tables, cores, bne_self_eq_false, ne_eq, not_true_eq_false, decide_false,
    Bool.not_true, Bool.or_self, Bool.false_eq_true, if_false]

/-- An entry that is due and whose tag came in time is judged by the record that it names. -/
theorem exec_launchEntryConsume_judges {s t : State} {d : DieNo} {c : BitVec 3} {q : LaunchQueue} {e b : List Byte}
    (own : q = (s.die d.toNat).queue c) (entry : e = s.queueEntry q) (due : s.entryDue q = true) (tag : q.tagOk e = true)
    (timely : q.misread = false ∨ s.time.toNat ≤ q.limit) (root : s.taskRoot.getLsbD 0 = true)
    (record : (readLong (dispatchView d.toNat) (fieldAt e 8 8) 128).run s = .ok (b, t)) :
    exec (.launchEntryConsume d c) s =
      (t.readTag d c q.consumed).judge s (Launch.make t.nextId d c (parseLaunch b) s.time) (fieldAt e 8 8) b e := by
  have reread : (q.misread && decide (q.limit < s.time.toNat)) = false := by
    rcases timely with fresh | early
    · rw [fresh, Bool.false_and]
    · rw [decide_eq_false (Nat.not_lt.2 early), Bool.and_false]
  change execLaunchEntryConsume d c s = _
  simp [execLaunchEntryConsume, ← own, ← entry, due, tag, reread, State.takeEntry, root, record]

/-! ## The statement -/

/-- Settles O42: the entry is judged, its launch accepted, and of what the statement speaks of only the books of launches and of
the queue change. -/
theorem launchAccepted : Obligations.LaunchAccepted := by
  intro s t u d c q e b r tb own entry due tag timely record readRecord parsed tables readRest online cls reserved legal root fits
    steps grid
  subst parsed
  have first := readRecord.keepsLaunches
  have second := readRest.keepsLaunches
  have fitting : u.fitting (parseLaunch b).rooms none ≠ [] := State.fitting_ne_nil <| fits.imp fun n ⟨less, covers⟩ =>
    ⟨less, by rwa [second.goodBanks, State.core_readTag, first.goodBanks]⟩
  have judged := (exec_launchEntryConsume_judges own entry due tag timely root record).trans
    (State.judge_accepts (first.modState.trans online) cls reserved legal tables fitting)
  obtain ⟨v, third, accepted⟩ := State.accept_adds (s := u) (l := Launch.make t.nextId d c (parseLaunch b) s.time) steps grid
  have whole := second.trans third
  have time : u.time = s.time := second.time.trans first.time
  refine ⟨_, (Launch.make t.nextId d c (parseLaunch b) s.time).accepting u tb, judged.trans accepted, ?_, first.nextId, ?_,
    rfl, rfl, rfl, rfl, rfl, rfl, rfl, rfl, rfl, rfl, ?_, ?_, ?_, fun n => ?_⟩
  · exact congrArg (· ++ _) (whole.launches.trans first.launches)
  · exact congrArg (· + 1) (whole.nextId.trans first.nextId)
  · change (w64 (nextMultiple (u.time.toNat + 1) (quantumOf tb.levels))).toNat = _
    rw [time, w64, BitVec.toNat_ofNat, nextMultiple, ceilDiv]
  · exact (congrArg LaunchQueue.head (whole.queue d.toNat c)).trans (State.head_readTag t d c q.consumed)
  · exact whole.tasks.trans first.tasks
  · refine (whole.core n).trans ?_
    rw [State.core_readTag, first.core]
    rfl

end Sys2Proof.Machine
end
